-- ==== Sys2Proof/Word.lean ====
section
/-! DEFINITION. The word types of the V60 and the sparse map that every table of the state is written with. -/

namespace Sys2Proof

/-- A byte of memory. -/
abbrev Byte := BitVec 8

/-- The 32-bit word of a main register (R78). -/
abbrev Word32 := BitVec 32

/-- The 64-bit word of a `g` or `k` register, a code pointer, or an address (R64, R78). -/
abbrev Word64 := BitVec 64

/-- A set of lanes: bit i stands for logical lane i (R29). -/
abbrev Mask := BitVec 64

/-- One 32-bit value for each of the 64 lanes, lane 0 first; a lane beyond the list reads 0. -/
abbrev Row := List Word32

/-- A sparse table: pairs of a key and a value, keys rising. -/
abbrev SMap (α : Type) := List (Nat × α)

end Sys2Proof
end

