-- ==== Sys2Proof/Syntax.lean ====
section
/-! DEFINITION. The instruction set: the operand forms of the instruction word, and `Instr`, one constructor for each row
of the opcode table: the 192 instructions, the issue of a reserved opcode, and the events and firmware commands. -/

namespace Sys2Proof

/-- A TYPE code (R83, R95).  `.bN` shares the code of `.nN`, so it has no name of its own. -/
inductive Ty
  | s8 | s16 | s32 | s64 | n8 | n16 | n32 | n64 | f32 | f16 | bf16 | vt8 | e2m1 | e8m0
  deriving DecidableEq, Repr

/-- The rounding modes of R99. -/
inductive Rnd
  | rn | rz | ru | rd
  deriving DecidableEq, Repr

/-- An operand specifier (R78).  The reserved indices have no value here: the decoder refuses them. -/
inductive Spec
  | main (i : Fin 256)
  | q (i : Fin 8)
  | l (i : Fin 2)
  | zero
  | lane
  | g (i : Fin 64)
  | k (i : Fin 12)
  | imm (x : BitVec 8)
  deriving DecidableEq, Repr

/-- Field C of format A: a specifier, or with CIMM = 1 the immediate IMM10 (R82). -/
inductive SrcC
  | spec (s : Spec)
  | imm10 (x : BitVec 10)
  deriving DecidableEq, Repr

/-- The guard of formats A, M, B and S (R81): `neg` is GSENSE. -/
inductive Guard
  | always
  | mask (k : Fin 12) (neg : Bool)
  deriving DecidableEq, Repr

/-- The ordering class of a memory access (R85). -/
inductive MemClass
  | weak | strong | vol
  deriving DecidableEq, Repr

/-- The scope of a memory access (R85). -/
inductive Scope
  | thread | team | cluster | device | system
  deriving DecidableEq, Repr

/-- KIND of an atomic (R341). -/
inductive AtomKind
  | s | n | f
  deriving DecidableEq, Repr

/-- OP of an atomic (R341). -/
inductive AtomOp
  | add | min | max | and | or | xor | exch | cas | inc | dec
  deriving DecidableEq, Repr

/-- The Hadamard option of `CVTQ`, `MMA` and `MMAS` (R110, R111, R319). -/
inductive Had
  | none | had16 | had32
  deriving DecidableEq, Repr

/-- MODE of `MKSET` in its W form (R286). -/
inductive MaskMode
  | lo | hi | sx
  deriving DecidableEq, Repr

/-- The engine class of an instruction or of a clause (R67).  `NOP` has none: it belongs to every class. -/
inductive Cls
  | alu | sfu | mem | matrix | copy | ctrl | sys
  deriving DecidableEq, Repr

/-! ### The fields of an instruction word, one structure for each layout -/

/-- Format A in the common layout of R82. -/
structure FA where
  guard : Guard
  d : Spec
  a : Spec
  b : Spec
  c : SrcC
  ty : Ty
  rnd : Rnd
  sub : Fin 8
  deriving DecidableEq, Repr

/-- Format A with no modifier, or with bits 2–0 alone. -/
structure FSub where
  guard : Guard
  d : Spec
  a : Spec
  b : Spec
  c : Spec
  sub : Fin 8
  deriving DecidableEq, Repr

/-- Format W (R84). -/
structure FW where
  d : Spec
  a : Spec
  imm : BitVec 32
  ty : Ty
  deriving DecidableEq, Repr

/-- `MKSET` in its W form (R286). -/
structure FWM where
  d : Spec
  a : Spec
  imm : BitVec 32
  mode : MaskMode
  deriving DecidableEq, Repr

/-- `LOP3` (R295). -/
structure FLop where
  guard : Guard
  d : Spec
  a : Spec
  b : Spec
  c : SrcC
  table : BitVec 8
  inv : Bool
  deriving DecidableEq, Repr

/-- `SHFLX` (R325): `mode` 0–3 is `.xor`, `.idx`, `.rotu`, `.rotd`; segments hold 2^wid lanes. -/
structure FShx where
  guard : Guard
  d : Spec
  a : Spec
  b : Spec
  c : Spec
  ty : Ty
  mode : Fin 4
  wid : Fin 7
  deriving DecidableEq, Repr

/-- `CVT` (R318). -/
structure FCvt where
  guard : Guard
  d : Spec
  a : Spec
  b : Spec
  sty : Ty
  dty : Ty
  rnd : Rnd
  wrap : Bool
  hi : Bool
  pk : Bool
  deriving DecidableEq, Repr

/-- `CVTQ` (R319): `b` holds the byte select of `.e2m1`. -/
structure FCvq where
  guard : Guard
  d : Spec
  a : Spec
  b : Spec
  c : Spec
  ty : Ty
  rnd : Rnd
  had : Had
  deriving DecidableEq, Repr

/-- Format M (R85): `low` is bits 3–0. -/
structure FM where
  guard : Guard
  d : Spec
  a : Spec
  off : BitVec 20
  sx : Bool
  cls : MemClass
  scope : Scope
  low : Fin 16
  deriving DecidableEq, Repr

/-- The atomics (R341). -/
structure FAt where
  guard : Guard
  d : Spec
  a : Spec
  b : Spec
  c : Spec
  scope : Scope
  kind : AtomKind
  op : AtomOp
  deriving DecidableEq, Repr

/-- The barrier instructions (R168). -/
structure FBar where
  guard : Guard
  d : Spec
  a : Spec
  b : Spec
  cluster : Bool
  bytes : Bool
  deriving DecidableEq, Repr

/-- The copies (R347, R349): `bar` is BE and BAR, `tag` is TE and TAG. -/
structure FCpy where
  a : Spec
  b : Spec
  c : Spec
  bar : Option (Fin 64)
  tag : Option (Fin 64)
  deriving DecidableEq, Repr

/-- `MMA` and `MMAS` (R357, R358). -/
structure FMma where
  td : Fin 32
  ts : Fin 32
  a : Spec
  b : Spec
  c : Spec
  ga : Bool
  gb : Bool
  strict : Bool
  had : Had
  sel : Fin 4
  deriving DecidableEq, Repr

/-- `MLDT`, `MSTT` and `MDRAIN` (R360, R361). -/
structure FTile where
  td : Fin 32
  ts : Fin 32
  a : Spec
  b : Spec
  c : Spec
  ty : Ty
  g : Bool
  z : Bool
  tag : Option (Fin 64)
  deriving DecidableEq, Repr

/-- The other format-X instructions (R359, R363–R367): `rows`, `skip` and `spill` are `GREVAL`'s. -/
structure FEng where
  td : Fin 32
  ts : Fin 32
  a : Spec
  b : Spec
  c : Spec
  rows : Bool
  skip : Bool
  spill : Bool
  tag : Option (Fin 64)
  deriving DecidableEq, Repr

/-- Format B (R87): `z` is bit 0, which `BRC` alone uses. -/
structure FB where
  guard : Guard
  d : Spec
  a : Spec
  off : BitVec 20
  slot : Fin 16
  z : Bool
  deriving DecidableEq, Repr

/-- Format S (R88): `mode` is bits 2–0. -/
structure FS where
  guard : Guard
  d : Spec
  a : Spec
  imm : BitVec 20
  mode : Fin 8
  deriving DecidableEq, Repr

/-- What a peer's inbound request does (R385, R229). -/
inductive Inbound
  | read (len : Nat)
  | write (bytes : List (BitVec 8))
  | atomic (op : AtomOp) (kind : AtomKind) (wide : Bool) (operands : List (BitVec 64 × BitVec 64))
  deriving DecidableEq, Repr

/-- What a peer answers to a request of this device (R385–R388): done, with the bytes or old values read, dropped as
older, or refused. -/
inductive LinkReply
  | done (data : List (BitVec 128))
  | dropped
  | refused
  deriving DecidableEq, Repr

/-- Where an uncorrectable error strikes (R410, R411). -/
inductive ErrSite
  | memory (dpa : Nat)
  | localMem (core team off : Nat)
  | register (core slot : Nat) (spec : BitVec 10)
  | tile (core team tile : Nat)
  | ruleFile (core : Nat)
  deriving DecidableEq, Repr

/-- The indivisible steps of the device, one constructor for each row of the opcode table.  The instructions carry the
fields of their word; an event carries what identifies it; a command's arguments stand in its mailbox, which
`State.mailbox` names. -/
inductive Instr
  /-- NOP: No operation; valid in every clause class. (R275) -/
  | nop
  /-- BRA: Branches unconditionally to a clause or slot given by an offset. (R276) -/
  | bra (f : FB)
  /-- BRC: Branches per thread on a condition operand, optionally inverted. (R276) -/
  | brc (f : FB)
  /-- BRX: Branches each thread to the code pointer held in a register. (R277) -/
  | brx (f : FSub)
  /-- CALL: Branches to an offset target and writes the return pointer. (R276) -/
  | call (f : FB)
  /-- CALLX: Branches through a register and writes the return pointer. (R277) -/
  | callx (f : FSub)
  /-- RET: Returns through a register-held code pointer, as BRX does. (R277) -/
  | ret (f : FSub)
  /-- EXIT: Ends the guarded threads and clears their bits in every mask register. (R279) -/
  | exit (f : FSub)
  /-- YIELD: Moves the group to the end of the issue rotation for one turn. (R281) -/
  | yield (f : FSub)
  /-- JOIN: Adds the active guarded threads to a lane-mask register. (R40) -/
  | join (f : FSub)
  /-- LEAVE: Removes the active guarded threads from a lane-mask register. (R40) -/
  | leave (f : FSub)
  /-- WAITM: Puts member threads into Mask-wait on a mask register, or raises a membership trap. (R40) -/
  | waitm (f : FSub)
  /-- MKSET_A: Writes a mask register by ballot or copy from register sources. (R285) -/
  | mksetA (f : FSub)
  /-- MKSET_W: Writes a mask register from a 32-bit immediate in low, high or sign-extended form. (R286) -/
  | mksetW (f : FWM)
  /-- MKLOP: Combines masks with a logic operation into a mask register. (R287) -/
  | mklop (f : FSub)
  /-- MKCNT: Gives each thread a population count of a mask value. (R288) -/
  | mkcnt (f : FSub)
  /-- MKLANE: Gives each thread a selected lane number from a mask value. (R288) -/
  | mklane (f : FSub)
  /-- TRAP: Raises the program trap 0x50 with a chosen code. (R282) -/
  | trap (f : FS)
  /-- BPT: Raises the breakpoint trap and swaps the group out. (R283) -/
  | bpt (f : FS)
  /-- IADD_A: Integer add of two register sources, optionally saturating. (R290) -/
  | iaddA (f : FA)
  /-- IADD_W: Integer add of a source and a 32-bit immediate. (R290) -/
  | iaddW (f : FW)
  /-- ISUB_A: Integer subtract of two register sources. (R290) -/
  | isubA (f : FA)
  /-- ISUB_W: Computes the 32-bit immediate minus a source. (R290) -/
  | isubW (f : FW)
  /-- IADDC: Adds or subtracts with carry-in, returning the word or the carry. (R291) -/
  | iaddc (f : FA)
  /-- IMUL_A: Integer multiply of two register sources, low bits. (R290) -/
  | imulA (f : FA)
  /-- IMUL_W: Integer multiply of a source by a 32-bit immediate. (R290) -/
  | imulW (f : FW)
  /-- IMULH: High 32 bits of a 32-bit by 32-bit product. (R290) -/
  | imulh (f : FA)
  /-- IMAD_A: Integer multiply-add of three register sources. (R292) -/
  | imadA (f : FA)
  /-- IMAD_W: Computes A times an immediate plus D into D. (R292) -/
  | imadW (f : FW)
  /-- IMADW: Multiplies two 32-bit sources and adds a 64-bit source. (R292) -/
  | imadw (f : FA)
  /-- IDIV: Long-latency integer division with defined results for zero and overflow. (R293) -/
  | idiv (f : FA)
  /-- IREM: Long-latency integer remainder with the sign of the dividend. (R293) -/
  | irem (f : FA)
  /-- IMIN_A: Integer minimum of two register sources. (R290) -/
  | iminA (f : FA)
  /-- IMIN_W: Integer minimum of a source and an immediate. (R290) -/
  | iminW (f : FW)
  /-- IMAX_A: Integer maximum of two register sources. (R290) -/
  | imaxA (f : FA)
  /-- IMAX_W: Integer maximum of a source and an immediate. (R290) -/
  | imaxW (f : FW)
  /-- IABS: Integer absolute value, optionally saturating. (R294) -/
  | iabs (f : FA)
  /-- INEG: Integer negation, optionally saturating. (R294) -/
  | ineg (f : FA)
  /-- AND_A: Bitwise AND of two register sources. (R290) -/
  | andA (f : FA)
  /-- AND_W: Bitwise AND of a source and an immediate. (R290) -/
  | andW (f : FW)
  /-- OR_A: Bitwise OR of two register sources. (R290) -/
  | orA (f : FA)
  /-- OR_W: Bitwise OR of a source and an immediate. (R290) -/
  | orW (f : FW)
  /-- XOR_A: Bitwise XOR of two register sources. (R290) -/
  | xorA (f : FA)
  /-- XOR_W: Bitwise XOR of a source and an immediate. (R290) -/
  | xorW (f : FW)
  /-- NOT: Bitwise complement of a source. (R294) -/
  | notA (f : FA)
  /-- LOP3: Applies a three-input truth table bit by bit. (R295) -/
  | lop3 (f : FLop)
  /-- SHL: Logical shift left by a count. (R296) -/
  | shl (f : FA)
  /-- SHR: Logical shift right by a count. (R296) -/
  | shr (f : FA)
  /-- SAR: Arithmetic shift right by a count. (R296) -/
  | sar (f : FA)
  /-- ROT: Rotates left or right by a count modulo 32. (R296) -/
  | rot (f : FA)
  /-- SHF: Funnel shift of a 64-bit concatenation. (R297) -/
  | shf (f : FA)
  /-- POPC: Counts set bits. (R298) -/
  | popc (f : FA)
  /-- CLZ: Counts leading zero bits. (R298) -/
  | clz (f : FA)
  /-- CTZ: Counts trailing zero bits. (R298) -/
  | ctz (f : FA)
  /-- BREV: Reverses the bit order of a word. (R298) -/
  | brev (f : FA)
  /-- BFE: Extracts a bit field, sign- or zero-extended. (R299) -/
  | bfe (f : FA)
  /-- BFI: Inserts low bits of a source into a field of the destination. (R300) -/
  | bfi (f : FA)
  /-- PRMT: Builds a word from selected, optionally complemented bytes. (R301) -/
  | prmt (f : FA)
  /-- ISET_A: Integer comparison of two sources. (R302) -/
  | isetA (f : FA)
  /-- ISET_W: Three-way integer comparison against an immediate. (R302) -/
  | isetW (f : FW)
  /-- ISEL: Selects between two sources by a condition. (R303) -/
  | isel (f : FA)
  /-- MOV: Copies a source to the destination. (R304) -/
  | mov (f : FA)
  /-- MOVI: Writes a 32-bit immediate, optionally extended to 64 bits. (R305) -/
  | movi (f : FW)
  /-- MOVG: Copies one lane's value into a g register. (R306) -/
  | movg (f : FA)
  /-- LEA: Adds a scaled 32-bit index to a 64-bit base. (R307) -/
  | lea (f : FA)
  /-- IADD64: Adds two 64-bit values, optionally saturating. (R308) -/
  | iadd64 (f : FA)
  /-- IDOT4: Four-way byte dot product added to an accumulator. (R309) -/
  | idot4 (f : FA)
  /-- FADD_A: FP32 addition of two register sources. (R311) -/
  | faddA (f : FA)
  /-- FADD_W: FP32 addition of a source and an immediate. (R311) -/
  | faddW (f : FW)
  /-- FSUB: FP32 subtraction. (R311) -/
  | fsub (f : FA)
  /-- FMUL_A: FP32 multiplication of two register sources. (R311) -/
  | fmulA (f : FA)
  /-- FMUL_W: FP32 multiplication by an immediate. (R311) -/
  | fmulW (f : FW)
  /-- FFMA_A: FP32 fused multiply-add with one rounding. (R312) -/
  | ffmaA (f : FA)
  /-- FFMA_W: Computes A times an immediate plus D with one rounding. (R312) -/
  | ffmaW (f : FW)
  /-- FMIN_A: FP32 minimum of two register sources. (R311) -/
  | fminA (f : FA)
  /-- FMIN_W: FP32 minimum of a source and an immediate. (R311) -/
  | fminW (f : FW)
  /-- FMAX_A: FP32 maximum of two register sources. (R311) -/
  | fmaxA (f : FA)
  /-- FMAX_W: FP32 maximum of a source and an immediate. (R311) -/
  | fmaxW (f : FW)
  /-- FSET_A: FP32 comparison of two sources. (R313) -/
  | fsetA (f : FA)
  /-- FSET_W: Three-way FP32 comparison against an immediate. (R313) -/
  | fsetW (f : FW)
  /-- FCLASS: Writes a one-hot class of a floating value. (R314) -/
  | fclass (f : FA)
  /-- FRCP: Long-latency correctly rounded reciprocal. (R315) -/
  | frcp (f : FA)
  /-- FRSQ: Long-latency reciprocal square root. (R315) -/
  | frsq (f : FA)
  /-- FSQRT: Long-latency square root. (R315) -/
  | fsqrt (f : FA)
  /-- FDIV: Long-latency FP32 division. (R315) -/
  | fdiv (f : FA)
  /-- FEXP2: Long-latency base-2 exponential. (R315) -/
  | fexp2 (f : FA)
  /-- FLOG2: Long-latency base-2 logarithm. (R315) -/
  | flog2 (f : FA)
  /-- FSIN: Long-latency sine. (R315) -/
  | fsin (f : FA)
  /-- FCOS: Long-latency cosine. (R315) -/
  | fcos (f : FA)
  /-- FTANH: Long-latency hyperbolic tangent. (R315) -/
  | ftanh (f : FA)
  /-- HADD2: Adds both elements of packed FP16 pairs. (R317) -/
  | hadd2 (f : FA)
  /-- HMUL2: Multiplies both elements of packed FP16 pairs. (R317) -/
  | hmul2 (f : FA)
  /-- HFMA2: Fused multiply-add on packed FP16 pairs. (R317) -/
  | hfma2 (f : FA)
  /-- HMNMX2: Minimum or maximum on packed FP16 pairs. (R317) -/
  | hmnmx2 (f : FA)
  /-- BFMA2: Fused multiply-add on packed BF16 pairs. (R317) -/
  | bfma2 (f : FA)
  /-- CVT: Converts one value between types, with pack, high and wrap options. (R318) -/
  | cvt (f : FCvt)
  /-- CVTQ: Block-quantises FP32 registers, optionally after a Hadamard transform. (R319) -/
  | cvtq (f : FCvq)
  /-- CVTD: Decodes E2M1 elements under an E8M0 scale. (R320) -/
  | cvtd (f : FA)
  /-- FRND: Rounds to an integral FP32 value. (R321) -/
  | frnd (f : FA)
  /-- FSCALE: Multiplies by a power of two with one rounding. (R322) -/
  | fscale (f : FA)
  /-- SHFL: Lane collective that permutes values across lanes. (R324) -/
  | shfl (f : FA)
  /-- SHFLX: Lane shuffle within aligned segments. (R325) -/
  | shflx (f : FShx)
  /-- BCAST: Broadcasts one lane's value to every member. (R326) -/
  | bcast (f : FA)
  /-- VOTE: Combines member predicates into a vote result. (R327) -/
  | vote (f : FA)
  /-- REDUX: Integer reduction over the participant set. (R328) -/
  | redux (f : FA)
  /-- FREDUX: FP32 reduction with an exact sum and one rounding. (R329) -/
  | fredux (f : FA)
  /-- SCAN: Prefix scan over members in lane order. (R330) -/
  | scan (f : FA)
  /-- MATCH: Relates each member's value to equal values of others. (R331) -/
  | laneMatch (f : FA)
  /-- LD_B8: Global 8-bit load. (R336) -/
  | ldB8 (f : FM)
  /-- LD_B16: Global 16-bit load. (R336) -/
  | ldB16 (f : FM)
  /-- LD_B32: Global 32-bit load. (R336) -/
  | ldB32 (f : FM)
  /-- LD_B64: Global 64-bit load. (R336) -/
  | ldB64 (f : FM)
  /-- LD_B128: Global 128-bit load. (R336) -/
  | ldB128 (f : FM)
  /-- ST_B8: Global 8-bit store. (R336) -/
  | stB8 (f : FM)
  /-- ST_B16: Global 16-bit store. (R336) -/
  | stB16 (f : FM)
  /-- ST_B32: Global 32-bit store. (R336) -/
  | stB32 (f : FM)
  /-- ST_B64: Global 64-bit store. (R336) -/
  | stB64 (f : FM)
  /-- ST_B128: Global 128-bit store. (R336) -/
  | stB128 (f : FM)
  /-- LDL_B8: Local 8-bit load. (R337) -/
  | ldlB8 (f : FM)
  /-- LDL_B16: Local 16-bit load. (R337) -/
  | ldlB16 (f : FM)
  /-- LDL_B32: Local 32-bit load. (R337) -/
  | ldlB32 (f : FM)
  /-- LDL_B64: Local 64-bit load. (R337) -/
  | ldlB64 (f : FM)
  /-- LDL_B128: Local 128-bit load. (R337) -/
  | ldlB128 (f : FM)
  /-- STL_B8: Local 8-bit store. (R337) -/
  | stlB8 (f : FM)
  /-- STL_B16: Local 16-bit store. (R337) -/
  | stlB16 (f : FM)
  /-- STL_B32: Local 32-bit store. (R337) -/
  | stlB32 (f : FM)
  /-- STL_B64: Local 64-bit store. (R337) -/
  | stlB64 (f : FM)
  /-- STL_B128: Local 128-bit store. (R337) -/
  | stlB128 (f : FM)
  /-- LDT: Loads 16 bytes per thread and transposes words within each slice. (R338) -/
  | ldt (f : FM)
  /-- WMAP: Maps a local range as a window over a global range. (R344) -/
  | wmap (f : FSub)
  /-- WUNMAP: Unmaps a window after writing back its dirty bytes. (R344) -/
  | wunmap (f : FSub)
  /-- WSYNC: Writes back a window's bytes dirtied before the issuing clock. (R344) -/
  | wsync (f : FSub)
  /-- WINV: Invalidates a window's Clean words and leases. (R344) -/
  | winv (f : FSub)
  /-- WQUERY: Returns the status word of a window. (R344) -/
  | wquery (f : FSub)
  /-- ATOM_B32: 32-bit global atomic returning old values. (R341) -/
  | atomB32 (f : FAt)
  /-- ATOM_B64: 64-bit global atomic returning old values. (R341) -/
  | atomB64 (f : FAt)
  /-- ATOML_B32: 32-bit local atomic. (R341) -/
  | atomlB32 (f : FAt)
  /-- ATOML_B64: 64-bit local atomic. (R341) -/
  | atomlB64 (f : FAt)
  /-- RED_B32: 32-bit global reduction without return. (R341) -/
  | redB32 (f : FAt)
  /-- RED_B64: 64-bit global reduction without return. (R341) -/
  | redB64 (f : FAt)
  /-- FENCE: Orders earlier accesses before later ones at a scope. (R342) -/
  | fence (f : FS)
  /-- PREF: Prefetches a line into the L1 or to its home. (R339) -/
  | pref (f : FM)
  /-- SURVEY: Reports which pages of a span are backed, optionally forcing write-back and release. (R196) -/
  | survey (f : FSub)
  /-- PROBE: Reports the backing, tier, tag and non-datum line count of a page. (R197) -/
  | probe (f : FSub)
  /-- DISCARD: Returns aperture pages to the datum. (R198) -/
  | discard (f : FSub)
  /-- SEAL: Makes a local range read-only and shareable. (R346) -/
  | sealRange (f : FSub)
  /-- UNSEAL: Ends a seal once its reference count is zero. (R346) -/
  | unsealRange (f : FSub)
  /-- STAG: Sets a granule's memory tag to the pointer's tag. (R345) -/
  | stag (f : FM)
  /-- LTAG: Reads a granule's memory tag. (R345) -/
  | ltag (f : FM)
  /-- CCTL: Drops cached lines from the L1 or instruction caches. (R340) -/
  | cctl (f : FM)
  /-- BARINIT: Initialises a barrier object and releases accesses held on it. (R169) -/
  | barinit (f : FBar)
  /-- BARARV: Counts the group's arrival at a barrier phase. (R169) -/
  | bararv (f : FBar)
  /-- BARWAIT: Waits for a barrier phase to complete. (R169) -/
  | barwait (f : FBar)
  /-- BAREXP: Posts an expected byte count on a barrier. (R169) -/
  | barexp (f : FBar)
  /-- BARTRY: Tests whether a barrier phase has completed. (R169) -/
  | bartry (f : FBar)
  /-- CPY_G2L: Copy engine copy from global to local memory. (R347) -/
  | cpyG2l (f : FCpy)
  /-- CPY_L2G: Copy engine copy from local to global memory. (R347) -/
  | cpyL2g (f : FCpy)
  /-- CPY_L2L: Copy engine copy between local ranges. (R347) -/
  | cpyL2l (f : FCpy)
  /-- CPYG: Gathers indexed global rows into local memory. (R349) -/
  | cpyg (f : FCpy)
  /-- CPYS: Scatters local rows to indexed global rows. (R349) -/
  | cpys (f : FCpy)
  /-- TAGWAIT_ANY: Waits until any selected completion tag is set. (R351) -/
  | tagwaitAny (f : FSub)
  /-- TAGWAIT_ALL: Waits until all selected completion tags are set. (R351) -/
  | tagwaitAll (f : FSub)
  /-- TAGFIRST: Returns the lowest set selected completion tag. (R351) -/
  | tagfirst (f : FSub)
  /-- TAGCLR: Clears selected bits of READY. (R351) -/
  | tagclr (f : FSub)
  /-- MMA_F16: Tile multiply-accumulate with FP16 inputs. (R357) -/
  | mmaF16 (f : FMma)
  /-- MMA_BF16: Tile multiply-accumulate with BF16 inputs. (R357) -/
  | mmaBf16 (f : FMma)
  /-- MMA_VT8: Tile multiply-accumulate with VT8 inputs. (R357) -/
  | mmaVt8 (f : FMma)
  /-- MMA_S8: Tile multiply-accumulate with signed 8-bit inputs into INT32. (R357) -/
  | mmaS8 (f : FMma)
  /-- MMA_N8: Tile multiply-accumulate with unsigned 8-bit inputs into INT32. (R357) -/
  | mmaN8 (f : FMma)
  /-- MMAS: Block-scaled E2M1 tile multiply-accumulate. (R358) -/
  | mmas (f : FMma)
  /-- MZERO: Clears an accumulator tile. (R359) -/
  | mzero (f : FEng)
  /-- MLDT: Loads a tile from local memory. (R360) -/
  | mldt (f : FTile)
  /-- MSTT: Stores a tile to local memory. (R360) -/
  | mstt (f : FTile)
  /-- MDRAIN: Writes a tile out through scale, dropout and residual epilogue. (R362) -/
  | mdrain (f : FTile)
  /-- MALLOC: Allocates and zeroes accumulator tiles for the team. (R363) -/
  | malloc (f : FEng)
  /-- MFREE: Frees accumulator tiles of the team. (R363) -/
  | mfree (f : FEng)
  /-- GRBIND: Binds or releases a grammar and clears the rule file. (R364) -/
  | grbind (f : FEng)
  /-- GREVAL: Evaluates a range of grammar rules or rows. (R365) -/
  | greval (f : FEng)
  /-- GRSTAT: Returns the team's evaluator status word. (R366) -/
  | grstat (f : FEng)
  /-- NZSCAN: Compacts the indices of nonzero elements of a vector. (R367) -/
  | nzscan (f : FEng)
  /-- LAUNCH: Enqueues a barge on a canal from device threads. (R369) -/
  | launch (f : FSub)
  /-- SNAP: Seals the live edition at a device time T. (R255) -/
  | snap (f : FS)
  /-- EDSTAT: Returns the state word of an edition. (R371) -/
  | edstat (f : FS)
  /-- SREAD_A: Reads a system register at an offset from a register. (R373) -/
  | sreadA (f : FSub)
  /-- SREAD_S: Reads a system register at an immediate offset. (R373) -/
  | sreadS (f : FS)
  /-- SWRITE_A: Writes a system register at an offset from a register. (R373) -/
  | swriteA (f : FSub)
  /-- SWRITE_S: Writes a system register at an immediate offset. (R373) -/
  | swriteS (f : FS)
  /-- CLOCK: Reads device time or the core cycle count. (R375) -/
  | clock (f : FS)
  /-- STAMP: Writes a mark record or sets a tile's stamp identity. (R377) -/
  | stamp (f : FS)
  /-- REGQ: Reads, shrinks or requests growth of the group's register quota. (R157) -/
  | regq (f : FS)
  /-- SIGNAL: Sends a device signal to the host after a system fence. (R378) -/
  | signal (f : FS)
  /-- HALT: Raises the halt trap or makes a precise stop. (R379) -/
  | halt (f : FS)
  /-- RESERVED_OPCODE_ISSUE: Issue of a reserved opcode value raises an illegal-instruction trap. (R92) -/
  | reservedOpcodeIssue (w : BitVec 64)
  /-- OPERANDS_CONSUMED: A long-latency operation passes its operands-consumed point and SETB is decremented. (R69) -/
  | operandsConsumed (core op : Nat)
  /-- OPERATION_COMPLETE: A long-latency operation completes, writes its destination and SETA is decremented. (R69) -/
  | operationComplete (core op : Nat)
  /-- MASK_WAIT_RELEASE: End-of-clock evaluation releases waiters on a mask register. (R41) -/
  | maskWaitRelease (core slot k : Nat)
  /-- MASK_WAIT_LEAVE: Released threads leave Mask-wait once their earlier accesses are done. (R41) -/
  | maskWaitLeave (core slot mark : Nat)
  /-- COLLECTIVE_COMPLETE: A lane collective completes when every member has arrived or exited. (R43) -/
  | collectiveComplete (core slot lane : Nat)
  /-- COLLECTIVE_DELIVER: Arrived members receive results once their earlier accesses are done. (R43) -/
  | collectiveDeliver (core slot mark : Nat)
  /-- GROUP_TRAP_STOP: A trapping group stops at instruction boundaries and is handed to a keeper. (R51) -/
  | groupTrapStop (core slot : Nat)
  /-- GROUP_RESTORE: A swapped-out group is restored once its fault is cleared and words are free. (R161) -/
  | groupRestore (core slot : Nat)
  /-- NATURAL_SWAP: A waiting active group is exchanged for the longest-ready pending group. (R151) -/
  | naturalSwap (core leaving entering : Nat)
  /-- FORCED_SWAP: Every 128 clocks while a pending group is starved, the earliest promoted group is demoted. (R151) -/
  | forcedSwap (core : Nat)
  /-- SCORE_DECAY: Every 1,024 clocks the locality score is halved. (R154) -/
  | scoreDecay (core : Nat)
  /-- REGQ_GRANT: A queued quota increase is granted once enough words are free. (R157) -/
  | regqGrant (core team : Nat)
  /-- GROUP_SLOT_RELEASE: An exited group's slot and quota return once its operations complete. (R280) -/
  | groupSlotRelease (core slot : Nat)
  /-- CANAL_WATCH_STORE: A store performed to a watched canal line drives the canal engine. (R134) -/
  | canalWatchStore (canal : Nat)
  /-- KERNEL_COMPLETE: A draining kernel whose stores are performed becomes Complete and increments DONE. (R143) -/
  | kernelComplete (kernel : Nat)
  /-- HOME_FILL_REQUEST: A home serves a line fill and grants a lease. (R217) -/
  | homeFillRequest (core op lane : Nat) (bytes : BitVec 16)
  /-- HOME_STORE_REQUEST: A home performs a store and returns its GWCT. (R218) -/
  | homeStoreRequest (core slot id : Nat) (bytes : BitVec 16)
  /-- HOME_ATOMIC_REQUEST: A home performs one aggregated atomic request indivisibly. (R222) -/
  | homeAtomicRequest (core op addr : Nat)
  /-- HELD_STORES_PERFORM: Held stores are performed after the pool is replenished and the context runs. (R192) -/
  | heldStoresPerform (page : Nat)
  /-- LINE_WRITEBACK: A home writes a dirty line back to its frame and recounts NDL. (R190) -/
  | lineWriteback (line : Nat)
  /-- PAGE_RELEASE: A backed aperture page with no non-datum lines is released. (R190) -/
  | pageRelease (page : Nat)
  /-- STORE_ACK_ARRIVAL: A home's acknowledgement reaches the core and updates its L1. (R210) -/
  | storeAckArrival (core slot id : Nat)
  /-- LEASE_EXPIRY: A leased line copy passes its usable limit. (R217) -/
  | leaseExpiry (core line : Nat)
  /-- FENCE_STALL_END: A fence's stall ends when device time reaches its GWCT bound. (R220) -/
  | fenceStallEnd (core op : Nat)
  /-- ENGINE_LOCK_WAIT_END: An engine access blocked by an earlier range lock proceeds. (R233) -/
  | engineLockWaitEnd (core op : Nat)
  /-- COPY_PAGE_REACH: A copy reaches a global page, translates it, and may stop on a fault. (R348) -/
  | copyPageReach (core op : Nat)
  /-- COPY_BYTE_DELIVERY: A delivered copy byte is performed and counted against its barrier. (R171) -/
  | copyByteDelivery (core op n : Nat)
  /-- COPY_COMPLETE: An engine operation completes and sets its tag. (R235) -/
  | copyComplete (core op : Nat)
  /-- MIGRATION_TICK: Every 100 µs the controller chooses frames to move between tiers. (R185) -/
  | migrationTick (die : Nat)
  /-- HEAT_DECAY: Every 1 ms frame heat counts are halved. (R185) -/
  | heatDecay (die : Nat)
  /-- MIGRATION_SWITCH: A copied page is switched to its new frame. (R186) -/
  | migrationSwitch (page : Nat)
  /-- HOST_HALF_READ: A host read of a half line makes it Shared. (R226) -/
  | hostHalfRead (dpa len : Nat)
  /-- HOST_WRITEBACK: A host writes back or gives up an owned half. (R226) -/
  | hostWriteback (half : Nat) (stores : List (Nat × BitVec 8)) (keep : Bool)
  /-- HOME_APPLY_CUT: A home applies an edition cut at time T. (R256) -/
  | homeApplyCut (edition die : Nat)
  /-- EDITION_CUT_DONE: Every home has applied the cut and the edition leaves Sealing. (R254) -/
  | editionCutDone (edition : Nat)
  /-- COW_BACKGROUND_FILL: Remaining lines of a copied page fill in the background. (R259) -/
  | cowBackgroundFill (page : Nat)
  /-- DRAIN_PAGE_WRITE: A die's drain engine writes an edition page record to the target. (R262) -/
  | drainPageWrite (die : Nat)
  /-- DRAIN_TARGET_ACK: The target acknowledges records; the last makes the edition Drained. (R262) -/
  | drainTargetAck (edition : Nat)
  /-- CHUNK_ACK_TIMEOUT: A host chunk unacknowledged for 1 s fails the edition. (R263) -/
  | chunkAckTimeout (edition : Nat)
  /-- LINK_BULK_TIMEOUT: An unacknowledged bulk request is resent after 100 µs or traps. (R386) -/
  | linkBulkTimeout (request : Nat)
  /-- LINK_INBOUND_REQUEST: A peer's request is checked, performed or refused, or dropped as older. (R385) -/
  | linkInboundRequest (peer : Nat) (slotAtt : Option (Nat × Nat)) (dpa : Nat) (access : Inbound)
  /-- PCIE_INBOUND_DMA: An inbound PCI Express access is translated and performed at the homes. (R403) -/
  | pcieInboundDma (dpa len : Nat) (write : Option (List (BitVec 8)))
  /-- CORE_IDLE_TIMEOUT: A core without resident groups for 1 µs becomes Idle. (R422) -/
  | coreIdleTimeout (core : Nat)
  /-- CORE_GATE_TIMEOUT: A core Idle for 1 ms becomes Gated. (R422) -/
  | coreGateTimeout (core : Nat)
  /-- SNAP_REQUEST_AT_REFERENCE: A SNAP request reaches the reference counter, which serialises it, counts sealed editions and chooses T or refuses. (R255) -/
  | snapRequestAtReference (core op : Nat)
  /-- REMOTE_STORE_ACKNOWLEDGE: A remote home acknowledges a remote store or atomic once its own device time has passed the access's GWCT. (R229) -/
  | remoteStoreAcknowledge (idx : Nat)
  /-- HOST_OWNERSHIP_REQUEST: A host asks for ownership of a half line. (R226) -/
  | hostOwnershipRequest (half : Nat)
  /-- HOST_OWNERSHIP_GRANT: Ownership is granted once the line's leases have passed. (R226) -/
  | hostOwnershipGrant (half : Nat) (stores : List (Nat × BitVec 8))
  /-- LINK_ACK_ARRIVAL: A peer's acknowledgement or refusal reaches the sender. (R386) -/
  | linkAckArrival (request : Nat) (reply : LinkReply)
  /-- KEEPER_RESUME: The keeper resumes a held group from the divergence register window. (R164) -/
  | keeperResume (core slot : Nat) (writes : List (Nat × BitVec 64))
  /-- HOST_DIRECTORY_MERGE: Directory regions without conflict for 100 µs merge again. (R228) -/
  | hostDirectoryMerge (base : Nat)
  /-- LINK_ABORT_TOKEN_ARRIVAL: An abort token advances the receiving end's attempt number. (R387) -/
  | linkAbortTokenArrival (slot att : Nat)
  /-- LINK_TRAINING_END: After 20 ms of training a port becomes Up, Degraded or Down. (R380) -/
  | linkTrainingEnd (port lanes peer : Nat)
  /-- LINK_LANE_ERROR: A lane exceeding its replay rate or losing alignment is dropped. (R380) -/
  | linkLaneError (port : Nat)
  /-- LINK_FLIT_RECEIVE: A flit is CRC-checked and replayed at link level until accepted. (R380) -/
  | linkFlitReceive (port : Nat) (accepted : Bool)
  /-- MAILBOX_WRITE: A write to a mailbox word without a command row of its own, such as an OVR clear. (R398) -/
  | mailboxWrite (m word : Nat) (value : BitVec 64)
  /-- LANE_FAILURE: A detected lane failure pre-empts the core, remaps lanes and resumes. (R407) -/
  | laneFailure (core lane : Nat)
  /-- TIMING_REPLAY: A flagged late transition replays a clock at half speed. (R409) -/
  | timingReplay (core : Nat)
  /-- ECC_CORRECTED: A single-bit error is corrected and counted. (R410) -/
  | eccCorrected (core : Nat)
  /-- UNCORRECTABLE_ERROR: An uncorrectable error poisons its granule. (R410) -/
  | uncorrectableError (site : ErrSite)
  /-- SCAN_COMPLETE: Scan ends and the unit returns to service or cores leave it. (R412) -/
  | scanComplete (lanes : List (Nat × Nat)) (failed : List Nat)
  /-- DIE_TEMP_105: A die at 105 °C applies a 1,000 W cap. (R425) -/
  | dieTemp105 (die : Nat)
  /-- DIE_COOL_95: A die cooled to 95 °C lifts the thermal cap. (R425) -/
  | dieCool95 (die : Nat)
  /-- COLD_RESET: Cold reset loads and verifies firmware and creates the host context. (R420) The images that fail: 0–3 a die's keeper
  firmware, 4 the operating-system loader. -/
  | coldReset (failed : List Nat)
  /-- KEEPER_FAILURE: A keeper fails; its failure is reported to the other keepers of its die, which take over its cores. (R24) -/
  | keeperFailure (die idx : Nat)
  /-- FUNCTION_READY: A function of the device finishes training or test and its readiness bit in DEVSTAT is set. (R421) -/
  | functionReady (bit : Nat)
  /-- CLAUSE_ENTRY: A gang enters a clause once its WAIT flags are clear and counts its SET flags. (R68) -/
  | clauseEntry
  /-- DISTRIBUTOR_TURN: The distributor places one team or cluster of an eligible canal's head. (R133) -/
  | distributorTurn
  /-- HELD_EVENT_POST: A held event is posted once the queue has room. (R401) -/
  | heldEventPost
  /-- SCAN_TEST_TURN: Every INTERVAL ms the next test unit starts draining. (R412) -/
  | scanTestTurn
  /-- SCAN_DRAIN_TIMEOUT: A unit not empty within DRAIN ms is skipped. (R412) -/
  | scanDrainTimeout
  /-- SCAN_UNIT_EMPTY: An emptied unit starts its scan self-test. (R412) -/
  | scanUnitEmpty
  /-- POWER_CAP_EXCEEDED: Draw above the cap for 1 ms idles issue slots. (R423) -/
  | powerCapExceeded
  /-- THERMAL_STOP: A die at 115 °C faults contexts and stops all compute cores. (R425) -/
  | thermalStop
  /-- DEVICE_SIGNAL_ACCEPTED: The host die accepts a device signal and the keeper posts its class 7 event. (R378) -/
  | deviceSignalAccepted
  /-- CTXCREATE: Creates a context record. (R122) -/
  | ctxcreate
  /-- CTXRUN: Starts dispatch of a Ready context. (R120) -/
  | ctxrun
  /-- CTXSUSPEND: Adds the HOST hold reason and saves every group. (R124) -/
  | ctxsuspend
  /-- CTXRESUME: Removes named hold reasons from a context. (R121) -/
  | ctxresume
  /-- CTXMODE: Changes a context's checked mode and lease. (R126) -/
  | ctxmode
  /-- CTXQUERY: Returns state, hold reasons, team count and fault record. (R122) -/
  | ctxquery
  /-- CTXDESTROY: Discards a context's groups, barges, held stores and frames. (R125) -/
  | ctxdestroy
  /-- CNLCREATE: Binds a canal to a context and resets its record. (R136) -/
  | cnlcreate
  /-- CNLRESUME: Re-evaluates a Faulted canal from CURSOR. (R135) -/
  | cnlresume
  /-- CNLQUERY: Returns a canal's state, cursor, count and unmet waits. (R136) -/
  | cnlquery
  /-- CNLDESTROY: Unbinds a canal and aborts its untaken kernels. (R136) -/
  | cnldestroy
  /-- PGDONE: Marks a translation fault cleared for restore or copy resume. (R162) -/
  | pgdone
  /-- RGNSET: Checks and creates a region-table entry. (R183) -/
  | rgnset
  /-- RGNPOOL: Adds frames to an aperture's pool. (R183) -/
  | rgnpool
  /-- RGNPLACE: Changes a region's placement and starts moving frames. (R185) -/
  | rgnplace
  /-- RGNCLEAR: Returns a region's frames and pool and invalidates it. (R183) -/
  | rgnclear
  /-- RGNQUERY: Returns a region's word 3 and counts, optionally clearing drops. (R183) -/
  | rgnquery
  /-- VMINV: Invalidates cached translations of a range on every core. (R177) -/
  | vminv
  /-- EDCONF: Sets a context's SNAP grant and optionally the edition reserves. (R267) -/
  | edconf
  /-- EDTARGET: Sets the archive target for later and Sealed editions. (R263) -/
  | edtarget
  /-- EDMAP: Maps a read-only view of a region in an edition. (R265) -/
  | edmap
  /-- EDUNMAP: Clears an edition view. (R267) -/
  | edunmap
  /-- EDRETIRE: Retires an edition, with force for a draining one. (R254) -/
  | edretire
  /-- EDQUERY: Returns an edition's status, T, pages written and target. (R267) -/
  | edquery
  /-- LNKTRAIN: Starts training a port. (R380) -/
  | lnktrain
  /-- LNKISOLATE: Isolates a port. (R390) -/
  | lnkisolate
  /-- LNKMAP: Maps a link slot and writes its status word. (R382) -/
  | lnkmap
  /-- LNKUNMAP: Unmaps a link slot with no request in flight. (R390) -/
  | lnkunmap
  /-- LNKABORT: Issues an abort token on a reduction slot. (R387) -/
  | lnkabort
  /-- LNKQUERY: Returns a port's state, lanes, peer and replay count. (R390) -/
  | lnkquery
  /-- LNKEXPORT: Opens or closes a DPA range to a peer. (R385) -/
  | lnkexport
  /-- HOSTEVQ: Sets the host event queue and its MSI routes. (R399) -/
  | hostevq
  /-- CORESTAT: Returns a core's lane map, service flag and error counts. (R419) -/
  | corestat
  /-- TESTCONF: Sets the in-field test interval and drain limit. (R412) -/
  | testconf
  /-- DBGAREA: Sets a context's dump area. (R419) -/
  | dbgarea
  /-- STOPCORE: Makes a precise stop of a core and writes the dump. (R415) -/
  | stopcore
  /-- DBGRESUME: Resumes stopped or forwarded groups, or faults the context. (R431) -/
  | dbgresume
  /-- WATCHSET: Arms or disarms a context watchpoint. (R414) -/
  | watchset
  /-- DEVSTAT: Returns the device readiness word. (R421) -/
  | devstat
  /-- PWRCAP: Sets the module power cap. (R423) -/
  | pwrcap
  /-- DIERESUME: Ends a thermal stop after scan-testing every core. (R425) -/
  | dieresume
  deriving DecidableEq, Repr

end Sys2Proof
end

