-- ==== Sys2Proof/WellFormed.lean ====
section
/-! DEFINITION. The encoding faults of R79 and R93 that do not depend on the state: `Instr.wf` holds of exactly the
instructions whose every field is a setting that its entry allows.  `Instr.mainSpan` is one more than the highest main
register that an instruction names, which R79 compares with the quota when the instruction issues. -/

namespace Sys2Proof

/-- How an entry uses an operand field: which specifiers it allows there, and how many main registers it names. -/
inductive Use
  /-- Unused: 0x000, which is the specifier of `v0` (R79). -/
  | none
  /-- Any 32-bit source; a 64-bit source, where a main register must be even (R57, R79, R269). -/
  | src | src64
  /-- An even main pair or a `g` register (R85); an even pair, a `g` register or `zero` (R356). -/
  | pair | shape
  /-- A `k` register as a source (R323). -/
  | mask
  /-- A 32-bit or a 64-bit destination, a `k` destination, a `g` destination (R79, R269). -/
  | dst | dst64 | dstMask | dstG
  /-- The data of a 64-bit or a 128-bit access (R85); the destination of a narrower load (R336). -/
  | even | quad | loadDst
  /-- A source that IMM10 may replace, of 32 or of 64 bits (R271). -/
  | srcI | src64I
  deriving DecidableEq, Repr

/-- Whether TYPE names a 64-bit type (R95). -/
def Ty.wide : Ty → Bool
  | .s64 | .n64 => true
  | _ => false

/-- Whether TYPE names a signed integer (R95). -/
def Ty.signed : Ty → Bool
  | .s8 | .s16 | .s32 | .s64 => true
  | _ => false

/-- Whether TYPE names an integer (R95). -/
def Ty.isInt : Ty → Bool
  | .s8 | .s16 | .s32 | .s64 | .n8 | .n16 | .n32 | .n64 => true
  | _ => false

/-- The width of a type in bits (R95). -/
def Ty.width : Ty → Nat
  | .s8 | .n8 | .vt8 | .e8m0 => 8
  | .s16 | .n16 | .f16 | .bf16 => 16
  | .s32 | .n32 | .f32 => 32
  | .s64 | .n64 => 64
  | .e2m1 => 4

/-- A source of type `t`, by its width. -/
def Use.srcOf (t : Ty) : Use := if t.wide then .src64 else .src

/-- A destination of type `t`, by its width. -/
def Use.dstOf (t : Ty) : Use := if t.wide then .dst64 else .dst

/-- An operand and a destination of a lane collective: of 64 bits, an even pair or a `g` register (R323). -/
def Use.laneSrc (t : Ty) : Use := if t.wide then .pair else .src
def Use.laneDst (t : Ty) : Use := if t.wide then .pair else .dst

/-- The specifiers that a use allows. -/
def Use.allows : Use → Spec → Bool
  | .none, s => s == .main 0
  | .src, _ | .srcI, _ => true
  | .src64, .main i | .src64I, .main i => i.val % 2 == 0
  | .src64, _ | .src64I, _ => true
  | .pair, .main i => i.val % 2 == 0
  | .pair, .g _ => true
  | .pair, _ => false
  | .shape, .main i => i.val % 2 == 0
  | .shape, .g _ | .shape, .zero => true
  | .shape, _ => false
  | .mask, .k _ | .dstMask, .k _ => true
  | .mask, _ | .dstMask, _ => false
  | .dst, .main _ | .dst, .q _ | .dst, .g _ | .dst, .zero => true
  | .dst, _ => false
  | .dst64, .main i => i.val % 2 == 0
  | .dst64, .g _ | .dst64, .zero => true
  | .dst64, _ => false
  | .dstG, .g _ => true
  | .dstG, _ => false
  | .even, .main i => i.val % 2 == 0
  | .even, _ => false
  | .quad, .main i => i.val % 4 == 0
  | .quad, _ => false
  | .loadDst, .main _ | .loadDst, .q _ | .loadDst, .g _ => true
  | .loadDst, _ => false

/-- How many main registers a use of a main register names. -/
def Use.words : Use → Nat
  | .none | .mask | .dstMask | .dstG => 0
  | .src | .srcI | .dst | .loadDst => 1
  | .src64 | .src64I | .pair | .shape | .dst64 | .even => 2
  | .quad => 4

/-- One more than the highest main register that a use of a specifier names, 0 where it names none. -/
def Use.span (u : Use) : Spec → Nat
  | .main i => if u.words = 0 then 0 else i.val + u.words
  | _ => 0

/-- As `Use.allows`, for field C of format A: IMM10 only where C is a value source (R271). -/
def Use.allowsC (u : Use) : SrcC → Bool
  | .spec s => u.allows s
  | .imm10 _ => u == .srcI || u == .src64I

/-- As `Use.span`, for field C of format A. -/
def Use.spanC (u : Use) : SrcC → Nat
  | .spec s => u.span s
  | .imm10 _ => 0

/-- A `.weak` access must encode scope `.thread` (R85). -/
def FM.scopeOk (f : FM) : Bool := f.cls != .weak || f.scope == .thread

/-- The settings of R341: the kinds that an operation takes, no `.thread` scope, `.f32` only with b32. -/
def FAt.settingsOk (f : FAt) (wide : Bool) : Bool :=
  f.scope != .thread && !(wide && f.kind == .f) &&
  (match f.op with
   | .add | .min | .max | .exch => true
   | .and | .or | .xor | .cas | .inc | .dec => f.kind == .n)

/-- Neither `.cluster` nor `.bytes` is set (R168). -/
def FBar.plain (f : FBar) : Bool := !f.cluster && !f.bytes

/-- None of the modifiers of `GREVAL` is set. -/
def FEng.plain (f : FEng) : Bool := !f.rows && !f.skip && !f.spill

/-- The type pairs of `CVT` and its modifiers (R318): TYPE 0x0–0xB on both sides, `.pk` from `.f32` to a 16-bit float,
`.hi` from a 16-bit float, `.wrap` between integers with no widening. -/
def FCvt.settingsOk (f : FCvt) : Bool :=
  f.sty != .e2m1 && f.sty != .e8m0 && f.dty != .e2m1 && f.dty != .e8m0 &&
  (!f.pk || (f.sty == .f32 && (f.dty == .f16 || f.dty == .bf16))) &&
  (!f.hi || f.sty == .f16 || f.sty == .bf16) &&
  (!f.wrap || (f.sty.isInt && f.dty.isInt && f.dty.width ≤ f.sty.width))

/-- The block length of `CVTQ` (R319). -/
def FCvq.len (f : FCvq) : Nat := if f.ty == .e2m1 || f.had == .had32 then 32 else 16

/-- The number of destination registers of `CVTQ` (R319). -/
def FCvq.outs (f : FCvq) : Nat :=
  match f.ty with
  | .e2m1 => 4
  | .vt8 => f.len / 4
  | _ => f.len / 2

/-- The settings of `CVTQ` (R319). -/
def FCvq.settingsOk (f : FCvq) : Bool :=
  (match f.d, f.a with
   | .main d, .main a =>
     d.val % 4 == 0 && a.val % 8 == 0 &&
     (match f.ty with
      | .e2m1 =>
        (match f.b with
         | .imm x => x.toNat < 4
         | _ => false) &&
        (match f.c with
         | .main c => !(d.val ≤ c.val && c.val < d.val + f.outs)
         | .q _ => true
         | _ => false)
      | .f16 | .bf16 | .vt8 => f.had != .none && f.b == .main 0 && f.c == .main 0
      | _ => false)
   | _, _ => false)

/-- The main registers of `CVTQ`. -/
def FCvq.mainSpan (f : FCvq) : Nat :=
  max (max (match f.d with
            | .main d => d.val + f.outs
            | _ => 0)
           (match f.a with
            | .main a => a.val + f.len
            | _ => 0))
      (Use.src.span f.c)

/-- The opcodes that no revision decodes (R90, R92). -/
def reservedOpcode (op : Nat) : Bool :=
  (0x13 ≤ op && op ≤ 0x1F) || (0x71 ≤ op && op ≤ 0x7F) || (0x88 ≤ op && op ≤ 0x8F) || (0xBA ≤ op && op ≤ 0xBF) ||
  (0xCE ≤ op && op ≤ 0xCF) || (0xE0 ≤ op && op ≤ 0xEF) || (0xFC ≤ op && op ≤ 0xFF)

/-- No field of the instruction is a reserved setting (R79, R93).  Events and commands have no encoding, and hold. -/
def Instr.wf : Instr → Bool
  | .nop => true
  | .bra f =>
    f.d == .main 0 && f.a == .main 0 && decide (f.z = false)
  | .brc f =>
    f.d == .main 0 && Use.src.allows f.a
  | .brx f =>
    f.d == .main 0 && Use.pair.allows f.a && f.b == .main 0 && f.c == .main 0 && decide (f.sub = 0)
  | .call f =>
    Use.dst64.allows f.d && f.a == .main 0 && decide (f.z = false)
  | .callx f =>
    Use.dst64.allows f.d && Use.pair.allows f.a && f.b == .main 0 && f.c == .main 0 && decide (f.sub = 0)
  | .ret f =>
    f.d == .main 0 && Use.pair.allows f.a && f.b == .main 0 && f.c == .main 0 && decide (f.sub = 0)
  | .exit f =>
    f.d == .main 0 && f.a == .main 0 && f.b == .main 0 && f.c == .main 0 && decide (f.sub = 0)
  | .yield f =>
    f.d == .main 0 && f.a == .main 0 && f.b == .main 0 && f.c == .main 0 && decide (f.sub = 0)
  | .join f =>
    f.d == .main 0 && Use.mask.allows f.a && f.b == .main 0 && f.c == .main 0 && decide (f.sub = 0)
  | .leave f =>
    f.d == .main 0 && Use.mask.allows f.a && f.b == .main 0 && f.c == .main 0 && decide (f.sub = 0)
  | .waitm f =>
    f.d == .main 0 && Use.mask.allows f.a && f.b == .main 0 && f.c == .main 0 && decide (f.sub = 0)
  | .mksetA f =>
    Use.dstMask.allows f.d && (if f.sub = 0 then .src else .src64 : Use).allows f.a && f.b == .main 0 && f.c == .main 0 && decide (f.sub.val ∈ [0, 1])
  | .mksetW f =>
    Use.dstMask.allows f.d && f.a == .main 0
  | .mklop f =>
    Use.dstMask.allows f.d && (if f.sub.val = 6 then .none else .src64 : Use).allows f.a && (if f.sub.val < 4 then .src64 else .none : Use).allows f.b && f.c == .main 0 && decide (f.sub.val ≠ 7)
  | .mkcnt f =>
    Use.dst.allows f.d && Use.src64.allows f.a && f.b == .main 0 && f.c == .main 0 && decide (f.sub.val ∈ [0, 1])
  | .mklane f =>
    Use.dst.allows f.d && Use.src64.allows f.a && (if f.sub.val = 2 then .src else .none : Use).allows f.b && f.c == .main 0 && decide (f.sub.val ∈ [0, 1, 2, 3])
  | .trap f =>
    f.d == .main 0 && Use.src64.allows f.a && decide (f.mode = 0)
  | .bpt f =>
    f.d == .main 0 && f.a == .main 0 && decide (f.mode = 0)
  | .iaddA f =>
    Use.dst.allows f.d && Use.src.allows f.a && Use.src.allows f.b && Use.none.allowsC f.c && decide (f.ty ∈ [.s8, .s16, .s32, .n8, .n16, .n32]) && decide (f.sub.val ∈ [0, 1]) && decide (f.rnd = .rn)
  | .iaddW f =>
    Use.dst.allows f.d && Use.src.allows f.a && decide (f.ty ∈ [.s8, .s16, .s32, .n8, .n16, .n32])
  | .isubA f =>
    Use.dst.allows f.d && Use.src.allows f.a && Use.src.allows f.b && Use.none.allowsC f.c && decide (f.ty ∈ [.s8, .s16, .s32, .n8, .n16, .n32]) && decide (f.sub.val ∈ [0, 1]) && decide (f.rnd = .rn)
  | .isubW f =>
    Use.dst.allows f.d && Use.src.allows f.a && decide (f.ty ∈ [.s8, .s16, .s32, .n8, .n16, .n32])
  | .iaddc f =>
    Use.dst.allows f.d && Use.src.allows f.a && Use.src.allows f.b && Use.srcI.allowsC f.c && decide (f.ty ∈ [.n32]) && decide (f.sub.val ∈ [0, 1, 2, 3]) && decide (f.rnd = .rn)
  | .imulA f =>
    Use.dst.allows f.d && Use.src.allows f.a && Use.src.allows f.b && Use.none.allowsC f.c && decide (f.ty ∈ [.s8, .s16, .s32, .n8, .n16, .n32]) && decide (f.sub = 0) && decide (f.rnd = .rn)
  | .imulW f =>
    Use.dst.allows f.d && Use.src.allows f.a && decide (f.ty ∈ [.s8, .s16, .s32, .n8, .n16, .n32])
  | .imulh f =>
    Use.dst.allows f.d && Use.src.allows f.a && Use.src.allows f.b && Use.none.allowsC f.c && decide (f.ty ∈ [.s32, .n32]) && decide (f.sub = 0) && decide (f.rnd = .rn)
  | .imadA f =>
    Use.dst.allows f.d && Use.src.allows f.a && Use.src.allows f.b && Use.srcI.allowsC f.c && decide (f.ty ∈ [.s8, .s16, .s32, .n8, .n16, .n32]) && decide (f.sub = 0) && decide (f.rnd = .rn)
  | .imadW f =>
    Use.dst.allows f.d && Use.src.allows f.a && decide (f.ty ∈ [.s8, .s16, .s32, .n8, .n16, .n32])
  | .imadw f =>
    Use.dst64.allows f.d && Use.src.allows f.a && Use.src.allows f.b && Use.src64I.allowsC f.c && decide (f.ty ∈ [.s32, .n32]) && decide (f.sub = 0) && decide (f.rnd = .rn)
  | .idiv f =>
    Use.dst.allows f.d && Use.src.allows f.a && Use.src.allows f.b && Use.none.allowsC f.c && decide (f.ty ∈ [.s8, .s16, .s32, .n8, .n16, .n32]) && decide (f.sub = 0) && decide (f.rnd = .rn)
  | .irem f =>
    Use.dst.allows f.d && Use.src.allows f.a && Use.src.allows f.b && Use.none.allowsC f.c && decide (f.ty ∈ [.s8, .s16, .s32, .n8, .n16, .n32]) && decide (f.sub = 0) && decide (f.rnd = .rn)
  | .iminA f =>
    Use.dst.allows f.d && Use.src.allows f.a && Use.src.allows f.b && Use.none.allowsC f.c && decide (f.ty ∈ [.s8, .s16, .s32, .n8, .n16, .n32]) && decide (f.sub = 0) && decide (f.rnd = .rn)
  | .iminW f =>
    Use.dst.allows f.d && Use.src.allows f.a && decide (f.ty ∈ [.s8, .s16, .s32, .n8, .n16, .n32])
  | .imaxA f =>
    Use.dst.allows f.d && Use.src.allows f.a && Use.src.allows f.b && Use.none.allowsC f.c && decide (f.ty ∈ [.s8, .s16, .s32, .n8, .n16, .n32]) && decide (f.sub = 0) && decide (f.rnd = .rn)
  | .imaxW f =>
    Use.dst.allows f.d && Use.src.allows f.a && decide (f.ty ∈ [.s8, .s16, .s32, .n8, .n16, .n32])
  | .iabs f =>
    Use.dst.allows f.d && Use.src.allows f.a && f.b == .main 0 && Use.none.allowsC f.c && decide (f.ty ∈ [.s8, .s16, .s32]) && decide (f.sub.val ∈ [0, 1]) && decide (f.rnd = .rn)
  | .ineg f =>
    Use.dst.allows f.d && Use.src.allows f.a && f.b == .main 0 && Use.none.allowsC f.c && decide (f.ty ∈ [.s8, .s16, .s32, .n8, .n16, .n32]) && decide (f.sub.val ∈ [0, 1]) && decide (f.rnd = .rn) && decide ((f.sub.val = 1 → f.ty ∈ [.s8, .s16, .s32]))
  | .andA f =>
    Use.dst.allows f.d && Use.src.allows f.a && Use.src.allows f.b && Use.none.allowsC f.c && decide (f.ty ∈ [.n8, .n16, .n32]) && decide (f.sub = 0) && decide (f.rnd = .rn)
  | .andW f =>
    Use.dst.allows f.d && Use.src.allows f.a && decide (f.ty ∈ [.n8, .n16, .n32])
  | .orA f =>
    Use.dst.allows f.d && Use.src.allows f.a && Use.src.allows f.b && Use.none.allowsC f.c && decide (f.ty ∈ [.n8, .n16, .n32]) && decide (f.sub = 0) && decide (f.rnd = .rn)
  | .orW f =>
    Use.dst.allows f.d && Use.src.allows f.a && decide (f.ty ∈ [.n8, .n16, .n32])
  | .xorA f =>
    Use.dst.allows f.d && Use.src.allows f.a && Use.src.allows f.b && Use.none.allowsC f.c && decide (f.ty ∈ [.n8, .n16, .n32]) && decide (f.sub = 0) && decide (f.rnd = .rn)
  | .xorW f =>
    Use.dst.allows f.d && Use.src.allows f.a && decide (f.ty ∈ [.n8, .n16, .n32])
  | .notA f =>
    Use.dst.allows f.d && Use.src.allows f.a && f.b == .main 0 && Use.none.allowsC f.c && decide (f.ty ∈ [.n8, .n16, .n32]) && decide (f.sub = 0) && decide (f.rnd = .rn)
  | .lop3 f =>
    Use.dst.allows f.d && Use.src.allows f.a && Use.src.allows f.b && Use.srcI.allowsC f.c
  | .shl f =>
    Use.dst.allows f.d && Use.src.allows f.a && Use.src.allows f.b && Use.none.allowsC f.c && decide (f.ty ∈ [.n32]) && decide (f.sub = 0) && decide (f.rnd = .rn)
  | .shr f =>
    Use.dst.allows f.d && Use.src.allows f.a && Use.src.allows f.b && Use.none.allowsC f.c && decide (f.ty ∈ [.n32]) && decide (f.sub = 0) && decide (f.rnd = .rn)
  | .sar f =>
    Use.dst.allows f.d && Use.src.allows f.a && Use.src.allows f.b && Use.none.allowsC f.c && decide (f.ty ∈ [.s32]) && decide (f.sub = 0) && decide (f.rnd = .rn)
  | .rot f =>
    Use.dst.allows f.d && Use.src.allows f.a && Use.src.allows f.b && Use.none.allowsC f.c && decide (f.ty ∈ [.n32]) && decide (f.sub.val ∈ [0, 1]) && decide (f.rnd = .rn)
  | .shf f =>
    Use.dst.allows f.d && Use.src.allows f.a && Use.src.allows f.b && Use.srcI.allowsC f.c && decide (f.ty ∈ [.n32]) && decide (f.sub.val ∈ [0, 1]) && decide (f.rnd = .rn)
  | .popc f =>
    Use.dst.allows f.d && Use.src.allows f.a && f.b == .main 0 && Use.none.allowsC f.c && decide (f.ty ∈ [.n32]) && decide (f.sub = 0) && decide (f.rnd = .rn)
  | .clz f =>
    Use.dst.allows f.d && Use.src.allows f.a && f.b == .main 0 && Use.none.allowsC f.c && decide (f.ty ∈ [.n32]) && decide (f.sub = 0) && decide (f.rnd = .rn)
  | .ctz f =>
    Use.dst.allows f.d && Use.src.allows f.a && f.b == .main 0 && Use.none.allowsC f.c && decide (f.ty ∈ [.n32]) && decide (f.sub = 0) && decide (f.rnd = .rn)
  | .brev f =>
    Use.dst.allows f.d && Use.src.allows f.a && f.b == .main 0 && Use.none.allowsC f.c && decide (f.ty ∈ [.n32]) && decide (f.sub = 0) && decide (f.rnd = .rn)
  | .bfe f =>
    Use.dst.allows f.d && Use.src.allows f.a && Use.src.allows f.b && Use.srcI.allowsC f.c && decide (f.ty ∈ [.s32, .n32]) && decide (f.sub = 0) && decide (f.rnd = .rn)
  | .bfi f =>
    Use.dst.allows f.d && Use.src.allows f.a && Use.src.allows f.b && Use.srcI.allowsC f.c && decide (f.ty ∈ [.n32]) && decide (f.sub = 0) && decide (f.rnd = .rn)
  | .prmt f =>
    Use.dst.allows f.d && Use.src.allows f.a && Use.src.allows f.b && Use.srcI.allowsC f.c && decide (f.ty ∈ [.n32]) && decide (f.sub = 0) && decide (f.rnd = .rn)
  | .isetA f =>
    Use.dst.allows f.d && Use.src.allows f.a && Use.src.allows f.b && Use.none.allowsC f.c && decide (f.ty ∈ [.s8, .s16, .s32, .n8, .n16, .n32]) && decide (f.sub.val ∈ [0, 1, 2, 3, 4, 5, 6]) && decide (f.rnd = .rn)
  | .isetW f =>
    Use.dst.allows f.d && Use.src.allows f.a && decide (f.ty ∈ [.s8, .s16, .s32, .n8, .n16, .n32])
  | .isel f =>
    (.dstOf f.ty : Use).allows f.d && (.srcOf f.ty : Use).allows f.a && (.srcOf f.ty : Use).allows f.b && Use.srcI.allowsC f.c && decide (f.ty ∈ [.n32, .n64]) && decide (f.sub = 0) && decide (f.rnd = .rn)
  | .mov f =>
    (.dstOf f.ty : Use).allows f.d && (.srcOf f.ty : Use).allows f.a && f.b == .main 0 && Use.none.allowsC f.c && decide (f.ty ∈ [.n32, .n64]) && decide (f.sub = 0) && decide (f.rnd = .rn)
  | .movi f =>
    (.dstOf f.ty : Use).allows f.d && f.a == .main 0 && decide (f.ty ∈ [.s32, .n32, .s64, .n64, .f32])
  | .movg f =>
    Use.dstG.allows f.d && (.srcOf f.ty : Use).allows f.a && Use.src.allows f.b && Use.none.allowsC f.c && decide (f.ty ∈ [.n32, .n64]) && decide (f.sub = 0) && decide (f.rnd = .rn)
  | .lea f =>
    Use.dst64.allows f.d && Use.src64.allows f.a && Use.src.allows f.b && Use.none.allowsC f.c && decide (f.ty ∈ [.s32, .n32]) && decide (f.sub.val ∈ [0, 1, 2, 3, 4, 5, 6, 7]) && decide (f.rnd = .rn)
  | .iadd64 f =>
    Use.dst64.allows f.d && Use.src64.allows f.a && Use.src64.allows f.b && Use.none.allowsC f.c && decide (f.ty ∈ [.s64, .n64]) && decide (f.sub.val ∈ [0, 1]) && decide (f.rnd = .rn)
  | .idot4 f =>
    Use.dst.allows f.d && Use.src.allows f.a && Use.src.allows f.b && Use.srcI.allowsC f.c && decide (f.ty ∈ [.s8, .n8]) && decide (f.sub.val ∈ [0, 1]) && decide (f.rnd = .rn)
  | .faddA f =>
    Use.dst.allows f.d && Use.src.allows f.a && Use.src.allows f.b && Use.none.allowsC f.c && decide (f.ty ∈ [.f32]) && decide (f.sub.val ∈ [0, 1])
  | .faddW f =>
    Use.dst.allows f.d && Use.src.allows f.a && decide (f.ty ∈ [.f32])
  | .fsub f =>
    Use.dst.allows f.d && Use.src.allows f.a && Use.src.allows f.b && Use.none.allowsC f.c && decide (f.ty ∈ [.f32]) && decide (f.sub.val ∈ [0, 1])
  | .fmulA f =>
    Use.dst.allows f.d && Use.src.allows f.a && Use.src.allows f.b && Use.none.allowsC f.c && decide (f.ty ∈ [.f32]) && decide (f.sub.val ∈ [0, 1])
  | .fmulW f =>
    Use.dst.allows f.d && Use.src.allows f.a && decide (f.ty ∈ [.f32])
  | .ffmaA f =>
    Use.dst.allows f.d && Use.src.allows f.a && Use.src.allows f.b && Use.src.allowsC f.c && decide (f.ty ∈ [.f32]) && decide (f.sub.val ∈ [0, 1])
  | .ffmaW f =>
    Use.dst.allows f.d && Use.src.allows f.a && decide (f.ty ∈ [.f32])
  | .fminA f =>
    Use.dst.allows f.d && Use.src.allows f.a && Use.src.allows f.b && Use.none.allowsC f.c && decide (f.ty ∈ [.f32]) && decide (f.sub.val ∈ [0, 1]) && decide (f.rnd = .rn)
  | .fminW f =>
    Use.dst.allows f.d && Use.src.allows f.a && decide (f.ty ∈ [.f32])
  | .fmaxA f =>
    Use.dst.allows f.d && Use.src.allows f.a && Use.src.allows f.b && Use.none.allowsC f.c && decide (f.ty ∈ [.f32]) && decide (f.sub.val ∈ [0, 1]) && decide (f.rnd = .rn)
  | .fmaxW f =>
    Use.dst.allows f.d && Use.src.allows f.a && decide (f.ty ∈ [.f32])
  | .fsetA f =>
    Use.dst.allows f.d && Use.src.allows f.a && Use.src.allows f.b && Use.none.allowsC f.c && decide (f.ty ∈ [.f32]) && decide (f.sub.val ∈ [0, 1, 2, 3, 4, 5, 6, 7]) && decide (f.rnd = .rn)
  | .fsetW f =>
    Use.dst.allows f.d && Use.src.allows f.a && decide (f.ty ∈ [.f32])
  | .fclass f =>
    Use.dst.allows f.d && Use.src.allows f.a && f.b == .main 0 && Use.none.allowsC f.c && decide (f.ty ∈ [.f32, .f16, .bf16, .vt8]) && decide (f.sub = 0) && decide (f.rnd = .rn)
  | .frcp f =>
    Use.dst.allows f.d && Use.src.allows f.a && f.b == .main 0 && Use.none.allowsC f.c && decide (f.ty ∈ [.f32]) && decide (f.sub = 0)
  | .frsq f =>
    Use.dst.allows f.d && Use.src.allows f.a && f.b == .main 0 && Use.none.allowsC f.c && decide (f.ty ∈ [.f32]) && decide (f.sub = 0)
  | .fsqrt f =>
    Use.dst.allows f.d && Use.src.allows f.a && f.b == .main 0 && Use.none.allowsC f.c && decide (f.ty ∈ [.f32]) && decide (f.sub = 0)
  | .fdiv f =>
    Use.dst.allows f.d && Use.src.allows f.a && Use.src.allows f.b && Use.none.allowsC f.c && decide (f.ty ∈ [.f32]) && decide (f.sub = 0)
  | .fexp2 f =>
    Use.dst.allows f.d && Use.src.allows f.a && f.b == .main 0 && Use.none.allowsC f.c && decide (f.ty ∈ [.f32]) && decide (f.sub = 0)
  | .flog2 f =>
    Use.dst.allows f.d && Use.src.allows f.a && f.b == .main 0 && Use.none.allowsC f.c && decide (f.ty ∈ [.f32]) && decide (f.sub = 0)
  | .fsin f =>
    Use.dst.allows f.d && Use.src.allows f.a && f.b == .main 0 && Use.none.allowsC f.c && decide (f.ty ∈ [.f32]) && decide (f.sub = 0)
  | .fcos f =>
    Use.dst.allows f.d && Use.src.allows f.a && f.b == .main 0 && Use.none.allowsC f.c && decide (f.ty ∈ [.f32]) && decide (f.sub = 0)
  | .ftanh f =>
    Use.dst.allows f.d && Use.src.allows f.a && f.b == .main 0 && Use.none.allowsC f.c && decide (f.ty ∈ [.f32]) && decide (f.sub = 0)
  | .hadd2 f =>
    Use.dst.allows f.d && Use.src.allows f.a && Use.src.allows f.b && Use.none.allowsC f.c && decide (f.ty ∈ [.f16]) && decide (f.sub.val ∈ [0, 1])
  | .hmul2 f =>
    Use.dst.allows f.d && Use.src.allows f.a && Use.src.allows f.b && Use.none.allowsC f.c && decide (f.ty ∈ [.f16]) && decide (f.sub.val ∈ [0, 1])
  | .hfma2 f =>
    Use.dst.allows f.d && Use.src.allows f.a && Use.src.allows f.b && Use.src.allowsC f.c && decide (f.ty ∈ [.f16]) && decide (f.sub.val ∈ [0, 1])
  | .hmnmx2 f =>
    Use.dst.allows f.d && Use.src.allows f.a && Use.src.allows f.b && Use.none.allowsC f.c && decide (f.ty ∈ [.f16]) && decide (f.sub.val ∈ [0, 1, 2, 3]) && decide (f.rnd = .rn)
  | .bfma2 f =>
    Use.dst.allows f.d && Use.src.allows f.a && Use.src.allows f.b && Use.src.allowsC f.c && decide (f.ty ∈ [.bf16]) && decide (f.sub.val ∈ [0, 1])
  | .cvt f =>
    (.dstOf f.dty : Use).allows f.d && (.srcOf f.sty : Use).allows f.a && (if f.pk then .src else .none : Use).allows f.b && decide (f.settingsOk)
  | .cvtq f =>
    decide (f.settingsOk)
  | .cvtd f =>
    Use.dst.allows f.d && Use.src.allows f.a && Use.src.allows f.b && Use.none.allowsC f.c && decide (f.ty ∈ [.f32, .f16, .bf16]) && decide ((f.ty = .f32 ∨ f.sub.val < 4))
  | .frnd f =>
    Use.dst.allows f.d && Use.src.allows f.a && f.b == .main 0 && Use.none.allowsC f.c && decide (f.ty ∈ [.f32]) && decide (f.sub = 0)
  | .fscale f =>
    Use.dst.allows f.d && Use.src.allows f.a && Use.src.allows f.b && Use.none.allowsC f.c && decide (f.ty ∈ [.f32]) && decide (f.sub = 0)
  | .shfl f =>
    (.laneDst f.ty : Use).allows f.d && (.laneSrc f.ty : Use).allows f.a && Use.src.allows f.b && Use.mask.allowsC f.c && decide (f.ty ∈ [.n32, .n64]) && decide (f.sub.val ∈ [0, 1, 2, 3, 4]) && decide (f.rnd = .rn)
  | .shflx f =>
    (.laneDst f.ty : Use).allows f.d && (.laneSrc f.ty : Use).allows f.a && Use.src.allows f.b && Use.mask.allows f.c && decide (f.ty ∈ [.n32, .n64])
  | .bcast f =>
    (.laneDst f.ty : Use).allows f.d && (.laneSrc f.ty : Use).allows f.a && Use.src.allows f.b && Use.mask.allowsC f.c && decide (f.ty ∈ [.n32, .n64]) && decide (f.sub = 0) && decide (f.rnd = .rn)
  | .vote f =>
    (if f.sub ≠ 0 then .dst else if f.ty.wide then .pair else .dst64 : Use).allows f.d && (.laneSrc f.ty : Use).allows f.a && f.b == .main 0 && Use.mask.allowsC f.c && decide (f.ty ∈ [.n32, .n64]) && decide (f.sub.val ∈ [0, 1, 2, 3, 4, 5]) && decide (f.rnd = .rn)
  | .redux f =>
    (.laneDst f.ty : Use).allows f.d && (.laneSrc f.ty : Use).allows f.a && f.b == .main 0 && Use.mask.allowsC f.c && decide (f.ty ∈ [.s32, .s64, .n32, .n64]) && decide (f.sub.val ∈ [0, 1, 2, 3, 4, 5]) && decide (f.rnd = .rn)
  | .fredux f =>
    Use.dst.allows f.d && Use.src.allows f.a && f.b == .main 0 && Use.mask.allowsC f.c && decide (f.ty ∈ [.f32]) && decide (f.sub.val ∈ [0, 1, 2, 3, 4]) && decide ((f.sub = 0 ∨ f.rnd = .rn))
  | .scan f =>
    Use.dst.allows f.d && Use.src.allows f.a && f.b == .main 0 && Use.mask.allowsC f.c && decide (f.ty ∈ [.s32, .n32, .f32] ∧ f.sub.val ≠ 7 ∧ (f.ty = .f32 → f.sub.val < 4) ∧ (f.rnd = .rn ∨ (f.ty = .f32 ∧ f.sub.val < 2)))
  | .laneMatch f =>
    (if f.sub ≠ 0 then .dst else if f.ty.wide then .pair else .dst64 : Use).allows f.d && (.laneSrc f.ty : Use).allows f.a && f.b == .main 0 && Use.mask.allowsC f.c && decide (f.ty ∈ [.n32, .n64]) && decide (f.sub.val ∈ [0, 1, 2, 3, 4]) && decide (f.rnd = .rn)
  | .ldB8 f =>
    Use.loadDst.allows f.d && Use.pair.allows f.a && decide (f.scopeOk) && decide (f.low.val < 2)
  | .ldB16 f =>
    Use.loadDst.allows f.d && Use.pair.allows f.a && decide (f.scopeOk) && decide (f.low.val < 2)
  | .ldB32 f =>
    Use.loadDst.allows f.d && Use.pair.allows f.a && decide (f.scopeOk) && decide (f.low.val < 2)
  | .ldB64 f =>
    Use.even.allows f.d && Use.pair.allows f.a && decide (f.scopeOk) && decide (f.low.val < 2)
  | .ldB128 f =>
    Use.quad.allows f.d && Use.pair.allows f.a && decide (f.scopeOk) && decide (f.low.val < 2)
  | .stB8 f =>
    Use.src.allows f.d && Use.pair.allows f.a && decide (f.scopeOk) && decide (f.low.val < 2)
  | .stB16 f =>
    Use.src.allows f.d && Use.pair.allows f.a && decide (f.scopeOk) && decide (f.low.val < 2)
  | .stB32 f =>
    Use.src.allows f.d && Use.pair.allows f.a && decide (f.scopeOk) && decide (f.low.val < 2)
  | .stB64 f =>
    Use.even.allows f.d && Use.pair.allows f.a && decide (f.scopeOk) && decide (f.low.val < 2)
  | .stB128 f =>
    Use.quad.allows f.d && Use.pair.allows f.a && decide (f.scopeOk) && decide (f.low.val < 2)
  | .ldlB8 f =>
    Use.loadDst.allows f.d && Use.pair.allows f.a && decide (f.scopeOk) && decide (f.low = 0) && decide (f.scope ≠ .device) && decide (f.scope ≠ .system)
  | .ldlB16 f =>
    Use.loadDst.allows f.d && Use.pair.allows f.a && decide (f.scopeOk) && decide (f.low = 0) && decide (f.scope ≠ .device) && decide (f.scope ≠ .system)
  | .ldlB32 f =>
    Use.loadDst.allows f.d && Use.pair.allows f.a && decide (f.scopeOk) && decide (f.low = 0) && decide (f.scope ≠ .device) && decide (f.scope ≠ .system)
  | .ldlB64 f =>
    Use.even.allows f.d && Use.pair.allows f.a && decide (f.scopeOk) && decide (f.low = 0) && decide (f.scope ≠ .device) && decide (f.scope ≠ .system)
  | .ldlB128 f =>
    Use.quad.allows f.d && Use.pair.allows f.a && decide (f.scopeOk) && decide (f.low = 0) && decide (f.scope ≠ .device) && decide (f.scope ≠ .system)
  | .stlB8 f =>
    Use.src.allows f.d && Use.pair.allows f.a && decide (f.scopeOk) && decide (f.low = 0) && decide (f.scope ≠ .device) && decide (f.scope ≠ .system)
  | .stlB16 f =>
    Use.src.allows f.d && Use.pair.allows f.a && decide (f.scopeOk) && decide (f.low = 0) && decide (f.scope ≠ .device) && decide (f.scope ≠ .system)
  | .stlB32 f =>
    Use.src.allows f.d && Use.pair.allows f.a && decide (f.scopeOk) && decide (f.low = 0) && decide (f.scope ≠ .device) && decide (f.scope ≠ .system)
  | .stlB64 f =>
    Use.even.allows f.d && Use.pair.allows f.a && decide (f.scopeOk) && decide (f.low = 0) && decide (f.scope ≠ .device) && decide (f.scope ≠ .system)
  | .stlB128 f =>
    Use.quad.allows f.d && Use.pair.allows f.a && decide (f.scopeOk) && decide (f.low = 0) && decide (f.scope ≠ .device) && decide (f.scope ≠ .system)
  | .ldt f =>
    Use.quad.allows f.d && Use.pair.allows f.a && decide (f.scopeOk) && decide (f.low = 0) && decide (f.sx = false)
  | .wmap f =>
    Use.dst.allows f.d && Use.src64.allows f.a && Use.src.allows f.b && Use.src.allows f.c && decide (f.sub = 0)
  | .wunmap f =>
    f.d == .main 0 && Use.src.allows f.a && f.b == .main 0 && f.c == .main 0 && decide (f.sub = 0)
  | .wsync f =>
    f.d == .main 0 && (if f.sub = 0 then .src else .none : Use).allows f.a && f.b == .main 0 && f.c == .main 0 && decide (f.sub.val ∈ [0, 1])
  | .winv f =>
    f.d == .main 0 && (if f.sub = 0 then .src else .none : Use).allows f.a && f.b == .main 0 && f.c == .main 0 && decide (f.sub.val ∈ [0, 1])
  | .wquery f =>
    Use.dst64.allows f.d && Use.src.allows f.a && f.b == .main 0 && f.c == .main 0 && decide (f.sub = 0)
  | .atomB32 f =>
    Use.dst.allows f.d && Use.pair.allows f.a && Use.src.allows f.b && (if f.op = .cas then .src else .none : Use).allows f.c && decide (f.settingsOk false)
  | .atomB64 f =>
    Use.pair.allows f.d && Use.pair.allows f.a && Use.pair.allows f.b && (if f.op = .cas then .pair else .none : Use).allows f.c && decide (f.settingsOk true)
  | .atomlB32 f =>
    Use.dst.allows f.d && Use.pair.allows f.a && Use.src.allows f.b && (if f.op = .cas then .src else .none : Use).allows f.c && decide (f.settingsOk false) && decide (f.scope ∈ [.team, .cluster])
  | .atomlB64 f =>
    Use.pair.allows f.d && Use.pair.allows f.a && Use.pair.allows f.b && (if f.op = .cas then .pair else .none : Use).allows f.c && decide (f.settingsOk true) && decide (f.scope ∈ [.team, .cluster])
  | .redB32 f =>
    f.d == .main 0 && Use.pair.allows f.a && Use.src.allows f.b && (if f.op = .cas then .src else .none : Use).allows f.c && decide (f.settingsOk false) && decide (f.op ≠ .exch) && decide (f.op ≠ .cas)
  | .redB64 f =>
    f.d == .main 0 && Use.pair.allows f.a && Use.pair.allows f.b && (if f.op = .cas then .pair else .none : Use).allows f.c && decide (f.settingsOk true) && decide (f.op ≠ .exch) && decide (f.op ≠ .cas)
  | .fence f =>
    f.d == .main 0 && f.a == .main 0 && decide (f.imm = 0) && decide (f.mode.val < 5)
  | .pref f =>
    f.d == .main 0 && Use.pair.allows f.a && decide (f.cls = .weak) && decide (f.scope = .thread) && decide (f.sx = false) && decide (f.low.val < 2)
  | .survey f =>
    Use.pair.allows f.d && Use.pair.allows f.a && (if f.sub.val % 2 = 1 then .none else .src : Use).allows f.b && f.c == .main 0 && decide (f.sub.val ∈ [0, 1, 2, 3])
  | .probe f =>
    Use.dst.allows f.d && Use.pair.allows f.a && f.b == .main 0 && f.c == .main 0 && decide (f.sub = 0)
  | .discard f =>
    f.d == .main 0 && Use.pair.allows f.a && Use.src.allows f.b && f.c == .main 0 && decide (f.sub = 0)
  | .sealRange f =>
    Use.dst.allows f.d && Use.src.allows f.a && Use.src.allows f.b && f.c == .main 0 && decide (f.sub = 0)
  | .unsealRange f =>
    f.d == .main 0 && Use.src.allows f.a && f.b == .main 0 && f.c == .main 0 && decide (f.sub = 0)
  | .stag f =>
    f.d == .main 0 && Use.pair.allows f.a && decide (f.cls = .strong) && decide (f.scope ≠ .thread) && decide (f.sx = false) && decide (f.low = 0)
  | .ltag f =>
    Use.dst.allows f.d && Use.pair.allows f.a && decide (f.scopeOk) && decide (f.cls ≠ .vol) && decide (f.sx = false) && decide (f.low = 0)
  | .cctl f =>
    f.d == .main 0 && (if f.low.val = 1 then .none else .pair : Use).allows f.a && decide (f.cls = .weak) && decide (f.scope = .thread) && decide (f.sx = false) && decide (f.low.val < 3) && decide ((f.low.val = 1 → f.off = 0))
  | .barinit f =>
    f.d == .main 0 && Use.src.allows f.a && Use.src.allows f.b
  | .bararv f =>
    Use.dst.allows f.d && Use.src.allows f.a && f.b == .main 0 && decide (f.plain)
  | .barwait f =>
    f.d == .main 0 && Use.src.allows f.a && Use.src.allows f.b && decide (f.plain)
  | .barexp f =>
    f.d == .main 0 && Use.src.allows f.a && Use.src.allows f.b && decide (f.plain)
  | .bartry f =>
    Use.dst.allows f.d && Use.src.allows f.a && Use.src.allows f.b && decide (f.plain)
  | .cpyG2l f =>
    Use.pair.allows f.a && Use.src.allows f.b && Use.src.allows f.c
  | .cpyL2g f =>
    Use.src.allows f.a && Use.pair.allows f.b && Use.src.allows f.c && decide (f.bar = .none)
  | .cpyL2l f =>
    Use.src.allows f.a && Use.src.allows f.b && Use.src.allows f.c
  | .cpyg f =>
    Use.pair.allows f.a && Use.src.allows f.b && Use.src.allows f.c
  | .cpys f =>
    Use.src.allows f.a && Use.pair.allows f.b && Use.src.allows f.c && decide (f.bar = .none)
  | .tagwaitAny f =>
    Use.dst64.allows f.d && Use.src64.allows f.a && f.b == .main 0 && f.c == .main 0 && decide (f.sub = 0)
  | .tagwaitAll f =>
    Use.dst64.allows f.d && Use.src64.allows f.a && f.b == .main 0 && f.c == .main 0 && decide (f.sub = 0)
  | .tagfirst f =>
    Use.dst.allows f.d && Use.src64.allows f.a && f.b == .main 0 && f.c == .main 0 && decide (f.sub = 0)
  | .tagclr f =>
    f.d == .main 0 && Use.src64.allows f.a && f.b == .main 0 && f.c == .main 0 && decide (f.sub = 0)
  | .mmaF16 f =>
    (if f.ga then .pair else .src : Use).allows f.a && (if f.gb then .pair else .src : Use).allows f.b && Use.shape.allows f.c && decide (f.sel = 0)
  | .mmaBf16 f =>
    (if f.ga then .pair else .src : Use).allows f.a && (if f.gb then .pair else .src : Use).allows f.b && Use.shape.allows f.c && decide (f.sel = 0)
  | .mmaVt8 f =>
    (if f.ga then .pair else .src : Use).allows f.a && (if f.gb then .pair else .src : Use).allows f.b && Use.shape.allows f.c && decide (f.sel = 0)
  | .mmaS8 f =>
    (if f.ga then .pair else .src : Use).allows f.a && (if f.gb then .pair else .src : Use).allows f.b && Use.shape.allows f.c && decide (f.sel = 0) && decide (f.had = .none)
  | .mmaN8 f =>
    (if f.ga then .pair else .src : Use).allows f.a && (if f.gb then .pair else .src : Use).allows f.b && Use.shape.allows f.c && decide (f.sel = 0) && decide (f.had = .none)
  | .mmas f =>
    (if f.ga then .pair else .src : Use).allows f.a && (if f.gb then .pair else .src : Use).allows f.b && Use.shape.allows f.c
  | .mzero f =>
    f.a == .main 0 && f.b == .main 0 && f.c == .main 0 && decide (f.ts = 0) && decide (f.plain) && decide (f.tag = .none)
  | .mldt f =>
    Use.src.allows f.a && Use.src.allows f.b && f.c == .main 0 && decide (f.ts = 0) && decide (f.ty ∈ [.n32, .f16, .bf16]) && decide (f.g = false) && decide (f.z = false) && decide (f.tag = .none)
  | .mstt f =>
    Use.src.allows f.a && Use.src.allows f.b && f.c == .main 0 && decide (f.td = 0) && decide (f.ty ∈ [.n32, .f16, .bf16]) && decide (f.g = false) && decide (f.z = false)
  | .mdrain f =>
    (if f.g then .pair else .src : Use).allows f.a && f.b == .main 0 && Use.src.allows f.c && decide (f.td = 0) && decide (f.ty ∈ [.f32, .f16, .bf16, .vt8])
  | .malloc f =>
    Use.dst.allows f.a && Use.src.allows f.b && f.c == .main 0 && decide (f.td = 0) && decide (f.ts = 0) && decide (f.plain) && decide (f.tag = .none)
  | .mfree f =>
    f.a == .main 0 && Use.src.allows f.b && f.c == .main 0 && decide (f.td = 0) && decide (f.ts = 0) && decide (f.plain) && decide (f.tag = .none)
  | .grbind f =>
    Use.src.allows f.a && f.b == .main 0 && f.c == .main 0 && decide (f.td = 0) && decide (f.ts = 0) && decide (f.plain) && decide (f.tag = .none)
  | .greval f =>
    Use.src.allows f.a && Use.src.allows f.b && f.c == .main 0 && decide (f.td = 0) && decide (f.ts = 0)
  | .grstat f =>
    Use.dst64.allows f.a && f.b == .main 0 && f.c == .main 0 && decide (f.td = 0) && decide (f.ts = 0) && decide (f.plain) && decide (f.tag = .none)
  | .nzscan f =>
    Use.src.allows f.a && Use.src.allows f.b && Use.src.allows f.c && decide (f.td = 0) && decide (f.ts = 0) && decide (f.plain)
  | .launch f =>
    Use.dst64.allows f.d && Use.src64.allows f.a && Use.src64.allows f.b && f.c == .main 0 && decide (f.sub = 0)
  | .snap f =>
    Use.dst64.allows f.d && f.a == .main 0 && decide (f.imm = 0) && decide (f.mode = 0)
  | .edstat f =>
    Use.dst64.allows f.d && Use.src.allows f.a && decide (f.imm = 0) && decide (f.mode = 0)
  | .sreadA f =>
    Use.dst64.allows f.d && Use.src.allows f.a && f.b == .main 0 && f.c == .main 0 && decide (f.sub = 0)
  | .sreadS f =>
    Use.dst64.allows f.d && f.a == .main 0 && decide (f.mode = 0)
  | .swriteA f =>
    f.d == .main 0 && Use.src.allows f.a && Use.src64.allows f.b && f.c == .main 0 && decide (f.sub = 0)
  | .swriteS f =>
    f.d == .main 0 && Use.src64.allows f.a && decide (f.mode = 0)
  | .clock f =>
    Use.dst64.allows f.d && f.a == .main 0 && decide (f.imm = 0) && decide (f.mode.val < 2)
  | .stamp f =>
    f.d == .main 0 && Use.src64.allows f.a && decide (f.mode.val < 2)
  | .regq f =>
    Use.dst.allows f.d && f.a == .main 0 && decide (f.guard = .always ∧ f.mode.val < 3 ∧ (if f.mode.val = 2 then f.imm = 0 else 1 ≤ f.imm.toNat ∧ f.imm.toNat ≤ 256))
  | .signal f =>
    f.d == .main 0 && Use.src64.allows f.a && decide (f.mode = 0)
  | .halt f =>
    f.d == .main 0 && f.a == .main 0 && decide (f.mode = 0)
  | .reservedOpcodeIssue w => reservedOpcode (w.toNat / 2 ^ 56)
  | .operandsConsumed _ _ => true
  | .operationComplete _ _ => true
  | .maskWaitRelease _ _ _ => true
  | .maskWaitLeave _ _ _ => true
  | .collectiveComplete _ _ _ => true
  | .collectiveDeliver _ _ _ => true
  | .groupTrapStop _ _ => true
  | .groupRestore _ _ => true
  | .naturalSwap _ _ _ => true
  | .forcedSwap _ => true
  | .scoreDecay _ => true
  | .regqGrant _ _ => true
  | .groupSlotRelease _ _ => true
  | .canalWatchStore _ => true
  | .kernelComplete _ => true
  | .homeFillRequest _ _ _ _ => true
  | .homeStoreRequest _ _ _ _ => true
  | .homeAtomicRequest _ _ _ => true
  | .heldStoresPerform _ => true
  | .lineWriteback _ => true
  | .pageRelease _ => true
  | .storeAckArrival _ _ _ => true
  | .leaseExpiry _ _ => true
  | .fenceStallEnd _ _ => true
  | .engineLockWaitEnd _ _ => true
  | .copyPageReach _ _ => true
  | .copyByteDelivery _ _ _ => true
  | .copyComplete _ _ => true
  | .migrationTick _ => true
  | .heatDecay _ => true
  | .migrationSwitch _ => true
  | .hostHalfRead _ _ => true
  | .hostWriteback _ _ _ => true
  | .homeApplyCut _ _ => true
  | .editionCutDone _ => true
  | .cowBackgroundFill _ => true
  | .drainPageWrite _ => true
  | .drainTargetAck _ => true
  | .chunkAckTimeout _ => true
  | .linkBulkTimeout _ => true
  | .linkInboundRequest _ _ _ _ => true
  | .pcieInboundDma _ _ _ => true
  | .coreIdleTimeout _ => true
  | .coreGateTimeout _ => true
  | .snapRequestAtReference _ _ => true
  | .remoteStoreAcknowledge _ => true
  | .hostOwnershipRequest _ => true
  | .hostOwnershipGrant _ _ => true
  | .linkAckArrival _ _ => true
  | .linkAbortTokenArrival _ _ => true
  | .hostDirectoryMerge _ => true
  | .keeperResume _ _ _ => true
  | .linkTrainingEnd _ _ _ => true
  | .linkLaneError _ => true
  | .linkFlitReceive _ _ => true
  | .mailboxWrite _ _ _ => true
  | .laneFailure _ _ => true
  | .timingReplay _ => true
  | .eccCorrected _ => true
  | .uncorrectableError _ => true
  | .scanComplete _ _ => true
  | .dieTemp105 _ => true
  | .dieCool95 _ => true
  | .coldReset _ => true
  | .keeperFailure _ _ => true
  | .functionReady _ => true
  | .clauseEntry => true
  | .distributorTurn => true
  | .heldEventPost => true
  | .scanTestTurn => true
  | .scanDrainTimeout => true
  | .scanUnitEmpty => true
  | .powerCapExceeded => true
  | .thermalStop => true
  | .deviceSignalAccepted => true
  | .ctxcreate => true
  | .ctxrun => true
  | .ctxsuspend => true
  | .ctxresume => true
  | .ctxmode => true
  | .ctxquery => true
  | .ctxdestroy => true
  | .cnlcreate => true
  | .cnlresume => true
  | .cnlquery => true
  | .cnldestroy => true
  | .pgdone => true
  | .rgnset => true
  | .rgnpool => true
  | .rgnplace => true
  | .rgnclear => true
  | .rgnquery => true
  | .vminv => true
  | .edconf => true
  | .edtarget => true
  | .edmap => true
  | .edunmap => true
  | .edretire => true
  | .edquery => true
  | .lnktrain => true
  | .lnkisolate => true
  | .lnkmap => true
  | .lnkunmap => true
  | .lnkabort => true
  | .lnkquery => true
  | .lnkexport => true
  | .hostevq => true
  | .corestat => true
  | .testconf => true
  | .dbgarea => true
  | .stopcore => true
  | .dbgresume => true
  | .watchset => true
  | .devstat => true
  | .pwrcap => true
  | .dieresume => true

/-- One more than the highest main register that the instruction names (R78, R79). -/
def Instr.mainSpan : Instr → Nat
  | .nop => 0
  | .bra _ => 0
  | .brc f => Use.src.span f.a
  | .brx f => Use.pair.span f.a
  | .call f => Use.dst64.span f.d
  | .callx f => max (Use.dst64.span f.d) (Use.pair.span f.a)
  | .ret f => Use.pair.span f.a
  | .exit _ => 0
  | .yield _ => 0
  | .join _ => 0
  | .leave _ => 0
  | .waitm _ => 0
  | .mksetA f => (if f.sub = 0 then .src else .src64 : Use).span f.a
  | .mksetW _ => 0
  | .mklop f => max ((if f.sub.val = 6 then .none else .src64 : Use).span f.a) ((if f.sub.val < 4 then .src64 else .none : Use).span f.b)
  | .mkcnt f => max (Use.dst.span f.d) (Use.src64.span f.a)
  | .mklane f => max (max (Use.dst.span f.d) (Use.src64.span f.a)) ((if f.sub.val = 2 then .src else .none : Use).span f.b)
  | .trap f => Use.src64.span f.a
  | .bpt _ => 0
  | .iaddA f => max (max (Use.dst.span f.d) (Use.src.span f.a)) (Use.src.span f.b)
  | .iaddW f => max (Use.dst.span f.d) (Use.src.span f.a)
  | .isubA f => max (max (Use.dst.span f.d) (Use.src.span f.a)) (Use.src.span f.b)
  | .isubW f => max (Use.dst.span f.d) (Use.src.span f.a)
  | .iaddc f => max (max (max (Use.dst.span f.d) (Use.src.span f.a)) (Use.src.span f.b)) (Use.srcI.spanC f.c)
  | .imulA f => max (max (Use.dst.span f.d) (Use.src.span f.a)) (Use.src.span f.b)
  | .imulW f => max (Use.dst.span f.d) (Use.src.span f.a)
  | .imulh f => max (max (Use.dst.span f.d) (Use.src.span f.a)) (Use.src.span f.b)
  | .imadA f => max (max (max (Use.dst.span f.d) (Use.src.span f.a)) (Use.src.span f.b)) (Use.srcI.spanC f.c)
  | .imadW f => max (Use.dst.span f.d) (Use.src.span f.a)
  | .imadw f => max (max (max (Use.dst64.span f.d) (Use.src.span f.a)) (Use.src.span f.b)) (Use.src64I.spanC f.c)
  | .idiv f => max (max (Use.dst.span f.d) (Use.src.span f.a)) (Use.src.span f.b)
  | .irem f => max (max (Use.dst.span f.d) (Use.src.span f.a)) (Use.src.span f.b)
  | .iminA f => max (max (Use.dst.span f.d) (Use.src.span f.a)) (Use.src.span f.b)
  | .iminW f => max (Use.dst.span f.d) (Use.src.span f.a)
  | .imaxA f => max (max (Use.dst.span f.d) (Use.src.span f.a)) (Use.src.span f.b)
  | .imaxW f => max (Use.dst.span f.d) (Use.src.span f.a)
  | .iabs f => max (Use.dst.span f.d) (Use.src.span f.a)
  | .ineg f => max (Use.dst.span f.d) (Use.src.span f.a)
  | .andA f => max (max (Use.dst.span f.d) (Use.src.span f.a)) (Use.src.span f.b)
  | .andW f => max (Use.dst.span f.d) (Use.src.span f.a)
  | .orA f => max (max (Use.dst.span f.d) (Use.src.span f.a)) (Use.src.span f.b)
  | .orW f => max (Use.dst.span f.d) (Use.src.span f.a)
  | .xorA f => max (max (Use.dst.span f.d) (Use.src.span f.a)) (Use.src.span f.b)
  | .xorW f => max (Use.dst.span f.d) (Use.src.span f.a)
  | .notA f => max (Use.dst.span f.d) (Use.src.span f.a)
  | .lop3 f => max (max (max (Use.dst.span f.d) (Use.src.span f.a)) (Use.src.span f.b)) (Use.srcI.spanC f.c)
  | .shl f => max (max (Use.dst.span f.d) (Use.src.span f.a)) (Use.src.span f.b)
  | .shr f => max (max (Use.dst.span f.d) (Use.src.span f.a)) (Use.src.span f.b)
  | .sar f => max (max (Use.dst.span f.d) (Use.src.span f.a)) (Use.src.span f.b)
  | .rot f => max (max (Use.dst.span f.d) (Use.src.span f.a)) (Use.src.span f.b)
  | .shf f => max (max (max (Use.dst.span f.d) (Use.src.span f.a)) (Use.src.span f.b)) (Use.srcI.spanC f.c)
  | .popc f => max (Use.dst.span f.d) (Use.src.span f.a)
  | .clz f => max (Use.dst.span f.d) (Use.src.span f.a)
  | .ctz f => max (Use.dst.span f.d) (Use.src.span f.a)
  | .brev f => max (Use.dst.span f.d) (Use.src.span f.a)
  | .bfe f => max (max (max (Use.dst.span f.d) (Use.src.span f.a)) (Use.src.span f.b)) (Use.srcI.spanC f.c)
  | .bfi f => max (max (max (Use.dst.span f.d) (Use.src.span f.a)) (Use.src.span f.b)) (Use.srcI.spanC f.c)
  | .prmt f => max (max (max (Use.dst.span f.d) (Use.src.span f.a)) (Use.src.span f.b)) (Use.srcI.spanC f.c)
  | .isetA f => max (max (Use.dst.span f.d) (Use.src.span f.a)) (Use.src.span f.b)
  | .isetW f => max (Use.dst.span f.d) (Use.src.span f.a)
  | .isel f => max (max (max ((.dstOf f.ty : Use).span f.d) ((.srcOf f.ty : Use).span f.a)) ((.srcOf f.ty : Use).span f.b)) (Use.srcI.spanC f.c)
  | .mov f => max ((.dstOf f.ty : Use).span f.d) ((.srcOf f.ty : Use).span f.a)
  | .movi f => (.dstOf f.ty : Use).span f.d
  | .movg f => max ((.srcOf f.ty : Use).span f.a) (Use.src.span f.b)
  | .lea f => max (max (Use.dst64.span f.d) (Use.src64.span f.a)) (Use.src.span f.b)
  | .iadd64 f => max (max (Use.dst64.span f.d) (Use.src64.span f.a)) (Use.src64.span f.b)
  | .idot4 f => max (max (max (Use.dst.span f.d) (Use.src.span f.a)) (Use.src.span f.b)) (Use.srcI.spanC f.c)
  | .faddA f => max (max (Use.dst.span f.d) (Use.src.span f.a)) (Use.src.span f.b)
  | .faddW f => max (Use.dst.span f.d) (Use.src.span f.a)
  | .fsub f => max (max (Use.dst.span f.d) (Use.src.span f.a)) (Use.src.span f.b)
  | .fmulA f => max (max (Use.dst.span f.d) (Use.src.span f.a)) (Use.src.span f.b)
  | .fmulW f => max (Use.dst.span f.d) (Use.src.span f.a)
  | .ffmaA f => max (max (max (Use.dst.span f.d) (Use.src.span f.a)) (Use.src.span f.b)) (Use.src.spanC f.c)
  | .ffmaW f => max (Use.dst.span f.d) (Use.src.span f.a)
  | .fminA f => max (max (Use.dst.span f.d) (Use.src.span f.a)) (Use.src.span f.b)
  | .fminW f => max (Use.dst.span f.d) (Use.src.span f.a)
  | .fmaxA f => max (max (Use.dst.span f.d) (Use.src.span f.a)) (Use.src.span f.b)
  | .fmaxW f => max (Use.dst.span f.d) (Use.src.span f.a)
  | .fsetA f => max (max (Use.dst.span f.d) (Use.src.span f.a)) (Use.src.span f.b)
  | .fsetW f => max (Use.dst.span f.d) (Use.src.span f.a)
  | .fclass f => max (Use.dst.span f.d) (Use.src.span f.a)
  | .frcp f => max (Use.dst.span f.d) (Use.src.span f.a)
  | .frsq f => max (Use.dst.span f.d) (Use.src.span f.a)
  | .fsqrt f => max (Use.dst.span f.d) (Use.src.span f.a)
  | .fdiv f => max (max (Use.dst.span f.d) (Use.src.span f.a)) (Use.src.span f.b)
  | .fexp2 f => max (Use.dst.span f.d) (Use.src.span f.a)
  | .flog2 f => max (Use.dst.span f.d) (Use.src.span f.a)
  | .fsin f => max (Use.dst.span f.d) (Use.src.span f.a)
  | .fcos f => max (Use.dst.span f.d) (Use.src.span f.a)
  | .ftanh f => max (Use.dst.span f.d) (Use.src.span f.a)
  | .hadd2 f => max (max (Use.dst.span f.d) (Use.src.span f.a)) (Use.src.span f.b)
  | .hmul2 f => max (max (Use.dst.span f.d) (Use.src.span f.a)) (Use.src.span f.b)
  | .hfma2 f => max (max (max (Use.dst.span f.d) (Use.src.span f.a)) (Use.src.span f.b)) (Use.src.spanC f.c)
  | .hmnmx2 f => max (max (Use.dst.span f.d) (Use.src.span f.a)) (Use.src.span f.b)
  | .bfma2 f => max (max (max (Use.dst.span f.d) (Use.src.span f.a)) (Use.src.span f.b)) (Use.src.spanC f.c)
  | .cvt f => max (max ((.dstOf f.dty : Use).span f.d) ((.srcOf f.sty : Use).span f.a)) ((if f.pk then .src else .none : Use).span f.b)
  | .cvtq f => f.mainSpan
  | .cvtd f => max (max (Use.dst.span f.d) (Use.src.span f.a)) (Use.src.span f.b)
  | .frnd f => max (Use.dst.span f.d) (Use.src.span f.a)
  | .fscale f => max (max (Use.dst.span f.d) (Use.src.span f.a)) (Use.src.span f.b)
  | .shfl f => max (max ((.laneDst f.ty : Use).span f.d) ((.laneSrc f.ty : Use).span f.a)) (Use.src.span f.b)
  | .shflx f => max (max ((.laneDst f.ty : Use).span f.d) ((.laneSrc f.ty : Use).span f.a)) (Use.src.span f.b)
  | .bcast f => max (max ((.laneDst f.ty : Use).span f.d) ((.laneSrc f.ty : Use).span f.a)) (Use.src.span f.b)
  | .vote f => max ((if f.sub ≠ 0 then .dst else if f.ty.wide then .pair else .dst64 : Use).span f.d) ((.laneSrc f.ty : Use).span f.a)
  | .redux f => max ((.laneDst f.ty : Use).span f.d) ((.laneSrc f.ty : Use).span f.a)
  | .fredux f => max (Use.dst.span f.d) (Use.src.span f.a)
  | .scan f => max (Use.dst.span f.d) (Use.src.span f.a)
  | .laneMatch f => max ((if f.sub ≠ 0 then .dst else if f.ty.wide then .pair else .dst64 : Use).span f.d) ((.laneSrc f.ty : Use).span f.a)
  | .ldB8 f => max (Use.loadDst.span f.d) (Use.pair.span f.a)
  | .ldB16 f => max (Use.loadDst.span f.d) (Use.pair.span f.a)
  | .ldB32 f => max (Use.loadDst.span f.d) (Use.pair.span f.a)
  | .ldB64 f => max (Use.even.span f.d) (Use.pair.span f.a)
  | .ldB128 f => max (Use.quad.span f.d) (Use.pair.span f.a)
  | .stB8 f => max (Use.src.span f.d) (Use.pair.span f.a)
  | .stB16 f => max (Use.src.span f.d) (Use.pair.span f.a)
  | .stB32 f => max (Use.src.span f.d) (Use.pair.span f.a)
  | .stB64 f => max (Use.even.span f.d) (Use.pair.span f.a)
  | .stB128 f => max (Use.quad.span f.d) (Use.pair.span f.a)
  | .ldlB8 f => max (Use.loadDst.span f.d) (Use.pair.span f.a)
  | .ldlB16 f => max (Use.loadDst.span f.d) (Use.pair.span f.a)
  | .ldlB32 f => max (Use.loadDst.span f.d) (Use.pair.span f.a)
  | .ldlB64 f => max (Use.even.span f.d) (Use.pair.span f.a)
  | .ldlB128 f => max (Use.quad.span f.d) (Use.pair.span f.a)
  | .stlB8 f => max (Use.src.span f.d) (Use.pair.span f.a)
  | .stlB16 f => max (Use.src.span f.d) (Use.pair.span f.a)
  | .stlB32 f => max (Use.src.span f.d) (Use.pair.span f.a)
  | .stlB64 f => max (Use.even.span f.d) (Use.pair.span f.a)
  | .stlB128 f => max (Use.quad.span f.d) (Use.pair.span f.a)
  | .ldt f => max (Use.quad.span f.d) (Use.pair.span f.a)
  | .wmap f => max (max (max (Use.dst.span f.d) (Use.src64.span f.a)) (Use.src.span f.b)) (Use.src.span f.c)
  | .wunmap f => Use.src.span f.a
  | .wsync f => (if f.sub = 0 then .src else .none : Use).span f.a
  | .winv f => (if f.sub = 0 then .src else .none : Use).span f.a
  | .wquery f => max (Use.dst64.span f.d) (Use.src.span f.a)
  | .atomB32 f => max (max (max (Use.dst.span f.d) (Use.pair.span f.a)) (Use.src.span f.b)) ((if f.op = .cas then .src else .none : Use).span f.c)
  | .atomB64 f => max (max (max (Use.pair.span f.d) (Use.pair.span f.a)) (Use.pair.span f.b)) ((if f.op = .cas then .pair else .none : Use).span f.c)
  | .atomlB32 f => max (max (max (Use.dst.span f.d) (Use.pair.span f.a)) (Use.src.span f.b)) ((if f.op = .cas then .src else .none : Use).span f.c)
  | .atomlB64 f => max (max (max (Use.pair.span f.d) (Use.pair.span f.a)) (Use.pair.span f.b)) ((if f.op = .cas then .pair else .none : Use).span f.c)
  | .redB32 f => max (max (Use.pair.span f.a) (Use.src.span f.b)) ((if f.op = .cas then .src else .none : Use).span f.c)
  | .redB64 f => max (max (Use.pair.span f.a) (Use.pair.span f.b)) ((if f.op = .cas then .pair else .none : Use).span f.c)
  | .fence _ => 0
  | .pref f => Use.pair.span f.a
  | .survey f => max (max (Use.pair.span f.d) (Use.pair.span f.a)) ((if f.sub.val % 2 = 1 then .none else .src : Use).span f.b)
  | .probe f => max (Use.dst.span f.d) (Use.pair.span f.a)
  | .discard f => max (Use.pair.span f.a) (Use.src.span f.b)
  | .sealRange f => max (max (Use.dst.span f.d) (Use.src.span f.a)) (Use.src.span f.b)
  | .unsealRange f => Use.src.span f.a
  | .stag f => Use.pair.span f.a
  | .ltag f => max (Use.dst.span f.d) (Use.pair.span f.a)
  | .cctl f => (if f.low.val = 1 then .none else .pair : Use).span f.a
  | .barinit f => max (Use.src.span f.a) (Use.src.span f.b)
  | .bararv f => max (Use.dst.span f.d) (Use.src.span f.a)
  | .barwait f => max (Use.src.span f.a) (Use.src.span f.b)
  | .barexp f => max (Use.src.span f.a) (Use.src.span f.b)
  | .bartry f => max (max (Use.dst.span f.d) (Use.src.span f.a)) (Use.src.span f.b)
  | .cpyG2l f => max (max (Use.pair.span f.a) (Use.src.span f.b)) (Use.src.span f.c)
  | .cpyL2g f => max (max (Use.src.span f.a) (Use.pair.span f.b)) (Use.src.span f.c)
  | .cpyL2l f => max (max (Use.src.span f.a) (Use.src.span f.b)) (Use.src.span f.c)
  | .cpyg f => max (max (Use.pair.span f.a) (Use.src.span f.b)) (Use.src.span f.c)
  | .cpys f => max (max (Use.src.span f.a) (Use.pair.span f.b)) (Use.src.span f.c)
  | .tagwaitAny f => max (Use.dst64.span f.d) (Use.src64.span f.a)
  | .tagwaitAll f => max (Use.dst64.span f.d) (Use.src64.span f.a)
  | .tagfirst f => max (Use.dst.span f.d) (Use.src64.span f.a)
  | .tagclr f => Use.src64.span f.a
  | .mmaF16 f => max (max ((if f.ga then .pair else .src : Use).span f.a) ((if f.gb then .pair else .src : Use).span f.b)) (Use.shape.span f.c)
  | .mmaBf16 f => max (max ((if f.ga then .pair else .src : Use).span f.a) ((if f.gb then .pair else .src : Use).span f.b)) (Use.shape.span f.c)
  | .mmaVt8 f => max (max ((if f.ga then .pair else .src : Use).span f.a) ((if f.gb then .pair else .src : Use).span f.b)) (Use.shape.span f.c)
  | .mmaS8 f => max (max ((if f.ga then .pair else .src : Use).span f.a) ((if f.gb then .pair else .src : Use).span f.b)) (Use.shape.span f.c)
  | .mmaN8 f => max (max ((if f.ga then .pair else .src : Use).span f.a) ((if f.gb then .pair else .src : Use).span f.b)) (Use.shape.span f.c)
  | .mmas f => max (max ((if f.ga then .pair else .src : Use).span f.a) ((if f.gb then .pair else .src : Use).span f.b)) (Use.shape.span f.c)
  | .mzero _ => 0
  | .mldt f => max (Use.src.span f.a) (Use.src.span f.b)
  | .mstt f => max (Use.src.span f.a) (Use.src.span f.b)
  | .mdrain f => max ((if f.g then .pair else .src : Use).span f.a) (Use.src.span f.c)
  | .malloc f => max (Use.dst.span f.a) (Use.src.span f.b)
  | .mfree f => Use.src.span f.b
  | .grbind f => Use.src.span f.a
  | .greval f => max (Use.src.span f.a) (Use.src.span f.b)
  | .grstat f => Use.dst64.span f.a
  | .nzscan f => max (max (Use.src.span f.a) (Use.src.span f.b)) (Use.src.span f.c)
  | .launch f => max (max (Use.dst64.span f.d) (Use.src64.span f.a)) (Use.src64.span f.b)
  | .snap f => Use.dst64.span f.d
  | .edstat f => max (Use.dst64.span f.d) (Use.src.span f.a)
  | .sreadA f => max (Use.dst64.span f.d) (Use.src.span f.a)
  | .sreadS f => Use.dst64.span f.d
  | .swriteA f => max (Use.src.span f.a) (Use.src64.span f.b)
  | .swriteS f => Use.src64.span f.a
  | .clock f => Use.dst64.span f.d
  | .stamp f => Use.src64.span f.a
  | .regq f => Use.dst.span f.d
  | .signal f => Use.src64.span f.a
  | .halt _ => 0
  | .reservedOpcodeIssue _ => 0
  | .operandsConsumed _ _ => 0
  | .operationComplete _ _ => 0
  | .maskWaitRelease _ _ _ => 0
  | .maskWaitLeave _ _ _ => 0
  | .collectiveComplete _ _ _ => 0
  | .collectiveDeliver _ _ _ => 0
  | .groupTrapStop _ _ => 0
  | .groupRestore _ _ => 0
  | .naturalSwap _ _ _ => 0
  | .forcedSwap _ => 0
  | .scoreDecay _ => 0
  | .regqGrant _ _ => 0
  | .groupSlotRelease _ _ => 0
  | .canalWatchStore _ => 0
  | .kernelComplete _ => 0
  | .homeFillRequest _ _ _ _ => 0
  | .homeStoreRequest _ _ _ _ => 0
  | .homeAtomicRequest _ _ _ => 0
  | .heldStoresPerform _ => 0
  | .lineWriteback _ => 0
  | .pageRelease _ => 0
  | .storeAckArrival _ _ _ => 0
  | .leaseExpiry _ _ => 0
  | .fenceStallEnd _ _ => 0
  | .engineLockWaitEnd _ _ => 0
  | .copyPageReach _ _ => 0
  | .copyByteDelivery _ _ _ => 0
  | .copyComplete _ _ => 0
  | .migrationTick _ => 0
  | .heatDecay _ => 0
  | .migrationSwitch _ => 0
  | .hostHalfRead _ _ => 0
  | .hostWriteback _ _ _ => 0
  | .homeApplyCut _ _ => 0
  | .editionCutDone _ => 0
  | .cowBackgroundFill _ => 0
  | .drainPageWrite _ => 0
  | .drainTargetAck _ => 0
  | .chunkAckTimeout _ => 0
  | .linkBulkTimeout _ => 0
  | .linkInboundRequest _ _ _ _ => 0
  | .pcieInboundDma _ _ _ => 0
  | .coreIdleTimeout _ => 0
  | .coreGateTimeout _ => 0
  | .snapRequestAtReference _ _ => 0
  | .remoteStoreAcknowledge _ => 0
  | .hostOwnershipRequest _ => 0
  | .hostOwnershipGrant _ _ => 0
  | .linkAckArrival _ _ => 0
  | .linkAbortTokenArrival _ _ => 0
  | .hostDirectoryMerge _ => 0
  | .keeperResume _ _ _ => 0
  | .linkTrainingEnd _ _ _ => 0
  | .linkLaneError _ => 0
  | .linkFlitReceive _ _ => 0
  | .mailboxWrite _ _ _ => 0
  | .laneFailure _ _ => 0
  | .timingReplay _ => 0
  | .eccCorrected _ => 0
  | .uncorrectableError _ => 0
  | .scanComplete _ _ => 0
  | .dieTemp105 _ => 0
  | .dieCool95 _ => 0
  | .coldReset _ => 0
  | .keeperFailure _ _ => 0
  | .functionReady _ => 0
  | .clauseEntry => 0
  | .distributorTurn => 0
  | .heldEventPost => 0
  | .scanTestTurn => 0
  | .scanDrainTimeout => 0
  | .scanUnitEmpty => 0
  | .powerCapExceeded => 0
  | .thermalStop => 0
  | .deviceSignalAccepted => 0
  | .ctxcreate => 0
  | .ctxrun => 0
  | .ctxsuspend => 0
  | .ctxresume => 0
  | .ctxmode => 0
  | .ctxquery => 0
  | .ctxdestroy => 0
  | .cnlcreate => 0
  | .cnlresume => 0
  | .cnlquery => 0
  | .cnldestroy => 0
  | .pgdone => 0
  | .rgnset => 0
  | .rgnpool => 0
  | .rgnplace => 0
  | .rgnclear => 0
  | .rgnquery => 0
  | .vminv => 0
  | .edconf => 0
  | .edtarget => 0
  | .edmap => 0
  | .edunmap => 0
  | .edretire => 0
  | .edquery => 0
  | .lnktrain => 0
  | .lnkisolate => 0
  | .lnkmap => 0
  | .lnkunmap => 0
  | .lnkabort => 0
  | .lnkquery => 0
  | .lnkexport => 0
  | .hostevq => 0
  | .corestat => 0
  | .testconf => 0
  | .dbgarea => 0
  | .stopcore => 0
  | .dbgresume => 0
  | .watchset => 0
  | .devstat => 0
  | .pwrcap => 0
  | .dieresume => 0

end Sys2Proof
end

