-- ==== Sys2Proof/Decode.lean ====
section
/-! DEFINITION. The decoder (R77–R94): total on any word, refusing by name; and after it the encoder, written from the
same tables.  A word is taken apart as a natural number, so that bit ranges are quotients and remainders. -/

namespace Sys2Proof

/-- Why a word is no instruction.  Every one of these is an illegal-instruction trap at issue (R79, R81, R92, R93). -/
inductive DecodeError
  /-- Fewer than eight bytes were given. -/
  | truncated
  /-- A specifier names a reserved index (R78). -/
  | reservedIndex
  /-- G = 0 with GMASK or GSENSE nonzero, or GMASK above 11 (R81). -/
  | reservedGuard
  /-- A TYPE code 0xE or 0xF (R83). -/
  | reservedType
  /-- A class, scope, kind, operation or option code marked reserved (R85, R111, R286, R325, R341). -/
  | reservedCode
  /-- A bit that the format or the entry leaves undefined is 1 (R93). -/
  | undefinedBit
  /-- A setting outside the entry's limits (R79, R93): `Instr.wf` fails. -/
  | outsideEntry
  deriving DecidableEq, Repr

/-- Bits lo + n − 1 to lo of a word. -/
def field (w lo n : Nat) : Nat := w / 2 ^ lo % 2 ^ n

/-- Bit i of a word. -/
def flag (w i : Nat) : Bool := w / 2 ^ i % 2 == 1

/-- A specifier (R78). -/
def decodeSpec (x : Nat) : Except DecodeError Spec :=
  if x < 0x100 then .ok (.main (Fin.ofNat 256 x))
  else if x < 0x108 then .ok (.q (Fin.ofNat 8 (x - 0x100)))
  else if x < 0x10A then .ok (.l (Fin.ofNat 2 (x - 0x108)))
  else if x = 0x10A then .ok .zero
  else if x = 0x10B then .ok .lane
  else if x < 0x200 then .error .reservedIndex
  else if x < 0x240 then .ok (.g (Fin.ofNat 64 (x - 0x200)))
  else if x < 0x24C then .ok (.k (Fin.ofNat 12 (x - 0x240)))
  else if x < 0x300 then .error .reservedIndex
  else .ok (.imm (BitVec.ofNat 8 (x - 0x300)))

/-- The guard field (R81). -/
def decodeGuard (x : Nat) : Except DecodeError Guard :=
  if x = 0 then .ok .always
  else if x < 32 then .error .reservedGuard
  else if (x - 32) / 2 < 12 then .ok (.mask (Fin.ofNat 12 ((x - 32) / 2)) (x % 2 == 1))
  else .error .reservedGuard

/-- Field C of format A (R82). -/
def decodeC (imm : Bool) (x : Nat) : Except DecodeError SrcC :=
  if imm then .ok (.imm10 (BitVec.ofNat 10 x)) else (decodeSpec x).map .spec

/-- A TYPE code (R83). -/
def decodeTy : Nat → Except DecodeError Ty
  | 0 => .ok .s8 | 1 => .ok .s16 | 2 => .ok .s32 | 3 => .ok .s64
  | 4 => .ok .n8 | 5 => .ok .n16 | 6 => .ok .n32 | 7 => .ok .n64
  | 8 => .ok .f32 | 9 => .ok .f16 | 10 => .ok .bf16 | 11 => .ok .vt8
  | 12 => .ok .e2m1 | 13 => .ok .e8m0
  | _ => .error .reservedType

/-- RND (R82). -/
def decodeRnd : Nat → Rnd
  | 0 => .rn | 1 => .rz | 2 => .ru | _ => .rd

/-- HAD (R319, R357). -/
def decodeHad : Nat → Except DecodeError Had
  | 0 => .ok .none | 1 => .ok .had16 | 2 => .ok .had32
  | _ => .error .reservedCode

/-- CLASS of a memory access (R85). -/
def decodeClass : Nat → Except DecodeError MemClass
  | 0 => .ok .weak | 1 => .ok .strong | 2 => .ok .vol
  | _ => .error .reservedCode

/-- SCOPE (R85). -/
def decodeScope : Nat → Except DecodeError Scope
  | 0 => .ok .thread | 1 => .ok .team | 2 => .ok .cluster | 3 => .ok .device | 4 => .ok .system
  | _ => .error .reservedCode

/-- KIND of an atomic (R341). -/
def decodeKind : Nat → Except DecodeError AtomKind
  | 0 => .ok .s | 1 => .ok .n | 2 => .ok .f
  | _ => .error .reservedCode

/-- OP of an atomic (R341). -/
def decodeAtomOp : Nat → Except DecodeError AtomOp
  | 0 => .ok .add | 1 => .ok .min | 2 => .ok .max | 3 => .ok .and | 4 => .ok .or
  | 5 => .ok .xor | 6 => .ok .exch | 7 => .ok .cas | 8 => .ok .inc | 9 => .ok .dec
  | _ => .error .reservedCode

/-- MODE of `MKSET` W (R286). -/
def decodeMaskMode : Nat → Except DecodeError MaskMode
  | 0 => .ok .lo | 1 => .ok .hi | 2 => .ok .sx
  | _ => .error .reservedCode

/-- A field that must be 0 (R93). -/
def mustBeZero (x : Nat) : Except DecodeError Unit := if x = 0 then .ok () else .error .undefinedBit

/-- An enable bit with its number, where a clear enable must leave the number 0 (R347, R352). -/
def decodeOpt64 (en : Bool) (x : Nat) : Except DecodeError (Option (Fin 64)) :=
  if en then .ok (some (Fin.ofNat 64 x)) else (mustBeZero x).map fun _ => none

/-! ### One reader for each layout -/

def parseFA (w : Nat) : Except DecodeError FA := do
  let guard ← decodeGuard (field w 10 6)
  let d ← decodeSpec (field w 46 10)
  let a ← decodeSpec (field w 36 10)
  let b ← decodeSpec (field w 26 10)
  let c ← decodeC (flag w 9) (field w 16 10)
  let ty ← decodeTy (field w 5 4)
  return { guard, d, a, b, c, ty, rnd := decodeRnd (field w 3 2), sub := Fin.ofNat 8 (field w 0 3) }

def parseFSub (w : Nat) : Except DecodeError FSub := do
  let guard ← decodeGuard (field w 10 6)
  let d ← decodeSpec (field w 46 10)
  let a ← decodeSpec (field w 36 10)
  let b ← decodeSpec (field w 26 10)
  let c ← decodeSpec (field w 16 10)
  mustBeZero (field w 3 7)
  return { guard, d, a, b, c, sub := Fin.ofNat 8 (field w 0 3) }

def parseFW (w : Nat) : Except DecodeError FW := do
  let d ← decodeSpec (field w 46 10)
  let a ← decodeSpec (field w 36 10)
  let ty ← decodeTy (field w 0 4)
  return { d, a, imm := BitVec.ofNat 32 (field w 4 32), ty }

def parseFWM (w : Nat) : Except DecodeError FWM := do
  let d ← decodeSpec (field w 46 10)
  let a ← decodeSpec (field w 36 10)
  mustBeZero (field w 2 2)
  let mode ← decodeMaskMode (field w 0 2)
  return { d, a, imm := BitVec.ofNat 32 (field w 4 32), mode }

def parseFLop (w : Nat) : Except DecodeError FLop := do
  let guard ← decodeGuard (field w 10 6)
  let d ← decodeSpec (field w 46 10)
  let a ← decodeSpec (field w 36 10)
  let b ← decodeSpec (field w 26 10)
  let c ← decodeC (flag w 9) (field w 16 10)
  return { guard, d, a, b, c, table := BitVec.ofNat 8 (field w 1 8), inv := flag w 0 }

def parseFShx (w : Nat) : Except DecodeError FShx := do
  let guard ← decodeGuard (field w 10 6)
  let d ← decodeSpec (field w 46 10)
  let a ← decodeSpec (field w 36 10)
  let b ← decodeSpec (field w 26 10)
  let c ← decodeSpec (field w 16 10)
  mustBeZero (field w 9 1)
  let ty ← decodeTy (field w 5 4)
  if field w 0 3 = 7 then .error .reservedCode
  else return { guard, d, a, b, c, ty, mode := Fin.ofNat 4 (field w 3 2), wid := Fin.ofNat 7 (field w 0 3) }

/-- `CVT` (R318): field C is the specifier 0b11_0000_SSSS of the source type. -/
def parseFCvt (w : Nat) : Except DecodeError FCvt := do
  let guard ← decodeGuard (field w 10 6)
  let d ← decodeSpec (field w 46 10)
  let a ← decodeSpec (field w 36 10)
  let b ← decodeSpec (field w 26 10)
  mustBeZero (field w 9 1)
  if field w 20 6 ≠ 0x30 then .error .outsideEntry
  else
    let sty ← decodeTy (field w 16 4)
    let dty ← decodeTy (field w 5 4)
    return { guard, d, a, b, sty, dty, rnd := decodeRnd (field w 3 2), wrap := flag w 2, hi := flag w 1, pk := flag w 0 }

def parseFCvq (w : Nat) : Except DecodeError FCvq := do
  let guard ← decodeGuard (field w 10 6)
  let d ← decodeSpec (field w 46 10)
  let a ← decodeSpec (field w 36 10)
  let b ← decodeSpec (field w 26 10)
  let c ← decodeSpec (field w 16 10)
  mustBeZero (field w 9 1)
  mustBeZero (field w 0 1)
  let ty ← decodeTy (field w 5 4)
  let had ← decodeHad (field w 1 2)
  return { guard, d, a, b, c, ty, rnd := decodeRnd (field w 3 2), had }

/-- The low bits of format M; an entry whose bits 3–0 are fewer checks them in `Instr.wf` (R85). -/
def parseFM (w : Nat) : Except DecodeError FM := do
  let guard ← decodeGuard (field w 10 6)
  let d ← decodeSpec (field w 46 10)
  let a ← decodeSpec (field w 36 10)
  let cls ← decodeClass (field w 7 2)
  let scope ← decodeScope (field w 4 3)
  return { guard, d, a, off := BitVec.ofNat 20 (field w 16 20), sx := flag w 9, cls, scope,
           low := Fin.ofNat 16 (field w 0 4) }

def parseFAt (w : Nat) : Except DecodeError FAt := do
  let guard ← decodeGuard (field w 10 6)
  let d ← decodeSpec (field w 46 10)
  let a ← decodeSpec (field w 36 10)
  let b ← decodeSpec (field w 26 10)
  let c ← decodeSpec (field w 16 10)
  mustBeZero (field w 9 1)
  let scope ← decodeScope (field w 6 3)
  let kind ← decodeKind (field w 4 2)
  let op ← decodeAtomOp (field w 0 4)
  return { guard, d, a, b, c, scope, kind, op }

def parseFBar (w : Nat) : Except DecodeError FBar := do
  let guard ← decodeGuard (field w 10 6)
  let d ← decodeSpec (field w 46 10)
  let a ← decodeSpec (field w 36 10)
  let b ← decodeSpec (field w 26 10)
  mustBeZero (field w 16 10)
  mustBeZero (field w 9 1)
  mustBeZero (field w 0 7)
  return { guard, d, a, b, cluster := flag w 8, bytes := flag w 7 }

def parseFCpy (w : Nat) : Except DecodeError FCpy := do
  mustBeZero (field w 46 10)
  let a ← decodeSpec (field w 36 10)
  let b ← decodeSpec (field w 26 10)
  let c ← decodeSpec (field w 16 10)
  let bar ← decodeOpt64 (flag w 15) (field w 9 6)
  let tag ← decodeOpt64 (flag w 8) (field w 2 6)
  mustBeZero (field w 0 2)
  return { a, b, c, bar, tag }

def parseFMma (w : Nat) : Except DecodeError FMma := do
  let a ← decodeSpec (field w 36 10)
  let b ← decodeSpec (field w 26 10)
  let c ← decodeSpec (field w 16 10)
  let had ← decodeHad (field w 11 2)
  mustBeZero (field w 0 9)
  return { td := Fin.ofNat 32 (field w 51 5), ts := Fin.ofNat 32 (field w 46 5), a, b, c, ga := flag w 15, gb := flag w 14,
           strict := flag w 13, had, sel := Fin.ofNat 4 (field w 9 2) }

def parseFTile (w : Nat) : Except DecodeError FTile := do
  let a ← decodeSpec (field w 36 10)
  let b ← decodeSpec (field w 26 10)
  let c ← decodeSpec (field w 16 10)
  let ty ← decodeTy (field w 12 4)
  mustBeZero (field w 9 1)
  let tag ← decodeOpt64 (flag w 8) (field w 2 6)
  mustBeZero (field w 0 2)
  return { td := Fin.ofNat 32 (field w 51 5), ts := Fin.ofNat 32 (field w 46 5), a, b, c, ty, g := flag w 11,
           z := flag w 10, tag }

def parseFEng (w : Nat) : Except DecodeError FEng := do
  let a ← decodeSpec (field w 36 10)
  let b ← decodeSpec (field w 26 10)
  let c ← decodeSpec (field w 16 10)
  mustBeZero (field w 9 4)
  let tag ← decodeOpt64 (flag w 8) (field w 2 6)
  mustBeZero (field w 0 2)
  return { td := Fin.ofNat 32 (field w 51 5), ts := Fin.ofNat 32 (field w 46 5), a, b, c, rows := flag w 15,
           skip := flag w 14, spill := flag w 13, tag }

def parseFB (w : Nat) : Except DecodeError FB := do
  let guard ← decodeGuard (field w 10 6)
  let d ← decodeSpec (field w 46 10)
  let a ← decodeSpec (field w 36 10)
  mustBeZero (field w 1 5)
  return { guard, d, a, off := BitVec.ofNat 20 (field w 16 20), slot := Fin.ofNat 16 (field w 6 4), z := flag w 0 }

def parseFS (w : Nat) : Except DecodeError FS := do
  let guard ← decodeGuard (field w 10 6)
  let d ← decodeSpec (field w 46 10)
  let a ← decodeSpec (field w 36 10)
  mustBeZero (field w 3 7)
  return { guard, d, a, imm := BitVec.ofNat 20 (field w 16 20), mode := Fin.ofNat 8 (field w 0 3) }

/-- The opcode map (R90, R91): the opcode fixes the layout.  A reserved opcode is `reservedOpcodeIssue` (R92). -/
def parseWord (w : Nat) : Except DecodeError Instr :=
  match field w 56 8 with
  | 0x00 => (mustBeZero w).map fun _ => .nop
  | 0x01 => (parseFB w).map .bra
  | 0x02 => (parseFB w).map .brc
  | 0x03 => (parseFSub w).map .brx
  | 0x04 => (parseFB w).map .call
  | 0x05 => (parseFSub w).map .callx
  | 0x06 => (parseFSub w).map .ret
  | 0x07 => (parseFSub w).map .exit
  | 0x08 => (parseFSub w).map .yield
  | 0x09 => (parseFSub w).map .join
  | 0x0A => (parseFSub w).map .leave
  | 0x0B => (parseFSub w).map .waitm
  | 0x0C => (parseFSub w).map .mksetA
  | 0x0D => (parseFWM w).map .mksetW
  | 0x0E => (parseFSub w).map .mklop
  | 0x0F => (parseFSub w).map .mkcnt
  | 0x10 => (parseFSub w).map .mklane
  | 0x11 => (parseFS w).map .trap
  | 0x12 => (parseFS w).map .bpt
  | 0x20 => (parseFA w).map .iaddA
  | 0x21 => (parseFW w).map .iaddW
  | 0x22 => (parseFA w).map .isubA
  | 0x23 => (parseFW w).map .isubW
  | 0x24 => (parseFA w).map .iaddc
  | 0x25 => (parseFA w).map .imulA
  | 0x26 => (parseFW w).map .imulW
  | 0x27 => (parseFA w).map .imulh
  | 0x28 => (parseFA w).map .imadA
  | 0x29 => (parseFW w).map .imadW
  | 0x2A => (parseFA w).map .imadw
  | 0x2B => (parseFA w).map .idiv
  | 0x2C => (parseFA w).map .irem
  | 0x2D => (parseFA w).map .iminA
  | 0x2E => (parseFW w).map .iminW
  | 0x2F => (parseFA w).map .imaxA
  | 0x30 => (parseFW w).map .imaxW
  | 0x31 => (parseFA w).map .iabs
  | 0x32 => (parseFA w).map .ineg
  | 0x33 => (parseFA w).map .andA
  | 0x34 => (parseFW w).map .andW
  | 0x35 => (parseFA w).map .orA
  | 0x36 => (parseFW w).map .orW
  | 0x37 => (parseFA w).map .xorA
  | 0x38 => (parseFW w).map .xorW
  | 0x39 => (parseFA w).map .notA
  | 0x3A => (parseFLop w).map .lop3
  | 0x3B => (parseFA w).map .shl
  | 0x3C => (parseFA w).map .shr
  | 0x3D => (parseFA w).map .sar
  | 0x3E => (parseFA w).map .rot
  | 0x3F => (parseFA w).map .shf
  | 0x40 => (parseFA w).map .popc
  | 0x41 => (parseFA w).map .clz
  | 0x42 => (parseFA w).map .ctz
  | 0x43 => (parseFA w).map .brev
  | 0x44 => (parseFA w).map .bfe
  | 0x45 => (parseFA w).map .bfi
  | 0x46 => (parseFA w).map .prmt
  | 0x47 => (parseFA w).map .isetA
  | 0x48 => (parseFW w).map .isetW
  | 0x49 => (parseFA w).map .isel
  | 0x4A => (parseFA w).map .mov
  | 0x4B => (parseFW w).map .movi
  | 0x4C => (parseFA w).map .movg
  | 0x4D => (parseFA w).map .lea
  | 0x4E => (parseFA w).map .iadd64
  | 0x4F => (parseFA w).map .idot4
  | 0x50 => (parseFA w).map .faddA
  | 0x51 => (parseFW w).map .faddW
  | 0x52 => (parseFA w).map .fsub
  | 0x53 => (parseFA w).map .fmulA
  | 0x54 => (parseFW w).map .fmulW
  | 0x55 => (parseFA w).map .ffmaA
  | 0x56 => (parseFW w).map .ffmaW
  | 0x57 => (parseFA w).map .fminA
  | 0x58 => (parseFW w).map .fminW
  | 0x59 => (parseFA w).map .fmaxA
  | 0x5A => (parseFW w).map .fmaxW
  | 0x5B => (parseFA w).map .fsetA
  | 0x5C => (parseFW w).map .fsetW
  | 0x5D => (parseFA w).map .fclass
  | 0x5E => (parseFA w).map .frcp
  | 0x5F => (parseFA w).map .frsq
  | 0x60 => (parseFA w).map .fsqrt
  | 0x61 => (parseFA w).map .fdiv
  | 0x62 => (parseFA w).map .fexp2
  | 0x63 => (parseFA w).map .flog2
  | 0x64 => (parseFA w).map .fsin
  | 0x65 => (parseFA w).map .fcos
  | 0x66 => (parseFA w).map .ftanh
  | 0x67 => (parseFA w).map .hadd2
  | 0x68 => (parseFA w).map .hmul2
  | 0x69 => (parseFA w).map .hfma2
  | 0x6A => (parseFA w).map .hmnmx2
  | 0x6B => (parseFA w).map .bfma2
  | 0x6C => (parseFCvt w).map .cvt
  | 0x6D => (parseFCvq w).map .cvtq
  | 0x6E => (parseFA w).map .cvtd
  | 0x6F => (parseFA w).map .frnd
  | 0x70 => (parseFA w).map .fscale
  | 0x80 => (parseFA w).map .shfl
  | 0x81 => (parseFShx w).map .shflx
  | 0x82 => (parseFA w).map .bcast
  | 0x83 => (parseFA w).map .vote
  | 0x84 => (parseFA w).map .redux
  | 0x85 => (parseFA w).map .fredux
  | 0x86 => (parseFA w).map .scan
  | 0x87 => (parseFA w).map .laneMatch
  | 0x90 => (parseFM w).map .ldB8
  | 0x91 => (parseFM w).map .ldB16
  | 0x92 => (parseFM w).map .ldB32
  | 0x93 => (parseFM w).map .ldB64
  | 0x94 => (parseFM w).map .ldB128
  | 0x95 => (parseFM w).map .stB8
  | 0x96 => (parseFM w).map .stB16
  | 0x97 => (parseFM w).map .stB32
  | 0x98 => (parseFM w).map .stB64
  | 0x99 => (parseFM w).map .stB128
  | 0x9A => (parseFM w).map .ldlB8
  | 0x9B => (parseFM w).map .ldlB16
  | 0x9C => (parseFM w).map .ldlB32
  | 0x9D => (parseFM w).map .ldlB64
  | 0x9E => (parseFM w).map .ldlB128
  | 0x9F => (parseFM w).map .stlB8
  | 0xA0 => (parseFM w).map .stlB16
  | 0xA1 => (parseFM w).map .stlB32
  | 0xA2 => (parseFM w).map .stlB64
  | 0xA3 => (parseFM w).map .stlB128
  | 0xA4 => (parseFM w).map .ldt
  | 0xA5 => (parseFSub w).map .wmap
  | 0xA6 => (parseFSub w).map .wunmap
  | 0xA7 => (parseFSub w).map .wsync
  | 0xA8 => (parseFSub w).map .winv
  | 0xA9 => (parseFSub w).map .wquery
  | 0xAA => (parseFAt w).map .atomB32
  | 0xAB => (parseFAt w).map .atomB64
  | 0xAC => (parseFAt w).map .atomlB32
  | 0xAD => (parseFAt w).map .atomlB64
  | 0xAE => (parseFAt w).map .redB32
  | 0xAF => (parseFAt w).map .redB64
  | 0xB0 => (parseFS w).map .fence
  | 0xB1 => (parseFM w).map .pref
  | 0xB2 => (parseFSub w).map .survey
  | 0xB3 => (parseFSub w).map .probe
  | 0xB4 => (parseFSub w).map .discard
  | 0xB5 => (parseFSub w).map .sealRange
  | 0xB6 => (parseFSub w).map .unsealRange
  | 0xB7 => (parseFM w).map .stag
  | 0xB8 => (parseFM w).map .ltag
  | 0xB9 => (parseFM w).map .cctl
  | 0xC0 => (parseFBar w).map .barinit
  | 0xC1 => (parseFBar w).map .bararv
  | 0xC2 => (parseFBar w).map .barwait
  | 0xC3 => (parseFBar w).map .barexp
  | 0xC4 => (parseFBar w).map .bartry
  | 0xC5 => (parseFCpy w).map .cpyG2l
  | 0xC6 => (parseFCpy w).map .cpyL2g
  | 0xC7 => (parseFCpy w).map .cpyL2l
  | 0xC8 => (parseFCpy w).map .cpyg
  | 0xC9 => (parseFCpy w).map .cpys
  | 0xCA => (parseFSub w).map .tagwaitAny
  | 0xCB => (parseFSub w).map .tagwaitAll
  | 0xCC => (parseFSub w).map .tagfirst
  | 0xCD => (parseFSub w).map .tagclr
  | 0xD0 => (parseFMma w).map .mmaF16
  | 0xD1 => (parseFMma w).map .mmaBf16
  | 0xD2 => (parseFMma w).map .mmaVt8
  | 0xD3 => (parseFMma w).map .mmaS8
  | 0xD4 => (parseFMma w).map .mmaN8
  | 0xD5 => (parseFMma w).map .mmas
  | 0xD6 => (parseFEng w).map .mzero
  | 0xD7 => (parseFTile w).map .mldt
  | 0xD8 => (parseFTile w).map .mstt
  | 0xD9 => (parseFTile w).map .mdrain
  | 0xDA => (parseFEng w).map .malloc
  | 0xDB => (parseFEng w).map .mfree
  | 0xDC => (parseFEng w).map .grbind
  | 0xDD => (parseFEng w).map .greval
  | 0xDE => (parseFEng w).map .grstat
  | 0xDF => (parseFEng w).map .nzscan
  | 0xF0 => (parseFSub w).map .launch
  | 0xF1 => (parseFS w).map .snap
  | 0xF2 => (parseFS w).map .edstat
  | 0xF3 => (parseFSub w).map .sreadA
  | 0xF4 => (parseFS w).map .sreadS
  | 0xF5 => (parseFSub w).map .swriteA
  | 0xF6 => (parseFS w).map .swriteS
  | 0xF7 => (parseFS w).map .clock
  | 0xF8 => (parseFS w).map .stamp
  | 0xF9 => (parseFS w).map .regq
  | 0xFA => (parseFS w).map .signal
  | 0xFB => (parseFS w).map .halt
  | _ => .ok (.reservedOpcodeIssue (BitVec.ofNat 64 w))

/-- The instruction of a word, or why there is none. -/
def decodeWord (w : BitVec 64) : Except DecodeError Instr := do
  let i ← parseWord w.toNat
  if i.wf then .ok i else .error .outsideEntry

/-- Opcodes whose words hold no guard: `NOP`, the values of formats W and X, and `REGQ` (R77, R91, R157, R275). -/
def unguardedOpcodes : List Nat :=
  [0x00, 0x0D, 0x21, 0x23, 0x26, 0x29, 0x2E, 0x30, 0x34, 0x36, 0x38, 0x48, 0x4B, 0x51, 0x54, 0x56, 0x58, 0x5A, 0x5C, 0xF9] ++
    [0xC5, 0xC6, 0xC7, 0xC8, 0xC9, 0xD0, 0xD1, 0xD2, 0xD3, 0xD4, 0xD5, 0xD6, 0xD7, 0xD8, 0xD9, 0xDA, 0xDB, 0xDC, 0xDD, 0xDE, 0xDF]

/-- The guard of a word whose opcode is assigned and takes one (R77, R81); none where the word holds no legal guard, the guard bits of a
reserved opcode not being interpreted (R92). -/
def guardOfWord (w : BitVec 64) : Option Guard :=
  if reservedOpcode (field w.toNat 56 8) || unguardedOpcodes.contains (field w.toNat 56 8) then none
  else
    match decodeGuard (field w.toNat 10 6) with
    | .ok g => some g
    | .error _ => none

/-- Little-endian (R4): the number whose lowest byte stands first. -/
def fromBytes : List Byte → Nat
  | [] => 0
  | b :: bs => b.toNat + 256 * fromBytes bs

/-- The n low bytes of a number, lowest first. -/
def toBytes : Nat → Nat → List Byte
  | 0, _ => []
  | n + 1, x => BitVec.ofNat 8 x :: toBytes n (x / 256)

/-- The instruction at the head of a byte sequence, and the bytes after it (R64, R77). -/
def decodeBytes (bs : List Byte) : Except DecodeError (Instr × List Byte) :=
  if bs.length < 8 then .error .truncated
  else (decodeWord (BitVec.ofNat 64 (fromBytes (bs.take 8)))).map fun i => (i, bs.drop 8)

/-- What the decoder reads from an instruction whose bits, numbered from the first word's least significant, are `w`: the
word is laid out as the hardware stores it and given to the decoder.  Every instruction is one 64-bit word. -/
def decodeTableWord (_nbits w : Nat) : Option Instr :=
  match decodeBytes (toBytes 8 w) with
  | .ok (i, _) => some i
  | .error _ => none

/-! ### The encoder -/

/-- R78. -/
def encodeSpec : Spec → Nat
  | .main i => i.val
  | .q i => 0x100 + i.val
  | .l i => 0x108 + i.val
  | .zero => 0x10A
  | .lane => 0x10B
  | .g i => 0x200 + i.val
  | .k i => 0x240 + i.val
  | .imm x => 0x300 + x.toNat

/-- A Boolean as a bit. -/
def bit (b : Bool) : Nat := if b then 1 else 0

/-- R81: G, GMASK, GSENSE. -/
def encodeGuard : Guard → Nat
  | .always => 0
  | .mask k neg => 32 + 2 * k.val + bit neg

/-- Field C and CIMM of format A. -/
def encodeC : SrcC → Nat × Nat
  | .spec s => (encodeSpec s, 0)
  | .imm10 x => (x.toNat, 1)

/-- R83. -/
def encodeTy : Ty → Nat
  | .s8 => 0 | .s16 => 1 | .s32 => 2 | .s64 => 3 | .n8 => 4 | .n16 => 5 | .n32 => 6 | .n64 => 7
  | .f32 => 8 | .f16 => 9 | .bf16 => 10 | .vt8 => 11 | .e2m1 => 12 | .e8m0 => 13

def encodeRnd : Rnd → Nat
  | .rn => 0 | .rz => 1 | .ru => 2 | .rd => 3

def encodeHad : Had → Nat
  | .none => 0 | .had16 => 1 | .had32 => 2

def encodeClass : MemClass → Nat
  | .weak => 0 | .strong => 1 | .vol => 2

def encodeScope : Scope → Nat
  | .thread => 0 | .team => 1 | .cluster => 2 | .device => 3 | .system => 4

def encodeKind : AtomKind → Nat
  | .s => 0 | .n => 1 | .f => 2

def encodeAtomOp : AtomOp → Nat
  | .add => 0 | .min => 1 | .max => 2 | .and => 3 | .or => 4 | .xor => 5 | .exch => 6 | .cas => 7 | .inc => 8 | .dec => 9

def encodeMaskMode : MaskMode → Nat
  | .lo => 0 | .hi => 1 | .sx => 2

/-- An enable bit and its six-bit number, the enable at bit 6. -/
def encodeOpt64 : Option (Fin 64) → Nat
  | none => 0
  | some x => 64 + x.val

/-- The fields at bits 63–56, 55–46, 45–36, 35–26, 25–16 and 15–0 of a word. -/
def pack (op d a b c low : Nat) : Nat :=
  ((((op * 1024 + d) * 1024 + a) * 1024 + b) * 1024 + c) * 65536 + low

/-- The fields at bits 63–56, 55–46, 45–36 and 35–0 of a word. -/
def packW (op d a low : Nat) : Nat := ((op * 1024 + d) * 1024 + a) * 2 ^ 36 + low

def packFA (op : Nat) (f : FA) : Nat :=
  pack op (encodeSpec f.d) (encodeSpec f.a) (encodeSpec f.b) (encodeC f.c).1
    (encodeGuard f.guard * 1024 + (encodeC f.c).2 * 512 + encodeTy f.ty * 32 + encodeRnd f.rnd * 8 + f.sub.val)

def packFSub (op : Nat) (f : FSub) : Nat :=
  pack op (encodeSpec f.d) (encodeSpec f.a) (encodeSpec f.b) (encodeSpec f.c) (encodeGuard f.guard * 1024 + f.sub.val)

def packFW (op : Nat) (f : FW) : Nat :=
  packW op (encodeSpec f.d) (encodeSpec f.a) (f.imm.toNat * 16 + encodeTy f.ty)

def packFWM (op : Nat) (f : FWM) : Nat :=
  packW op (encodeSpec f.d) (encodeSpec f.a) (f.imm.toNat * 16 + encodeMaskMode f.mode)

def packFLop (op : Nat) (f : FLop) : Nat :=
  pack op (encodeSpec f.d) (encodeSpec f.a) (encodeSpec f.b) (encodeC f.c).1
    (encodeGuard f.guard * 1024 + (encodeC f.c).2 * 512 + f.table.toNat * 2 + bit f.inv)

def packFShx (op : Nat) (f : FShx) : Nat :=
  pack op (encodeSpec f.d) (encodeSpec f.a) (encodeSpec f.b) (encodeSpec f.c)
    (encodeGuard f.guard * 1024 + encodeTy f.ty * 32 + f.mode.val * 8 + f.wid.val)

def packFCvt (op : Nat) (f : FCvt) : Nat :=
  pack op (encodeSpec f.d) (encodeSpec f.a) (encodeSpec f.b) (0x300 + encodeTy f.sty)
    (encodeGuard f.guard * 1024 + encodeTy f.dty * 32 + encodeRnd f.rnd * 8 + bit f.wrap * 4 + bit f.hi * 2 + bit f.pk)

def packFCvq (op : Nat) (f : FCvq) : Nat :=
  pack op (encodeSpec f.d) (encodeSpec f.a) (encodeSpec f.b) (encodeSpec f.c)
    (encodeGuard f.guard * 1024 + encodeTy f.ty * 32 + encodeRnd f.rnd * 8 + encodeHad f.had * 2)

def packFM (op : Nat) (f : FM) : Nat :=
  packW op (encodeSpec f.d) (encodeSpec f.a)
    (f.off.toNat * 65536 + encodeGuard f.guard * 1024 + bit f.sx * 512 + encodeClass f.cls * 128
      + encodeScope f.scope * 16 + f.low.val)

def packFAt (op : Nat) (f : FAt) : Nat :=
  pack op (encodeSpec f.d) (encodeSpec f.a) (encodeSpec f.b) (encodeSpec f.c)
    (encodeGuard f.guard * 1024 + encodeScope f.scope * 64 + encodeKind f.kind * 16 + encodeAtomOp f.op)

def packFBar (op : Nat) (f : FBar) : Nat :=
  pack op (encodeSpec f.d) (encodeSpec f.a) (encodeSpec f.b) 0
    (encodeGuard f.guard * 1024 + bit f.cluster * 256 + bit f.bytes * 128)

def packFCpy (op : Nat) (f : FCpy) : Nat :=
  pack op 0 (encodeSpec f.a) (encodeSpec f.b) (encodeSpec f.c) (encodeOpt64 f.bar * 512 + encodeOpt64 f.tag * 4)

def packFMma (op : Nat) (f : FMma) : Nat :=
  pack op (f.td.val * 32 + f.ts.val) (encodeSpec f.a) (encodeSpec f.b) (encodeSpec f.c)
    (bit f.ga * 32768 + bit f.gb * 16384 + bit f.strict * 8192 + encodeHad f.had * 2048 + f.sel.val * 512)

def packFTile (op : Nat) (f : FTile) : Nat :=
  pack op (f.td.val * 32 + f.ts.val) (encodeSpec f.a) (encodeSpec f.b) (encodeSpec f.c)
    (encodeTy f.ty * 4096 + bit f.g * 2048 + bit f.z * 1024 + encodeOpt64 f.tag * 4)

def packFEng (op : Nat) (f : FEng) : Nat :=
  pack op (f.td.val * 32 + f.ts.val) (encodeSpec f.a) (encodeSpec f.b) (encodeSpec f.c)
    (bit f.rows * 32768 + bit f.skip * 16384 + bit f.spill * 8192 + encodeOpt64 f.tag * 4)

def packFB (op : Nat) (f : FB) : Nat :=
  packW op (encodeSpec f.d) (encodeSpec f.a)
    (f.off.toNat * 65536 + encodeGuard f.guard * 1024 + f.slot.val * 64 + bit f.z)

def packFS (op : Nat) (f : FS) : Nat :=
  packW op (encodeSpec f.d) (encodeSpec f.a) (f.imm.toNat * 65536 + encodeGuard f.guard * 1024 + f.mode.val)

/-- The word of an instruction as a number; events and commands have none. -/
def encodeNat : Instr → Option Nat
  | .nop => some 0
  | .bra f => some (packFB 0x01 f)
  | .brc f => some (packFB 0x02 f)
  | .brx f => some (packFSub 0x03 f)
  | .call f => some (packFB 0x04 f)
  | .callx f => some (packFSub 0x05 f)
  | .ret f => some (packFSub 0x06 f)
  | .exit f => some (packFSub 0x07 f)
  | .yield f => some (packFSub 0x08 f)
  | .join f => some (packFSub 0x09 f)
  | .leave f => some (packFSub 0x0A f)
  | .waitm f => some (packFSub 0x0B f)
  | .mksetA f => some (packFSub 0x0C f)
  | .mksetW f => some (packFWM 0x0D f)
  | .mklop f => some (packFSub 0x0E f)
  | .mkcnt f => some (packFSub 0x0F f)
  | .mklane f => some (packFSub 0x10 f)
  | .trap f => some (packFS 0x11 f)
  | .bpt f => some (packFS 0x12 f)
  | .iaddA f => some (packFA 0x20 f)
  | .iaddW f => some (packFW 0x21 f)
  | .isubA f => some (packFA 0x22 f)
  | .isubW f => some (packFW 0x23 f)
  | .iaddc f => some (packFA 0x24 f)
  | .imulA f => some (packFA 0x25 f)
  | .imulW f => some (packFW 0x26 f)
  | .imulh f => some (packFA 0x27 f)
  | .imadA f => some (packFA 0x28 f)
  | .imadW f => some (packFW 0x29 f)
  | .imadw f => some (packFA 0x2A f)
  | .idiv f => some (packFA 0x2B f)
  | .irem f => some (packFA 0x2C f)
  | .iminA f => some (packFA 0x2D f)
  | .iminW f => some (packFW 0x2E f)
  | .imaxA f => some (packFA 0x2F f)
  | .imaxW f => some (packFW 0x30 f)
  | .iabs f => some (packFA 0x31 f)
  | .ineg f => some (packFA 0x32 f)
  | .andA f => some (packFA 0x33 f)
  | .andW f => some (packFW 0x34 f)
  | .orA f => some (packFA 0x35 f)
  | .orW f => some (packFW 0x36 f)
  | .xorA f => some (packFA 0x37 f)
  | .xorW f => some (packFW 0x38 f)
  | .notA f => some (packFA 0x39 f)
  | .lop3 f => some (packFLop 0x3A f)
  | .shl f => some (packFA 0x3B f)
  | .shr f => some (packFA 0x3C f)
  | .sar f => some (packFA 0x3D f)
  | .rot f => some (packFA 0x3E f)
  | .shf f => some (packFA 0x3F f)
  | .popc f => some (packFA 0x40 f)
  | .clz f => some (packFA 0x41 f)
  | .ctz f => some (packFA 0x42 f)
  | .brev f => some (packFA 0x43 f)
  | .bfe f => some (packFA 0x44 f)
  | .bfi f => some (packFA 0x45 f)
  | .prmt f => some (packFA 0x46 f)
  | .isetA f => some (packFA 0x47 f)
  | .isetW f => some (packFW 0x48 f)
  | .isel f => some (packFA 0x49 f)
  | .mov f => some (packFA 0x4A f)
  | .movi f => some (packFW 0x4B f)
  | .movg f => some (packFA 0x4C f)
  | .lea f => some (packFA 0x4D f)
  | .iadd64 f => some (packFA 0x4E f)
  | .idot4 f => some (packFA 0x4F f)
  | .faddA f => some (packFA 0x50 f)
  | .faddW f => some (packFW 0x51 f)
  | .fsub f => some (packFA 0x52 f)
  | .fmulA f => some (packFA 0x53 f)
  | .fmulW f => some (packFW 0x54 f)
  | .ffmaA f => some (packFA 0x55 f)
  | .ffmaW f => some (packFW 0x56 f)
  | .fminA f => some (packFA 0x57 f)
  | .fminW f => some (packFW 0x58 f)
  | .fmaxA f => some (packFA 0x59 f)
  | .fmaxW f => some (packFW 0x5A f)
  | .fsetA f => some (packFA 0x5B f)
  | .fsetW f => some (packFW 0x5C f)
  | .fclass f => some (packFA 0x5D f)
  | .frcp f => some (packFA 0x5E f)
  | .frsq f => some (packFA 0x5F f)
  | .fsqrt f => some (packFA 0x60 f)
  | .fdiv f => some (packFA 0x61 f)
  | .fexp2 f => some (packFA 0x62 f)
  | .flog2 f => some (packFA 0x63 f)
  | .fsin f => some (packFA 0x64 f)
  | .fcos f => some (packFA 0x65 f)
  | .ftanh f => some (packFA 0x66 f)
  | .hadd2 f => some (packFA 0x67 f)
  | .hmul2 f => some (packFA 0x68 f)
  | .hfma2 f => some (packFA 0x69 f)
  | .hmnmx2 f => some (packFA 0x6A f)
  | .bfma2 f => some (packFA 0x6B f)
  | .cvt f => some (packFCvt 0x6C f)
  | .cvtq f => some (packFCvq 0x6D f)
  | .cvtd f => some (packFA 0x6E f)
  | .frnd f => some (packFA 0x6F f)
  | .fscale f => some (packFA 0x70 f)
  | .shfl f => some (packFA 0x80 f)
  | .shflx f => some (packFShx 0x81 f)
  | .bcast f => some (packFA 0x82 f)
  | .vote f => some (packFA 0x83 f)
  | .redux f => some (packFA 0x84 f)
  | .fredux f => some (packFA 0x85 f)
  | .scan f => some (packFA 0x86 f)
  | .laneMatch f => some (packFA 0x87 f)
  | .ldB8 f => some (packFM 0x90 f)
  | .ldB16 f => some (packFM 0x91 f)
  | .ldB32 f => some (packFM 0x92 f)
  | .ldB64 f => some (packFM 0x93 f)
  | .ldB128 f => some (packFM 0x94 f)
  | .stB8 f => some (packFM 0x95 f)
  | .stB16 f => some (packFM 0x96 f)
  | .stB32 f => some (packFM 0x97 f)
  | .stB64 f => some (packFM 0x98 f)
  | .stB128 f => some (packFM 0x99 f)
  | .ldlB8 f => some (packFM 0x9A f)
  | .ldlB16 f => some (packFM 0x9B f)
  | .ldlB32 f => some (packFM 0x9C f)
  | .ldlB64 f => some (packFM 0x9D f)
  | .ldlB128 f => some (packFM 0x9E f)
  | .stlB8 f => some (packFM 0x9F f)
  | .stlB16 f => some (packFM 0xA0 f)
  | .stlB32 f => some (packFM 0xA1 f)
  | .stlB64 f => some (packFM 0xA2 f)
  | .stlB128 f => some (packFM 0xA3 f)
  | .ldt f => some (packFM 0xA4 f)
  | .wmap f => some (packFSub 0xA5 f)
  | .wunmap f => some (packFSub 0xA6 f)
  | .wsync f => some (packFSub 0xA7 f)
  | .winv f => some (packFSub 0xA8 f)
  | .wquery f => some (packFSub 0xA9 f)
  | .atomB32 f => some (packFAt 0xAA f)
  | .atomB64 f => some (packFAt 0xAB f)
  | .atomlB32 f => some (packFAt 0xAC f)
  | .atomlB64 f => some (packFAt 0xAD f)
  | .redB32 f => some (packFAt 0xAE f)
  | .redB64 f => some (packFAt 0xAF f)
  | .fence f => some (packFS 0xB0 f)
  | .pref f => some (packFM 0xB1 f)
  | .survey f => some (packFSub 0xB2 f)
  | .probe f => some (packFSub 0xB3 f)
  | .discard f => some (packFSub 0xB4 f)
  | .sealRange f => some (packFSub 0xB5 f)
  | .unsealRange f => some (packFSub 0xB6 f)
  | .stag f => some (packFM 0xB7 f)
  | .ltag f => some (packFM 0xB8 f)
  | .cctl f => some (packFM 0xB9 f)
  | .barinit f => some (packFBar 0xC0 f)
  | .bararv f => some (packFBar 0xC1 f)
  | .barwait f => some (packFBar 0xC2 f)
  | .barexp f => some (packFBar 0xC3 f)
  | .bartry f => some (packFBar 0xC4 f)
  | .cpyG2l f => some (packFCpy 0xC5 f)
  | .cpyL2g f => some (packFCpy 0xC6 f)
  | .cpyL2l f => some (packFCpy 0xC7 f)
  | .cpyg f => some (packFCpy 0xC8 f)
  | .cpys f => some (packFCpy 0xC9 f)
  | .tagwaitAny f => some (packFSub 0xCA f)
  | .tagwaitAll f => some (packFSub 0xCB f)
  | .tagfirst f => some (packFSub 0xCC f)
  | .tagclr f => some (packFSub 0xCD f)
  | .mmaF16 f => some (packFMma 0xD0 f)
  | .mmaBf16 f => some (packFMma 0xD1 f)
  | .mmaVt8 f => some (packFMma 0xD2 f)
  | .mmaS8 f => some (packFMma 0xD3 f)
  | .mmaN8 f => some (packFMma 0xD4 f)
  | .mmas f => some (packFMma 0xD5 f)
  | .mzero f => some (packFEng 0xD6 f)
  | .mldt f => some (packFTile 0xD7 f)
  | .mstt f => some (packFTile 0xD8 f)
  | .mdrain f => some (packFTile 0xD9 f)
  | .malloc f => some (packFEng 0xDA f)
  | .mfree f => some (packFEng 0xDB f)
  | .grbind f => some (packFEng 0xDC f)
  | .greval f => some (packFEng 0xDD f)
  | .grstat f => some (packFEng 0xDE f)
  | .nzscan f => some (packFEng 0xDF f)
  | .launch f => some (packFSub 0xF0 f)
  | .snap f => some (packFS 0xF1 f)
  | .edstat f => some (packFS 0xF2 f)
  | .sreadA f => some (packFSub 0xF3 f)
  | .sreadS f => some (packFS 0xF4 f)
  | .swriteA f => some (packFSub 0xF5 f)
  | .swriteS f => some (packFS 0xF6 f)
  | .clock f => some (packFS 0xF7 f)
  | .stamp f => some (packFS 0xF8 f)
  | .regq f => some (packFS 0xF9 f)
  | .signal f => some (packFS 0xFA f)
  | .halt f => some (packFS 0xFB f)
  | .reservedOpcodeIssue w => some w.toNat
  | .operandsConsumed _ _ => none
  | .operationComplete _ _ => none
  | .maskWaitRelease _ _ _ => none
  | .maskWaitLeave _ _ _ => none
  | .collectiveComplete _ _ _ => none
  | .collectiveDeliver _ _ _ => none
  | .groupTrapStop _ _ => none
  | .groupRestore _ _ => none
  | .naturalSwap _ _ _ => none
  | .forcedSwap _ => none
  | .scoreDecay _ => none
  | .regqGrant _ _ => none
  | .groupSlotRelease _ _ => none
  | .canalWatchStore _ => none
  | .kernelComplete _ => none
  | .homeFillRequest _ _ _ _ => none
  | .homeStoreRequest _ _ _ _ => none
  | .homeAtomicRequest _ _ _ => none
  | .heldStoresPerform _ => none
  | .lineWriteback _ => none
  | .pageRelease _ => none
  | .storeAckArrival _ _ _ => none
  | .leaseExpiry _ _ => none
  | .fenceStallEnd _ _ => none
  | .engineLockWaitEnd _ _ => none
  | .copyPageReach _ _ => none
  | .copyByteDelivery _ _ _ => none
  | .copyComplete _ _ => none
  | .migrationTick _ => none
  | .heatDecay _ => none
  | .migrationSwitch _ => none
  | .hostHalfRead _ _ => none
  | .hostWriteback _ _ _ => none
  | .homeApplyCut _ _ => none
  | .editionCutDone _ => none
  | .cowBackgroundFill _ => none
  | .drainPageWrite _ => none
  | .drainTargetAck _ => none
  | .chunkAckTimeout _ => none
  | .linkBulkTimeout _ => none
  | .linkInboundRequest _ _ _ _ => none
  | .pcieInboundDma _ _ _ => none
  | .coreIdleTimeout _ => none
  | .coreGateTimeout _ => none
  | .snapRequestAtReference _ _ => none
  | .remoteStoreAcknowledge _ => none
  | .hostOwnershipRequest _ => none
  | .hostOwnershipGrant _ _ => none
  | .linkAckArrival _ _ => none
  | .linkAbortTokenArrival _ _ => none
  | .hostDirectoryMerge _ => none
  | .keeperResume _ _ _ => none
  | .linkTrainingEnd _ _ _ => none
  | .linkLaneError _ => none
  | .linkFlitReceive _ _ => none
  | .mailboxWrite _ _ _ => none
  | .laneFailure _ _ => none
  | .timingReplay _ => none
  | .eccCorrected _ => none
  | .uncorrectableError _ => none
  | .scanComplete _ _ => none
  | .dieTemp105 _ => none
  | .dieCool95 _ => none
  | .coldReset _ => none
  | .keeperFailure _ _ => none
  | .functionReady _ => none
  | .clauseEntry => none
  | .distributorTurn => none
  | .heldEventPost => none
  | .scanTestTurn => none
  | .scanDrainTimeout => none
  | .scanUnitEmpty => none
  | .powerCapExceeded => none
  | .thermalStop => none
  | .deviceSignalAccepted => none
  | .ctxcreate => none
  | .ctxrun => none
  | .ctxsuspend => none
  | .ctxresume => none
  | .ctxmode => none
  | .ctxquery => none
  | .ctxdestroy => none
  | .cnlcreate => none
  | .cnlresume => none
  | .cnlquery => none
  | .cnldestroy => none
  | .pgdone => none
  | .rgnset => none
  | .rgnpool => none
  | .rgnplace => none
  | .rgnclear => none
  | .rgnquery => none
  | .vminv => none
  | .edconf => none
  | .edtarget => none
  | .edmap => none
  | .edunmap => none
  | .edretire => none
  | .edquery => none
  | .lnktrain => none
  | .lnkisolate => none
  | .lnkmap => none
  | .lnkunmap => none
  | .lnkabort => none
  | .lnkquery => none
  | .lnkexport => none
  | .hostevq => none
  | .corestat => none
  | .testconf => none
  | .dbgarea => none
  | .stopcore => none
  | .dbgresume => none
  | .watchset => none
  | .devstat => none
  | .pwrcap => none
  | .dieresume => none

/-- The word of an instruction. -/
def encode (i : Instr) : Option (BitVec 64) := (encodeNat i).map (BitVec.ofNat 64)

/-- The class of an instruction (R91); `NOP` belongs to every class, and events to none. -/
def Instr.cls : Instr → Option Cls
  | .nop => none
  | .bra _ => some .ctrl
  | .brc _ => some .ctrl
  | .brx _ => some .ctrl
  | .call _ => some .ctrl
  | .callx _ => some .ctrl
  | .ret _ => some .ctrl
  | .exit _ => some .ctrl
  | .yield _ => some .ctrl
  | .join _ => some .ctrl
  | .leave _ => some .ctrl
  | .waitm _ => some .ctrl
  | .mksetA _ => some .ctrl
  | .mksetW _ => some .ctrl
  | .mklop _ => some .ctrl
  | .mkcnt _ => some .ctrl
  | .mklane _ => some .ctrl
  | .trap _ => some .ctrl
  | .bpt _ => some .ctrl
  | .iaddA _ => some .alu
  | .iaddW _ => some .alu
  | .isubA _ => some .alu
  | .isubW _ => some .alu
  | .iaddc _ => some .alu
  | .imulA _ => some .alu
  | .imulW _ => some .alu
  | .imulh _ => some .alu
  | .imadA _ => some .alu
  | .imadW _ => some .alu
  | .imadw _ => some .alu
  | .idiv _ => some .sfu
  | .irem _ => some .sfu
  | .iminA _ => some .alu
  | .iminW _ => some .alu
  | .imaxA _ => some .alu
  | .imaxW _ => some .alu
  | .iabs _ => some .alu
  | .ineg _ => some .alu
  | .andA _ => some .alu
  | .andW _ => some .alu
  | .orA _ => some .alu
  | .orW _ => some .alu
  | .xorA _ => some .alu
  | .xorW _ => some .alu
  | .notA _ => some .alu
  | .lop3 _ => some .alu
  | .shl _ => some .alu
  | .shr _ => some .alu
  | .sar _ => some .alu
  | .rot _ => some .alu
  | .shf _ => some .alu
  | .popc _ => some .alu
  | .clz _ => some .alu
  | .ctz _ => some .alu
  | .brev _ => some .alu
  | .bfe _ => some .alu
  | .bfi _ => some .alu
  | .prmt _ => some .alu
  | .isetA _ => some .alu
  | .isetW _ => some .alu
  | .isel _ => some .alu
  | .mov _ => some .alu
  | .movi _ => some .alu
  | .movg _ => some .alu
  | .lea _ => some .alu
  | .iadd64 _ => some .alu
  | .idot4 _ => some .alu
  | .faddA _ => some .alu
  | .faddW _ => some .alu
  | .fsub _ => some .alu
  | .fmulA _ => some .alu
  | .fmulW _ => some .alu
  | .ffmaA _ => some .alu
  | .ffmaW _ => some .alu
  | .fminA _ => some .alu
  | .fminW _ => some .alu
  | .fmaxA _ => some .alu
  | .fmaxW _ => some .alu
  | .fsetA _ => some .alu
  | .fsetW _ => some .alu
  | .fclass _ => some .alu
  | .frcp _ => some .sfu
  | .frsq _ => some .sfu
  | .fsqrt _ => some .sfu
  | .fdiv _ => some .sfu
  | .fexp2 _ => some .sfu
  | .flog2 _ => some .sfu
  | .fsin _ => some .sfu
  | .fcos _ => some .sfu
  | .ftanh _ => some .sfu
  | .hadd2 _ => some .alu
  | .hmul2 _ => some .alu
  | .hfma2 _ => some .alu
  | .hmnmx2 _ => some .alu
  | .bfma2 _ => some .alu
  | .cvt _ => some .alu
  | .cvtq _ => some .alu
  | .cvtd _ => some .alu
  | .frnd _ => some .alu
  | .fscale _ => some .alu
  | .shfl _ => some .alu
  | .shflx _ => some .alu
  | .bcast _ => some .alu
  | .vote _ => some .alu
  | .redux _ => some .alu
  | .fredux _ => some .alu
  | .scan _ => some .alu
  | .laneMatch _ => some .alu
  | .ldB8 _ => some .mem
  | .ldB16 _ => some .mem
  | .ldB32 _ => some .mem
  | .ldB64 _ => some .mem
  | .ldB128 _ => some .mem
  | .stB8 _ => some .mem
  | .stB16 _ => some .mem
  | .stB32 _ => some .mem
  | .stB64 _ => some .mem
  | .stB128 _ => some .mem
  | .ldlB8 _ => some .mem
  | .ldlB16 _ => some .mem
  | .ldlB32 _ => some .mem
  | .ldlB64 _ => some .mem
  | .ldlB128 _ => some .mem
  | .stlB8 _ => some .mem
  | .stlB16 _ => some .mem
  | .stlB32 _ => some .mem
  | .stlB64 _ => some .mem
  | .stlB128 _ => some .mem
  | .ldt _ => some .mem
  | .wmap _ => some .mem
  | .wunmap _ => some .mem
  | .wsync _ => some .mem
  | .winv _ => some .mem
  | .wquery _ => some .mem
  | .atomB32 _ => some .mem
  | .atomB64 _ => some .mem
  | .atomlB32 _ => some .mem
  | .atomlB64 _ => some .mem
  | .redB32 _ => some .mem
  | .redB64 _ => some .mem
  | .fence _ => some .mem
  | .pref _ => some .mem
  | .survey _ => some .mem
  | .probe _ => some .mem
  | .discard _ => some .mem
  | .sealRange _ => some .mem
  | .unsealRange _ => some .mem
  | .stag _ => some .mem
  | .ltag _ => some .mem
  | .cctl _ => some .mem
  | .barinit _ => some .mem
  | .bararv _ => some .mem
  | .barwait _ => some .mem
  | .barexp _ => some .mem
  | .bartry _ => some .mem
  | .cpyG2l _ => some .copy
  | .cpyL2g _ => some .copy
  | .cpyL2l _ => some .copy
  | .cpyg _ => some .copy
  | .cpys _ => some .copy
  | .tagwaitAny _ => some .copy
  | .tagwaitAll _ => some .copy
  | .tagfirst _ => some .copy
  | .tagclr _ => some .copy
  | .mmaF16 _ => some .matrix
  | .mmaBf16 _ => some .matrix
  | .mmaVt8 _ => some .matrix
  | .mmaS8 _ => some .matrix
  | .mmaN8 _ => some .matrix
  | .mmas _ => some .matrix
  | .mzero _ => some .matrix
  | .mldt _ => some .matrix
  | .mstt _ => some .matrix
  | .mdrain _ => some .matrix
  | .malloc _ => some .matrix
  | .mfree _ => some .matrix
  | .grbind _ => some .matrix
  | .greval _ => some .matrix
  | .grstat _ => some .matrix
  | .nzscan _ => some .matrix
  | .launch _ => some .sys
  | .snap _ => some .sys
  | .edstat _ => some .sys
  | .sreadA _ => some .sys
  | .sreadS _ => some .sys
  | .swriteA _ => some .sys
  | .swriteS _ => some .sys
  | .clock _ => some .sys
  | .stamp _ => some .sys
  | .regq _ => some .sys
  | .signal _ => some .sys
  | .halt _ => some .sys
  | .reservedOpcodeIssue _ => none
  | .operandsConsumed _ _ => none
  | .operationComplete _ _ => none
  | .maskWaitRelease _ _ _ => none
  | .maskWaitLeave _ _ _ => none
  | .collectiveComplete _ _ _ => none
  | .collectiveDeliver _ _ _ => none
  | .groupTrapStop _ _ => none
  | .groupRestore _ _ => none
  | .naturalSwap _ _ _ => none
  | .forcedSwap _ => none
  | .scoreDecay _ => none
  | .regqGrant _ _ => none
  | .groupSlotRelease _ _ => none
  | .canalWatchStore _ => none
  | .kernelComplete _ => none
  | .homeFillRequest _ _ _ _ => none
  | .homeStoreRequest _ _ _ _ => none
  | .homeAtomicRequest _ _ _ => none
  | .heldStoresPerform _ => none
  | .lineWriteback _ => none
  | .pageRelease _ => none
  | .storeAckArrival _ _ _ => none
  | .leaseExpiry _ _ => none
  | .fenceStallEnd _ _ => none
  | .engineLockWaitEnd _ _ => none
  | .copyPageReach _ _ => none
  | .copyByteDelivery _ _ _ => none
  | .copyComplete _ _ => none
  | .migrationTick _ => none
  | .heatDecay _ => none
  | .migrationSwitch _ => none
  | .hostHalfRead _ _ => none
  | .hostWriteback _ _ _ => none
  | .homeApplyCut _ _ => none
  | .editionCutDone _ => none
  | .cowBackgroundFill _ => none
  | .drainPageWrite _ => none
  | .drainTargetAck _ => none
  | .chunkAckTimeout _ => none
  | .linkBulkTimeout _ => none
  | .linkInboundRequest _ _ _ _ => none
  | .pcieInboundDma _ _ _ => none
  | .coreIdleTimeout _ => none
  | .coreGateTimeout _ => none
  | .snapRequestAtReference _ _ => none
  | .remoteStoreAcknowledge _ => none
  | .hostOwnershipRequest _ => none
  | .hostOwnershipGrant _ _ => none
  | .linkAckArrival _ _ => none
  | .linkAbortTokenArrival _ _ => none
  | .hostDirectoryMerge _ => none
  | .keeperResume _ _ _ => none
  | .linkTrainingEnd _ _ _ => none
  | .linkLaneError _ => none
  | .linkFlitReceive _ _ => none
  | .mailboxWrite _ _ _ => none
  | .laneFailure _ _ => none
  | .timingReplay _ => none
  | .eccCorrected _ => none
  | .uncorrectableError _ => none
  | .scanComplete _ _ => none
  | .dieTemp105 _ => none
  | .dieCool95 _ => none
  | .coldReset _ => none
  | .keeperFailure _ _ => none
  | .functionReady _ => none
  | .clauseEntry => none
  | .distributorTurn => none
  | .heldEventPost => none
  | .scanTestTurn => none
  | .scanDrainTimeout => none
  | .scanUnitEmpty => none
  | .powerCapExceeded => none
  | .thermalStop => none
  | .deviceSignalAccepted => none
  | .ctxcreate => none
  | .ctxrun => none
  | .ctxsuspend => none
  | .ctxresume => none
  | .ctxmode => none
  | .ctxquery => none
  | .ctxdestroy => none
  | .cnlcreate => none
  | .cnlresume => none
  | .cnlquery => none
  | .cnldestroy => none
  | .pgdone => none
  | .rgnset => none
  | .rgnpool => none
  | .rgnplace => none
  | .rgnclear => none
  | .rgnquery => none
  | .vminv => none
  | .edconf => none
  | .edtarget => none
  | .edmap => none
  | .edunmap => none
  | .edretire => none
  | .edquery => none
  | .lnktrain => none
  | .lnkisolate => none
  | .lnkmap => none
  | .lnkunmap => none
  | .lnkabort => none
  | .lnkquery => none
  | .lnkexport => none
  | .hostevq => none
  | .corestat => none
  | .testconf => none
  | .dbgarea => none
  | .stopcore => none
  | .dbgresume => none
  | .watchset => none
  | .devstat => none
  | .pwrcap => none
  | .dieresume => none

/-- The eight control transfers, which stand only in the last slot of a clause (R75). -/
def Instr.isTransfer : Instr → Bool
  | .bra _ | .brc _ | .brx _ | .call _ | .callx _ | .ret _ | .exit _ | .waitm _ => true
  | _ => false

/-- CLASS of a clause header (R67). -/
def Cls.code : Cls → Nat
  | .alu => 0 | .sfu => 1 | .mem => 2 | .matrix => 3 | .copy => 4 | .ctrl => 5 | .sys => 6

/-- A clause header of a class with the count of its words, no waits and no flags (R66). -/
def headerWord (c : Cls) (count : Nat) : BitVec 64 :=
  BitVec.ofNat 64 (0xFE * 2 ^ 56 + c.code * 2 ^ 53 + count * 2 ^ 49 + 0xFF * 2 ^ 40)

end Sys2Proof
end

