-- ==== Sys2Proof/Machine/Maps.lean ====
section
/-! DEFINITION. The sparse tables: reading, writing and removing an entry, keys kept rising. -/

namespace Sys2Proof.Machine

/-- The entry of key k. -/
def get? {α : Type} : SMap α → Nat → Option α
  | [], _ => none
  | (j, x) :: t, k => if j = k then some x else get? t k

/-- Write the entry of key k. -/
def put {α : Type} : SMap α → Nat → α → SMap α
  | [], k, v => [(k, v)]
  | (j, x) :: t, k, v =>
    if j = k then (k, v) :: t
    else if k < j then (k, v) :: (j, x) :: t
    else (j, x) :: put t k v

/-- Remove the entry of key k. -/
def del {α : Type} (m : SMap α) (k : Nat) : SMap α := m.filter fun p => p.1 != k

/-- Write or remove. -/
def putOpt {α : Type} (m : SMap α) (k : Nat) : Option α → SMap α
  | some v => put m k v
  | none => del m k

/-- An entry placed before the first that does not come before it. -/
def insertBy {α : Type} (before : α → α → Bool) (a : α) : List α → List α
  | [] => [a]
  | b :: t => if before a b then a :: b :: t else b :: insertBy before a t

/-- A list in order; entries of equal rank keep theirs. -/
def sortBy {α : Type} (before : α → α → Bool) (l : List α) : List α := l.foldr (insertBy before) []

/-- Keys strictly rising. -/
def Rising {α : Type} (m : SMap α) : Prop := m.Pairwise fun p q => p.1 < q.1

/-- The lowest number below n that is no key of the table. -/
def freeKey {α : Type} (m : SMap α) (n : Nat) : Option Nat := (List.range n).find? fun k => (get? m k).isNone

end Sys2Proof.Machine
end

