-- ==== Sys2Proof/Config.lean ====
section
/-! DEFINITION. What the manual leaves free: constants without a body, so that no proof can see a value
(assumption log 2, 3, 8, 9, 11).  Every function is applied to the step counter `State.n`, which each step advances. -/

namespace Sys2Proof.Config

/-- R1: whether this device is the module (with a far tier) or the package.  FREE. -/
opaque isModule : Bool

/-- Which of the enabled transitions the step takes (R37, R116, R153, R204).  FREE (log 2). -/
opaque pick : Nat → Nat

/-- Which part of an event is carried out, where it has several: the piece of a local access, the port of a request (R204, R211, R382).
FREE (log 2). -/
opaque part : Nat → Nat

/-- Time, in thirteenths of a nanosecond, that passes before step n (R13, R14).  FREE (log 3). -/
opaque elapsed : Nat → Nat

/-- Which line of a full L1 set, L2 slice or instruction cache leaves for another (R9, R12 name no policy).  FREE (log 9). -/
opaque victim : Nat → Nat → Nat

/-- Whether a weak load is elided: served by an earlier access of its thread to the same bytes (R204).  FREE (log 24). -/
opaque elide : Nat → Nat → Bool

/-- Whether an access uses a cached translation or walks again (R177).  FREE (log 9). -/
opaque useTlb : Nat → Nat → Bool

/-- Whether a clause entry is served by a fetch line the instruction cache holds (R64, R340).  FREE (log 9). -/
opaque useICache : Nat → Nat → Bool

/-- Whether a load that may be served by a live L1 copy is, or goes to the home (R217).  FREE (log 9). -/
opaque useL1 : Nat → Nat → Bool

/-- Byte i of a read of a PCI Express window or another device register of host-die space (R392).  FREE (log 8). -/
opaque hostDieByte : Nat → Nat → Byte

/-- Byte i of what a load receives whose request the peer dropped as older (R387 states no value).  FREE (log 15). -/
opaque droppedByte : Nat → Nat → Byte

/-- Byte of a Partial window word that no store and no fetch gave, once its window is unmapped (R344).  FREE (log 15). -/
opaque partialByte : Nat → Nat → Byte

/-- Whether the tile fetch unit skips an eligible row (true: of A) or column (R201).  FREE (log 2). -/
opaque skip : Nat → Bool → Nat → Bool

/-- Nanoseconds, beyond the 500 that R255 requires, from a SNAP's request to the T that the reference chooses.  FREE (log 2). -/
opaque snapDelay : Nat → Nat

end Sys2Proof.Config
end

