-- ==== Sys2Proof/Machine/State.lean ====
section
/-! DEFINITION. The state of a V60: every piece of state that the manual names, as plain data, and the state after
cold reset.  Fields marked (model) are the model's own (assumption log 1, 2, 4).  A table that lists no entry for a key
holds there the value that the accessor of `Machine/Ops.lean` gives. -/

namespace Sys2Proof.Machine

/-! ### Threads and groups (R27–R51, R148–R164) -/

/-- The state of a thread (R30).  Held is the flag `Thread.held`, which keeps the state before the trap. -/
inductive TState
  | ready
  /-- Mask-wait on `k`; `released`: the mark of the evaluation that has released it, 0 for none (R41). -/
  | maskWait (k released : Nat)
  /-- Barrier-wait on object `obj` of team `team` of core `core`, awaiting `parity` (R169). -/
  | barrierWait (core team obj : Nat) (parity : Bool)
  /-- Collective-wait; `k` is the membership mask register that the collective names (R160). -/
  | collWait (k : Nat)
  | exited
  deriving DecidableEq, Repr

/-- A thread (R30, R32, R64). -/
structure Thread where
  /-- The code pointer (R64). -/
  pc : Word64
  /-- The path counter (R32). -/
  path : BitVec 16
  st : TState
  /-- Held for a trap (R51). -/
  held : Bool
  /-- The clause entry that the thread is executing, 0 outside a clause (R68, R69, R76). -/
  entry : Nat
  /-- (model) The operation behind which the thread's gang issues nothing more: `FENCE`, `TAGWAIT`, `REGQ`. -/
  stall : Option Nat
  /-- The thread resumes inside its clause: the clause is fetched again and its WAIT evaluated before its next slot (R68, R76). -/
  refetch : Bool
  /-- The gang's next instruction has found that it must wait at issue, and counts as Waiting (R150, R170, R231, R244, R348, R350). -/
  blocked : Bool
  /-- Issues of the group on the slice at the moment since which the fragment has been ready (R34). -/
  since : Nat
  deriving DecidableEq, Repr

/-- A clause being executed by a gang: its captured words and the counts of R69 (R65, R69). -/
structure Entry where
  id : Nat
  /-- Address of the header. -/
  hdr : Word64
  /-- The header and the instruction words as fetched at entry (R65). -/
  words : List Word64
  seta : Nat
  setb : Nat
  /-- Operations of the clause not yet past their operands-consumed point, and not yet complete. -/
  unconsumed : Nat
  unfinished : Nat
  /-- Whether the gang still executes the clause; whether its SETA and SETB counts still stand. -/
  opened : Bool
  setaOn : Bool
  setbOn : Bool
  /-- SETA is counted and SETB is not: the gang stalls until its flag has room (R69). -/
  setbDue : Bool
  /-- The clause carries YIELD (R71, R281). -/
  yields : Bool
  deriving DecidableEq, Repr

/-- What a trap leaves (R51, R159): code, faulting address, trapping code pointer, and the words of its trap record, of which
the group record shows the first five. -/
structure TrapRec where
  code : Nat
  addr : Word64
  pc : Word64
  words : List Word64
  deriving DecidableEq, Repr

/-- Why a stopped group is in a keeper's hands, and what ends the stop (R163, R431). -/
inductive Hold
  | none
  /-- A trap raised and not yet taken to the keeper (R51). -/
  | trapped
  /-- Forwarded to the host, ended by `DBGRESUME` (R431); the code; `answered`: the command came without its fault flag, and the
  keeper resumes the group. -/
  | forwarded (code : Nat) (answered : Bool)
  /-- Swapped out for a translation fault; `cleared`: `PGDONE` came (R162). -/
  | pageFault (cleared : Bool)
  /-- Swapped out at a breakpoint or watchpoint (R413); `resumed`: `DBGRESUME` came. -/
  | debug (resumed : Bool)
  deriving DecidableEq, Repr

/-- Why a group is stopped besides a trap of its own. -/
inductive Halt
  | none
  /-- For the suspension of its context, or for its fault; `saved`: its record is written (R124). -/
  | suspended (saved : Bool)
  /-- By a precise stop of its core (R415); `resumed`: `DBGRESUME` came. -/
  | stopped (resumed : Bool)
  deriving DecidableEq, Repr

/-- Group states of R148.  Waiting is not stored: it is Active with every gang blocked (`Machine.waiting`, R150). -/
inductive GState
  | active | pending | swappedOut | preempted | exited
  deriving DecidableEq, Repr

/-- An arrived member of a lane collective (R43, R323). -/
structure Arrival where
  lane : Nat
  /-- The instruction: collectives agree when their opcode and modifiers do (R43). -/
  instr : Instr
  /-- Address of the collective's word, as a code pointer. -/
  pc : Word64
  supplied : Mask
  a : Word64
  b : Word64
  /-- The arrivals of one completed collective carry the same nonzero mark until delivery (R43). -/
  mark : Nat
  /-- The participant set and the result, fixed at completion (R43). -/
  result : Word64
  deriving DecidableEq, Repr

/-- A global store of a thread, from issue until its acknowledgement (R206). -/
structure StoreReq where
  id : Nat
  op : Nat
  lane : Nat
  va : Word64
  dpa : Nat
  width : Nat
  data : BitVec 128
  /-- Bytes not yet performed at the home. -/
  todo : BitVec 16
  cls : MemClass
  scope : Scope
  /-- `STAG`: the tag to set; no byte is changed (R345). -/
  tag : Option (BitVec 4)
  /-- Latest GWCT of its performs (R218). -/
  gwct : Nat
  /-- For each byte, 1 + the step in which it was performed, 0 where it wrote nothing: not performed, elided or dropped (R193, R204). -/
  stamps : List Nat
  /-- A barrier instruction of its thread has come after it: a later store no longer elides it (R204). -/
  firm : Bool
  /-- While its team holds it uncommitted: the slot of the group that issued it (R146, R416). -/
  slot : Nat := 0
  deriving DecidableEq, Repr

/-- A group in its slot (R148, R159). -/
structure Group where
  ctx : Nat
  team : Nat
  idx : Nat
  gst : GState
  quota : Nat
  threads : List Thread
  v : SMap Row
  q : SMap Row
  l : SMap Row
  g : SMap Word64
  k : SMap Mask
  /-- Counts of the completion flags `w0`–`w11` (R68). -/
  flags : SMap Nat
  entries : List Entry
  /-- Issues of the group on each slice (R34). -/
  issues : SMap Nat
  /-- Latest GWCT received, as counted on this core's die (R220, R225). -/
  gwct : Nat
  stores : List StoreReq
  /-- Acknowledged stores, while their GWCT (here as counted on the core's die) has not passed (R416). -/
  acked : List StoreReq
  arrivals : List Arrival
  /-- What each thread's last access to a byte read or wrote, since it last synchronised: lane, DPA and byte (R204). -/
  recent : List (Nat × Nat × Byte)
  trap : TrapRec
  /-- Traps that came while one stood; each is raised when the one before it has ended. -/
  due : List TrapRec
  hold : Hold
  halt : Halt
  /-- What a keeper has written into the group's view, in order: offset and doubleword (R164). -/
  view : List (Nat × Word64)
  /-- Its main-register words are lent to the core while it is saved (R156). -/
  lent : Bool
  /-- Address and length of its record in the save area, and the flag counts as the record holds them (R124, R160, R161). -/
  savedAt : Option (Nat × Nat × Nat)
  promoted : Nat
  /-- While Pending: since when some gang of it can issue (R151). -/
  readySince : Option Nat
  /-- Its last clause carried YIELD (R71, R152). -/
  yielded : Bool
  /-- The shared registers and flag counts as they stood at the start of the clock (R70, R81, R272). -/
  seenG : SMap Word64
  seenK : SMap Mask
  seenFlags : SMap Nat
  /-- Lanes that have issued in this clock, and lanes that became Ready in it. -/
  acted : Mask
  woken : Mask
  /-- Lanes whose watched access may issue once (R414). -/
  stepping : Mask
  deriving DecidableEq, Repr

/-! ### Teams (R145, R165–R173, R214, R224, R251, R343–R346) -/

/-- A barrier object (R165). -/
structure Barrier where
  bytes : Int
  pend : Nat
  count : Nat
  posted : Bool
  bm : Bool
  cl : Bool
  phase : Bool
  init : Bool
  arrived : BitVec 192
  early : BitVec 192
  deriving DecidableEq, Repr

/-- A window (R214, R343): words listed are those not Invalid, as (valid, dirty-byte mask). -/
structure Window where
  base : Nat
  loc : Nat
  len : Nat
  words : SMap (Bool × BitVec 4)
  /-- Bytes stored in the clock `freshClock`, by word: a `WSYNC` of that clock leaves them (R344). -/
  freshClock : Nat
  fresh : SMap (BitVec 4)
  /-- Lease expiry of each line. -/
  leases : SMap Nat
  /-- Unmapped, its number not yet free (R344). -/
  closing : Bool
  /-- DPA of each 4 KiB page of the range, as translated at `WMAP` (R344). -/
  pages : List Nat
  deriving DecidableEq, Repr

/-- A sealed range (R224, R346). -/
structure Sealed where
  loc : Nat
  len : Nat
  count : Nat
  closing : Bool
  deriving DecidableEq, Repr

/-- An accumulator tile (R18, R377, R418): 64 × 64 words in row order, a missing word being 0; the stamp identity, and the times
of its cycle.  `waited` stands above 2^32 until the cycle's first operands-consumed point. -/
structure Tile where
  words : List Word32
  ident : Nat
  cycle : Bool
  start : Nat
  waited : Nat
  comp : Nat
  deriving DecidableEq, Repr

/-- The status of R251. -/
structure EvalStatus where
  prog : Nat
  fcode : Nat
  cause : Nat
  mode : Nat
  faulted : Bool
  deriving DecidableEq, Repr

/-- A resident team. -/
structure Team where
  ctx : Nat
  kernel : Nat
  pos : Word64
  ngroups : Nat
  clx : Nat
  cly : Nat
  clw : Nat
  clh : Nat
  /-- Core of the cluster team (0, 0). -/
  anchor : Nat
  regs : Nat
  /-- The argument words and the entry, for a relaunch (R146). -/
  entry : Word64
  args : List Word64
  ready : Word64
  /-- The bits of `READY` that completions have set in this clock (R350). -/
  justSet : Word64
  stampBase : Word64
  stampCtl : Word64
  localBytes : Nat
  mem : SMap Byte
  /-- Poisoned 32-byte granules of local memory (R410). -/
  poison : List Nat
  /-- Tile names allocated for the purposes of R354, and tiles mapped (R363). -/
  names : BitVec 32
  tiles : SMap Tile
  nbar : Nat
  bars : SMap Barrier
  windows : SMap Window
  seals : SMap Sealed
  /-- Quota pool words not held by a group, and the queue of requests (slot, n, operation) (R156, R157). -/
  free : Nat
  queue : List (Nat × Nat × Nat)
  status : EvalStatus
  idem : Bool
  uncommitted : List StoreReq
  relaunches : Nat
  /-- Its local memory, tiles and barrier objects are released while it is saved (R413). -/
  released : Bool
  /-- Address and length of its record in the save area (R124, R413). -/
  savedAt : Option (Nat × Nat)
  deriving DecidableEq, Repr

/-! ### Operations in flight (R69, R153, R231, R334) -/

/-- A register that a thread writes: a row of the main file, of `q` or of `l`. -/
inductive RReg
  | v (n : Nat) | q (n : Nat) | l (n : Nat)
  deriving DecidableEq, Repr

/-- A pending write (R153): word `word` of the operation's result into `reg` for the lanes not yet cancelled. -/
structure PWrite where
  reg : RReg
  lanes : Mask
  word : Nat
  deriving DecidableEq, Repr

/-- One lane's part of a load at a home: bytes still to read, the bytes read, and whether it marks its L1 line evict-first (R336). -/
structure Acc where
  lane : Nat
  va : Word64
  dpa : Nat
  width : Nat
  todo : BitVec 16
  data : BitVec 128
  ev : Bool
  deriving DecidableEq, Repr

/-- What a local access does at its bank (R211, R337, R341). -/
inductive BankAct
  | load (sx : Bool)
  | store
  | atom (op : AtomOp) (kind : AtomKind) (wide : Bool)
  deriving DecidableEq, Repr

/-- One lane's part of a local access: its place, the bytes still to perform, and the bytes that it stores or has read; of an
atomic, its operands b and c. -/
structure BankAcc where
  lane : Nat
  core : Nat
  team : Nat
  off : Nat
  width : Nat
  todo : BitVec 16
  data : BitVec 128
  deriving DecidableEq, Repr

/-- One request of the atomics aggregator (R222): an address and each lane's operands. -/
structure AtomReq where
  dpa : Nat
  va : Word64
  done : Bool
  lanes : List (Nat × Word64 × Word64)
  deriving DecidableEq, Repr

/-- Where one stretch of a copy reads or writes. -/
inductive End
  | glob (va : Word64)
  /-- Local memory of team `team` of core `core`. -/
  | loc (core team off : Nat)
  deriving DecidableEq, Repr

/-- A row of a copy: source, destination, length. -/
structure CopyRow where
  src : End
  dst : End
  len : Nat
  deriving DecidableEq, Repr

/-- A gather or scatter whose index array is still to be read (R349): the array, its rows, and the global and local bases. -/
structure Gather where
  idx : Nat × Nat × Nat
  n : Nat
  len : Nat
  stride : Nat
  base : Word64
  loc : Nat × Nat × Nat
  scatter : Bool
  deriving DecidableEq, Repr

/-- A copy in flight (R348, R349): rows, the row and byte at which it stands, and its barrier. -/
structure Copy where
  gather : Option Gather
  rows : List CopyRow
  row : Nat
  off : Nat
  /-- (core, team, object) of the destination's barrier. -/
  bar : Option (Nat × Nat × Nat)
  /-- DPAs of the source and destination pages reached, or none before they are reached. -/
  srcPage : Option Nat
  dstPage : Option Nat
  /-- Stopped by a trap at the progress pointer (R348, R388). -/
  stopped : Bool
  /-- The destination line whose write has last counted in DROPS (R193). -/
  dropped : Option Nat
  /-- The sealed ranges that its source meets: (core, team, handle) (R224). -/
  sealedSrc : List (Nat × Nat × Nat)
  deriving DecidableEq, Repr

/-- An operand of the matrix engine: rows of 64 bytes (R355). -/
structure MatSrc where
  glob : Bool
  base : Word64
  core : Nat
  team : Nat
  stride : Nat
  rows : Nat
  deriving DecidableEq, Repr

/-- What an operation in flight does at its points. -/
inductive OpKind
  /-- Its effect is already had; it only completes (SFU results, system reads). -/
  | simple
  /-- A local access, issued in clock `clk` and performed at its banks (R211). -/
  | bank (act : BankAct) (cls : MemClass) (clk : Nat) (accs : List BankAcc)
  | load (cls : MemClass) (scope : Scope) (sx : Bool) (transpose : Bool) (accs : List Acc)
  | store
  | atom (op : AtomOp) (kind : AtomKind) (wide : Bool) (scope : Scope) (reqs : List AtomReq)
  | fence (scope : Scope) (target : Nat)
  | writeBack (window : Nat) (unmap : Bool)
  | sealRange (handle : Nat)
  | unsealRange (handle : Nat)
  | survey (map sync : Bool) (spans : List (Nat × Word64 × Nat))
  | probe (addrs : List (Nat × Word64))
  | discard (pages : List Nat)
  | copy (c : Copy)
  | mma (ty : Ty) (td ts : Nat) (a b : MatSrc) (kv nc mr : Nat) (strict : Bool) (had : Had)
      (scaleA scaleB : List Word32)
  | mzero (td : Nat)
  | mldt (ty : Ty) (td : Nat) (src : MatSrc)
  | mstt (ty : Ty) (ts : Nat) (dst : MatSrc)
  | mdrain (ty : Ty) (ts : Nat) (dst : MatSrc) (res : Option MatSrc) (scale seed thresh row0 col0 : Word32)
      (nr nc : Nat) (z : Bool)
  | malloc (names : BitVec 32) (count : Nat)
  | mfree (names : BitVec 32)
  | grbind (record : Nat)
  | greval (rows skip spill : Bool) (lo n : Nat)
  | grstat
  | nzscan (src dst n : Nat)
  | ivau (lines : List Nat)
  | tagwait (all : Bool) (m : Word64)
  | regq (n : Nat)
  | barwait
  /-- A barrier instruction, or a copy, held at a peer's object until its `BARINIT` (R170, R171). -/
  | barheld (i : Instr) (core team obj : Nat)
  | launch (todo : List (Nat × Word64 × Word64)) (stage : Nat) (target : Nat)
  | snap (stage : Nat) (t : Nat) (target : Nat)
  | edstat (asked : List (Nat × Word32))
  | signal (n : Nat) (value : Word64) (target : Nat)
  deriving DecidableEq, Repr

/-- A long-latency operation in flight (R69). -/
structure Op where
  id : Nat
  slot : Nat
  team : Nat
  ctx : Nat
  /-- The clause entries whose Ops set it joins: those of its gang's threads (R69). -/
  entries : List Nat
  pc : Word64
  lanes : Mask
  /-- The fence, barrier or group-wide operations issued before it that it must follow are those of lower `id`. -/
  consumed : Bool
  kind : OpKind
  writes : List PWrite
  /-- Pending write of a `g` register, and whether it is sign-extended from 32 bits. -/
  gdst : Option (Nat × Bool)
  /-- Words of the result (1, 2 or 4) and each lane's result. -/
  words : Nat
  res : List (BitVec 128)
  tag : Option Nat
  /-- Latest GWCT of the operation's own writes, as counted on the core's die (R235). -/
  gwct : Nat
  /-- Poison met: (source, address) (R411). -/
  poison : Option (Nat × Word64)
  /-- An engine operation past its lock wait (R233), the lines that its tile fetch pins (R234), and what it has read. -/
  started : Bool
  pins : List Nat
  /-- Lines that it has written while another operation's fetch pinned them: their acknowledgement waits (R234). -/
  onPins : List Nat
  held : List Word32
  /-- Pieces of its result already written at their homes. -/
  done : Nat
  deriving DecidableEq, Repr

/-- An entry of the range-lock table (R231): `space` none is global memory of the context, else (core, team). -/
structure Lock where
  op : Nat
  slot : Nat
  space : Option (Nat × Nat)
  ctx : Nat
  lo : Nat
  hi : Nat
  write : Bool
  deriving DecidableEq, Repr

/-! ### Cores -/

/-- An L1 line (R217): bytes, tags, usable limit, set position of the group that filled it. -/
structure L1Line where
  bytes : List Byte
  tags : List (BitVec 4)
  limit : Nat
  filler : Nat
  evictFirst : Bool
  /-- For each of its 128 bytes and then its 4 tags, 1 + the step whose value at the home it holds (R207, R210). -/
  stamps : List Nat
  deriving DecidableEq, Repr

/-- A cached translation: context, virtual page, DPA page, leaf permissions R W X (R177). -/
structure TlbEntry where
  ctx : Nat
  vpage : Nat
  dpage : Nat
  r : Bool
  w : Bool
  x : Bool
  deriving DecidableEq, Repr

/-- Power states (R422). -/
inductive Power
  | on | idle | gated
  deriving DecidableEq, Repr

/-- The binding of the grammar evaluator (R242–R244). -/
structure Binding where
  team : Nat
  ctx : Nat
  record : Nat
  desc : Word64
  rules : Word64
  rows : Word64
  syms : Word64
  nrules : Nat
  nrows : Nat
  etype : Ty
  ncols : Nat
  nsyms : Nat
  x : Nat
  xstride : Nat
  y : Nat
  ystride : Nat
  e : Nat
  spill : Option Nat
  tau : Word32
  base : Nat
  v : Nat
  deriving DecidableEq, Repr

/-- An entry of the rule file (R243). -/
structure RuleEntry where
  value : Word32
  valid : Bool
  depth : Nat
  mass : Word32
  deriving DecidableEq, Repr

/-- A precise stop: the context, the code and n of its reason, the group and code pointer of the `HALT` that made it, the freezing
time, and whether the dump is written (R415, R416). -/
structure Frozen where
  ctx : Nat
  halter : Option (Nat × Word64)
  code : Nat
  n : Nat
  time : Nat
  dumped : Bool
  deriving DecidableEq, Repr

/-- The issue slots of a clock (R152): the rotation of the groups still to be visited, the group being visited, the classes
issued so far, and the first group that issued. -/
structure Turn where
  order : Option (List Nat)
  /-- The least lowest lane that a gang of the group being visited may still have. -/
  low : Nat
  used : List Nat
  first : Option Nat
  deriving DecidableEq, Repr

/-- A core (R12). -/
structure Core where
  groups : SMap Group
  teams : SMap Team
  ops : List Op
  locks : List Lock
  l1 : SMap L1Line
  icache : SMap (List Word64)
  tlb : List TlbEntry
  /-- Victim tags: (line, active-set position) (R154). -/
  victims : List (Nat × Nat)
  score : Nat
  rule : SMap RuleEntry
  binding : Option Binding
  /-- `LANEMAP` (R405). -/
  lanemap : Word64
  inService : Bool
  replays : Nat
  corrected : Nat
  uncorrected : Nat
  power : Power
  /-- Tick of the last change of power state, and ticks spent gated (R374, R422). -/
  powerSince : Nat
  gatedTicks : Nat
  /-- The group that issued first in the last clock in which the core issued, and the issue slots of this clock (R152). -/
  lastSlot : Nat
  turn : Turn
  /-- The tick of the last forced swap (R151). -/
  lastForced : Nat
  stop : Option Frozen
  deriving DecidableEq, Repr

/-! ### Memory system (R174–R201, R217, R226–R228) -/

/-- The host's state of a 64-byte half of a line (R226). -/
inductive HostSt
  | invalid | shared
  /-- Owned, with the bytes that the host has written and not written back. -/
  | owned (dirty : List (Nat × Byte))
  deriving DecidableEq, Repr

/-- What a home keeps for a line. -/
structure LineSt where
  /-- Latest lease expiry granted (R217). -/
  lease : Nat
  /-- It stands in its home's L2 slice (R9). -/
  present : Bool
  dirty : Bool
  lo : HostSt
  hi : HostSt
  /-- Ownership requests in flight (R226). -/
  reqLo : Bool
  reqHi : Bool
  deriving DecidableEq, Repr

/-- A page at its home (R190, R194). -/
structure PageSt where
  backed : Bool
  far : Bool
  /-- Held under FAULT (R192). -/
  held : Bool
  migrating : Bool
  /-- Migrating by exchange with this page (R185). -/
  swap : Option Nat
  /-- Its lines that hold a non-datum value, as last recounted (R190): NDL is their number. -/
  nonDatum : BitVec 32
  heat : Nat
  cseq : Nat
  /-- Lines of the live frame that the background copy has still to fill (R259). -/
  filling : Bool
  deriving DecidableEq, Repr

/-- A region-table entry in force (R181). -/
structure Region where
  ctx : Nat
  idx : Nat
  place : Nat
  tag : Bool
  ed : Bool
  dat : Bool
  dsize : Nat
  full : Bool
  base : Nat
  datum : Word64
  frames : Nat
  sticky : Bool
  held : Bool
  drops : Nat
  /-- Frames set aside and not yet reserved, and how many of them are far frames (R181, R185). -/
  pool : Nat
  poolFar : Nat
  /-- How many of the first pages of a region that is no aperture were given near frames at its creation, the rest far ones (R185). -/
  nearPages : Nat
  /-- It was auto when `RGNPLACE` gave it its PLACE (R185). -/
  wasAuto : Bool
  /-- The sealed edition and source region of a view (R265). -/
  view : Option (Nat × Nat)
  /-- Live edition when it was created (R259). -/
  born : Nat
  deriving DecidableEq, Repr

/-- Frames free on a die, and its edition reserves: set size and frames free in each (R182, R261). -/
structure DieMem where
  near : Nat
  far : Nat
  resNear : Nat
  resFar : Nat
  freeNear : Nat
  freeFar : Nat
  deriving DecidableEq, Repr

/-! ### Contexts, canals, kernels (R117–R147) -/

inductive CtxState
  | free | ready | running | suspended | faulted
  deriving DecidableEq, Repr

/-- A watchpoint (R414). -/
structure Watch where
  base : Word64
  size : Nat
  read : Bool
  write : Bool
  deriving DecidableEq, Repr

/-- A context record (R117). -/
structure Ctx where
  state : CtxState
  root : Nat
  table : Nat
  key : List Word64
  regw : Nat
  localU : Nat
  tilesMax : Nat
  check : Bool
  lease : Nat
  saveBase : Nat
  saveSize : Nat
  hostHold : Bool
  poolHold : Bool
  grant : Bool
  dumpBase : Nat
  dumpSize : Nat
  watches : SMap Watch
  fault : List Word64
  discards : Nat
  deriving DecidableEq, Repr

/-- States of a canal (R127). -/
inductive CanalSt
  | empty | linking | waiting | eligible | dispatching | held | faulted
  deriving DecidableEq, Repr

/-- A bound canal (R127). -/
structure Canal where
  ctx : Nat
  record : Word64
  cursor : Word64
  taken : Nat
  st : CanalSt
  fcode : Nat
  hprio : Nat
  /-- The head's kernel, once taken and until its last team is handed out. -/
  head : Option Nat
  deriving DecidableEq, Repr

/-- States of a kernel (R141). -/
inductive KernelSt
  | enqueued | waiting | dispatching | running | draining | complete | faulted | aborted
  deriving DecidableEq, Repr

/-- A kernel (R137–R146). -/
structure Kernel where
  barge : Word64
  ctx : Nat
  canal : Nat
  st : KernelSt
  kcode : Nat
  entry : Word64
  args : List Word64
  grid : Word64
  res : Word64
  travtab : List Byte
  done : Word64
  waits : List (Word64 × Word64)
  met : List Nat
  /-- The state whose STATUS write waits at a held page, and its code: the engine acts on it once the write is performed (R141). -/
  due : Option (KernelSt × Nat)
  /-- Next hand-out index, core of the previous team, teams placed and not retired (R145). -/
  next : Nat
  lastCore : Option Nat
  live : Nat
  /-- Words that its teams have committed, with the team (R146). -/
  committed : List (Nat × Nat)
  /-- Latest GWCT of its teams and of its STATUS (R143). -/
  gwct : Nat
  /-- Teams or clusters to be placed again: their coordinates in the traverse, the relaunches so far, and the core left (R146). -/
  again : List (Nat × Nat × Nat × Nat × Nat)
  deriving DecidableEq, Repr

/-! ### Editions (R253–R267) -/

inductive EdState
  | sealing | sealed | draining | drained | failed
  deriving DecidableEq, Repr

/-- A page that a sealed edition holds apart from the live edition (R259). -/
inductive EdPage
  | unbacked
  /-- Frame `id`: its tier, whether it goes back to the region's pool (R260), and its bytes and tags by the live page's own
  DPAs.  Editions that share the frame name the same `id`. -/
  | frame (id : Nat) (far toPool : Bool) (bytes : List Host.Cell) (tags : SMap (BitVec 4))
  deriving DecidableEq, Repr

/-- An archive target (R263). -/
structure Target where
  type : Nat
  base : Nat
  size : Nat
  ports : Nat
  share : Nat
  full : Bool
  deriving DecidableEq, Repr

/-- A sealed edition. -/
structure Edition where
  seq : Nat
  st : EdState
  t : Nat
  reason : Nat
  lost : Bool
  target : Target
  views : List (Nat × Nat)
  pages : SMap EdPage
  /-- Dies whose homes have applied the cut. -/
  cut : List Nat
  /-- Pages that changed since the seal before, as (page, context, region index); while it drains, those still to be written,
  in order. -/
  pend : List (Nat × Nat × Nat)
  /-- Dies that wrote their end record, and pages written. -/
  ended : List Nat
  written : List Nat
  /-- Records acknowledged by the target; for a host stream, its bytes. -/
  acked : Nat
  /-- Bytes of the target used; bytes of a record that wait for the next chunk; since when a full chunk awaits its acknowledgement
  (R263). -/
  used : Nat
  spill : List Byte
  chunkSince : Option Nat
  deriving DecidableEq, Repr

/-! ### Links (R380–R390) -/

inductive PortSt
  | down | training | up | degraded | isolated
  deriving DecidableEq, Repr

structure Port where
  st : PortSt
  lanes : Nat
  peer : Nat
  replays : Nat
  /-- Consecutive failed replays of the flit at its head. -/
  failed : Nat
  deriving DecidableEq, Repr

/-- A mapped link slot (R382, R389). -/
structure Slot where
  ctx : Nat
  peer : Nat
  rbase : Nat
  ports : Nat
  reduction : Bool
  retry : Nat
  status : Word64
  att : Nat
  lasterr : Nat
  discards : Nat
  retries : Nat
  path : Nat
  deriving DecidableEq, Repr

/-- What a request carries over a link. -/
inductive LinkBody
  | load (lane : Nat)
  | store (id : Nat)
  | atom (dpa : Nat)
  | copyRead
  | copyWrite (data : List Byte)
  | drain (seq : Nat) (data : List Byte)
  deriving DecidableEq, Repr

/-- A request of this device in flight (R386, R387): the issuing operation, and how it stands. -/
structure LinkReq where
  id : Nat
  slot : Nat
  core : Nat
  op : Nat
  body : LinkBody
  dpa : Nat
  att : Nat
  tries : Nat
  port : Nat
  sent : Nat
  deriving DecidableEq, Repr

/-- A range opened to a peer (R385, R390). -/
structure LinkExport where
  peer : Nat
  base : Nat
  size : Nat
  r : Bool
  w : Bool
  a : Bool
  deriving DecidableEq, Repr

/-! ### Host complex (R391–R404) and the device -/

/-- An event record (R400), before its time is written. -/
structure Event where
  cls : Nat
  code : Nat
  ctx : Nat
  core : Nat
  slot : Nat
  arg0 : Word64
  arg1 : Word64
  deriving DecidableEq, Repr

/-- The event queue (R399). -/
structure EventQ where
  set : Bool
  base : Nat
  log : Nat
  routes : List Word64
  tail : Nat
  held : List Event
  deriving DecidableEq, Repr

/-- In-field test (R412): INTERVAL and DRAIN in ms, the unit whose turn is next, the unit being drained, whether its scan runs, and
the tick since which the last turn, drain or scan stands. -/
structure TestUnit where
  interval : Nat
  drain : Nat
  next : Nat
  draining : Option Nat
  scanning : Bool
  since : Nat
  deriving DecidableEq, Repr

/-- (model) Who issues: the gang of group `slot` of core `core` with active mask `mask`, and the word it issues. -/
structure Issuer where
  core : Nat
  slot : Nat
  mask : Mask
  word : Word64
  deriving DecidableEq, Repr

/-- The whole machine. -/
structure State where
  /-- (model) External events due, first first (log 2). -/
  agenda : List Instr
  /-- (model) Step counter, the index of the free values (log 2). -/
  n : Nat
  /-- (model) Next identity for operations, stores, entries and kernels. -/
  fresh : Nat
  /-- (model) The gang that issues. -/
  cur : Issuer
  /-- Device time in thirteenths of a nanosecond (R14, R16). -/
  ticks : Nat
  cores : SMap Core
  /-- Memory: bytes by device physical address, rising, none equal to 0 (log 5). -/
  mem : List Host.Cell
  /-- Poisoned 32-byte granules, by DPA / 32 (R410). -/
  poison : List Nat
  /-- Granule tags, by DPA / 32 (R199). -/
  tags : SMap (BitVec 4)
  lines : SMap LineSt
  pages : SMap PageSt
  /-- Accesses waiting at held pages, in arrival order: the page, and the event that performs the access (R192). -/
  held : List (Nat × Instr)
  regions : List Region
  dies : SMap DieMem
  /-- Host directory: marked regions as (base, log2 size, tick of the last conflict) (R228). -/
  directory : List (Nat × Nat × Nat)
  ctxs : SMap Ctx
  canals : SMap Canal
  /-- Canal served last at each priority (R133). -/
  lastCanal : SMap Nat
  kernels : SMap Kernel
  live : Nat
  editions : List Edition
  target : Target
  ports : SMap Port
  slots : SMap Slot
  linkReqs : List LinkReq
  exports : List LinkExport
  /-- Peers' stores and atomics performed here and not yet acknowledged: (peer, DPA, GWCT) (R229). -/
  inboundAcks : List (Nat × Nat × Nat)
  /-- Mailbox words, by 16 × mailbox + word (R397). -/
  mailboxes : SMap Word64
  /-- Commands that the keepers have been given and have not completed, with their mailboxes, in the order given (R122, R398). -/
  cmds : List (Nat × Instr)
  /-- (model) The mailbox whose command the keepers carry out. -/
  mailbox : Nat
  events : EventQ
  /-- Interrupt identities pending: (hart, file, EIID) (R401). -/
  imsic : List (Nat × Nat × Nat)
  /-- Device signals sent and not yet accepted: (core, op) (R378). -/
  signals : List (Nat × Nat)
  /-- Last value that a hart or an endpoint read, and accesses refused (R392, R393, R403). -/
  hartRead : List Byte
  hartRefused : Nat
  test : TestUnit
  powerCap : Nat
  thermalCap : Bool
  /-- Dies at 95 °C or below (R425). -/
  cool : List Nat
  /-- The readiness word of `DEVSTAT` (R421). -/
  devstat : Word64
  /-- Keepers that have failed, by 4 × die + index (R24). -/
  deadKeepers : List Nat
  /-- Images that failed their signatures at the last cold reset: 0–3 the keeper firmware of a die, 4 the loader (R420). -/
  badImages : List Nat
  deriving DecidableEq, Repr

/-- Why the machine stops without a next state. -/
inductive Fault
  /-- Raised by a gang instruction executed where `State.cur` names no resident group: no behaviour of the device, since
  a step only issues from a resident group.  SAFE: the machine stops. -/
  | noGang
  deriving DecidableEq, Repr

/-- Why an instruction has no meaning. -/
inductive Refusal
  /-- Raised by `exec` for an instruction whose meaning is not modelled yet.  SAFE. -/
  | notModelled (mnemonic : String)
  deriving DecidableEq, Repr

/-! ### Reset -/

/-- A core at cold reset (R155, R374, R405; other values: log 4). -/
def Core.init : Core :=
  { groups := [], teams := [], ops := [], locks := [], l1 := [], icache := [], tlb := [], victims := [], score := 0,
    rule := [], binding := none, lanemap := 0x00000000007F007F#64, inService := true, replays := 0, corrected := 0,
    uncorrected := 0, power := .on, powerSince := 0, gatedTicks := 0, lastSlot := 31,
    turn := { order := none, low := 0, used := [], first := none }, lastForced := 0,
    stop := none }

/-- A die's frames: 2 GiB of near frames, and 384 GiB of far frames on the module (R9). -/
def DieMem.init : DieMem :=
  { near := 524288, far := if Config.isModule then 100663296 else 0, resNear := 0, resFar := 0, freeNear := 0,
    freeFar := 0 }

/-- The machine right after cold reset.  COLD_RESET itself, which the ROM then carries out, is an event (R420, R395). -/
def State.reset : State :=
  { agenda := [], n := 0, fresh := 1, cur := { core := 0, slot := 0, mask := 0, word := 0 }, ticks := 0, cores := [],
    mem := [], poison := [], tags := [], lines := [], pages := [], held := [], regions := [],
    dies := [], directory := [], ctxs := [], canals := [], lastCanal := [],
    kernels := [], live := 1, editions := [],
    target := { type := 3, base := 0, size := 0, ports := 0, share := 4, full := false },
    ports := [], slots := [], linkReqs := [], exports := [], inboundAcks := [], mailboxes := [], cmds := [], mailbox := 0,
    events := { set := false, base := 0, log := 7, routes := [], tail := 0, held := [] },
    imsic := [], signals := [], hartRead := [], hartRefused := 0,
    test := { interval := 0, drain := 1, next := 0, draining := none, scanning := false, since := 0 }, powerCap := 1800, thermalCap := false,
    cool := [0, 1, 2, 3], devstat := 0, deadKeepers := [], badImages := [] }

end Sys2Proof.Machine
end

