-- ==== Sys2Proof/Machine/Ops.lean ====
section
/-! DEFINITION. The named operations over the state: access to cores, groups and teams, lane masks, the leaving of a slot,
and the taking of a trap with the return from it. -/

namespace Sys2Proof.Machine

/-- The outcome of a step. -/
abbrev Res := Host.Outcome State Fault Refusal

/-! ### Lanes and masks (R29, R38) -/

/-- Bit i of a mask. -/
def has (m : Mask) (i : Nat) : Bool := m.getLsbD i

/-- The mask with bit i alone. -/
def laneBit (i : Nat) : Mask := BitVec.twoPow 64 i

/-- The lanes of a mask, ascending (R8). -/
def lanesOf (m : Mask) : List Nat := (List.range 64).filter (has m)

/-- The mask of the lanes that satisfy p. -/
def maskOf (p : Nat → Bool) : Mask := (List.range 64).foldl (fun m i => if p i then m ||| laneBit i else m) 0

/-- The lowest lane of a mask, 0 if it is empty. -/
def lowLane (m : Mask) : Nat := (lanesOf m).headD 0

/-- Number of set bits. -/
def popcount (m : Mask) : Nat := (lanesOf m).length

/-- All 64 lanes. -/
def allLanes : Mask := BitVec.allOnes 64

/-- One value for each of the 64 lanes. -/
def mkRow (f : Nat → Word32) : Row := (List.range 64).map f

/-- The value of lane i in a row. -/
def rowAt (r : Row) (i : Nat) : Word32 := r.getD i 0

/-- Row n of a register file; a register never written reads 0 (R145). -/
def rowOf (m : SMap Row) (n : Nat) : Row := (get? m n).getD []

/-! ### Access to the parts of the state -/

def State.core (s : State) (c : Nat) : Core := (get? s.cores c).getD Core.init

def State.setCore (s : State) (c : Nat) (k : Core) : State := { s with cores := put s.cores c k }

def State.modCore (s : State) (c : Nat) (f : Core → Core) : State := s.setCore c (f (s.core c))

def Core.modGroup (c : Core) (slot : Nat) (f : Group → Group) : Core :=
  match get? c.groups slot with
  | some g => { c with groups := put c.groups slot (f g) }
  | none => c

def Core.modTeam (c : Core) (team : Nat) (f : Team → Team) : Core :=
  match get? c.teams team with
  | some t => { c with teams := put c.teams team (f t) }
  | none => c

def State.group? (s : State) (c slot : Nat) : Option Group := get? (s.core c).groups slot

def State.team? (s : State) (c team : Nat) : Option Team := get? (s.core c).teams team

def State.modGroup (s : State) (c slot : Nat) (f : Group → Group) : State := s.modCore c fun k => k.modGroup slot f

def State.modTeam (s : State) (c team : Nat) (f : Team → Team) : State := s.modCore c fun k => k.modTeam team f

/-- The record of a Free context. -/
def Ctx.blank : Ctx :=
  { state := .free, root := 0, table := 0, key := [], regw := 0, localU := 0, tilesMax := 0, check := false, lease := 4,
    saveBase := 0, saveSize := 0, hostHold := false, poolHold := false, grant := false, dumpBase := 0, dumpSize := 0,
    watches := [], fault := [], discards := 0 }

def State.ctx (s : State) (n : Nat) : Ctx := (get? s.ctxs n).getD Ctx.blank

def State.modCtx (s : State) (n : Nat) (f : Ctx → Ctx) : State := { s with ctxs := put s.ctxs n (f (s.ctx n)) }

def State.die (s : State) (d : Nat) : DieMem := (get? s.dies d).getD DieMem.init

def State.modDie (s : State) (d : Nat) (f : DieMem → DieMem) : State := { s with dies := put s.dies d (f (s.die d)) }

/-- Take the next identity. -/
def State.take (s : State) : Nat × State := (s.fresh, { s with fresh := s.fresh + 1 })

/-- An external access that must wait for the host is parked, and offered again (log 2). -/
def State.park (s : State) (page : Nat) (i : Instr) : State :=
  if s.held.contains (page, i) then s else { s with held := s.held ++ [(page, i)] }

/-- The number of the core clock (R10, R13; log 3). -/
def State.clock (s : State) : Nat := s.ticks / 10

/-- Device time in nanoseconds (R14). -/
def State.ns (s : State) : Nat := s.ticks / 13

/-- Ticks of a number of nanoseconds. -/
def nsTicks (x : Nat) : Nat := 13 * x

/-- The die of a core (R10). -/
def dieOf (core : Nat) : Nat := core / 64

def Core.op? (c : Core) (id : Nat) : Option Op := c.ops.find? fun o => o.id == id

def Core.modOp (c : Core) (id : Nat) (f : Op → Op) : Core :=
  { c with ops := c.ops.map fun o => if o.id == id then f o else o }

/-! ### Groups and threads -/

def Group.thread (g : Group) (i : Nat) : Thread :=
  g.threads.getD i { pc := 0, path := 0, st := .exited, held := false, entry := 0, stall := none, refetch := false, blocked := false, since := 0 }

/-- Change the threads of a mask. -/
def Group.onThreads (g : Group) (m : Mask) (f : Nat → Thread → Thread) : Group :=
  { g with threads := (List.range 64).map fun i => if has m i then f i (g.thread i) else g.thread i }

def Thread.live (t : Thread) : Bool := t.st != .exited

/-- The live threads (R30). -/
def Group.liveMask (g : Group) : Mask := maskOf fun i => (g.thread i).live

/-- A mask register; a register never written reads 0 (R38). -/
def Group.maskReg (g : Group) (n : Nat) : Mask := (get? g.k n).getD 0

/-- Write a mask register: the bits of exited threads are removed first (R38). -/
def Group.setMask (g : Group) (n : Nat) (x : Mask) : Group := { g with k := put g.k n (x &&& g.liveMask) }

/-- A group-uniform register; a register never written reads 0. -/
def Group.greg (g : Group) (n : Nat) : Word64 := (get? g.g n).getD 0

/-- The group as its gangs see it in this clock: the shared registers stand as they stood at its start (R81, R272, R289). -/
def Group.shown (g : Group) : Group := { g with g := g.seenG, k := g.seenK }

/-- A clock begins: the shared registers and the flag counts are shown as they stand now, and no thread has issued (R70, R272). -/
def Group.newClock (g : Group) : Group :=
  { g with seenG := g.g, seenK := g.k, seenFlags := g.flags, acted := 0, woken := 0 }

/-- What gangs that wait at issue wait for may have come. -/
def Core.unblock (c : Core) : Core :=
  { c with groups := c.groups.map fun p =>
      (p.1, { p.2 with threads := p.2.threads.map fun (t : Thread) => { t with blocked := false } }) }

/-- Byte i of a 128-bit datum. -/
def byteOf (x : BitVec 128) (i : Nat) : Byte := (x >>> (8 * i)).setWidth 8

/-- Some lanes have synchronised (R204, R212, R213): no earlier access serves a later load. -/
def Group.forget (g : Group) (m : Mask) : Group := { g with recent := g.recent.filter fun r => !has m r.1 }

def Core.forget (c : Core) (slot : Nat) (m : Mask) : Core := c.modGroup slot fun g => g.forget m

/-- Threads become Ready: they issue in a later clock. -/
def Group.wake (g : Group) (m : Mask) : Group := { g with woken := g.woken ||| m }

/-- Threads whose guard is true (R81): M of R274, of the gang with active mask `m`. -/
def Group.guarded (g : Group) (m : Mask) : Guard → Mask
  | .always => m
  | .mask k neg => m &&& (if neg then ~~~ g.maskReg k.val else g.maskReg k.val)

/-- The slice of a lane (R31). -/
def sliceOf (i : Nat) : Nat := i / 4

def Group.issuesOf (g : Group) (slice : Nat) : Nat := (get? g.issues slice).getD 0

/-! ### The status word of a thread (R160) -/

def TState.code : TState → Nat
  | .ready => 0
  | .maskWait _ _ => 1
  | .barrierWait _ _ _ _ => 2
  | .exited => 4
  | .collWait _ => 5

def TState.obj : TState → Nat
  | .maskWait k _ => k
  | .collWait k => k
  | .barrierWait _ _ o _ => o
  | _ => 0

def TState.phase : TState → Nat
  | .barrierWait _ _ _ p => if p then 1 else 0
  | _ => 0

/-- The status word of a thread (R160), with the state that it held before a trap (R164). -/
def Thread.status (t : Thread) : Nat := t.path.toNat * 2 ^ 16 + t.st.code * 2 ^ 13 + t.st.obj * 2 ^ 7 + t.st.phase * 2 ^ 6

/-! ### Code pointers (R64, R73) -/

/-- Header address of a code pointer, with bits 63–57 kept as they are. -/
def headerOf (pc : Word64) : Word64 := pc &&& ~~~ 15#64

/-- Slot number of a code pointer. -/
def slotOf (pc : Word64) : Nat := pc.toNat % 16

/-- The code pointer of a slot of a clause. -/
def codePtr (hdr : Word64) (slot : Nat) : Word64 := headerOf hdr ||| BitVec.ofNat 64 (slot % 16)

/-- COUNT of a header (R66). -/
def countOf (hdr : Word64) : Nat := hdr.toNat / 2 ^ 49 % 16

/-- The first 16-byte-aligned address at or after header + 8 × (1 + COUNT) (R73). -/
def fallThrough (hdr : Word64) (count : Nat) : Word64 := headerOf (headerOf hdr + BitVec.ofNat 64 (8 * (1 + count) + 15))

/-- The clause entry of a gang, which holds its captured words (R65). -/
def Group.entryOf (g : Group) (id : Nat) : Option Entry := g.entries.find? fun e => e.id == id

/-- COUNT of the clause that a thread executes. -/
def Group.countAt (g : Group) (t : Thread) : Nat :=
  match g.entryOf t.entry with
  | some e => countOf (e.words.headD 0)
  | none => 0

/-- The code pointer that follows a thread's slot: the next slot, or the fall-through header (R73, R278, R282). -/
def Group.nextPc (g : Group) (t : Thread) : Word64 :=
  if slotOf t.pc < g.countAt t then codePtr t.pc (slotOf t.pc + 1) else fallThrough t.pc (g.countAt t)

/-- ReturnPointer() of R278. -/
def Group.returnPtr (g : Group) (t : Thread) : Word64 := fallThrough t.pc (g.countAt t)

/-- A thread moves on past its slot; at the last slot it leaves the clause (R73). -/
def Group.stepThread (g : Group) (t : Thread) : Thread :=
  if slotOf t.pc < g.countAt t then { t with pc := g.nextPc t, blocked := false }
  else { t with pc := g.nextPc t, entry := 0, refetch := false, blocked := false }

/-! ### Traps (R50, R51, R159, R163) -/

/-- A trap is raised on a group: its record is made, and the group issues nothing more until a keeper has taken it
(GROUP_TRAP_STOP).  While a trap of the group stands, another waits its turn. -/
def Group.raise (g : Group) (t : TrapRec) : Group :=
  if g.hold = .none then { g with hold := .trapped, trap := t } else { g with due := g.due ++ [t] }

def Core.trap (c : Core) (slot : Nat) (code : Nat) (addr pc : Word64) (words : List Word64) : Core :=
  c.modGroup slot fun g => g.raise { code, addr, pc, words }

def State.trap (s : State) (core slot code : Nat) (addr pc : Word64) (words : List Word64) : State :=
  s.modCore core fun c => c.trap slot code addr pc words

/-- The record of a group that no trap has stopped (R159). -/
def TrapRec.blank : TrapRec := { code := 0, addr := 0, pc := 0, words := [] }

/-- TAKING AN EXCEPTION (R51, R163, R149): the stopped group becomes Pre-empted, or Exited stays Exited, and every live
thread becomes Held with its state kept; the saved registers are the record `Group.trap` and each thread's own code
pointer. -/
def Group.takeTrap (g : Group) : Group :=
  let g := g.onThreads g.liveMask fun _ t => { t with held := true }
  if g.gst = .exited then g else { g with gst := .preempted }

/-- The stop of a group's trap has ended: its record is empty again, or the next trap stands (R159). -/
def Group.endHold (g : Group) : Group :=
  match g.due with
  | [] => { g with hold := .none, trap := .blank }
  | t :: rest => { g with hold := .trapped, trap := t, due := rest }

/-- Threads inside a clause fetch it again and evaluate its WAIT before their next slot (R68, R76). -/
def Group.mustRefetch (g : Group) : Group := g.onThreads allLanes fun _ t => { t with refetch := t.entry != 0 }

/-- RETURN FROM AN EXCEPTION (R51, R149, R164): where nothing else stops the group, each thread takes the state that stands
recorded, and the group becomes Pending. -/
def Group.resume (g : Group) : Group :=
  if g.hold = .none ∧ g.halt = .none then
    let g := (g.onThreads allLanes fun i t => { t with held := false, blocked := false, since := g.issuesOf (sliceOf i) }).mustRefetch.newClock
    { g with gst := if g.gst = .exited then .exited else .pending, readySince := none, woken := allLanes }
  else g

end Sys2Proof.Machine
end

