-- ==== Sys2Proof/Machine/Flags.lean ====
section
/-! DEFINITION. The completion flags `w0`–`w11` (R68, R69): their counts, the clause entries that raise them, and the
operations whose points lower them. -/

namespace Sys2Proof.Machine

/-- The count of a flag; a flag never counted is 0 (R145). -/
def Group.flag (g : Group) (f : Nat) : Nat := (get? g.flags f).getD 0

/-- The count of a flag as it stood at the start of the clock (R70). -/
def Group.flagSeen (g : Group) (f : Nat) : Nat := (get? g.seenFlags f).getD 0

/-- WAIT names only flags that read clear at the start of the clock (R68, R70). -/
def Group.waitClear (g : Group) (hdr : Word64) : Bool :=
  (List.range 12).all fun f => !(hdr.toNat / 2 ^ (28 + f) % 2 == 1) || g.flagSeen f == 0

/-- SETA and SETB of a header (R66); 15 means none. -/
def setaOf (hdr : Word64) : Nat := hdr.toNat / 2 ^ 44 % 16
def setbOf (hdr : Word64) : Nat := hdr.toNat / 2 ^ 40 % 16

/-- Whether a flag may be counted up; 15 names none, and a gang stalls while a count is 15 (R69). -/
def Group.setRoom (g : Group) (f : Nat) : Bool := f = 15 || decide (g.flag f < 15)

/-- Count a flag up or down; 15 names none. -/
def Group.countUp (g : Group) (f : Nat) : Group := if f = 15 then g else { g with flags := put g.flags f (g.flag f + 1) }
def Group.countDown (g : Group) (f : Nat) : Group := if f = 15 then g else { g with flags := put g.flags f (g.flag f - 1) }

/-- The SETB and SETA sides of R69 of one entry whose clause has ended. -/
def Group.settleEntry (g : Group) (e : Entry) : Group × Entry :=
  let (g, e) := if e.setbOn && !e.opened && e.unconsumed == 0 then (g.countDown e.setb, { e with setbOn := false }) else (g, e)
  if e.setaOn && !e.opened && e.unfinished == 0 then (g.countDown e.seta, { e with setaOn := false }) else (g, e)

/-- Close the clauses that no live thread executes any longer, lower the flags that fall due, and drop what has ended.  A
clause that carries YIELD gives the group's turn up when it ends (R71, R281). -/
def Group.settle (g : Group) : Group :=
  let runs := fun (e : Entry) => (List.range 64).any fun i => (g.thread i).live && (g.thread i).entry == e.id
  let g := { g with yielded := g.yielded || g.entries.any fun e => e.opened && e.yields && !runs e }
  let es := g.entries.map fun e => { e with opened := e.opened && runs e }
  let (g, es) := es.foldl (fun (acc : Group × List Entry) e =>
    let (g, e) := acc.1.settleEntry e
    (g, acc.2 ++ [e])) (g, [])
  { g with entries := es.filter fun e => e.opened || e.setaOn || e.setbOn || e.unfinished != 0 }

/-- Change one clause entry of a group. -/
def Group.modEntry (g : Group) (id : Nat) (f : Entry → Entry) : Group :=
  { g with entries := g.entries.map fun e => if e.id == id then f e else e }

/-- Change some clause entries of a group. -/
def Group.modEntries (g : Group) (ids : List Nat) (f : Entry → Entry) : Group := ids.foldl (fun g id => g.modEntry id f) g

/-- Change the request of an atomic at an address. -/
def OpKind.modReq (k : OpKind) (dpa : Nat) (f : AtomReq → AtomReq) : OpKind :=
  match k with
  | .atom op kind wide scope reqs => .atom op kind wide scope (reqs.map fun q => if q.dpa == dpa then f q else q)
  | k => k

/-- Operations that the evaluator performs one at a time, in issue order (R250). -/
def OpKind.evaluator : OpKind → Bool
  | .greval _ _ _ _ _ | .nzscan _ _ _ => true
  | _ => false

/-- An operation joins the Ops sets of its gang's clauses and is in flight (R69). -/
def Core.beginOp (c : Core) (o : Op) : Core :=
  let c := c.modGroup o.slot fun g =>
    g.modEntries o.entries fun e => { e with unconsumed := e.unconsumed + 1, unfinished := e.unfinished + 1 }
  { c with ops := c.ops ++ [o] }

/-- The operands-consumed point (R69): the SETB side, and the read locks end (R231). -/
def Core.consumeOp (c : Core) (id : Nat) : Core :=
  match c.op? id with
  | none => c
  | some o =>
    if o.consumed then c
    else
      let c := c.modOp id fun o => { o with consumed := true }
      let c : Core := ({ c with locks := c.locks.filter fun l => !(l.op == id && !l.write) } : Core).unblock
      c.modGroup o.slot fun g => (g.modEntries o.entries fun e => { e with unconsumed := e.unconsumed - 1 }).settle

/-- The gang that an operation held goes on. -/
def Core.endStall (c : Core) (slot id : Nat) : Core :=
  c.modGroup slot fun g =>
    let g := g.wake (maskOf fun i => (g.thread i).stall = some id)
    g.onThreads allLanes fun i t => if t.stall = some id then { t with stall := none, since := g.issuesOf (sliceOf i) } else t

/-- The completion point (R69): the SETA side, the locks end, the gang that it held goes on. -/
def Core.finishOp (c : Core) (id : Nat) : Core :=
  let c := c.consumeOp id
  match c.op? id with
  | none => c
  | some o =>
    let c : Core := ({ c with ops := c.ops.filter (fun p => p.id != id), locks := c.locks.filter fun l => l.op != id } : Core).unblock
    (c.modGroup o.slot fun g => (g.modEntries o.entries fun e => { e with unfinished := e.unfinished - 1 }).settle).endStall o.slot id

/-! ### Where a copy stands (R348) -/

/-- The row at which a copy stands. -/
def Copy.cur (c : Copy) : CopyRow := c.rows.getD c.row { src := .glob 0, dst := .glob 0, len := 0 }

/-- An end of a copy, some bytes on. -/
def copyEnd : End → Nat → End
  | .glob va, n => .glob (va + BitVec.ofNat 64 n)
  | .loc c t off, n => .loc c t (off + n)

/-- Where the copy reads and writes next. -/
def Copy.src (c : Copy) : End := copyEnd c.cur.src c.off
def Copy.dst (c : Copy) : End := copyEnd c.cur.dst c.off

/-- Bytes left before an end's next line. -/
def lineLeft : End → Nat
  | .glob va => 128 - va.toNat % 128
  | .loc _ _ off => 128 - off % 128

/-- The longest piece that a copy moves next: within a row, and within one line at either end (R193). -/
def Copy.piece (c : Copy) : Nat := min (c.cur.len - c.off) (min (lineLeft c.src) (lineLeft c.dst))

/-- Every byte is delivered. -/
def Copy.done (c : Copy) : Bool := c.gather.isNone && decide (c.rows.length ≤ c.row)

def End.page : End → Nat
  | .glob va => va.toNat / 4096
  | .loc _ _ _ => 0

/-- The pointer moves on; pages left behind must be reached anew (R348). -/
def Copy.advance (c : Copy) (n : Nat) : Copy :=
  if c.cur.len ≤ c.off + n then { c with row := c.row + 1, off := 0, srcPage := none, dstPage := none }
  else
    let d : Copy := { c with off := c.off + n }
    { d with srcPage := if d.src.page = c.src.page then c.srcPage else none
             dstPage := if d.dst.page = c.dst.page then c.dstPage else none }

def OpKind.modCopy (f : Copy → Copy) : OpKind → OpKind
  | .copy c => .copy (f c)
  | k => k

end Sys2Proof.Machine
end

