-- ==== Sys2Proof/Machine/Operands.lean ====
section
/-! DEFINITION. Every operand form (R78–R84, R269–R274): reading a source of a thread, and writing a destination, with
the registers `l0` and `l1` (R80) and the cancelling of pending writes (R153). -/

namespace Sys2Proof.Machine

/-! ### Sources -/

/-- Main register n of thread i. -/
def Group.mainAt (g : Group) (n i : Nat) : Word32 := rowAt (rowOf g.v n) i

/-- A 32-bit source of thread i (R78): `g` and `k` give their low 32 bits, an immediate is sign-extended. -/
def Group.src32 (g : Group) (i : Nat) : Spec → Word32
  | .main n => g.mainAt n.val i
  | .q n => rowAt (rowOf g.q n.val) i
  | .l n => rowAt (rowOf g.l n.val) i
  | .zero => 0
  | .lane => BitVec.ofNat 32 i
  | .g n => (g.greg n.val).setWidth 32
  | .k n => (g.maskReg n.val).setWidth 32
  | .imm x => x.signExtend 32

/-- Widen a 32-bit value to 64 bits (R269). -/
def widen (signed : Bool) (x : Word32) : Word64 := if signed then x.signExtend 64 else x.setWidth 64

/-- A 64-bit source of thread i (R57, R269): an even main pair, a `g` or `k` register whole, or a widened 32-bit source. -/
def Group.src64 (g : Group) (i : Nat) (signed : Bool) : Spec → Word64
  | .main n => g.mainAt (n.val + 1) i ++ g.mainAt n.val i
  | .g n => g.greg n.val
  | .k n => g.maskReg n.val
  | .zero => 0
  | .imm x => x.signExtend 64
  | .q n => widen signed (g.src32 i (.q n))
  | .l n => widen signed (g.src32 i (.l n))
  | .lane => widen signed (g.src32 i .lane)

/-- Src(S, T) of R274 as raw bits at the width of the source: 64 bits for a 64-bit type, else the 32-bit register. -/
def Group.src (g : Group) (i : Nat) (t : Ty) (s : Spec) : Word64 :=
  if t.wide then g.src64 i t.signed s else (g.src32 i s).setWidth 64

/-- Field C of format A as a 32-bit value, and as a 64-bit one; IMM10 is sign-extended (R271). -/
def Group.srcC32 (g : Group) (i : Nat) : SrcC → Word32
  | .spec s => g.src32 i s
  | .imm10 x => x.signExtend 32

def Group.srcC64 (g : Group) (i : Nat) (signed : Bool) : SrcC → Word64
  | .spec s => g.src64 i signed s
  | .imm10 x => x.signExtend 64

/-- The number that the low bits of a word stand for under an integer type (R100, R270). -/
def intOf (t : Ty) (x : Word64) : Int :=
  let y := x.toNat % 2 ^ t.width
  if t.signed && 2 ^ (t.width - 1) ≤ y then (y : Int) - 2 ^ t.width else y

/-- Lo(T) and Hi(T) of R100. -/
def loOf (t : Ty) : Int := if t.signed then -(2 ^ (t.width - 1)) else 0
def hiOf (t : Ty) : Int := if t.signed then 2 ^ (t.width - 1) - 1 else 2 ^ t.width - 1

/-- Clamp(r, a, b) of R274. -/
def clampInt (r a b : Int) : Int := max a (min r b)

/-- Put(r, T) of R274 as a 64-bit word: r modulo 2^width, then extended by the sign of the type (R100, R269). -/
def putInt (t : Ty) (r : Int) : Word64 :=
  let y : Nat := (r % (2 ^ t.width : Int)).toNat
  if t.signed && 2 ^ (t.width - 1) ≤ y then BitVec.ofInt 64 ((y : Int) - 2 ^ t.width) else BitVec.ofNat 64 y

/-- Imm(IMM32, T) of R274 (R84): sign-extended for `.sN`, else zero-extended. -/
def immOf (t : Ty) (imm : BitVec 32) : Word64 := if t.signed then imm.signExtend 64 else imm.setWidth 64

/-! ### Destinations -/

/-- Cancel the pending writes of a slot's register for some lanes: a later write stands (R153). -/
def Core.cancel (c : Core) (slot : Nat) (r : RReg) (m : Mask) : Core :=
  { c with ops := c.ops.map fun o =>
      if o.slot == slot then { o with writes := o.writes.map fun w => if w.reg = r then { w with lanes := w.lanes &&& ~~~ m } else w }
      else o }

/-- Cancel the pending write of a `g` register by an operation that shares a thread with the writer (R153). -/
def Core.cancelG (c : Core) (slot n : Nat) (m : Mask) : Core :=
  { c with ops := c.ops.map fun o =>
      if o.slot == slot && (o.gdst.map (·.1)) == some n && (o.lanes &&& m) != 0 then { o with gdst := none } else o }

/-- The row with new values in the lanes of a mask. -/
def mergeRow (old : Row) (m : Mask) (f : Nat → Word32) : Row := mkRow fun i => if has m i then f i else rowAt old i

/-- Set a per-thread register in the lanes of a mask. -/
def Group.setReg (g : Group) (r : RReg) (m : Mask) (f : Nat → Word32) : Group :=
  match r with
  | .v n => { g with v := put g.v n (mergeRow (rowOf g.v n) m f) }
  | .q n => { g with q := put g.q n (mergeRow (rowOf g.q n) m f) }
  | .l n => { g with l := put g.l n (mergeRow (rowOf g.l n) m f) }

/-- Write a per-thread register, which cancels what was pending there (R153). -/
def Core.writeReg (c : Core) (slot : Nat) (r : RReg) (m : Mask) (f : Nat → Word32) : Core :=
  (c.modGroup slot fun g => g.setReg r m f).cancel slot r m

/-- Write a `g` register (R79). -/
def Core.writeG (c : Core) (slot n : Nat) (m : Mask) (x : Word64) : Core :=
  (c.modGroup slot fun g => { g with g := put g.g n x }).cancelG slot n m

/-- Bits 31–0 and bits 63–32 of a word. -/
def lo32 (x : Word64) : Word32 := x.setWidth 32
def hi32 (x : Word64) : Word32 := (x >>> 32).setWidth 32

/-- Write a destination for the threads of M (R79, R269, R272): per thread in the main file and in `q`; a `g` register
takes the value of the lowest thread, extended by the sign where the result has 32 bits; `zero` discards. -/
def Core.writeDst (c : Core) (slot : Nat) (m : Mask) (wide signed : Bool) (d : Spec) (f : Nat → Word64) : Core :=
  if m = 0 then c
  else
    match d with
    | .main n =>
      let c := c.writeReg slot (.v n.val) m fun i => lo32 (f i)
      if wide then c.writeReg slot (.v (n.val + 1)) m fun i => hi32 (f i) else c
    | .q n => c.writeReg slot (.q n.val) m fun i => lo32 (f i)
    | .g n =>
      let x := f (lowLane m)
      c.writeG slot n.val m (if wide then x else widen signed (lo32 x))
    | _ => c

/-- Whether a destination is in the main file or in `q`, so that `l0` and `l1` follow it (R80). -/
def perThread : Spec → Bool
  | .main _ | .q _ => true
  | _ => false

/-- `l0` moves to `l1` for the threads of M (R80). -/
def Core.shiftL (c : Core) (slot : Nat) (m : Mask) : Core :=
  match get? c.groups slot with
  | none => c
  | some g => c.writeReg slot (.l 1) m fun i => rowAt (rowOf g.l 0) i

/-- The `l0` and `l1` update of an ALU-class instruction (R80). -/
def Core.updateL (c : Core) (slot : Nat) (m : Mask) (f : Nat → Word64) : Core :=
  (c.shiftL slot m).writeReg slot (.l 0) m fun i => lo32 (f i)

/-- Write the result of an ALU-class instruction that completes at issue: its destination, and `l0` and `l1` (R80). -/
def Core.writeAlu (c : Core) (slot : Nat) (m : Mask) (wide signed : Bool) (d : Spec) (f : Nat → Word64) : Core :=
  let c := c.writeDst slot m wide signed d f
  if perThread d then c.updateL slot m f else c

/-- The pending writes that an operation's destination makes: `words` registers from a main register, or one register
of `q` (R153). -/
def pendingOf (d : Spec) (m : Mask) (words : Nat) : List PWrite :=
  match d with
  | .main n => (List.range words).map fun j => { reg := .v (n.val + j), lanes := m, word := j }
  | .q n => [{ reg := .q n.val, lanes := m, word := 0 }]
  | _ => []

/-- Issuing an operation with a destination is itself a later write of it: an earlier pending write ends (R153). -/
def Core.cancelDst (c : Core) (slot : Nat) (d : Spec) (m : Mask) (words : Nat) : Core :=
  match d with
  | .main n => (List.range words).foldl (fun c j => c.cancel slot (.v (n.val + j)) m) c
  | .q n => c.cancel slot (.q n.val) m
  | .g n => c.cancelG slot n.val m
  | _ => c

/-- Word j of a result. -/
def word128 (x : BitVec 128) (j : Nat) : Word32 := (x >>> (32 * j)).setWidth 32

/-- Write what an operation still has pending (R153, R334). -/
def Core.deliver (c : Core) (o : Op) : Core :=
  let res := fun i => o.res.getD i 0
  let c := c.modGroup o.slot fun g => o.writes.foldl (fun g w => g.setReg w.reg w.lanes fun i => word128 (res i) w.word) g
  match o.gdst with
  | none => c
  | some (n, signed) =>
    let x : BitVec 128 := res (lowLane o.lanes)
    c.modGroup o.slot fun g => { g with g := put g.g n (if o.words = 1 then widen signed (x.setWidth 32) else x.setWidth 64) }

end Sys2Proof.Machine
end

