-- ==== Sys2Proof/Machine/Issue.lean ====
section
/-! DEFINITION. The issue of an instruction by a gang: who issues, the encoding checks of R79 and R93, and the move to the
next slot (R73). -/

namespace Sys2Proof.Machine

/-- The gang that issues: its core and slot, its group as it stood at the start of the clock, and M (R272, R274). -/
structure Gang where
  core : Nat
  slot : Nat
  grp : Group
  /-- The active mask (R31). -/
  act : Mask
  /-- M: the active mask ANDed with the guard. -/
  m : Mask
  /-- The class of the instruction (R67). -/
  cls : Nat

/-- The code pointer of the issuing gang. -/
def Gang.pc (x : Gang) : Word64 := (x.grp.thread (lowLane x.act)).pc

/-- The clause entries of the issuing gang's threads (R69). -/
def Gang.entries (x : Gang) : List Nat := ((lanesOf x.act).map fun i => (x.grp.thread i).entry).eraseDups

/-- Raise a trap of the issuing gang at its own code pointer. -/
def Gang.trap (x : Gang) (s : State) (code : Nat) (addr : Word64) (words : List Word64) : State :=
  s.trap x.core x.slot code addr x.pc words

/-- The issue counts of a group on the slices of a gang (R34), and the lanes that have issued in this clock. -/
def Group.countIssue (g : Group) (act : Mask) : Group :=
  let bump := fun (m : SMap Nat) sl =>
    if (lanesOf act).any fun i => sliceOf i == sl then put m sl (g.issuesOf sl + 1) else m
  { g with issues := (List.range 16).foldl bump g.issues, acted := g.acted ||| act }

/-- The rotation of the active groups (R152): after the group that issued first in the previous clock, those whose last clause
carried YIELD at its end. -/
def Core.rotation (c : Core) : List Nat :=
  let act := c.groups.filter fun g => g.2.gst == .active
  let l := (act.filter fun g => decide (c.lastSlot < g.1)) ++ act.filter fun g => decide (g.1 ≤ c.lastSlot)
  ((l.filter fun g => !g.2.yielded) ++ l.filter fun g => g.2.yielded).map (·.1)

/-- An instruction of a gang takes an issue slot of the clock (R152): the rotation stands at its group, and with the clock's
first issue the turn that YIELD gave up is used. -/
def Core.takePort (c : Core) (slot cls : Nat) (act : Mask) : Core :=
  let order := (c.turn.order.getD c.rotation).dropWhile (· != slot)
  let c := if c.turn.order.isSome then c
    else { c with groups := c.groups.map fun p => (p.1, { p.2 with yielded := false }) }
  { c with turn := { order := some order, low := lowLane act + 1, used := c.turn.used ++ [cls],
                     first := some (c.turn.first.getD slot) } }

/-- The gang has issued. -/
def Gang.issued (x : Gang) (s : State) : State :=
  s.modCore x.core fun c => (c.takePort x.slot x.cls x.act).modGroup x.slot fun g => g.countIssue x.act

/-- The threads of a mask that are still ready move on past their slot (R73); a thread that the instruction put into a wait,
that exited, or whose code pointer it moved stays where the instruction left it. -/
def Group.advance (g : Group) (act : Mask) : Group :=
  (g.onThreads act fun i t =>
    if t.st = .ready then { g.stepThread t with since := g.issuesOf (sliceOf i) } else t).settle

def Gang.advance (x : Gang) (s : State) : State := (x.issued s).modGroup x.core x.slot fun g => g.advance x.act

/-- The gang waits at issue, and counts as Waiting (R150). -/
def Gang.block (x : Gang) (s : State) : State :=
  s.modGroup x.core x.slot fun g => g.onThreads x.act fun _ t => { t with blocked := true }

/-- The gang that `State.cur` names, with an instruction's guard and class. -/
def State.gang (s : State) (g : Group) (guard : Guard) (cls : Option Cls) : Gang :=
  { core := s.cur.core, slot := s.cur.slot, grp := g.shown, act := s.cur.mask, m := g.shown.guarded s.cur.mask guard,
    cls := (cls.map (·.code)).getD 0 }

/-- Issue of an instruction: an encoding fault raises the illegal-instruction trap (R79, R93), for which no thread whose guard
is false answers (R81); otherwise the effect `k` takes place, and the gang moves on where `k` answers true. -/
def issueWith (s : State) (i : Instr) (guard : Guard) (k : Gang → State → State × Bool) : Res :=
  match s.group? s.cur.core s.cur.slot with
  | none => .fault .noGang
  | some g =>
    let x := s.gang g guard i.cls
    if i.wf && i.mainSpan ≤ g.quota then
      match k x s with
      | (s', true) => .next (x.advance s')
      | (s', false) => .next s'
    else if x.m = 0 then .next (x.advance s)
    else .next (x.trap s 0x01 0 [s.cur.word])

/-- Issue of an instruction whose effect always lets the gang move on. -/
def issue (s : State) (i : Instr) (guard : Guard) (k : Gang → State → State) : Res :=
  issueWith s i guard fun x s => (k x s, true)

/-- Issue of an ALU-class instruction that completes at issue: each thread of M computes its result from the group as it
stood (R272, R310), and the destination, `l0` and `l1` are written (R79, R80). -/
def issueAlu (s : State) (i : Instr) (guard : Guard) (d : Spec) (wide signed : Bool) (f : Group → Nat → Word64) : Res :=
  issue s i guard fun x s => s.modCore x.core fun c => c.writeAlu x.slot x.m wide signed d (f x.grp)

/-- An operation of the issuing gang, with its identity; its effect is set by the caller. -/
def Gang.op (x : Gang) (id : Nat) (kind : OpKind) : Op :=
  { id, slot := x.slot, team := x.grp.team, ctx := x.grp.ctx, entries := x.entries, pc := x.pc, lanes := x.m, consumed := false,
    kind, writes := [], gdst := none, words := 1, res := [], tag := none, gwct := 0, poison := none, started := false, pins := [],
    onPins := [], held := [], done := 0 }

/-- Put an operation in flight: earlier pending writes of its destination end, its own are pending (R69, R153). -/
def Gang.start (x : Gang) (s : State) (o : Op) (d : Spec) (words : Nat) (signed : Bool) : State :=
  s.modCore x.core fun c =>
    let c := c.cancelDst x.slot d o.lanes words
    c.beginOp { o with writes := o.writes ++ pendingOf d o.lanes words, words := words,
                       gdst := match d with
                         | .g n => some (n.val, signed)
                         | _ => none }

/-- Mark an operation's operands consumed at issue. -/
def State.consume (s : State) (core id : Nat) : State := s.modCore core fun c => c.consumeOp id

/-- An SFU-class instruction (R273, R316): its result is computed at issue, `l0` moves to `l1`, and the destination and
`l0` are written at the completion point. -/
def issueSfu (s : State) (i : Instr) (guard : Guard) (d : Spec) (signed : Bool) (f : Group → Nat → Word64) : Res :=
  issue s i guard fun x s =>
    if x.m = 0 then s
    else
      let (id, s) := s.take
      let o := { x.op id .simple with res := (List.range 64).map fun j => (f x.grp j).setWidth 128 }
      let s := if perThread d then s.modCore x.core fun c => (c.shiftL x.slot x.m).cancel x.slot (.l 0) x.m else s
      let o := if perThread d then { o with writes := [{ reg := .l 0, lanes := x.m, word := 0 }] } else o
      (x.start s o d 1 signed).consume x.core id

end Sys2Proof.Machine
end

