-- ==== Sys2Proof/Machine/Memory.lean ====
section
/-! DEFINITION. Storage: memory as a canonical list of bytes (R178), regions and datum apertures (R181–R189), the state of
pages and lines at their homes (R190–R194, R226), copy-on-write (R259–R261), and the event queue (R399–R401). -/

namespace Sys2Proof.Machine

/-! ### Bytes -/

/-- The byte at an address; an unlisted byte reads 0 (log 5). -/
def cellAt (m : List Host.Cell) (a : Nat) : Byte := (get? m a).getD 0

/-- Write the n bytes from `lo`: byte i becomes `f i`. -/
def setRange (m : List Host.Cell) (lo n : Nat) (f : Nat → Byte) : List Host.Cell :=
  m.filter (fun c => decide (c.1 < lo))
    ++ ((List.range n).map fun i => (lo + i, f i)).filter (fun c => c.2 != 0)
    ++ m.filter fun c => decide (lo + n ≤ c.1)

/-- The canonical form: addresses strictly rising, no listed byte 0. -/
abbrev Memory.wf (m : List Host.Cell) : Prop := m.Pairwise (fun p q => p.1 < q.1) ∧ ∀ c ∈ m, c.2 ≠ 0

/-- The number of a little-endian list of bytes (R4), and its bytes. -/
def leNat : List Byte → Nat
  | [] => 0
  | b :: t => b.toNat + 256 * leNat t

def leBytes (n x : Nat) : List Byte := (List.range n).map fun i => BitVec.ofNat 8 (x / 256 ^ i)

/-- The page and the line of a DPA. -/
def pageOf (dpa : Nat) : Nat := dpa / 4096
def lineOf (dpa : Nat) : Nat := dpa / 128

/-- The home tile of a memory-space DPA (R179). -/
def homeCore (a : Nat) : Nat :=
  let f := fun lo => a / 2 ^ lo % 64
  64 * (a / 2 ^ 46 % 4) + (f 12 ^^^ f 18 ^^^ f 24 ^^^ f 30 ^^^ f 36 ^^^ (a / 2 ^ 42 % 16))

/-- The die of a DPA (R178). -/
def dieOfDpa (a : Nat) : Nat := a / 2 ^ 46 % 4

/-- Link range (R381) and host-die space (R178). -/
def isLink (a : Nat) : Bool := decide (a < 2 ^ 48) && a.testBit 45
def isHostDie (a : Nat) : Bool := decide (2 ^ 48 ≤ a)

/-! ### Regions and pages -/

def Region.covers (r : Region) (dpa : Nat) : Bool := decide (r.base ≤ dpa) && decide (dpa < r.base + 4096 * r.frames)

def State.regionAt (s : State) (dpa : Nat) : Option Region := s.regions.find? fun r => r.covers dpa

def State.region? (s : State) (ctx idx : Nat) : Option Region := s.regions.find? fun r => r.ctx == ctx && r.idx == idx

def State.modRegion (s : State) (ctx idx : Nat) (f : Region → Region) : State :=
  { s with regions := s.regions.map fun r => if r.ctx == ctx && r.idx == idx then f r else r }

/-- The datum byte of an address (R187). -/
def Region.datumByte (r : Region) (dpa : Nat) : Byte := (r.datum >>> (8 * (dpa % 2 ^ r.dsize))).setWidth 8

/-- A page that its home has not yet changed: as its region was created (R182, R185, R259). -/
def Region.freshPage (r : Region) (p : Nat) : PageSt :=
  { backed := !r.dat, far := !r.dat && decide (r.nearPages ≤ p - pageOf r.base), held := false,
    migrating := false, swap := none, nonDatum := 0, heat := 0, cseq := r.born, filling := false }

def State.pageSt (s : State) (p : Nat) : PageSt :=
  match get? s.pages p with
  | some x => x
  | none =>
    match s.regionAt (4096 * p) with
    | some r => r.freshPage p
    | none => { backed := true, far := false, held := false, migrating := false, swap := none, nonDatum := 0, heat := 0,
                cseq := 0, filling := false }

def State.modPage (s : State) (p : Nat) (f : PageSt → PageSt) : State := { s with pages := put s.pages p (f (s.pageSt p)) }

def LineSt.init : LineSt := { lease := 0, present := false, dirty := false, lo := .invalid, hi := .invalid, reqLo := false, reqHi := false }

def State.line (s : State) (l : Nat) : LineSt := (get? s.lines l).getD LineSt.init

def State.modLine (s : State) (l : Nat) (f : LineSt → LineSt) : State := { s with lines := put s.lines l (f (s.line l)) }

/-- The byte of a sealed edition's page (R256, R259): its own frame, the datum, or the live page if it has not changed. -/
def Edition.byteAt (e : Edition) (r : Region) (liveByte : Byte) (dpa : Nat) : Byte :=
  match get? e.pages (pageOf dpa) with
  | some .unbacked => r.datumByte dpa
  | some (.frame _ _ _ bytes _) => cellAt bytes dpa
  | none => liveByte

/-- The byte that storage holds for an address of a region that is no view. -/
def State.liveByte (s : State) (r : Region) (dpa : Nat) : Byte :=
  if (s.pageSt (pageOf dpa)).backed then cellAt s.mem dpa else r.datumByte dpa

/-- The byte at its home (R182, R189, R265). -/
def State.stored (s : State) (dpa : Nat) : Byte :=
  match s.regionAt dpa with
  | none => cellAt s.mem dpa
  | some r =>
    match r.view with
    | none => s.liveByte r dpa
    | some (seq, src) =>
      match s.region? r.ctx src, s.editions.find? fun e => e.seq == seq with
      | some q, some e => e.byteAt q (s.liveByte q (dpa - r.base + q.base)) (dpa - r.base + q.base)
      | _, _ => 0

/-- The host's state of the half of an address, and whether an ownership request for it is in flight (R226). -/
def LineSt.half (l : LineSt) (dpa : Nat) : HostSt := if dpa / 64 % 2 = 0 then l.lo else l.hi
def LineSt.req (l : LineSt) (dpa : Nat) : Bool := if dpa / 64 % 2 = 0 then l.reqLo else l.reqHi
def LineSt.setHalf (l : LineSt) (dpa : Nat) (h : HostSt) : LineSt :=
  if dpa / 64 % 2 = 0 then { l with lo := h } else { l with hi := h }
def LineSt.setReq (l : LineSt) (dpa : Nat) (b : Bool) : LineSt :=
  if dpa / 64 % 2 = 0 then { l with reqLo := b } else { l with reqHi := b }

/-- What a device access finds at an address: the host's own bytes are returned and performed first (R227). -/
def State.coherent (s : State) (dpa : Nat) : Byte :=
  match (s.line (lineOf dpa)).half dpa with
  | .owned d => ((d.find? fun p => p.1 == dpa).map (·.2)).getD (s.stored dpa)
  | _ => s.stored dpa

def State.coherentNat (s : State) (dpa n : Nat) : Nat := leNat ((List.range n).map fun i => s.coherent (dpa + i))

/-- Whether a line of an aperture holds a non-datum byte or a tag (R187). -/
def State.lineNonDatum (s : State) (r : Region) (l : Nat) : Bool :=
  (List.range 128).any (fun i => cellAt s.mem (128 * l + i) != r.datumByte (128 * l + i))
    || (List.range 4).any fun j => (get? s.tags (4 * l + j)).getD 0 != 0

/-! ### Events for the host (R399–R401) -/

/-- An event is queued at its keeper. -/
def State.queueEvent (s : State) (e : Event) : State := { s with events := { s.events with held := s.events.held ++ [e] } }

/-- The bytes of an event record (R400). -/
def Event.bytes (e : Event) (now : Nat) : List Byte :=
  leBytes 8 now ++ leBytes 1 e.cls ++ leBytes 1 e.code ++ leBytes 2 e.ctx ++ leBytes 1 e.core ++ leBytes 1 e.slot ++ leBytes 2 0
    ++ leBytes 8 e.arg0.toNat ++ leBytes 8 e.arg1.toNat

/-! ### Copy-on-write (R259–R261) -/

/-- Whether an edition has written a page to its target: only then can it lose the page without failing (R261). -/
def Edition.wrote (e : Edition) (p : Nat) : Bool := e.written.contains p

/-- The page is lost to an edition (R261). -/
def Edition.lose (e : Edition) (p : Nat) : Edition :=
  match e.st with
  | .failed => e
  | _ => if e.wrote p then e else { e with st := .failed, reason := 1 }

/-- A page's frame as the editions keep it. -/
def State.frameOf (s : State) (id p : Nat) (toPool : Bool) : EdPage :=
  .frame id (s.pageSt p).far toPool (s.mem.filter fun c => c.1 / 4096 == p) (s.tags.filter fun t => t.1 / 128 == p)

/-- The number of the live edition as the homes of a die count it: a cut that they have not applied does not count yet (R255, R256). -/
def State.liveAt (s : State) (die : Nat) : Nat := s.live - (s.editions.filter fun e => !e.cut.contains die).length

/-- A sealed edition holds a page as it stands (R259). -/
def Edition.holds (e : Edition) (die cseq : Nat) : Bool := e.cut.contains die && decide (cseq ≤ e.seq)

/-- The sealed editions that hold a page as it stands. -/
def State.holders (s : State) (p : Nat) : List Edition :=
  s.editions.filter fun e => e.holds (dieOfDpa (4096 * p)) (s.pageSt p).cseq

/-- The first change of a page after a seal (R259): the sealed editions that hold the page keep its frame, or its unbacked
state; with the reserve empty they lose it. -/
def State.copyOnWrite (s : State) (p : Nat) : State :=
  match s.regionAt (4096 * p) with
  | none => s
  | some r =>
    let pg := s.pageSt p
    let d := dieOfDpa (4096 * p)
    if !r.ed || decide (s.liveAt d ≤ pg.cseq) then s
    else
      let holds := fun (e : Edition) => e.holds d pg.cseq
      let room := if pg.far then (s.die d).freeFar else (s.die d).freeNear
      let s :=
        if !s.editions.any holds then s
        else if !pg.backed then
          { s with editions := s.editions.map fun e => if holds e then { e with pages := put e.pages p .unbacked } else e }
        else if 0 < room then
          let (id, s) := s.take
          let f := s.frameOf id p false
          let s := s.modDie d fun m =>
            if pg.far then { m with freeFar := m.freeFar - 1 } else { m with freeNear := m.freeNear - 1 }
          let s := s.modPage p fun x => { x with filling := true }
          { s with editions := s.editions.map fun e => if holds e then { e with pages := put e.pages p f } else e }
        else
          let lost := s.editions.filter fun e => holds e && e.lose p != e
          let s := { s with editions := s.editions.map fun e => if holds e then e.lose p else e }
          lost.foldl (fun s e => s.queueEvent { cls := 6, code := 1, ctx := r.ctx, core := 0xFF, slot := 0xFF,
                                                arg0 := BitVec.ofNat 64 e.seq, arg1 := 0 }) s
      s.modPage p fun x => { x with cseq := s.liveAt d }

/-! ### Performing bytes -/

/-- A dirty line is written to its frame, and the line is recounted for NDL (R190). -/
def State.writeBackLine (s : State) (l : Nat) : State :=
  if !(s.line l).dirty then s
  else
    let s := s.modLine l fun x => { x with dirty := false }
    match s.regionAt (128 * l) with
    | some r =>
      if r.dat && (s.pageSt (pageOf (128 * l))).backed then
        let nd := s.lineNonDatum r l
        s.modPage (pageOf (128 * l)) fun p =>
          { p with nonDatum := if nd then p.nonDatum ||| BitVec.twoPow 32 (l % 32) else p.nonDatum &&& ~~~ BitVec.twoPow 32 (l % 32) }
      else s
    | none => s

/-- The heat of a backed auto frame rises with each L2 fill from it, up to 255 (R185). -/
def State.warm (s : State) (dpa : Nat) : State :=
  match s.regionAt dpa with
  | some r =>
    if r.place == 2 && (s.pageSt (pageOf dpa)).backed then s.modPage (pageOf dpa) fun p => { p with heat := min 255 (p.heat + 1) }
    else s
  | none => s

/-- Lines that an L2 slice holds: 2 MiB (R9). -/
def sliceLines : Nat := 16384

/-- The lines of the L2 slice at a home. -/
def State.slice (s : State) (home : Nat) : List Nat :=
  (s.lines.filter fun x => x.2.present && homeCore (128 * x.1) == home).map (·.1)

/-- A line stands in its home's L2 slice; where the slice is full, another leaves it, written back if it is dirty (R9, R18, R190). -/
def State.l2Fill (s : State) (l : Nat) : State :=
  if (s.line l).present then s
  else
    let mine := s.slice (homeCore (128 * l))
    let s := if mine.length < sliceLines then s
      else
        let v := mine.getD (Config.victim s.n (3 * l + 1) % mine.length) l
        (s.writeBackLine v).modLine v fun x => { x with present := false }
    (s.warm (128 * l)).modLine l fun x => { x with present := true }

/-- The lines of n bytes. -/
def linesIn (dpa n : Nat) : List Nat := (List.range ((n + dpa % 128 + 127) / 128)).map (lineOf dpa + ·)

/-- The lines of n bytes stand in the L2. -/
def State.l2Fills (s : State) (dpa n : Nat) : State := (linesIn dpa n).foldl (fun s l => s.l2Fill l) s

/-- Put bytes and a tag into storage, in one page: the lines stand in the L2 and become dirty, and a granule that is overwritten
whole loses its poison (R190, R410). -/
def State.putBytes (s : State) (dpa n : Nat) (f : Nat → Option Byte) (tag : Option (BitVec 4)) : State :=
  let s := { s with mem := setRange s.mem dpa n fun i => (f i).getD (cellAt s.mem (dpa + i)) }
  let whole := fun g => (List.range 32).all fun i =>
    decide (dpa ≤ 32 * g + i) && decide (32 * g + i < dpa + n) && (f (32 * g + i - dpa)).isSome
  let s := { s with poison := s.poison.filter fun g => !whole g }
  let s :=
    match tag with
    | some t => { s with tags := if t = 0 then del s.tags (dpa / 32) else put s.tags (dpa / 32) t }
    | none => s
  (linesIn dpa n).foldl (fun s l => (s.l2Fill l).modLine l fun l => { l with dirty := true }) s

/-- Take a frame of the pool for a page, near frames first, and fill it with the datum (R185, R189). -/
def State.reserve (s : State) (r : Region) (p : Nat) : State :=
  let far := decide (r.pool ≤ r.poolFar)
  let s := s.modRegion r.ctx r.idx fun r => { r with pool := r.pool - 1, poolFar := if far then r.poolFar - 1 else r.poolFar }
  let s := { s with mem := setRange s.mem (4096 * p) 4096 fun i => r.datumByte (4096 * p + i) }
  s.modPage p fun x => { x with backed := true, far := far, heat := 0, nonDatum := 0 }

/-- The GWCT of a perform (R218). -/
def State.gwctAt (s : State) (dpa n : Nat) : Nat := (linesIn dpa n).foldl (fun g l => max g (s.line l).lease) s.ns

/-- An access waits at a held page, behind the accesses already there (R192). -/
def State.queueHeld (s : State) (p : Nat) (who : Instr) : State :=
  if s.held.contains (p, who) then s else { s with held := s.held ++ [(p, who)] }

/-- A store event at a home (R188–R194, R256, R259), in one page, after the host has given up what it held: byte i becomes
`f i` where that is given, and the granule takes the tag.  Answers the GWCT, or none where the access is held; `who` is the
event that performs it.  Word 3 and the suspension for POOL follow in `State.afterStore`. -/
def State.storeAt (s : State) (who : Instr) (dpa n : Nat) (f : Nat → Option Byte) (tag : Option (BitVec 4)) :
    State × Option Nat :=
  let p := pageOf dpa
  let pg := s.pageSt p
  let g := s.gwctAt dpa n
  let writes := fun (old : Nat → Byte) (t : BitVec 4) =>
    (List.range n).any (fun i => (f i).any fun b => b != old (dpa + i)) || tag.any fun x => x != t
  if pg.held then (s.queueHeld p who, none)
  else
    match s.regionAt dpa with
    | none => (s.putBytes dpa n f none, some g)
    | some r =>
      let tag := if r.tag then tag else none
      if pg.backed then
        let s := if writes (cellAt s.mem) ((get? s.tags (dpa / 32)).getD 0) then s.copyOnWrite p else s
        (s.putBytes dpa n f tag, some g)
      else if !writes r.datumByte 0 then (s, some g)
      else if 0 < r.pool then ((((s.copyOnWrite p).reserve r p).putBytes dpa n f tag), some g)
      else if r.full then
        (s.modRegion r.ctx r.idx fun r => { r with drops := min (r.drops + 1) (2 ^ 24 - 1), sticky := true }, some s.ns)
      else
        let s := s.modRegion r.ctx r.idx fun r => { r with held := true }
        let s := s.modPage p fun x => { x with held := true }
        let s := s.modCtx r.ctx fun c => { c with poolHold := true }
        let s := s.queueEvent { cls := 4, code := 0, ctx := r.ctx, core := 0xFF, slot := 0xFF,
                                arg0 := BitVec.ofNat 64 r.idx, arg1 := BitVec.ofNat 64 (4096 * p) }
        (s.queueHeld p who, none)

/-- The base of the half of an address. -/
def halfOf (dpa : Nat) : Nat := dpa / 64 * 64

/-- A back-invalidation (R227): the host gives up the half, its bytes performed first; false where they are held. -/
def State.dropHalf (s : State) (dpa : Nat) : State × Bool :=
  match (s.line (lineOf dpa)).half dpa with
  | .invalid => (s, true)
  | .shared => (s.modLine (lineOf dpa) fun l => l.setHalf dpa .invalid, true)
  | .owned d =>
    let b := halfOf dpa
    let r := if d.isEmpty then (s, some 0)
      else s.storeAt (.hostWriteback b [] false) b 64 (fun i => (d.find? fun p => p.1 == b + i).map (·.2)) none
    match r with
    | (s, some _) => (s.modLine (lineOf dpa) fun l => l.setHalf dpa .invalid, true)
    | (s, none) => (s, false)

/-- The halves of n bytes. -/
def halvesOf (dpa n : Nat) : List Nat := (List.range ((n + dpa % 64 + 63) / 64)).map fun i => halfOf dpa + 64 * i

/-- A device access waits for the host (R227): its back-invalidation meets a request in flight for the line, or it is a store to
a half that the host has asked for. -/
def State.hostBlocks (s : State) (dpa n : Nat) (write : Bool) : Bool :=
  (halvesOf dpa n).any fun h =>
    let l := s.line (lineOf h)
    (l.half h != .invalid && (l.reqLo || l.reqHi)) || (write && l.req h)

/-- Back-invalidations of n bytes (R227); false where the host's own bytes are held. -/
def State.dropHalves (s : State) (dpa n : Nat) : State × Bool :=
  (halvesOf dpa n).foldl (fun acc h => let (t, ok) := acc.1.dropHalf h
                                       (t, acc.2 && ok)) (s, true)

/-- A strong store of the device itself, in one page, at system scope: what the host holds is taken back first.  It waits, as the event
`who`, for a request of the host in flight and behind held accesses (R192, R227).  Answers its GWCT where it is performed. -/
def State.deviceStore (s : State) (who : Instr) (dpa : Nat) (bytes : List Byte) : State × Option Nat :=
  if s.hostBlocks dpa bytes.length true then (s.queueHeld (pageOf dpa) who, none)
  else
    match s.dropHalves dpa bytes.length with
    | (s, false) => (s.queueHeld (pageOf dpa) who, none)
    | (s, true) => s.storeAt who dpa bytes.length (fun j => bytes[j]?) none

/-- Strong stores of the device itself (R141, R181, R389, R401): each page takes its part.  A part that must wait is performed later as
what it then is, an inbound write of those bytes. -/
def State.rawWrite (s : State) (dpa : Nat) (bytes : List Byte) : State :=
  let n := bytes.length
  (List.range ((n + dpa % 4096 + 4095) / 4096)).foldl (fun s i =>
    let lo := max dpa (4096 * (pageOf dpa + i))
    let part := (bytes.drop (lo - dpa)).take (4096 * (pageOf dpa + i + 1) - lo)
    (s.deviceStore (.pcieInboundDma lo part.length (some part)) lo part).1) s

/-- Word 3 of a region's table entry (R181). -/
def Region.word3 (r : Region) : Nat :=
  (if r.sticky then 2 ^ 63 else 0) + (if r.held then 2 ^ 62 else 0) + r.drops % 2 ^ 24 * 2 ^ 32 + r.pool % 2 ^ 32

/-- The controller writes word 3 after a change (R181). -/
def State.syncRegion (s : State) (ctx idx : Nat) : State :=
  match s.region? ctx idx with
  | some r => s.rawWrite ((s.ctx ctx).table + 32 * idx + 24) (leBytes 8 r.word3)
  | none => s

/-- A strong store of the device itself to n bytes of one page would be performed at once: nothing is held there, and no request of the
host is in the way (R192, R227). -/
def State.storesNow (s : State) (dpa n : Nat) : Bool := !(s.pageSt (pageOf dpa)).held && !s.hostBlocks dpa n true

/-- The keepers post the events that the queue has room for, oldest first: the record, then TAIL, then the MSI, which waits until both are
performed (R401). -/
def State.postEvents (s : State) : State :=
  let room := fun (s : State) =>
    s.events.set && decide ((s.events.tail + 2 ^ 32 - s.coherentNat (s.events.base + 0x40) 4) % 2 ^ 32 < 2 ^ s.events.log)
      && s.storesNow (s.events.base + 0x80 + 32 * (s.events.tail % 2 ^ s.events.log)) 32 && s.storesNow s.events.base 8
  s.events.held.foldl (fun s e =>
    if s.events.held.head? = some e && room s then
      let k := s.events.tail
      let s := s.rawWrite (s.events.base + 0x80 + 32 * (k % 2 ^ s.events.log)) (e.bytes s.ns)
      let s := { s with events := { s.events with tail := (k + 1) % 2 ^ 32, held := s.events.held.tail } }
      let s := s.rawWrite s.events.base (leBytes 8 ((k + 1) % 2 ^ 32))
      let w := (s.events.routes.getD (e.cls - 1) 0).toNat
      if w.testBit 31 then
        let m := (w / 2 ^ 16 % 32, w / 2 ^ 21 % 16, w % 2 ^ 11)
        if s.imsic.contains m then s else { s with imsic := s.imsic ++ [m] }
      else s
    else s) s

/-- Post an event, behind those that its keeper already holds. -/
def State.post (s : State) (e : Event) : State := (s.queueEvent e).postEvents

end Sys2Proof.Machine
end

