-- ==== Sys2Proof/Machine/Collective.lean ====
section
/-! DEFINITION. Mask-waits and lane collectives of a group (R38–R46): who is released, which arrivals belong together, and
the membership-mismatch and convergence-deadlock traps. -/

namespace Sys2Proof.Machine

/-! ### Mask-waits (R41) -/

/-- Waiters of `k` that no evaluation has released yet. -/
def Group.waiters (g : Group) (k : Nat) : Mask := maskOf fun i => (g.thread i).st == .maskWait k 0

/-- Threads in Mask-wait on `k`, released ones counted. -/
def Group.waitingOn (g : Group) (k : Nat) : Mask :=
  maskOf fun i =>
    match (g.thread i).st with
    | .maskWait j _ => j == k
    | _ => false

/-- The threads that an evaluation of `k` releases (R41). -/
def Group.releasable (g : Group) (k : Nat) : Mask :=
  let w := g.waiters k
  if g.maskReg k &&& ~~~ g.waitingOn k = 0 then w else w &&& ~~~ g.maskReg k

/-- The smallest path counter of a set of threads. -/
def Group.minPath (g : Group) (m : Mask) : BitVec 16 :=
  BitVec.ofNat 16 ((lanesOf m).foldl (fun x i => min x (g.thread i).path.toNat) 0xFFFF)

/-- An evaluation of `k` (R41): the released threads are marked, and their path counters set. -/
def Group.release (g : Group) (k mark : Nat) : Group :=
  let r := g.releasable k
  let p := if r = g.liveMask then 0 else g.minPath r
  g.onThreads r fun _ t => { t with st := .maskWait k mark, path := p }

/-! ### Lane collectives (R43, R46) -/

/-- The arrivals that have not completed. -/
def Group.open (g : Group) : List Arrival := g.arrivals.filter fun a => a.mark == 0

/-- The open arrivals, with their supplied masks, the bits of exited threads cleared. -/
def Group.opens (g : Group) : List (Arrival × Mask) :=
  let live := g.liveMask
  g.open.map fun a => (a, a.supplied &&& live)

/-- The lanes of a list of arrivals. -/
def arrivedLanes (l : List Arrival) : Mask := l.foldl (fun m a => m ||| laneBit a.lane) 0

/-- One step of the closure: the arrivals that a set names, or that name one of the set. -/
def closeOnce (l : List (Arrival × Mask)) (arrived c : Mask) : Mask :=
  l.foldl (fun m a => if has c a.1.lane || a.2 &&& c != 0 then m ||| laneBit a.1.lane ||| (a.2 &&& arrived) else m) c

/-- Its closure, in n steps at most. -/
def closeAll (l : List (Arrival × Mask)) (arrived : Mask) : Nat → Mask → Mask
  | 0, c => c
  | n + 1, c => let d := closeOnce l arrived c; if d = c then c else closeAll l arrived n d

/-- The arrivals that belong with a lane's: those tied to it by naming one another (R43). -/
def tiedTo (l : List (Arrival × Mask)) (lane : Nat) : List (Arrival × Mask) :=
  let c := closeAll l (arrivedLanes (l.map (·.1))) 64 (laneBit lane)
  l.filter fun a => has c a.1.lane

def Group.together (g : Group) (lane : Nat) : List (Arrival × Mask) := tiedTo g.opens lane

/-- Every thread that the arrivals name has arrived or exited (R46). -/
def allArrived (l : List (Arrival × Mask)) : Bool :=
  (l.foldl (fun m a => m ||| a.2) 0) &&& ~~~ arrivedLanes (l.map (·.1)) == 0

/-- Two collectives agree in opcode and modifiers (R43). -/
def sameCollective : Instr → Instr → Bool
  | .shfl f, .shfl h => f.ty == h.ty && f.sub == h.sub && f.rnd == h.rnd
  | .shflx f, .shflx h => f.ty == h.ty && f.mode == h.mode && f.wid == h.wid
  | .bcast f, .bcast h => f.ty == h.ty && f.sub == h.sub && f.rnd == h.rnd
  | .vote f, .vote h => f.ty == h.ty && f.sub == h.sub && f.rnd == h.rnd
  | .redux f, .redux h => f.ty == h.ty && f.sub == h.sub && f.rnd == h.rnd
  | .fredux f, .fredux h => f.ty == h.ty && f.sub == h.sub && f.rnd == h.rnd
  | .scan f, .scan h => f.ty == h.ty && f.sub == h.sub && f.rnd == h.rnd
  | .laneMatch f, .laneMatch h => f.ty == h.ty && f.sub == h.sub && f.rnd == h.rnd
  | _, _ => false

/-- The arrivals agree in mask, opcode and modifiers (R43, R46). -/
def agree (l : List (Arrival × Mask)) : Bool :=
  match l with
  | [] => true
  | a :: t => t.all fun b => b.2 == a.2 && sameCollective a.1.instr b.1.instr

/-- Lanes whose collective has all its members: it completes, or its members disagree. -/
def Group.decided (g : Group) : List Nat :=
  let l := g.opens
  (l.map (·.1.lane)).filter fun i => allArrived (tiedTo l i)

/-! ### Traps of the group (R42, R46) -/

/-- Every live thread is blocked for R42. -/
def Group.blocked (g : Group) : Bool :=
  g.liveMask != 0 && (lanesOf g.liveMask).all fun i =>
    match (g.thread i).st with
    | .maskWait _ released => released == 0
    | .collWait _ => g.open.any fun a => a.lane == i
    | _ => false

/-- R42: every live thread blocked, and no evaluation or completion can release any. -/
def Group.deadlocked (g : Group) : Bool :=
  g.blocked && (List.range 12).all (fun k => g.releasable k == 0) && g.decided.isEmpty

/-- The trap words of a membership mismatch (R46): the arrived mask, and of each arrived thread, lowest lane first, the supplied
mask, the instruction word and its code pointer (their order: log 14). -/
def mismatchWords (l : List Arrival) : List Word64 :=
  arrivedLanes l :: (lanesOf (arrivedLanes l)).flatMap fun i =>
    match l.find? fun a => a.lane == i with
    | some a => [a.supplied, (encode a.instr).getD 0, a.pc]
    | none => []

/-- The trap words of a convergence deadlock (R42): the twelve masks, and each thread's status word, which holds its state and
the mask register that it waits on (their order: log 14). -/
def Group.deadlockWords (g : Group) : List Word64 :=
  ((List.range 12).map g.maskReg) ++ (List.range 64).map fun i => BitVec.ofNat 64 (g.thread i).status

/-- The membership-mismatch trap and the convergence-deadlock trap, where they are due (R42, R46). -/
def Core.checkGroup (c : Core) (slot : Nat) : Core :=
  match get? c.groups slot with
  | none => c
  | some g =>
    match g.decided.find? fun i => !agree (g.together i) with
    | some i =>
      let l := g.together i
      c.trap slot 0x04 0 (g.thread i).pc (mismatchWords (l.map (·.1)))
    | none =>
      if g.deadlocked then c.trap slot 0x05 0 (g.thread (lowLane g.liveMask)).pc g.deadlockWords else c

/-- Operations that are accesses of their threads, for which a fence waits (R209): not the engines' (R235), nor waits. -/
def OpKind.access : OpKind → Bool
  | .simple | .bank _ _ _ _ | .load _ _ _ _ _ | .store | .atom _ _ _ _ _ | .writeBack _ _ | .survey _ _ _ | .probe _ | .discard _ => true
  | _ => false

/-- An access of which only remote parts are outstanding: a fence narrower than `.system` does not wait for it (R384). -/
def OpKind.remoteOnly : OpKind → Bool
  | .load _ _ _ _ accs =>
    let left := accs.filter fun a => a.todo != 0
    !left.isEmpty && left.all fun a => isLink a.dpa
  | .atom _ _ _ _ reqs =>
    let left := reqs.filter fun q => !q.done
    !left.isEmpty && left.all fun q => isLink q.dpa
  | .store => true
  | _ => false

/-- Accesses of some lanes that came before `bound` have reached the points of R209: operations complete, stores acknowledged;
remote ones only count for a `.system` fence (R230, R384). -/
def Core.settled (c : Core) (slot : Nat) (m : Mask) (bound : Nat) (system : Bool) : Bool :=
  c.ops.all (fun o => !(o.slot == slot && decide (o.id < bound) && (o.lanes &&& m) != 0 && o.kind.access && (system || !o.kind.remoteOnly))) &&
  match get? c.groups slot with
  | none => true
  | some g => g.stores.all fun r =>
      !(decide (r.id < bound) && has m r.lane && (system || !(isLink r.dpa || isHostDie r.dpa)))

end Sys2Proof.Machine
end

