-- ==== Sys2Proof/Machine/Translate.lean ====
section
/-! DEFINITION. Translation (R174–R177, R180) and the fetching of code (R64, R65, R72–R74). -/

namespace Sys2Proof.Machine

/-- What an access needs of its page (R175). -/
inductive Need
  | load | store | fetch
  deriving DecidableEq, Repr

/-- The virtual address that is translated, bits 56–0 (R174). -/
def vaBits (x : Word64) : Nat := x.toNat % 2 ^ 57

/-- The memory tag of a pointer (R174, R199). -/
def tagOf (x : Word64) : BitVec 4 := (x >>> 57).setWidth 4

def pteBit (pte i : Nat) : Bool := pte.testBit i
def ptePpn (pte : Nat) : Nat := pte / 2 ^ 10 % 2 ^ 44

/-- The walk of an Sv57 table of `l` levels from the table in frame `table`: the address of the leaf entry, the entry and its
level, or the cause of R176.  V = 0 is cause 1; a reserved encoding (N in an entry that is no leaf among them), or a page number outside
R178's space, is cause 4. -/
def State.walk (s : State) (va : Nat) : Nat → Nat → Except Nat (Nat × Nat × Nat)
  | 0, _ => .error 4
  | l + 1, table =>
    let a := 4096 * table + 8 * (va / 2 ^ (12 + 9 * l) % 512)
    let pte := s.coherentNat a 8
    if !pteBit pte 0 then .error 1
    else if (pteBit pte 2 && !pteBit pte 1) || pte / 2 ^ 54 % 128 != 0 || decide (2 ^ 37 ≤ ptePpn pte) then .error 4
    else if pteBit pte 1 || pteBit pte 3 then .ok (a, pte, l)
    else if pteBit pte 63 then .error 4
    else s.walk va l (ptePpn pte)

/-- The address that a leaf gives (R175): 4 KiB and 64 KiB at level 0, 2 MiB at level 1, 1 GiB at level 2. -/
def leafDpa (va pte l : Nat) : Except Nat Nat :=
  let ppn := ptePpn pte
  let n := pteBit pte 63
  if l = 0 ∧ n then if ppn % 16 = 8 then .ok (ppn / 16 * 2 ^ 16 + va % 2 ^ 16) else .error 4
  else if n || decide (2 < l) || ppn % 2 ^ (9 * l) != 0 then .error 4
  else .ok (ppn * 4096 + va % 2 ^ (12 + 9 * l))

/-- Permission (R175). -/
def pteAllows (pte : Nat) : Need → Bool
  | .load => pteBit pte 1
  | .store => pteBit pte 1 && pteBit pte 2
  | .fetch => pteBit pte 3

/-- The entry with A, and for a store D, set (R175). -/
def pteUsed (pte : Nat) (need : Need) : Nat := pte ||| 2 ^ 6 ||| (if need = .store then 2 ^ 7 else 0)

/-- Whether a memory-space address lies in no valid region of a context (R180). -/
def State.outside (s : State) (ctx dpa : Nat) : Bool := decide (dpa < 2 ^ 48) && !s.regions.any fun r => r.ctx == ctx && r.covers dpa

/-- A walk of a context's tables: the address, the leaf entry's address, the entry as it becomes; or the cause (R176). -/
def State.lookup (s : State) (ctx va : Nat) (need : Need) : Except Nat (Nat × Nat × Nat) :=
  match s.walk va 5 (s.ctx ctx).root with
  | .error c => .error c
  | .ok (a, pte, l) =>
    if !pteBit pte 4 then .error 4
    else
      match leafDpa va pte l with
      | .error c => .error c
      | .ok dpa =>
        if !pteAllows pte need then .error 2
        else if s.outside ctx dpa then .error 3
        else .ok (dpa, a, pteUsed pte need)

/-- Translation by an engine, the canal engine or a keeper, which caches nothing: A and D are set at the entry's home. -/
def State.translateAt (s : State) (ctx va : Nat) (need : Need) : Except Nat (State × Nat) :=
  match s.lookup ctx va need with
  | .error c => .error c
  | .ok (dpa, a, pte) => .ok (if s.coherentNat a 8 = pte then s else s.rawWrite a (leBytes 8 pte), dpa)

/-- Whether a cached translation serves a need; an entry whose D was not set serves no store (R175, R177). -/
def TlbEntry.serves (t : TlbEntry) (ctx vpage : Nat) (need : Need) : Bool :=
  t.ctx == ctx && t.vpage == vpage && match need with
    | .load => t.r
    | .store => t.r && t.w
    | .fetch => t.x

/-- Translation by a core (R174–R177, R180): a cached translation may be used, invalid entries are not cached.  Where it agrees with a
walk that changes no table word, nothing hangs on which is used. -/
def State.translate (s : State) (core ctx : Nat) (x : Word64) (need : Need) : Except Nat (State × Nat) :=
  let va := vaBits x
  let hit := (s.core core).tlb.find? fun t => t.serves ctx (va / 4096) need
  let walk : Except Nat (State × Nat) :=
    match s.lookup ctx va need with
    | .error c => .error c
    | .ok (dpa, a, pte) =>
      let s := if s.coherentNat a 8 = pte then s else s.rawWrite a (leBytes 8 pte)
      let e : TlbEntry := { ctx, vpage := va / 4096, dpage := dpa / 4096, r := pteBit pte 1, w := pteBit pte 2 && pteBit pte 7,
                            x := pteBit pte 3 }
      .ok (s.modCore core fun c => { c with tlb := e :: c.tlb.filter fun t => !(t.ctx == ctx && t.vpage == va / 4096) }, dpa)
  match hit with
  | none => walk
  | some t =>
    let dpa := 4096 * t.dpage + va % 4096
    let agrees := match s.lookup ctx va need with
      | .ok (d, a, pte) => d == dpa && s.coherentNat a 8 == pte
      | .error _ => false
    if agrees then .ok (s, dpa)
    else if Config.useTlb s.n (va / 4096) then
      if s.outside ctx dpa then .error 3 else .ok (s, dpa)
    else walk

/-! ### Code -/

/-- What the fetch of a clause's words gives. -/
inductive Fetch
  /-- The page does not translate for a code fetch, with the cause of R176. -/
  | fault (cause : Nat)
  /-- The words from the header to the end of its fetch line. -/
  | words (s : State) (ws : List Word64)

/-- The 16 words of a fetch line at the homes (R64). -/
def State.lineWords (s : State) (line : Nat) : List Word64 :=
  (List.range 16).map fun i => BitVec.ofNat 64 (s.coherentNat (128 * line + 8 * i) 8)

/-- Lines of an instruction cache: 64 KiB (R12). -/
def icacheLines : Nat := 512

/-- A fetch line stands in the instruction cache; where the cache is full, another leaves it (R12; log 9). -/
def Core.icacheFill (c : Core) (n l : Nat) (ws : List Word64) : Core :=
  let others := (c.icache.map (·.1)).filter (· != l)
  let c := if others.length < icacheLines then c
    else { c with icache := del c.icache (others.getD (Config.victim n (3 * l + 2) % others.length) 0) }
  { c with icache := put c.icache l ws }

/-- Fetch a clause from its header's address (R64, R65): from a fetch line that the instruction cache holds, or anew. -/
def State.fetchClause (s : State) (core ctx : Nat) (hdr : Word64) : Fetch :=
  match s.translate core ctx (headerOf hdr) .fetch with
  | .error c => .fault c
  | .ok (s, dpa) =>
    let l := lineOf dpa
    let fresh := s.lineWords l
    let ws :=
      match get? (s.core core).icache l with
      | some ws => if ws = fresh then fresh else if Config.useICache s.n l then ws else fresh
      | none => fresh
    .words (s.modCore core fun c => c.icacheFill s.n l ws) (ws.drop (dpa % 128 / 8))

/-- SIG of a word (R66). -/
def hasSig (w : Word64) : Bool := w.toNat / 2 ^ 56 == 0xFE

/-- R72: COUNT, CLASS, SETA and SETB, the reserved bits, and the end of the fetch line; `room` is the number of words from
the header to that end. -/
def headerOk (h : Word64) (room : Nat) : Bool :=
  let cls := h.toNat / 2 ^ 53 % 8
  let okSet := fun f => if cls = 0 ∨ cls = 5 then f == 15 else decide (f < 12) || f == 15
  countOf h != 0 && cls != 7 && okSet (setaOf h) && okSet (setbOf h) && h.toNat % 2 ^ 28 == 0 && decide (1 + countOf h ≤ room)

/-- CLASS of a header (R67). -/
def classOf (h : Word64) : Nat := h.toNat / 2 ^ 53 % 8

/-- The check of a branch target (R74): valid, invalid, or a header address that does not translate, with the cause. -/
inductive TargetCheck
  | valid (s : State)
  | invalid
  | fault (cause : Nat)

def State.checkTarget (s : State) (core ctx : Nat) (pc : Word64) : TargetCheck :=
  match s.fetchClause core ctx pc with
  | .fault c => .fault c
  | .words s ws =>
    let h := ws.headD 0
    if hasSig h && headerOk h ws.length && decide (slotOf pc ≤ countOf h) then .valid s else .invalid

end Sys2Proof.Machine
end

