-- ==== Sys2Proof/Machine/Context.lean ====
section
/-! DEFINITION. Contexts (R117–R126), the states of kernels and canals as they stand in memory (R134, R141), the group record
(R159, R160), and the suspension and the fault of a context (R121, R123, R124). -/

namespace Sys2Proof.Machine

/-! ### Engine reads and writes at virtual addresses of a context -/

/-- Write bytes at a virtual address of a context, with strong stores at system scope; none where it does not translate. -/
def State.putVa (s : State) (ctx va : Nat) (bytes : List Byte) : Option State :=
  match s.translateAt ctx va .store with
  | .ok (s, dpa) => some (s.rawWrite dpa bytes)
  | .error _ => none

/-- Read n bytes at a virtual address of a context; none where it does not translate. -/
def State.getVa (s : State) (ctx va n : Nat) : Option Nat :=
  match s.lookup ctx va .load with
  | .ok (dpa, _, _) => some (s.coherentNat dpa n)
  | .error _ => none

/-- The word at a virtual address as it is performed at its home, where the canal engine watches links, TAIL and wait words: what a hart
still holds in an Owned half does not count (R129, R131).  A word that lies in a link region or in host-die space reads as plain storage,
which no rule gives; one that is not aligned is read at eight consecutive addresses of its first byte's page (log 17). -/
def State.peekVa (s : State) (ctx va : Nat) : Option Nat :=
  match s.lookup ctx va .load with
  | .ok (dpa, _, _) => some (leNat ((List.range 8).map fun i => s.stored (dpa + i)))
  | .error _ => none

/-! ### Kernels and canals -/

def State.kernel? (s : State) (k : Nat) : Option Kernel := get? s.kernels k

def State.modKernel (s : State) (k : Nat) (f : Kernel → Kernel) : State :=
  match s.kernel? k with
  | some x => { s with kernels := put s.kernels k (f x) }
  | none => s

/-- KST of R141. -/
def KernelSt.code : KernelSt → Nat
  | .enqueued => 0
  | .waiting => 1
  | .dispatching => 2
  | .running => 3
  | .draining => 4
  | .complete => 5
  | .faulted => 6
  | .aborted => 7

/-- The STATUS word (R141). -/
def statusWord (st : KernelSt) (kcode : Nat) : Nat := 256 * kcode + st.code

/-- A kernel changes state: STATUS is written, where it still can be, and the kernel is in the new state once the write is performed; a
write held at its home is performed by the kernel's own event (R141, R142, R192). -/
def State.setKernel (s : State) (k : Nat) (st : KernelSt) (kcode : Nat) : State :=
  match s.kernel? k with
  | none => s
  | some x =>
    match s.translateAt x.ctx (vaBits x.barge + 0x38) .store with
    | .error _ => s.modKernel k fun x => { x with st := st, kcode := kcode, due := none }
    | .ok (s, dpa) =>
      let bytes := leBytes 8 (statusWord st kcode)
      match s.deviceStore (.kernelComplete k) dpa bytes with
      | (s, some g) => s.modKernel k fun x => { x with st := st, kcode := kcode, due := none, gwct := max x.gwct g }
      | (s, none) => s.modKernel k fun x => { x with due := some (st, kcode) }

/-- ST of R127. -/
def CanalSt.code : CanalSt → Nat
  | .empty => 0
  | .linking => 1
  | .waiting => 2
  | .eligible => 3
  | .dispatching => 4
  | .held => 5
  | .faulted => 6

def State.canal? (s : State) (c : Nat) : Option Canal := get? s.canals c

/-- The STATE word (R127). -/
def Canal.stateWord (c : Canal) : Nat := (if c.st = .faulted then c.fcode * 2 ^ 16 else 0) + c.hprio * 2 ^ 8 + c.st.code

/-- A canal changes: the engine half of its record is written where it changes, CURSOR, then TAKEN, then STATE (R129). -/
def State.setCanal (s : State) (n : Nat) (c : Canal) : State :=
  match s.canal? n with
  | none => s
  | some old =>
    let r := vaBits c.record
    let w := fun (s : State) off (b : Bool) x => if b then (s.putVa c.ctx (r + off) (leBytes 8 x)).getD s else s
    let s := w s 0x48 (old.cursor != c.cursor) c.cursor.toNat
    let s := w s 0x58 (old.taken != c.taken) c.taken
    let s := w s 0x50 (old.stateWord != c.stateWord) c.stateWord
    { s with canals := put s.canals n c }

/-- The keys of a table. -/
def keysOf {α : Type} (m : SMap α) : List Nat := m.map (·.1)

/-- Every canal of a context that is not Faulted becomes Held (R134). -/
def State.holdCanals (s : State) (ctx : Nat) : State :=
  (keysOf s.canals).foldl (fun s n =>
    match s.canal? n with
    | some c => if c.ctx == ctx && c.st != .faulted then s.setCanal n { c with st := .held } else s
    | none => s) s

/-! ### The group record (R159, R160) -/

/-- INFO (R159). -/
def Group.info (g : Group) (core slot : Nat) : Nat :=
  g.ctx * 2 ^ 54 + core * 2 ^ 46 + slot * 2 ^ 41 + g.quota * 2 ^ 32 + g.trap.code * 2 ^ 24

def zeros (n : Nat) : List Byte := List.replicate n 0

def rowBytes (r : Row) : List Byte := (List.range 64).flatMap fun i => leBytes 4 (rowAt r i).toNat

/-- The flag counts word. -/
def Group.flagWord (g : Group) : Nat := (List.range 12).foldl (fun x f => x + g.flag f % 16 * 16 ^ f) 0

/-- The group record, 4,096 + 256 × quota bytes (R159). -/
def Group.record (g : Group) (core slot : Nat) : List Byte :=
  leBytes 8 (g.info core slot) ++ leBytes 8 g.flagWord ++ leBytes 8 g.trap.addr.toNat
    ++ ((List.range 5).flatMap fun i => leBytes 8 (g.trap.words.getD i 0).toNat)
    ++ ((List.range 12).flatMap fun k => leBytes 8 (g.maskReg k).toNat) ++ zeros 96
    ++ ((List.range 64).flatMap fun n => leBytes 8 (g.greg n).toNat)
    ++ ((List.range 64).flatMap fun i => leBytes 8 (g.thread i).pc.toNat)
    ++ ((List.range 64).flatMap fun i => leBytes 4 (g.thread i).status)
    ++ ((List.range 8).flatMap fun n => rowBytes (rowOf g.q n)) ++ rowBytes (rowOf g.l 0) ++ rowBytes (rowOf g.l 1)
    ++ (List.range g.quota).flatMap fun n => rowBytes (rowOf g.v n)

/-- The records that stand in a context's save area: address and length. -/
def State.savedRanges (s : State) (ctx : Nat) : List (Nat × Nat) :=
  s.cores.flatMap fun c =>
    (c.2.groups.filterMap fun g => if g.2.ctx == ctx then g.2.savedAt.map fun x => (x.1, x.2.1) else none)
      ++ c.2.teams.filterMap fun t => if t.2.ctx == ctx then t.2.savedAt else none

/-- The place of a new record in a context's save area: the lowest that meets no record there (log 11). -/
def State.savePlace (s : State) (ctx len : Nat) : Option Nat :=
  let c := s.ctx ctx
  let used := s.savedRanges ctx
  let fits := fun (a : Nat) => decide (a + len ≤ c.saveBase + c.saveSize)
    && used.all fun u => decide (a + len ≤ u.1) || decide (u.1 + u.2 ≤ a)
  (sortBy (fun a b => decide (a ≤ b)) (c.saveBase :: used.map fun u => u.1 + u.2)).find? fits

/-- The core writes a group's record into the save area of its context (R124, R161); a group saved again keeps its place. -/
def State.saveRecord (s : State) (core slot : Nat) : State :=
  match s.group? core slot with
  | none => s
  | some g =>
    let r := g.record core slot
    match g.savedAt.map (·.1) <|> s.savePlace g.ctx r.length with
    | some a => (s.rawWrite a r).modGroup core slot fun g => { g with savedAt := some (a, r.length, g.flagWord) }
    | none => s

/-- A save waits until every pending register write is done, and until released waiters and completed collectives have left
(R160). -/
def Core.quiet (c : Core) (slot : Nat) : Bool :=
  c.ops.all (fun o => !(o.slot == slot && (o.gdst.isSome || o.writes.any fun w => w.lanes != 0))) &&
  match get? c.groups slot with
  | none => true
  | some g => g.arrivals.all (fun a => a.mark == 0) && g.threads.all fun t =>
      match t.st with
      | .maskWait _ r => r == 0
      | _ => true

/-- A save cancels the collectives in progress: their threads are saved as Ready at the collective (R160).  No earlier access serves a load
after it (R204). -/
def Group.cancelColl (g : Group) : Group :=
  let g := g.onThreads allLanes fun _ t =>
    match t.st with
    | .collWait _ => { t with st := .ready }
    | _ => t
  { g with arrivals := [], recent := [] }

/-! ### Groups of a context -/

/-- Change every group of a context, on every core. -/
def State.mapGroups (s : State) (ctx : Nat) (f : Group → Group) : State :=
  { s with cores := s.cores.map fun c =>
      (c.1, { c.2 with groups := c.2.groups.map fun p => (p.1, if p.2.ctx == ctx then f p.2 else p.2) }) }

/-- Whether every group of a context satisfies p. -/
def State.allGroups (s : State) (ctx : Nat) (p : Group → Bool) : Bool :=
  s.cores.all fun c => c.2.groups.all fun g => !(g.2.ctx == ctx) || p g.2

/-- A group that is not yet Exited stops at an instruction boundary, for a suspension, a fault of its context or a precise stop:
whatever its state was, it becomes Pre-empted (R51, R124, R149).  One that was Swapped out no longer waits for what had taken it
out: its instruction issues again. -/
def Group.preempt (g : Group) (h : Halt) : Group :=
  if g.gst = .exited then g
  else
    let g := match g.hold with
      | .pageFault _ | .debug _ => g.endHold
      | _ => g
    { g.takeTrap with halt := h }

/-- A Running context with a hold reason becomes Suspended (R121, R124): its groups stop, its canals are Held. -/
def State.suspendCtx (s : State) (ctx : Nat) : State :=
  if (s.ctx ctx).state = .running then
    let s := s.modCtx ctx fun c => { c with state := .suspended }
    (s.mapGroups ctx (Group.preempt · (.suspended false))).holdCanals ctx
  else s

/-- Word 3 of every region that an access changed is written, and contexts that took the POOL reason are suspended; events
are posted (R181, R192, R401). -/
def State.afterStore (s old : State) : State :=
  let s := s.regions.foldl (fun s r =>
    match old.region? r.ctx r.idx with
    | some q => if q.word3 = r.word3 then s else s.syncRegion r.ctx r.idx
    | none => s) s
  let s := (keysOf s.ctxs).foldl (fun s c => if (s.ctx c).poolHold then s.suspendCtx c else s) s
  s.postEvents

/-! ### Faults of a context (R123, R142) -/

/-- The context that an access waiting at a held page belongs to, where it is a core's. -/
def State.heldCtx (s : State) : Instr → Option Nat
  | .homeStoreRequest core slot _ _ => (s.group? core slot).map (·.ctx)
  | .homeAtomicRequest core op _ => ((s.core core).op? op).map (·.ctx)
  | .homeFillRequest core op _ _ => ((s.core core).op? op).map (·.ctx)
  | .copyByteDelivery core op _ | .operationComplete core op => ((s.core core).op? op).map (·.ctx)
  | _ => none

/-- Drop a held access from where it came from: a store from its buffer, an atomic's request, or the operation of an engine, of a
`LAUNCH` or of a `STAMP`, whose piece it was. -/
def State.dropHeld (s : State) : Instr → State
  | .homeStoreRequest core slot id _ => s.modGroup core slot fun g => { g with stores := g.stores.filter fun r => r.id != id }
  | .homeAtomicRequest core op addr =>
    s.modCore core fun c => c.modOp op fun o => { o with kind := o.kind.modReq addr fun q => { q with done := true } }
  | .operationComplete core op => s.modCore core fun c => c.finishOp op
  | _ => s

/-- Whether an end of a copy's row is global memory. -/
def End.global : End → Bool
  | .glob _ => true
  | .loc _ _ _ => false

/-- The store, atomic or reduction that a held access is, so that the pieces of one are one; none for a read (R192, R193). -/
def State.heldStoreId (s : State) (h : Nat × Instr) : Option (Nat × Nat × Nat) :=
  match h.2 with
  | .homeStoreRequest core slot id _ => some (core, slot, id)
  | .homeAtomicRequest core op addr => some (core, op, addr)
  | .hostWriteback half _ _ => some (256, half, 0)
  | .kernelComplete k => some (257, k, 0)
  | .operationComplete core op =>
    match (s.core core).op? op with
    | some o =>
      match o.kind with
      | .bank _ _ _ _ => none
      | k => if k.evaluator then none else some (core, op, 0)
    | none => none
  | .pcieInboundDma dpa n w => if w.isSome then some (258, dpa, n) else none
  | .linkInboundRequest peer _ dpa a => match a with
    | .read _ => none
    | _ => some (259, peer, dpa)
  | .copyByteDelivery core op _ =>
    match ((s.core core).op? op).map (fun (o : Op) => o.kind) with
    | some (.copy y) => if y.dst.global && y.dstPage == some h.1 then some (core, op, 0) else none
    | _ => none
  | _ => none

/-- The held stores of a context are discarded (R123, R125); the number of them. -/
def State.discardHeld (s : State) (ctx : Nat) : State × Nat :=
  let mine := s.held.filter fun h => s.heldCtx h.2 == some ctx
  let n := (mine.filterMap s.heldStoreId).eraseDups.length
  let s := mine.foldl (fun s h => s.dropHeld h.2) s
  ({ s with held := s.held.filter fun h => !mine.contains h }, n)

/-- Kernels of a context in Dispatching, Running or Draining. -/
def Kernel.going (k : Kernel) : Bool := k.st == .dispatching || k.st == .running || k.st == .draining

/-- A context becomes Faulted (R123): its groups halt, its held stores are discarded and counted, `kernel` becomes Faulted with KCODE,
every other going kernel Aborted with 0x30 (R142), and the class 9 event is posted.  With no kernel named, as at a thermal stop, the
oldest that is going is the one that becomes Faulted.  `record` is the fault record.  The count of the discarded stores stands in
`Ctx.discards`, which no command returns: the six words of R122 have no place for it.  Both are the model's choice (log 12). -/
def State.faultCtx (s : State) (ctx kcode : Nat) (kernel : Option Nat) (record : List Word64) (core slot : Nat) : State :=
  let st := (s.ctx ctx).state
  if st = .running ∨ st = .suspended then
    let s := s.modCtx ctx fun c => { c with state := .faulted, fault := record }
    let s := s.mapGroups ctx (Group.preempt · (.suspended true))
    let (s, n) := s.discardHeld ctx
    let s := s.modCtx ctx fun c => { c with discards := c.discards + n }
    let first := kernel <|> ((s.kernels.filter fun k => k.2.ctx == ctx && k.2.going).map (·.1)).head?
    let s := (keysOf s.kernels).foldl (fun s k =>
      match s.kernel? k with
      | some x =>
        if x.ctx == ctx && x.going then
          (if first = some k then s.setKernel k .faulted kcode else s.setKernel k .aborted 0x30)
        else s
      | none => s) s
    let s := s.holdCanals ctx
    let barge := (first.bind s.kernel?).map (·.barge)
    s.post { cls := 9, code := kcode, ctx := ctx, core := core, slot := slot, arg0 := barge.getD 0, arg1 := 0 }
  else s

end Sys2Proof.Machine
end

