-- ==== Sys2Proof/Machine/Numerics.lean ====
section
/-! DEFINITION. Number formats and arithmetic (R95–R112): exact values, decoding, rounding into each format, exact sums,
and the functions of the SFU. -/

namespace Sys2Proof.Machine

/-- The value of a floating operand: a finite value is (−1)^neg × m × 2^e. -/
inductive FVal
  | nan
  | inf (neg : Bool)
  | fin (neg : Bool) (m : Nat) (e : Int)
  deriving DecidableEq, Repr

/-! ### The IEEE formats (R97) -/

/-- Widths of exponent and fraction. -/
structure Ieee where
  ew : Nat
  fw : Nat

def ieeeOf : Ty → Ieee
  | .f16 => { ew := 5, fw := 10 }
  | .bf16 => { ew := 8, fw := 7 }
  | _ => { ew := 8, fw := 23 }

/-- The exponent of the least fraction bit of a subnormal. -/
def Ieee.emin (f : Ieee) : Int := 2 - 2 ^ (f.ew - 1) - f.fw
def Ieee.expMax (f : Ieee) : Nat := 2 ^ f.ew - 1
def Ieee.signBit (f : Ieee) : Nat := 2 ^ (f.ew + f.fw)
def Ieee.canonNan (f : Ieee) : Nat := f.expMax * 2 ^ f.fw + 2 ^ (f.fw - 1)

def Ieee.decode (f : Ieee) (x : Nat) : FVal :=
  let neg := x.testBit (f.ew + f.fw)
  let ex := x / 2 ^ f.fw % 2 ^ f.ew
  let fr := x % 2 ^ f.fw
  if ex = f.expMax then (if fr = 0 then .inf neg else .nan)
  else if ex = 0 then .fin neg fr f.emin
  else .fin neg (2 ^ f.fw + fr) (f.emin + (ex - 1))

def signPart (f : Ieee) (neg : Bool) : Nat := if neg then f.signBit else 0
def Ieee.infinity (f : Ieee) (neg : Bool) : Nat := signPart f neg + f.expMax * 2 ^ f.fw

/-- How a remainder compares with half a unit. -/
def halfCmp (r sh : Nat) (sticky : Bool) : Ordering :=
  if sh = 0 then .lt
  else
    match compare r (2 ^ (sh - 1)) with
    | .eq => if sticky then .gt else .eq
    | o => o

/-- Whether a magnitude rounds up, away from zero (R99): `half` compares what is cut off with half a unit. -/
def roundsUp (rnd : Rnd) (neg odd inexact : Bool) (half : Ordering) : Bool :=
  match rnd with
  | .rn => half == .gt || (half == .eq && odd)
  | .rz => false
  | .ru => inexact && !neg
  | .rd => inexact && neg

/-- m × 2^e, and a positive amount below one unit of m if `sticky`, as a multiple of 2^q rounded under `rnd`. -/
def roundAt (rnd : Rnd) (neg : Bool) (m : Nat) (e q : Int) (sticky : Bool) : Nat :=
  if q ≤ e then
    let n := m * 2 ^ (e - q).toNat
    if roundsUp rnd neg (n % 2 == 1) sticky .lt then n + 1 else n
  else
    let sh := (q - e).toNat
    if Nat.log2 m + 2 ≤ sh then (if roundsUp rnd neg false (m != 0 || sticky) .lt then 1 else 0)
    else
      let n := m / 2 ^ sh
      let r := m % 2 ^ sh
      if roundsUp rnd neg (n % 2 == 1) (r != 0 || sticky) (halfCmp r sh sticky) then n + 1 else n

/-- The overflow of R99. -/
def Ieee.overflow (f : Ieee) (rnd : Rnd) (neg : Bool) : Nat :=
  let toInf := match rnd with
    | .rn => true
    | .rz => false
    | .ru => !neg
    | .rd => neg
  if toInf then f.infinity neg else f.infinity neg - 1

/-- A finite magnitude rounded once into an IEEE format (R99). -/
def Ieee.round (f : Ieee) (rnd : Rnd) (neg : Bool) (m : Nat) (e : Int) (sticky : Bool := false) : Nat :=
  if m = 0 then signPart f neg
  else
    let q := max ((Nat.log2 m : Int) + e - f.fw) f.emin
    let n := roundAt rnd neg m e q sticky
    let b : Int := if n < 2 ^ f.fw then n else (q - f.emin) * 2 ^ f.fw + n
    if (f.expMax : Int) * 2 ^ f.fw ≤ b then f.overflow rnd neg else signPart f neg + b.toNat

/-! ### VT8 (R101–R104) -/

/-- The magnitude of a VT8 code, in units of 2^−12. -/
def vt8Mag (w : Nat) : Nat :=
  if w = 0 then 0
  else
    let p := w.testBit 6
    let n := ((List.range 7).find? fun j => w.testBit (6 - j) != p).getD 7
    let k : Int := if p then (n : Int) - 1 else -n
    let rr := 6 - n
    let x := if rr = 0 then 0 else w / 2 ^ (rr - 1) % 2
    let m := rr - 1
    let fr := if rr = 0 then 0 else w % 2 ^ m
    (2 ^ (12 + 2 * k).toNat * 2 ^ x * (2 ^ m + fr)) / 2 ^ m

def decodeVt8 (c : Nat) : FVal :=
  if c % 256 = 0x80 then .nan else .fin (c.testBit 7) (vt8Mag (c % 128)) (-12)

/-- m × 2^e compared with k units of 2^−13. -/
def cmpUnits (m : Nat) (e : Int) (k : Nat) : Ordering :=
  if 0 ≤ e + 13 then compare (m * 2 ^ (e + 13).toNat) k else compare m (k * 2 ^ (-(e + 13)).toNat)

/-- A finite value rounded into VT8 (R104). -/
def roundVt8 (rnd : Rnd) (neg : Bool) (m : Nat) (e : Int) : Nat :=
  let sgn := fun w => if w = 0 then 0 else (if neg then 128 else 0) + w
  if m = 0 then 0
  else if (cmpUnits m e (2 * vt8Mag 127)) != .lt then sgn 127
  else
    let w := ((List.range 128).filter fun w => cmpUnits m e (2 * vt8Mag w) != .lt).getLastD 0
    let inexact := cmpUnits m e (2 * vt8Mag w) != .eq
    let half := cmpUnits m e (vt8Mag w + vt8Mag (w + 1))
    let up := if w = 0 ∧ rnd = .rn then half != .lt else roundsUp rnd neg (w % 2 == 1) inexact half
    sgn (if up then w + 1 else w)

/-! ### Any floating type -/

def fwidth : Ty → Nat
  | .f32 => 32
  | .vt8 => 8
  | _ => 16

def canonNan : Ty → Nat
  | .vt8 => 0x80
  | t => (ieeeOf t).canonNan

def decodeF (t : Ty) (x : Nat) : FVal :=
  match t with
  | .vt8 => decodeVt8 x
  | t => (ieeeOf t).decode (x % 2 ^ fwidth t)

/-- RoundTo(x, T, m) of R310 on a value. -/
def roundTo (t : Ty) (rnd : Rnd) : FVal → Nat
  | .nan => canonNan t
  | .inf neg => if t = .vt8 then (if neg then 0xFF else 0x7F) else (ieeeOf t).infinity neg
  | .fin neg m e => if t = .vt8 then roundVt8 rnd neg m e else (ieeeOf t).round rnd neg m e

/-! ### Exact sums and products -/

def FVal.neg : FVal → FVal
  | .nan => .nan
  | .inf s => .inf !s
  | .fin s m e => .fin (!s) m e

def FVal.mul : FVal → FVal → FVal
  | .nan, _ | _, .nan => .nan
  | .inf s, .inf t => .inf (s ^^ t)
  | .inf s, .fin t m _ | .fin t m _, .inf s => if m = 0 then .nan else .inf (s ^^ t)
  | .fin s m e, .fin t n f => .fin (s ^^ t) (m * n) (e + f)

def FVal.isNan : FVal → Bool
  | .nan => true
  | _ => false

def FVal.isInf (neg : Bool) : FVal → Bool
  | .inf s => s == neg
  | _ => false

def FVal.isZero (neg : Bool) : FVal → Bool
  | .fin s m _ => m == 0 && s == neg
  | _ => false

/-- The least exponent among finite terms. -/
def minExp (l : List FVal) : Int :=
  l.foldl (fun x v =>
    match v with
    | .fin _ _ e => min x e
    | _ => x) 0

/-- A finite value as a multiple of 2^e. -/
def FVal.scaled (e : Int) : FVal → Int
  | .fin s m f => (if s then -1 else 1) * (m * 2 ^ (f - e).toNat : Nat)
  | _ => 0

/-- The finite value of an integer multiple of 2^e; `negZero` gives the sign of a zero. -/
def ofScaled (x e : Int) (negZero : Bool) : FVal := .fin (if x = 0 then negZero else decide (x < 0)) x.natAbs e

/-- The exact sum of a list of terms, with the zeros of R311 and R329: a sum of zeros of one sign is that zero, and any
other exact zero is +0, or −0 under `.rd`. -/
def exactSum (rnd : Rnd) (l : List FVal) : FVal :=
  if l.any FVal.isNan || (l.any (FVal.isInf false) && l.any (FVal.isInf true)) then .nan
  else if l.any (FVal.isInf false) then .inf false
  else if l.any (FVal.isInf true) then .inf true
  else
    let e := minExp l
    let x := (l.map (FVal.scaled e)).foldl (· + ·) 0
    ofScaled x e ((!l.isEmpty && l.all (FVal.isZero true)) || (rnd == .rd && l.any fun v => !v.isZero false))

/-- `.sat` (R310): NaN and values at or below zero become +0, values above 1.0 become 1.0. -/
def satF (t : Ty) (x : Nat) : Nat :=
  let f := ieeeOf t
  let one := (f.expMax / 2) * 2 ^ f.fw
  match f.decode x with
  | .nan => 0
  | .inf neg => if neg then 0 else one
  | .fin neg m _ => if neg ∨ m = 0 then 0 else min x one

/-- Sign-magnitude order of patterns, −0 below +0 (R311), and with −0 equal to +0 (R313). -/
def orderKey (f : Ieee) (x : Nat) : Int := if x.testBit (f.ew + f.fw) then -((x % f.signBit : Nat) : Int) - 1 else x % f.signBit
def valueKey (f : Ieee) (x : Nat) : Int := if x.testBit (f.ew + f.fw) then -((x % f.signBit : Nat) : Int) else x % f.signBit

/-- FMIN and FMAX of R311. -/
def minMaxF (t : Ty) (isMax nanMod : Bool) (a b : Nat) : Nat :=
  let f := ieeeOf t
  let na := (f.decode a).isNan
  let nb := (f.decode b).isNan
  if (na && nb) || (nanMod && (na || nb)) then f.canonNan
  else if na then b
  else if nb then a
  else if (orderKey f a ≤ orderKey f b) = !isMax then a else b

/-- The value of an integer. -/
def ofInt (x : Int) : FVal := .fin (decide (x < 0)) x.natAbs 0

/-- A finite value rounded to an integer (R109). -/
def toIntF (rnd : Rnd) (neg : Bool) (m : Nat) (e : Int) : Int :=
  let n : Int := roundAt rnd neg m e 0 false
  if neg then -n else n

/-! ### E2M1 and E8M0 (R105–R107) -/

/-- The magnitude of an E2M1 code, in halves. -/
def e2m1Mag (c : Nat) : Nat := [0, 1, 2, 3, 4, 6, 8, 12].getD (c % 8) 0

def decodeE2m1 (c : Nat) : FVal := .fin (c.testBit 3) (e2m1Mag c) (-1)

/-- The scale of an E8M0 byte: none for NaN. -/
def scaleOf (x : Nat) : Option Int := if x % 256 = 0xFF then none else some ((x % 256 : Nat) - 127)

/-- An element under its scale (R106). -/
def scaledE2m1 (x c : Nat) : FVal :=
  match scaleOf x, decodeE2m1 c with
  | some k, .fin s m e => .fin s m (e + k)
  | _, _ => .nan

/-- m × 2^e compared with k quarters. -/
def cmpQuarters (m : Nat) (e : Int) (k : Nat) : Ordering :=
  if 0 ≤ e + 2 then compare (m * 2 ^ (e + 2).toNat) k
  else if Nat.log2 m + 8 ≤ (-(e + 2)).toNat then (if m = 0 then compare 0 k else if k = 0 then .gt else .lt)
  else compare m (k * 2 ^ (-(e + 2)).toNat)

/-- RoundE2M1 of R107. -/
def roundE2m1 (rnd : Rnd) (neg : Bool) (m : Nat) (e : Int) : Nat :=
  let sgn := fun w => if w = 0 then 0 else (if neg then 8 else 0) + w
  if cmpQuarters m e 24 != .lt then sgn 7
  else
    let w := ((List.range 8).filter fun w => cmpQuarters m e (2 * e2m1Mag w) != .lt).getLastD 0
    let up := roundsUp rnd neg (w % 2 == 1) (cmpQuarters m e (2 * e2m1Mag w) != .eq) (cmpQuarters m e (e2m1Mag w + e2m1Mag (w + 1)))
    sgn (if up then w + 1 else w)

/-- QuantiseBlock of R107: the scale byte and the elements. -/
def quantiseBlock (rnd : Rnd) (b : List FVal) : Nat × List Nat :=
  if b.any fun v => v.isNan || v.isInf true || v.isInf false then (0xFF, b.map fun _ => 0)
  else
    let logs := b.filterMap fun v =>
      match v with
      | .fin _ m e => if m = 0 then none else some ((Nat.log2 m : Int) + e)
      | _ => none
    match logs with
    | [] => (0, b.map fun _ => 0)
    | x :: t =>
      let ex := max (-127) (min ((t.foldl max x) - 2) 127)
      ((ex + 127).toNat, b.map fun v =>
        match v with
        | .fin s m e => roundE2m1 rnd s m (e - ex)
        | _ => 0)

/-! ### The Hadamard option (R110) -/

/-- Element j of a run times H_n; the sign of an exact zero is that of the rounding direction (R98). -/
def hadamardAt (rnd : Rnd) (run : List FVal) (j : Nat) : FVal :=
  exactSum rnd ((List.range run.length).map fun i =>
    let v := run.getD i .nan
    if ((List.range 5).countP fun b => (i &&& j).testBit b) % 2 = 1 then v.neg else v)

/-- The transform of a block in aligned runs of n elements. -/
def hadamard (rnd : Rnd) (n : Nat) (x : List FVal) : List FVal :=
  (List.range x.length).map fun j => hadamardAt rnd ((x.drop (j / n * n)).take n) (j % n)

/-! ### MatrixStep (R112) -/

/-- `shift` is 0, 4 or 5 for the Hadamard option (R111). -/
def matrixStep (acc : Nat) (products : List FVal) (shift : Nat) : Nat :=
  let a := decodeF .f32 acc
  let s := match exactSum .rn products with
    | .fin n m e => .fin (if m = 0 then !products.isEmpty && products.all (FVal.isZero true) else n) m (e - shift)
    | v => v
  roundTo .f32 .rn (exactSum .rn [a, s])

/-! ### The functions of the SFU (R315), in fixed point with `fixP` fraction bits (log 7) -/

def fixP : Nat := 1024

def fixMul (a b : Int) : Int := a * b / 2 ^ fixP

/-- Σ t × x^j / (k (k+1) …), the tail of the exponential series from term k. -/
def expSum (x : Int) : Nat → Nat → Int → Int
  | 0, _, _ => 0
  | fuel + 1, k, t => t + expSum x fuel (k + 1) (fixMul t x / k)

/-- The series of sine and cosine from the term t of order k: each term is the last times −x² / ((k + 1)(k + 2)). -/
def trigSum (x2 : Int) : Nat → Nat → Int → Int
  | 0, _, _ => 0
  | fuel + 1, k, t => t + trigSum x2 fuel (k + 2) (-(fixMul t x2) / ((k + 1) * (k + 2)))

/-- Σ p / k, p z² / (k + 2), …: the series of the inverse hyperbolic tangent, or with `alt` of the inverse tangent. -/
def atanhSum (z2 : Int) (alt : Bool) : Nat → Nat → Int → Int
  | 0, _, _ => 0
  | fuel + 1, k, p => p / k + atanhSum z2 alt fuel (k + 2) (if alt then -(fixMul p z2) else fixMul p z2)

def fixOne : Int := 2 ^ fixP

/-- ln 2 = 2 artanh(1/3). -/
def fixLn2 : Int := 2 * atanhSum (fixOne / 9) false 340 1 (fixOne / 3)

/-- The series of arctan (1/n). -/
def atanInv (n : Nat) : Nat → Nat → Int → Int
  | 0, _, _ => 0
  | fuel + 1, k, p => p / k + atanInv n fuel (k + 2) (-(p / (n * n : Nat)))

def piBits : Nat := 1400

/-- π × 2^piBits. -/
def fixPi : Int :=
  let one : Int := 2 ^ (piBits + 16)
  (16 * atanInv 5 320 1 (one / 5) - 4 * atanInv 239 100 1 (one / 239)) / 2 ^ 16

def fixExp (x : Int) : Int := expSum x 220 1 fixOne

/-- ln x for 1 ≤ x < 2. -/
def fixLn (x : Int) : Int :=
  let z := (x - fixOne) * fixOne / (x + fixOne)
  2 * atanhSum (fixMul z z) false 340 1 z

/-- m × 2^e with `fixP` fraction bits, rounded down. -/
def toFix (m : Nat) (e : Int) : Int :=
  if 0 ≤ e + fixP then (m : Int) * 2 ^ (e + fixP).toNat else m / 2 ^ (-(e + fixP)).toNat

/-- A fixed-point result, known to be inexact, rounded to FP32. -/
def roundFix (rnd : Rnd) (neg : Bool) (x : Int) (e : Int) : Nat := (ieeeOf .f32).round rnd neg x.natAbs (e - fixP) true

/-- A reciprocal or quotient: the magnitude m / n × 2^e, rounded to FP32. -/
def roundRatio (rnd : Rnd) (neg : Bool) (m n : Nat) (e : Int) : Nat :=
  let x := m * 2 ^ 128
  (ieeeOf .f32).round rnd neg (x / n) (e - 128) (x % n != 0)

def fpNan : Nat := 0x7FC00000
def fpInf (neg : Bool) : Nat := (ieeeOf .f32).infinity neg
def fpZero (neg : Bool) : Nat := signPart (ieeeOf .f32) neg
def fpOne : Nat := 0x3F800000

/-- a / b (R315). -/
def fdiv (rnd : Rnd) (a b : FVal) : Nat :=
  match a, b with
  | .nan, _ | _, .nan => fpNan
  | .inf _, .inf _ => fpNan
  | .inf s, .fin t _ _ => fpInf (s ^^ t)
  | .fin s _ _, .inf t => fpZero (s ^^ t)
  | .fin s m e, .fin t n f =>
    if n = 0 then (if m = 0 then fpNan else fpInf (s ^^ t))
    else if m = 0 then fpZero (s ^^ t)
    else roundRatio rnd (s ^^ t) m n (e - f)

def frcp (rnd : Rnd) (a : FVal) : Nat := fdiv rnd (.fin false 1 0) a

/-- An even exponent: m × 2^e = m' × 2^(2h). -/
def evenExp (m : Nat) (e : Int) : Nat × Int := if e % 2 = 0 then (m, e / 2) else (2 * m, (e - 1) / 2)

def fsqrt (rnd : Rnd) : FVal → Nat
  | .nan => fpNan
  | .inf neg => if neg then fpNan else fpInf false
  | .fin neg m e =>
    if m = 0 then fpZero neg
    else if neg then fpNan
    else
      let (m, h) := evenExp m e
      let x := m * 2 ^ 256
      let r := Nat.sqrt x
      (ieeeOf .f32).round rnd false r (h - 128) (r * r != x)

def frsq (rnd : Rnd) : FVal → Nat
  | .nan => fpNan
  | .inf neg => if neg then fpNan else fpZero false
  | .fin neg m e =>
    if m = 0 then fpInf neg
    else if neg then fpNan
    else
      let (m, h) := evenExp m e
      let r := Nat.sqrt (2 ^ 256 / m)
      (ieeeOf .f32).round rnd false r (-h - 128) (r * r * m != 2 ^ 256)

def fexp2 (rnd : Rnd) : FVal → Nat
  | .nan => fpNan
  | .inf neg => if neg then fpZero false else fpInf false
  | .fin neg m e =>
    if m = 0 then fpOne
    else
      let big := decide (8 < (Nat.log2 m : Int) + e)
      if big then (ieeeOf .f32).round rnd false 1 (if neg then -1000 else 1000)
      else
        let x := if neg then -toFix m e else toFix m e
        let n := x / fixOne
        let f := x % fixOne
        if f = 0 ∧ -(fixP : Int) ≤ e then (ieeeOf .f32).round rnd false 1 n
        else roundFix rnd false (fixExp (fixMul f fixLn2)) n

def flog2 (rnd : Rnd) : FVal → Nat
  | .nan => fpNan
  | .inf neg => if neg then fpNan else fpInf false
  | .fin neg m e =>
    if m = 0 then fpInf true
    else if neg then fpNan
    else
      let l := Nat.log2 m
      let ex : Int := l + e
      if m = 2 ^ l then roundTo .f32 rnd (ofInt ex)
      else
        let y := ex * fixOne + fixLn (toFix m (-l)) * fixOne / fixLn2
        roundFix rnd (decide (y < 0)) y 0

/-- An angle m × 2^e reduced by multiples of π/2: the quadrant, and the rest in fixed point, within π/4 of 0. -/
def angle (m : Nat) (e : Int) : Nat × Int :=
  let pi := fixPi
  let a : Int := if 0 ≤ e + piBits then (m : Int) * 2 ^ (e + piBits).toNat else m / 2 ^ (-(e + piBits)).toNat
  let half := pi / 2
  let n := (2 * a + half) / (2 * half)
  ((n % 4).toNat, (a - n * half) / 2 ^ (piBits - fixP))

def fixSin (x : Int) : Int := trigSum (fixMul x x) 130 1 x
def fixCos (x : Int) : Int := trigSum (fixMul x x) 130 0 fixOne

/-- Sine or cosine in a quadrant. -/
def trigAt (q : Nat) (x : Int) : Int :=
  match q % 4 with
  | 0 => fixSin x
  | 1 => fixCos x
  | 2 => -fixSin x
  | _ => -fixCos x

def fsin (rnd : Rnd) : FVal → Nat
  | .nan | .inf _ => fpNan
  | .fin neg m e =>
    if m = 0 then fpZero neg
    else
      let (q, x) := angle m e
      let y := if neg then -trigAt q x else trigAt q x
      roundFix rnd (decide (y < 0)) y 0

def fcos (rnd : Rnd) : FVal → Nat
  | .nan | .inf _ => fpNan
  | .fin _ m e =>
    if m = 0 then fpOne
    else
      let (q, x) := angle m e
      let y := trigAt (q + 1) x
      roundFix rnd (decide (y < 0)) y 0

def ftanh (rnd : Rnd) : FVal → Nat
  | .nan => fpNan
  | .inf neg => signPart (ieeeOf .f32) neg + fpOne
  | .fin neg m e =>
    if m = 0 then fpZero neg
    else if 8 ≤ (Nat.log2 m : Int) + e then (ieeeOf .f32).round rnd neg (2 ^ 200 - 1) (-200) true
    else
      -- tanh x = 1 - 2 / (e^(2x) + 1), from e^(2x) = 2^n e^r
      let x := 2 * toFix m e
      let n := x / fixLn2
      let ex := fixExp (x - n * fixLn2) * 2 ^ n.toNat
      let y := (ex - fixOne) * fixOne / (ex + fixOne)
      roundFix rnd neg y 0

end Sys2Proof.Machine
end

