-- ==== Sys2Proof/Machine/Homes.lean ====
section
/-! DEFINITION. The homes (R188–R194, R202–R210, R217–R229): back-invalidation and the host directory, reads with leases, stores,
atomics, the L1, the order between accesses of one thread, and the held stores. -/

namespace Sys2Proof.Machine

/-! ### The host directory and back-invalidation (R226–R228) -/

/-- Split a marked region around an address, down to its line. -/
def splitDir (dpa now : Nat) : Nat → Nat → List (Nat × Nat × Nat)
  | 0, b => [(b, 7, now)]
  | k + 1, b =>
    let mid := b + 2 ^ (k + 7)
    if dpa < mid then splitDir dpa now k b ++ [(mid, k + 7, now)] else (b, k + 7, now) :: splitDir dpa now k mid

def dirCovers (e : Nat × Nat × Nat) (dpa : Nat) : Bool := decide (e.1 ≤ dpa) && decide (dpa < e.1 + 2 ^ e.2.1)

/-- A device access conflicts with the marked region of an address (R228). -/
def State.dirConflict (s : State) (dpa : Nat) : State :=
  { s with directory := s.directory.flatMap fun e =>
      if dirCovers e dpa then splitDir dpa s.ticks (e.2.1 - 7) e.1 else [e] }

/-- The host takes a half: its 64 KiB region is marked, where none covers it (R228). -/
def State.dirMark (s : State) (dpa : Nat) : State :=
  if s.directory.any (dirCovers · dpa) then s else { s with directory := s.directory ++ [(dpa / 2 ^ 16 * 2 ^ 16, 16, s.ticks)] }

/-- What comes before a device access to n bytes (R192, R227): false where it waits, at the host or behind held accesses. -/
def State.homeBegin (s : State) (who : Instr) (dpa n : Nat) (write : Bool) : State × Bool :=
  if s.hostBlocks dpa n write then (s, false)
  else
    let (s, ok) := (halvesOf dpa n).foldl (fun (acc : State × Bool) h =>
      if (acc.1.line (lineOf h)).half h = .invalid then acc
      else
        let (s, b) := (acc.1.dirConflict h).dropHalf h
        (s, acc.2 && b)) (s, true)
    if !ok || (s.pageSt (pageOf dpa)).held then (s.queueHeld (pageOf dpa) who, false) else (s, true)

/-- A device store event at a home: the GWCT, or none where it waits. -/
def State.homeWrite (s : State) (who : Instr) (dpa n : Nat) (f : Nat → Option Byte) (tag : Option (BitVec 4)) :
    State × Option Nat :=
  match s.homeBegin who dpa n true with
  | (t, false) => (t.afterStore s, none)
  | (t, true) =>
    let (t, g) := t.storeAt who dpa n f tag
    (t.afterStore s, g)

/-- A device read at a home: the bytes, or none where it waits. -/
def State.homeRead (s : State) (who : Instr) (dpa n : Nat) : State × Option (List Byte) :=
  match s.homeBegin who dpa n false with
  | (t, false) => (t.afterStore s, none)
  | (t, true) => ((t.l2Fills dpa n).afterStore s, some ((List.range n).map fun i => t.coherent (dpa + i)))

/-- A core's own writes of lines and strong stores that another agent waits for, in pieces that stay within one page; answers the
latest GWCT, or none with the state as it was where a piece waits. -/
def State.homeWriteAll (s : State) (who : Instr) (pieces : List (Nat × List Byte)) : State × Option Nat :=
  let r := pieces.foldl (fun (acc : State × Option Nat) p =>
    match acc.2 with
    | none => acc
    | some g =>
      match acc.1.homeWrite who p.1 p.2.length (fun i => p.2[i]?) none with
      | (t, some h) => (t, some (max g h))
      | (t, none) => (t, none)) (s, some 0)
  match r.2 with
  | none => (s, none)
  | some g => (r.1, some g)

/-! ### Leases and the L1 (R217, R154) -/

/-- The length of a context's leases, in nanoseconds (R118, R217). -/
def State.leaseNs (s : State) (ctx : Nat) : Nat := 50 * 2 ^ (s.ctx ctx).lease

/-- What a time counted at the home of an address counts on a core's die (R225). -/
def acrossDie (core dpa t : Nat) : Nat := if dieOf core = dieOfDpa dpa then t else t + 4

/-- A core's copy of a line under a lease: the usable limit; none while the host asks for or owns a half (R226). -/
def State.grantLease (s : State) (core ctx l : Nat) : State × Option Nat :=
  let x := s.line l
  let owned := fun (h : HostSt) => match h with
    | .owned _ => true
    | _ => false
  if x.reqLo || x.reqHi || owned x.lo || owned x.hi then (s, none)
  else
    let e := s.ns + s.leaseNs ctx
    (s.modLine l fun y => { y with lease := max y.lease e },
     some (if dieOf core = dieOfDpa (128 * l) then e else e - 4))

/-- The position of a group in its core's active set (R154). -/
def Core.position (c : Core) (slot : Nat) : Nat :=
  ((keysOf c.groups).filter fun k => decide (k < slot) && ((get? c.groups k).map (·.gst)) == some .active).length

/-- What a read of n bytes that may fill the L1 accesses at the home: the line, or, while the host owns its other half or asks for one,
only those bytes, which are then used once (R226). -/
def State.fillSpan (s : State) (dpa n : Nat) : Nat × Nat :=
  let x := s.line (lineOf dpa)
  let other := match if dpa / 64 % 2 = 0 then x.hi else x.lo with
    | .owned _ => true
    | _ => false
  if x.reqLo || x.reqHi || other then (dpa, n) else (128 * lineOf dpa, 128)

/-- A live copy of a line in the L1 (R217). -/
def Core.l1Live (c : Core) (now l : Nat) : Option L1Line := (get? c.l1 l).filter fun x => decide (now < x.limit)

/-- An L1 miss of a group whose tag stands in the victim array with the group's position is a lost-locality event (R154). -/
def Core.missEvent (c : Core) (slot l : Nat) : Core :=
  if c.victims.contains (l, c.position slot) then { c with score := min 255 (c.score + 1) } else c

/-- A line leaves the L1 for another: its tag enters the victim array, which keeps 256 (R154). -/
def Core.evict (c : Core) (l : Nat) : Core :=
  match get? c.l1 l with
  | none => c
  | some x => { c with l1 := del c.l1 l, victims := ((l, x.filler) :: c.victims).take 256 }

/-- Put a line into its set of 32 ways, after an eviction where the set is full: a line marked `.ev` first, else one that is
free (log 9). -/
def Core.fillLine (c : Core) (n slot l : Nat) (x : L1Line) : Core :=
  let set := (keysOf c.l1).filter fun k => k % 32 == l % 32 && k != l
  let c :=
    if set.length < 32 then c
    else
      match set.find? fun k => ((get? c.l1 k).map (·.evictFirst)) == some true with
      | some k => c.evict k
      | none => c.evict (set.getD (Config.victim n (3 * l) % 32) 0)
  { c with l1 := put c.l1 l { x with filler := c.position slot } }

/-- The bytes and tags of a line as its home holds them. -/
def State.lineImage (s : State) (l limit : Nat) (ev : Bool) : L1Line :=
  { stamps := List.replicate 132 (s.n + 1), bytes := (List.range 128).map fun i => s.stored (128 * l + i), tags := (List.range 4).map fun j => (get? s.tags (4 * l + j)).getD 0,
    limit, filler := 0, evictFirst := ev }

/-- The L1's copy, if it holds one, is refreshed by an access of the core that its home performs (R207); a poisoned line is not kept
there (log 9). -/
def State.refreshL1 (s : State) (core l : Nat) : State :=
  match get? (s.core core).l1 l with
  | none => s
  | some x =>
    let y := s.lineImage l x.limit x.evictFirst
    s.modCore core fun c =>
      { c with l1 := if s.poison.any (fun g => g / 4 == l) then del c.l1 l else put c.l1 l { y with filler := x.filler } }

/-- Fill a line into a core's L1 under a lease (R217); where the home grants none, a copy that the L1 holds is refreshed. -/
def State.fillL1 (s : State) (core slot ctx l : Nat) (ev : Bool) : State :=
  match s.grantLease core ctx l with
  | (s, none) => s.refreshL1 core l
  | (s, some e) =>
    if s.poison.any (fun g => g / 4 == l) then s.refreshL1 core l
    else s.modCore core fun c => c.fillLine s.n slot l (s.lineImage l e ev)

/-! ### The held stores of an idempotent team (R146) -/

/-- The byte that the youngest of a list of stores gives an address. -/
def storeByte (l : List StoreReq) (a : Nat) : Option Byte :=
  (l.reverse.find? fun r => r.tag.isNone && decide (r.dpa ≤ a) && decide (a < r.dpa + r.width)).map fun (r : StoreReq) =>
    ((r.data >>> (8 * (a - r.dpa))).setWidth 8 : Byte)

/-- The byte that a team's uncommitted stores give an address, the youngest first. -/
def Team.heldByte (t : Team) (dpa : Nat) : Option Byte :=
  storeByte (t.uncommitted.filter fun r => r.todo.getLsbD (dpa - r.dpa)) dpa

/-- The committed stores of a team that are not yet performed; they carry the operation 0. -/
def Core.committing (c : Core) (team : Nat) : List StoreReq :=
  c.groups.flatMap fun g => if g.2.team == team then g.2.stores.filter fun r => r.op == 0 && r.todo != 0 else []

/-- What a team's access finds at an address. -/
def State.teamByte (s : State) (core team dpa : Nat) : Byte :=
  match (s.team? core team).bind fun t =>
      ({ t with uncommitted := (s.core core).committing team ++ t.uncommitted } : Team).heldByte dpa with
  | some b => b
  | none => s.coherent dpa

/-! ### The order of one thread's accesses (R204, R206, R207) -/

def overlaps (a n b m : Nat) : Bool := decide (a < b + m) && decide (b < a + n)

/-- Two classes that R204 keeps in program order. -/
def orderedClasses (a b : MemClass) : Bool :=
  match a, b with
  | .vol, .vol | .vol, .strong | .strong, .vol => true
  | _, _ => false

/-- An earlier operation of the lane has an access, not yet performed, that this one must follow: to the same bytes, or by class. -/
def Core.followsOp (c : Core) (slot lane id dpa n : Nat) (cls : MemClass) : Bool :=
  c.ops.any fun o => o.slot == slot && decide (o.id < id) &&
    match o.kind with
    | .bank _ k _ accs => orderedClasses k cls && accs.any fun a => a.lane == lane && a.todo != 0
    | .load k _ _ _ accs => accs.any fun a => a.lane == lane && a.todo != 0 && (overlaps a.dpa a.width dpa n || orderedClasses k cls)
    | .atom _ _ wide _ reqs => reqs.any fun q => !q.done && (q.lanes.any fun l => l.1 == lane) &&
        (overlaps q.dpa (if wide then 8 else 4) dpa n || cls == .vol)
    | .discard pages => has o.lanes lane && ((pages.any fun p => overlaps (4096 * p) 4096 dpa n) || cls == .vol)
    | _ => false

/-- A store that a later store of its thread to the same bytes may elide (R204): a weak one, with no barrier between. -/
def StoreReq.elidable (r : StoreReq) : Bool := r.cls == .weak && !r.firm && r.tag.isNone && r.op != 0

/-- An earlier store of the lane, not yet performed, that an access must follow; `past`: the access is a store that may elide it. -/
def Group.followsStore (g : Group) (lane id dpa n : Nat) (cls : MemClass) (past : Bool) : Bool :=
  g.stores.any fun r => r.lane == lane && decide (r.id < id) && r.todo != 0 && !(past && r.elidable) &&
    (overlaps r.dpa r.width dpa n || orderedClasses r.cls cls)

/-- An earlier access of the lane, not yet performed, that this one must follow: to the same bytes, or by class. -/
def Core.follows (c : Core) (slot lane id dpa n : Nat) (cls : MemClass) : Bool :=
  c.followsOp slot lane id dpa n cls || ((get? c.groups slot).map fun g => g.followsStore lane id dpa n cls false).getD false

/-- An earlier `DISCARD` of the lane still covers these bytes: what its older stores hold is no longer forwarded. -/
def Core.discarding (c : Core) (slot lane dpa n : Nat) : Bool :=
  c.ops.any fun o => o.slot == slot && has o.lanes lane &&
    match o.kind with
    | .discard pages => pages.any fun p => overlaps (4096 * p) 4096 dpa n
    | _ => false

/-- A load also waits for the acknowledgement of its thread's own stores to its bytes (R206). -/
def Core.behindStores (c : Core) (slot lane id dpa n : Nat) : Bool :=
  match get? c.groups slot with
  | none => false
  | some g => g.stores.any fun r => r.lane == lane && decide (r.id < id) && overlaps r.dpa r.width dpa n

/-! ### What a thread has accessed last (R204) -/

/-- The thread's last access to some bytes gave these. -/
def Group.note (g : Group) (lane dpa : Nat) (bytes : List (Nat × Byte)) : Group :=
  { g with recent := (bytes.map fun b => (lane, dpa + b.1, b.2))
      ++ g.recent.filter fun r => !(r.1 == lane && bytes.any fun b => dpa + b.1 == r.2.1) }

/-- What some lanes have accessed in a range no longer serves them. -/
def Group.forgetRange (g : Group) (m : Mask) (dpa n : Nat) : Group :=
  { g with recent := g.recent.filter fun r => !(has m r.1 && overlaps r.2.1 1 dpa n) }

/-- The bytes of an earlier access of the thread that may serve a weak load. -/
def Group.recentBytes (g : Group) (lane dpa n : Nat) : Option (List Byte) :=
  (List.range n).mapM fun i => (g.recent.find? fun r => r.1 == lane && r.2.1 == dpa + i).map (·.2.2)

/-! ### Loads at a home (HOME_FILL_REQUEST) -/

/-- Bit i of a byte set. -/
def byteBit (m : BitVec 16) (i : Nat) : Bool := m.getLsbD i

/-- Bytes into a datum at the positions of a set. -/
def mergeBytes (old : BitVec 128) (m : BitVec 16) (f : Nat → Byte) : BitVec 128 :=
  (List.range 16).foldl (fun x i =>
    if byteBit m i then (x &&& ~~~ (0xFF#128 <<< (8 * i))) ||| ((f i).setWidth 128 <<< (8 * i)) else x) old

/-- A load that the L1 may serve and fill: `.weak`, or `.strong` at `.thread` or `.team` scope (R219). -/
def cacheable (cls : MemClass) (scope : Scope) : Bool :=
  cls == .weak || (cls == .strong && (scope == .thread || scope == .team))

/-- Within one instruction the accesses of different lanes to one home are performed in ascending lane number (R334). -/
def earlierLane (accs : List Acc) (a : Acc) : Bool :=
  accs.any fun b => decide (b.lane < a.lane) && b.todo != 0 && !isLink b.dpa && homeCore b.dpa == homeCore a.dpa

/-- Whether a piece of a load may be performed now. -/
def Core.fillOk (c : Core) (o : Op) (accs : List Acc) (a : Acc) (cls : MemClass) (bytes : BitVec 16) : Bool :=
  !earlierLane accs a && bytes != 0 && bytes &&& ~~~ a.todo == 0 && (cls == .weak || bytes == a.todo) && !isLink a.dpa
    && !c.follows o.slot a.lane o.id a.dpa a.width cls && !c.behindStores o.slot a.lane o.id a.dpa a.width

/-- Whether any of n bytes is poisoned; the granule's address. -/
def State.poisonIn (s : State) (dpa n : Nat) : Option Nat := (s.poison.find? fun g => overlaps (32 * g) 32 dpa n).map (32 * ·)

/-- An access read its bytes. -/
def Acc.took (a : Acc) (bytes : BitVec 16) (f : Nat → Byte) : Acc :=
  { a with todo := a.todo &&& ~~~ bytes, data := mergeBytes a.data bytes f }

/-- Change one lane's access of a load. -/
def OpKind.modAcc (k : OpKind) (lane : Nat) (f : Acc → Acc) : OpKind :=
  match k with
  | .load cls scope sx tr accs => .load cls scope sx tr (accs.map fun a => if a.lane == lane then f a else a)
  | k => k

/-- A read of n bytes by an eligible team meets what another team of its kernel has committed (R146). -/
def State.readCommitted (s : State) (core team dpa n : Nat) : Bool :=
  match s.team? core team with
  | none => false
  | some t => t.idem && match s.kernel? t.kernel with
    | some k => k.committed.any fun c => overlaps (4 * c.1) 4 dpa n && c.2 != t.pos.toNat
    | none => false

/-- A team's held stores commit at once (R146): they go to the store buffer of a group, in program order, and the team is no
longer eligible for relaunch.  Its gangs issue nothing more until these stores are acknowledged (`Core.committing`). -/
def State.commit (s : State) (core slot team : Nat) : State :=
  match s.team? core team with
  | none => s
  | some t =>
    let s := s.modTeam core team fun t => { t with idem := false, uncommitted := [] }
    s.modGroup core slot fun g => { g with stores := g.stores ++ t.uncommitted.map fun r => { r with op := 0 } }

/-- A team that reads what another team has committed leaves eligibility (R146). -/
def State.readMark (s : State) (core team dpa n : Nat) : State :=
  if s.readCommitted core team dpa n then
    match (s.core core).groups.find? fun g => g.2.team == team with
    | some g => s.commit core g.1 team
    | none => s
  else s

/-- The pieces in which an access may be performed: all of it, and for a weak one also each byte (R204). -/
def pieces (weak : Bool) (todo : BitVec 16) : List (BitVec 16) :=
  todo :: if weak && popcount (todo.setWidth 64) != 1 then (List.range 16).filterMap fun i => if byteBit todo i then some (BitVec.twoPow 16 i) else none else []

def execHomeFillRequest (core op lane : Nat) (bytes : BitVec 16) (s : State) : Res :=
  match (s.core core).op? op with
  | none => .next s
  | some o =>
    match o.kind with
    | .load cls scope _ _ accs =>
      match accs.find? fun a => a.lane == lane with
      | none => .next s
      | some a =>
        if !(s.core core).fillOk o accs a cls bytes then .next s
        else if isHostDie a.dpa then
          .next (s.modCore core fun c => c.modOp op fun o =>
            { o with kind := o.kind.modAcc lane fun a => a.took bytes fun i => Config.hostDieByte s.n i })
        else
          let fill := cacheable cls scope
          let l := lineOf a.dpa
          let span := if fill then s.fillSpan a.dpa a.width else (a.dpa, a.width)
          match s.homeRead (.homeFillRequest core op lane bytes) span.1 span.2 with
          | (s, none) => .next s
          | (s, some _) =>
            let s := (if fill then s.fillL1 core o.slot o.ctx l a.ev else s.refreshL1 core l).readMark core o.team a.dpa a.width
            let byte := fun i => s.teamByte core o.team (a.dpa + i)
            let got := ((List.range a.width).filter (byteBit bytes)).map fun i => (i, byte i)
            .next (s.modCore core fun c => (c.modOp op fun o =>
              { o with kind := o.kind.modAcc lane fun a => a.took bytes byte
                       poison := o.poison <|> (s.poisonIn a.dpa a.width).map fun _ => (3, a.va) }).modGroup o.slot fun g =>
              g.note lane a.dpa got)
    | _ => .next s

/-! ### Stores at a home (HOME_STORE_REQUEST, STORE_ACK_ARRIVAL) -/

def Group.store? (g : Group) (id : Nat) : Option StoreReq := g.stores.find? fun r => r.id == id

def Core.modStore (c : Core) (slot id : Nat) (f : StoreReq → StoreReq) : Core :=
  c.modGroup slot fun g => { g with stores := g.stores.map fun r => if r.id == id then f r else r }

/-- An earlier write-back of a window's bytes, from any group of the core, is not yet performed (R214). -/
def Core.backFirst (c : Core) (r : StoreReq) : Bool :=
  r.lane == 64 && c.groups.any fun g => g.2.stores.any fun q =>
    q.lane == 64 && decide (q.id < r.id) && q.todo != 0 && overlaps q.dpa q.width r.dpa r.width

/-- Whether a piece of a store may be performed now: lanes of one instruction in order at a home (R334), committed stores in
program order (R146); a store goes before an earlier one of its thread that it elides (R204). -/
def Core.storeOk (c : Core) (g : Group) (slot : Nat) (r : StoreReq) (bytes : BitVec 16) : Bool :=
  !(g.stores.any fun q => q.op == r.op && q.todo != 0 && !isLink q.dpa &&
      if r.op = 0 then decide (q.id < r.id) && overlaps q.dpa q.width r.dpa r.width
      else decide (q.lane < r.lane) && homeCore q.dpa == homeCore r.dpa)
    && bytes != 0 && bytes &&& ~~~ r.todo == 0 && (r.cls == .weak || bytes == r.todo) && !isLink r.dpa && (g.halt != .stopped false || c.stop.all (fun z => z.ctx != g.ctx) || r.gwct != 0)
    && !c.backFirst r && !c.followsOp slot r.lane r.id r.dpa r.width r.cls
    && !g.followsStore r.lane r.id r.dpa r.width r.cls (r.op != 0 && r.tag.isNone)

/-- A store of an idempotent kernel's team that has committed (R146). -/
def State.commitMark (s : State) (core team dpa n : Nat) : State :=
  match s.team? core team with
  | some t =>
    if (s.kernel? t.kernel).any fun k => k.res.getLsbD 53 then
      s.modKernel t.kernel fun k => { k with committed := (List.range ((n + 3) / 4)).map (fun i => (dpa / 4 + i, t.pos.toNat)) ++ k.committed }
    else s
  | none => s

/-- What a store wrote stands at the home: it was not dropped (R193). -/
def State.landed (s : State) (dpa n : Nat) (f : Nat → Option Byte) : Bool :=
  (List.range n).all fun i => (f i).all (· == s.stored (dpa + i))

/-- A piece of a store is performed; one that is dropped is over, and has written nothing (R193). -/
def StoreReq.performed (r : StoreReq) (landed : Bool) (bytes : BitVec 16) (n t : Nat) : StoreReq :=
  { r with todo := if landed then r.todo &&& ~~~ bytes else 0, gwct := max r.gwct t
           stamps := if landed then (List.range 16).map fun i => if byteBit bytes i then n + 1 else r.stamps.getD i 0 else r.stamps }

/-- Bytes of an earlier store that a later store of its thread, now performed, supersedes: they are elided, and take its GWCT (R204,
R218). -/
def StoreReq.elided (q r : StoreReq) (bytes : BitVec 16) (t : Nat) : StoreReq :=
  let gone : BitVec 16 := (List.range q.width).foldl (fun m i =>
    if byteBit q.todo i && decide (r.dpa ≤ q.dpa + i) && byteBit bytes (q.dpa + i - r.dpa) then m ||| BitVec.twoPow 16 i else m) 0
  if q.lane == r.lane && decide (q.id < r.id) && q.elidable && r.tag.isNone && gone != 0 then
    { q with todo := q.todo &&& ~~~ gone, gwct := max q.gwct t }
  else q

def execHomeStoreRequest (core slot id : Nat) (bytes : BitVec 16) (s : State) : Res :=
  match s.group? core slot with
  | none => .next s
  | some g =>
    match g.store? id with
    | none => .next s
    | some r =>
      if !(s.core core).storeOk g slot r bytes then .next s
      else if isHostDie r.dpa then
        .next (s.modCore core fun c => c.modStore slot id fun r => { r with todo := r.todo &&& ~~~ bytes, gwct := max r.gwct s.ns })
      else
        let f := fun i => if r.tag.isNone && byteBit bytes i then some ((r.data >>> (8 * i)).setWidth 8) else none
        match s.homeWrite (.homeStoreRequest core slot id bytes) r.dpa (if r.tag.isSome then 1 else r.width) f r.tag with
        | (s, none) => .next s
        | (s, some t) =>
          let landed := s.landed r.dpa r.width f
          let s := s.commitMark core g.team r.dpa r.width
          .next (s.modGroup core slot fun g =>
            let g := { g with stores := g.stores.map fun q => if q.id == id then q.performed landed bytes s.n t else q.elided r bytes t }
            if landed && r.tag.isNone && r.lane < 64 then
              g.note r.lane r.dpa (((List.range r.width).filter (byteBit bytes)).filterMap fun i => (f i).map fun b => (i, b))
            else g)

/-- Whether a tile fetch pins a line, on any core (R234). -/
def State.pinned (s : State) (l : Nat) : Bool := s.cores.any fun c => c.2.ops.any fun o => o.pins.contains l

/-- A GWCT comes back to a group: its own latest, and that of the fences that wait for the lane's store, for a store of no lane (number
64: a window's write-back, a stamp record), or for the write-back that they made (R218, R220). -/
def Core.gotGwct (c : Core) (slot lane id own t : Nat) : Core :=
  let c := c.modGroup slot fun g => { g with gwct := max g.gwct t }
  { c with ops := c.ops.map fun o =>
      match o.kind with
      | .fence sc tgt => if o.slot == slot && (((has o.lanes lane || lane == 64) && decide (id < o.id)) || o.id == own) then { o with kind := .fence sc (max tgt t) } else o
      | .snap st x tgt => if o.slot == slot && (((has o.lanes lane || lane == 64) && decide (id < o.id)) || o.id == own) then { o with kind := .snap st x (max tgt t) } else o
      | .signal n v tgt => if o.slot == slot && (((has o.lanes lane || lane == 64) && decide (id < o.id)) || o.id == own) then { o with kind := .signal n v (max tgt t) } else o
      | .launch td st tgt => if o.slot == slot && (((has o.lanes lane || lane == 64) && decide (id < o.id)) || o.id == own) then { o with kind := .launch td st (max tgt t) } else o
      | _ => o }

/-- Bytes of an acknowledged store enter the core's L1 copy (R210): those that it wrote, where the copy does not already hold a value
later in coherence order (R207). -/
def Core.l1Store (c : Core) (r : StoreReq) : Core :=
  match get? c.l1 (lineOf r.dpa) with
  | none => c
  | some x =>
    let off := r.dpa % 128
    let at_ := fun i => r.stamps.getD i 0
    let x := match r.tag with
      | some t =>
        let j := 128 + off / 32
        if x.stamps.getD j 0 < at_ 0 then { x with tags := x.tags.set (off / 32) t, stamps := x.stamps.set j (at_ 0) } else x
      | none =>
        let news := fun i => decide (off ≤ i) && decide (i < off + r.width) && decide (x.stamps.getD i 0 < at_ (i - off))
        { x with bytes := (List.range 128).map fun i => if news i then (r.data >>> (8 * (i - off))).setWidth 8 else x.bytes.getD i 0
                 stamps := (List.range 132).map fun i => if news i then at_ (i - off) else x.stamps.getD i 0 }
    { c with l1 := put c.l1 (lineOf r.dpa) x }

/-- An earlier store of the thread to some of the bytes is not yet acknowledged (R206). -/
def Group.ackFirst (g : Group) (r : StoreReq) : Bool :=
  g.stores.any fun q => q.lane == r.lane && decide (q.id < r.id) && overlaps q.dpa q.width r.dpa r.width

/-- A home's acknowledgement brings the store's GWCT and its bytes to the core (R210, R218); it waits for the pins of R234, and follows
that of the thread's earlier stores to its bytes. -/
def execStoreAckArrival (core slot id : Nat) (s : State) : Res :=
  match s.group? core slot with
  | none => .next s
  | some g =>
    match g.store? id with
    | none => .next s
    | some r =>
      if r.todo ≠ 0 ∨ isLink r.dpa ∨ s.pinned (lineOf r.dpa) ∨ g.ackFirst r then .next s
      else
        let t := if isHostDie r.dpa then 0 else acrossDie core r.dpa r.gwct
        .next (s.modCore core fun c =>
          let c := c.modGroup slot fun g =>
            { g with stores := g.stores.filter fun x => x.id != id
                     acked := (if s.ns < t then [{ r with gwct := t }] else []) ++ g.acked.filter fun x => decide (s.ns < x.gwct) }
          (c.gotGwct slot r.lane id r.op t).l1Store r)

/-! ### Atomics at a home (HOME_ATOMIC_REQUEST, R222, R341) -/

/-- The new value of an atomic (R341). -/
def atomNew (op : AtomOp) (kind : AtomKind) (wide : Bool) (old b c : Word64) : Word64 :=
  let cut := fun (x : Word64) => if wide then x else (lo32 x).setWidth 64
  let t : Ty := match kind, wide with
    | .s, true => .s64
    | .s, false => .s32
    | _, true => .n64
    | _, false => .n32
  let o := cut old
  let y := cut b
  match op with
  | .add => if kind = .f then patWord32 (roundTo .f32 .rn (exactSum .rn [decodeF .f32 o.toNat, decodeF .f32 y.toNat])) else cut (o + y)
  | .min => if kind = .f then patWord32 (minMaxF .f32 false false o.toNat y.toNat) else if intOf t o ≤ intOf t y then o else y
  | .max => if kind = .f then patWord32 (minMaxF .f32 true false o.toNat y.toNat) else if intOf t y ≤ intOf t o then o else y
  | .and => o &&& y
  | .or => o ||| y
  | .xor => o ^^^ y
  | .exch => y
  | .cas => if o = cut c then y else o
  | .inc => if y.toNat ≤ o.toNat then 0 else o + 1
  | .dec => if o = 0 ∨ y.toNat < o.toNat then y else o - 1
where
  patWord32 (x : Nat) : Word64 := BitVec.ofNat 64 x

/-- The lanes of one unit in ascending order: the old value of each, and the value left (R222). -/
def atomUnit (op : AtomOp) (kind : AtomKind) (wide : Bool) (old : Word64) (lanes : List (Nat × Word64 × Word64)) :
    Word64 × List (Nat × Word64) :=
  lanes.foldl (fun acc l => (atomNew op kind wide acc.1 l.2.1 l.2.2, acc.2 ++ [(l.1, acc.1)])) (old, [])

/-- Put each lane's old value into an operation's results. -/
def Op.olds (o : Op) (l : List (Nat × Word64)) : Op :=
  { o with res := (List.range 64).map fun i => ((l.find? fun p => p.1 == i).map fun p => p.2.setWidth 128).getD (o.res.getD i 0) }

/-- An operation has written a pinned line: its GWCT, and its acknowledgement, come once the pins have ended (R234). -/
def State.writtenPinned (s : State) (core op line g : Nat) : State :=
  s.modCore core fun c => c.modOp op fun o => { o with onPins := line :: o.onPins, gwct := max o.gwct g }

/-- A line that an operation has written is pinned. -/
def State.pinsLeft (s : State) (o : Op) : Bool := o.onPins.any s.pinned

/-- The pins are gone: the GWCT of what an engine's operation wrote under them is no earlier (R234, R235). -/
def State.pinsOver (s : State) (core : Nat) (o : Op) : State :=
  if o.onPins.isEmpty then s else s.modCore core fun c => c.modOp o.id fun o => { o with onPins := [], gwct := max o.gwct s.ns }

/-- The pins are gone: the GWCT of what the operation wrote under them is no earlier (R234). -/
def State.pinsGone (s : State) (core : Nat) (o : Op) : State :=
  if o.onPins.isEmpty then s
  else
    let g := max o.gwct s.ns
    s.modCore core fun c =>
      (lanesOf o.lanes).foldl (fun c j => c.gotGwct o.slot j o.id 0 g) (c.modOp o.id fun o => { o with onPins := [], gwct := g })

def execHomeAtomicRequest (core op addr : Nat) (s : State) : Res :=
  match (s.core core).op? op with
  | none => .next s
  | some o =>
    match o.kind with
    | .atom aop kind wide _ reqs =>
      match reqs.find? fun q => q.dpa == addr && !q.done with
      | none => .next s
      | some q =>
        let n := if wide then 8 else 4
        if isLink addr || q.lanes.any (fun l => (s.core core).follows o.slot l.1 o.id addr n .strong
            || (s.core core).behindStores o.slot l.1 o.id addr n) then .next s
        else
          let who : Instr := .homeAtomicRequest core op addr
          match s.homeRead who addr n with
          | (s, none) => .next s
          | (s, some bytes) =>
            let (new, olds) := atomUnit aop kind wide (BitVec.ofNat 64 (leNat bytes)) q.lanes
            let out := leBytes n new.toNat
            match s.homeWrite who addr n (fun i => out[i]?) none with
            | (s, none) => .next s
            | (s, some t) =>
              let poison := (s.poisonIn addr n).map fun _ => (3, q.va)
              let g := acrossDie core addr t
              let s := (s.commitMark core o.team addr n).refreshL1 core (lineOf addr)
              let s := s.modCore core fun c => (c.modOp op fun o =>
                { (o.olds olds) with kind := o.kind.modReq addr fun q => { q with done := true }, poison := o.poison <|> poison }).modGroup o.slot
                  fun g => g.forgetRange (maskOf fun j => q.lanes.any fun l => l.1 == j) addr n
              .next (if s.pinned (lineOf addr) then s.writtenPinned core op (lineOf addr) g
                else s.modCore core fun c => q.lanes.foldl (fun c l => c.gotGwct o.slot l.1 op 0 g) c)
    | _ => .next s

/-! ### Held stores, write-back and release (R190–R194) -/

/-- A page's held accesses may go (R192). -/
def State.mayRelease (s : State) (p : Nat) : Bool :=
  (s.pageSt p).held && match s.regionAt (4096 * p) with
    | some r => decide (0 < r.pool) && (((s.ctx r.ctx).state == .running && !(s.ctx r.ctx).poolHold && !(s.ctx r.ctx).hostHold) || r.ctx == 0)
    | none => false

/-- HELD of a region stands while one of its pages is held (R192). -/
def State.fixHeld (s : State) (r : Region) : State :=
  let any := s.pages.any fun p => p.2.held && r.covers (4096 * p.1)
  s.modRegion r.ctx r.idx fun r => { r with held := any }

/-- The home takes a frame, and the accesses that wait at the page are performed next, in the order of their arrival. -/
def execHeldStoresPerform (page : Nat) (s : State) : Res :=
  match s.regionAt (4096 * page), s.mayRelease page with
  | some r, true =>
    let t := ((s.copyOnWrite page).reserve r page).modPage page fun p => { p with held := false }
    let due := (t.held.filter fun h => h.1 == page).map (·.2)
    let t := { t with held := t.held.filter fun h => h.1 != page, agenda := due ++ t.agenda }
    .next ((t.fixHeld r).afterStore s)
  | _, _ => .next s

def execLineWriteback (line : Nat) (s : State) : Res := .next (s.writeBackLine line)

/-- The lines of a page. -/
def linesOf (p : Nat) : List Nat := (List.range 32).map (32 * p + ·)

/-- The release conditions of R190. -/
def State.datumOnly (s : State) (p : Nat) : Bool :=
  let pg := s.pageSt p
  ((s.regionAt (4096 * p)).any (·.dat)) && pg.backed && !pg.held && pg.nonDatum == 0
    && (linesOf p).all fun l => !(s.line l).dirty && (match (s.line l).lo with
        | .owned _ => false
        | _ => true) && match (s.line l).hi with
        | .owned _ => false
        | _ => true

/-- A page may be released; a Migrating one switches first (R190, R194). -/
def State.releasable (s : State) (p : Nat) : Bool := s.datumOnly p && !(s.pageSt p).migrating

/-- A page that switches to its new frame (R186): no byte changes; the frame left returns to the die, or, in an exchange, becomes the other
page's.  A sealed edition's frame stays where it is, so the switch is a changing event of R259. -/
def State.switchPage (s : State) (p : Nat) : State :=
  let t := s.copyOnWrite p
  let far := (t.pageSt p).far
  match (t.pageSt p).swap with
  | some q =>
    let t := t.copyOnWrite q
    (t.modPage p fun x => { x with migrating := false, swap := none, far := !far }).modPage q fun x =>
      { x with migrating := false, swap := none, far := far }
  | none =>
    (t.modPage p fun x => { x with migrating := false, far := !far }).modDie (dieOfDpa (4096 * p)) fun m =>
      if far then { m with far := m.far + 1 } else { m with near := m.near + 1 }

/-- A migration that has not switched is given up: an exchange by both its pages; else the frame set aside for an auto region's page
returns to the die (R185). -/
def State.stay (s : State) (p : Nat) : State :=
  let x := s.pageSt p
  if !x.migrating then s
  else
    let s := s.modPage p fun x => { x with migrating := false, swap := none }
    match x.swap with
    | some q => s.modPage q fun y => { y with migrating := false, swap := none }
    | none =>
      if ((s.regionAt (4096 * p)).map (·.place)) = some 2 then
        s.modDie (dieOfDpa (4096 * p)) fun m => if x.far then { m with near := m.near + 1 } else { m with far := m.far + 1 }
      else s

/-- A backed page of an aperture becomes Unbacked (R190, R198, R260): its frame goes to the sealed editions that hold it, without
a copy, and else to the pool. -/
def State.unback (s : State) (p : Nat) : State :=
  match s.regionAt (4096 * p) with
  | none => s
  | some r =>
    let s := s.stay p
    let pg := s.pageSt p
    let d := dieOfDpa (4096 * p)
    let live := s.liveAt d
    let keep := r.ed && decide (pg.cseq < live) && !(s.holders p).isEmpty
    let s :=
      if keep then
        let (id, s) := s.take
        let f := s.frameOf id p true
        { s with editions := s.editions.map fun e => if e.holds d pg.cseq then { e with pages := put e.pages p f } else e }
      else s.modRegion r.ctx r.idx fun r => { r with pool := r.pool + 1, poolFar := if pg.far then r.poolFar + 1 else r.poolFar }
    let s := { s with mem := setRange s.mem (4096 * p) 4096 fun _ => 0, tags := s.tags.filter fun t => t.1 / 128 != p }
    let s := s.modPage p fun x => { x with backed := false, nonDatum := 0, heat := 0, filling := false,
                                           cseq := if r.ed then live else x.cseq }
    (linesOf p).foldl (fun s l => s.modLine l fun x => { x with dirty := false }) s

def execPageRelease (page : Nat) (s : State) : Res :=
  .next (if s.releasable page then (s.unback page).afterStore s else s)

/-- A copy leaves the L1 once its usable limit has passed (R217). -/
def execLeaseExpiry (core line : Nat) (s : State) : Res :=
  .next (match get? (s.core core).l1 line with
    | some x => if x.limit ≤ s.ns then s.modCore core fun c => { c with l1 := del c.l1 line } else s
    | none => s)

/-! ### Tiers (R185, R186) -/

/-- The far frames of a region's pages that PLACE near must move, or the near frames that PLACE far must move. -/
def State.wrongTier (s : State) (r : Region) (p : Nat) : Bool :=
  (s.pageSt p).backed && match r.place with
    | 0 => (s.pageSt p).far
    | 1 => !(s.pageSt p).far
    | _ => false

/-- A sealed edition holds the page's frame: it is never chosen for migration (R260). -/
def State.frameHeld (s : State) (p : Nat) : Bool := ((s.regionAt (4096 * p)).any (·.ed)) && !(s.holders p).isEmpty

/-- The coldest near auto frame of a die: of those that its homes have changed, or, of heat 0, the first of an auto region that they have
not (R185; ties: log 24). -/
def State.coldest (s : State) (die : Nat) : Option Nat :=
  let touched := keysOf s.pages
  let fresh := (s.regions.filter fun r => r.place == 2 && r.view.isNone && !r.dat && dieOfDpa r.base == die).filterMap fun r =>
    ((List.range (min r.nearPages (touched.length + 1))).map (pageOf r.base + ·)).find? fun p => !touched.contains p && !s.frameHeld p
  let known := touched.filter fun p => dieOfDpa (4096 * p) == die && ((s.regionAt (4096 * p)).any fun r => r.place == 2 && r.view.isNone)
    && (s.pageSt p).backed && !(s.pageSt p).far && !(s.pageSt p).migrating && !s.frameHeld p
  (sortBy (fun a b => decide ((s.pageSt a).heat ≤ (s.pageSt b).heat)) (fresh ++ known)).head?

/-- Every 100 µs the controller of a die chooses up to 256 frames to move: for an auto region, far frames of heat 32 or more,
hottest first, into free near frames, or in exchange for the coldest near auto frame of less than a quarter of the heat; for a
placed region, the frames in the other tier, hottest first where it was auto, and then its pool (R185).  A page that is chosen is Migrating
until it switches. -/
def execMigrationTick (die : Nat) (s : State) : Res :=
  let mine := fun p => dieOfDpa (4096 * p) == die
  let known := (keysOf s.pages).filter mine
  let isAuto := fun p => (((s.regionAt (4096 * p)).map fun r => r.place == 2 && r.view.isNone).getD false)
  let hotter := sortBy fun p q => decide ((s.pageSt q).heat ≤ (s.pageSt p).heat)
  let cand := hotter (known.filter fun p => isAuto p && (s.pageSt p).backed && (s.pageSt p).far && !(s.pageSt p).migrating
    && decide (32 ≤ (s.pageSt p).heat) && !s.frameHeld p)
  let move := fun (s : State) p => s.modPage p fun x => { x with migrating := true }
  let s1 := (cand.take 256).foldl (fun (s : State) p =>
    if 0 < (s.die die).near then
      (move s p).modDie die fun m => { m with near := m.near - 1 }
    else
      match s.coldest die with
      | some q =>
        if 4 * (s.pageSt q).heat < (s.pageSt p).heat then
          (s.modPage p fun x => { x with migrating := true, swap := some q }).modPage q fun x => { x with migrating := true, swap := some p }
        else s
      | none => s) s
  let placed := s.regions.filter fun r => mine (pageOf r.base) && r.place != 2 && r.view.isNone && !isLink r.base
  let left := 256 - min 256 cand.length
  let due := (placed.flatMap fun r =>
    (if r.wasAuto then hotter else id) (((List.range r.frames).map (pageOf r.base + ·)).filter fun p =>
      s.wrongTier r p && !(s.pageSt p).migrating && !s.frameHeld p)).take left
  let s2 := due.foldl move s1
  let (s3, _) := placed.foldl (fun (acc : State × Nat) r =>
    let k := min acc.2 (if r.place == 0 then r.poolFar else r.pool - r.poolFar)
    if r.place == 0 then
      ((acc.1.modRegion r.ctx r.idx fun r => { r with poolFar := r.poolFar - k }).modDie die fun m => { m with far := m.far + k }, acc.2 - k)
    else
      ((acc.1.modRegion r.ctx r.idx fun r => { r with poolFar := r.poolFar + k }).modDie die fun m => { m with near := m.near + k }, acc.2 - k))
    (s2, left - due.length)
  .next s3

/-- Heat is halved every 1 ms (R185). -/
def execHeatDecay (die : Nat) (s : State) : Res :=
  .next { s with pages := s.pages.map fun p => if dieOfDpa (4096 * p.1) == die then (p.1, { p.2 with heat := p.2.heat / 2 }) else p }

/-- A Migrating page switches to its new frame (R186). -/
def execMigrationSwitch (page : Nat) (s : State) : Res :=
  .next (if (s.pageSt page).migrating then (s.switchPage page).afterStore s else s)

end Sys2Proof.Machine
end

