-- ==== Sys2Proof/Machine/Link.lean ====
section
/-! DEFINITION. The Hexino links (R380–R390, R229): ports, link slots and their status words, requests of this device in flight,
and the requests of peers. -/

namespace Sys2Proof.Machine

/-! ### Ports and slots -/

def Port.init : Port := { st := .down, lanes := 0, peer := 0, replays := 0, failed := 0 }

def State.port (s : State) (p : Nat) : Port := (get? s.ports p).getD Port.init

/-- A port that carries traffic. -/
def PortSt.usable : PortSt → Bool
  | .up | .degraded => true
  | _ => false

/-- The CODE of a class 5 event (R400). -/
def PortSt.code : PortSt → Nat
  | .down => 0
  | .training => 1
  | .up => 2
  | .degraded => 3
  | .isolated => 4

/-- Ports of a mask that are Up or Degraded. -/
def State.usablePorts (s : State) (mask : Nat) : List Nat :=
  (List.range 36).filter fun p => mask.testBit p && (s.port p).st.usable

/-- The slot that a link address names (R381). -/
def linkSlot (dpa : Nat) : Nat := dpa / 2 ^ 30 % 2 ^ 15

/-- PATH (R389): 0 every port of PORTS Up, 1 some Degraded or lost, 2 none usable. -/
def State.pathOf (s : State) (mask : Nat) : Nat :=
  if s.usablePorts mask = [] then 2
  else if ((List.range 36).filter mask.testBit).all fun p => (s.port p).st == .up then 0 else 1

/-- The status word (R389). -/
def Slot.word (x : Slot) : Nat :=
  x.att % 2 ^ 16 * 2 ^ 48 + x.lasterr * 2 ^ 32 + x.discards * 2 ^ 16 + x.retries * 2 ^ 8 + x.path

/-- A slot changes: its status word is written where it changes (R389). -/
def State.setSlot (s : State) (n : Nat) (x : Slot) : State :=
  let old := get? s.slots n
  let s := { s with slots := put s.slots n x }
  if (old.map Slot.word) = some x.word then s else (s.putVa x.ctx (vaBits x.status) (leBytes 8 x.word)).getD s

def State.modSlot (s : State) (n : Nat) (f : Slot → Slot) : State :=
  match get? s.slots n with
  | some x => s.setSlot n (f x)
  | none => s

/-- Recompute PATH of every slot. -/
def State.syncPaths (s : State) : State :=
  (keysOf s.slots).foldl (fun s n => s.modSlot n fun x => { x with path := s.pathOf x.ports }) s

/-! ### Requests of this device -/

/-- Send a request over one of the usable ports of its slot (R382, R386); port 36 stands for none. -/
def State.linkSend (s : State) (core op : Nat) (body : LinkBody) (dpa : Nat) : State :=
  match get? s.slots (linkSlot dpa) with
  | none => s
  | some x =>
    let ps := s.usablePorts x.ports
    let (id, s) := s.take
    let r : LinkReq := { id, slot := linkSlot dpa, core, op, body, dpa, att := x.att, tries := 0,
                         port := ps.getD (Config.part s.n % ps.length) 36, sent := s.ticks }
    { s with linkReqs := s.linkReqs ++ [r] }

/-- A slot is mapped to a context (R383). -/
def State.linkMapped (s : State) (ctx dpa : Nat) : Bool :=
  match get? s.slots (linkSlot dpa) with
  | some x => x.ctx == ctx
  | none => false

/-- The group of a core that holds a store. -/
def Core.storeSlot (c : Core) (id : Nat) : Option (Nat × StoreReq) :=
  c.groups.findSome? fun g => (g.2.store? id).map fun r => (g.1, r)

/-- A lane of an operation takes no result: its pending writes end (R200, R388). -/
def Op.dropLane (o : Op) (lane : Nat) : Op :=
  { o with writes := o.writes.map fun w => { w with lanes := w.lanes &&& ~~~ laneBit lane }
           gdst := if lane = lowLane o.lanes then none else o.gdst }

/-- The virtual address at which an end of a copy stands; 0 in local memory. -/
def End.va : End → Word64
  | .glob a => a
  | .loc _ _ _ => 0

/-- Bit 63 set, and the tag of an operation in bits 5–0 (R348). -/
def tagWord (o : Op) : Word64 := BitVec.ofNat 64 (2 ^ 63 + o.tag.getD 0)

/-- A request ends without having been performed here: dropped (no trap), or failed with a cause of the link trap (R387, R388). -/
def State.endRequest (s : State) (r : LinkReq) (cause : Option Nat) : State :=
  let s := { s with linkReqs := s.linkReqs.filter fun q => q.id != r.id }
  let raise := fun (s : State) slot va pc (ws : List Word64) =>
    match cause with
    | some c => s.trap r.core slot 0x60 va pc (BitVec.ofNat 64 c :: ws)
    | none => s
  match r.body with
  | .store id =>
    match (s.core r.core).storeSlot id with
    | none => s
    | some (slot, q) =>
      let s := s.modGroup r.core slot fun g => { g with stores := g.stores.filter fun x => x.id != id }
      let pc := (((s.core r.core).op? q.op).map (·.pc)).getD 0
      raise s slot q.va pc []
  | .drain seq _ =>
    if cause.isSome then
      let now := s.editions.any fun (e : Edition) => e.seq == seq && e.st == .draining
      let s := { s with editions := s.editions.map fun (e : Edition) =>
        if e.seq == seq && e.st == .draining then { e with st := .failed, reason := 2 } else e }
      if !now then s else s.post { cls := 6, code := 2, ctx := 0, core := 0xFF, slot := 0xFF, arg0 := BitVec.ofNat 64 seq, arg1 := 0 }
    else s
  | body =>
    match (s.core r.core).op? r.op with
    | none => s
    | some o =>
      match body with
      | .load lane =>
        let free := fun (a : Acc) => a.took a.todo fun i => Config.droppedByte s.n i
        let va := match o.kind with
          | .load _ _ _ _ accs => ((accs.find? fun a => a.lane == lane).map (·.va)).getD 0
          | _ => 0
        let s := s.modCore r.core fun c => c.modOp r.op fun o =>
          let o := { o with kind := o.kind.modAcc lane free }
          if cause.isSome then o.dropLane lane else o
        raise s o.slot va o.pc []
      | .atom dpa =>
        let q? : Option AtomReq := match o.kind with
          | .atom _ _ _ _ reqs => reqs.find? fun q => q.dpa == dpa
          | _ => none
        match q? with
        | none => s
        | some q =>
          let s := s.modCore r.core fun c => c.modOp r.op fun (o : Op) =>
            let o : Op := { o with kind := o.kind.modReq dpa fun q => { q with done := true } }
            let o := q.lanes.foldl (fun (o : Op) (l : Nat × Word64 × Word64) => if cause.isSome then o.dropLane l.1 else o) o
            if cause.isSome then o
            else o.olds (q.lanes.map fun (l : Nat × Word64 × Word64) => (l.1, BitVec.ofNat 64 (leNat ((List.range 8).map (Config.droppedByte s.n)))))
          raise s o.slot q.va o.pc []
      | _ =>
        let va := match o.kind, body with
          | .copy y, .copyWrite _ => y.dst.va
          | .copy y, _ => y.src.va
          | _, _ => 0
        let next := fun (c : Copy) => if cause.isSome then { c with stopped := true } else match body with
          | .copyWrite data => c.advance data.length
          | _ => c.advance c.piece
        let s := s.modCore r.core fun c => c.modOp r.op fun o => { o with kind := o.kind.modCopy next }
        raise s o.slot va o.pc [tagWord o]

/-- A bulk request is sent again over a remaining port, or fails with cause 3 (R386). -/
def State.resend (s : State) (r : LinkReq) : State :=
  match get? s.slots r.slot with
  | none => s.endRequest r (some 3)
  | some x =>
    let ps := s.usablePorts x.ports
    if x.retry ≤ r.tries ∨ ps = [] then
      (s.modSlot r.slot fun x => { x with lasterr := 2 }).endRequest r (some 3)
    else
      let s := s.modSlot r.slot fun x => { x with retries := min 0xFF (x.retries + 1) }
      { s with linkReqs := s.linkReqs.map fun q => if q.id == r.id then
          { q with tries := q.tries + 1, port := ps.getD (Config.part s.n % ps.length) 36, sent := s.ticks } else q }

/-- An abort token is issued at this end (R387). -/
def State.abortSlot (s : State) (n : Nat) : State := s.modSlot n fun x => { x with att := (x.att + 1) % 2 ^ 16 }

/-- The requests lost on a port, or for which there is none: bulk ones are resent, the loss of a slot's reduction-class requests
issues one token, and they count as dropped (R386, R387). -/
def State.lose (s : State) (lost : LinkReq → Bool) : State :=
  let gone := s.linkReqs.filter lost
  let red := fun (r : LinkReq) => ((get? s.slots r.slot).map (·.reduction)).getD false
  let s := ((gone.filter red).map (·.slot)).eraseDups.foldl (fun s n => s.abortSlot n) s
  gone.foldl (fun s r => if red r then s.endRequest r none else s.resend r) s

/-- A port changes (R380): its keeper signals a change of state, slots take their new PATH, and what was in flight on a port that
is no longer Up or Degraded is lost. -/
def State.setPort (s : State) (n : Nat) (p : Port) : State :=
  let old := s.port n
  let s := { s with ports := put s.ports n p }
  if old.st = p.st then s
  else
    let s := s.syncPaths
    let s := if p.st.usable then s else s.lose fun r => r.port == n
    s.post { cls := 5, code := p.st.code, ctx := 0, core := 0xFF, slot := 0xFF, arg0 := BitVec.ofNat 64 n,
             arg1 := BitVec.ofNat 64 (if p.st.usable then p.lanes else 0) }

/-- 20 ms of training end with a number of aligned lanes (R380). -/
def execLinkTrainingEnd (port lanes peer : Nat) (s : State) : Res :=
  let p := s.port port
  if p.st ≠ .training ∨ 36 ≤ port then .next s
  else
    .next (s.setPort port
      { p with st := if lanes = 0 then .down else if 4 ≤ lanes then .up else .degraded, lanes := min 4 lanes,
               peer := if lanes = 0 then p.peer else peer % 2 ^ 16, failed := 0 })

/-- A lane is dropped (R380). -/
def execLinkLaneError (port : Nat) (s : State) : Res :=
  let p := s.port port
  if !p.st.usable then .next s
  else .next (s.setPort port { p with st := if p.lanes ≤ 1 then .down else .degraded, lanes := p.lanes - 1 })

/-- A flit is accepted, or its replay fails; 16 failures in a row isolate the port (R380). -/
def execLinkFlitReceive (port : Nat) (accepted : Bool) (s : State) : Res :=
  let p := s.port port
  if !p.st.usable then .next s
  else if accepted then .next (s.setPort port { p with failed := 0 })
  else
    .next (s.setPort port
      { p with failed := p.failed + 1, replays := p.replays + 1, st := if 15 ≤ p.failed then .isolated else p.st,
               lanes := if 15 ≤ p.failed then 0 else p.lanes })

/-- A bulk request without acknowledgement for 100 µs, or with no port to leave on (R386). -/
def execLinkBulkTimeout (request : Nat) (s : State) : Res :=
  match s.linkReqs.find? fun r => r.id == request with
  | none => .next s
  | some r =>
    if r.port = 36 then .next (s.lose fun q => q.id == request)
    else if ((get? s.slots r.slot).map (·.reduction)).getD false || decide (s.ticks < r.sent + nsTicks 100000) then .next s
    else .next (s.resend r)

/-- An abort token arrives (R387). -/
def execLinkAbortTokenArrival (slot att : Nat) (s : State) : Res :=
  .next (s.modSlot slot fun x =>
    let ahead := (att + 2 ^ 16 - x.att % 2 ^ 16) % 2 ^ 16
    if x.reduction && decide (0 < ahead) && decide (ahead < 2 ^ 15) then { x with att := att % 2 ^ 16, lasterr := 3 } else x)

/-! ### Requests of peers (R385, R387, R229) -/

/-- A range opened to a peer for a kind of access. -/
def State.exported (s : State) (peer dpa n : Nat) (kind : LinkExport → Bool) : Bool :=
  s.exports.any fun e => e.peer == peer && kind e && decide (e.base ≤ dpa) && decide (dpa + n ≤ e.base + e.size)

/-- Bytes that an inbound request touches. -/
def inboundSize : Inbound → Nat
  | .read n => n
  | .write b => b.length
  | .atomic _ _ w _ => if w then 8 else 4

/-- Whether an inbound access is allowed: an open range of the kind, within one page of a region, no store to a view. -/
def State.inboundOk (s : State) (peer dpa : Nat) (a : Inbound) : Bool :=
  s.exported peer dpa (inboundSize a) (fun e => match a with
    | .read _ => e.r
    | .write _ => e.w
    | .atomic _ _ _ _ => e.a) && decide (0 < inboundSize a) && !isLink dpa && decide (dpa % 4096 + inboundSize a ≤ 4096) && match s.regionAt dpa with
      | some r => r.view.isNone || (match a with
          | .read _ => true
          | _ => false)
      | none => false

/-- A peer's request (R385, R387): refused, dropped as older, or performed at the home; a store or an atomic is acknowledged
later, under R229. -/
def execLinkInboundRequest (peer : Nat) (slotAtt : Option (Nat × Nat)) (dpa : Nat) (access : Inbound) (s : State) : Res :=
  let who : Instr := .linkInboundRequest peer slotAtt dpa access
  let (s, older) := match slotAtt with
    | none => (s, false)
    | some (n, att) =>
      match get? s.slots n with
      | none => (s, false)
      | some x =>
        let ahead := (att + 2 ^ 16 - x.att % 2 ^ 16) % 2 ^ 16
        if ahead = 0 then (s, false)
        else if ahead < 2 ^ 15 then (s.setSlot n { x with att := att % 2 ^ 16, lasterr := 3 }, false)
        else (s.setSlot n { x with discards := min 0xFFFF (x.discards + 1) }, true)
  if older || !s.inboundOk peer dpa access then .next s
  else
    match access with
    | .read n =>
      match s.homeRead who dpa n with
      | (s, none) => .next (s.park (pageOf dpa) who)
      | (s, some _) => .next s
    | .write b =>
      match s.homeWrite who dpa b.length (fun i => b[i]?) none with
      | (s, none) => .next (s.park (pageOf dpa) who)
      | (s, some t) => .next { s with inboundAcks := s.inboundAcks ++ [(peer, dpa, t)] }
    | .atomic op kind wide operands =>
      let n := if wide then 8 else 4
      match s.homeRead who dpa n with
      | (s, none) => .next (s.park (pageOf dpa) who)
      | (s, some old) =>
        let (new, _) := atomUnit op kind wide (BitVec.ofNat 64 (leNat old)) ((List.range operands.length).zip operands)
        let out := leBytes n new.toNat
        match s.homeWrite who dpa n (fun i => out[i]?) none with
        | (s, none) => .next (s.park (pageOf dpa) who)
        | (s, some t) => .next { s with inboundAcks := s.inboundAcks ++ [(peer, dpa, t)] }

/-- A remote store or atomic performed here is acknowledged once no fetch pins its line and device time has passed its GWCT (R229, R234). -/
def execRemoteStoreAcknowledge (idx : Nat) (s : State) : Res :=
  match s.inboundAcks[idx]? with
  | some (_, dpa, t) => .next (if t < s.ns ∧ !s.pinned (lineOf dpa) then { s with inboundAcks := s.inboundAcks.eraseIdx idx } else s)
  | none => .next s

end Sys2Proof.Machine
end

