-- ==== Sys2Proof/Machine/LocalMem.lean ====
section
/-! DEFINITION. Local memory (R211, R221, R332), windows (R214, R215, R343, R344), sealed ranges (R224, R346) and range locks
(R231, R232). -/

namespace Sys2Proof.Machine

/-! ### Local addresses (R332) -/

/-- A place in the local memory of a team. -/
structure Place where
  core : Nat
  team : Nat
  off : Nat
  deriving DecidableEq, Repr

/-- The coordinates of a team in its grid (R145). -/
def Team.px (t : Team) : Nat := t.pos.toNat % 2 ^ 32
def Team.py (t : Team) : Nat := t.pos.toNat / 2 ^ 32 % 2 ^ 16
def Team.pz (t : Team) : Nat := t.pos.toNat / 2 ^ 48

/-- Two teams of one cluster (R27, R145). -/
def sameCluster (a b : Team) : Bool :=
  a.kernel == b.kernel && a.anchor == b.anchor && a.pz == b.pz && a.px + b.clx == b.px + a.clx && a.py + b.cly == b.py + a.cly

/-- The team at a position of a team's cluster: its core and number. -/
def State.peer? (s : State) (core team px py : Nat) : Option (Nat × Nat) :=
  match s.team? core team with
  | none => none
  | some t =>
    if px = t.clx ∧ py = t.cly then some (core, team)
    else if px < t.clw ∧ py < t.clh then
      let c := t.anchor + 8 * py + px
      (((s.core c).teams.find? fun q => q.2.clx == px && q.2.cly == py && sameCluster q.2 t)).map fun q => (c, q.1)
    else none

/-- A local address of n bytes (R332); none raises the local-range trap. -/
def State.place? (s : State) (core team : Nat) (a : Word32) (n : Nat) : Option Place :=
  let x := a.toNat
  let off := x % 2 ^ 21
  let owner := if x.testBit 29 then
      (match s.team? core team with
      | some t => if t.clw = 0 then none else s.peer? core team (x / 2 ^ 21 % 16) (x / 2 ^ 25 % 16)
      | none => none)
    else some (core, team)
  if x / 2 ^ 30 ≠ 0 then none
  else
    match owner with
    | none => none
    | some (c, t) =>
      match s.team? c t with
      | some q => if off + n ≤ q.localBytes then some { core := c, team := t, off } else none
      | none => none

/-! ### Windows (R214) -/

/-- The window that holds a local offset, with its number. -/
def Team.window? (t : Team) (off : Nat) : Option (Nat × Window) :=
  t.windows.find? fun w => !w.2.closing && decide (w.2.loc ≤ off) && decide (off < w.2.loc + w.2.len)

/-- V and DBM of a word of a window; a word not listed is Invalid. -/
def Window.word (w : Window) (i : Nat) : Bool × BitVec 4 := (get? w.words i).getD (false, 0)

/-- The DPA of a byte of a window's range (R344). -/
def Window.dpa (w : Window) (i : Nat) : Nat :=
  4096 * w.pages.getD ((w.base + i) / 4096 - w.base / 4096) 0 + (w.base + i) % 4096

def Team.byte (t : Team) (off : Nat) : Byte := (get? t.mem off).getD 0
def Team.setByte (t : Team) (off : Nat) (b : Byte) : Team := { t with mem := if b = 0 then del t.mem off else put t.mem off b }

/-- Bit i of a dirty-byte mask. -/
def dbmBit (m : BitVec 4) (i : Nat) : Bool := m.getLsbD i

/-- Whether a read of a word needs a line fetch (R214). -/
def Window.needsFetch (w : Window) (now i : Nat) : Bool :=
  match w.word i with
  | (false, _) => true
  | (true, d) => d == 0 && decide ((get? w.leases (i / 16)).getD 0 ≤ now)

/-- A line fetch (R214), or the fetch of a half of a line of which the host owns the other (R226): of `count` words from `first`, Invalid
and Clean words are rewritten, Partial words merged, Dirty words left alone. -/
def Team.fetched (t : Team) (k : Nat) (w : Window) (first count limit : Nat) (bytes : List Byte) : Team :=
  let t := (List.range count).foldl (fun (t : Team) j =>
    let i := first + j
    let (v, d) := w.word i
    if v ∧ d ≠ 0 then t
    else (List.range 4).foldl (fun (t : Team) b => if dbmBit d b then t else t.setByte (w.loc + 4 * i + b) (bytes.getD (4 * j + b) 0)) t) t
  let words := (List.range count).foldl (fun m j => put m (first + j) (true, (w.word (first + j)).2)) w.words
  let leases := (List.range (count / 16)).foldl (fun m u => put m (first / 16 + u) limit) w.leases
  { t with windows := put t.windows k { w with words := words, leases := leases } }

/-- A window's write-back to some bytes is not yet performed at their home (R214). -/
def Core.backLeft (c : Core) (team dpa n : Nat) : Bool :=
  c.groups.any fun g => g.2.team == team && g.2.stores.any fun r => r.lane == 64 && r.todo != 0 && overlaps r.dpa r.width dpa n

/-- Fetch the line of half `u` of a window from its home; the halves fetched, or none where the home lets it wait. -/
def State.windowFetch (s : State) (p : Place) (k u : Nat) (who : Instr) : State × Option (List Nat) :=
  match s.team? p.core p.team with
  | none => (s, some [])
  | some t =>
    match get? t.windows k with
    | none => (s, some [])
    | some w =>
      let dpa := w.dpa (64 * u)
      let span := s.fillSpan dpa 64
      let us := if span.2 = 128 then [u / 2 * 2, u / 2 * 2 + 1] else [u]
      if (s.core p.core).backLeft p.team span.1 span.2 then (s, none)
      else
        match s.homeRead who span.1 span.2 with
        | (s, none) => (s, none)
        | (s, some bytes) =>
          let (s, e) := s.grantLease p.core t.ctx (lineOf dpa)
          let bytes := (List.range span.2).map fun i => (t.heldByte (span.1 + i)).getD (bytes.getD i 0)
          (s.modTeam p.core p.team fun t => t.fetched k w (16 * us.headD u) (span.2 / 4) (e.getD s.ns) bytes, some us)

/-- The words that n bytes at an offset touch, as word numbers of the window. -/
def wordsIn (w : Window) (off n : Nat) : List Nat :=
  (List.range ((n + off % 4 + 3) / 4)).map fun j => (off - w.loc) / 4 + j

/-- Fetch what a read needs of one window: words `l` (R214). -/
def State.readyWindow (s : State) (p : Place) (k : Nat) (w : Window) (l : List Nat) (who : Instr) : State × Bool :=
  let need := ((l.filter fun i => w.needsFetch s.ns i).map (· / 16)).eraseDups
  let (s, ok, _) := need.foldl (fun (acc : State × Bool × List Nat) u =>
    if !acc.2.1 || acc.2.2.contains u then acc
    else
      match acc.1.windowFetch p k u who with
      | (s, none) => (s, false, acc.2.2)
      | (s, some us) => (s, true, us ++ acc.2.2)) (s, true, [])
  (if ok then l.foldl (fun s i => s.readMark p.core p.team (w.dpa (4 * i)) 4) s else s, ok)

/-- Fetch the lines that a read of n bytes needs, of every window that it meets; false where a home lets one wait. -/
def State.readyLocal (s : State) (p : Place) (n : Nat) (who : Instr) : State × Bool :=
  match s.team? p.core p.team with
  | none => (s, true)
  | some t =>
    (t.windows.filter fun w => !w.2.closing && overlaps w.2.loc w.2.len p.off n).foldl (fun (acc : State × Bool) w =>
      let lo := max p.off w.2.loc
      let hi := min (p.off + n) (w.2.loc + w.2.len)
      if acc.2 then acc.1.readyWindow p w.1 w.2 (wordsIn w.2 lo (hi - lo)) who else acc) (s, true)

/-- The bytes at a place, as its bank holds them. -/
def State.localBytes (s : State) (p : Place) (n : Nat) : List Byte :=
  match s.team? p.core p.team with
  | some t => (List.range n).map fun i => t.byte (p.off + i)
  | none => zeros n

/-- Write bytes at a place (R211, R214): a window word becomes Dirty or Partial over the bytes written; `clk` is the clock in which the
store was issued. -/
def Team.store (t : Team) (clk off n : Nat) (f : Nat → Byte) : Team :=
  (List.range n).foldl (fun (t : Team) i =>
    let t' := t.setByte (off + i) (f i)
    match t.window? (off + i) with
    | none => t'
    | some (k, w) =>
      let j := (off + i - w.loc) / 4
      let (v, d) := w.word j
      let b := BitVec.twoPow 4 ((off + i) % 4)
      let d := d ||| b
      let old := if clk ≤ w.freshClock then w.fresh else []
      let new := (get? old j).getD 0
      { t' with windows := put t.windows k { w with words := put w.words j (v || d == 0xF, d), freshClock := max clk w.freshClock,
                                                    fresh := put old j (if clk < w.freshClock then new &&& ~~~ b else new ||| b) } }) t

def State.storeLocal (s : State) (p : Place) (n : Nat) (f : Nat → Byte) : State :=
  s.modTeam p.core p.team fun t => t.store s.clock p.off n f

/-! ### Write-back (R214, R344) -/

/-- Stores leave a group: an eligible team keeps them in its 256 KiB buffer, whose overflow commits them (R146). -/
def State.putStores (s : State) (core slot team : Nat) (l : List StoreReq) : State :=
  match s.team? core team with
  | none => s
  | some t =>
    if t.idem then
      let l := l.map fun r => { r with slot := slot }
      let s := s.modTeam core team fun t => { t with uncommitted := t.uncommitted ++ l }
      if 2 ^ 18 < ((t.uncommitted ++ l).map (·.width)).sum then s.commit core slot team else s
    else s.modGroup core slot fun g => { g with stores := g.stores ++ l }

/-- The dirty bytes of a window, by word. -/
def Window.dirty (w : Window) : List (Nat × BitVec 4) := (w.words.filter fun x => x.2.2 != 0).map fun x => (x.1, x.2.2)

/-- The dirty bytes that stood at the start of a clock (R344). -/
def Window.dirtyBefore (w : Window) (clk : Nat) : List (Nat × BitVec 4) :=
  (w.dirty.map fun x => (x.1, if w.freshClock = clk then x.2 &&& ~~~ (get? w.fresh x.1).getD 0 else x.2)).filter fun x => x.2 != 0

/-- The store that writes a word of a window back: `.strong.device`, with a byte mask; it belongs to no lane. -/
def wordStore (t : Team) (w : Window) (id op : Nat) (x : Nat × BitVec 4) : StoreReq :=
  let b := fun j => ((t.byte (w.loc + 4 * x.1 + j)).setWidth 128 : BitVec 128) <<< (8 * j)
  { id, op, lane := 64, va := BitVec.ofNat 64 (w.base + 4 * x.1), dpa := w.dpa (4 * x.1), width := 4,
    data := b 0 ||| b 1 ||| b 2 ||| b 3, todo := x.2.setWidth 16, cls := .strong, scope := .device, tag := none, gwct := 0, stamps := [], firm := false }

/-- The words of a window after some dirty bytes are written back: Dirty becomes Clean, Partial Invalid (R214). -/
def Window.written (w : Window) (sel : List (Nat × BitVec 4)) : SMap (Bool × BitVec 4) :=
  w.words.filterMap fun x =>
    let d := x.2.2 &&& ~~~ ((sel.find? fun y => y.1 == x.1).map (·.2)).getD 0
    if d = 0 ∧ !x.2.1 then none else some (x.1, (x.2.1, d))

/-- Dirty bytes of a window leave as stores of operation `op` of a group; their DBM is cleared (R214). -/
def State.writeBack (s : State) (core slot team k op : Nat) (sel : Window → List (Nat × BitVec 4)) : State :=
  match s.team? core team with
  | none => s
  | some t =>
    match get? t.windows k with
    | none => s
    | some w =>
      let (s, reqs) := (sel w).foldl (fun (acc : State × List StoreReq) x =>
        let (id, s) := acc.1.take
        (s, acc.2 ++ [wordStore t w id op x])) (s, [])
      let s := s.modTeam core team fun t => { t with windows := put t.windows k { w with words := w.written (sel w) } }
      s.putStores core slot team reqs

/-! ### Local accesses at their banks (R204, R211) -/

def BankAcc.place (a : BankAcc) : Place := { core := a.core, team := a.team, off := a.off }

/-- The key under which a thread's accesses to a local byte are kept beside those to global bytes (R204). -/
def Place.key (p : Place) : Nat := 2 ^ 60 + 2 ^ 21 * (256 * p.team + p.core) + p.off

/-- Two accesses touch the same bytes of one team's memory. -/
def BankAcc.meets (a : BankAcc) (p : Place) (n : Nat) : Bool := a.core == p.core && a.team == p.team && overlaps a.off a.width p.off n

/-- The local accesses of an operation that are not yet performed. -/
def OpKind.bankLeft : OpKind → List BankAcc
  | .bank _ _ _ accs => accs.filter fun a => a.todo != 0
  | _ => []

def OpKind.modBank (k : OpKind) (f : BankAcc → BankAcc) : OpKind :=
  match k with
  | .bank act cls clk accs => .bank act cls clk (accs.map f)
  | k => k

/-- An earlier local access of the lane to the same bytes is not yet performed. -/
def Core.bankBefore (c : Core) (slot lane id : Nat) (p : Place) (n : Nat) : Bool :=
  c.ops.any fun o => o.slot == slot && decide (o.id < id) && o.kind.bankLeft.any fun a => a.lane == lane && a.meets p n

/-- A local access may be performed: nothing goes before it by its bytes or by its class (R204). -/
def Core.bankOk (c : Core) (o : Op) (cls : MemClass) (a : BankAcc) : Bool :=
  !c.bankBefore o.slot a.lane o.id a.place a.width && !c.follows o.slot a.lane o.id (2 ^ 60) 0 cls

/-- The parts of a local access that may be performed now: the lowest lane's, whole or, if weak, by bytes; of an atomic, any address
(R204, R211, R222). -/
def Core.bankParts (c : Core) (o : Op) : List (BankAcc × BitVec 16) :=
  match o.kind with
  | .bank (.atom _ _ _) cls _ accs =>
    let left := accs.filter fun a => a.todo != 0
    (left.filter fun a => left.all fun b => b.place != a.place || c.bankOk o cls b).map fun a => (a, a.todo)
  | .bank _ cls _ accs =>
    match accs.find? fun a => a.todo != 0 with
    | some a => if c.bankOk o cls a then (pieces (cls == .weak) a.todo).map fun b => (a, b) else []
    | none => []
  | _ => []

/-- Poison in a range of local memory: the granule's address (R410). -/
def State.localPoison (s : State) (p : Place) (n : Nat) : Option Nat :=
  ((s.team? p.core p.team).bind fun t => t.poison.find? fun g => overlaps (32 * g) 32 p.off n).map (32 * ·)

/-- What the thread's last access to some local bytes was. -/
def State.noteLocal (s : State) (core slot : Nat) (a : BankAcc) (bytes : BitVec 16) (f : Nat → Byte) : State :=
  s.modGroup core slot fun g => g.note a.lane a.place.key (((List.range a.width).filter (byteBit bytes)).map fun i => (i, f i))

/-- Some bytes of a lane's local load or store are performed at their bank; unchanged where a window's line must wait. -/
def State.bankPerform (s : State) (core : Nat) (o : Op) (act : BankAct) (clk : Nat) (a : BankAcc) (bytes : BitVec 16) : State :=
  let p := a.place
  let mine := fun (b : BankAcc) => b.lane == a.lane
  match act with
  | .store =>
    let s := s.modTeam p.core p.team fun t =>
      ((List.range a.width).filter (byteBit bytes)).foldl (fun (t : Team) i => t.store clk (p.off + i) 1 fun _ => byteOf a.data i) t
    (s.modCore core fun c => c.modOp o.id fun o =>
      { o with kind := o.kind.modBank fun b => if mine b then { b with todo := b.todo &&& ~~~ bytes } else b }).noteLocal core o.slot a bytes
        (byteOf a.data)
  | _ =>
    match s.readyLocal p a.width (.operationComplete core o.id) with
    | (s, false) => s
    | (s, true) =>
      let l := s.localBytes p a.width
      let byte := fun i => l.getD i 0
      (s.modCore core fun c => c.modOp o.id fun o =>
        { o with kind := o.kind.modBank fun b => if mine b then { b with todo := b.todo &&& ~~~ bytes, data := mergeBytes b.data bytes byte } else b
                 poison := o.poison <|> (s.localPoison p a.width).map fun g => (2, BitVec.ofNat 64 g) }).noteLocal core o.slot a bytes byte

/-- One unit of a local atomic at its bank (R222, R341): the lanes that name the address, ascending. -/
def State.bankAtom (s : State) (core : Nat) (o : Op) (op : AtomOp) (kind : AtomKind) (wide : Bool) (clk : Nat) (accs : List BankAcc)
    (a : BankAcc) : State :=
  let p := a.place
  let n := a.width
  match s.readyLocal p n (.operationComplete core o.id) with
  | (s, false) => s
  | (s, true) =>
    let unit := accs.filter fun b => b.place == p
    let lanes : List (Nat × Word64 × Word64) := unit.map fun (b : BankAcc) => (b.lane, b.data.setWidth 64, (b.data >>> 64).setWidth 64)
    let (new, olds) := atomUnit op kind wide (BitVec.ofNat 64 (leNat (s.localBytes p n))) lanes
    let poison := (s.localPoison p n).map fun g => (2, BitVec.ofNat 64 g)
    let s := s.modTeam p.core p.team fun t => t.store clk p.off n fun i => (new >>> (8 * i)).setWidth 8
    s.modCore core fun c => (c.modOp o.id fun o =>
      { o.olds olds with kind := o.kind.modBank fun b => if b.place == p then { b with todo := 0 } else b, poison := o.poison <|> poison }).modGroup
        o.slot fun g => g.forgetRange (maskOf fun j => unit.any fun b => b.lane == j) p.key n

/-- A part of a local access is performed. -/
def State.bankDo (s : State) (core : Nat) (o : Op) (part : BankAcc × BitVec 16) : State :=
  match o.kind with
  | .bank (.atom op kind wide) _ clk accs => s.bankAtom core o op kind wide clk accs part.1
  | .bank act _ clk _ => s.bankPerform core o act clk part.1 part.2
  | _ => s

/-- All that may be performed of one local access is, lowest lanes first. -/
def State.bankAll (s : State) (core id : Nat) : State :=
  (List.range 64).foldl (fun s _ =>
    match (s.core core).op? id with
    | none => s
    | some o =>
      match (s.core core).bankParts o with
      | [] => s
      | part :: _ => s.bankDo core o part) s

/-- Local accesses that a team's groups issued in earlier clocks are performed, in the order of their issue, by the time that one of its
windows is written back: their bytes are bytes stored in an earlier clock (R344). -/
def State.bankFlush (s : State) (core team : Nat) : State :=
  ((s.core core).ops.filter fun o => o.team == team && match o.kind with
    | .bank _ _ clk accs => decide (clk < s.clock) && accs.any fun a => a.todo != 0
    | _ => false).foldl (fun s o => s.bankAll core o.id) s

/-- Local accesses of some lanes of a group are left to perform. -/
def Core.banksLeft (c : Core) (slot : Nat) (m : Mask) : Bool :=
  c.ops.any fun o => o.slot == slot && o.kind.bankLeft.any fun a => has m a.lane

/-- Local accesses to a range of a team's memory, from any core, are left to perform; `write`: stores and atomics only. -/
def State.banksOn (s : State) (p : Place) (n : Nat) (write : Bool) : Bool :=
  s.cores.any fun c => c.2.ops.any fun o => (!write || match o.kind with
    | .bank (.load _) _ _ _ => false
    | _ => true) && o.kind.bankLeft.any fun a => a.meets p n

/-- A write lock, on any core, meets a window's local range: its write-back and invalidation wait (R344). -/
def State.windowLocked (s : State) (core team : Nat) (w : Window) : Bool :=
  s.cores.any fun c => c.2.locks.any fun l => l.write && l.space == some (core, team) && decide (l.lo < w.loc + w.len) && decide (w.loc < l.hi)

/-! ### Locks (R231–R233) and sealed ranges (R224) -/

/-- Ranges meet in 128-byte granules. -/
def Lock.meets (l : Lock) (space : Option (Nat × Nat)) (ctx lo hi : Nat) : Bool :=
  l.space == space && (space.isSome || l.ctx == ctx) && decide (l.lo / 128 ≤ (hi - 1) / 128) && decide (lo / 128 ≤ (l.hi - 1) / 128)

/-- A thread access that meets a lock of its own group's operation raises the range-lock trap: a load meets write locks, a
store both kinds (R232).  The lock of a peer's memory stands in the table of the core that issued the operation. -/
def Core.locked (c : Core) (slot : Nat) (space : Option (Nat × Nat)) (ctx lo n : Nat) (write : Bool) : Bool :=
  c.locks.any fun l => l.slot == slot && (l.write || write) && l.meets space ctx lo (lo + n)

/-- A range meets a sealed range of its team (R224). -/
def Team.isSealed (t : Team) (off n : Nat) : Bool := t.seals.any fun x => overlaps x.2.loc x.2.len off n

def State.sealed (s : State) (p : Place) (n : Nat) : Bool := ((s.team? p.core p.team).map fun t => t.isSealed p.off n).getD false

end Sys2Proof.Machine
end

