-- ==== Sys2Proof/Machine/LoadStore.lean ====
section
/-! DEFINITION. Loads, stores, prefetch, cache control and granule tags (R199, R200, R204–R211, R332–R340, R345), with the traps
before issue that every instruction of the chapter shares (R335). -/

namespace Sys2Proof.Machine

/-! ### Traps before issue (R332, R333, R335) -/

/-- A trap before issue: code, address, trap words. -/
abbrev Stop := Nat × Word64 × List Word64

/-- Raise a trap of the issuing gang before issue: no lane performs the access. -/
def Gang.stop (x : Gang) (s : State) (e : Stop) : State := x.trap s e.1 e.2.1 e.2.2

/-- One lane's global address and where it translates. -/
structure Spot where
  lane : Nat
  va : Word64
  dpa : Nat
  deriving DecidableEq, Repr

/-- Translate the lanes' addresses, lowest lane first; the first that does not translate stops them all (R176). -/
def State.spots (s : State) (core ctx : Nat) (need : Need) : List (Nat × Word64) → Except Stop (State × List Spot)
  | [] => .ok (s, [])
  | (j, a) :: t =>
    match s.translate core ctx a need with
    | .error c => .error (0x10, a, [BitVec.ofNat 64 c])
    | .ok (s, dpa) =>
      match s.spots core ctx need t with
      | .error e => .error e
      | .ok (s, l) => .ok (s, { lane := j, va := a, dpa } :: l)

/-- The memory windows of the root ports, which `LD.vol` and `ST.vol` of up to 8 bytes reach (R333, R392). -/
def pcieWindow (dpa n : Nat) : Bool :=
  decide (0x1010000000000 ≤ dpa) && decide (dpa + n ≤ 0x1010000000000 + 4 * 0x4000000000) && decide (n ≤ 8)

/-- What an access asks of its addresses: its width, the need, whether it may reach host-die windows and link ranges, and whether
range locks and watchpoints apply to it. -/
structure Ask where
  n : Nat
  need : Need
  host : Bool
  link : Bool
  access : Bool

/-- Whether an armed watchpoint of a context meets an access (R414). -/
def Ctx.watched (c : Ctx) (need : Need) (va n : Nat) : Bool :=
  c.watches.any fun w => overlaps w.2.base.toNat w.2.size va n && (if need = .store then w.2.write else w.2.read)

def State.watchHit (s : State) (x : Gang) (q : Ask) (va : Word64) : Bool :=
  q.access && (s.ctx x.grp.ctx).watched q.need (vaBits va) q.n

/-- The first lane at which a check fails. -/
def failAt (l : List Spot) (code : Nat) (words : List Word64) (bad : Spot → Bool) : Option Stop :=
  (l.find? bad).map fun p => (code, p.va, words)

/-- The traps of R335 that a translated access may raise, in their order; the link trap stands after the memory-space trap
(log 14). -/
def State.spotStop (s : State) (x : Gang) (q : Ask) (l : List Spot) : Option Stop :=
  let write := q.need == .store
  failAt l 0x3B [] (fun p => (isHostDie p.dpa && !(q.host && pcieWindow p.dpa q.n)) || (isLink p.dpa && !q.link))
  <|> failAt l 0x60 [1] (fun p => isLink p.dpa && !s.linkMapped x.grp.ctx p.dpa)
  <|> failAt l 0x35 [] (fun p => write && ((s.regionAt p.dpa).map (·.view.isSome)) == some true)
  <|> failAt l 0x33 [] (fun p => q.access && (s.core x.core).locked x.slot none x.grp.ctx (vaBits p.va) q.n write)
  <|> failAt l 0x53 [] (fun p => s.watchHit x q p.va && !has x.grp.stepping p.lane)

/-- The checks before issue of an access to global memory (R335): the translated lanes, or the trap. -/
def State.globalCheck (s : State) (x : Gang) (q : Ask) (addrs : List (Nat × Word64)) : Except Stop (State × List Spot) :=
  match addrs.find? fun a => a.2.toNat % q.n != 0 with
  | some a => .error (0x32, a.2, [])
  | none =>
    match s.spots x.core x.grp.ctx q.need addrs with
    | .error e => .error e
    | .ok (t, l) =>
      match t.spotStop x q l with
      | some e => .error e
      | none =>
        let used := maskOf fun j => l.any fun p => p.lane == j && t.watchHit x q p.va
        .ok (t.modGroup x.core x.slot fun g => { g with stepping := g.stepping &&& ~~~ used }, l)

/-- The checks before issue of an access to local memory (R335): misalignment, range, seal and locks. -/
def State.localCheck (s : State) (x : Gang) (n : Nat) (write : Bool) (addrs : List (Nat × Word32)) :
    Except Stop (List (Nat × Place)) :=
  let wide := fun (a : Word32) => (a.setWidth 64 : Word64)
  match addrs.find? fun a => a.2.toNat % n != 0 with
  | some a => .error (0x32, wide a.2, [])
  | none =>
    match addrs.find? fun a => (s.place? x.core x.grp.team a.2 n).isNone with
    | some a => .error (0x39, wide a.2, [])
    | none =>
      let l := addrs.filterMap fun a => (s.place? x.core x.grp.team a.2 n).map fun p => (a, p)
      match l.find? fun a => write && s.sealed a.2 n with
      | some a => .error (0x34, wide a.1.2, [])
      | none =>
        match l.find? fun a => (s.core x.core).locked x.slot (some (a.2.core, a.2.team)) x.grp.ctx a.2.off n write with
        | some a => .error (0x33, wide a.1.2, [])
        | none => .ok (l.map fun a => (a.1.1, a.2))

/-! ### Addresses and data -/

/-- The global address of a thread in format M (R333). -/
def Group.addrM (g : Group) (f : FM) (i : Nat) : Word64 := g.src64 i false f.a + f.off.signExtend 64

/-- Data of n bytes that a thread stores (R336): the low bits of a 32-bit source, a pair, or four registers. -/
def Group.dataOf (g : Group) (n i : Nat) (d : Spec) : BitVec 128 :=
  if n = 16 then
    match d with
    | .main k => (g.mainAt (k.val + 3) i ++ g.mainAt (k.val + 2) i) ++ (g.mainAt (k.val + 1) i ++ g.mainAt k.val i)
    | _ => 0
  else if n = 8 then (g.src64 i false d).setWidth 128
  else (g.src32 i d).setWidth 128

/-- The bytes of an access of n bytes. -/
def fullBytes (n : Nat) : BitVec 16 := BitVec.ofNat 16 (2 ^ n - 1)

/-- The 128-bit value of some bytes. -/
def ofBytes (l : List Byte) : BitVec 128 := BitVec.ofNat 128 (leNat l)

/-- Registers that n bytes fill. -/
def wordsOf (n : Nat) : Nat := (n + 3) / 4

/-- Extend(x, SX) of a loaded value (R85). -/
def extendLoad (n : Nat) (sx : Bool) (x : BitVec 128) : BitVec 128 :=
  if 4 ≤ n then x
  else if n = 1 then (if sx then ((x.setWidth 8).signExtend 32).setWidth 128 else (x.setWidth 8).setWidth 128)
  else if sx then ((x.setWidth 16).signExtend 32).setWidth 128 else (x.setWidth 16).setWidth 128

/-! ### Idempotent launches (R146) -/

/-- An instruction that ends a team's eligibility: false where it issues again once the stores have committed. -/
def State.leaveIdem (s : State) (x : Gang) (ends : Bool) : State × Bool :=
  match s.team? x.core x.grp.team with
  | some t => if t.idem && ends then (s.commit x.core x.slot x.grp.team, t.uncommitted.isEmpty) else (s, true)
  | none => (s, true)

/-! ### Tag checks (R199, R200) -/

/-- The tag that a thread's youngest store in a list sets on a granule. -/
def pendingTag (l : List StoreReq) (lane dpa : Nat) : Option (BitVec 4) :=
  (l.reverse.find? fun r => r.lane == lane && r.tag.isSome && r.dpa / 32 == dpa / 32).bind (·.tag)

/-- The tag of a granule of a tagged region, as a lane meets it: its own pending `STAG`, the L1 copy's, or the home's. -/
def State.tagSeen (s : State) (x : Gang) (lane dpa : Nat) (useL1 : Bool) : BitVec 4 :=
  let team := ((s.team? x.core x.grp.team).map (·.uncommitted)).getD []
  match pendingTag (x.grp.stores ++ team) lane dpa with
  | some t => t
  | none =>
    match if useL1 then (s.core x.core).l1Live s.ns (lineOf dpa) else none with
    | some l => l.tags.getD (dpa / 32 % 4) 0
    | none => (get? s.tags (dpa / 32)).getD 0

/-- Whether the region of an address carries tags. -/
def State.tagged (s : State) (dpa : Nat) : Bool := ((s.regionAt dpa).map (·.tag)).getD false

/-- A granule's tag at its home, among those that n bytes touch, that differs from the pointer's: what an engine's access meets (R199). -/
def State.homeBadTag (s : State) (va : Word64) (dpa n : Nat) : Option (BitVec 4) :=
  if s.tagged dpa then
    (List.range ((n + dpa % 32 + 31) / 32)).findSome? fun i =>
      let t := (get? s.tags (dpa / 32 + i)).getD 0
      if t = tagOf va then none else some t
  else none

/-- The granule's tag where it differs from the pointer's. -/
def State.badTag (s : State) (x : Gang) (useL1 : Bool) (p : Spot) : Option (BitVec 4) :=
  if s.tagged p.dpa then
    let t := s.tagSeen x p.lane p.dpa useL1
    if t = tagOf p.va then none else some t
  else none

/-- The tag-check trap of the lowest lane that fails, raised after issue (R200). -/
def State.tagTrap (s : State) (x : Gang) (useL1 : Bool) (l : List Spot) : State :=
  match l.find? fun p => (s.badTag x useL1 p).isSome with
  | some p => x.trap s 0x30 p.va [((s.badTag x useL1 p).getD 0).setWidth 64]
  | none => s

/-! ### Loads (R336, R338) -/

/-- An access of a lane waits at issue where one that it must follow is not performed. -/
def State.mustWait (s : State) (x : Gang) (lane dpa n : Nat) (cls : MemClass) : Bool :=
  let c := s.core x.core
  c.follows x.slot lane s.fresh dpa n cls || c.behindStores x.slot lane s.fresh dpa n

/-- What a load finds without going to the home: bytes forwarded from the thread's own stores (R206), what an earlier access of the thread
gave, where a weak load is elided (R204), or a live L1 copy (R217). -/
def State.nearBytes (s : State) (x : Gang) (cls : MemClass) (scope : Scope) (n : Nat) (p : Spot) : Option (List Byte) :=
  let mine := ((s.group? x.core x.slot).getD x.grp).stores.filter fun r => r.lane == p.lane
  match if cls = .vol ∨ (s.core x.core).discarding x.slot p.lane p.dpa n then none else (List.range n).mapM fun i => storeByte mine (p.dpa + i) with
  | some b => some b
  | none =>
    if !cacheable cls scope || isLink p.dpa || isHostDie p.dpa || s.mustWait x p.lane p.dpa n cls then none
    else
      let team := s.team? x.core x.grp.team
      let seen := if cls = .weak ∧ Config.elide s.n p.lane then
          ((s.group? x.core x.slot).getD x.grp).recentBytes p.lane p.dpa n
        else none
      let line := if Config.useL1 s.n p.lane then (s.core x.core).l1Live s.ns (lineOf p.dpa) else none
      let hit := line.map fun l => (List.range n).map fun i =>
        match team.bind fun t => t.heldByte (p.dpa + i) with
        | some b => b
        | none => l.bytes.getD ((p.dpa + i) % 128) 0
      seen <|> hit

/-- `.ev`: the lines that the L1 holds are marked as first to be evicted (R336). -/
def State.markEv (s : State) (core : Nat) (ev : Bool) (spots : List Spot) : State :=
  if !ev then s
  else s.modCore core fun c =>
    { c with l1 := c.l1.map fun l => (l.1, if spots.any fun p => lineOf p.dpa == l.1 then { l.2 with evictFirst := true } else l.2) }

/-- Put a load in flight: each lane's access is served near, sent over a link, or left for its home. -/
def State.startLoad (s : State) (x : Gang) (f : FM) (n : Nat) (transpose : Bool) (spots : List Spot) : State :=
  let useL1 := cacheable f.cls f.scope
  let bad := spots.filter fun p => (s.badTag x useL1 p).isSome
  let good := spots.filter fun p => (s.badTag x useL1 p).isNone
  let accs := good.map fun p =>
    match s.nearBytes x f.cls f.scope n p with
    | some b => ({ lane := p.lane, va := p.va, dpa := p.dpa, width := n, todo := 0, data := ofBytes b, ev := false } : Acc)
    | none => { lane := p.lane, va := p.va, dpa := p.dpa, width := n, todo := fullBytes n, data := 0, ev := f.low.val % 2 == 1 }
  let far := accs.filter fun a => a.todo != 0
  let (id, t) := s.take
  let near := accs.filter fun a => a.todo == 0 && !isLink a.dpa
  let t := if useL1 then ((far.map fun a => lineOf a.dpa).eraseDups).foldl (fun (t : State) l => t.modCore x.core fun c => c.missEvent x.slot l) t
    else t
  let t := near.foldl (fun (t : State) a => t.modGroup x.core x.slot fun g =>
    g.note a.lane a.dpa ((List.range n).map fun i => (i, byteOf a.data i))) t
  let o : Op := { x.op id (.load f.cls f.scope f.sx transpose accs) with lanes := x.m &&& ~~~ maskOf fun j => bad.any fun p => p.lane == j }
  let t := (x.start t o f.d (wordsOf n) f.sx).consume x.core id
  let t := (far.filter fun a => isLink a.dpa).foldl (fun (t : State) a => t.linkSend x.core id (.load a.lane) a.dpa) t
  (t.markEv x.core (f.low.val % 2 == 1) good).tagTrap x useL1 spots

/-- A global load of n bytes (R336). -/
def loadGlobal (i : Instr) (f : FM) (n : Nat) (transpose : Bool) (s : State) : Res :=
  issueWith s i f.guard fun x s =>
    if x.m = 0 then (s, true)
    else
      let q : Ask := { n, need := .load, host := f.cls == .vol && !transpose, link := !transpose, access := true }
      match s.globalCheck x q ((lanesOf x.m).map fun j => (j, x.grp.addrM f j)) with
      | .error e => (x.stop s e, false)
      | .ok (t, spots) =>
        if spots.any fun p => isLink p.dpa && (t.nearBytes x f.cls f.scope n p).isNone && t.mustWait x p.lane p.dpa n f.cls then (s, false)
        else
          match t.leaveIdem x (f.cls == .vol || spots.any fun p => t.readCommitted x.core x.grp.team p.dpa n) with
          | (t, false) => (t, false)
          | (t, true) => (t.startLoad x f n transpose spots, true)

def execLdB8 (f : FM) (s : State) : Res := loadGlobal (.ldB8 f) f 1 false s
def execLdB16 (f : FM) (s : State) : Res := loadGlobal (.ldB16 f) f 2 false s
def execLdB32 (f : FM) (s : State) : Res := loadGlobal (.ldB32 f) f 4 false s
def execLdB64 (f : FM) (s : State) : Res := loadGlobal (.ldB64 f) f 8 false s
def execLdB128 (f : FM) (s : State) : Res := loadGlobal (.ldB128 f) f 16 false s
def execLdt (f : FM) (s : State) : Res := loadGlobal (.ldt f) f 16 true s

/-! ### Stores (R336) -/

/-- Put the stores of a gang in flight, lowest lane first. -/
def State.startStore (s : State) (x : Gang) (cls : MemClass) (scope : Scope) (n : Nat) (tag : Option (Spot → BitVec 4))
    (data : Nat → BitVec 128) (spots : List Spot) : State :=
  let (id, s) := s.take
  let (s, reqs) := spots.foldl (fun (acc : State × List StoreReq) p =>
    let (k, t) := acc.1.take
    let r : StoreReq := { id := k, op := id, lane := p.lane, va := p.va, dpa := p.dpa, width := n, data := data p.lane,
                          todo := if tag.isSome then 1 else fullBytes n, cls := cls, scope := scope, tag := tag.map fun f => f p, gwct := 0,
                          stamps := [], firm := false }
    (t, acc.2 ++ [r])) (s, [])
  let s := s.putStores x.core x.slot x.grp.team reqs
  let s := (x.start s (x.op id .store) .zero 1 false).consume x.core id
  (reqs.filter fun r => isLink r.dpa).foldl (fun s r => s.linkSend x.core id (.store r.id) r.dpa) s

/-- A global store of n bytes (R336). -/
def storeGlobal (i : Instr) (f : FM) (n : Nat) (s : State) : Res :=
  issueWith s i f.guard fun x s =>
    if x.m = 0 then (s, true)
    else
      let q : Ask := { n, need := .store, host := f.cls == .vol, link := true, access := true }
      match s.globalCheck x q ((lanesOf x.m).map fun j => (j, x.grp.addrM f j)) with
      | .error e => (x.stop s e, false)
      | .ok (t, spots) =>
        if spots.any fun p => isLink p.dpa && t.mustWait x p.lane p.dpa n f.cls then (s, false)
        else
          match t.leaveIdem x (f.cls == .vol || f.scope == .system || spots.any fun p => isLink p.dpa) with
          | (t, false) => (t, false)
          | (t, true) =>
            let good := spots.filter fun p => (t.badTag x false p).isNone
            let t := t.startStore x f.cls f.scope n none (fun j => x.grp.dataOf n j f.d) good
            ((t.markEv x.core (f.low.val % 2 == 1) good).tagTrap x false spots, true)

def execStB8 (f : FM) (s : State) : Res := storeGlobal (.stB8 f) f 1 s
def execStB16 (f : FM) (s : State) : Res := storeGlobal (.stB16 f) f 2 s
def execStB32 (f : FM) (s : State) : Res := storeGlobal (.stB32 f) f 4 s
def execStB64 (f : FM) (s : State) : Res := storeGlobal (.stB64 f) f 8 s
def execStB128 (f : FM) (s : State) : Res := storeGlobal (.stB128 f) f 16 s

/-! ### Local loads and stores (R211, R337) -/

/-- Put a local access in flight. -/
def State.startBank (s : State) (x : Gang) (act : BankAct) (cls : MemClass) (accs : List BankAcc) (d : Spec) (words : Nat) (signed : Bool) : State :=
  let (id, t) := s.take
  (x.start t (x.op id (.bank act cls t.clock accs)) d words signed).consume x.core id

/-- What a local load finds without going to its bank: bytes forwarded from the thread's own stores, or what an earlier access of the
thread gave, where a weak load is elided (R204). -/
def State.nearLocal (s : State) (x : Gang) (cls : MemClass) (n lane : Nat) (p : Place) : Option (List Byte) :=
  let c := s.core x.core
  let mine := c.ops.flatMap fun o => match o.kind with
    | .bank .store _ _ accs => if o.slot == x.slot then accs.filter fun a => a.lane == lane && a.meets p n && a.todo == fullBytes a.width else []
    | _ => []
  let own := (List.range n).mapM fun i =>
    (mine.reverse.find? fun a => decide (a.off ≤ p.off + i) && decide (p.off + i < a.off + a.width)).map fun a => byteOf a.data (p.off + i - a.off)
  let seen := if cls = .weak ∧ !c.bankBefore x.slot lane s.fresh p n then ((s.group? x.core x.slot).getD x.grp).recentBytes lane p.key n else none
  if cls = .vol ∨ !Config.elide s.n lane then none else own <|> seen

/-- A local load of n bytes (R337): performed at its bank after issue; its destination is written at completion. -/
def loadLocal (i : Instr) (f : FM) (n : Nat) (s : State) : Res :=
  issueWith s i f.guard fun x s =>
    if x.m = 0 then (s, true)
    else
      match s.localCheck x n false ((lanesOf x.m).map fun j => (j, lo32 (x.grp.addrM f j))) with
      | .error e => (x.stop s e, false)
      | .ok l =>
        match s.leaveIdem x (f.cls == .vol) with
        | (t, false) => (t, false)
        | (t, true) =>
          let accs := l.map fun p =>
            let near := t.nearLocal x f.cls n p.1 p.2
            ({ lane := p.1, core := p.2.core, team := p.2.team, off := p.2.off, width := n, data := ofBytes (near.getD []),
               todo := if near.isSome then 0 else fullBytes n } : BankAcc)
          (t.startBank x (.load f.sx) f.cls accs f.d (wordsOf n) f.sx, true)

/-- A local store of n bytes (R337): performed at its bank after issue, lowest lane first. -/
def storeLocalAll (i : Instr) (f : FM) (n : Nat) (s : State) : Res :=
  issueWith s i f.guard fun x s =>
    if x.m = 0 then (s, true)
    else
      match s.localCheck x n true ((lanesOf x.m).map fun j => (j, lo32 (x.grp.addrM f j))) with
      | .error e => (x.stop s e, false)
      | .ok l =>
        match s.leaveIdem x (f.cls == .vol) with
        | (t, false) => (t, false)
        | (t, true) =>
          let accs := l.map fun p => ({ lane := p.1, core := p.2.core, team := p.2.team, off := p.2.off, width := n,
                                        data := x.grp.dataOf n p.1 f.d, todo := fullBytes n } : BankAcc)
          (t.startBank x .store f.cls accs .zero 1 false, true)

def execLdlB8 (f : FM) (s : State) : Res := loadLocal (.ldlB8 f) f 1 s
def execLdlB16 (f : FM) (s : State) : Res := loadLocal (.ldlB16 f) f 2 s
def execLdlB32 (f : FM) (s : State) : Res := loadLocal (.ldlB32 f) f 4 s
def execLdlB64 (f : FM) (s : State) : Res := loadLocal (.ldlB64 f) f 8 s
def execLdlB128 (f : FM) (s : State) : Res := loadLocal (.ldlB128 f) f 16 s
def execStlB8 (f : FM) (s : State) : Res := storeLocalAll (.stlB8 f) f 1 s
def execStlB16 (f : FM) (s : State) : Res := storeLocalAll (.stlB16 f) f 2 s
def execStlB32 (f : FM) (s : State) : Res := storeLocalAll (.stlB32 f) f 4 s
def execStlB64 (f : FM) (s : State) : Res := storeLocalAll (.stlB64 f) f 8 s
def execStlB128 (f : FM) (s : State) : Res := storeLocalAll (.stlB128 f) f 16 s

/-! ### PREF and CCTL (R339, R340) -/

/-- Bring one thread's line near: into the L1 under a lease, or only to its home.  An address that would trap does nothing. -/
def State.prefetch (s : State) (x : Gang) (l1 : Bool) (a : Word64) (lane : Nat) : State :=
  match s.translate x.core x.grp.ctx a .load with
  | .error _ => s
  | .ok (t, dpa) =>
    let l := lineOf dpa
    if isHostDie dpa || isLink dpa || (t.badTag x false { lane, va := a, dpa }).isSome || (l1 && ((t.core x.core).l1Live t.ns l).isSome) then s
    else
      let t := if l1 then t.modCore x.core fun c => c.missEvent x.slot l else t
      let span := t.fillSpan dpa 1
      match t.homeRead .heldEventPost span.1 span.2 with
      | (t, none) => t
      | (t, some _) => if l1 then t.fillL1 x.core x.slot x.grp.ctx l false else t

def execPref (f : FM) (s : State) : Res :=
  issue s (.pref f) f.guard fun x s =>
    (lanesOf x.m).foldl (fun s j => s.prefetch x (f.low == 0) (x.grp.addrM f j) j) s

/-- `CCTL` (R340).  `.ivau` is an operation that completes when every core has dropped the lines. -/
def execCctl (f : FM) (s : State) : Res :=
  issueWith s (.cctl f) f.guard fun x s =>
    if x.m = 0 then (s, true)
    else if f.low = 1 then (s.modCore x.core fun c => { c with l1 := [] }, true)
    else
      let q : Ask := { n := 1, need := .load, host := false, link := false, access := false }
      match s.globalCheck x q ((lanesOf x.m).map fun j => (j, x.grp.addrM f j)) with
      | .error e => (x.stop s e, false)
      | .ok (t, spots) =>
        let lines := (spots.map fun p => lineOf p.dpa).eraseDups
        if f.low = 0 then (t.modCore x.core fun c => { c with l1 := c.l1.filter fun l => !lines.contains l.1 }, true)
        else
          let (id, t) := t.take
          ((x.start t (x.op id (.ivau lines)) .zero 1 false).consume x.core id, true)

/-! ### Granule tags (R345) -/

/-- `STAG`: a strong store of the pointer's tag, which is not tag-checked. -/
def execStag (f : FM) (s : State) : Res :=
  issueWith s (.stag f) f.guard fun x s =>
    if x.m = 0 then (s, true)
    else
      let q : Ask := { n := 32, need := .store, host := false, link := false, access := true }
      match s.globalCheck x q ((lanesOf x.m).map fun j => (j, x.grp.addrM f j)) with
      | .error e => (x.stop s e, false)
      | .ok (t, spots) =>
        match t.leaveIdem x (f.scope == .system) with
        | (t, false) => (t, false)
        | (t, true) => (t.startStore x .strong f.scope 32 (some fun p => tagOf p.va) (fun _ => 0) spots, true)

/-- `LTAG`: the granule's tag; 0 in a region without tags and on an unbacked page. -/
def execLtag (f : FM) (s : State) : Res :=
  issueWith s (.ltag f) f.guard fun x s =>
    if x.m = 0 then (s, true)
    else
      let q : Ask := { n := 1, need := .load, host := false, link := false, access := false }
      match s.globalCheck x q ((lanesOf x.m).map fun j => (j, x.grp.addrM f j)) with
      | .error e => (x.stop s e, false)
      | .ok (t, spots) =>
        if (lanesOf x.m).any fun j => (t.core x.core).follows x.slot j t.fresh (2 ^ 60) 0 f.cls then (s, false)
        else
          let (id, t) := t.take
          let res := (List.range 64).map fun j =>
            ((spots.find? fun p => p.lane == j).map fun p =>
              if t.tagged p.dpa then ((t.tagSeen x j p.dpa (cacheable f.cls f.scope)).setWidth 128 : BitVec 128) else 0).getD 0
          ((x.start t { x.op id .simple with res := res } f.d 1 false).consume x.core id, true)

end Sys2Proof.Machine
end

