-- ==== Sys2Proof/Machine/Atomic.lean ====
section
/-! DEFINITION. Atomics, reductions and fences (R209, R212, R220–R223, R230, R341, R342). -/

namespace Sys2Proof.Machine

/-! ### Atomics (R222, R341) -/

/-- The operands of an atomic of a lane: b and c. -/
def Group.atomOperands (g : Group) (f : FAt) (wide : Bool) (i : Nat) : Nat × Word64 × Word64 :=
  let v := fun d => if wide then g.src64 i (f.kind == .s) d else (g.src32 i d).setWidth 64
  (i, v f.b, v f.c)

/-- The aggregator's requests: one for each distinct address, its lanes in ascending order (R222). -/
def atomReqs (spots : List Spot) (operands : Nat → Nat × Word64 × Word64) : List AtomReq :=
  ((spots.map (·.dpa)).eraseDups).map fun a =>
    let l := spots.filter fun p => p.dpa == a
    { dpa := a, va := (l.map (·.va)).headD 0, done := false, lanes := l.map fun p => operands p.lane }

/-- A global atomic or reduction (R341): every lane translates before any request leaves (R223). -/
def atomGlobal (i : Instr) (f : FAt) (wide ret : Bool) (s : State) : Res :=
  issueWith s i f.guard fun x s =>
    if x.m = 0 then (s, true)
    else
      let n := if wide then 8 else 4
      let q : Ask := { n, need := .store, host := false, link := true, access := true }
      match s.globalCheck x q ((lanesOf x.m).map fun j => (j, x.grp.src64 j false f.a)) with
      | .error e => (x.stop s e, false)
      | .ok (t, spots) =>
        if spots.any fun p => isLink p.dpa && t.mustWait x p.lane p.dpa n .strong then (s, false)
        else
          match t.leaveIdem x true with
          | (t, false) => (t, false)
          | (t, true) =>
            let good := spots.filter fun p => (t.badTag x false p).isNone
            let reqs := atomReqs good (x.grp.atomOperands f wide)
            let (id, t) := t.take
            let o : Op := { x.op id (.atom f.op f.kind wide f.scope reqs) with lanes := maskOf fun j => good.any fun p => p.lane == j }
            let t := (x.start t o (if ret then f.d else .zero) (if wide then 2 else 1) (f.kind == .s)).consume x.core id
            let t := (reqs.filter fun r => isLink r.dpa).foldl (fun (t : State) r => t.linkSend x.core id (.atom r.dpa) r.dpa) t
            (t.tagTrap x false spots, true)

def execAtomB32 (f : FAt) (s : State) : Res := atomGlobal (.atomB32 f) f false true s
def execAtomB64 (f : FAt) (s : State) : Res := atomGlobal (.atomB64 f) f true true s
def execRedB32 (f : FAt) (s : State) : Res := atomGlobal (.redB32 f) f false false s
def execRedB64 (f : FAt) (s : State) : Res := atomGlobal (.redB64 f) f true false s

/-- A local atomic (R341): performed at its bank after issue, in one unit for each address (R222). -/
def atomLocal (i : Instr) (f : FAt) (wide : Bool) (s : State) : Res :=
  issueWith s i f.guard fun x s =>
    if x.m = 0 then (s, true)
    else
      let n := if wide then 8 else 4
      match s.localCheck x n true ((lanesOf x.m).map fun j => (j, lo32 (x.grp.src64 j false f.a))) with
      | .error e => (x.stop s e, false)
      | .ok l =>
        match s.leaveIdem x true with
        | (t, false) => (t, false)
        | (t, true) =>
          let accs := l.map fun p =>
            let q := x.grp.atomOperands f wide p.1
            ({ lane := p.1, core := p.2.core, team := p.2.team, off := p.2.off, width := n, data := q.2.2 ++ q.2.1, todo := fullBytes n } : BankAcc)
          (t.startBank x (.atom f.op f.kind wide) .strong accs f.d (if wide then 2 else 1) (f.kind == .s), true)

def execAtomlB32 (f : FAt) (s : State) : Res := atomLocal (.atomlB32 f) f false s
def execAtomlB64 (f : FAt) (s : State) : Res := atomLocal (.atomlB64 f) f true s

/-! ### Fences (R209, R212, R220, R230, R342) -/

/-- SCOPE of a fence (R342). -/
def fenceScope (mode : Nat) : Scope :=
  match mode with
  | 0 => .thread
  | 1 => .team
  | 2 => .cluster
  | 3 => .device
  | _ => .system

/-- A fence that waits for GWCTs (R220). -/
def beyondTeam : Scope → Bool
  | .thread | .team => false
  | _ => true

/-- A fence that writes back the team's windows (R214, R220). -/
def writesBack : Scope → Bool
  | .device | .system => true
  | _ => false

/-- The windows of a team. -/
def State.windowsOf (s : State) (core team : Nat) : List (Nat × Window) := ((s.team? core team).map (·.windows)).getD []

/-- Write back every window of a team for an operation; closed ones have had their write-back. -/
def State.writeBackAll (s : State) (core slot team op : Nat) : State :=
  (s.windowsOf core team).foldl (fun s w => if w.2.closing then s else s.writeBack core slot team w.1 op Window.dirty) s

/-- Some window that would be written back lies under a write lock (R344). -/
def State.anyWindowLocked (s : State) (core team : Nat) : Bool :=
  (s.windowsOf core team).any fun w => !w.2.dirty.isEmpty && s.windowLocked core team w.2

/-- What a write-back of windows at a gang's fence finds: local accesses issued in earlier clocks are performed; false where some of the
gang's own are left, so that it waits at issue (R209, R214). -/
def State.bankSettle (s : State) (x : Gang) : State × Bool :=
  let s := s.bankFlush x.core x.grp.team
  (s, !(s.core x.core).banksLeft x.slot x.act)

/-- The gang issues nothing more until an operation ends. -/
def State.stallGang (s : State) (x : Gang) (id : Nat) : State :=
  s.modGroup x.core x.slot fun g => g.onThreads x.act fun _ t => { t with stall := some id }

/-- `FENCE` (R342). -/
def execFence (f : FS) (s : State) : Res :=
  issueWith s (.fence f) f.guard fun x s =>
    let sc := fenceScope f.mode.val
    if x.m = 0 then (s, true)
    else
      let (s, ready) := if writesBack sc then s.bankSettle x else (s, true)
      if !ready || (writesBack sc && s.anyWindowLocked x.core x.grp.team) then (s, false)
      else
      let (id, s) := s.take
      let g := if beyondTeam sc then x.grp.gwct else 0
      let s := (x.start s (x.op id (.fence sc g)) .zero 1 false).consume x.core id
      let s := if writesBack sc then s.writeBackAll x.core x.slot x.grp.team id else s
      (s.stallGang x id, true)

/-- What a fence of an operation waits for: the earlier accesses of its threads (R209), its own write-backs (R342), and device time
G (R220). -/
def State.fenceDone (s : State) (core : Nat) (o : Op) (system : Bool) (target : Nat) : Bool :=
  (s.core core).settled o.slot o.lanes o.id system && decide (target ≤ s.ns) &&
    match s.group? core o.slot with
    | some g => g.stores.all fun r => r.op != o.id
    | none => true

def execFenceStallEnd (core op : Nat) (s : State) : Res :=
  match (s.core core).op? op with
  | none => .next s
  | some o =>
    match o.kind with
    | .fence sc target =>
      let g := if beyondTeam sc then target else 0
      .next (if s.fenceDone core o (sc == .system) g then s.modCore core fun c =>
          (if sc = .thread then c else c.forget o.slot o.lanes).finishOp op
        else s)
    | _ => .next s

end Sys2Proof.Machine
end

