-- ==== Sys2Proof/Machine/Window.lean ====
section
/-! DEFINITION. Windows and sealed ranges (R214, R224, R343, R344, R346). -/

namespace Sys2Proof.Machine

/-- A once-per-issue operand of 32 bits, and of 64 (R274, R334). -/
def Gang.uni32 (x : Gang) (s : Spec) : Word32 := x.grp.src32 (lowLane x.m) s
def Gang.uni64 (x : Gang) (s : Spec) : Word64 := x.grp.src64 (lowLane x.m) false s

/-- An instruction whose result is known at issue, for every thread of M (R334). -/
def State.giveAll (s : State) (x : Gang) (d : Spec) (words : Nat) (v : BitVec 128) : State :=
  let (id, s) := s.take
  (x.start s { x.op id .simple with res := (List.range 64).map fun _ => v } d words false).consume x.core id

/-- The window trap (R343), and the seal trap (R346), with a cause. -/
def windowTrap (cause : Nat) (a : Word64) : Stop := (0x37, a, [BitVec.ofNat 64 cause])
def sealTrap (cause : Nat) (a : Word64) : Stop := (0x3A, a, [BitVec.ofNat 64 cause])

/-- A local range of the issuing team: its offset, or none where PEER names another team. -/
def Place.own (p : Place) (x : Gang) : Bool := p.core == x.core && p.team == x.grp.team

/-- The checks of `WMAP` before translation (R332, R343): the local offset, or the trap; the lowest cause that holds. -/
def Team.wmapStop (t : Team) (x : Gang) (place : Option Place) (base : Word64) (loc : Word32) (len : Nat) : Except Stop Nat :=
  match place with
  | none => .error (0x39, loc.setWidth 64, [])
  | some p =>
    if (freeKey t.windows 16).isNone then .error (windowTrap 1 base)
    else if base.toNat % 128 = 0 ∧ p.off % 128 ≠ 0 then .error (windowTrap 2 (loc.setWidth 64))
    else if base.toNat % 128 ≠ 0 ∨ len % 128 ≠ 0 ∨ len < 128 ∨ 2 ^ 20 < len then .error (windowTrap 2 base)
    else if !p.own x || t.windows.any (fun w => !w.2.closing && overlaps w.2.loc w.2.len p.off len) || t.isSealed p.off len then
      .error (windowTrap 3 (loc.setWidth 64))
    else .ok p.off

/-- Cause 4 of R343, on the translated pages: one valid region of the context, and no other window of the team. -/
def State.wmapRange (s : State) (t : Team) (ctx base len : Nat) (pages : List Nat) : Bool :=
  (match pages with
    | [] => false
    | p :: _ =>
      match s.regions.find? fun r => r.ctx == ctx && r.covers (4096 * p) with
      | some r => pages.all fun q => r.covers (4096 * q)
      | none => false) &&
  !t.windows.any fun w => !w.2.closing && w.2.pages.any fun q => pages.contains q &&
      let lo := fun (b : Nat) (ps : List Nat) => if ps.head? = some q then b % 4096 else 0
      let hi := fun (b n : Nat) (ps : List Nat) => if ps.getLast? = some q then (b + n - 1) % 4096 + 1 else 4096
      decide (lo base pages < hi w.2.base w.2.len w.2.pages) && decide (lo w.2.base w.2.pages < hi base len pages)

/-- `WMAP` (R343, R344). -/
def execWmap (f : FSub) (s : State) : Res :=
  issueWith s (.wmap f) f.guard fun x s =>
    if x.m = 0 then (s, true)
    else
      match s.team? x.core x.grp.team with
      | none => (s, true)
      | some t =>
        let base := x.uni64 f.a
        let len := (x.uni32 f.c).toNat
        match t.wmapStop x (s.place? x.core x.grp.team (x.uni32 f.b) len) base (x.uni32 f.b) len with
        | .error e => (x.stop s e, false)
        | .ok loc =>
          let first := vaBits base / 4096
          let addrs := (List.range ((vaBits base + len - 1) / 4096 - first + 1)).map fun i =>
            (0, if i = 0 then base else BitVec.ofNat 64 (4096 * (first + i)))
          match s.spots x.core x.grp.ctx .store addrs with
          | .error e => (x.stop s e, false)
          | .ok (u, spots) =>
            let pages := spots.map fun p => pageOf p.dpa
            let q : Ask := { n := 1, need := .store, host := false, link := false, access := false }
            if !u.wmapRange t x.grp.ctx (vaBits base) len pages then (x.stop s (windowTrap 4 base), false)
            else
              match u.spotStop x q spots with
              | some e => (x.stop s e, false)
              | none =>
                let k := (freeKey t.windows 16).getD 0
                let w : Window := { base := vaBits base, loc, len, words := [], freshClock := 0, fresh := [], leases := [],
                                    closing := false, pages }
                let u := u.modTeam x.core x.grp.team fun t => { t with windows := put t.windows k w }
                (u.giveAll x f.d 1 (BitVec.ofNat 128 k), true)

/-- The window that an instruction names, or cause 5 (R343). -/
def Team.named (t : Team) (n : Nat) : Option Window :=
  if 15 < n then none else (get? t.windows n).filter fun w => !w.closing

/-- The windows that `WSYNC` and `WINV` name: one, or with `.all` every one. -/
def Team.chosen (t : Team) (all : Bool) (n : Nat) : Option (List (Nat × Window)) :=
  if all then some (t.windows.filter fun w => !w.2.closing) else (t.named n).map fun w => [(n, w)]

/-- `WSYNC` (R344). -/
def execWsync (f : FSub) (s : State) : Res :=
  issueWith s (.wsync f) f.guard fun x s =>
    if x.m = 0 then (s, true)
    else
      match s.team? x.core x.grp.team with
      | none => (s, true)
      | some t =>
        match t.chosen (f.sub == 1) (x.uni32 f.a).toNat with
        | none => (x.stop s (windowTrap 5 0), false)
        | some l =>
          let (s, ready) := s.bankSettle x
          if !ready || l.any (fun w => s.windowLocked x.core x.grp.team w.2) then (s, false)
          else
            let (id, s) := s.take
            let s := (x.start s (x.op id (.writeBack (x.uni32 f.a).toNat false)) .zero 1 false).consume x.core id
            (l.foldl (fun (s : State) w => s.writeBack x.core x.slot x.grp.team w.1 id fun w => w.dirtyBefore s.clock) s, true)

/-- Clean words become Invalid, and the leases end (R344). -/
def Window.invalidate (w : Window) : Window := { w with words := w.words.filter fun x => x.2.2 != 0, leases := [] }

/-- `WINV` (R344), complete at issue. -/
def execWinv (f : FSub) (s : State) : Res :=
  issueWith s (.winv f) f.guard fun x s =>
    if x.m = 0 then (s, true)
    else
      match s.team? x.core x.grp.team with
      | none => (s, true)
      | some t =>
        match t.chosen (f.sub == 1) (x.uni32 f.a).toNat with
        | none => (x.stop s (windowTrap 5 0), false)
        | some l =>
          if l.any fun w => s.windowLocked x.core x.grp.team w.2 then (s, false)
          else
            (l.foldl (fun (s : State) w => s.modTeam x.core x.grp.team fun t =>
              { t with windows := put t.windows w.1 w.2.invalidate }) s, true)

/-- A window's range becomes plain local memory (R344): Invalid words read 0, and what a Partial word lacks is open. -/
def Team.unmapPlain (t : Team) (n k : Nat) (w : Window) : Team :=
  let t := (List.range w.len).foldl (fun (t : Team) i =>
    let (v, d) := w.word (i / 4)
    if v || dbmBit d (i % 4) then t
    else t.setByte (w.loc + i) (if d = 0 then 0 else Config.partialByte n (w.loc + i))) t
  { t with windows := put t.windows k { w with closing := true } }

/-- Unmap a window for an operation: its range is plain, its dirty bytes leave, its number stays taken (R344). -/
def State.unmapWindow (s : State) (core slot team k op : Nat) : State :=
  match (s.team? core team).bind fun t => get? t.windows k with
  | none => s
  | some w =>
    if w.closing then s
    else (s.modTeam core team fun t => t.unmapPlain s.n k w).writeBack core slot team k op Window.dirty

/-- `WUNMAP` (R344). -/
def execWunmap (f : FSub) (s : State) : Res :=
  issueWith s (.wunmap f) f.guard fun x s =>
    if x.m = 0 then (s, true)
    else
      match s.team? x.core x.grp.team with
      | none => (s, true)
      | some t =>
        let k := (x.uni32 f.a).toNat
        match t.named k with
        | none => (x.stop s (windowTrap 5 0), false)
        | some w =>
          let (s, ready) := s.bankSettle x
          if !ready || s.windowLocked x.core x.grp.team w then (s, false)
          else
            let (id, s) := s.take
            let s := (x.start s (x.op id (.writeBack k true)) .zero 1 false).consume x.core id
            (s.unmapWindow x.core x.slot x.grp.team k id, true)

/-- The status word of a window (R344). -/
def Window.status (w : Window) : Nat :=
  2 ^ 63 + ((w.dirty.map fun x => x.1 / 32).eraseDups).length * 2 ^ 40 + w.len / 128 * 2 ^ 24 + w.loc

/-- `WQUERY` (R344). -/
def execWquery (f : FSub) (s : State) : Res :=
  issueWith s (.wquery f) f.guard fun x s =>
    if x.m = 0 then (s, true)
    else
      match s.team? x.core x.grp.team with
      | none => (s, true)
      | some t =>
        let k := (x.uni32 f.a).toNat
        if 15 < k then (x.stop s (windowTrap 5 0), false)
        else (s.giveAll x f.d 2 (BitVec.ofNat 128 (((t.named k).map Window.status).getD 0)), true)

/-! ### Sealed ranges (R224, R346) -/

/-- The checks of `SEAL`: the handle and the offset, or the trap; the lowest cause that holds. -/
def Team.sealStop (t : Team) (x : Gang) (place : Option Place) (a : Word32) (len : Nat) : Except Stop (Nat × Nat) :=
  match place with
  | none => .error (0x39, a.setWidth 64, [])
  | some p =>
    match freeKey t.seals 8 with
    | none => .error (sealTrap 1 (a.setWidth 64))
    | some h =>
      if p.off % 128 ≠ 0 ∨ !p.own x ∨ len % 128 ≠ 0 ∨ len < 128 ∨ 2 ^ 21 < len then .error (sealTrap 2 (a.setWidth 64))
      else if t.windows.any (fun w => !w.2.closing && overlaps w.2.loc w.2.len p.off len) || t.isSealed p.off len then
        .error (sealTrap 3 (a.setWidth 64))
      else .ok (h, p.off)

/-- `SEAL` (R346): complete once no write lock stands on the range, and no store to it is left at a bank. -/
def execSeal (f : FSub) (s : State) : Res :=
  issueWith s (.sealRange f) f.guard fun x s =>
    if x.m = 0 then (s, true)
    else
      match s.team? x.core x.grp.team with
      | none => (s, true)
      | some t =>
        let len := (x.uni32 f.b).toNat
        match t.sealStop x (s.place? x.core x.grp.team (x.uni32 f.a) len) (x.uni32 f.a) len with
        | .error e => (x.stop s e, false)
        | .ok (h, off) =>
          let (id, s) := s.take
          let s := s.modTeam x.core x.grp.team fun t =>
            { t with seals := put t.seals h { loc := off, len := len, count := 0, closing := false } }
          let o : Op := { x.op id (.sealRange h) with res := (List.range 64).map fun _ => BitVec.ofNat 128 h }
          ((x.start s o f.d 1 false).consume x.core id, true)

/-- `UNSEAL` (R346): complete when the reference count stands at 0. -/
def execUnseal (f : FSub) (s : State) : Res :=
  issueWith s (.unsealRange f) f.guard fun x s =>
    if x.m = 0 then (s, true)
    else
      match s.team? x.core x.grp.team with
      | none => (s, true)
      | some t =>
        let h := (x.uni32 f.a).toNat
        match (get? t.seals h).filter fun q => !q.closing with
        | none => (x.stop s (sealTrap 3 0), false)
        | some q =>
          let (id, s) := s.take
          let s := s.modTeam x.core x.grp.team fun t => { t with seals := put t.seals h { q with closing := true } }
          ((x.start s (x.op id (.unsealRange h)) .zero 1 false).consume x.core id, true)

end Sys2Proof.Machine
end

