-- ==== Sys2Proof/Machine/Backing.lean ====
section
/-! DEFINITION. `SURVEY`, `PROBE` and `DISCARD` (R195–R198). -/

namespace Sys2Proof.Machine

/-- The pages of a survey: its first page, and their number (R196). -/
def surveyPages (map : Bool) (a : Word64) (n : Nat) : Nat × Nat := (vaBits a / 4096, if map then 64 else min n 65536)

/-- The stores, atomics and `DISCARD`s that some lanes issued before `bound` are performed at their homes (R196). -/
def Core.ownPerformed (c : Core) (slot : Nat) (m : Mask) (bound : Nat) : Bool :=
  c.ops.all (fun o => !(o.slot == slot && decide (o.id < bound) && (o.lanes &&& m) != 0 && match o.kind with
    | .atom _ _ _ _ reqs => reqs.any fun q => !q.done
    | .discard _ => true
    | _ => false)) &&
  match get? c.groups slot with
  | none => true
  | some g => g.stores.all fun r => !(decide (r.id < bound) && has m r.lane && r.todo != 0)

/-- `SURVEY` (R196): nothing is checked at issue; the answers come at completion. -/
def execSurvey (f : FSub) (s : State) : Res :=
  issue s (.survey f) f.guard fun x s =>
    if x.m = 0 then s
    else
      let (id, s) := s.take
      let spans := (lanesOf x.m).map fun j => (j, x.grp.src64 j false f.a, (x.grp.src32 j f.b).toNat)
      (x.start s (x.op id (.survey (f.sub.val % 2 == 1) (f.sub.val / 2 == 1) spans)) f.d 2 false).consume x.core id

/-- Backed(x) of R196 for a virtual page: 1 outside apertures, 0 where it does not translate for a load. -/
def State.surveyed (s : State) (ctx page : Nat) : Bool :=
  match s.lookup ctx (4096 * page) .load with
  | .error _ => false
  | .ok (dpa, _, _) =>
    match s.regionAt dpa with
    | some r => !r.dat || (s.pageSt (pageOf dpa)).backed || (s.pageSt (pageOf dpa)).held
    | none => true

/-- `.sync` (R196): the page's dirty lines are written back, and it is released where R190 lets it; a Migrating one switches first. -/
def State.syncPage (s : State) (ctx page : Nat) : State :=
  match s.lookup ctx (4096 * page) .load with
  | .error _ => s
  | .ok (dpa, _, _) =>
    let p := pageOf dpa
    let t := (linesOf p).foldl (fun t l => t.writeBackLine l) s
    let t := if t.datumOnly p && (t.pageSt p).migrating then t.switchPage p else t
    if t.releasable p then (t.unback p).afterStore s else t

/-- The result of one thread (R196). -/
def State.surveyResult (s : State) (ctx : Nat) (map : Bool) (a : Word64) (n : Nat) : Word64 :=
  let (p, k) := surveyPages map a n
  if map then maskOf fun j => s.surveyed ctx (p + j)
  else
    match (List.range k).find? fun j => s.surveyed ctx (p + j) with
    | some j => (a >>> 57) <<< 57 ||| BitVec.ofNat 64 ((4096 * (p + j)) % 2 ^ 57)
    | none => BitVec.allOnes 64

/-- The completion of a survey: with `.sync`, every page of the span first; then the answers. -/
def State.surveyAll (s : State) (ctx : Nat) (map sync : Bool) (spans : List (Nat × Word64 × Nat)) :
    State × List (BitVec 128) :=
  let s := if sync then spans.foldl (fun s x =>
    let (p, k) := surveyPages map x.2.1 x.2.2
    (List.range k).foldl (fun s j => s.syncPage ctx (p + j)) s) s else s
  (s, (List.range 64).map fun i =>
    ((spans.find? fun x => x.1 == i).map fun x => (s.surveyResult ctx map x.2.1 x.2.2).setWidth 128).getD 0)

/-- `PROBE` (R197): it translates as a load does. -/
def execProbe (f : FSub) (s : State) : Res :=
  issueWith s (.probe f) f.guard fun x s =>
    if x.m = 0 then (s, true)
    else
      let q : Ask := { n := 1, need := .load, host := false, link := false, access := false }
      match s.globalCheck x q ((lanesOf x.m).map fun j => (j, x.grp.src64 j false f.a)) with
      | .error e => (x.stop s e, false)
      | .ok (t, spots) =>
        let (id, t) := t.take
        ((x.start t (x.op id (.probe (spots.map fun p => (p.lane, BitVec.ofNat 64 p.dpa)))) f.d 1 false).consume x.core id, true)

/-- The word that `PROBE` gives for an address (R197). -/
def State.probeWord (s : State) (dpa : Nat) : Nat :=
  let pg := s.pageSt (pageOf dpa)
  let dat := ((s.regionAt dpa).map (·.dat)).getD false
  let ndl := if !dat then 32 else if pg.backed then ((List.range 32).filter pg.nonDatum.getLsbD).length else 0
  let gtag := if s.tagged dpa then ((get? s.tags (dpa / 32)).getD 0).toNat else 0
  let mig := if pg.backed && pg.migrating then 1 else 0
  let tier := if dat && !pg.backed then 2 else if pg.far then 1 else 0
  let backed := if !dat || pg.backed || pg.held then 1 else 0
  ndl * 2 ^ 16 + gtag * 2 ^ 4 + mig * 2 ^ 3 + tier * 2 + backed

/-- The pages that a thread discards: virtual addresses, the first as given. -/
def discardRange (a : Word64) (n : Nat) : List Word64 := (List.range n).map fun i => a + BitVec.ofNat 64 (4096 * i)

/-- `DISCARD` (R198): the four checks over every active thread, each before the next.  A page of an edition view of an aperture counts as a
page of one, so that check 4 comes to it. -/
def execDiscard (f : FSub) (s : State) : Res :=
  issueWith s (.discard f) f.guard fun x s =>
    if x.m = 0 then (s, true)
    else
      let ops := (lanesOf x.m).map fun j => (j, x.grp.src64 j false f.a, (x.grp.src32 j f.b).toNat)
      match ops.find? fun o => o.2.1.toNat % 4096 != 0 || decide (64 < o.2.2) with
      | some o => (x.stop s (0x31, o.2.1, []), false)
      | none =>
        match s.spots x.core x.grp.ctx .store (ops.flatMap fun o => (discardRange o.2.1 o.2.2).map fun a => (o.1, a)) with
        | .error e => (x.stop s e, false)
        | .ok (t, spots) =>
          let aperture := fun (p : Spot) => match t.regionAt p.dpa with
            | some r => r.ctx == x.grp.ctx && match r.view with
                | some (_, src) => (t.region? r.ctx src).any (·.dat)
                | none => r.dat
            | none => false
          match failAt spots 0x31 [] (fun p => !aperture p)
              <|> failAt spots 0x35 [] (fun p => ((t.regionAt p.dpa).map (·.view.isSome)) == some true) with
          | some e => (x.stop s e, false)
          | none =>
            match t.leaveIdem x true with
            | (t, false) => (t, false)
            | (t, true) =>
              let (id, t) := t.take
              let pages := (spots.map fun p => pageOf p.dpa).eraseDups
              ((x.start t (x.op id (.discard pages)) .zero 1 false).consume x.core id, true)

/-- A page may be discarded now: no access held at it, no request of the host in the way (R192, R227). -/
def State.discardReady (s : State) (p : Nat) : Bool := !(s.pageSt p).held && !s.hostBlocks (4096 * p) 4096 true

/-- A page returns to the datum (R198): what the host holds is given up, and the page is Unbacked at once.  Answers the GWCT. -/
def State.discardPage (s : State) (p : Nat) : State × Nat :=
  let t := (halvesOf (4096 * p) 4096).foldl (fun (t : State) h =>
    if (t.line (lineOf h)).half h = .invalid then t else ((t.dirConflict h).dropHalf h).1) s
  let g := t.gwctAt (4096 * p) 4096
  let t := if (t.pageSt p).backed then t.unback p else t
  ({ t with poison := t.poison.filter fun q => q / 128 != p }.afterStore s, g)

end Sys2Proof.Machine
end

