-- ==== Sys2Proof/Machine/Barrier.lean ====
section
/-! DEFINITION. Barrier objects and the five barrier instructions (R48, R49, R165–R173, R213, R220). -/

namespace Sys2Proof.Machine

/-- An object that no `BARINIT` has initialised (R145, R165). -/
def Barrier.blank : Barrier :=
  { bytes := 0, pend := 0, count := 0, posted := false, bm := false, cl := false, phase := false, init := false,
    arrived := 0, early := 0 }

/-- An object: the core and team that own it, and its number. -/
structure BarAt where
  core : Nat
  team : Nat
  obj : Nat
  deriving DecidableEq, Repr

def State.bar (s : State) (b : BarAt) : Barrier := ((s.team? b.core b.team).bind fun t => get? t.bars b.obj).getD Barrier.blank

def State.setBar (s : State) (b : BarAt) (x : Barrier) : State := s.modTeam b.core b.team fun t => { t with bars := put t.bars b.obj x }

/-- The object that a handle names, or none for the barrier-range trap (R167). -/
def State.barAt? (s : State) (core team : Nat) (h : Word32) : Option BarAt :=
  let x := h.toNat
  match s.team? core team with
  | none => none
  | some t =>
    let owner := if x.testBit 16 then
        (if t.clw = 0 then none else s.peer? core team (x / 2 ^ 8 % 16) (x / 2 ^ 12 % 16))
      else some (core, team)
    match owner with
    | none => none
    | some (c, k) =>
      match s.team? c k with
      | none => none
      | some q =>
        let b : BarAt := { core := c, team := k, obj := x % 64 }
        if x / 2 ^ 17 ≠ 0 ∨ x / 64 % 4 ≠ 0 ∨ q.nbar ≤ x % 64 then none
        else if (c ≠ core ∨ k ≠ team) ∧ (s.bar b).init ∧ !(s.bar b).cl then none
        else some b

/-- The participant number of a group (R166). -/
def Team.participant (t : Team) (idx : Nat) : Nat := if t.clw = 0 then idx else 16 * (t.cly * t.clw + t.clx) + idx

/-! ### Phases (R172, R173) -/

/-- Threads of a group in Barrier-wait on an object awaiting a parity. -/
def Group.barWaiters (g : Group) (b : BarAt) (t : Bool) : Mask :=
  maskOf fun i => (g.thread i).st == .barrierWait b.core b.team b.obj t

/-- Threads of a group in Barrier-wait on an object. -/
def Group.barHeld (g : Group) (b : BarAt) : Mask := g.barWaiters b true ||| g.barWaiters b false

/-- A saved group keeps its Barrier-waits until it is restored (R173). -/
def Group.saved (g : Group) : Bool :=
  match g.halt with
  | .suspended s => s || g.gst == .swappedOut
  | _ => g.gst == .swappedOut

/-- Release a group's threads that wait for a phase: they are Ready at the slot after, and their `BARWAIT` completes (R169).  `again`: the
parity stands once more at the end of this clock, so that a `BARWAIT` of the clock waits on (R172). -/
def Core.barRelease (c : Core) (slot : Nat) (b : BarAt) (t again : Bool) : Core :=
  match get? c.groups slot with
  | none => c
  | some g =>
    let m := if again then g.barWaiters b t &&& ~~~ g.acted else g.barWaiters b t
    if m = 0 ∨ g.saved then c
    else
      let c := c.modGroup slot fun g => ((g.wake m).forget m).onThreads m fun i th => { th with st := .ready, since := g.issuesOf (sliceOf i) }
      let mine := c.ops.filter fun o => o.slot == slot && o.kind == .barwait && (o.lanes &&& m) != 0
      mine.foldl (fun c o => c.finishOp o.id) c

def State.barRelease (s : State) (b : BarAt) (t again : Bool) : State :=
  (keysOf s.cores).foldl (fun s c => s.modCore c fun k => (keysOf k.groups).foldl (fun k slot => k.barRelease slot b t again) k) s

/-- A phase is complete (R172). -/
def Barrier.complete (x : Barrier) : Bool := x.init && x.pend == 0 && x.bytes == 0 && (x.posted || !x.bm)

def popcount192 (x : BitVec 192) : Nat := ((List.range 192).filter x.getLsbD).length

/-- The next phase (R172); PEND is a field of 8 bits (R8, R165). -/
def Barrier.next (x : Barrier) : Barrier :=
  { x with phase := !x.phase, arrived := x.early, early := 0, pend := (x.count + 256 - popcount192 x.early) % 2 ^ 8, posted := false }

/-- What the completion loop of R172 leaves of an object.  A second turn begins with what arrived early, and needs no third: EARLY
is then empty. -/
def Barrier.settled (x : Barrier) : Barrier :=
  if x.complete then (if x.next.complete then x.next.next else x.next) else x

/-- The completion loop of R172, which releases the threads that wait. -/
def State.evalBar (s : State) (b : BarAt) : Nat → State
  | 0 => s
  | n + 1 =>
    let x := s.bar b
    if x.complete then ((s.setBar b x.next).barRelease b x.phase x.next.complete).evalBar b n else s

/-- The end of a clock (R172): every object is evaluated, after the arrivals, posts and deliveries of the clock. -/
def State.endBars (s : State) : State :=
  s.cores.foldl (fun s c => c.2.teams.foldl (fun s t =>
    (keysOf t.2.bars).foldl (fun (s : State) o => s.evalBar { core := c.1, team := t.1, obj := o } 2) s) s) s

/-! ### The instructions (R168–R170) -/

def stateTrap (h : Word32) : Stop := (0x20, h.setWidth 64, [h.setWidth 64])
def overrunTrap (h : Word32) : Stop := (0x21, h.setWidth 64, [h.setWidth 64])
def rangeTrap (h : Word32) : Stop := (0x22, h.setWidth 64, [h.setWidth 64])

/-- The partial-barrier trap of checked mode (R49): active and live masks. -/
def State.partialBar (s : State) (x : Gang) : Bool := (s.ctx x.grp.ctx).check && x.act != x.grp.liveMask

/-- Issue of a barrier instruction: `checked` where R49 applies to it. -/
def issueBar (s : State) (i : Instr) (f : FBar) (checked : Bool) (k : Gang → State → BarAt → Word32 → State × Bool) : Res :=
  issueWith s i f.guard fun x s =>
    if x.m = 0 then (s, true)
    else if checked && s.partialBar x then (x.trap s 0x07 0 [x.act, x.grp.liveMask], false)
    else
      let h := x.uni32 f.a
      match s.barAt? x.core x.grp.team h with
      | none => (x.stop s (rangeTrap h), false)
      | some b => k x s b h

/-- Whether an object belongs to the issuing team. -/
def BarAt.own (b : BarAt) (x : Gang) : Bool := b.core == x.core && b.team == x.grp.team

/-- The gang's instruction is held at a peer's object until its `BARINIT` (R170): its threads wait, at the instruction. -/
def State.holdAt (s : State) (x : Gang) (i : Instr) (b : BarAt) : State :=
  let (id, s) := s.take
  let s := (x.issued s).modCore x.core fun c => c.beginOp (x.op id (.barheld i b.core b.team b.obj))
  s.modGroup x.core x.slot fun g => g.onThreads x.act fun _ t => { t with stall := some id }

/-- A copy in flight counts on an object (R171). -/
def State.barNamed (s : State) (b : BarAt) : Bool :=
  s.cores.any fun c => c.2.ops.any fun o =>
    match o.kind with
    | .copy y => y.bar == some (b.core, b.team, b.obj)
    | _ => false

/-- A thread waits on an object. -/
def State.barWaited (s : State) (b : BarAt) : Bool := s.cores.any fun c => c.2.groups.any fun g => g.2.barHeld b != 0

/-- A result that a barrier instruction gives at once, for every thread of M (R169). -/
def State.giveNow (s : State) (x : Gang) (d : Spec) (v : Bool) : State :=
  s.modCore x.core fun c => c.writeDst x.slot x.m false false d fun _ => if v then 1 else 0

/-- The release of an arrival (R213, R220): the gang's earlier accesses, and for a cluster barrier the GWCTs. -/
def State.arrivalReady (s : State) (x : Gang) (cl : Bool) : Bool :=
  (s.core x.core).settled x.slot x.act s.fresh false && (!cl || decide (x.grp.gwct ≤ s.ns))

/-- An object with the arrival of a participant, for this phase or early for the next; none where both are taken (R169). -/
def Barrier.arrive (o : Barrier) (p : Nat) : Option Barrier :=
  if !o.arrived.getLsbD p then some { o with arrived := o.arrived ||| BitVec.twoPow 192 p, pend := (o.pend + 255) % 2 ^ 8 }
  else if !o.early.getLsbD p then some { o with early := o.early ||| BitVec.twoPow 192 p }
  else none

/-- A barrier instruction stands between the gang's earlier stores and later ones, which no longer supersede them (R204). -/
def State.firmStores (s : State) (x : Gang) : State :=
  s.modGroup x.core x.slot fun g => { g with stores := g.stores.map fun r => if has x.m r.lane then { r with firm := true } else r }

/-- What `BARARV`, `BAREXP`, `BARWAIT` and `BARTRY` do at an initialised object (R169, R172); false where they trap, or must wait for
their release.  What the phase is after this clock's arrivals so far, `BARWAIT` and `BARTRY` see. -/
def State.barEffect (s : State) (x : Gang) (i : Instr) (b : BarAt) : State × Bool :=
  let o := s.bar b
  match i with
  | .bararv f =>
    match s.team? x.core x.grp.team with
    | none => (s, true)
    | some t =>
      match o.arrive (t.participant x.grp.idx) with
      | none => (x.stop s (overrunTrap (x.uni32 f.a)), false)
      | some o' => ((s.setBar b o').giveNow x f.d o.phase, true)
  | .barexp f =>
    let n : Int := (x.uni32 f.b).toNat
    if 2 ^ 31 - 1 < o.bytes + n then (x.stop s (overrunTrap (x.uni32 f.a)), false)
    else (s.setBar b { o with bytes := o.bytes + n, posted := true }, true)
  | .barwait f =>
    let tok := (x.uni32 f.b).getLsbD 0
    if o.settled.phase ≠ tok then (s.modCore x.core fun c => c.forget x.slot x.m, true)
    else
      let (id, s) := s.take
      let s := (x.start s (x.op id .barwait) .zero 1 false).consume x.core id
      (s.modGroup x.core x.slot fun g =>
        g.onThreads x.m fun _ t => { g.stepThread t with st := .barrierWait b.core b.team b.obj tok, stall := none }, true)
  | .bartry f =>
    let passed := o.settled.phase != (x.uni32 f.b).getLsbD 0
    ((if passed then s.modCore x.core fun c => c.forget x.slot x.m else s).giveNow x f.d passed, true)
  | _ => (s, true)

/-- The same, with the gang's earlier stores marked where it takes effect. -/
def State.barGo (s : State) (x : Gang) (i : Instr) (b : BarAt) : State × Bool :=
  match s.barEffect x i b with
  | (t, true) => (t.firmStores x, true)
  | (t, false) => (t, false)

/-- An access that was held at an object whose `BARINIT` has come (R167, R170, R171): with CL = 0 it raises the barrier-range trap;
else it takes effect in the new phase 0 and its gang goes on, or, for a copy, its gang issues it again. -/
def State.takeHeld (s : State) (core : Nat) (o : Op) (i : Instr) (b : BarAt) : State :=
  match s.group? core o.slot with
  | none => s
  | some g =>
    let act := maskOf fun j => (g.thread j).stall = some o.id
    let x : Gang := { core := core, slot := o.slot, grp := g, act := act, m := o.lanes, cls := 2 }
    let free := fun (s : State) => s.modCore core fun c => c.finishOp o.id
    let handle : Word32 := match i with
      | .bararv f | .barexp f | .barwait f | .bartry f => x.uni32 f.a
      | _ => BitVec.ofNat 32 b.obj
    if !(s.bar b).cl then x.stop (free s) (rangeTrap handle)
    else
      match i with
      | .bararv _ | .barexp _ | .barwait _ | .bartry _ =>
        match (free s).barGo x i b with
        | (t, true) => t.modGroup core o.slot fun g => g.advance act
        | (t, false) => t
      | _ => free s

/-- The accesses held at an object, in the order of their issue, once it is initialised. -/
def State.releaseHeld (s : State) (b : BarAt) : State :=
  let held := s.cores.flatMap fun c => c.2.ops.filterMap fun o => match o.kind with
    | .barheld i k t n => if k == b.core && t == b.team && n == b.obj then some (c.1, o, i) else none
    | _ => none
  (sortBy (fun (p q : Nat × Op × Instr) => decide (p.2.1.id ≤ q.2.1.id)) held).foldl (fun s p => s.takeHeld p.1 p.2.1 p.2.2 b) s

/-- `BARINIT` (R169); accesses of peers that were held at the object then take effect (R170). -/
def execBarinit (f : FBar) (s : State) : Res :=
  issueBar s (.barinit f) f false fun x s b h =>
    let n := (x.uni32 f.b).toNat
    let o := s.bar b
    if !b.own x || (o.init && (o.arrived != 0 || o.early != 0 || o.bytes != 0 || s.barWaited b)) || s.barNamed b then
      (x.stop s (stateTrap h), false)
    else if n = 0 ∨ 192 < n then (x.stop s (rangeTrap h), false)
    else ((s.setBar b { Barrier.blank with count := n, pend := n, init := true, cl := f.cluster, bm := f.bytes }).releaseHeld b, true)

/-- Issue of an access to an object (R170): the barrier-state trap on an uninitialised object of the own team; on a peer's it is held. -/
def accessBar (s : State) (i : Instr) (f : FBar) (checked : Bool) (wait : Gang → Bool → State → Bool) : Res :=
  issueBar s i f checked fun x s b h =>
    let o := s.bar b
    if !o.init && b.own x then (x.stop s (stateTrap h), false)
    else if wait x (o.cl || !o.init) s then (s, false)
    else if !o.init then (s.holdAt x i b, false)
    else s.barGo x i b

/-- `BARARV` (R169): the group's first arrival of a phase, or an early one for the next. -/
def execBararv (f : FBar) (s : State) : Res := accessBar s (.bararv f) f true fun x cl s => !s.arrivalReady x cl

/-- `BAREXP` (R169). -/
def execBarexp (f : FBar) (s : State) : Res := accessBar s (.barexp f) f false fun _ _ _ => false

/-- `BARWAIT` (R169): it passes, or its threads wait, to go on at the next slot. -/
def execBarwait (f : FBar) (s : State) : Res := accessBar s (.barwait f) f true fun _ _ _ => false

/-- `BARTRY` (R169). -/
def execBartry (f : FBar) (s : State) : Res := accessBar s (.bartry f) f true fun _ _ _ => false

/-- A delivered byte count on an object (R171); none where BYTES would fall below its range. -/
def State.countBytes (s : State) (b : BarAt) (n : Nat) : Option State :=
  let o := s.bar b
  if o.bytes - n < -(2 ^ 31) then none else some (s.setBar b { o with bytes := o.bytes - n })

/-- A restored group's threads whose phase has passed are Ready (R173), and a `BARWAIT` for which none waits any longer completes. -/
def State.barRestore (s : State) (core slot : Nat) : State :=
  match s.group? core slot with
  | none => s
  | some g =>
    let passed := maskOf fun i => match (g.thread i).st with
      | .barrierWait c k o t => (s.bar { core := c, team := k, obj := o }).phase != t
      | _ => false
    s.modCore core fun c =>
      let c := c.modGroup slot fun g => (g.forget passed).onThreads passed fun i th => { th with st := .ready, since := g.issuesOf (sliceOf i) }
      let waits := fun (i : Nat) => match (((get? c.groups slot).getD g).thread i).st with
        | .barrierWait _ _ _ _ => true
        | _ => false
      (c.ops.filter fun o => o.slot == slot && o.kind == .barwait && !(lanesOf o.lanes).any waits).foldl (fun c o => c.finishOp o.id) c

end Sys2Proof.Machine
end

