-- ==== Sys2Proof/Machine/Copy.lean ====
section
/-! DEFINITION. The copy engine and the gather unit, completion tags and range locks (R47, R231–R236, R347–R351), and the
acknowledgements of peers (R386–R388). -/

namespace Sys2Proof.Machine

/-! ### Group-wide issue, locks and tags -/

/-- Issue of a group-wide instruction (R47): all 64 threads live and in the gang, else the illegal-convergence trap. -/
def issueWide (s : State) (i : Instr) (k : Gang → State → State × Bool) : Res :=
  issueWith s i .always fun x s =>
    if x.act = allLanes ∧ x.grp.liveMask = allLanes then k x s else (x.trap s 0x06 0 [x.act], false)

/-- A lock to be registered: its space, range and kind (R231). -/
structure Claim where
  space : Option (Nat × Nat)
  lo : Nat
  hi : Nat
  write : Bool
  deriving DecidableEq, Repr

/-- A claim on local memory, and on global memory at a virtual address. -/
def Place.claim (p : Place) (n : Nat) (write : Bool) : Claim :=
  { space := some (p.core, p.team), lo := p.off, hi := p.off + n, write := write }
def globClaim (va : Word64) (n : Nat) (write : Bool) : Claim := { space := none, lo := vaBits va, hi := vaBits va + n, write := write }

/-- Room for claims in the range-lock table of 64 entries (R231). -/
def Core.lockRoom (c : Core) (n : Nat) : Bool := decide (c.locks.length + n ≤ 64)

/-- Register an operation's claims (R231). -/
def Core.claim (c : Core) (id slot ctx : Nat) (l : List Claim) : Core :=
  { c with locks := c.locks ++ l.map fun q => { op := id, slot := slot, space := q.space, ctx := ctx, lo := q.lo, hi := q.hi, write := q.write } }

/-- An operation that must wait for a lock registered before its own, where either writes (R233). -/
def Core.engineBlocked (c : Core) (id : Nat) : Bool :=
  (c.locks.filter fun l => l.op == id).any fun a => c.locks.any fun b =>
    decide (b.op < id) && (a.write || b.write) && b.meets a.space a.ctx a.lo a.hi

/-- Tagged operations of a core in flight (R350). -/
def Core.tagged (c : Core) : List Op := c.ops.filter fun o => o.tag.isSome

/-- A tagged operation waits at issue for one with its tag, or while 64 are in flight (R350). -/
def Core.tagRoom (c : Core) (team : Nat) (tag : Option (Fin 64)) : Bool :=
  match tag with
  | none => true
  | some t => decide (c.tagged.length < 64) && !c.tagged.any fun o => o.team == team && o.tag == some t.val

/-- A tagged operation clears its bit at issue (R350). -/
def Team.clearTag (t : Team) (tag : Option (Fin 64)) : Team :=
  match tag with
  | some n => { t with ready := t.ready &&& ~~~ BitVec.twoPow 64 n.val, justSet := t.justSet &&& ~~~ BitVec.twoPow 64 n.val }
  | none => t

/-- The sealed ranges that a copy's source meets, and that are not being unsealed (R224, R346). -/
def State.sealOf (s : State) (p : Place) (n : Nat) : List (Nat × Nat × Nat) :=
  match s.team? p.core p.team with
  | none => []
  | some t => (t.seals.filter fun q => !q.2.closing && overlaps q.2.loc q.2.len p.off n).map fun q => (p.core, p.team, q.1)

/-- The reference counts of sealed ranges change (R224). -/
def State.refSeal (s : State) (l : List (Nat × Nat × Nat)) (f : Nat → Nat) : State :=
  l.foldl (fun s q => s.modTeam q.1 q.2.1 fun t =>
    match get? t.seals q.2.2 with
    | some x => { t with seals := put t.seals q.2.2 { x with count := f x.count } }
    | none => t) s

/-! ### Issue of copies (R347–R349) -/

def copyTrap (cause : Nat) (a : Word64) : Stop := (0x38, a, [BitVec.ofNat 64 cause])

/-- Copies in flight on a core. -/
def Core.copies (c : Core) : Nat := c.ops.countP fun o => match o.kind with
  | .copy _ => true
  | _ => false

/-- The barrier that a copy names in the team that owns its destination (R167, R171): none where there is none to check; the trap, or
the wait at a peer's object for its `BARINIT`. -/
inductive BarCheck
  | ok (b : Option (Nat × Nat × Nat))
  | trap (e : Stop)
  | wait (b : BarAt)

def State.copyBar (s : State) (x : Gang) (p : Place) (bar : Option (Fin 64)) : BarCheck :=
  match bar with
  | none => .ok none
  | some n =>
    let b : BarAt := { core := p.core, team := p.team, obj := n.val }
    let h : Word32 := BitVec.ofNat 32 n.val
    let o := s.bar b
    if ((s.team? p.core p.team).map (·.nbar)).getD 0 ≤ n.val then .trap (rangeTrap h)
    else if !o.init then (if b.own x then .trap (stateTrap h) else .wait b)
    else if !b.own x && !o.cl then .trap (rangeTrap h)
    else .ok (some (p.core, p.team, n.val))

/-- Read the index array of a gather (R349). -/
def State.gatherRows (s : State) (q : Gather) : List CopyRow :=
  (List.range q.n).map fun k =>
    let i := leNat (s.localBytes { core := q.idx.1, team := q.idx.2.1, off := q.idx.2.2 + 4 * k } 4)
    let g : End := .glob (q.base + BitVec.ofNat 64 (i * q.stride))
    let l : End := .loc q.loc.1 q.loc.2.1 (q.loc.2.2 + k * q.len)
    if q.scatter then { src := l, dst := g, len := q.len } else { src := g, dst := l, len := q.len }

/-- An operation that no lock holds back any longer starts; a gather reads its indices (R233, R349). -/
def State.startEngine (s : State) (core id : Nat) : State :=
  match (s.core core).op? id with
  | none => s
  | some o =>
    if o.started || (s.core core).engineBlocked id then s
    else
      match o.kind with
      | .copy { gather := some q, .. } =>
        match s.readyLocal { core := q.idx.1, team := q.idx.2.1, off := q.idx.2.2 } (4 * q.n) .heldEventPost with
        | (t, false) => t
        | (t, true) =>
          let rows := t.gatherRows q
          t.modCore core fun c => c.modOp id fun o =>
            { o with started := true, kind := o.kind.modCopy fun c => { c with gather := none, rows := rows } }
      | _ => s.modCore core fun c => c.modOp id fun o => { o with started := true }

/-- Put a copy in flight, with its claims and its tag. -/
def State.startCopy (s : State) (x : Gang) (f : FCpy) (c : Copy) (claims : List Claim) : State :=
  let (id, s) := s.take
  let o : Op := { x.op id (.copy c) with tag := f.tag.map (·.val) }
  let s := x.start s o .zero 1 false
  let s := s.modCore x.core fun k => k.claim id x.slot x.grp.ctx claims
  let s := s.modTeam x.core x.grp.team fun t => t.clearTag f.tag
  (s.refSeal c.sealedSrc (· + 1)).startEngine x.core id

/-- What every copy meets at issue after its addresses are checked: the sealed destination, the barrier, and the waits. -/
def State.issueCopy (s : State) (x : Gang) (i : Instr) (f : FCpy) (dst : Option (Place × Nat)) (ends : Bool) (c : Copy)
    (claims : List Claim) : State × Bool :=
  let check := match dst with
    | none => BarCheck.ok none
    | some (p, _) => s.copyBar x p f.bar
  match check with
  | .trap e => (x.stop s e, false)
  | .wait b => (s.holdAt x i b, false)
  | .ok bar =>
    match dst.filter fun d => s.sealed d.1 d.2 with
    | some d => (x.stop s (0x34, BitVec.ofNat 64 d.1.off, []), false)
    | none =>
      let k := s.core x.core
      if 32 ≤ k.copies ∨ !k.tagRoom x.grp.team f.tag ∨ !k.lockRoom claims.length then (x.block s, false)
      else
        match s.leaveIdem x ends with
        | (s, false) => (s, false)
        | (s, true) => (s.startCopy x f { c with bar := bar } claims, true)

def Copy.blank : Copy :=
  { gather := none, rows := [], row := 0, off := 0, bar := none, srcPage := none, dstPage := none, stopped := false, dropped := none, sealedSrc := [] }

def Place.at (p : Place) : End := .loc p.core p.team p.off
def Place.triple (p : Place) : Nat × Nat × Nat := (p.core, p.team, p.off)

/-- The length limits of R348. -/
def copyLenOk (n : Nat) : Bool := n % 16 == 0 && decide (16 ≤ n) && decide (n ≤ 2 ^ 24)

def execCpyG2l (f : FCpy) (s : State) : Res :=
  issueWide s (.cpyG2l f) fun x s =>
    let n := (x.uni32 f.c).toNat
    let va := x.uni64 f.a
    match s.place? x.core x.grp.team (x.uni32 f.b) n with
    | none => (x.stop s (0x39, (x.uni32 f.b).setWidth 64, []), false)
    | some p =>
      if !copyLenOk n || va.toNat % 16 != 0 then (x.stop s (copyTrap 1 va), false)
      else if p.off % 16 ≠ 0 then (x.stop s (copyTrap 1 ((x.uni32 f.b).setWidth 64)), false)
      else s.issueCopy x (.cpyG2l f) f (some (p, n)) false { Copy.blank with rows := [{ src := .glob va, dst := p.at, len := n }] }
        [globClaim va n false, p.claim n true]

def execCpyL2g (f : FCpy) (s : State) : Res :=
  issueWide s (.cpyL2g f) fun x s =>
    let n := (x.uni32 f.c).toNat
    let va := x.uni64 f.b
    match s.place? x.core x.grp.team (x.uni32 f.a) n with
    | none => (x.stop s (0x39, (x.uni32 f.a).setWidth 64, []), false)
    | some p =>
      if !copyLenOk n || p.off % 16 != 0 then (x.stop s (copyTrap 1 ((x.uni32 f.a).setWidth 64)), false)
      else if va.toNat % 16 ≠ 0 then (x.stop s (copyTrap 1 va), false)
      else s.issueCopy x (.cpyL2g f) f none true
        { Copy.blank with rows := [{ src := p.at, dst := .glob va, len := n }], sealedSrc := s.sealOf p n }
        [p.claim n false, globClaim va n true]

def execCpyL2l (f : FCpy) (s : State) : Res :=
  issueWide s (.cpyL2l f) fun x s =>
    let n := (x.uni32 f.c).toNat
    match s.place? x.core x.grp.team (x.uni32 f.a) n, s.place? x.core x.grp.team (x.uni32 f.b) n with
    | none, _ => (x.stop s (0x39, (x.uni32 f.a).setWidth 64, []), false)
    | _, none => (x.stop s (0x39, (x.uni32 f.b).setWidth 64, []), false)
    | some p, some q =>
      if !copyLenOk n || p.off % 16 != 0 || (p.core == q.core && p.team == q.team && overlaps p.off n q.off n) then
        (x.stop s (copyTrap 1 ((x.uni32 f.a).setWidth 64)), false)
      else if q.off % 16 ≠ 0 then (x.stop s (copyTrap 1 ((x.uni32 f.b).setWidth 64)), false)
      else s.issueCopy x (.cpyL2l f) f (some (q, n)) false
        { Copy.blank with rows := [{ src := p.at, dst := q.at, len := n }], sealedSrc := s.sealOf p n }
        [p.claim n false, q.claim n true]

/-- A read of local memory at issue waits for the write locks of earlier operations (R233). -/
def State.readBlocked (s : State) (p : Place) (n : Nat) : Bool :=
  s.cores.any fun c => c.2.locks.any fun l => l.write && l.meets (some (p.core, p.team)) 0 p.off (p.off + n)

/-- Gather and scatter (R349): the descriptor is read at issue. -/
def State.issueGather (s : State) (x : Gang) (f : FCpy) (scatter : Bool) (base : Word64) (local_ : Word32) : State × Bool :=
  let team := x.grp.team
  let c := x.uni32 f.c
  match s.place? x.core team c 16 with
  | none => (x.stop s (0x39, c.setWidth 64, []), false)
  | some d =>
    match if s.readBlocked d 16 then (s, false) else s.readyLocal d 16 .heldEventPost with
    | (s, false) => (s, false)
    | (s, true) =>
      let w := fun j => leNat (s.localBytes { d with off := d.off + 4 * j } 4)
      let n := w 1
      let len := w 2
      match s.place? x.core team local_ (n * len), s.place? x.core team (BitVec.ofNat 32 (w 0)) (4 * n) with
      | none, _ => (x.stop s (0x39, local_.setWidth 64, []), false)
      | _, none => (x.stop s (0x39, BitVec.ofNat 64 (w 0), []), false)
      | some p, some q =>
        if c.toNat % 16 ≠ 0 ∨ w 0 % 4 ≠ 0 ∨ n = 0 ∨ 4096 < n ∨ len % 16 ≠ 0 ∨ len = 0 ∨ 4096 < len ∨ w 3 % 16 ≠ 0 then
          (x.stop s (copyTrap 2 (c.setWidth 64)), false)
        else if p.off % 16 ≠ 0 then (x.stop s (copyTrap 2 (local_.setWidth 64)), false)
        else if base.toNat % 16 ≠ 0 then (x.stop s (copyTrap 1 base), false)
        else
          let g : Gather := { idx := q.triple, n, len, stride := w 3, base, loc := p.triple, scatter }
          s.issueCopy x (if scatter then .cpys f else .cpyg f) f (if scatter then none else some (p, n * len)) scatter
            { Copy.blank with gather := some g, sealedSrc := if scatter then s.sealOf p (n * len) else [] }
            [d.claim 16 false, q.claim (4 * n) false, p.claim (n * len) (!scatter)]

def execCpyg (f : FCpy) (s : State) : Res :=
  issueWide s (.cpyg f) fun x s => s.issueGather x f false (x.uni64 f.a) (x.uni32 f.b)
def execCpys (f : FCpy) (s : State) : Res :=
  issueWide s (.cpys f) fun x s => s.issueGather x f true (x.uni64 f.b) (x.uni32 f.a)

/-! ### A copy at work (R171, R200, R348) -/

/-- The locks of a copy that stops shrink to the part not yet done (R348). -/
def Core.shrinkLocks (c : Core) (id : Nat) (y : Copy) : Core :=
  let cut := fun (l : Lock) (e : End) =>
    match e, l.space with
    | .glob va, none => if l.lo ≤ vaBits va ∧ vaBits va < l.hi then { l with lo := vaBits va } else l
    | .loc k t off, some (k', t') => if k = k' ∧ t = t' ∧ l.lo ≤ off ∧ off < l.hi then { l with lo := off } else l
    | _, _ => l
  { c with locks := c.locks.map fun l => if l.op == id then cut (cut l y.src) y.dst else l }

/-- A copy stops at its progress pointer, and the trap goes to the group that issued it (R200, R348). -/
def State.stopCopy (s : State) (core : Nat) (o : Op) (y : Copy) (code : Nat) (va w0 : Word64) : State :=
  let s := s.modCore core fun c =>
    (c.modOp o.id fun o => { o with kind := o.kind.modCopy fun c => { c with stopped := true } }).shrinkLocks o.id y
  s.trap core o.slot code va o.pc [w0, tagWord o]

/-- One end of a copy reaches its page (R348): the DPA page, or the trap. -/
def State.reachPage (s : State) (o : Op) (e : End) (write : Bool) : Except (Nat × Word64 × Word64) (State × Option Nat) :=
  match e with
  | .loc _ _ _ => .ok (s, some 0)
  | .glob va =>
    match s.translateAt o.ctx (vaBits va) (if write then .store else .load) with
    | .error c => .error (0x10, va, BitVec.ofNat 64 c)
    | .ok (s, dpa) =>
      if isHostDie dpa then .error (0x3B, va, 0)
      else if isLink dpa && !s.linkMapped o.ctx dpa then .error (0x60, va, 1)
      else if write && ((s.regionAt dpa).map (·.view.isSome)) == some true then .error (0x35, va, 0)
      else .ok (s, some (pageOf dpa))

/-- A copy stands still: a trap or a stop holds it at its pointer, or its context does not run (R124, R348, R415). -/
def State.copyHalted (s : State) (o : Op) (y : Copy) : Bool := y.stopped || (s.ctx o.ctx).state != .running

/-- A copy reaches the pages at which it stands (COPY_PAGE_REACH). -/
def execCopyPageReach (core op : Nat) (s : State) : Res :=
  match (s.core core).op? op with
  | none => .next s
  | some o =>
    match o.kind with
    | .copy y =>
      if !o.started || s.copyHalted o y || y.done || (y.srcPage.isSome && y.dstPage.isSome) then .next s
      else
        match s.reachPage o y.src false with
        | .error (c, va, w) => .next (s.stopCopy core o y c va w)
        | .ok (t, a) =>
          match t.reachPage o y.dst true with
          | .error (c, va, w) => .next (s.stopCopy core o y c va w)
          | .ok (t, b) =>
            .next (t.modCore core fun c => c.modOp op fun o =>
              { o with kind := o.kind.modCopy fun c => { c with srcPage := a, dstPage := b } })
    | _ => .next s

/-- The DPA of an end in its page. -/
def endDpa (page : Option Nat) : End → Nat
  | .glob va => 4096 * page.getD 0 + va.toNat % 4096
  | .loc _ _ off => off

/-- A global end fails the tag check: the granule's tag (R199). -/
def State.endTag (s : State) (e : End) (page : Option Nat) (n : Nat) : Option (BitVec 4) :=
  match e with
  | .loc _ _ _ => none
  | .glob va => s.homeBadTag va (endDpa page e) n

/-- A granule that is poisoned among n bytes of an end, and one that is overwritten whole or takes poison (R410). -/
def State.endPoison (s : State) (e : End) (page : Option Nat) (n : Nat) : Bool :=
  match e with
  | .glob _ => (s.poisonIn (endDpa page e) n).isSome
  | .loc c t off => (s.localPoison { core := c, team := t, off } n).isSome

/-- Poison travels with copied bytes; a local granule overwritten whole with good bytes loses it (R410). -/
def State.carryPoison (s : State) (e : End) (page : Option Nat) (n : Nat) (bad : Bool) : State :=
  match e with
  | .glob _ =>
    if !bad then s
    else
      let dpa := endDpa page e
      { s with poison := s.poison ++ ((List.range ((n + dpa % 32 + 31) / 32)).map (dpa / 32 + ·)).filter fun g => !s.poison.contains g }
  | .loc c t off =>
    s.modTeam c t fun t =>
      let gs := (List.range ((n + off % 32 + 31) / 32)).map (off / 32 + ·)
      if bad then { t with poison := t.poison ++ gs.filter fun g => !t.poison.contains g }
      else { t with poison := t.poison.filter fun g => !(gs.contains g && decide (off ≤ 32 * g) && decide (32 * g + 32 ≤ off + n)) }

/-- The bytes of a piece at its source, or none where they must wait. -/
def State.copyRead (s : State) (who : Instr) (core : Nat) (o : Op) (y : Copy) (n : Nat) : State × Option (List Byte) :=
  match y.src with
  | .loc c t off =>
    let p : Place := { core := c, team := t, off }
    match s.readyLocal p n who with
    | (s, false) => (s, none)
    | (s, true) => (s, some (s.localBytes p n))
  | .glob _ =>
    let dpa := endDpa y.srcPage y.src
    match s.homeRead who dpa n with
    | (s, none) => (s, none)
    | (s, some _) =>
      let s := s.readMark core o.team dpa n
      (s, some ((List.range n).map fun i => s.teamByte core o.team (dpa + i)))

/-- An engine's weak store has written bytes of one line at a home: its GWCT, that of a pinned line once the pins have ended (R234,
R235); the words count as committed (R146). -/
def State.engineWrote (s : State) (core : Nat) (o : Op) (dpa n g : Nat) : State :=
  let g := acrossDie core dpa g
  let s := s.commitMark core o.team dpa n
  if s.pinned (lineOf dpa) then s.writtenPinned core o.id (lineOf dpa) g
  else s.modCore core fun c => c.modOp o.id fun o => { o with gwct := max o.gwct g }

/-- The bytes are performed at the destination (R348): a local delivery at its bank, a global one as a weak store at the home.  The line of
a write is one request: what is left of one that was dropped is dropped with it, and counts no more (R193).  False where it waits. -/
def State.copyWrite (s : State) (who : Instr) (core : Nat) (o : Op) (y : Copy) (bytes : List Byte) : State × Bool :=
  match y.dst with
  | .loc c t off => (s.storeLocal { core := c, team := t, off } bytes.length fun i => bytes.getD i 0, true)
  | .glob _ =>
    let dpa := endDpa y.dstPage y.dst
    if y.dropped = some (lineOf dpa) then (s, true)
    else
      match s.homeWrite who dpa bytes.length (fun i => bytes[i]?) none with
      | (s, some g) =>
        let s := s.engineWrote core o dpa bytes.length g
        let lost := if s.landed dpa bytes.length (fun i => bytes[i]?) then none else some (lineOf dpa)
        (s.modCore core fun c => c.modOp o.id fun o => { o with kind := o.kind.modCopy fun c => { c with dropped := lost } }, true)
      | (s, none) => (s, false)

/-- A piece is performed at its destination: counted against its barrier, and the pointer moves on (R171, R348). -/
def State.deliver (s : State) (who : Instr) (core : Nat) (o : Op) (y : Copy) (bytes : List Byte) (bad : Bool) : State :=
  match s.copyWrite who core o y bytes with
  | (s, false) => s
  | (s, true) =>
    let n := bytes.length
    let s := s.carryPoison y.dst y.dstPage n bad
    let s := s.modCore core fun c => c.modOp o.id fun o => { o with kind := o.kind.modCopy fun c => c.advance n }
    match y.bar with
    | none => s
    | some (c, t, b) =>
      match s.countBytes { core := c, team := t, obj := b } n with
      | some s => s
      | none => s.stopCopy core o y 0x21 0 (BitVec.ofNat 64 b)

/-- Bytes `n` of a copy from its pointer are read once and performed once (COPY_BYTE_DELIVERY); an end in a link range goes through
a request (R386). -/
def execCopyByteDelivery (core op n : Nat) (s : State) : Res :=
  match (s.core core).op? op with
  | none => .next s
  | some o =>
    match o.kind with
    | .copy y =>
      let who : Instr := .copyByteDelivery core op n
      if !o.started || s.copyHalted o y || y.done || y.srcPage.isNone || y.dstPage.isNone || n == 0 || decide (y.piece < n)
          || s.linkReqs.any (fun r => r.op == op && r.core == core) then .next s
      else
        match s.endTag y.src y.srcPage n, s.endTag y.dst y.dstPage n with
        | some t, _ => .next (s.stopCopy core o y 0x30 (match y.src with
            | .glob va => va
            | _ => 0) (t.setWidth 64))
        | none, some t => .next (s.stopCopy core o y 0x30 (match y.dst with
            | .glob va => va
            | _ => 0) (t.setWidth 64))
        | none, none =>
          let far := fun (e : End) p => match e with
            | .glob _ => isLink (endDpa p e)
            | _ => false
          if far y.src y.srcPage then .next (s.linkSend core op .copyRead (endDpa y.srcPage y.src))
          else
            let bad := s.endPoison y.src y.srcPage n
            match s.copyRead who core o y n with
            | (s, none) => .next s
            | (s, some bytes) =>
              if far y.dst y.dstPage then .next (s.linkSend core op (.copyWrite bytes) (endDpa y.dstPage y.dst))
              else .next (s.deliver who core o y bytes bad)
    | _ => .next s

/-! ### Completion (R224, R231, R235) -/

/-- The operands-consumed point of an operation: its read locks end, and so does its reference on a sealed range (R224). -/
def State.consumeEngine (s : State) (core id : Nat) : State :=
  match (s.core core).op? id with
  | none => s
  | some o =>
    if o.consumed then s
    else
      let s := match o.kind with
        | .copy y => s.refSeal y.sealedSrc (· - 1)
        | _ => s
      s.modCore core fun c => c.consumeOp id

/-- The completion point of an engine operation: its tag is set (R235). -/
def State.finishEngine (s : State) (core id : Nat) : State :=
  let s := s.consumeEngine core id
  match (s.core core).op? id with
  | none => s
  | some o =>
    let s := match o.tag with
      | some t => s.modTeam core o.team fun q => { q with ready := q.ready ||| BitVec.twoPow 64 t, justSet := q.justSet ||| BitVec.twoPow 64 t }
      | none => s
    s.modCore core fun c => c.finishOp id

/-- A copy completes when every byte is performed, no line that it wrote is pinned, and device time has reached its latest GWCT (R234,
R235). -/
def execCopyComplete (core op : Nat) (s : State) : Res :=
  match (s.core core).op? op with
  | none => .next s
  | some o =>
    match o.kind with
    | .copy y =>
      .next (if !y.done || s.pinsLeft o then s
        else if !o.onPins.isEmpty then s.pinsOver core o
        else if o.gwct ≤ s.ns then s.finishEngine core op else s)
    | _ => .next s

/-! ### Acknowledgements of peers (R386–R388) -/

/-- A peer has done what a request asked. -/
def State.linkDone (s : State) (r : LinkReq) (data : List (BitVec 128)) : State :=
  let s := { s with linkReqs := s.linkReqs.filter fun q => q.id != r.id }
  let bytes := data.flatMap fun d => leBytes 16 d.toNat
  match r.body with
  | .store id =>
    match (s.core r.core).storeSlot id with
    | some (slot, _) => s.modGroup r.core slot fun g => { g with stores := g.stores.filter fun x => x.id != id }
    | none => s
  | .drain seq _ =>
    { s with editions := s.editions.map fun (e : Edition) => if e.seq == seq then { e with acked := e.acked + 1 } else e }
  | .load lane =>
    s.modCore r.core fun c => c.modOp r.op fun o =>
      { o with kind := o.kind.modAcc lane fun a => a.took a.todo fun i => bytes.getD i 0 }
  | .atom dpa =>
    s.modCore r.core fun c => c.modOp r.op fun o =>
      let lanes : List Nat := match o.kind with
        | .atom _ _ _ _ reqs => ((reqs.find? fun (q : AtomReq) => q.dpa == dpa).map fun (q : AtomReq) => q.lanes.map (·.1)).getD []
        | _ => []
      let olds : List (Nat × Word64) := (lanes.zip data).map fun (p : Nat × BitVec 128) => (p.1, p.2.setWidth 64)
      { (o.olds olds) with kind := o.kind.modReq dpa fun (q : AtomReq) => { q with done := true } }
  | body =>
    match (s.core r.core).op? r.op with
    | none => s
    | some o =>
      match o.kind with
      | .copy y =>
        match body with
        | .copyWrite d => s.modCore r.core fun c => c.modOp r.op fun o => { o with kind := o.kind.modCopy fun c => c.advance d.length }
        | _ =>
          let b := bytes.take y.piece
          if b.isEmpty then s
          else
            match y.dst with
            | .glob _ =>
              if isLink (endDpa y.dstPage y.dst) then s.linkSend r.core r.op (.copyWrite b) (endDpa y.dstPage y.dst)
              else s.deliver (.copyByteDelivery r.core r.op b.length) r.core o y b false
            | _ => s.deliver (.copyByteDelivery r.core r.op b.length) r.core o y b false
      | _ => s

/-- A peer's answer reaches the sender (R385–R388): done, dropped as older, or refused. -/
def execLinkAckArrival (request : Nat) (reply : LinkReply) (s : State) : Res :=
  match s.linkReqs.find? fun r => r.id == request && r.port != 36 with
  | none => .next s
  | some r =>
    match reply with
    | .done data => .next (s.linkDone r data)
    | .dropped => .next (if ((get? s.slots r.slot).map (·.reduction)).getD false then s.endRequest r none else s)
    | .refused => .next ((s.modSlot r.slot fun x => { x with lasterr := 1 }).endRequest r (some 2))

/-! ### Tags (R351) -/

/-- READY AND m of an operation's team. -/
def State.tagsOf (s : State) (core team : Nat) (m : Word64) : Word64 := (((s.team? core team).map (·.ready)).getD 0) &&& m

/-- The condition of a `TAGWAIT`. -/
def State.tagReady (s : State) (core team : Nat) (all : Bool) (m : Word64) : Bool :=
  if all then s.tagsOf core team m == m else s.tagsOf core team m != 0

/-- `TAGWAIT`: the gang waits, and D takes READY AND m at its release; with m = 0 it completes at issue, with D = 0 (R351). -/
def tagWait (i : Instr) (f : FSub) (all : Bool) (s : State) : Res :=
  issueWith s i f.guard fun x s =>
    if x.m = 0 then (s, true)
    else if x.uni64 f.a = 0 then (s.modCore x.core fun c => c.writeDst x.slot x.m true false f.d fun _ => 0, true)
    else
      let (id, s) := s.take
      let s := (x.start s (x.op id (.tagwait all (x.uni64 f.a))) f.d 2 false).consume x.core id
      (s.stallGang x id, true)

def execTagwaitAny (f : FSub) (s : State) : Res := tagWait (.tagwaitAny f) f false s
def execTagwaitAll (f : FSub) (s : State) : Res := tagWait (.tagwaitAll f) f true s

def execTagfirst (f : FSub) (s : State) : Res :=
  issue s (.tagfirst f) f.guard fun x s =>
    if x.m = 0 then s
    else
      let set := s.tagsOf x.core x.grp.team (x.uni64 f.a)
      let v : Word64 := BitVec.ofNat 64 ((lanesOf set).headD 64)
      s.modCore x.core fun c => (if set = 0 then c else c.forget x.slot x.m).writeDst x.slot x.m false false f.d fun _ => v

/-- `TAGCLR` (R351); bits that a completion of this clock has set stay set (R350). -/
def execTagclr (f : FSub) (s : State) : Res :=
  issue s (.tagclr f) f.guard fun x s =>
    if x.m = 0 then s
    else s.modTeam x.core x.grp.team fun t => { t with ready := t.ready &&& (~~~ x.uni64 f.a ||| t.justSet) }

end Sys2Proof.Machine
end

