-- ==== Sys2Proof/Machine/Matrix.lean ====
section
/-! DEFINITION. The matrix engine (R108, R112–R114, R201, R234, R352–R363, R418). -/

namespace Sys2Proof.Machine

/-! ### Tiles and shapes -/

def Tile.zero : Tile := { words := [], ident := 0, cycle := false, start := 0, waited := 2 ^ 33, comp := 0 }

def Team.tile (t : Team) (n : Nat) : Tile := (get? t.tiles n).getD Tile.zero

def State.modTile (s : State) (core team n : Nat) (f : Tile → Tile) : State :=
  s.modTeam core team fun t => { t with tiles := put t.tiles n (f (t.tile n)) }

/-- Element (i, j) of a tile. -/
def Tile.at (t : Tile) (i j : Nat) : Word32 := t.words.getD (64 * i + j) 0

/-- Tiles mapped on a core (R12: it has 32). -/
def Core.tilesUsed (c : Core) (p : Team → Bool) : Nat := ((c.teams.filter fun t => p t.2).map fun t => t.2.tiles.length).sum

/-- Whether a team has allocated a tile name (R354). -/
def Team.owns (t : Team) (n : Nat) : Bool := t.names.getLsbD n

def tileTrap (cause : Nat) : Stop := (0x44, 0, [BitVec.ofNat 64 cause])

/-- K of one step of a type, and the bytes of n elements (R355, R356). -/
def kMax : Ty → Nat
  | .f16 | .bf16 => 32
  | .e2m1 => 128
  | _ => 64
def kBytes (ty : Ty) (n : Nat) : Nat :=
  match ty with
  | .f16 | .bf16 => 2 * n
  | .e2m1 => (n + 1) / 2
  | _ => n

/-- The shape word (R356). -/
structure Shape where
  mr : Nat
  nc : Nat
  kv : Nat
  sa : Nat
  sb : Nat
  asq : Nat
  bsq : Nat
  deriving DecidableEq, Repr

def shapeOf (w : Word64) (ty : Ty) : Option Shape :=
  let x := w.toNat
  let or := fun a b => if a = 0 then b else a
  let stride := fun a => 16 * or a 4
  let sh : Shape := { mr := or (x % 64) 64, nc := or (x / 2 ^ 6 % 64) 64, kv := or (x / 2 ^ 12 % 128) (kMax ty),
                      sa := stride (x / 2 ^ 19 % 2 ^ 14), sb := stride (x / 2 ^ 33 % 2 ^ 14),
                      asq := x / 2 ^ 47 % 64, bsq := x / 2 ^ 53 % 64 }
  if x / 2 ^ 59 ≠ 0 ∨ sh.sa < 64 ∨ sh.sb < 64 ∨ kMax ty ≤ x / 2 ^ 12 % 128 ∨ (ty ≠ .e2m1 ∧ (sh.asq ≠ 0 ∨ sh.bsq ≠ 0)) then none else some sh

/-- Bytes from the first to the last of some rows. -/
def extent (rows stride len : Nat) : Nat := (rows - 1) * stride + len

/-- An operand's base: a local place, or a global address. -/
inductive Base
  | loc (p : Place)
  | glob (va : Word64)

/-- The base that a specifier gives; none raises the local-range trap. -/
def State.base? (s : State) (x : Gang) (glob : Bool) (d : Spec) (n : Nat) : Option Base :=
  if glob then some (.glob (x.uni64 d)) else (s.place? x.core x.grp.team (x.uni32 d) n).map .loc

def Base.aligned : Base → Bool
  | .loc p => p.off % 16 == 0
  | .glob va => va.toNat % 16 == 0

def Base.src (b : Base) (stride rows : Nat) : MatSrc :=
  match b with
  | .loc p => { glob := false, base := BitVec.ofNat 64 p.off, core := p.core, team := p.team, stride, rows }
  | .glob va => { glob := true, base := va, core := 0, team := 0, stride, rows }

def Base.claim (b : Base) (n : Nat) (write : Bool) : Claim :=
  match b with
  | .loc p => p.claim n write
  | .glob va => globClaim va n write

/-- The address of a row. -/
def MatSrc.rowAt (m : MatSrc) (i : Nat) : Word64 := m.base + BitVec.ofNat 64 (i * m.stride)

/-- One address in each page that the rows of a global operand touch. -/
def MatSrc.pages (m : MatSrc) (len : Nat) : List (Nat × Word64) :=
  if !m.glob then []
  else
    let all := (List.range m.rows).flatMap fun i => [m.rowAt i, m.rowAt i + BitVec.ofNat 64 (len - 1)]
    (all.foldl (fun (l : List Word64) a => if l.any fun b => b.toNat / 4096 == a.toNat / 4096 then l else l ++ [a]) []).map fun a => (0, a)

/-- The traps of R354 for translated pages of global operands: memory space, and for a destination the edition view. -/
def pageStop (s : State) (l : List Spot) (write : Bool) : Option Stop :=
  failAt l 0x3B [] (fun p => isHostDie p.dpa || isLink p.dpa)
  <|> failAt l 0x35 [] (fun p => write && ((s.regionAt p.dpa).map (·.view.isSome)) == some true)

/-! ### The engine: one operation at a time, in issue order (R353) -/

def OpKind.matrix : OpKind → Bool
  | .mma _ _ _ _ _ _ _ _ _ _ _ _ | .mzero _ | .mldt _ _ _ | .mstt _ _ _ | .mdrain _ _ _ _ _ _ _ _ _ _ _ _ | .malloc _ _ | .mfree _ => true
  | _ => false

/-- No earlier matrix operation is left on the core. -/
def Core.matrixFirst (c : Core) (id : Nat) : Bool := c.ops.all fun o => !o.kind.matrix || decide (id ≤ o.id)

/-- An operation ends without a result: a trap of its group, and neither destination nor tag is written (R200, R249, R411). -/
def State.failOp (s : State) (core id : Nat) (code : Nat) (va : Word64) (words : List Word64) : State :=
  match (s.core core).op? id with
  | none => s
  | some o =>
    let s := s.trap core o.slot code va o.pc words
    s.modCore core fun c => (c.modOp id fun o => { o with writes := [], gdst := none }).finishOp id

/-- Poison consumed (R411): the trap at the completion point, the destination not written. -/
def State.poisonEnd (s : State) (core id : Nat) (p : Nat × Word64) : State := s.failOp core id 0x70 0 [BitVec.ofNat 64 p.1, p.2]

/-- A tile's cycle begins with the first write after its retirement (R418). -/
def State.beginCycle (s : State) (core team n : Nat) : State :=
  s.modTile core team n fun t => if t.cycle then t else { t with cycle := true, start := s.ns, waited := 2 ^ 33, comp := 0 }

/-! ### Reading operands (R234, R355) -/

/-- What the tile fetch unit has read so far. -/
structure Fetching where
  s : State
  bytes : List Byte
  pins : List Nat
  poison : Option (Nat × Word64)
  stop : Option Stop
  wait : Bool
  /-- Whether every byte so far lies in Unbacked pages of apertures whose datum is 0 (R201). -/
  bare : Bool

/-- Read n bytes that lie in one line. -/
def Fetching.chunk (a : Fetching) (core op : Nat) (o : Op) (va : Word64) (n : Nat) : Fetching :=
  if a.wait || a.stop.isSome then a
  else
    match a.s.translateAt o.ctx (vaBits va) .load with
    | .error c => { a with stop := some (0x10, va, [BitVec.ofNat 64 c]) }
    | .ok (s, dpa) =>
      match s.homeBadTag va dpa n with
      | some t => { a with s := s, stop := some (0x30, va, [t.setWidth 64]) }
      | none =>
        match s.homeRead (.engineLockWaitEnd core op) dpa n with
        | (s, none) => { a with s := s, wait := true }
        | (s, some _) =>
          let bare := match s.regionAt dpa with
            | some r => r.dat && r.datum == 0 && !(s.pageSt (pageOf dpa)).backed && !(s.pageSt (pageOf dpa)).held
            | none => false
          let s := s.readMark core o.team dpa n
          { a with s := s, bytes := a.bytes ++ (List.range n).map fun i => s.teamByte core o.team (dpa + i)
                   pins := if a.pins.contains (lineOf dpa) then a.pins else a.pins ++ [lineOf dpa]
                   poison := a.poison <|> (s.poisonIn dpa n).map fun _ => (3, va), bare := a.bare && bare }

/-- Read one row of a global operand; answers also whether the row may be skipped. -/
def Fetching.row (a : Fetching) (core op : Nat) (o : Op) (va : Word64) (len : Nat) : Fetching :=
  (List.range ((len + 15) / 16)).foldl (fun a k => a.chunk core op o (va + BitVec.ofNat 64 (16 * k)) (min 16 (len - 16 * k)))
    { a with bytes := [], bare := true }

/-- The words of some bytes, padded to n words. -/
def bytesWords (b : List Byte) (n : Nat) : List Word32 :=
  (List.range n).map fun j => BitVec.ofNat 32 (leNat ((List.range 4).map fun i => b.getD (4 * j + i) 0))

/-- Read the rows of an operand (64 rows of 16 words): their words, and the set of rows skipped (R201). -/
def Fetching.operand (a : Fetching) (core op : Nat) (o : Op) (m : MatSrc) (len : Nat) (isA strict : Bool) :
    Fetching × List Word32 × Mask :=
  if !m.glob then (a, List.replicate 1024 0, 0)
  else
    (List.range 64).foldl (fun (acc : Fetching × List Word32 × Mask) i =>
      if m.rows ≤ i then (acc.1, acc.2.1 ++ List.replicate 16 0, acc.2.2)
      else
        let a := acc.1.row core op o (m.rowAt i) len
        (a, acc.2.1 ++ bytesWords a.bytes 16,
         if a.bare && !strict && Config.skip a.s.n isA i then acc.2.2 ||| laneBit i else acc.2.2)) (a, [], 0)

/-- An `MMA` starts: its global operands are read, and their lines pinned (R234). -/
def State.startMma (s : State) (core id : Nat) (o : Op) (td : Nat) (a b : MatSrc) (len : Nat) (strict : Bool) : State :=
  let f : Fetching := { s := s, bytes := [], pins := [], poison := none, stop := none, wait := false, bare := true }
  let (f, wa, ma) := f.operand core id o a len true strict
  let (f, wb, mb) := f.operand core id o b len false strict
  match f.stop with
  | some e => f.s.failOp core id e.1 e.2.1 e.2.2
  | none =>
    if f.wait then f.s
    else
      let s := f.s.beginCycle core o.team td
      s.modCore core fun c => c.modOp id fun o =>
        { o with started := true, pins := f.pins, poison := f.poison, held := [lo32 ma, hi32 ma, lo32 mb, hi32 mb] ++ wa ++ wb }

/-- A matrix operation starts when it is the engine's next and no earlier lock holds it back (R233, R353). -/
def State.startMatrix (s : State) (core id : Nat) : State :=
  match (s.core core).op? id with
  | none => s
  | some o =>
    if o.started || !o.kind.matrix || !(s.core core).matrixFirst id || (s.core core).engineBlocked id then s
    else
      match o.kind with
      | .mma ty td _ a b kv _ _ strict _ _ _ => s.startMma core id o td a b (kBytes ty kv) strict
      | .mzero td | .mldt _ td _ =>
        (s.beginCycle core o.team td).modCore core fun c => c.modOp id fun o => { o with started := true }
      | _ => s.modCore core fun c => c.modOp id fun o => { o with started := true }

/-- Read rows of local memory: their words (w a row), or none where a window line must wait; and poison met. -/
def State.localRows (s : State) (who : Instr) (m : MatSrc) (len w : Nat) :
    State × Option (List Word32) × Option (Nat × Word64) :=
  (List.range 64).foldl (fun (acc : State × Option (List Word32) × Option (Nat × Word64)) i =>
    match acc.2.1 with
    | none => acc
    | some l =>
      if m.rows ≤ i then (acc.1, some (l ++ List.replicate w 0), acc.2.2)
      else
        let p : Place := { core := m.core, team := m.team, off := (m.rowAt i).toNat }
        match acc.1.readyLocal p len who with
        | (s, false) => (s, none, acc.2.2)
        | (s, true) => (s, some (l ++ bytesWords (s.localBytes p len) w),
                        acc.2.2 <|> (s.localPoison p len).map fun g => (2, BitVec.ofNat 64 g))) (s, some [], none)

/-- Stores of a group performed to pinned lines take a later GWCT. -/
def Group.raisePinned (g : Group) (pins : List Nat) (now : Nat) : Group :=
  let up := fun (r : StoreReq) => if r.todo = 0 ∧ pins.contains (lineOf r.dpa) then { r with gwct := max r.gwct now } else r
  { g with stores := g.stores.map up }

/-- The pins of a tile fetch end; the GWCT of a store that waited for them is no earlier (R234). -/
def State.unpin (s : State) (core id : Nat) : State :=
  match (s.core core).op? id with
  | none => s
  | some o =>
    let s := if o.pins.isEmpty then s
      else { s with cores := s.cores.map fun c =>
        (c.1, { c.2 with groups := c.2.groups.map fun g => (g.1, g.2.raisePinned o.pins s.ns) }) }
    s.modCore core fun c => c.modOp id fun o => { o with pins := [] }

/-- The time to the first operands-consumed point of a tile's cycle (R418). -/
def State.markWait (s : State) (core team n : Nat) : State :=
  s.modTile core team n fun t => if 2 ^ 32 ≤ t.waited then { t with waited := s.ns - t.start } else t

/-- The operands-consumed point of a matrix operation: what it reads of local memory and tiles is read. -/
def State.consumeMatrix (s : State) (core id : Nat) : State :=
  match (s.core core).op? id with
  | none => s
  | some o =>
    let who : Instr := .operandsConsumed core id
    let ok := o.started && (s.core core).matrixFirst id
    let hold := fun (s : State) (l : List Word32) (p : Option (Nat × Word64)) =>
      let s := s.modCore core fun c => c.modOp id fun o => { o with held := l, poison := o.poison <|> p }
      (s.unpin core id).consumeEngine core id
    if o.consumed || !ok then s
    else
      match o.kind with
      | .mma ty td _ a b kv _ _ _ _ _ _ =>
        let len := kBytes ty kv
        let wa := (o.held.drop 4).take 1024
        let wb := (o.held.drop 1028).take 1024
        match if a.glob then (s, some wa, none) else s.localRows who a len 16 with
        | (s, none, _) => s
        | (s, some wa, p) =>
          match if b.glob then (s, some wb, none) else s.localRows who b len 16 with
          | (s, none, _) => s
          | (s, some wb, q) => hold (s.markWait core o.team td) (o.held.take 4 ++ wa ++ wb) (p <|> q)
      | .mldt ty td src =>
        match s.localRows who src (if ty = .n32 then 256 else 128) 64 with
        | (s, none, _) => s
        | (s, some w, p) => hold (s.markWait core o.team td) w p
      | .mstt _ ts _ => hold s ((List.range 4096).map fun k => (((s.team? core o.team).map fun t => t.tile ts).getD Tile.zero).words.getD k 0) none
      | .mdrain ty ts _ res _ _ _ _ _ _ nc z =>
        let tile := ((s.team? core o.team).map fun t => t.tile ts).getD Tile.zero
        let mine := (List.range 4096).map fun k => tile.words.getD k 0
        let done := fun (s : State) w p =>
          hold (if z then s.modTile core o.team ts fun t => { t with words := [] } else s) (mine ++ w) p
        match res with
        | none => done s [] none
        | some r =>
          match s.localRows who r (nc * (fwidth ty / 8)) 64 with
          | (s, none, _) => s
          | (s, some w, p) => done s w p
      | _ => s.consumeEngine core id

/-! ### The product (R112–R114, R357, R358) -/

/-- Element k of a row of 16 words, as raw bits. -/
def elemBits (ty : Ty) (row : List Word32) (k : Nat) : Nat :=
  let byte := fun i => (row.getD (i / 4) 0).toNat / 2 ^ (8 * (i % 4)) % 256
  match ty with
  | .f16 | .bf16 => byte (2 * k) + 256 * byte (2 * k + 1)
  | .e2m1 => byte (k / 2) / 16 ^ (k % 2) % 16
  | _ => byte k

def elemF (ty : Ty) (scale : Word32) (row : List Word32) (k : Nat) : FVal :=
  match ty with
  | .e2m1 => scaledE2m1 (scale.toNat / 2 ^ (8 * (k / 32)) % 256) (elemBits ty row k)
  | .vt8 => decodeVt8 (elemBits ty row k)
  | t => decodeF t (elemBits ty row k)

def hadShift : Had → Nat
  | .none => 0
  | .had16 => 4
  | .had32 => 5

/-- One output element (R112, R113): `live` where neither an edge nor a skip turns every product into +0. -/
def mmaElem (ty : Ty) (acc : Word32) (ra rb : List Word32) (sa sb : Word32) (kv : Nat) (live : Bool) (had : Had) : Word32 :=
  match ty with
  | .s8 | .n8 =>
    let v := fun r k => intOf ty (BitVec.ofNat 64 (elemBits ty r k))
    let sum := if live then ((List.range kv).map fun k => v ra k * v rb k).foldl (· + ·) 0 else 0
    BitVec.ofInt 32 (acc.toInt + sum)
  | _ =>
    let zero := FVal.fin false 0 0
    let prods := if live then (List.range kv).map fun k => (elemF ty sa ra k).mul (elemF ty sb rb k) else [zero]
    BitVec.ofNat 32 (matrixStep acc.toNat (if kv < kMax ty then prods ++ [zero] else prods) (hadShift had))

/-- TD of an `MMA` or `MMAS` (R357). -/
def mmaTile (ty : Ty) (ts : Tile) (held : List Word32) (kv nc mr : Nat) (had : Had) (scaleA scaleB : List Word32) : List Word32 :=
  let skipA : Mask := held.getD 1 0 ++ held.getD 0 0
  let skipB : Mask := held.getD 3 0 ++ held.getD 2 0
  let row := fun base i => (held.drop (base + 16 * i)).take 16
  (List.range 64).flatMap fun i =>
    let ra := row 4 i
    (List.range 64).map fun j =>
      let live := decide (i < mr) && decide (j < nc) && !has skipA i && !has skipB j
      mmaElem ty (ts.at i j) ra (row 1028 j) (scaleA.getD i 0) (scaleB.getD j 0) kv live had

/-! ### Writing out (R360–R362) -/

/-- DropHash of R362. -/
def dropHash (s r c : Word32) : Word32 :=
  let x := s ^^^ (r * 0x9E3779B1#32) ^^^ (c * 0x85EBCA77#32)
  let x := (x ^^^ (x >>> 16)) * 0x7FEB352D#32
  let x := (x ^^^ (x >>> 15)) * 0x846CA68B#32
  x ^^^ (x >>> 16)

/-- The bits of one drained element (R362). -/
def drainElem (ty : Ty) (a scale : Word32) (res : Option Nat) (keep : Bool) : Nat :=
  let av := decodeF .f32 a.toNat
  let sv := decodeF .f32 scale.toNat
  match res with
  | none => roundTo ty .rn (if keep then decodeF .f32 (roundTo .f32 .rn (av.mul sv)) else .fin false 0 0)
  | some r =>
    let rr := decodeF ty r
    roundTo ty .rn (if keep then decodeF .f32 (roundTo .f32 .rn (exactSum .rn [av.mul sv, rr])) else rr)

/-- The bytes of one row that `MSTT` writes: raw words, or rounded to nearest-even. -/
def msttRow (ty : Ty) (held : List Word32) (i : Nat) : List Byte :=
  (List.range 64).flatMap fun j =>
    let w := held.getD (64 * i + j) 0
    if ty = .n32 then leBytes 4 w.toNat else leBytes 2 (roundTo ty .rn (decodeF .f32 w.toNat))

/-- Element j of a row of w-bit residuals held as words. -/
def resElem (row : List Word32) (size j : Nat) : Nat :=
  (row.getD (j * size / 4) 0).toNat / 2 ^ (8 * (j * size % 4)) % 256 ^ size

/-- The bytes of one row that `MDRAIN` writes. -/
def drainRow (ty : Ty) (held : List Word32) (res : Bool) (scale seed thresh row0 col0 : Word32) (nc i : Nat) : List Byte :=
  let size := fwidth ty / 8
  let rr := (held.drop (4096 + 64 * i)).take 64
  (List.range nc).flatMap fun j =>
    let keep := decide (thresh.toNat ≤ (dropHash seed (row0 + BitVec.ofNat 32 i) (col0 + BitVec.ofNat 32 j)).toNat)
    leBytes size (drainElem ty (held.getD (64 * i + j) 0) scale (if res then some (resElem rr size j) else none) keep)

/-- Bytes at an address in pieces that lie within one line. -/
def linePieces (va : Word64) : Nat → List Byte → List (Word64 × List Byte)
  | 0, _ => []
  | k + 1, b =>
    if b.isEmpty then []
    else
      let n := 128 - va.toNat % 128
      (va, b.take n) :: linePieces (va + BitVec.ofNat 64 n) k (b.drop n)

/-- The pieces that an operation writes. -/
def outPieces (m : MatSrc) (rows : Nat) (row : Nat → List Byte) : List (Word64 × List Byte) :=
  (List.range rows).flatMap fun i => linePieces (m.rowAt i) 4 (row i)

/-- Write one piece of an operation: a weak store at its home, which translates and is tag-checked as a store is, or a delivery at its
bank (R199, R362).  False where it waits at its home; where it traps, the operation ends (R200; log 14). -/
def State.writePiece (s : State) (who : Instr) (core : Nat) (o : Op) (m : MatSrc) (va : Word64) (b : List Byte) : State × Bool :=
  let next := fun (s : State) => (s.modCore core fun c => c.modOp o.id fun o => { o with done := o.done + 1 }, true)
  if !m.glob then next (s.storeLocal { core := m.core, team := m.team, off := va.toNat } b.length fun i => b.getD i 0)
  else
    match s.translateAt o.ctx (vaBits va) .store with
    | .error c => (s.failOp core o.id 0x10 va [BitVec.ofNat 64 c], false)
    | .ok (s, dpa) =>
      match s.homeBadTag va dpa b.length with
      | some t => (s.failOp core o.id 0x30 va [t.setWidth 64], false)
      | none =>
        match s.homeWrite who dpa b.length (fun i => b[i]?) none with
        | (s, some g) => next (s.engineWrote core o dpa b.length g)
        | (s, none) => (s, false)

/-- Write the pieces of an operation that are left; false where one waits, or has ended the operation. -/
def State.writePieces (s : State) (who : Instr) (core id : Nat) (m : MatSrc) (l : List (Word64 × List Byte)) : State × Bool :=
  l.foldl (fun (acc : State × Bool) p =>
    if !acc.2 then acc
    else
      match (acc.1.core core).op? id with
      | none => (acc.1, false)
      | some o => acc.1.writePiece who core o m p.1 p.2) (s, true)

/-- The address of a team's next stamp record (R376). -/
def Team.stampAt (t : Team) : Word64 :=
  t.stampBase + BitVec.ofNat 64 (32 * (t.stampCtl.toNat / 2 ^ 32 % 2 ^ (t.stampCtl.toNat / 16 % 16 + 6)))

/-- COUNT rises by 1, modulo 2^32 (R376). -/
def Team.stampNext (t : Team) : Team :=
  { t with stampCtl := BitVec.ofNat 64 ((t.stampCtl.toNat / 2 ^ 32 + 1) % 2 ^ 32 * 2 ^ 32 + t.stampCtl.toNat % 2 ^ 32) }

/-- A stamp record leaves as `.strong.device` stores of operation `op`, which belong to no lane; COUNT rises (R376, R377). -/
def State.stampStore (s : State) (core slot team op : Nat) (va : Word64) (dpa kind tile ident : Nat) (data : List Byte) : State :=
  let rec_ := leBytes 8 s.ns ++ leBytes 1 kind ++ leBytes 1 core ++ leBytes 1 (if kind = 1 then slot else 0xFF)
    ++ leBytes 1 tile ++ leBytes 4 ident ++ data
  let (id, s) := s.take
  let (id', s) := s.take
  let half := fun id k => ({ id, op, lane := 64, va := va + BitVec.ofNat 64 (16 * k), dpa := dpa + 16 * k, width := 16,
                             data := BitVec.ofNat 128 (leNat ((rec_.drop (16 * k)).take 16)), todo := 0xFFFF, cls := .strong, scope := .device,
                             tag := none, gwct := 0, stamps := [], firm := false } : StoreReq)
  (s.modTeam core team Team.stampNext).putStores core slot team [half id 0, half id' 1]

/-- A stamp record of a tile (R377, R418): where its stores trap, the group takes the trap, and no record is written (log 14). -/
def State.stampTile (s : State) (core team tile ident : Nat) (o : Op) (data : List Byte) : State :=
  match s.team? core team with
  | none => s
  | some t =>
    match s.translateAt t.ctx (vaBits t.stampAt) .store with
    | .error c => s.trap core o.slot 0x10 t.stampAt o.pc [BitVec.ofNat 64 c]
    | .ok (u, dpa) =>
      match pageStop u [{ lane := 64, va := t.stampAt, dpa }] true, u.homeBadTag t.stampAt dpa 32 with
      | some e, _ => u.trap core o.slot e.1 e.2.1 o.pc e.2.2
      | none, some g => u.trap core o.slot 0x30 t.stampAt o.pc [g.setWidth 64]
      | none, none => u.stampStore core o.slot team o.id t.stampAt dpa 2 tile ident data

/-- A tile retires (R418). -/
def State.retireTile (s : State) (core : Nat) (o : Op) (n : Nat) : State :=
  let team := o.team
  match s.team? core team with
  | none => s
  | some t =>
    let x := t.tile n
    let sat := fun v => leBytes 4 (min v 0xFFFFFFFF)
    let s := if t.stampCtl.getLsbD 0 && x.ident != 0 && x.cycle then
        s.stampTile core team n x.ident o (leBytes 4 (x.start % 2 ^ 32) ++ sat x.waited ++ sat x.comp ++ sat (s.ns - x.start))
      else s
    s.modTile core team n fun x => { x with cycle := false }

/-! ### Completion (R353) -/

/-- The lowest n names that are neither allocated nor, freed but not yet unmapped, still mapped (R363); none where there are not so many. -/
def freeNames (names : BitVec 32) (n : Nat) : Option (List Nat) :=
  let l := ((List.range 32).filter fun i => !names.getLsbD i).take n
  if l.length = n then some l else none

def nameMask (l : List Nat) : BitVec 32 := l.foldl (fun m i => m ||| BitVec.twoPow 32 i) 0

/-- `MALLOC` takes effect (R119, R363): the mask of the names mapped, or 0. -/
def State.mallocTiles (s : State) (core : Nat) (o : Op) (n : Nat) : State × BitVec 32 :=
  match s.team? core o.team with
  | none => (s, 0)
  | some t =>
    let c := s.core core
    let room := c.tilesUsed (fun q => !q.released) + n ≤ 32 ∧ c.tilesUsed (fun q => q.ctx == o.ctx) + n ≤ (s.ctx o.ctx).tilesMax
    match freeNames (t.names ||| nameMask (keysOf t.tiles)) n with
    | some l =>
      if room then
        (s.modTeam core o.team fun t => { t with names := t.names ||| nameMask l, tiles := l.foldl (fun m i => put m i Tile.zero) t.tiles }, nameMask l)
      else (s, 0)
    | none => (s, 0)

/-- Write TD, and mark its cycle (R418). -/
def State.writeTile (s : State) (core team td : Nat) (w : List Word32) : State :=
  s.modTile core team td fun t => { t with words := w, comp := s.ns - t.start }

/-- The completion point of a matrix operation. -/
def State.completeMatrix (s : State) (core id : Nat) : State :=
  match (s.core core).op? id with
  | none => s
  | some o =>
    let who : Instr := .operationComplete core id
    if !o.started || !(s.core core).matrixFirst id then s
    else
      match o.kind with
      | .malloc _ n =>
        let (s, m) := s.mallocTiles core o n
        let o' := { o with res := (List.range 64).map fun _ => (m.setWidth 128 : BitVec 128) }
        (s.modCore core fun c => c.deliver o').finishEngine core id
      | .mfree names =>
        (s.modTeam core o.team fun t => { t with tiles := t.tiles.filter fun q => !names.getLsbD q.1 }).finishEngine core id
      | .mzero td => ((s.writeTile core o.team td []).markWait core o.team td).finishEngine core id
      | k =>
        if !o.consumed then s
        else
          match o.poison with
          | some p => s.poisonEnd core id p
          | none =>
            match k with
            | .mma ty td ts _ _ kv nc mr _ had sa sb =>
              let t := ((s.team? core o.team).map fun t => t.tile ts).getD Tile.zero
              (s.writeTile core o.team td (mmaTile ty t o.held kv nc mr had sa sb)).finishEngine core id
            | .mldt ty td _ =>
              let w := (List.range 4096).map fun j =>
                if ty = .n32 then o.held.getD j 0
                else BitVec.ofNat 32 (roundTo .f32 .rn (decodeF ty (resElem ((o.held.drop (j / 64 * 64)).take 64) 2 (j % 64))))
              (s.writeTile core o.team td w).finishEngine core id
            | .mstt ty ts dst =>
              match s.writePieces who core id dst ((outPieces dst 64 (msttRow ty o.held)).drop o.done) with
              | (s, _) => (s.retireTile core o ts).finishEngine core id
            | .mdrain ty ts dst res scale seed thresh row0 col0 nr nc _ =>
              match s.writePieces who core id dst
                  ((outPieces dst nr (drainRow ty o.held res.isSome scale seed thresh row0 col0 nc)).drop o.done) with
              | (s, false) => s
              | (s, true) =>
                match (s.core core).op? id with
                | none => s
                | some o =>
                  if s.pinsLeft o then s
                  else if !o.onPins.isEmpty then s.pinsOver core o
                  else if s.ns < o.gwct then s else (s.retireTile core o ts).finishEngine core id
            | _ => s

/-! ### Issue (R354–R363) -/

/-- The team of the issuing gang. -/
def State.teamOf (s : State) (x : Gang) : Team :=
  (s.team? x.core x.grp.team).getD
    { ctx := 0, kernel := 0, pos := 0, ngroups := 0, clx := 0, cly := 0, clw := 0, clh := 0, anchor := 0, regs := 0, entry := 0, args := [],
      ready := 0, justSet := 0, stampBase := 0, stampCtl := 0, localBytes := 0, mem := [], poison := [], names := 0, tiles := [], nbar := 0, bars := [],
      windows := [], seals := [], free := 0, queue := [], status := { prog := 0, fcode := 0, cause := 0, mode := 0, faulted := false },
      idem := false, uncommitted := [], relaunches := 0, released := false, savedAt := none }

/-- Put a matrix operation in flight once the lock table and its tag have room (R231, R350). -/
def State.issueMatrix (s : State) (x : Gang) (kind : OpKind) (tag : Option (Fin 64)) (claims : List Claim) (d : Spec) : State × Bool :=
  let c := s.core x.core
  if !c.lockRoom claims.length || !c.tagRoom x.grp.team tag then (x.block s, false)
  else
    let (id, s) := s.take
    let s := x.start s { x.op id kind with tag := tag.map (·.val) } d 1 false
    let s := s.modCore x.core fun k => k.claim id x.slot x.grp.ctx claims
    ((s.modTeam x.core x.grp.team fun t => t.clearTag tag).startMatrix x.core id, true)

/-- `MMA` and `MMAS` (R354–R358). -/
def mma (i : Instr) (f : FMma) (ty : Ty) (s : State) : Res :=
  issueWith s i .always fun x s =>
    let t := s.teamOf x
    let sh? := shapeOf (x.uni64 f.c) ty
    let quad := fun k => decide (4 * ((x.uni64 f.c).toNat / 2 ^ k % 64) + 3 < x.grp.quota)
    if ty = .e2m1 ∧ !(quad 47 && quad 53) then (x.trap s 0x01 0 [s.cur.word], false)
    else if x.act ≠ allLanes ∨ x.grp.liveMask ≠ allLanes then (x.trap s 0x06 0 [x.act], false)
    else if !t.owns f.td.val || !t.owns f.ts.val then (x.stop s (tileTrap 1), false)
    else
      match sh? with
      | none => (x.stop s (tileTrap 2), false)
      | some sh =>
        let len := kBytes ty sh.kv
        let na := extent sh.mr sh.sa len
        let nb := extent sh.nc sh.sb len
        match s.base? x f.ga f.a na, s.base? x f.gb f.b nb with
        | none, _ => (x.stop s (0x39, (x.uni32 f.a).setWidth 64, []), false)
        | _, none => (x.stop s (0x39, (x.uni32 f.b).setWidth 64, []), false)
        | some a, some b =>
          let ma := a.src sh.sa sh.mr
          let mb := b.src sh.sb sh.nc
          if !a.aligned then (x.stop s (0x32, ma.base, []), false)
          else if !b.aligned then (x.stop s (0x32, mb.base, []), false)
          else
            match s.spots x.core x.grp.ctx .load (ma.pages len ++ mb.pages len) with
            | .error e => (x.stop s e, false)
            | .ok (u, l) =>
              match pageStop u l false with
              | some e => (x.stop s e, false)
              | none =>
                let scale := fun q => (List.range 64).map fun j => if ty = .e2m1 then x.grp.mainAt (4 * q + f.sel.val) j else 0
                u.issueMatrix x (.mma ty f.td.val f.ts.val ma mb sh.kv sh.nc sh.mr f.strict f.had (scale sh.asq) (scale sh.bsq))
                  none [a.claim na false, b.claim nb false] .zero

def execMmaF16 (f : FMma) (s : State) : Res := mma (.mmaF16 f) f .f16 s
def execMmaBf16 (f : FMma) (s : State) : Res := mma (.mmaBf16 f) f .bf16 s
def execMmaVt8 (f : FMma) (s : State) : Res := mma (.mmaVt8 f) f .vt8 s
def execMmaS8 (f : FMma) (s : State) : Res := mma (.mmaS8 f) f .s8 s
def execMmaN8 (f : FMma) (s : State) : Res := mma (.mmaN8 f) f .n8 s
def execMmas (f : FMma) (s : State) : Res := mma (.mmas f) f .e2m1 s

/-- `MZERO` (R359). -/
def execMzero (f : FEng) (s : State) : Res :=
  issueWide s (.mzero f) fun x s =>
    if !(s.teamOf x).owns f.td.val then (x.stop s (tileTrap 1), false)
    else
      let (s', ok) := s.issueMatrix x (.mzero f.td.val) none [] .zero
      (if ok then s'.consume x.core s.fresh else s', ok)

/-- The stride of a tile's rows in memory; none outside its limits (R360, R361). -/
def strideOf (x size : Nat) : Option Nat := if x = 0 then some (64 * size) else if x % 16 ≠ 0 ∨ x < 64 * size then none else some x

def tileSize (ty : Ty) : Nat := if ty = .n32 then 4 else fwidth ty / 8

/-- A tile in rows of local memory (R360): the place, its stride and its extent, or the trap. -/
def State.tileRange (s : State) (x : Gang) (f : FTile) (tile : Nat) : Except Stop (Place × Nat × Nat) :=
  let size := tileSize f.ty
  if !(s.teamOf x).owns tile then .error (tileTrap 1)
  else
    match strideOf (x.uni32 f.b).toNat size with
    | none => .error (tileTrap 2)
    | some st =>
      let n := extent 64 st (64 * size)
      let a := (x.uni32 f.a).setWidth 64
      match s.place? x.core x.grp.team (x.uni32 f.a) n with
      | none => .error (0x39, a, [])
      | some p => if p.off % 16 ≠ 0 then .error (0x32, a, []) else .ok (p, st, n)

def execMldt (f : FTile) (s : State) : Res :=
  issueWide s (.mldt f) fun x s =>
    match s.tileRange x f f.td.val with
    | .error e => (x.stop s e, false)
    | .ok (p, st, n) => s.issueMatrix x (.mldt f.ty f.td.val ((Base.loc p).src st 64)) none [p.claim n false] .zero

def execMstt (f : FTile) (s : State) : Res :=
  issueWide s (.mstt f) fun x s =>
    match s.tileRange x f f.ts.val with
    | .error e => (x.stop s e, false)
    | .ok (p, st, n) =>
      if s.sealed p n then (x.stop s (0x34, BitVec.ofNat 64 p.off, []), false)
      else s.issueMatrix x (.mstt f.ty f.ts.val ((Base.loc p).src st 64)) f.tag [p.claim n true] .zero

/-- A drain descriptor (R361), with the strides it gives; none for a field outside its limits.  Its reserved bits are ignored (R7). -/
structure Drain where
  dstride : Nat
  res : Option Nat
  rstride : Nat
  w : List Nat
  nr : Nat
  nc : Nat

def drainOf (ty : Ty) (w : Nat → Nat) : Option Drain :=
  let size := fwidth ty / 8
  let or := fun a => if a = 0 then 64 else a
  match strideOf (w 0) size, strideOf (w 2) size with
  | some d, some r =>
    if w 1 ≠ 0xFFFFFFFF ∧ w 1 % 16 ≠ 0 then none
    else some { dstride := d, res := if w 1 = 0xFFFFFFFF then none else some (w 1), rstride := r, w := (List.range 12).map w,
                nr := or (w 8 % 64), nc := or (w 8 / 2 ^ 8 % 64) }
  | _, _ => none

/-- `MDRAIN` (R361, R362). -/
def execMdrain (f : FTile) (s : State) : Res :=
  issueWide s (.mdrain f) fun x s =>
    let team := x.grp.team
    let c := x.uni32 f.c
    if !(s.teamOf x).owns f.ts.val then (x.stop s (tileTrap 1), false)
    else
      match s.place? x.core team c 48 with
      | none => (x.stop s (0x39, c.setWidth 64, []), false)
      | some d =>
        if d.off % 16 ≠ 0 then (x.stop s (0x32, c.setWidth 64, []), false)
        else
          match if s.readBlocked d 48 then (s, false) else s.readyLocal d 48 .heldEventPost with
          | (s, false) => (s, false)
          | (s, true) =>
            match drainOf f.ty fun j => leNat (s.localBytes { d with off := d.off + 4 * j } 4) with
            | none => (x.stop s (tileTrap 2), false)
            | some q =>
              let len := q.nc * (fwidth f.ty / 8)
              let n := extent q.nr q.dstride len
              let rn := extent q.nr q.rstride len
              let res? := q.res.map fun r => s.place? x.core team (BitVec.ofNat 32 r) rn
              match s.base? x f.g f.a n, res? with
              | none, _ => (x.stop s (0x39, (x.uni32 f.a).setWidth 64, []), false)
              | _, some none => (x.stop s (0x39, BitVec.ofNat 64 (q.res.getD 0), []), false)
              | some a, r =>
                let dst := a.src q.dstride q.nr
                if !a.aligned then (x.stop s (0x32, dst.base, []), false)
                else
                  match s.spots x.core x.grp.ctx .store (dst.pages len) with
                  | .error e => (x.stop s e, false)
                  | .ok (u, l) =>
                    let closed := match a with
                      | .loc p => u.sealed p n
                      | .glob _ => false
                    match pageStop u l true <|> (if closed then some (0x34, dst.base, []) else none) with
                    | some e => (x.stop s e, false)
                    | none =>
                      match u.leaveIdem x dst.glob with
                      | (u, false) => (u, false)
                      | (u, true) =>
                        let w := fun j => (BitVec.ofNat 32 (q.w.getD j 0) : Word32)
                        let rp := r.bind id
                        u.issueMatrix x
                          (.mdrain f.ty f.ts.val dst (rp.map fun p => (Base.loc p).src q.rstride q.nr) (w 3) (w 4) (w 5) (w 6) (w 7)
                            q.nr q.nc f.z) f.tag
                          ([d.claim 48 false, a.claim n true] ++ (rp.map fun p => p.claim rn false).toList) .zero

/-- `MALLOC` (R363). -/
def execMalloc (f : FEng) (s : State) : Res :=
  issueWide s (.malloc f) fun x s =>
    let n := (x.uni32 f.b).toNat
    if n = 0 ∨ 32 < n then (x.stop s (tileTrap 2), false)
    else
      let (s', ok) := s.issueMatrix x (.malloc 0 n) none [] f.a
      (if ok then s'.consume x.core s.fresh else s', ok)

/-- `MFREE` (R363): the names leave the team's allocation at once. -/
def execMfree (f : FEng) (s : State) : Res :=
  issueWide s (.mfree f) fun x s =>
    let m := x.uni32 f.b
    if m &&& ~~~ (s.teamOf x).names ≠ 0 then (x.stop s (tileTrap 1), false)
    else
      let (s', ok) := s.issueMatrix x (.mfree m) none [] .zero
      (if ok then (s'.modTeam x.core x.grp.team fun t => { t with names := t.names &&& ~~~ m }).consume x.core s.fresh else s', ok)

end Sys2Proof.Machine
end

