-- ==== Sys2Proof/Machine/Grammar.lean ====
section
/-! DEFINITION. The grammar evaluator (R237–R252, R364–R367), and the end of an engine's lock wait (R233). -/

namespace Sys2Proof.Machine

/-! ### Status, order and reads -/

/-- Operations behind which the evaluator's later ones stand: a status is read before what follows it changes it (R251). -/
def OpKind.inEval : OpKind → Bool
  | .grstat => true
  | k => k.evaluator

/-- No earlier operation of the evaluator is left on the core. -/
def Core.evalFirst (c : Core) (id : Nat) : Bool := c.ops.all fun o => !o.kind.inEval || decide (id ≤ o.id)

/-- No operation of the evaluator is left on the core. -/
def Core.evalIdle (c : Core) : Bool := c.ops.all fun o => !o.kind.inEval

/-- CAP of R243. -/
def Binding.cap (b : Binding) : Nat := 16384 / b.v

/-- A trap of an evaluator operation in its team's status (R251). -/
def State.noteEval (s : State) (core team : Nat) (code cause mode : Nat) : State :=
  s.modTeam core team fun t => { t with status := { t.status with fcode := code, cause := cause, mode := mode, faulted := true } }

/-- A trap at issue of `GRBIND` or `GREVAL`, noted in the status (R248, R251). -/
def Gang.evalStop (x : Gang) (s : State) (e : Stop) (mode : Nat) : State :=
  x.stop (s.noteEval x.core x.grp.team e.1 ((e.2.2.headD 0).toNat % 16) mode) e

/-- The grammar-binding trap with a cause (R248). -/
def bindTrap (cause : Nat) : Stop := (0x43, 0, [BitVec.ofNat 64 cause])

/-- An evaluator operation stops at an index: cause, index, symbol and named rule (R249). -/
def Fetching.fail (a : Fetching) (code : Nat) (va : Word64) (words : List Nat) : Fetching :=
  if a.wait || a.stop.isSome then a else { a with stop := some (code, va, words.map (BitVec.ofNat 64)) }

/-- Read n bytes of a table: cause 5 where they do not translate (R248), the memory-space trap in a link region or host-die space
(R384). -/
def Fetching.table (a : Fetching) (core : Nat) (o : Op) (va : Word64) (n : Nat) (words : List Nat) : Fetching × Nat :=
  if a.wait || a.stop.isSome then (a, 0)
  else
    match a.s.lookup o.ctx (vaBits va) .load with
    | .error _ => (a.fail 0x42 va (5 :: words), 0)
    | .ok (dpa, _, _) =>
      if isHostDie dpa || isLink dpa then (a.fail 0x3B va [], 0)
      else
        let a := ({ a with bytes := [] } : Fetching).chunk core o.id o va n
        (a, leNat a.bytes)

/-- Read a word of the team's local memory (R242). -/
def Fetching.word (a : Fetching) (core : Nat) (o : Op) (off : Nat) : Fetching × Nat :=
  if a.wait || a.stop.isSome then (a, 0)
  else
    let p : Place := { core := core, team := o.team, off := off }
    match a.s.readyLocal p 4 (.operationComplete core o.id) with
    | (t, false) => ({ a with s := t, wait := true }, 0)
    | (t, true) =>
      ({ a with s := t, poison := a.poison <|> (t.localPoison p 4).map fun g => (2, BitVec.ofNat 64 g) }, leNat (t.localBytes p 4))

def Fetching.begin (s : State) : Fetching :=
  { s := s, bytes := [], pins := [], poison := none, stop := none, wait := false, bare := true }

/-! ### `GRBIND` (R242, R244, R364) -/

/-- A field of a record. -/
def fieldAt (b : List Byte) (off n : Nat) : Nat := leNat ((b.drop off).take n)

/-- The fields of a binding record within the limits of R242; its reserved bits are ignored (R7). -/
def recordOk (r : List Byte) : Bool :=
  let f := fieldAt r
  f 0 8 % 64 == 0 && [8, 12, 16, 20, 24].all (fun o => f o 4 % 4 == 0) && (f 0x1C 4 == 0xFFFFFFFF || f 0x1C 4 % 8 == 0)
    && decide (1 ≤ f 0x28 1) && decide (f 0x28 1 ≤ 4)

/-- The fields of a descriptor within the limits of R237; its reserved bits are ignored (R7). -/
def descOk (d : List Byte) : Bool :=
  let f := fieldAt d
  let shape := f 0x18 8
  f 0 8 % 8 == 0 && f 8 8 % 8 == 0 && f 0x10 8 % 4 == 0
    && (shape / 256 % 16 == 9 || shape / 256 % 16 == 0xB) && shape / 2 ^ 16 % 2 ^ 24 != 0 && decide (f 0x20 2 < 32768)

/-- The binding that a record and its descriptor give. -/
def bindingOf (team ctx record : Nat) (r d : List Byte) : Binding :=
  let f := fieldAt r
  let g := fieldAt d
  let shape := g 0x18 8
  { team, ctx, record, desc := BitVec.ofNat 64 (f 0 8), rules := BitVec.ofNat 64 (g 0 8), rows := BitVec.ofNat 64 (g 8 8),
    syms := BitVec.ofNat 64 (g 0x10 8), nrules := shape / 2 ^ 40, nrows := shape / 2 ^ 16 % 2 ^ 24,
    etype := if shape / 256 % 16 = 9 then .f16 else .vt8, ncols := g 0x20 2 + 1, nsyms := g 0x28 4,
    x := f 8 4, xstride := f 0xC 4, y := f 0x10 4, ystride := f 0x14 4, e := f 0x18 4,
    spill := if f 0x1C 4 = 0xFFFFFFFF then none else some (f 0x1C 4), tau := BitVec.ofNat 32 (f 0x20 4), base := f 0x24 4 % 2 ^ 24,
    v := f 0x28 1 }

/-- The strides of several vectors hold them apart (R242). -/
def Binding.stridesOk (b : Binding) : Bool := b.v == 1 || (decide (4 * b.ncols ≤ b.xstride) && decide (4 * b.nrows ≤ b.ystride))

/-- The place of a local range of the evaluator: trap 0x43 cause 3 outside the team's memory, and then 0x39 on reserved bits (R248). -/
def State.evalPlace (s : State) (x : Gang) (a n : Nat) : Except Stop Place :=
  match (s.place? x.core x.grp.team (BitVec.ofNat 32 (a % 2 ^ 30)) n).filter (Place.own · x) with
  | some p => if a / 2 ^ 30 ≠ 0 then .error (0x39, BitVec.ofNat 64 a, []) else .ok p
  | none => .error (bindTrap 3)

/-- A descriptor read at issue waits for the write locks of earlier operations (R233, R248). -/
def Core.descBlocked (c : Core) (ctx : Nat) (va : Word64) : Bool :=
  c.locks.any fun l => l.write && l.meets none ctx (vaBits va) (vaBits va + 64)

/-- The read locks of a `GRBIND` (R250). -/
def bindClaims (core team record : Nat) (desc : Word64) : List Claim :=
  [({ core := core, team := team, off := record % 2 ^ 21 } : Place).claim 64 false, globClaim desc 64 false]

/-- What the reading of a record answers: the binding and poison met, a trap, or a wait. -/
inductive BindRead
  | ok (s : State) (b : Binding) (poison : Option (Nat × Word64))
  | stop (e : Stop)
  | wait

/-- Read and check a record and its descriptor (R242). -/
def State.readBinding (s : State) (x : Gang) (a : Nat) : BindRead :=
  let o := x.op s.fresh (.grbind a)
  if a % 8 ≠ 0 then .stop (bindTrap 2)
  else
    match s.evalPlace x a 64 with
    | .error e => .stop e
    | .ok p =>
      match if s.readBlocked p 64 then (s, false) else s.readyLocal p 64 .heldEventPost with
      | (_, false) => .wait
      | (t, true) =>
        let r := t.localBytes p 64
        if !recordOk r then .stop (bindTrap 2)
        else if (t.core x.core).descBlocked x.grp.ctx (BitVec.ofNat 64 (fieldAt r 0 8)) then .wait
        else
          let (f, _) := (Fetching.begin t).table x.core o (BitVec.ofNat 64 (fieldAt r 0 8)) 64 [0, 0, 0]
          match f.stop with
          | some e => .stop e
          | none =>
            if f.wait then .wait
            else
              let b := bindingOf x.grp.team x.grp.ctx a r f.bytes
              if !descOk f.bytes || !b.stridesOk then .stop (bindTrap 2)
              else .ok f.s b ((t.localPoison p 64).map (fun g => (2, BitVec.ofNat 64 g)) <|> f.poison)

/-- Make or release a binding, and clear the rule file (R242, R251). -/
def State.bind (s : State) (core team : Nat) (b : Option Binding) : State :=
  (s.modCore core fun c => ({ c with binding := b, rule := [] } : Core).unblock).modTeam core team fun t =>
    { t with status := { t.status with fcode := 0, cause := 0, mode := 3, faulted := false } }

/-- `GRBIND`: it waits at issue for another team's binding, for the evaluator's earlier operations (R244), and for room among the locks that
it holds until its record and its descriptor are read (R231, R250, R353). -/
def execGrbind (f : FEng) (s : State) : Res :=
  issueWide s (.grbind f) fun x s =>
    let team := x.grp.team
    let a := (x.uni32 f.a).toNat
    let c := s.core x.core
    let holder := c.binding.map (·.team)
    let begin_ := fun (t : State) (p : Option (Nat × Word64)) (l : List Claim) =>
      let (id, t) := t.take
      let t := x.start t { x.op id (.grbind a) with poison := p } .zero 1 false
      (t.modCore x.core fun k => k.claim id x.slot x.grp.ctx l).consume x.core id
    if a = 0 then
      if holder ≠ some team then (x.evalStop s (bindTrap 1) 3, false)
      else if !c.evalIdle then (s, false)
      else (begin_ (s.bind x.core team none) none [], true)
    else
      match s.readBinding x a with
      | .stop e => (x.evalStop s e 3, false)
      | .wait => (s, false)
      | .ok t b p =>
        if (holder.isSome && holder != some team) || !c.lockRoom 2 then (x.block s, false)
        else if !c.evalIdle then (s, false)
        else (begin_ (if p.isSome then t else t.bind x.core team (some b)) p (bindClaims x.core team a b.desc), true)

/-! ### `GREVAL` at issue (R245, R248, R250, R365) -/

/-- A local range that an operation names: address, length, and whether it is written. -/
abbrev EvalRange := Nat × Nat × Bool

/-- The ranges of a `GREVAL` (R250), the spill entries of rules below BASE among them; an operation with n = 0 has none. -/
def Binding.ranges (b : Binding) (rows skip spill : Bool) (lo n : Nat) : List EvalRange :=
  let whole := fun (stride len : Nat) => (b.v - 1) * stride + len
  if n = 0 then []
  else
    (b.x, whole b.xstride (4 * b.ncols), false)
      :: (match b.spill with
          | some a => if min b.base b.nrules = 0 then [] else [(a, 8 * b.v * min b.base b.nrules, false)]
          | none => [])
      ++ if rows then
          (b.y + 4 * lo, whole b.ystride (4 * n), true) :: if skip then [(b.e + 4 * lo, whole b.ystride (4 * n), true)] else []
        else
          match b.spill with
          | some a => if spill then [(a + 8 * b.v * lo, 8 * b.v * n, true)] else []
          | none => []

/-- The places of some ranges, or the trap: code 0x43 first, then 0x39 (R248). -/
def State.evalPlaces (s : State) (x : Gang) (l : List EvalRange) : List (Except Stop (Place × EvalRange)) :=
  l.map fun r =>
    match s.evalPlace x r.1 r.2.1 with
    | .ok p => .ok (p, r)
    | .error e => .error e

/-- The first trap of a code among some places. -/
def firstStop (code : Nat) (l : List (Except Stop (Place × EvalRange))) : Option Stop :=
  l.findSome? fun r =>
    match r with
    | .error e => if e.1 = code then some e else none
    | .ok _ => none

/-- The places found. -/
def placesOf (l : List (Except Stop (Place × EvalRange))) : List (Place × EvalRange) :=
  l.filterMap fun r =>
    match r with
    | .ok p => some p
    | .error _ => none

/-- The sealed-write trap of a written range (R224). -/
def State.evalSealed (s : State) (l : List (Place × EvalRange)) : Option Stop :=
  (l.find? fun p => p.2.2.2 && s.sealed p.1 p.2.2.1).map fun p => (0x34, BitVec.ofNat 64 p.2.1, [])

/-- The read locks of a grammar's tables (R250). -/
def Binding.tables (b : Binding) : List Claim :=
  ([(b.desc, 64), (b.rules, 8 * b.nrules), (b.rows, 8 * b.nrows), (b.syms, 4 * b.nsyms)].filter fun r => r.2 != 0).map fun r =>
    globClaim r.1 r.2 false

/-- Put an evaluator operation in flight, where the lock table and its tag have room (R231, R350). -/
def State.issueEval (s : State) (x : Gang) (kind : OpKind) (tag : Option (Fin 64)) (claims : List Claim) : State × Bool :=
  let c := s.core x.core
  if !c.lockRoom claims.length || !c.tagRoom x.grp.team tag then (x.block s, false)
  else
    let (id, s) := s.take
    let s := x.start s { x.op id kind with tag := tag.map (·.val) } .zero 1 false
    let s := s.modCore x.core fun k => k.claim id x.slot x.grp.ctx claims
    (s.modTeam x.core x.grp.team fun t => t.clearTag tag, true)

/-- A `GREVAL` completes: the status (R251), and the tag (R235). -/
def State.endGreval (s : State) (core team id mode next : Nat) : State :=
  (s.modTeam core team fun t =>
    { t with status := { prog := next % 2 ^ 24, fcode := 0, cause := 0, mode := mode, faulted := false } }).finishEngine core id

/-- `GREVAL`; with n = 0 it completes at issue (R249). -/
def execGreval (f : FEng) (s : State) : Res :=
  issueWide s (.greval f) fun x s =>
    let team := x.grp.team
    let mode := if f.rows then 2 else 1
    match (s.core x.core).binding.filter fun b => b.team == team with
    | none => (x.evalStop s (bindTrap 1) mode, false)
    | some b =>
      let lo := (x.uni32 f.a).toNat
      let n := (x.uni32 f.b).toNat
      let places := s.evalPlaces x (b.ranges f.rows f.skip f.spill lo n)
      let window : Option Stop :=
        if (!f.rows && (decide (lo < b.base) || decide (b.base + b.cap < lo + n))) || (f.spill && (f.rows || b.spill.isNone)) then
          some (bindTrap 4)
        else none
      let tooFar : Option Stop := if (if f.rows then b.nrows else b.nrules) < lo + n then some (0x42, 0, [6]) else none
      match firstStop 0x43 places <|> window <|> tooFar <|> firstStop 0x39 places <|> s.evalSealed (placesOf places) with
      | some e => (x.evalStop s e mode, false)
      | none =>
        let claims := (placesOf places).map fun p => p.1.claim p.2.2.1 p.2.2.2
        let (s', ok) := s.issueEval x (.greval f.rows f.skip f.spill lo n) f.tag (if n = 0 then [] else claims ++ b.tables)
        (if ok && n == 0 then s'.endGreval x.core team s.fresh mode lo else s', ok)

/-! ### Evaluation (R245, R246, R249) -/

def f32v (x : Nat) : FVal := decodeF .f32 x
def addUp (a : Nat) (v : FVal) : Nat := roundTo .f32 .ru (exactSum .ru [f32v a, v])
def addNear (a : Nat) (v : FVal) : Nat := roundTo .f32 .rn (exactSum .rn [v, f32v a])

/-- |w| of an exact value. -/
def FVal.abs : FVal → FVal
  | .fin _ m e => .fin false m e
  | .inf _ => .inf false
  | v => v

/-- The address of input element (v, c), of an output, a bound and a spill entry, in the team's local memory. -/
def Binding.xAt (b : Binding) (v c : Nat) : Nat := b.x % 2 ^ 21 + v * b.xstride + 4 * c
def Binding.yAt (b : Binding) (v i : Nat) : Nat := b.y % 2 ^ 21 + v * b.ystride + 4 * i
def Binding.eAt (b : Binding) (v i : Nat) : Nat := b.e % 2 ^ 21 + v * b.ystride + 4 * i
def Binding.spillAt (b : Binding) (v j : Nat) : Nat := b.spill.getD 0 % 2 ^ 21 + 8 * (b.v * j + v)

/-- 32-column blocks of an input vector. -/
def Binding.blocks (b : Binding) : Nat := (b.ncols + 31) / 32

/-- The skip predictor (R246): for each vector and block, 1 where every magnitude of the block lies below τ. -/
def Fetching.predict (a : Fetching) (core : Nat) (o : Op) (b : Binding) : Fetching × List Word32 :=
  let tau := b.tau.toNat
  if tau = 0 ∨ 0x7F800000 < tau then (a, [])
  else
    (List.range (b.v * b.blocks)).foldl (fun (acc : Fetching × List Word32) k =>
      let v := k / b.blocks
      let c0 := 32 * (k % b.blocks)
      let (a, ok) := (List.range (min 32 (b.ncols - c0))).foldl (fun (acc : Fetching × Bool) j =>
        let (a, x) := acc.1.word core o (b.xAt v (c0 + j))
        (a, acc.2 && decide (x % 2 ^ 31 < tau))) (acc.1, true)
      (a, acc.2 ++ [if ok then 1 else 0])) (a, [])

/-- A chain of EvalSeq: acc, m, kept. -/
structure Chain where
  acc : Nat
  mass : Nat
  kept : Bool

/-- START, LEN and the low 16 bits of a table entry (R239, R240). -/
def entryParts (w : Nat) : Nat × Nat × Nat := (w / 2 ^ 32, w / 2 ^ 16 % 2 ^ 16, w % 2 ^ 16)

/-- RuleValue of R245 for one vector: the value and the mass. -/
def Fetching.ruleValue (a : Fetching) (core : Nat) (o : Op) (b : Binding) (rule : SMap RuleEntry) (rows : Bool)
    (v j r dep sym : Nat) : Fetching × Nat × Nat :=
  let w := fun cause => [cause, r, sym, j]
  if b.nrules ≤ j then (a.fail 0x42 0 (w 3), 0, 0)
  else if !rows && decide (r ≤ j) then (a.fail 0x40 0 (w 1), 0, 0)
  else
    let (a, d, val, mass) : Fetching × Nat × Nat × Nat :=
      if j < b.base then
        if b.spill.isNone then (a.fail 0x40 0 (w 5), 0, 0, 0)
        else
          let (a, e) := a.table core o (b.rules + BitVec.ofNat 64 (8 * j)) 8 [r, sym, j]
          let (a, x) := a.word core o (b.spillAt v j)
          let (a, m) := a.word core o (b.spillAt v j + 4)
          (a, e % 64, x, m)
      else if j < b.base + b.cap then
        match (get? rule (b.v * (j - b.base) + v)).filter (·.valid) with
        | some e => (a, e.depth, e.value.toNat, e.mass.toNat)
        | none => (a.fail 0x40 0 (w 2), 0, 0, 0)
      else (a.fail 0x40 0 (w 3), 0, 0, 0)
    if !rows && decide (dep ≤ d) then (a.fail 0x41 0 (w 2), 0, 0) else (a, val, mass)

/-- One symbol of a sequence, for every vector (R245, R248). -/
def Fetching.symbol (a : Fetching) (core : Nat) (o : Op) (b : Binding) (rule : SMap RuleEntry) (rows skip : Bool) (r dep sym : Nat)
    (l : List Chain) : Fetching × List Chain :=
  let (a, y) := a.table core o (b.syms + BitVec.ofNat 64 (4 * sym)) 4 [r, sym, 0]
  if a.wait || a.stop.isSome then (a, l)
  else if y < 2 ^ 31 then
    let c := y / 2 ^ 16
    let val := y % 2 ^ 16
    let wt := if b.etype = .vt8 then decodeVt8 (val % 256) else decodeF .f16 val
    if b.ncols ≤ c then (a.fail 0x42 0 [2, r, sym, 0], l)
    else if b.etype = .vt8 ∧ 256 ≤ val then (a.fail 0x42 0 [4, r, sym, 0], l)
    else
      ((List.range b.v).zip l).foldl (fun (acc : Fetching × List Chain) p =>
        if skip && o.held.getD (p.1 * b.blocks + c / 32) 0 == 1 then
          (acc.1, acc.2 ++ [{ p.2 with mass := addUp p.2.mass wt.abs }])
        else
          let (a, x) := acc.1.word core o (b.xAt p.1 c)
          (a, acc.2 ++ [{ p.2 with acc := addNear p.2.acc (wt.mul (f32v x)), kept := true }])) (a, [])
  else
    let j := y % 2 ^ 24
    if y / 2 ^ 24 % 128 ≠ 0 then (a.fail 0x42 0 [3, r, sym, j], l)
    else
      ((List.range b.v).zip l).foldl (fun (acc : Fetching × List Chain) p =>
        let (a, val, m) := acc.1.ruleValue core o b rule rows p.1 j r dep sym
        (a, acc.2 ++ [{ acc := addNear p.2.acc (f32v val), mass := addUp p.2.mass (f32v m), kept := true }])) (a, [])

/-- EvalSeq of R245 up to the writing of its results: the chains and the entry's depth. -/
def Fetching.evalSeq (a : Fetching) (core : Nat) (o : Op) (b : Binding) (rule : SMap RuleEntry) (rows skip : Bool) (r : Nat) :
    Fetching × List Chain × Nat :=
  let (a, e) := a.table core o ((if rows then b.rows else b.rules) + BitVec.ofNat 64 (8 * r)) 8 [r, 0, 0]
  let (start, len, low) := entryParts e
  let w := fun cause => [cause, r, 0, 0]
  let a :=
    if a.wait || a.stop.isSome then a
    else if !rows && (low % 64 == 0 || decide (32 < low % 64)) then a.fail 0x41 0 (w 1)
    else if !rows && (len == 0 || decide (4096 < len)) then a.fail 0x42 0 (w 1)
    else if (if rows then low else low / 64) ≠ 0 ∨ b.nsyms < start + len then a.fail 0x42 0 (w 4)
    else a
  let init := (List.range b.v).map fun _ => ({ acc := 2 ^ 31, mass := 0, kept := false } : Chain)
  let (a, l) := if a.wait || a.stop.isSome then (a, init)
    else (List.range len).foldl (fun (acc : Fetching × List Chain) k =>
      if acc.1.wait || acc.1.stop.isSome then acc else acc.1.symbol core o b rule rows skip r (low % 64) (start + k) acc.2) (a, init)
  (a, l.map fun c => if c.kept then c else { c with acc := 0 }, low % 64)

/-- The words of a local range, and poison overwritten with good bytes leaves it (R410). -/
def State.putWord (s : State) (core team off x : Nat) : State :=
  s.storeLocal { core := core, team := team, off := off } 4 fun i => (leBytes 4 x).getD i 0

/-- The results of index r, for every vector (R245). -/
def State.putEval (s : State) (core team : Nat) (b : Binding) (rows skip spill : Bool) (r dep : Nat) (l : List Chain) : State :=
  ((List.range b.v).zip l).foldl (fun (s : State) p =>
    let c := p.2
    if rows then
      let s := s.putWord core team (b.yAt p.1 r) c.acc
      if skip then s.putWord core team (b.eAt p.1 r) (roundTo .f32 .ru ((f32v b.tau.toNat).mul (f32v c.mass))) else s
    else
      let s := s.modCore core fun k =>
        { k with rule := put k.rule (b.v * (r - b.base) + p.1)
                   { value := BitVec.ofNat 32 c.acc, valid := true, depth := dep, mass := BitVec.ofNat 32 c.mass } }
      if spill then (s.putWord core team (b.spillAt p.1 r) c.acc).putWord core team (b.spillAt p.1 r + 4) c.mass else s) s

/-- An evaluator operation ends with a trap: the status is noted, nothing of its index is written, its tag is not set (R249, R251). -/
def State.endEval (s : State) (core : Nat) (o : Op) (mode r : Nat) (e : Stop) : State :=
  let s := s.noteEval core o.team e.1 ((e.2.2.headD 0).toNat % 16) mode
  (s.modTeam core o.team fun t => { t with status := { t.status with prog := r } }).failOp core o.id e.1 e.2.1 e.2.2

/-- The next index of a `GREVAL`, or its end: one index for each step. -/
def State.stepEval (s : State) (core : Nat) (o : Op) (b : Binding) (rows skip spill : Bool) (lo n : Nat) : State :=
  let mode := if rows then 2 else 1
  if n ≤ o.done then s.endGreval core o.team o.id mode (lo + n)
  else
    let r := lo + o.done
    let (a, l, dep) := (Fetching.begin s).evalSeq core o b (s.core core).rule rows skip r
    match a.stop with
    | some e => a.s.endEval core o mode r e
    | none =>
      if a.wait then a.s
      else
        match o.poison <|> a.poison with
        | some p => a.s.endEval core o mode r (0x70, 0, [BitVec.ofNat 64 p.1, p.2])
        | none =>
          (a.s.putEval core o.team b rows skip spill r dep l).modCore core fun c => c.modOp o.id fun o => { o with done := o.done + 1 }

/-- An evaluator operation starts: it is the evaluator's next, and no earlier lock holds it back.  The predictor is computed (R246). -/
def State.startEval (s : State) (core id : Nat) : State :=
  match (s.core core).op? id with
  | none => s
  | some o =>
    if o.started || !o.kind.evaluator || !(s.core core).evalFirst id || (s.core core).engineBlocked id then s
    else
      match o.kind, (s.core core).binding with
      | .greval _ true _ _ _, some b =>
        let (a, l) := (Fetching.begin s).predict core o b
        if a.wait then a.s
        else a.s.modCore core fun c => c.modOp id fun o => { o with started := true, held := l, poison := a.poison }
      | _, _ => s.modCore core fun c => c.modOp id fun o => { o with started := true }

/-- `NZSCAN` at work (R252). -/
def State.scanNow (s : State) (core : Nat) (o : Op) (src dst n : Nat) : State :=
  let p : Place := { core := core, team := o.team, off := src }
  match s.readyLocal p (4 * n) (.operationComplete core o.id) with
  | (t, false) => t
  | (t, true) =>
    match t.localPoison p (4 * n) with
    | some g => t.failOp core o.id 0x70 0 [2, BitVec.ofNat 64 g]
    | none =>
      let b := t.localBytes p (4 * n)
      let idx := (List.range n).filter fun i => leNat ((b.drop (4 * i)).take 4) % 2 ^ 31 != 0
      let out := leBytes 4 idx.length ++ idx.flatMap (leBytes 2)
      (t.storeLocal { p with off := dst } out.length fun i => out.getD i 0).finishEngine core o.id

/-- An evaluator operation goes on: at its completion point its operands are consumed too (R250). -/
def State.completeEval (s : State) (core id : Nat) : State :=
  match (s.core core).op? id with
  | none => s
  | some o =>
    if !o.started then s
    else
      match o.kind, (s.core core).binding with
      | .greval rows skip spill lo n, some b => s.stepEval core o b rows skip spill lo n
      | .greval _ _ _ _ _, none => s.finishEngine core id
      | .nzscan src dst n, _ => s.scanNow core o src dst n
      | _, _ => s

/-! ### `GRSTAT` and `NZSCAN` (R251, R252, R366, R367) -/

/-- The status word (R251). -/
def State.evalStatus (s : State) (core team : Nat) : Word64 :=
  match s.team? core team with
  | none => 0
  | some t =>
    let c := s.core core
    let own := (c.binding.map (·.team)) == some team
    let busy := c.ops.any fun o => o.kind.evaluator && o.started && o.team != team
    let st := if t.status.faulted then 3 else if busy then 2 else if own then 1 else 0
    BitVec.ofNat 64 (t.status.prog % 2 ^ 24 * 2 ^ 40 + t.status.fcode % 256 * 2 ^ 32 + t.status.cause % 16 * 2 ^ 28
      + (if own then 16 else 0) + t.status.mode % 4 * 4 + st)

/-- `GRSTAT`: the word is read at its completion point, after the wait of R251. -/
def execGrstat (f : FEng) (s : State) : Res :=
  issueWide s (.grstat f) fun x s =>
    let (id, s) := s.take
    ((x.start s (x.op id .grstat) f.a 2 false).consume x.core id, true)

/-- The group's earlier evaluator operations are complete (R251). -/
def Core.statReady (c : Core) (o : Op) : Bool :=
  c.ops.all fun p => !(p.slot == o.slot && decide (p.id < o.id) && (p.kind.evaluator || match p.kind with
    | .grbind _ => true
    | _ => false))

/-- `NZSCAN`. -/
def execNzscan (f : FEng) (s : State) : Res :=
  issueWide s (.nzscan f) fun x s =>
    let n := (x.uni32 f.c).toNat
    let src := (x.uni32 f.a).toNat
    let dst := (x.uni32 f.b).toNat
    let places := s.evalPlaces x [(src, 4 * n, false), (dst, 4 + 2 * n, true)]
    let count : Option Stop := if n = 0 ∨ 32768 < n then some (bindTrap 3) else none
    let align : Option Stop :=
      if src % 4 ≠ 0 then some (0x32, BitVec.ofNat 64 src, []) else if dst % 4 ≠ 0 then some (0x32, BitVec.ofNat 64 dst, []) else none
    match count <|> firstStop 0x43 places <|> firstStop 0x39 places <|> align <|> s.evalSealed (placesOf places) with
    | some e => (x.stop s e, false)
    | none =>
      s.issueEval x (.nzscan (src % 2 ^ 21) (dst % 2 ^ 21) n) f.tag ((placesOf places).map fun p => p.1.claim p.2.2.1 p.2.2.2)

/-! ### The end of a lock wait (R233) -/

/-- An engine operation whose lock wait is over proceeds: a copy, the matrix engine's next, or the evaluator's next. -/
def execEngineLockWaitEnd (core op : Nat) (s : State) : Res :=
  match (s.core core).op? op with
  | none => .next s
  | some o =>
    match o.kind with
    | .copy _ => .next (s.startEngine core op)
    | k => .next (if k.matrix then s.startMatrix core op else s.startEval core op)

end Sys2Proof.Machine
end

