-- ==== Sys2Proof/Machine/Debug.lean ====
section
/-! DEFINITION. Precise stops and their dump (R415–R417). -/

namespace Sys2Proof.Machine

/-- A group stops for a precise stop; one of the context that no trap of its own has stopped takes the stop's code and n as its
trap. -/
def Group.freeze (g : Group) (ctx code n : Nat) (pc : Word64) : Group :=
  if g.halt ≠ .none ∨ g.gst = .exited then g
  else
    let g' := g.preempt (.stopped false)
    if g.ctx = ctx ∧ g'.hold = .none then { g' with trap := { code := code, addr := 0, pc := pc, words := [BitVec.ofNat 64 n] } } else g'

/-- A copy stops at its progress pointer. -/
def Op.stopCopy (o : Op) : Op := { o with kind := o.kind.modCopy fun y => { y with stopped := true } }

/-- A precise stop of a core for a context (R415), which the `HALT` of a group may make. -/
def State.freeze (s : State) (core ctx code n : Nat) (halter : Option (Nat × Word64)) : State :=
  let pcOf := fun (g : Nat × Group) => ((halter.filter fun h => h.1 == g.1).map (·.2)).getD (g.2.thread (lowLane g.2.liveMask)).pc
  s.modCore core fun c =>
    { c with groups := c.groups.map fun g => (g.1, g.2.freeze ctx code n (pcOf g))
             ops := c.ops.map fun o => if o.ctx == ctx then o.stopCopy else o
             stop := some { ctx := ctx, halter := halter, code := code, n := n, time := s.ns, dumped := false } }

/-- The dump may be written: the matrix and evaluator operations of the context have ended, and stores already sent are
performed. -/
def Core.dumpReady (c : Core) (ctx : Nat) : Bool :=
  c.ops.all (fun o => !(o.ctx == ctx && (o.kind.matrix || o.kind.evaluator))) &&
  c.groups.all fun g => !(g.2.ctx == ctx) || g.2.stores.all fun r => r.gwct == 0 || r.todo == 0

/-- The specifier of a register that an operation writes (R78). -/
def RReg.code : RReg → Nat
  | .v n => n
  | .q n => 0x100 + n
  | .l n => 0x108 + n

/-- A pending-write entry (R416). -/
def writeEntry (slot : Nat) (pc : Word64) (m : Mask) (code : Nat) : List Byte :=
  leBytes 8 m.toNat ++ leBytes 8 pc.toNat ++ leBytes 8 (slot * 2 ^ 59 + code * 2 ^ 49)

/-- The pending writes of a context on a core. -/
def Core.pendingWrites (c : Core) (ctx : Nat) : List (List Byte) :=
  (c.ops.filter fun o => o.ctx == ctx).flatMap fun o =>
    (o.writes.filter fun w => w.lanes != 0).map (fun w => writeEntry o.slot o.pc w.lanes w.reg.code)
      ++ (o.gdst.map fun d => writeEntry o.slot o.pc o.lanes (0x200 + d.1)).toList

/-- Log2 of a width in bytes. -/
def logWidth (n : Nat) : Nat := Nat.log2 n

/-- A pending-store entry (R416); `gwct` is 0 while the store is buffered. -/
def storeEntry (slot : Nat) (r : StoreReq) : List Byte :=
  leBytes 8 r.va.toNat ++ leBytes 8 r.gwct
    ++ leBytes 8 (slot * 2 ^ 59 + r.lane % 64 * 2 ^ 53 + logWidth r.width * 2 ^ 48
        + (if r.tag.isSome then 0 else (2 ^ r.width - 1) % 2 ^ 16) * 2 ^ 32)
    ++ leBytes 16 r.data.toNat ++ leBytes 8 r.dpa

/-- The stores of a context on a core that are not yet visible at device scope, those among them that an eligible team holds (R146). -/
def Core.pendingStores (c : Core) (now ctx : Nat) : List (List Byte) :=
  ((c.groups.filter fun g => g.2.ctx == ctx).flatMap fun g =>
    ((g.2.acked.filter fun r => decide (now < r.gwct)) ++ g.2.stores).map (storeEntry g.1))
    ++ (c.teams.filter fun t => t.2.ctx == ctx).flatMap fun t => t.2.uncommitted.map fun r => storeEntry r.slot r

/-- A barrier object as 64 bytes (R165). -/
def Barrier.record (x : Barrier) : List Byte :=
  let bit := fun (b : Bool) (i : Nat) => if b then 2 ^ i else 0
  leBytes 8 ((x.bytes % 2 ^ 32).toNat * 2 ^ 32 + x.pend % 256 * 2 ^ 16 + x.count % 256 * 2 ^ 8 + bit x.posted 4 + bit x.bm 3 + bit x.cl 2
      + bit x.phase 1 + bit x.init 0)
    ++ leBytes 24 x.arrived.toNat ++ leBytes 24 x.early.toNat ++ zeros 8

/-- The object that a record holds. -/
def Barrier.ofRecord (w : Nat) (arrived early : Nat) : Barrier :=
  { bytes := (BitVec.ofNat 32 (w / 2 ^ 32)).toInt, pend := w / 2 ^ 16 % 256, count := w / 2 ^ 8 % 256, posted := w.testBit 4,
    bm := w.testBit 3, cl := w.testBit 2, phase := w.testBit 1, init := w.testBit 0, arrived := BitVec.ofNat 192 arrived,
    early := BitVec.ofNat 192 early }

/-- Bytes of a tile, rows in order. -/
def Tile.bytes (t : Tile) : List Byte := (List.range 4096).flatMap fun i => leBytes 4 (t.words.getD i 0).toNat

/-- A team record, 4,096 + local bytes + 16,384 × tiles (R124): the 64 barrier objects in their layout of R165, local memory, and the
tiles in ascending order (the order of the parts: log 11). -/
def Team.record (t : Team) : List Byte :=
  ((List.range 64).flatMap fun i => ((get? t.bars i).getD Barrier.blank).record)
    ++ ((List.range t.localBytes).map t.byte) ++ t.tiles.flatMap fun q => q.2.bytes

/-- The dump of a stopped core (R416), cut off at the size of the dump area. -/
def State.dump (s : State) (core : Nat) (z : Frozen) (size : Nat) : List Byte :=
  let c := s.core core
  let gs := c.groups.filter fun g => g.2.ctx == z.ctx && g.2.halt == .stopped false && g.2.gst != .exited
  let ws := c.pendingWrites z.ctx
  let ss := c.pendingStores s.ns z.ctx
  let body := gs.flatMap (fun g => g.2.record core g.1)
    ++ (c.teams.filter fun t => t.2.ctx == z.ctx).flatMap (fun t => t.2.record) ++ ws.flatten ++ ss.flatten
  let ovf := if size < 64 + body.length then 256 else 0
  (leBytes 8 z.time
    ++ leBytes 8 (z.ctx * 2 ^ 54 + core * 2 ^ 46 + gs.length * 2 ^ 40 + ws.length % 2 ^ 16 * 2 ^ 24 + ss.length % 2 ^ 24)
    ++ leBytes 8 (z.n * 2 ^ 32 + ovf + z.code) ++ zeros 40 ++ body).take size

/-- Write the dump of a stopped core once it is quiet. -/
def State.writeDump (s : State) (core : Nat) : State :=
  match (s.core core).stop with
  | some z =>
    if z.dumped || !(s.core core).dumpReady z.ctx then s
    else
      let t := s.rawWrite (s.ctx z.ctx).dumpBase (s.dump core z (s.ctx z.ctx).dumpSize)
      (t.modCore core fun c => { c with stop := some { z with dumped := true } }).afterStore s
  | none => s

end Sys2Proof.Machine
end

