-- ==== Sys2Proof/Machine/SystemReg.lean ====
section
/-! DEFINITION. The system instructions, opcodes 0xF0–0xFB: `LAUNCH`, `SNAP`, `EDSTAT`, `SREAD`, `SWRITE`, `CLOCK`, `STAMP`,
`REGQ`, `SIGNAL` and `HALT` (R157, R158, R255, R267, R368–R379). -/

namespace Sys2Proof.Machine

/-! ### The system registers (R372) -/

/-- `CYCLES` (R374): clocks while the core is powered. -/
def State.cycles (s : State) (core : Nat) : Nat :=
  let c := s.core core
  ((if c.power = .gated then c.powerSince else s.ticks) - c.gatedTicks) / 10

/-- LIMIT of R154. -/
def Core.limit (c : Core) : Nat := max 1 (8 - c.score / 16)

/-- Groups in the active set. -/
def Core.nactive (c : Core) : Nat := c.groups.countP fun g => g.2.gst == .active

/-- `CTX.MODE` and `CTX.BUDGET` (R118). -/
def Ctx.modeWord (c : Ctx) : Nat := c.lease * 16 + (if c.check then 1 else 0)
def Ctx.budgetWord (c : Ctx) : Nat := c.regw * 2 ^ 32 + c.localU * 2 ^ 16 + c.tilesMax

/-- Registers of device or core scope, which harts may read too (R392). -/
def State.coreReg (s : State) (core off : Nat) : Option Word64 :=
  let c := s.core core
  match off with
  | 0x040 => some (BitVec.ofNat 64 s.ns)
  | 0x048 => some (BitVec.ofNat 64 (s.cycles core))
  | 0x1A0 => some (BitVec.ofNat 64 (c.score * 2 ^ 24 + c.limit * 2 ^ 16 + c.nactive))
  | 0x200 => some c.lanemap
  | _ => none

/-- A register of keeper k's own system-register block: `TIME`, read only, is the one that R16 gives it.  The spec gives that block no address
(R372 and R392 lay out the cores' blocks), so no row reads it (log 18). -/
def State.keeperReg (s : State) (k off : Nat) : Option Word64 := if k < 16 ∧ off = 0x040 then some (BitVec.ofNat 64 s.ns) else none

/-- Offsets of registers of team or group scope. -/
def teamOffsets : List Nat := [0x100, 0x108, 0x110, 0x180, 0x188, 0x1C0, 0x240, 0x248]

/-- `SREAD` of an offset by a group (R373); none for an offset that names no register. -/
def State.readReg (s : State) (x : Gang) (off : Nat) : Option Word64 :=
  let t := s.teamOf x
  let c := s.ctx x.grp.ctx
  match s.coreReg x.core off with
  | some v => some v
  | none =>
    match off with
    | 0x100 => some (BitVec.ofNat 64 x.grp.ctx)
    | 0x108 => some (BitVec.ofNat 64 c.modeWord)
    | 0x110 => some (BitVec.ofNat 64 c.budgetWord)
    | 0x180 => some t.pos
    | 0x188 => some (BitVec.ofNat 64
        (x.core * 2 ^ 16 + t.cly * 2 ^ 12 + t.clx * 2 ^ 8 + (t.ngroups - 1) * 2 ^ 4 + x.grp.idx))
    | 0x1C0 => some t.ready
    | 0x240 => some t.stampBase
    | 0x248 => some t.stampCtl
    | _ => none

/-- The system-register trap (R368). -/
def sysTrap (cause : Nat) : Stop := (0x52, 0, [BitVec.ofNat 64 cause])

/-- The reserved bits of a writable register (R376); none for a read-only one. -/
def reservedOf (off : Nat) : Option Word64 :=
  match off with
  | 0x240 => some 0x1F#64
  | 0x248 => some 0x00000000FFFFFF0E#64
  | _ => none

/-- The offset of a register's operand in a form with a register, and in one with an immediate. -/
def sread (i : Instr) (guard : Guard) (d : Spec) (off : Gang → Nat) (s : State) : Res :=
  issueWith s i guard fun x s =>
    if x.m = 0 then (s, true)
    else
      match s.readReg x (off x) with
      | none => (x.stop s (sysTrap 1), false)
      | some v => (s.giveAll x d 2 (v.setWidth 128), true)

def execSreadA (f : FSub) (s : State) : Res := sread (.sreadA f) f.guard f.d (fun x => (x.uni32 f.a).toNat) s
def execSreadS (f : FS) (s : State) : Res := sread (.sreadS f) f.guard f.d (fun _ => f.imm.toNat) s

/-- `SWRITE` (R373): written at issue. -/
def swrite (i : Instr) (guard : Guard) (off : Gang → Nat) (value : Gang → Word64) (s : State) : Res :=
  issueWith s i guard fun x s =>
    if x.m = 0 then (s, true)
    else
      match s.readReg x (off x), reservedOf (off x) with
      | none, _ => (x.stop s (sysTrap 1), false)
      | some _, none => (x.stop s (sysTrap 2), false)
      | some _, some bad =>
        if value x &&& bad ≠ 0 then (x.stop s (sysTrap 3), false)
        else
          let v := value x
          let s := s.modTeam x.core x.grp.team fun t =>
            if off x = 0x240 then { t with stampBase := v } else { t with stampCtl := v }
          let (id, s) := s.take
          ((x.start s (x.op id .simple) .zero 1 false).consume x.core id, true)

def execSwriteA (f : FSub) (s : State) : Res := swrite (.swriteA f) f.guard (fun x => (x.uni32 f.a).toNat) (fun x => x.uni64 f.b) s
def execSwriteS (f : FS) (s : State) : Res := swrite (.swriteS f) f.guard (fun _ => f.imm.toNat) (fun x => x.uni64 f.a) s

/-- `CLOCK` (R375): the value is taken at issue, which keeps R15 between clocks of one gang. -/
def execClock (f : FS) (s : State) : Res :=
  issueWith s (.clock f) f.guard fun x s =>
    if x.m = 0 then (s, true)
    else (s.giveAll x f.d 2 (BitVec.ofNat 128 (if f.mode = 0 then s.ns else s.cycles x.core)), true)

/-! ### `STAMP` (R376, R377) -/

def execStamp (f : FS) (s : State) : Res :=
  issueWith s (.stamp f) f.guard fun x s =>
    if x.m = 0 then (s, true)
    else
      let t := s.teamOf x
      let v := x.uni64 f.a
      let begin_ := fun (s : State) =>
        let (id, s) := s.take
        (x.start s (x.op id .simple) .zero 1 false).consume x.core id
      if f.mode = 0 then
        if !t.stampCtl.getLsbD 0 then (begin_ s, true)
        else
          match s.spots x.core x.grp.ctx .store [(lowLane x.m, t.stampAt)] with
          | .error e => (x.stop s e, false)
          | .ok (u, l) =>
            match pageStop u l true with
            | some e => (x.stop s e, false)
            | none =>
              let (id, u) := u.take
              let u := (x.start u (x.op id (.writeBack 16 false)) .zero 1 false).consume x.core id
              let bad := l.findSome? fun p => u.homeBadTag p.va p.dpa 32
              (match bad with
                | some g => x.trap u 0x30 t.stampAt [g.setWidth 64]
                | none => l.foldl (fun (u : State) p =>
                    u.stampStore x.core x.slot x.grp.team id p.va p.dpa 1 0 f.imm.toNat (leBytes 8 v.toNat ++ zeros 8)) u, true)
      else if !t.owns (v.toNat % 32) then (x.stop s (tileTrap 1), false)
      else if v.toNat / 32 ≠ 0 then (x.stop s (tileTrap 2), false)
      else (begin_ (s.modTile x.core x.grp.team (v.toNat % 32) fun q => { q with ident := f.imm.toNat }), true)

/-! ### `REGQ` (R157, R158) -/

/-- The group's threads' registers from n upward are discarded, and what was still to be written there. -/
def Core.cutQuota (c : Core) (slot n : Nat) : Core :=
  let c : Core := { c with ops := c.ops.map fun (o : Op) =>
    if o.slot == slot then
      { o with writes := o.writes.filter fun (w : PWrite) => match w.reg with
          | .v k => decide (k < n)
          | _ => true }
    else o }
  c.modGroup slot fun g => { g with v := g.v.filter fun r => decide (r.1 < n), quota := n }

/-- The head of a team's quota queue is granted where the pool has the words (R157). -/
def State.grantQuota (s : State) (core team : Nat) : State :=
  match s.team? core team with
  | none => s
  | some t =>
    match t.queue with
    | [] => s
    | (slot, n, id) :: rest =>
      match s.group? core slot with
      | none => s.modTeam core team fun t => { t with queue := rest }
      | some g =>
        if t.free < n - g.quota then s
        else
          let s := s.modTeam core team fun t => { t with queue := rest, free := t.free - (n - g.quota) }
          s.modCore core fun c =>
            let c := (c.cutQuota slot g.quota).modGroup slot fun g => { g with quota := n }
            match c.op? id with
            | some o => (c.deliver o).finishOp id
            | none => c

def execRegqGrant (core team : Nat) (s : State) : Res := .next (s.grantQuota core team)

/-- R158: every live group of the team waits for words, and its first request cannot be granted. -/
def State.quotaCheck (s : State) (core team : Nat) : State :=
  match s.team? core team with
  | none => s
  | some t =>
    match t.queue with
    | [] => s
    | (slot, n, _) :: _ =>
      let mine := (s.core core).groups.filter fun g => g.2.team == team
      let q := ((s.group? core slot).map (·.quota)).getD 0
      if mine.all (fun g => t.queue.any fun r => r.1 == g.1) && decide (t.free < n - q) then
        let pc := ((s.group? core slot).map fun g => (g.thread (lowLane g.liveMask)).pc).getD 0
        let word := fun (r : Nat × Nat × Nat) =>
          BitVec.ofNat 64 (r.1 * 2 ^ 32 + r.2.1 * 2 ^ 16 + ((s.group? core r.1).map (·.quota)).getD 0)
        s.trap core slot 0x08 0 pc (BitVec.ofNat 64 t.free :: t.queue.map word)
      else s

/-- The result of `REGQ`: quota and free count as they stood at issue. -/
def quotaWord (quota free : Nat) : BitVec 128 := BitVec.ofNat 128 (quota + free * 2 ^ 16)

def execRegq (f : FS) (s : State) : Res :=
  issueWith s (.regq f) .always fun x s =>
    let n := f.imm.toNat
    let g := x.grp
    let t := s.teamOf x
    let dOk := match f.d with
      | .main k => f.mode != 0 || decide (k.val < min n g.quota)
      | _ => true
    if !dOk then (x.trap s 0x01 0 [s.cur.word], false)
    else if x.act ≠ g.liveMask then (x.trap s 0x06 0 [x.act], false)
    else
      let (id, s) := s.take
      let o : Op := { x.op id (.regq n) with res := (List.range 64).map fun _ => quotaWord g.quota t.free }
      let s := (x.start s o f.d 1 false).consume x.core id
      if f.mode = 1 ∧ g.quota < n then
        let s := s.modTeam x.core g.team fun t => { t with queue := t.queue ++ [(x.slot, n, id)] }
        ((s.stallGang x id).quotaCheck x.core g.team, true)
      else
        let s :=
          if f.mode = 0 ∧ n < g.quota then
            (s.modTeam x.core g.team fun t => { t with free := t.free + (g.quota - n) }).modCore x.core fun c => c.cutQuota x.slot n
          else s
        (s.modCore x.core fun c =>
          match c.op? id with
          | some o => (c.deliver o).finishOp id
          | none => c, true)

/-! ### `SNAP` and `EDSTAT` (R255, R267, R371) -/

/-- Sequence numbers go up to 2^32 − 1. -/
def State.edition? (s : State) (seq : Nat) : Option Edition := s.editions.find? fun e => e.seq == seq

def State.modEdition (s : State) (seq : Nat) (f : Edition → Edition) : State :=
  { s with editions := s.editions.map fun e => if e.seq == seq then f e else e }

/-- The state code of R254. -/
def EdState.code : EdState → Nat
  | .sealing => 2
  | .sealed => 3
  | .draining => 4
  | .drained => 5
  | .failed => 6

/-- The word of R267. -/
def State.edWord (s : State) (a : Nat) : Nat :=
  if a = 0 ∨ a = s.live then s.live * 2 ^ 32 + 1
  else
    match s.edition? a with
    | none => a * 2 ^ 32
    | some e =>
      let pend := min (2 ^ 24 - 1) (if e.st = .draining then e.pend.length else 0)
      e.seq * 2 ^ 32 + pend * 2 ^ 8 + (if e.lost then 2 ^ 7 else 0) + (if e.views.isEmpty then 0 else 2 ^ 6)
        + (if e.st = .failed then e.reason * 2 ^ 3 else 0) + e.st.code

/-- `SNAP`: its fence begins, and the gang stalls until it ends (R209, R255); the rest follows at the reference. -/
def execSnap (f : FS) (s : State) : Res :=
  issueWith s (.snap f) f.guard fun x s =>
    if x.m = 0 then (s, true)
    else if !(s.ctx x.grp.ctx).grant then (x.trap s 0x36 0 [], false)
    else
      match s.leaveIdem x true with
      | (t, false) => (t, false)
      | (t, true) =>
        let (t, ready) := t.bankSettle x
        if !ready || t.anyWindowLocked x.core x.grp.team then (t, false)
        else
          let (id, t) := t.take
          let t := (x.start t (x.op id (.snap 0 0 x.grp.gwct)) f.d 2 false).consume x.core id
          ((t.writeBackAll x.core x.slot x.grp.team id).stallGang x id, true)

/-- The request of a `SNAP` whose fence has ended is serialised at the reference (R255): refused, or an edition begins. -/
def execSnapRequestAtReference (core op : Nat) (s : State) : Res :=
  match (s.core core).op? op with
  | none => .next s
  | some o =>
    match o.kind with
    | .snap 0 _ target =>
      if !s.fenceDone core o false target then .next s
      else if 7 ≤ s.editions.length then
        .next (s.modCore core fun c => ((c.modOp op fun o => { o with kind := .snap 1 0 0 }).forget o.slot o.lanes).endStall o.slot op)
      else
        let t := max (s.ns + 500 + Config.snapDelay s.n) ((s.editions.map (·.t)).foldl (fun a b => max a (b + 1)) 0)
        let e : Edition := { seq := s.live, st := .sealing, t := t, reason := 0, lost := false, target := s.target, views := [], pages := [],
                             cut := [], pend := [], ended := [], written := [], acked := 0, used := 0, spill := [], chunkSince := none }
        .next ({ s with editions := s.editions ++ [e], live := s.live + 1 }.modCore core fun c =>
          ((c.modOp op fun o => { o with kind := .snap 1 t s.live,
                                         res := (List.range 64).map fun _ => BitVec.ofNat 128 t }).forget o.slot o.lanes).endStall o.slot op)
    | _ => .next s

/-- Every home has applied the cut of an edition. -/
def Edition.cutAll (e : Edition) : Bool := (List.range 4).all e.cut.contains

/-- A `SNAP` completes when it was refused, or every home has applied its cut. -/
def State.snapReady (s : State) (t seq : Nat) : Bool := t == 0 || ((s.edition? seq).map Edition.cutAll).getD true

def execEdstat (f : FS) (s : State) : Res :=
  issue s (.edstat f) f.guard fun x s =>
    if x.m = 0 then s
    else
      let (id, s) := s.take
      let asked := (lanesOf x.m).map fun j => (j, x.grp.src32 j f.a)
      (x.start s (x.op id (.edstat asked)) f.d 2 false).consume x.core id

/-- The results of an `EDSTAT`, read at its completion point. -/
def State.edResults (s : State) (asked : List (Nat × Word32)) : List (BitVec 128) :=
  (List.range 64).map fun j => ((asked.find? fun a => a.1 == j).map fun a => BitVec.ofNat 128 (s.edWord a.2.toNat)).getD 0

/-! ### `LAUNCH` (R128, R369) -/

/-- `LAUNCH` at issue: its checks, the stores of NEXT, and its fence begins, for which the gang stalls (R209, R369).  A thread whose store
of NEXT fails its tag check enqueues nothing (R200; log 14). -/
def execLaunch (f : FSub) (s : State) : Res :=
  issueWith s (.launch f) f.guard fun x s =>
    if x.m = 0 then (s, true)
    else
      let lanes := lanesOf x.m
      let rec_ := fun j => x.grp.src64 j false f.a
      let barge := fun j => x.grp.src64 j false f.b
      let all := lanes.flatMap fun j => [(j, rec_ j), (j, barge j)]
      match all.find? fun a => a.2.toNat % 128 != 0 with
      | some a => (x.stop s (0x32, a.2, []), false)
      | none =>
        match s.globalCheck x { n := 8, need := .store, host := false, link := false, access := true } all with
        | .error e => (x.stop s e, false)
        | .ok (t, spots) =>
          match t.leaveIdem x true with
          | (t, false) => (t, false)
          | (t, true) =>
            let (t, ready) := t.bankSettle x
            if !ready || t.anyWindowLocked x.core x.grp.team then (t, false)
            else
              let (id, t) := t.take
              let ends := lanes.filterMap fun j => spots.find? fun p => p.lane == j && p.va == barge j
              let nexts := ends.filter fun p => (t.badTag x false p).isNone
              let todo := (nexts.map (·.lane)).map fun j => (j, rec_ j, barge j)
              let (t, reqs) := nexts.foldl (fun (acc : State × List StoreReq) p =>
                let (k, t) := acc.1.take
                (t, acc.2 ++ [{ id := k, op := id, lane := p.lane, va := p.va, dpa := p.dpa, width := 8, data := 0, todo := fullBytes 8,
                                cls := .strong, scope := .system, tag := none, gwct := 0, stamps := [], firm := false }])) (t, [])
              let t := t.putStores x.core x.slot x.grp.team reqs
              let o : Op := x.op id (.launch todo 0 x.grp.gwct)
              let t := (x.start t o f.d 2 false).consume x.core id
              (((t.writeBackAll x.core x.slot x.grp.team id).stallGang x id).tagTrap x false ends, true)

/-- What one access of a `LAUNCH` comes to. -/
inductive LaunchStep
  | did (s : State) (old : Word64)
  | waits (s : State)
  /-- Its tag check fails: the thread's enqueue ends there (R200; log 14). -/
  | mistag (s : State)

/-- A store or a swap of a `LAUNCH` at its home: the old value; it waits, or traps where it no longer translates. -/
def State.launchAccess (s : State) (core : Nat) (o : Op) (va v : Word64) : LaunchStep :=
  match s.translate core o.ctx va .store with
  | .error c => .waits (s.trap core o.slot 0x10 va o.pc [BitVec.ofNat 64 c])
  | .ok (t, dpa) =>
    let who : Instr := .operationComplete core o.id
    if isHostDie dpa || isLink dpa then .waits (t.trap core o.slot 0x3B va o.pc [])
    else
      match t.homeBadTag va dpa 8 with
      | some tag => .mistag (t.trap core o.slot 0x30 va o.pc [tag.setWidth 64])
      | none =>
        match t.homeRead who dpa 8 with
        | (t, none) => .waits t
        | (t, some old) =>
          match t.homeWrite who dpa 8 (fun i => (leBytes 8 v.toNat)[i]?) none with
          | (t, none) => .waits t
          | (t, some g) =>
            let g := acrossDie core dpa g
            let t := t.refreshL1 core (lineOf dpa)
            .did (if t.pinned (lineOf dpa) then t.writtenPinned core o.id (lineOf dpa) g
              else t.modCore core fun c => c.gotGwct o.slot (lowLane o.lanes) o.id 0 g) (BitVec.ofNat 64 (leNat old))

/-- The next step of a `LAUNCH` (stage 0: its fence; 1: the swap of its next lane; 2: the link store of that lane).  A step that traps
is tried again once the group has resumed. -/
def State.stepLaunch (s : State) (core : Nat) (o : Op) (todo : List (Nat × Word64 × Word64)) (stage target : Nat) : State :=
  let set := fun (s : State) (l : List (Nat × Word64 × Word64)) (k : Nat) =>
    s.modCore core fun c => c.modOp o.id fun o => { o with kind := .launch l k target }
  if stage = 0 then
    (if s.fenceDone core o true target then (set s todo 1).modCore core fun c => (c.forget o.slot o.lanes).endStall o.slot o.id else s)
  else if s.pinsLeft o then s
  else
    let s := s.pinsGone core o
    match todo with
    | [] => s.modCore core fun c => (c.deliver o).finishOp o.id
    | (j, record, barge) :: rest =>
      if ((s.group? core o.slot).map (·.hold)).getD .none ≠ .none then s
      else if stage = 1 then
        match s.launchAccess core o record barge with
        | .waits t => t
        | .mistag t => set t rest 1
        | .did t old => set (t.modCore core fun c => c.modOp o.id fun o => o.olds [(j, old)]) todo 2
      else
        match s.launchAccess core o (((o.res.getD j 0).setWidth 64 : Word64)) barge with
        | .waits t => t
        | .mistag t => set t rest 1
        | .did t _ => set t rest 1

/-! ### `SIGNAL` and `HALT` (R378, R379) -/

/-- `SIGNAL`: its fence begins, for which the gang stalls (R209, R378). -/
def execSignal (f : FS) (s : State) : Res :=
  issueWith s (.signal f) f.guard fun x s =>
    if x.m = 0 then (s, true)
    else
      match s.leaveIdem x true with
      | (t, false) => (t, false)
      | (t, true) =>
        let (t, ready) := t.bankSettle x
        if !ready || t.anyWindowLocked x.core x.grp.team then (t, false)
        else
          let (id, t) := t.take
          let t := (x.start t (x.op id (.signal f.imm.toNat (x.uni64 f.a) x.grp.gwct)) .zero 1 false).consume x.core id
          ((t.writeBackAll x.core x.slot x.grp.team id).stallGang x id, true)

/-- An earlier signal of the same group is not yet sent. -/
def State.signalFirst (s : State) (core : Nat) (o : Op) : Bool :=
  (s.core core).ops.all fun p => !(p.slot == o.slot && decide (p.id < o.id) && !s.signals.contains (core, p.id) && !p.started && match p.kind with
    | .signal _ _ _ => true
    | _ => false)

/-- A signal goes on: once its fence has ended it is sent; accepted, it completes when its event record is posted (R401). -/
def State.stepSignal (s : State) (core : Nat) (o : Op) (target : Nat) : State :=
  if o.started then
    if s.events.held.any fun e => e.cls == 7 && e.core == core && e.slot == o.slot then s else s.modCore core fun c => c.finishOp o.id
  else if s.signals.contains (core, o.id) || !s.signalFirst core o || !s.fenceDone core o true target then s
  else ({ s with signals := s.signals ++ [(core, o.id)] } : State).modCore core fun c => (c.forget o.slot o.lanes).endStall o.slot o.id

/-- The host die accepts the first device signal, and the keeper posts its event (R378, R400). -/
def execDeviceSignalAccepted (s : State) : Res :=
  match s.signals with
  | [] => .next s
  | (core, id) :: rest =>
    let s' : State := { s with signals := rest }
    match (s'.core core).op? id with
    | none => .next s'
    | some o =>
      match o.kind with
      | .signal n v _ =>
        let t := (s'.modCore core fun c => c.modOp id fun o => { o with started := true }).post
          { cls := 7, code := 0, ctx := o.ctx, core := core, slot := o.slot, arg0 := BitVec.ofNat 64 n, arg1 := v }
        .next (t.afterStore s)
      | _ => .next s'

/-- `HALT` (R379): the halt trap on the group alone, or a precise stop of the core. -/
def execHalt (f : FS) (s : State) : Res :=
  issue s (.halt f) f.guard fun x s =>
    if x.m = 0 then s
    else
      let c := s.ctx x.grp.ctx
      if c.check ∧ c.dumpSize ≠ 0 then s.freeze x.core x.grp.ctx 0x54 f.imm.toNat (some (x.slot, x.pc))
      else x.trap s 0x54 0 [f.imm.setWidth 64, if c.check then 1 else 0]

end Sys2Proof.Machine
end

