-- ==== Sys2Proof/Machine/Clause.lean ====
section
/-! DEFINITION. Clause entry (R35, R65–R76), and the two points of the operations in flight (R69). -/

namespace Sys2Proof.Machine

/-! ### CLAUSE_ENTRY -/

/-- The active groups that may enter MEM-class clauses: the LIMIT promoted earliest, ties to the lowest slot (R154). -/
def Core.mayMem (c : Core) (slot : Nat) : Bool :=
  match get? c.groups slot with
  | none => false
  | some g =>
    decide ((c.groups.countP fun h => h.2.gst == .active &&
      (decide (h.2.promoted < g.promoted) || (h.2.promoted == g.promoted && decide (h.1 < slot)))) < c.limit)

/-- SETB is counted, or the gang stalls for its room (R69). -/
def Group.countSetb (g : Group) (id : Nat) : Group :=
  match g.entryOf id with
  | some e =>
    if g.setRoom e.setb then (g.countUp e.setb).modEntry id fun e => { e with setbDue := false, setbOn := e.setb != 15 }
    else g.modEntry id fun e => { e with setbDue := true }
  | none => g

/-- A gang enters a clause: its words are captured, SETA is counted, and then SETB (R65, R69); a gang that holds every live thread has
converged (R35).  At slot 0 it goes on to slot 1. -/
def Group.enter (g : Group) (act : Mask) (id : Nat) (words : List Word64) : Group :=
  let h := words.headD 0
  let whole := act == g.liveMask
  let g := g.countUp (setaOf h)
  let e : Entry := { id := id, hdr := headerOf (g.thread (lowLane act)).pc, words := words.take (1 + countOf h), seta := setaOf h, setb := setbOf h,
                     unconsumed := 0, unfinished := 0, opened := true, setaOn := setaOf h != 15, setbOn := false, setbDue := false,
                     yields := h.getLsbD 48 }
  let g := g.onThreads act fun _ t =>
    { t with entry := id, refetch := false, pc := if slotOf t.pc = 0 then codePtr t.pc 1 else t.pc, path := if whole then 0 else t.path }
  ({ g with entries := g.entries ++ [e] } : Group).countSetb id

/-- A gang that resumes a clause fetches it again, and its WAIT is clear (R68, R76). -/
def Group.refetch (g : Group) (act : Mask) (words : List Word64) : Group :=
  let ids := ((lanesOf act).map fun i => (g.thread i).entry).eraseDups
  (g.modEntries ids fun e => { e with words := words.take (1 + countOf (words.headD 0)) }).onThreads act fun _ t => { t with refetch := false }

/-- The traps of a header at entry (R72–R74): code, address and trap words; none where it may be entered.  The manual gives them for a
header that is fallen into, branched to or entered; that a header which is fetched again on resume, or has changed since its branch
was checked, and now lacks SIG or holds too few slots is trap 0x02, and one that fails R72 is trap 0x01, is the model's choice
(log 20). -/
def headerTrap (pc : Word64) (act : Mask) (ws : List Word64) : Option Stop :=
  let h := ws.headD 0
  if !hasSig h || (headerOk h ws.length && decide (countOf h < slotOf pc)) then some (0x02, 0, [pc, act])
  else if !headerOk h ws.length then some (0x01, headerOf pc, [h])
  else none

/-- The clause entry of a thread, where its SETB is still to be counted. -/
def Group.setbWaits (g : Group) (t : Thread) : Bool := (g.entryOf t.entry).any fun e => e.setbDue

/-- A gang at a clause boundary, or threads that resume inside a clause, go on once WAIT is clear (R68, R76); a gang that has counted
SETA stalls until SETB has room (R69). -/
def execClauseEntry (s : State) : Res :=
  let core := s.cur.core
  let slot := s.cur.slot
  let act := s.cur.mask
  match s.group? core slot with
  | none => .fault .noGang
  | some g =>
    let t := g.thread (lowLane act)
    if g.setbWaits t then .next (s.modGroup core slot fun g => g.countSetb t.entry)
    else
      match s.fetchClause core g.ctx t.pc with
      | .fault c => .next (s.trap core slot 0x10 (headerOf t.pc) t.pc [BitVec.ofNat 64 c])
      | .words u ws =>
        match headerTrap t.pc act ws with
        | some e => .next (u.trap core slot e.1 e.2.1 t.pc e.2.2)
        | none =>
          let h := ws.headD 0
          if !g.waitClear h then .next u
          else if t.entry ≠ 0 then .next (u.modGroup core slot fun g => g.refetch act ws)
          else if !g.setRoom (setaOf h) || (classOf h == 2 && !(u.core core).mayMem slot) then .next u
          else
            let (id, u) := u.take
            .next (u.modGroup core slot fun g => g.enter act id ws)

/-! ### OPERANDS_CONSUMED -/

/-- The operands-consumed point of the operations that pass it after issue: copies, once every source byte is read, and the matrix
engine's (R353). -/
def execOperandsConsumed (core op : Nat) (s : State) : Res :=
  match (s.core core).op? op with
  | none => .next s
  | some o =>
    match o.kind with
    | .copy y => .next (if y.done then s.consumeEngine core op else s)
    | k => .next (if k.matrix then s.consumeMatrix core op else s)

/-! ### OPERATION_COMPLETE -/

/-- Deliver an operation's results and complete it; poison met is a trap instead (R153, R411). -/
def State.complete (s : State) (core : Nat) (o : Op) : State :=
  match o.poison with
  | some p => s.poisonEnd core o.id p
  | none => s.modCore core fun c => (c.deliver o).finishOp o.id

/-- Complete an operation with new results. -/
def State.completeWith (s : State) (core : Nat) (o : Op) (res : List (BitVec 128)) : State := s.complete core { o with res := res }

/-- The results of a load (R336, R338). -/
def loadResults (o : Op) (sx tr : Bool) (accs : List Acc) : List (BitVec 128) :=
  let data := fun i => ((accs.find? fun a => a.lane == i).map fun a => (a.data, a.width)).getD (0, 16)
  if tr then
    (List.range 64).map fun i =>
      let word := fun k => if has o.lanes (4 * (i / 4) + k) then word128 (data (4 * (i / 4) + k)).1 (i % 4) else 0
      (word 3 ++ word 2) ++ (word 1 ++ word 0)
  else (List.range 64).map fun i => extendLoad (data i).2 sx (data i).1

/-- No store of an operation is left in its group's store buffer. -/
def State.storesDone (s : State) (core : Nat) (o : Op) : Bool :=
  ((s.group? core o.slot).map fun g => g.stores.all fun r => r.op != o.id).getD true

/-- A seal completes when no write lock stands on its range, and no store to it is left at a bank (R346; log 14). -/
def State.sealReady (s : State) (core : Nat) (o : Op) (h : Nat) : Bool :=
  match (s.team? core o.team).bind fun t => get? t.seals h with
  | none => true
  | some q => !(s.cores.any fun c => c.2.locks.any fun l =>
      l.write && l.space == some (core, o.team) && decide (l.lo < q.loc + q.len) && decide (q.loc < l.hi)) &&
      !s.banksOn { core := core, team := o.team, off := q.loc } q.len true

/-- A page of a `DISCARD` returns to the datum; the core's own copies of its lines follow, as on a strong store (R198, R207). -/
def State.discardOne (s : State) (core : Nat) (o : Op) (p : Nat) : State :=
  let (s, g) := s.discardPage p
  let g := acrossDie core (4096 * p) g
  let s := (linesOf p).foldl (fun s l => s.refreshL1 core l) (s.commitMark core o.team (4096 * p) 4096)
  let s := (linesOf p).foldl (fun s l => if s.pinned l then s.writtenPinned core o.id l g else s) s
  s.modCore core fun c =>
    ((lanesOf o.lanes).foldl (fun c j => c.gotGwct o.slot j o.id 0 g) c).modGroup o.slot fun q => q.forgetRange o.lanes (4096 * p) 4096

/-- Every page of a `DISCARD` returns to the datum, once nothing holds it back; it completes when no line of them is pinned (R234). -/
def State.discardAll (s : State) (core : Nat) (o : Op) (pages : List Nat) : State :=
  if !(s.core core).settled o.slot o.lanes o.id true || !pages.all s.discardReady then s
  else
    let s := pages.foldl (fun s p => s.discardOne core o p) s
    match (s.core core).op? o.id with
    | none => s
    | some o =>
      if s.pinsLeft o then s.modCore core fun c => c.modOp o.id fun o => { o with kind := .discard [] }
      else (s.pinsGone core o).complete core o

/-- The results of a local load (R337). -/
def bankResults (sx : Bool) (accs : List BankAcc) : List (BitVec 128) :=
  (List.range 64).map fun i => ((accs.find? fun a => a.lane == i).map fun a => extendLoad a.width sx a.data).getD 0

/-- A local access goes on: one of the parts that may be performed now is, or all have been and it completes (R211, R337, R341). -/
def State.stepBank (s : State) (core : Nat) (o : Op) (act : BankAct) (accs : List BankAcc) : State :=
  if accs.all fun a => a.todo == 0 then
    match act with
    | .load sx => s.completeWith core o (bankResults sx accs)
    | _ => s.complete core o
  else
    match (s.core core).bankParts o with
    | [] => s
    | p :: t => s.bankDo core o ((p :: t).getD (Config.part s.n % (t.length + 1)) p)

/-- An operation reaches its completion point, or its next step towards it; nothing happens where it may not yet. -/
def State.opComplete (s : State) (core : Nat) (o : Op) : State :=
  match o.kind with
  | .simple => s.complete core o
  | .bank act _ _ accs => s.stepBank core o act accs
  | .load _ _ sx tr accs => if accs.all fun a => a.todo == 0 then s.completeWith core o (loadResults o sx tr accs) else s
  | .store => if s.storesDone core o then s.complete core o else s
  | .atom _ _ _ _ reqs => if reqs.all (·.done) && !s.pinsLeft o then (s.pinsGone core o).complete core o else s
  | .writeBack k unmap =>
    if s.storesDone core o then
      (if unmap then s.modTeam core o.team fun t => { t with windows := del t.windows k } else s).complete core o
    else s
  | .sealRange h => if s.sealReady core o h then s.complete core o else s
  | .unsealRange h =>
    if ((s.team? core o.team).bind fun t => get? t.seals h).all fun q => q.count == 0 then
      (s.modTeam core o.team fun t => { t with seals := del t.seals h }).complete core o
    else s
  | .survey map sync spans =>
    if !(s.core core).ownPerformed o.slot o.lanes o.id then s
    else
      let (t, res) := s.surveyAll o.ctx map sync spans
      t.completeWith core o res
  | .probe addrs =>
    if !(s.core core).ownPerformed o.slot o.lanes o.id then s
    else
      s.completeWith core o ((List.range 64).map fun j =>
        ((addrs.find? fun a => a.1 == j).map fun a => BitVec.ofNat 128 (s.probeWord a.2.toNat)).getD 0)
  | .discard pages => s.discardAll core o pages
  | .grbind _ =>
    (if o.poison.isSome then s.noteEval core o.team 0x70 ((o.poison.map (·.1)).getD 0) 3 else s).complete core o
  | .grstat =>
    if (s.core core).statReady o then s.completeWith core o ((List.range 64).map fun _ => (s.evalStatus core o.team).setWidth 128) else s
  | .ivau lines =>
    let drop := fun (c : Core) => { c with icache := c.icache.filter fun l => !lines.contains l.1 }
    ({ s with cores := s.cores.map fun (c : Nat × Core) => (c.1, drop c.2) } : State).complete core o
  | .tagwait all m =>
    if s.tagReady core o.team all m then
      (s.modCore core fun c => c.forget o.slot o.lanes).completeWith core o ((List.range 64).map fun _ => (s.tagsOf core o.team m).setWidth 128)
    else s
  | .launch todo stage target => s.stepLaunch core o todo stage target
  | .snap stage t target => if stage = 1 ∧ s.snapReady t target then s.complete core o else s
  | .edstat asked => s.completeWith core o (s.edResults asked)
  | .signal _ _ target => s.stepSignal core o target
  | .fence _ _ | .copy _ | .regq _ | .barwait | .barheld _ _ _ _ => s
  | .greval _ _ _ _ _ | .nzscan _ _ _ => s.completeEval core o.id
  | .mma _ _ _ _ _ _ _ _ _ _ _ _ | .mzero _ | .mldt _ _ _ | .mstt _ _ _ | .mdrain _ _ _ _ _ _ _ _ _ _ _ _ | .malloc _ _ | .mfree _ =>
    s.completeMatrix core o.id

def execOperationComplete (core op : Nat) (s : State) : Res :=
  match (s.core core).op? op with
  | none => .next s
  | some o => .next (s.opComplete core o)

end Sys2Proof.Machine
end

