-- ==== Sys2Proof/Machine/Edition.lean ====
section
/-! DEFINITION. Editions after their seal (R254–R267): the cut at the homes, background fills, the drain to an archive target, and
retirement. -/

namespace Sys2Proof.Machine

/-! ### Pages of an edition (R253, R259, R262) -/

/-- The regions that an edition covers on a die, in ascending order of context and index. -/
def State.covered (s : State) (seq die : Nat) : List Region :=
  sortBy (fun (a b : Region) => decide (a.ctx < b.ctx) || (a.ctx == b.ctx && decide (a.idx ≤ b.idx)))
    (s.regions.filter fun r => r.ed && r.view.isNone && !isLink r.base && dieOfDpa r.base == die && decide (r.born ≤ seq))

/-- The pages of a die that an edition covers, in the order of its drain. -/
def State.coveredPages (s : State) (seq die : Nat) : List (Nat × Nat × Nat) :=
  (s.covered seq die).flatMap fun r => (List.range r.frames).map fun i => (pageOf r.base + i, r.ctx, r.idx)

/-- A home applies the cut at T (R256): what it performs from now on belongs to the live edition.  The pages of its die that
changed since the seal before are noted (R262). -/
def execHomeApplyCut (edition die : Nat) (s : State) : Res :=
  match s.edition? edition with
  | none => .next s
  | some e =>
    if e.cut.contains die ∨ 4 ≤ die ∨ s.ns ≤ e.t then .next s
    else
      let changed := (s.coveredPages edition die).filter fun p => (s.pageSt p.1).cseq == edition
      .next (s.modEdition edition fun e => { e with cut := e.cut ++ [die], pend := e.pend ++ changed })

/-- Draining begins: with FULL = 1 every page that the edition covers is due, else those that changed (R262). -/
def State.beginDrain (s : State) (seq : Nat) : State :=
  s.modEdition seq fun e =>
    { e with st := .draining, pend := if e.target.full then (List.range 4).flatMap (s.coveredPages seq) else e.pend }

/-- Every home has applied the cut (R254): the edition leaves Sealing. -/
def execEditionCutDone (edition : Nat) (s : State) : Res :=
  match s.edition? edition with
  | none => .next s
  | some e =>
    if e.st ≠ .sealing ∨ !e.cutAll then .next s
    else if e.target.type = 3 then .next (s.modEdition edition fun e => { e with st := .sealed })
    else .next (s.beginDrain edition)

/-- The lines of a copied page are all filled (R259). -/
def execCowBackgroundFill (page : Nat) (s : State) : Res := .next (s.modPage page fun p => { p with filling := false })

/-! ### Retirement (R254, R260, R261, R266) -/

/-- A frame that no edition holds any longer goes to its pool, or to the edition reserve of its die and tier, or to the die. -/
def State.freeFrame (s : State) (p : Nat) (far toPool : Bool) : State :=
  let d := dieOfDpa (4096 * p)
  let toDie := fun (s : State) => s.modDie d fun m => if far then { m with far := m.far + 1 } else { m with near := m.near + 1 }
  if toPool then
    match s.regionAt (4096 * p) with
    | some r => s.modRegion r.ctx r.idx fun r => { r with pool := r.pool + 1, poolFar := if far then r.poolFar + 1 else r.poolFar }
    | none => toDie s
  else
    let m := s.die d
    if far ∧ m.freeFar < m.resFar then s.modDie d fun m => { m with freeFar := m.freeFar + 1 }
    else if !far ∧ m.freeNear < m.resNear then s.modDie d fun m => { m with freeNear := m.freeNear + 1 }
    else toDie s

/-- Whether an edition holds a frame. -/
def Edition.holdsFrame (e : Edition) (id : Nat) : Bool := e.pages.any fun p => match p.2 with
  | .frame k _ _ _ _ => k == id
  | .unbacked => false

/-- Frames that pages of an edition held alone are given up. -/
def State.giveUp (s : State) (pages : SMap EdPage) : State :=
  pages.foldl (fun (s : State) p => match p.2 with
    | .frame id far toPool _ _ => if s.editions.any fun e => e.holdsFrame id then s else s.freeFrame p.1 far toPool
    | .unbacked => s) s

/-- An edition is retired. -/
def State.retire (s : State) (seq : Nat) : State :=
  match s.edition? seq with
  | none => s
  | some e => ({ s with editions := s.editions.filter fun e => e.seq != seq }.giveUp e.pages)

/-- A Drained edition without a view is retired at once (R254). -/
def State.settleEdition (s : State) (seq : Nat) : State :=
  match s.edition? seq with
  | some e => if e.st = .drained ∧ e.views.isEmpty then s.retire seq else s
  | none => s

/-! ### Draining (R262–R264) -/

/-- An edition's target fails (R254, R263): reason 2, and the event. -/
def State.failTarget (s : State) (seq : Nat) : State :=
  (s.modEdition seq fun e => { e with st := .failed, reason := 2, chunkSince := none, spill := [] }).post
    { cls := 6, code := 2, ctx := 0, core := 0xFF, slot := 0xFF, arg0 := BitVec.ofNat 64 seq, arg1 := 0 }

/-- The page of an edition: whether it is backed, and tag i (R256). -/
def State.edBacked (s : State) (e : Edition) (p : Nat) : Bool :=
  match get? e.pages p with
  | some .unbacked => false
  | some (.frame _ _ _ _ _) => true
  | none => (s.pageSt p).backed

def State.edTag (s : State) (e : Edition) (p i : Nat) : Nat :=
  let t := match get? e.pages p with
    | some .unbacked => 0
    | some (.frame _ _ _ _ tags) => (get? tags (128 * p + i)).getD 0
    | none => (get? s.tags (128 * p + i)).getD 0
  t.toNat

/-- The header of a record (R264). -/
def recordHeader (e : Edition) (id page kind : Nat) (tags : List Byte) : List Byte :=
  leBytes 8 e.seq ++ leBytes 8 e.t ++ leBytes 8 id ++ leBytes 8 page ++ leBytes 8 kind ++ zeros 24 ++ tags

/-- The record of a page (R264). -/
def State.pageRecord (s : State) (e : Edition) (p : Nat × Nat × Nat) : List Byte :=
  match s.region? p.2.1 p.2.2 with
  | none => []
  | some r =>
    let backed := s.edBacked e p.1
    let tags := if r.tag then (List.range 64).map fun j => BitVec.ofNat 8 (s.edTag e p.1 (2 * j) + 16 * s.edTag e p.1 (2 * j + 1)) else zeros 64
    recordHeader e (p.2.1 + p.2.2 * 2 ^ 16) (p.1 - pageOf r.base) (if backed then 0 else 1) tags
      ++ if backed then (List.range 4096).map fun i => e.byteAt r (s.liveByte r (4096 * p.1 + i)) (4096 * p.1 + i) else []

/-- Poison of the granules of a live page goes with a record into a far range (R410). -/
def State.drainPoison (s : State) (at_ p : Nat) : State :=
  let bad := (s.poison.filter fun g => g / 128 == p).map fun g => (at_ + 128) / 32 + g % 128
  { s with poison := (s.poison.filter fun g => !bad.contains g) ++ bad }

/-- Bytes of a chunk that hold records: all but its last word (R263). -/
def chunkBytes : Nat := 65528

/-- The address of chunk k of a host stream's ring. -/
def Target.chunk (t : Target) (k : Nat) : Nat := t.base + 65536 * (k % max 1 (t.size / 65536))

/-- A full chunk awaits the host's acknowledgement: its last word is cleared, and the event is posted (R263; log 22). -/
def State.chunkFull (s : State) (seq k : Nat) : State :=
  match s.edition? seq with
  | none => s
  | some e =>
    let a := e.target.chunk k
    ((s.rawWrite (a + chunkBytes) (zeros 8)).modEdition seq fun e => { e with chunkSince := some s.ticks }).post
      { cls := 6, code := 3, ctx := 0, core := 0xFF, slot := 0xFF, arg0 := BitVec.ofNat 64 seq, arg1 := BitVec.ofNat 64 a }

/-- Bytes go to an edition's target, back to back. -/
def State.emit (s : State) (seq : Nat) (bytes : List Byte) (page : Option Nat) : State :=
  match s.edition? seq with
  | none => s
  | some e =>
    match e.target.type with
    | 0 =>
      if e.target.size < e.used + bytes.length then s.failTarget seq
      else
        let s := s.rawWrite (e.target.base + e.used) bytes
        let s := match page with
          | some p => if (get? e.pages p).isNone ∧ 128 < bytes.length then s.drainPoison (e.target.base + e.used) p else s
          | none => s
        s.modEdition seq fun e => { e with used := e.used + bytes.length, acked := e.acked + 1 }
    | 1 =>
      if e.target.size < e.used + bytes.length then s.failTarget seq
      else
        let (id, s) := s.take
        let ps := s.usablePorts e.target.ports
        let r : LinkReq := { id, slot := 2 ^ 15, core := 0, op := 0, body := .drain seq bytes, dpa := e.target.base + e.used, att := 0, tries := 0,
                             port := ps.getD (Config.part s.n % ps.length) 36, sent := s.ticks }
        let s := { s with linkReqs := s.linkReqs ++ [r] }
        s.modEdition seq fun e => { e with used := e.used + bytes.length }
    | _ =>
      let room := chunkBytes - e.used % chunkBytes
      let now := bytes.take room
      let s := s.rawWrite (e.target.chunk (e.used / chunkBytes) + e.used % chunkBytes) now
      let s := s.modEdition seq fun e => { e with used := e.used + now.length, spill := bytes.drop room }
      if now.length = room then s.chunkFull seq (e.used / chunkBytes) else s

/-- The oldest edition in Draining. -/
def State.drainingNow (s : State) : Option Edition := s.editions.find? fun e => e.st == .draining

/-- After the last die's end record a host stream's last chunk, though not full, awaits its acknowledgement (R262, R263; log 22). -/
def State.lastChunk (s : State) (seq : Nat) : State :=
  match s.edition? seq with
  | some e =>
    if e.target.type = 2 ∧ e.ended.length = 4 ∧ e.spill.isEmpty ∧ e.chunkSince.isNone ∧ e.used % chunkBytes ≠ 0 then
      s.chunkFull seq (e.used / chunkBytes)
    else s
  | none => s

/-- A die's drain engine writes its next record, or the end record of its part, first what of a record a full chunk left over (R262, R264). -/
def execDrainPageWrite (die : Nat) (s : State) : Res :=
  match s.drainingNow with
  | none => .next s
  | some e =>
    if e.chunkSince.isSome ∨ 4 ≤ die then .next s
    else if !e.spill.isEmpty then .next (((s.emit e.seq e.spill none).lastChunk e.seq).afterStore s)
    else if e.ended.contains die then .next s
    else
      match e.pend.find? fun p => dieOfDpa (4096 * p.1) == die with
      | some p =>
        let r := s.pageRecord e p
        let t := s.modEdition e.seq fun e => { e with pend := e.pend.filter fun q => q != p, written := e.written ++ [p.1] }
        .next ((t.emit e.seq r (some p.1)).afterStore s)
      | none =>
        let count := e.written.countP fun p => dieOfDpa (4096 * p) == die
        let t := s.modEdition e.seq fun e => { e with ended := e.ended ++ [die] }
        let t := t.emit e.seq (recordHeader e 0 count 2 (zeros 64)) none
        .next ((t.lastChunk e.seq).afterStore s)

/-- The host has acknowledged the chunk that awaits it. -/
def State.chunkAcked (s : State) (e : Edition) : Bool :=
  s.coherentNat (e.target.chunk ((e.used - 1) / chunkBytes) + chunkBytes) 8 == 1

/-- Every record of an edition is acknowledged. -/
def Edition.allAcked (e : Edition) : Bool :=
  e.ended.length == 4 && e.spill.isEmpty && (if e.target.type = 2 then e.acked == e.used else e.acked == e.written.length + 4)

/-- The target acknowledges (R254, R262): with the last record the edition is Drained. -/
def execDrainTargetAck (edition : Nat) (s : State) : Res :=
  match s.edition? edition with
  | none => .next s
  | some e =>
    if e.st ≠ .draining then .next s
    else
      let s := if e.chunkSince.isSome && s.chunkAcked e then
          s.modEdition edition fun e => { e with chunkSince := none, acked := e.used }
        else s
      match s.edition? edition with
      | none => .next s
      | some e =>
        if e.allAcked then .next ((s.modEdition edition fun e => { e with st := .drained }).settleEdition edition) else .next s

/-- A chunk that stays unacknowledged for 1 s fails the edition (R263). -/
def execChunkAckTimeout (edition : Nat) (s : State) : Res :=
  match s.edition? edition with
  | none => .next s
  | some e =>
    match e.chunkSince with
    | none => .next s
    | some t =>
      .next (if e.st = .draining ∧ t + nsTicks 1000000000 ≤ s.ticks ∧ !s.chunkAcked e then (s.failTarget edition).afterStore s else s)

end Sys2Proof.Machine
end

