-- ==== Sys2Proof/Machine/Host.lean ====
section
/-! DEFINITION. The host die: the harts' accesses to memory and to host-die space (R226–R228, R391–R394), inbound DMA (R402, R403),
the posting of held events (R401), and the command mailboxes (R397, R398). -/

namespace Sys2Proof.Machine

/-! ### Accesses of the harts (R226, R392, R393) -/

/-- A refused access of a hart or an endpoint. -/
def State.refuse (s : State) : State := { s with hartRefused := s.hartRefused + 1 }

/-- Memory that an agent of the host die may reach: in a valid region, and in no link range (R393, R403). -/
def State.hostMay (s : State) (dpa n : Nat) : Bool :=
  !isHostDie dpa && !isLink dpa && decide (0 < n) && (match s.regionAt dpa with
    | some r => r.covers (dpa + n - 1)
    | none => false)

def State.isView (s : State) (dpa : Nat) : Bool := ((s.regionAt dpa).map (·.view.isSome)).getD false

/-- Word `i` of mailbox `m` (R397). -/
def State.mail (s : State) (m i : Nat) : Word64 := (get? s.mailboxes (16 * m + i)).getD 0
def State.setMail (s : State) (m i : Nat) (v : Word64) : State := { s with mailboxes := put s.mailboxes (16 * m + i) v }

/-- What a hart load of n bytes from host-die space returns; none where it is refused (R392).  What IMSIC files, configuration space
and device memory return is not the manual's to say (log 8). -/
def State.hostDieRead (s : State) (dpa n : Nat) : Option (List Byte) :=
  let o := dpa - 2 ^ 48
  let free := (List.range n).map fun i => Config.hostDieByte s.n i
  if o < 256 * 2 ^ 20 then
    if n = 8 ∧ dpa % 8 = 0 then
      match s.coreReg (o / 2 ^ 20) (o % 2 ^ 20) with
      | some v => some (leBytes 8 v.toNat)
      | none => if teamOffsets.contains (o % 2 ^ 20) then some (zeros 8) else none
    else none
  else if 2 ^ 28 ≤ o ∧ o < 2 ^ 28 + 64 * 128 then
    if n = 8 ∧ dpa % 8 = 0 then some (leBytes 8 (s.mail ((o - 2 ^ 28) / 128) ((o - 2 ^ 28) / 8 % 16)).toNat) else none
  else if 2 ^ 29 ≤ o ∧ o < 2 ^ 29 + 32 * 2 ^ 16 then (if (o - 2 ^ 29) % 2 ^ 16 < 0x9000 ∧ 0 < n ∧ n ≤ 8 then some free else none)
  else if 2 ^ 32 ≤ o ∧ o < 2 ^ 32 + 4 * 2 ^ 28 then (if n = 1 ∨ n = 2 ∨ n = 4 then some free else none)
  else if 2 ^ 40 ≤ o ∧ o < 2 ^ 40 + 4 * 2 ^ 38 then (if 0 < n then some free else none)
  else none

/-- Halves become Shared (R226). -/
def State.share (s : State) (dpa n : Nat) : State :=
  (halvesOf dpa n).foldl (fun s h =>
    if (s.line (lineOf h)).half h = .invalid then (s.dirMark h).modLine (lineOf h) fun l => l.setHalf h .shared else s) s

/-- A read of memory space by a hart or an endpoint: `strict` where poison refuses it (R411). -/
def State.hostMemRead (s : State) (who : Instr) (dpa n : Nat) (strict : Bool) : State :=
  if !s.hostMay dpa n || (strict && (s.poisonIn dpa n).isSome) then s.refuse
  else if (s.pageSt (pageOf dpa)).held then s.queueHeld (pageOf dpa) who
  else
    let s := s.share dpa n
    { s with hartRead := (List.range n).map fun i => s.coherent (dpa + i) }

def execHostHalfRead (dpa len : Nat) (s : State) : Res :=
  if isHostDie dpa then
    match s.hostDieRead dpa len with
    | some b => .next { s with hartRead := b }
    | none => .next s.refuse
  else .next (s.hostMemRead (.hostHalfRead dpa len) dpa len true)

/-- A hart asks for ownership of a half (R226); a store to a view or outside every region is refused (R265, R393). -/
def execHostOwnershipRequest (half : Nat) (s : State) : Res :=
  let h := halfOf half
  if !s.hostMay h 64 || s.isView h then .next s.refuse
  else
    match (s.line (lineOf h)).half h with
    | .owned _ => .next s
    | _ => .next ((s.dirMark h).modLine (lineOf h) fun l => l.setReq h true)

/-- The bytes of an owned half, after more stores of the hart; a store names a byte by its offset in the half. -/
def ownStores (half : Nat) (old : List (Nat × Byte)) (stores : List (Nat × BitVec 8)) : List (Nat × Byte) :=
  stores.foldl (fun d x => (halfOf half + x.1 % 64, x.2) :: d.filter fun y => y.1 != halfOf half + x.1 % 64) old

/-- The home grants ownership once device time has passed the line's latest lease; the hart then stores into the half (R226). -/
def execHostOwnershipGrant (half : Nat) (stores : List (Nat × BitVec 8)) (s : State) : Res :=
  let h := halfOf half
  let l := s.line (lineOf h)
  if !l.req h || decide (s.ns < l.lease) || s.pinned (lineOf h) then .next s
  else .next (s.modLine (lineOf h) fun l => (l.setReq h false).setHalf h (.owned (ownStores h [] stores)))

/-- The hart stores into a half that it owns, and writes it back or gives it up (R226, R393). -/
def execHostWriteback (half : Nat) (stores : List (Nat × BitVec 8)) (keep : Bool) (s : State) : Res :=
  let h := halfOf half
  match (s.line (lineOf h)).half h with
  | .owned d =>
    let d := ownStores h d stores
    let t := s.modLine (lineOf h) fun l => l.setHalf h (.owned d)
    let after := if keep then HostSt.owned [] else .invalid
    if d.isEmpty then .next (t.modLine (lineOf h) fun l => l.setHalf h after)
    else
      match t.storeAt (.hostWriteback h [] keep) h 64 (fun i => (d.find? fun p => p.1 == h + i).map (·.2)) none with
      | (t, none) => .next (t.afterStore s)
      | (t, some _) => .next ((t.modLine (lineOf h) fun l => l.setHalf h after).afterStore s)
  | .shared => .next (if keep then s else s.modLine (lineOf h) fun l => l.setHalf h .invalid)
  | .invalid => .next s

/-- Two halves of a split region that have seen no conflict for 100 µs merge (R228). -/
def execHostDirectoryMerge (base : Nat) (s : State) : Res :=
  let old := fun (e : Nat × Nat × Nat) => decide (e.2.2 + nsTicks 100000 ≤ s.ticks)
  match s.directory.find? fun e => e.1 == base && old e with
  | none => .next s
  | some e =>
    let k := e.2.1
    let other := (base + 2 ^ k, k)
    match s.directory.find? fun f => (f.1, f.2.1) == other && old f with
    | none => .next s
    | some f =>
      if 16 ≤ k ∨ base % 2 ^ (k + 1) ≠ 0 then .next s
      else .next { s with directory := (base, k + 1, max e.2.2 f.2.2) :: s.directory.filter fun x => x != e && x != f }

/-! ### PCI Express (R403) -/

/-- An inbound access, after the IOMMU: a read, or a posted write performed once the leases on its lines have passed. -/
def execPcieInboundDma (dpa len : Nat) (write : Option (List (BitVec 8))) (s : State) : Res :=
  let who : Instr := .pcieInboundDma dpa len write
  match write with
  | none => .next (if s.isView dpa then s.refuse else s.hostMemRead who dpa len false)
  | some b =>
    if !s.hostMay dpa b.length || s.isView dpa then .next s.refuse
    else
      let pages := (List.range ((b.length + dpa % 4096 + 4095) / 4096)).map (pageOf dpa + ·)
      match pages.find? fun p => (s.pageSt p).held with
      | some p => .next (s.queueHeld p who)
      | none =>
        if s.ns < s.gwctAt dpa b.length ∨ s.hostBlocks dpa b.length true ∨ (linesIn dpa b.length).any s.pinned then .next (s.park (pageOf dpa) who)
        else
          let t := (s.dropHalves dpa b.length).1
          let t := pages.foldl (fun (t : State) p =>
            let lo := max dpa (4096 * p)
            let hi := min (dpa + b.length) (4096 * (p + 1))
            (t.storeAt who lo (hi - lo) (fun j => b[lo - dpa + j]?) none).1) t
          .next (t.afterStore s)

/-- Held events are posted as far as the queue has room (R401). -/
def execHeldEventPost (s : State) : Res := .next (s.postEvents.afterStore s)

/-! ### Mailboxes (R397, R398) -/

/-- The commands by their codes. -/
def commandTable : List (Nat × Instr) :=
  [[(0x0101, .ctxcreate), (0x0102, .ctxrun), (0x0103, .ctxsuspend), (0x0104, .ctxresume), (0x0105, .ctxmode), (0x0106, .ctxquery), (0x0107, .ctxdestroy)],
   [(0x0201, .cnlcreate), (0x0202, .cnlresume), (0x0203, .cnlquery), (0x0204, .cnldestroy)],
   [(0x0301, .pgdone)],
   [(0x0401, .rgnset), (0x0402, .rgnpool), (0x0403, .rgnplace), (0x0404, .rgnclear), (0x0405, .rgnquery), (0x0406, .vminv)],
   [(0x0501, .edconf), (0x0502, .edtarget), (0x0503, .edmap), (0x0504, .edunmap), (0x0505, .edretire), (0x0506, .edquery)],
   [(0x0601, .lnktrain), (0x0602, .lnkisolate), (0x0603, .lnkmap), (0x0604, .lnkunmap), (0x0605, .lnkabort), (0x0606, .lnkquery), (0x0607, .lnkexport)],
   [(0x0701, .hostevq)],
   [(0x0801, .corestat), (0x0802, .testconf), (0x0803, .dbgarea), (0x0804, .stopcore), (0x0805, .dbgresume), (0x0806, .watchset)],
   [(0x0901, .devstat), (0x0902, .pwrcap), (0x0903, .dieresume)]].flatten

/-- Word 0 after a write: OVR is cleared by a 1, the reserved bits stay 0. -/
def mailWord0 (old v : Word64) : Word64 :=
  (v &&& 0xA00000000000FFFF#64) ||| (old &&& ~~~ v &&& 0x4000000000000000#64)

/-- A command of mailbox `m` ends (R398): return values from word 1, RESULT, OWN cleared, and the event if IRQ is set. -/
def State.finishCommand (s : State) (m result : Nat) (values : List Word64) : State :=
  let s := (List.range values.length).foldl (fun (s : State) i => s.setMail m (1 + i) (values.getD i 0)) s
  let w := s.mail m 0
  let s := (s.setMail m 15 (BitVec.ofNat 64 result)).setMail m 0 (w &&& 0x7FFFFFFFFFFFFFFF#64)
  if w.getLsbD 61 then
    s.post { cls := 8, code := result, ctx := 0, core := 0xFF, slot := 0xFF, arg0 := BitVec.ofNat 64 m, arg1 := 0 }
  else s

/-- A write to a mailbox word: a command begins where OWN is set, and the keepers then carry it out. -/
def execMailboxWrite (m word : Nat) (value : BitVec 64) (s : State) : Res :=
  if 64 ≤ m ∨ 16 ≤ word then .next s.refuse
  else
    let w := s.mail m 0
    if w.getLsbD 63 then
      .next (if word = 0 ∧ value = 0x4000000000000000#64 then s.setMail m 0 (w &&& ~~~ value)
        else s.setMail m 0 (w ||| 0x4000000000000000#64))
    else if word = 15 then .next (s.setMail m 15 (value &&& 0xFF#64))
    else if word ≠ 0 then .next (s.setMail m word value)
    else
      let t := s.setMail m 0 (mailWord0 w value)
      if !value.getLsbD 63 then .next t
      else
        match commandTable.lookup (value.toNat % 2 ^ 16) with
        | some i => .next { t with cmds := t.cmds ++ [(m, i)] }
        | none => .next ((t.finishCommand m 5 []).afterStore s)

end Sys2Proof.Machine
end

