-- ==== Sys2Proof/Machine/Control.lean ====
section
/-! DEFINITION. The control and mask instructions, opcodes 0x00–0x12 (R39–R41, R275–R289), and a reserved opcode (R92). -/

namespace Sys2Proof.Machine

/-! ### NOP and the branches (R275–R278) -/

/-- `NOP` does nothing, and is offered in every class. -/
def execNop (s : State) : Res := issue s .nop .always fun _ s => s

/-- The address of the word that a code pointer names. -/
def wordAddr (pc : Word64) : Nat := vaBits (headerOf pc) + 8 * slotOf pc

/-- The checks of R74 over the threads that take a branch: the mask of the threads with invalid targets, or else the first
target that does not translate, with its cause; the state holds the translations made. -/
def checkTargets (s : State) (core ctx : Nat) (l : List (Nat × Word64)) : State × Mask × Option (Nat × Word64) :=
  l.foldl (fun (acc : State × Mask × Option (Nat × Word64)) p =>
    match acc.1.checkTarget core ctx p.2 with
    | .valid s => (s, acc.2.1, acc.2.2)
    | .invalid => (acc.1, acc.2.1 ||| laneBit p.1, acc.2.2)
    | .fault c => (acc.1, acc.2.1, acc.2.2 <|> some (c, p.2))) (s, 0, none)

/-- A thread takes a branch (R32): its path counter rises where the target does not lie above the branch. -/
def Group.takeBranch (g : Group) (i : Nat) (t : Thread) (tgt : Word64) : Thread :=
  { t with pc := tgt, entry := 0, refetch := false, blocked := false, since := g.issuesOf (sliceOf i),
           path := if wordAddr tgt ≤ wordAddr t.pc ∧ t.path ≠ 0xFFFF then t.path + 1 else t.path }

/-- A control transfer (R74, R276–R278): the threads of M for which `take` holds go to `tgt`, the rest of the gang falls
through; `d` takes the return pointer of every thread of M.  Either trap of R74 leaves the whole gang where it stands. -/
def branch (s : State) (i : Instr) (guard : Guard) (d : Option Spec) (take : Group → Nat → Bool)
    (tgt : Group → Nat → Word64) : Res :=
  issueWith s i guard fun x s =>
    let g := x.grp
    let takers := (lanesOf x.m).filter (take g)
    let targets := takers.map fun j => (j, tgt g j)
    match checkTargets s x.core g.ctx targets with
    | (s', bad, fault) =>
      if bad ≠ 0 then (x.trap s 0x02 0 [((targets.find? fun p => has bad p.1).map (·.2)).getD 0, bad], false)
      else
        match fault with
        | some (c, pc) => (x.trap s 0x10 (headerOf pc) [BitVec.ofNat 64 c], false)
        | none =>
          let s := s'.modCore x.core fun c =>
            match d with
            | some d => c.writeDst x.slot x.m true false d fun j => g.returnPtr (g.thread j)
            | none => c
          ((x.issued s).modGroup x.core x.slot fun g =>
            (g.onThreads x.act fun j t =>
              if takers.contains j then g.takeBranch j t (tgt x.grp j)
              else { g.stepThread t with since := g.issuesOf (sliceOf j) }).settle, false)

/-- The target of format B (R74, R276): 16 × OFFSET past the header, with SLOT. -/
def targetB (f : FB) (g : Group) (j : Nat) : Word64 :=
  codePtr (headerOf (g.thread j).pc + f.off.signExtend 64 * 16) f.slot.val

def execBra (f : FB) (s : State) : Res := branch s (.bra f) f.guard none (fun _ _ => true) (targetB f)
def execBrc (f : FB) (s : State) : Res :=
  branch s (.brc f) f.guard none (fun g j => (g.src32 j f.a != 0) ^^ f.z) (targetB f)
def execCall (f : FB) (s : State) : Res := branch s (.call f) f.guard (some f.d) (fun _ _ => true) (targetB f)
def execBrx (f : FSub) (s : State) : Res := branch s (.brx f) f.guard none (fun _ _ => true) fun g j => g.src64 j false f.a
def execCallx (f : FSub) (s : State) : Res :=
  branch s (.callx f) f.guard (some f.d) (fun _ _ => true) fun g j => g.src64 j false f.a
/-- `RET` behaves as `BRX` does (R277). -/
def execRet (f : FSub) (s : State) : Res := branch s (.ret f) f.guard none (fun _ _ => true) fun g j => g.src64 j false f.a

/-! ### EXIT, YIELD, TRAP, BPT (R279–R283) -/

/-- The threads of M end (R279): their bits leave every mask register, their pending writes are discarded, that of a `g` register with
its writer, the operation's lowest lane (R79); with the last
live thread the group is Exited (R280). -/
def Core.exitThreads (c : Core) (slot : Nat) (m : Mask) : Core :=
  let low := fun (o : Op) => has m (lowLane o.lanes)
  let c : Core := { c with ops := c.ops.map fun (o : Op) =>
    if o.slot == slot then
      { o with writes := o.writes.map fun w => { w with lanes := w.lanes &&& ~~~ m }, gdst := if low o then none else o.gdst }
    else o }
  c.modGroup slot fun g =>
    let g := g.onThreads m fun _ t => { t with st := .exited, entry := 0, stall := none }
    { g with k := g.k.map fun (p : Nat × Mask) => (p.1, p.2 &&& ~~~ m), gst := if g.liveMask = 0 then .exited else g.gst }

def execExit (f : FSub) (s : State) : Res :=
  issueWith s (.exit f) f.guard fun x s =>
    let s := x.advance (s.modCore x.core fun c => c.exitThreads x.slot x.m)
    (s.modCore x.core fun c => c.checkGroup x.slot, false)

def execYield (f : FSub) (s : State) : Res :=
  issue s (.yield f) f.guard fun x s =>
    if x.m = 0 then s else s.modGroup x.core x.slot fun g => g.modEntries x.entries fun e => { e with yields := true }

/-- Trap 0x50; the gang is saved past the `TRAP` (R282). -/
def execTrap (f : FS) (s : State) : Res :=
  issue s (.trap f) f.guard fun x s =>
    if x.m = 0 then s
    else x.trap s 0x50 0 [f.imm.setWidth 64, x.m, x.grp.src64 (lowLane x.m) false f.a]

/-- Trap 0x51; the gang stays at the `BPT` (R283). -/
def execBpt (f : FS) (s : State) : Res :=
  issueWith s (.bpt f) f.guard fun x s =>
    if x.m = 0 then (s, true) else (x.trap s 0x51 0 [f.imm.setWidth 64, x.m], false)

/-! ### Masks (R40, R285–R288) -/

/-- The number of the mask register that a specifier names. -/
def kNum : Spec → Nat
  | .k n => n.val
  | _ => 0

def execJoin (f : FSub) (s : State) : Res :=
  issue s (.join f) f.guard fun x s =>
    s.modGroup x.core x.slot fun g => g.setMask (kNum f.a) (g.maskReg (kNum f.a) ||| x.m)
def execLeave (f : FSub) (s : State) : Res :=
  issue s (.leave f) f.guard fun x s =>
    s.modGroup x.core x.slot fun g => g.setMask (kNum f.a) (g.maskReg (kNum f.a) &&& ~~~ x.m)

/-- R40: a thread of M that K does not name raises the membership trap, with the threads and K; else M waits, each thread to
resume at the header that follows its `WAITM`. -/
def execWaitm (f : FSub) (s : State) : Res :=
  issueWith s (.waitm f) f.guard fun x s =>
    let k := x.grp.maskReg (kNum f.a)
    if x.m &&& ~~~ k ≠ 0 then (x.trap s 0x03 0 [x.m &&& ~~~ k, k], false)
    else
      let s := s.modGroup x.core x.slot fun g =>
        g.onThreads x.m fun _ t => { g.stepThread t with st := .maskWait (kNum f.a) 0 }
      ((x.advance s).modCore x.core fun c => c.checkGroup x.slot, false)

def execMksetA (f : FSub) (s : State) : Res :=
  issue s (.mksetA f) f.guard fun x s =>
    if x.m = 0 then s
    else
      s.modGroup x.core x.slot fun g =>
        g.setMask (kNum f.d) (if f.sub = 0 then
            (g.maskReg (kNum f.d) &&& ~~~ x.m) ||| (x.m &&& maskOf fun j => x.grp.src32 j f.a != 0)
          else x.grp.src64 (lowLane x.m) false f.a)

def execMksetW (f : FWM) (s : State) : Res :=
  issue s (.mksetW f) .always fun x s =>
    let v : Mask := match f.mode with
      | .lo => f.imm.setWidth 64
      | .hi => f.imm.setWidth 64 <<< 32
      | .sx => f.imm.signExtend 64
    s.modGroup x.core x.slot fun g => g.setMask (kNum f.d) v

/-- The operations of R287. -/
def maskLogic (sub : Nat) (a b m : Mask) : Mask :=
  match sub with
  | 0 => a &&& b
  | 1 => a ||| b
  | 2 => a ^^^ b
  | 3 => a &&& ~~~ b
  | 4 => ~~~ a
  | 5 => a
  | _ => m

def execMklop (f : FSub) (s : State) : Res :=
  issue s (.mklop f) f.guard fun x s =>
    if x.m = 0 then s
    else
      let v := maskLogic f.sub.val (x.grp.src64 (lowLane x.m) false f.a) (x.grp.src64 (lowLane x.m) false f.b) x.m
      s.modGroup x.core x.slot fun g => g.setMask (kNum f.d) v

/-- The bits below bit i. -/
def belowMask (i : Nat) : Mask := maskOf fun j => decide (j < i)

def execMkcnt (f : FSub) (s : State) : Res :=
  issue s (.mkcnt f) f.guard fun x s => s.modCore x.core fun c =>
    c.writeDst x.slot x.m false false f.d fun j =>
      let a := x.grp.src64 j false f.a
      BitVec.ofNat 64 (popcount (if f.sub = 0 then a else a &&& belowMask j))

/-- The lane that `MKLANE` selects (R288), 64 for none. -/
def maskLane (sub : Nat) (a : Mask) (nth i : Nat) : Nat :=
  match sub with
  | 0 => (lanesOf a).headD 64
  | 1 => (lanesOf a).getLastD 64
  | 2 => (lanesOf a).getD nth 64
  | _ => ((lanesOf a).filter fun j => decide (i < j)).headD 64

def execMklane (f : FSub) (s : State) : Res :=
  issue s (.mklane f) f.guard fun x s => s.modCore x.core fun c =>
    c.writeDst x.slot x.m false false f.d fun j =>
      BitVec.ofNat 64 (maskLane f.sub.val (x.grp.src64 j false f.a) (x.grp.src32 j f.b).toNat j)

/-! ### R92 -/

/-- A word with a reserved opcode, a reserved setting, another class than its clause's, or a transfer out of place raises the
illegal-instruction trap when its slot is reached (R67, R75, R92, R93), for which no thread whose guard is false answers (R81). -/
def execReservedOpcodeIssue (w : BitVec 64) (s : State) : Res :=
  match s.group? s.cur.core s.cur.slot with
  | none => .fault .noGang
  | some g =>
    let x := s.gang g ((guardOfWord w).getD .always) none
    if x.m = 0 then .next (x.advance s) else .next (x.trap s 0x01 0 [w])

end Sys2Proof.Machine
end

