-- ==== Sys2Proof/Machine/Kernel.lean ====
section
/-! DEFINITION. The canal engine (R127–R135), the barge and its checks (R137–R142), the traverse and the placement of teams
(R119, R144, R145), and the end of a kernel (R143). -/

namespace Sys2Proof.Machine

/-! ### Fields of a barge (R138, R139) -/

def Kernel.field (k : Kernel) (lo n : Nat) : Nat := k.res.toNat / 2 ^ lo % 2 ^ n

def Kernel.groups (k : Kernel) : Nat := k.field 0 4 + 1
def Kernel.regs (k : Kernel) : Nat := k.field 4 8 + 1
def Kernel.localBytes (k : Kernel) : Nat := 256 * k.field 12 14
def Kernel.ntiles (k : Kernel) : Nat := k.field 26 6
def Kernel.nbar (k : Kernel) : Nat := k.field 32 7
def Kernel.clw (k : Kernel) : Nat := k.field 39 4
def Kernel.clh (k : Kernel) : Nat := k.field 43 4
def Kernel.prio (k : Kernel) : Nat := k.field 48 3
def Kernel.trav (k : Kernel) : Nat := k.field 51 2
def Kernel.idem (k : Kernel) : Bool := k.res.getLsbD 53
def Kernel.argc (k : Kernel) : Nat := k.field 54 5
def Kernel.nwait (k : Kernel) : Nat := k.field 59 3
def Kernel.gx (k : Kernel) : Nat := k.grid.toNat % 2 ^ 32 + 1
def Kernel.gy (k : Kernel) : Nat := k.grid.toNat / 2 ^ 32 % 2 ^ 16 + 1
def Kernel.gz (k : Kernel) : Nat := k.grid.toNat / 2 ^ 48 + 1

/-! ### The traverse (R144) -/

/-- The extents of the plane that the traverse runs over: teams, or clusters. -/
def Kernel.planeX (k : Kernel) : Nat := k.gx / max 1 k.clw
def Kernel.planeY (k : Kernel) : Nat := k.gy / max 1 k.clh

/-- The smallest m with n ≤ 2^m. -/
def ceilLog (n : Nat) : Nat := if 2 ^ Nat.log2 n < n then Nat.log2 n + 1 else Nat.log2 n

def Kernel.order (k : Kernel) : Nat := ceilLog (max k.planeX k.planeY)

/-- The number of the bits of d at positions 2i + b. -/
def everyOther (m b d : Nat) : Nat := ((List.range m).map fun i => d / 2 ^ (2 * i + b) % 2 * 2 ^ i).sum

/-- `HilbertXY(2^m, d)`. -/
def hilbertXY (m d : Nat) : Nat × Nat :=
  let r := (List.range m).foldl (fun (a : Nat × Nat × Nat) i =>
    let s := 2 ^ i
    let rx := a.2.2 / 2 % 2
    let ry := (a.2.2 ^^^ rx) % 2
    let p : Nat × Nat := if ry = 0 then (if rx = 1 then (s - 1 - a.2.1, s - 1 - a.1) else (a.2.1, a.1)) else (a.1, a.2.1)
    (p.1 + s * rx, p.2 + s * ry, a.2.2 / 4)) (0, 0, d)
  (r.1, r.2.1)

/-- The extents of a block of a custom traverse. -/
def Kernel.blockW (k : Kernel) : Nat := (k.travtab.headD 0).toNat % 16 + 1
def Kernel.blockH (k : Kernel) : Nat := (k.travtab.headD 0).toNat / 16 + 1

def ceilDiv (a b : Nat) : Nat := (a + b - 1) / b

/-- Places of one plane, those outside it counted. -/
def Kernel.planeLen (k : Kernel) : Nat :=
  match k.trav with
  | 0 => k.planeX * k.planeY
  | 1 | 2 => 4 ^ k.order
  | _ => ceilDiv k.planeX k.blockW * ceilDiv k.planeY k.blockH * (k.blockW * k.blockH)

/-- Place d of a plane. -/
def Kernel.cell (k : Kernel) (d : Nat) : Nat × Nat :=
  match k.trav with
  | 0 => (d % k.planeX, d / k.planeX)
  | 1 => (everyOther k.order 0 d, everyOther k.order 1 d)
  | 2 => hilbertXY k.order d
  | _ =>
    let area := k.blockW * k.blockH
    let c := (k.travtab.getD (1 + d % area) 0).toNat
    let row := ceilDiv k.planeX k.blockW
    (d / area % row * k.blockW + c % 16, d / area / row * k.blockH + c / 16)

/-- The first place at or after r that lies in its plane, with its coordinates; `n` places are looked at. -/
def Kernel.seek (k : Kernel) (r : Nat) : Nat → Option (Nat × Nat × Nat × Nat)
  | 0 => none
  | n + 1 =>
    let p := k.cell (r % k.planeLen)
    if p.1 < k.planeX ∧ p.2 < k.planeY then some (r, p.1, p.2, r / k.planeLen) else k.seek (r + 1) n

/-- The next place of the hand-out order (R144): its index and (x, y, z). -/
def Kernel.nextPlace (k : Kernel) (r : Nat) : Option (Nat × Nat × Nat × Nat) := k.seek r (k.planeLen * k.gz - r)

/-! ### The check of a barge (R140) -/

/-- Words at consecutive virtual addresses of a context; none where one does not translate. -/
def State.getWords (s : State) (ctx va n : Nat) : Option (List Word64) :=
  (List.range n).mapM fun i => (s.getVa ctx (va + 8 * i) 8).map (BitVec.ofNat 64)

/-- What the check of a prospective head finds. -/
inductive BargeCheck
  /-- Nothing is taken (R129). -/
  | fault
  | malformed (k : Kernel)
  | overBudget (k : Kernel)
  | passed (k : Kernel)

/-- The limits of R137–R139 and the cluster rules.  A link word may name an address that is not 128-byte aligned, for which R140 lists no
check: such a barge is malformed (log 17). -/
def Kernel.limitsOk (k : Kernel) (travtab args : Word64) : Bool :=
  k.res.toNat / 2 ^ 62 == 0 && !k.res.getLsbD 47 && decide (k.nwait ≤ 4) && decide (k.argc ≤ 16) && decide (k.clw ≤ 8) && decide (k.clh ≤ 8)
    && decide (k.nbar ≤ 64) && decide (k.ntiles ≤ 32) && decide (k.field 12 14 ≤ 8192) && decide (k.gx * k.gy * k.gz ≤ 2 ^ 32)
    && ((k.clw == 0) == (k.clh == 0)) && decide (k.clw * k.clh ≤ 12)
    && (k.clw == 0 || (k.gx % k.clw == 0 && k.gy % k.clh == 0))
    && (k.trav == 3 || travtab == 0) && travtab.toNat % 64 == 0 && k.entry.toNat % 16 == 0
    && (k.argc == 0 || args.toNat % 8 == 0) && k.done.toNat % 8 == 0 && k.barge.toNat % 128 == 0

/-- The table of a custom traverse is a permutation of its block's cells (R144). -/
def Kernel.tableOk (k : Kernel) : Bool :=
  (List.range k.blockH).all fun y => (List.range k.blockW).all fun x =>
    (((k.travtab.drop 1).take (k.blockW * k.blockH)).countP fun b => b.toNat == 16 * y + x) == 1

/-- Whether one team, or one cluster with a team on each core, exceeds the context's budget (R119). -/
def State.overBudget (s : State) (k : Kernel) : Bool :=
  let c := s.ctx k.ctx
  decide (c.regw < k.groups * k.regs) || decide (4096 * c.localU < k.localBytes) || decide (c.tilesMax < k.ntiles)

/-- The address of a completion counter: none where it does not translate, false where R140 forbids it. -/
def State.doneOk (s : State) (k : Kernel) : Option Bool :=
  if k.done = 0 then some true
  else
    match s.lookup k.ctx (vaBits k.done) .store with
    | .error _ => none
    | .ok (dpa, _, _) => some (!isHostDie dpa && !isLink dpa && ((s.regionAt dpa).all fun r => r.view.isNone))

/-- The check of the barge at an address (R140).  An argument block that does not translate takes nothing either (log 17). -/
def State.checkBarge (s : State) (canal : Nat) (c : Canal) (b : Word64) : BargeCheck :=
  let va := vaBits b
  match s.getWords c.ctx va 16 with
  | none => .fault
  | some w =>
    let at_ := fun i => w.getD i 0
    let k : Kernel :=
      { barge := b, ctx := c.ctx, canal := canal, st := .enqueued, kcode := 0, entry := at_ 1, args := [], grid := at_ 3, res := at_ 4,
        travtab := [], done := at_ 6, waits := [], met := [], due := none, next := 0, lastCore := none, live := 0, committed := [], gwct := 0,
        again := [] }
    if !k.limitsOk (at_ 5) (at_ 2) then .malformed k
    else
      let k := { k with waits := (List.range k.nwait).map fun j => (at_ (8 + 2 * j), at_ (9 + 2 * j)) }
      let len := if k.trav = 3 then (s.getVa c.ctx (vaBits (at_ 5)) 1).map fun x => 1 + (x % 16 + 1) * (x / 16 + 1) else some 0
      match len.bind fun n => (List.range n).mapM fun i => (s.getVa c.ctx (vaBits (at_ 5) + i) 1).map (BitVec.ofNat 8),
            s.lookup c.ctx (vaBits k.entry) .fetch, s.getWords c.ctx (vaBits (at_ 2)) k.argc, s.doneOk k with
      | some tab, .ok (dpa, _, _), some args, some done =>
        let k := { k with travtab := tab, args := args }
        if (k.trav = 3 ∧ !k.tableOk) ∨ !hasSig (BitVec.ofNat 64 (s.coherentNat dpa 8)) ∨ !done then .malformed k
        else if s.overBudget k then .overBudget k
        else .passed k
      | _, _, _, _ => .fault

/-! ### The canal engine (R129, R131, R134) -/

/-- A canal becomes Faulted, and the host is told (R134, R135). -/
def State.faultCanal (s : State) (n : Nat) (c : Canal) (code : Nat) : State :=
  (s.setCanal n { c with st := .faulted, fcode := code }).post
    { cls := 3, code := code, ctx := c.ctx, core := 0xFF, slot := 0xFF, arg0 := BitVec.ofNat 64 n, arg1 := c.cursor }

/-- The A bits of pages that the canal engine has read (R175). -/
def State.touch (s : State) (ctx : Nat) (l : List (Word64 × Need)) : State :=
  l.foldl (fun s x => match s.translateAt ctx (vaBits x.1) x.2 with
    | .ok (s, _) => s
    | .error _ => s) s

/-- The engine has read a barge: the A bit of its page, and what the host held of its two halves is performed (R175, R227). -/
def State.readBarge (s : State) (ctx : Nat) (b : Word64) : State :=
  match s.translateAt ctx (vaBits b) .load with
  | .ok (s, dpa) => ((s.dropHalf dpa).1.dropHalf (dpa + 64)).1
  | .error _ => s

/-- The STATUS of a kernel that never becomes one of the device's. -/
def State.abortBarge (s : State) (ctx : Nat) (barge : Word64) (kcode : Nat) : State :=
  (s.putVa ctx (vaBits barge + 0x38) (leBytes 8 (statusWord .aborted kcode))).getD s

/-- The waits of a head that are met now or were met before, and whether a wait word does not translate (R131). -/
def State.evalWaits (s : State) (k : Kernel) : List Nat × Bool :=
  (List.range k.waits.length).foldl (fun (acc : List Nat × Bool) j =>
    let w := k.waits.getD j (0, 0)
    if acc.1.contains j then acc
    else
      match s.peekVa k.ctx (vaBits w.1) with
      | none => (acc.1, true)
      | some x => if w.2.toNat ≤ x then (acc.1 ++ [j], acc.2) else acc) (k.met, false)

/-- A kernel leaves the device. -/
def State.dropKernel (s : State) (id : Nat) : State := { s with kernels := del s.kernels id }

/-- The head's waits are evaluated, and the canal shows its state (R131, R134); a head whose state is not yet written stands as it is, one
that failed its check ends (R140, R141). -/
def State.evalHead (s : State) (n : Nat) (c : Canal) (id : Nat) (k : Kernel) : State :=
  let shown := fun (st : CanalSt) => { c with st := st, hprio := k.prio }
  match k.st with
  | .enqueued => s.setCanal n (shown .waiting)
  | .waiting =>
    let (met, bad) := s.evalWaits k
    let s := (s.touch c.ctx (k.waits.map fun w => (w.1, .load))).modKernel id fun k => { k with met := met }
    if bad then s.faultCanal n (shown c.st) 0x03
    else if met.length ≠ k.waits.length ∨ k.due.isSome then s.setCanal n (shown .waiting)
    else
      let s := s.setKernel id .dispatching 0
      s.setCanal n (shown (if (s.kernel? id).any fun k => k.st == .dispatching then .eligible else .waiting))
  | .dispatching => s.setCanal n (shown (if k.next = 0 then .eligible else .dispatching))
  | .aborted =>
    if k.kcode = 0x02 then (s.dropKernel id).faultCanal n { c with head := none } 0x02
    else (s.dropKernel id).setCanal n { c with head := none, st := .waiting }
  | _ => s.setCanal n { c with head := none }

/-- The engine takes a head: CURSOR, TAKEN and STATE are written, and then the kernel's STATUS (R129, R141). -/
def State.adopt (s : State) (n : Nat) (c : Canal) (k : Kernel) (st : KernelSt) (kcode : Nat) : State :=
  let (id, s) := s.take
  let s : State := { s with kernels := put s.kernels id k }
  let c := { c with head := some id, hprio := k.prio, st := .waiting }
  let s := (s.setCanal n c).setKernel id st kcode
  match st, s.kernel? id with
  | .aborted, some k => s.evalHead n c id k
  | _, _ => s

/-- The engine looks for the next head from CURSOR (R129), checks it, and takes it.  HPRIO while there is no head is 0, and under FCODE 0x01
that of the last head: the manual gives the head's only (log 17). -/
def State.takeHead (s : State) (n : Nat) (c : Canal) : State :=
  let c := { c with head := none }
  match s.peekVa c.ctx (vaBits c.cursor), s.peekVa c.ctx (vaBits c.record) with
  | some next, some tail =>
    let s := s.touch c.ctx [(c.cursor, .load), (c.record, .load)]
    if next = 0 then s.setCanal n { c with st := if tail = c.cursor.toNat then .empty else .linking, hprio := 0 }
    else
      let b := BitVec.ofNat 64 next
      let taken := { c with cursor := b, taken := c.taken + 1 }
      match s.checkBarge n c b with
      | .fault => s.faultCanal n c 0x01
      | .malformed k => (s.readBarge c.ctx b).adopt n taken k .aborted 0x02
      | .overBudget k => (s.readBarge c.ctx b).adopt n taken k .aborted 0x10
      | .passed k =>
        ((s.readBarge c.ctx b).touch c.ctx ((k.entry, .fetch) :: if k.done = 0 then [] else [(k.done, .store)])).adopt n taken k .waiting 0
  | _, _ => s.faultCanal n c 0x01

/-- The canal engine acts on a canal, as it stands (R134).  A canal that is created or resumed while its context is Suspended or Faulted is
Held at once, which the table of R134 does not list (log 17). -/
def State.canalAct (s : State) (n : Nat) (c : Canal) : State :=
  let st := (s.ctx c.ctx).state
  if st ≠ .running ∧ st ≠ .ready then s.setCanal n { c with st := .held }
  else
    match c.head, c.head.bind s.kernel? with
    | some id, some k => s.evalHead n c id k
    | _, _ => s.takeHead n c

/-- The canal engine acts on a canal that is not Faulted. -/
def State.canalStep (s : State) (n : Nat) : State :=
  match s.canal? n with
  | none => s
  | some c => if c.st = .faulted then s else s.canalAct n c

/-- The engine has something to do at a canal. -/
def State.canalDue (s : State) (n : Nat) : Bool :=
  let t := s.canalStep n
  decide (t.canals ≠ s.canals) || decide (t.kernels ≠ s.kernels)

def execCanalWatchStore (canal : Nat) (s : State) : Res := .next ((s.canalStep canal).afterStore s)

/-! ### Placement (R119, R145) -/

/-- The cores of a test unit (R412): units in round-robin order across the dies. -/
def unitCores (u : Nat) : List Nat :=
  let a := 64 * (u % 4) + 2 * (u / 4 % 4) + 32 * (u / 16 % 2)
  (List.range 4).flatMap fun y => (List.range 2).map fun x => a + 8 * y + x

/-- A core that teams may be placed on: its die's cores are ready, it is in service, and its test unit is not being drained
(R408, R412, R421). -/
def State.placeable (s : State) (core : Nat) : Bool :=
  s.devstat.getLsbD (16 + dieOf core) && (s.core core).inService && !(s.test.draining.any fun u => (unitCores u).contains core)

/-- Words per lane of a core that no team holds; the words of groups that are swapped out are lent back (R156). -/
def Core.freeWords (c : Core) : Nat :=
  4096 + ((c.groups.filter fun g => g.2.lent).map fun g => g.2.quota).sum
    - (c.teams.map fun t => t.2.ngroups * t.2.regs).sum

/-- A group that is saved waits only for its context and for room: what had taken it out is over (R161, R413). -/
def Group.mayReturn (g : Group) : Bool :=
  g.halt != .stopped false && match g.hold with
    | .none | .pageFault true | .debug true => true
    | _ => false

/-- Words that groups whose fault is cleared wait for (R161). -/
def Core.owedWords (c : Core) : Nat :=
  ((c.groups.filter fun g => g.2.lent && g.2.mayReturn).map fun g => g.2.quota).sum

/-- The sum of a quantity over the teams that satisfy p. -/
def Core.sumTeams (c : Core) (p : Team → Bool) (f : Team → Nat) : Nat := ((c.teams.filter fun t => p t.2).map fun t => f t.2).sum

/-- Whether a core can take a team of a kernel (R119, R145). -/
def State.canTake (s : State) (k : Kernel) (core : Nat) : Bool :=
  let c := s.core core
  let x := s.ctx k.ctx
  let here := fun (t : Team) => !t.released
  let mine := fun (t : Team) => t.ctx == k.ctx
  s.placeable core && decide (k.groups + c.groups.length ≤ 32) && decide (k.groups * k.regs + c.owedWords ≤ c.freeWords)
    && decide (k.localBytes + c.sumTeams here (·.localBytes) ≤ 2 ^ 21) && decide (k.ntiles + c.sumTeams here (·.tiles.length) ≤ 32)
    && decide (k.nbar + c.sumTeams here (·.nbar) ≤ 64)
    && decide (k.groups * k.regs + c.sumTeams mine (fun t => t.ngroups * t.regs) ≤ x.regw)
    && decide (k.localBytes + c.sumTeams mine (·.localBytes) ≤ 4096 * x.localU)
    && decide (k.ntiles + c.sumTeams mine (·.tiles.length) ≤ x.tilesMax)

/-- A core returns to On (R422). -/
def Core.wake (c : Core) (now : Nat) : Core :=
  match c.power with
  | .on => c
  | .idle => { c with power := .on, powerSince := now }
  | .gated => { c with power := .on, powerSince := now, gatedTicks := c.gatedTicks + (now - c.powerSince) }

/-- The argument words as the first `g` registers (R63). -/
def Kernel.argRegs (k : Kernel) : SMap Word64 := (List.range k.args.length).map fun j => (j, k.args.getD j 0)

/-- A group as it is placed (R63, R145). -/
def Group.new (k : Kernel) (team idx : Nat) : Group :=
  { ctx := k.ctx, team := team, idx := idx, gst := .pending, quota := k.regs,
    threads := List.replicate 64 { pc := k.entry, path := 0, st := .ready, held := false, entry := 0, stall := none, refetch := false,
                                   blocked := false, since := 0 },
    v := [], q := [], l := [], g := k.argRegs, k := [], flags := [], entries := [], issues := [], gwct := 0, stores := [], acked := [],
    arrivals := [], trap := .blank, due := [], hold := .none, halt := .none, view := [], lent := false, recent := [], savedAt := none, promoted := 0,
    readySince := none, yielded := false, seenG := k.argRegs, seenK := [], seenFlags := [], acted := 0, woken := 0, stepping := 0 }

/-- A team as it is placed (R145, R156). -/
def Team.new (k : Kernel) (id : Nat) (pos : Word64) (cx cy anchor relaunches : Nat) : Team :=
  { ctx := k.ctx, kernel := id, pos := pos, ngroups := k.groups, clx := cx, cly := cy, clw := k.clw, clh := k.clh, anchor := anchor,
    regs := k.regs, entry := k.entry, args := k.args, ready := 0, justSet := 0, stampBase := 0, stampCtl := 0, localBytes := k.localBytes, mem := [],
    poison := [], names := BitVec.ofNat 32 (2 ^ k.ntiles - 1), tiles := (List.range k.ntiles).map fun i => (i, Tile.zero), nbar := k.nbar,
    bars := [], windows := [], seals := [], free := 0, queue := [],
    status := { prog := 0, fcode := 0, cause := 0, mode := 0, faulted := false }, idem := k.idem, uncommitted := [],
    relaunches := relaunches, released := false, savedAt := none }

/-- Put a team and its groups, in the lowest free slots, on a core. -/
def State.putTeam (s : State) (core : Nat) (k : Kernel) (t : Team) : State :=
  let (id, s) := s.take
  s.modCore core fun c =>
    let c := c.wake s.ticks
    let c := { c with teams := put c.teams id t }
    (List.range k.groups).foldl (fun (c : Core) i =>
      match freeKey c.groups 32 with
      | some slot => { c with groups := put c.groups slot (Group.new k id i) }
      | none => c) c

/-- The cores of a rectangle with their places in it, or the one core of a grid without clusters. -/
def Kernel.rect (k : Kernel) (anchor : Nat) : List (Nat × Nat × Nat) :=
  (List.range (max 1 k.clh)).flatMap fun y => (List.range (max 1 k.clw)).map fun x => (x, y, anchor + 8 * y + x)

/-- Whether a rectangle lies on one die. -/
def Kernel.fits (k : Kernel) (anchor : Nat) : Bool :=
  k.clw == 0 || (decide (anchor % 8 + k.clw ≤ 8) && decide (anchor / 8 % 8 + k.clh ≤ 8))

/-- The anchor at which the team or cluster is placed: the first after the core of the kernel's previous team (R145), other than
`not` (R146). -/
def State.findAnchor (s : State) (k : Kernel) (not : Option Nat) : Option Nat :=
  let from_ := match k.lastCore with
    | some c => c + 1
    | none => 0
  ((List.range 256).map fun i => (from_ + i) % 256).find? fun a =>
    some a != not && k.fits a && (k.rect a).all fun p => s.canTake k p.2.2

/-- The place of a team in its grid, as `TEAM.POS`. -/
def posWord (x y z : Nat) : Word64 := BitVec.ofNat 64 (z * 2 ^ 48 + y * 2 ^ 32 + x)

/-- Place the team or cluster at (x, y, z) of the traverse; the number of teams is added to the kernel's. -/
def State.placeAt (s : State) (id : Nat) (k : Kernel) (x y z anchor relaunches : Nat) : State :=
  let r := k.rect anchor
  let s := r.foldl (fun (s : State) p =>
    s.putTeam p.2.2 k (Team.new k id (posWord (x * max 1 k.clw + p.1) (y * max 1 k.clh + p.2.1) z) p.1 p.2.1 anchor relaunches)) s
  s.modKernel id fun k => { k with live := k.live + r.length, lastCore := some (r.foldl (fun m p => max m p.2.2) 0) }

/-! ### The distributor (R133) -/

/-- A canal whose head has its next team handed out; none where it cannot be placed now. -/
def State.handOut (s : State) (n : Nat) : Option State :=
  match s.canal? n with
  | none => none
  | some c =>
    match c.head, c.head.bind s.kernel? with
    | some id, some k =>
      match k.nextPlace k.next with
      | none => none
      | some (r, x, y, z) =>
        match s.findAnchor k none with
        | none => none
        | some a =>
          let s := (s.placeAt id k x y z a 0).modKernel id fun k => { k with next := r + 1 }
          let s := s.setCanal n { c with st := .dispatching }
          if (k.nextPlace (r + 1)).isSome then some s
          else
            let s := s.setKernel id .running 0
            some (s.setCanal n { c with st := .dispatching, head := if (s.kernel? id).any fun k => k.st == .running then none else some id })
    | _, _ => none

/-- Canals that have a team to hand out, in the order of R133. -/
def State.turnOrder (s : State) : List Nat :=
  let ready := (keysOf s.canals).filter fun n =>
    match s.canal? n with
    | some c => (c.st == .eligible || c.st == .dispatching) && (s.ctx c.ctx).state == .running && ((c.head.bind s.kernel?).any fun k => k.st == .dispatching)
    | none => false
  (List.range 8).reverse.flatMap fun p =>
    let l := ready.filter fun n => (s.canal? n).any fun c => c.hprio == p
    match get? s.lastCanal p with
    | some x => (l.filter fun n => decide (x < n)) ++ l.filter fun n => decide (n ≤ x)
    | none => l

/-- A team or cluster of a relaunch is placed again (R146). -/
def State.placeAgain (s : State) : Option State :=
  (keysOf s.kernels).findSome? fun id =>
    match s.kernel? id with
    | none => none
    | some k =>
      match k.again with
      | [] => none
      | (x, y, z, n, old) :: rest =>
        if (s.ctx k.ctx).state ≠ .running ∨ !k.going then none
        else
          match s.findAnchor k (some old) with
          | none => none
          | some a => some ((s.placeAt id k x y z a n).modKernel id fun k => { k with again := rest })

/-- A turn: the state after it, or none where nothing can be placed.  Relaunches come first (log 17). -/
def State.turn (s : State) : Option State :=
  match s.placeAgain with
  | some t => some t
  | none =>
    s.turnOrder.findSome? fun n =>
      match s.canal? n, s.handOut n with
      | some c, some t => some { t with lastCanal := put t.lastCanal c.hprio n }
      | _, _ => none

def execDistributorTurn (s : State) : Res := .next ((s.turn.getD s).afterStore s)

/-! ### The end of a kernel (R142, R143) -/

/-- The add at DONE: the state after it, with the kernel gone; as it was where the add waits at its home. -/
def State.addDone (s : State) (id : Nat) (k : Kernel) : State :=
  let gone := fun (s : State) => { s with kernels := del s.kernels id }
  let failed := fun (s : State) => (gone s).post
    { cls := 3, code := 0x04, ctx := k.ctx, core := 0xFF, slot := 0xFF, arg0 := BitVec.ofNat 64 k.canal, arg1 := k.barge }
  if k.done = 0 then gone s
  else
    match s.translateAt k.ctx (vaBits k.done) .store with
    | .error _ => failed s
    | .ok (t, dpa) =>
      if isHostDie dpa || isLink dpa || (t.regionAt dpa).any fun r => r.view.isSome then failed s
      else
        let who : Instr := .kernelComplete id
        match t.homeRead who dpa 8 with
        | (t, none) => t
        | (t, some old) =>
          match t.homeWrite who dpa 8 (fun i => (leBytes 8 (leNat old + 1))[i]?) none with
          | (t, none) => t
          | (t, some _) => gone t

/-- A kernel goes on at its end: a STATUS write that was held is performed; a Running kernel without teams drains; a Draining one, whose teams
have retired with their stores performed, becomes Complete; the add at DONE follows, with release (R141–R143). -/
def State.kernelEnds (s : State) (id : Nat) : State :=
  match s.kernel? id with
  | none => s
  | some k =>
    match k.due with
    | some (st, kcode) => s.setKernel id st kcode
    | none =>
      if k.live = 0 ∧ k.st = .running ∧ k.again.isEmpty then s.setKernel id .draining 0
      else if k.live = 0 ∧ k.st = .draining then s.setKernel id .complete 0
      else if k.st = .complete ∧ k.gwct ≤ s.ns then s.addDone id k
      else s

def execKernelComplete (kernel : Nat) (s : State) : Res := .next ((s.kernelEnds kernel).afterStore s)

end Sys2Proof.Machine
end

