-- ==== Sys2Proof/Machine/Residency.lean ====
section
/-! DEFINITION. Groups on their core: the ends that the keepers give to traps (R161–R164, R431), saving and restoring (R124, R160,
R161, R413), relaunch (R146), the two-level scheduler (R151, R154), and the retiring of groups and teams (R156, R280). -/

namespace Sys2Proof.Machine

/-! ### Errors that a team cannot absorb (R146, R411) -/

/-- The INFO word and the five trap words of a group's record (R122). -/
def State.faultRecord (s : State) (core slot : Nat) : List Word64 :=
  match s.group? core slot with
  | none => []
  | some g => BitVec.ofNat 64 (g.info core slot) :: (List.range 5).map fun i => g.trap.words.getD i 0

/-- The teams of a team's cluster, with their cores; a team without a cluster alone. -/
def State.clusterOf (s : State) (core team : Nat) : List (Nat × Nat) :=
  match s.team? core team with
  | none => []
  | some t =>
    if t.clw = 0 then [(core, team)]
    else s.cores.flatMap fun c => (c.2.teams.filter fun q => sameCluster q.2 t).map fun q => (c.1, q.1)

/-- Take a team off its core: its groups, operations, locks, binding and buffered stores go with it. -/
def Core.dropTeam (c : Core) (team : Nat) : Core :=
  let gone := (c.ops.filter fun o => o.team == team).map (·.id)
  let c : Core := { c with groups := c.groups.filter (fun g => g.2.team != team), teams := del c.teams team,
                           ops := c.ops.filter (fun o => o.team != team), locks := c.locks.filter (fun l => !gone.contains l.op),
                           binding := c.binding.filter (fun b => b.team != team),
                           rule := if c.binding.any fun b => b.team == team then [] else c.rule }
  c.unblock

/-- A core that no group is resident on any longer starts to count its idle time (R422). -/
def Core.quiesce (c : Core) (now : Nat) : Core := if c.groups.isEmpty && c.power == .on then { c with powerSince := now } else c

/-- An uncorrectable error has struck a team (R146, R411): its cluster is placed again from its entry, or its context becomes
Faulted with KCODE 0x21. -/
def State.strike (s : State) (core team slot : Nat) : State :=
  match s.team? core team with
  | none => s
  | some t =>
    let all := s.clusterOf core team
    let ok := all.all fun p => ((s.team? p.1 p.2).any fun q => q.idem) 
    let n := if t.clw = 0 then 1 else t.clw * t.clh
    if ok ∧ all.length = n ∧ t.relaunches < 2 ∧ (s.ctx t.ctx).state ≠ .faulted then
      let s := all.foldl (fun (s : State) p => s.modCore p.1 fun c => (c.dropTeam p.2).quiesce s.ticks) s
      let x := (t.px - t.clx) / max 1 t.clw
      let y := (t.py - t.cly) / max 1 t.clh
      s.modKernel t.kernel fun k =>
        { k with live := k.live - n, again := k.again ++ [(x, y, t.pz, t.relaunches + 1, if t.clw = 0 then core else t.anchor)] }
    else s.faultCtx t.ctx 0x21 (some t.kernel) (s.faultRecord core slot) core slot

/-! ### Saving (R124, R160, R161, R413) -/

/-- Write a group's record, and lend its main-register words to the core (R156, R161). -/
def State.swapOut (s : State) (core slot : Nat) (hold : Hold) : State :=
  let s := (s.modGroup core slot Group.cancelColl).saveRecord core slot
  s.modGroup core slot fun g => { g with gst := if g.halt = .none then .swappedOut else g.gst, lent := true, hold := hold }

/-- Write a team's record into the save area of its context (R124; its place: log 11). -/
def State.saveTeam (s : State) (core team : Nat) : State :=
  match s.team? core team with
  | none => s
  | some t =>
    let r := t.record
    match t.savedAt.map (·.1) <|> s.savePlace t.ctx r.length with
    | some a => (s.rawWrite a r).modTeam core team fun t => { t with savedAt := some (a, r.length) }
    | none => s

/-- Every window of a team is written back, and its words become Invalid; it stays mapped (R344). -/
def State.flushWindows (s : State) (core slot team : Nat) : State :=
  match s.team? core team with
  | none => s
  | some t =>
    let (op, s) := s.take
    let s := (keysOf t.windows).foldl (fun (s : State) k => s.writeBack core slot team k op Window.dirty) s
    s.modTeam core team fun t => { t with windows := t.windows.map fun w => (w.1, { w.2 with words := [], leases := [] }) }

/-- Something is still at work in a team's memory: a local access left to perform, from any core, or a write lock on one of its windows; a
save of the team waits for it (R211, R344). -/
def State.teamBusy (s : State) (core team : Nat) : Bool :=
  s.banksOn { core := core, team := team, off := 0 } (2 ^ 21) false || (s.windowsOf core team).any fun w => s.windowLocked core team w.2

/-- The live groups of a team. -/
def Core.liveGroups (c : Core) (team : Nat) : List (Nat × Group) := c.groups.filter fun g => g.2.team == team && g.2.gst != .exited

/-- A team's record is written, and its windows go back to their homes (R124, R344). -/
def State.saveWhole (s : State) (core slot team : Nat) : State := (s.saveTeam core team).flushWindows core slot team

/-- A group is swapped out at a breakpoint or watchpoint. -/
def Group.debugged (g : Group) : Bool :=
  match g.hold with
  | .debug _ => true
  | _ => false

/-- A team all of whose live groups are swapped out at breakpoints or watchpoints is saved, and its local memory, tiles and barrier
objects are released (R413). -/
def State.releaseTeam (s : State) (core slot team : Nat) : State :=
  if (s.core core).liveGroups team |>.all fun g => g.2.debugged then
    (s.saveWhole core slot team).modTeam core team fun t => { t with released := true }
  else s

/-- Whether a copy of a group stands at a translation fault (R348). -/
def Core.stoppedCopy (c : Core) (slot : Nat) : Bool := c.ops.any fun o => o.slot == slot && match o.kind with
  | .copy y => y.stopped
  | _ => false

/-- A keeper forwards a group's trap as a class 1 event (R400). -/
def State.forward (s : State) (core slot : Nat) (g : Group) : State :=
  s.queueEvent { cls := 1, code := g.trap.code, ctx := g.ctx, core := core, slot := slot, arg0 := g.trap.pc, arg1 := g.trap.words.headD 0 }

/-- The keeper's end of a trap that a group has raised (R431).  A save waits for what R160 names. -/
def State.endTrap (s : State) (core slot : Nat) (g : Group) : State :=
  let stop := fun (s : State) => s.modGroup core slot Group.takeTrap
  let live := g.gst != .exited
  match g.trap.code with
  | 0x70 => ((stop s).modGroup core slot fun g => { g with hold := .forwarded 0x70 false, halt := .suspended true }).strike core g.team slot
  | 0x10 =>
    let tell := fun (s : State) => s.queueEvent
      { cls := 2, code := (g.trap.words.headD 0).toNat % 256, ctx := g.ctx, core := core, slot := slot, arg0 := g.trap.addr, arg1 := 0 }
    if !live then tell (s.modGroup core slot fun g => { g with hold := .pageFault false })
    else if (s.core core).quiet slot then tell ((stop s).swapOut core slot (.pageFault false))
    else s
  | 0x51 | 0x53 =>
    if !live then (s.modGroup core slot fun g => { g with hold := .forwarded g.trap.code false }).forward core slot g
    else if (s.core core).quiet slot && !(((s.core core).liveGroups g.team).all (fun h => h.1 == slot || h.2.debugged) && s.teamBusy core g.team) then
      (((stop s).swapOut core slot (.debug false)).releaseTeam core slot g.team).forward core slot g
    else s
  | code => ((stop s).modGroup core slot fun g => { g with hold := .forwarded code false }).forward core slot g

/-- The copies of a group stand at their progress pointers, and their locks cover what is not yet done (R124, R231). -/
def Core.shrinkCopies (c : Core) (slot : Nat) : Core :=
  c.ops.foldl (fun c o => match o.kind with
    | .copy y => if o.slot == slot && y.gather.isNone && !y.done then c.shrinkLocks o.id y else c
    | _ => c) c

/-- An operation of the matrix engine or of the grammar evaluator of a team is at work. -/
def Core.engineBusy (c : Core) (team : Nat) : Bool := c.ops.any fun o => o.team == team && o.started && (o.kind.matrix || o.kind.evaluator)

/-- A group stopped for the suspension of its context is saved; with the last of its team, so is the team, once the operations that its
engines have begun are complete (R124, R344). -/
def State.endSuspend (s : State) (core slot : Nat) (g : Group) : State :=
  let last := !(s.core core).groups.any fun h => h.1 != slot && h.2.team == g.team && h.2.halt == .suspended false
  if !(s.core core).quiet slot || (last && ((s.core core).engineBusy g.team || s.teamBusy core g.team)) then s
  else
    let s := (s.modGroup core slot Group.cancelColl).saveRecord core slot
    let s := s.modCore core fun c => (c.modGroup slot fun g => { g with halt := .suspended true }).shrinkCopies slot
    if last then s.saveWhole core slot g.team else s

/-- A precise stop's dump is written once, and the trap of the `HALT` that made it is then forwarded (R415, R431). -/
def State.endStop (s : State) (core : Nat) : State :=
  match (s.core core).stop with
  | none => s
  | some z =>
    let t := s.writeDump core
    let now := ((t.core core).stop.any fun z => z.dumped) && !z.dumped
    match z.halter.bind fun h => (t.group? core h.1).map fun g => (h, g) with
    | some (h, g) =>
      if now && z.code == 0x54 then
        t.forward core h.1 { g with trap := { code := 0x54, addr := 0, pc := h.2, words := [BitVec.ofNat 64 z.n] } }
      else t
    | none => t

/-- The lowest slot of the groups that a precise stop has frozen. -/
def Core.firstStopped (c : Core) : Option Nat :=
  match c.stop with
  | none => none
  | some z => ((c.groups.filter fun g => g.2.halt == .stopped false && g.2.ctx == z.ctx).map (·.1)).head?

/-! ### Keepers (R24, R163) -/

/-- Nothing stops a group. -/
def Group.free (g : Group) : Bool := g.hold == .none && g.halt == .none

/-- A keeper of a die that works. -/
def State.keeperAlive (s : State) (die i : Nat) : Bool := s.devstat.getLsbD (4 + die) && !s.deadKeepers.contains (4 * die + i)

/-- The keeper of a core: of its die, with the index Floor(y / 2), or its stand-in where that keeper has failed, which is the lowest that
works (log 18).  None where no keeper of the die works: nothing then takes a trap of its cores, which is the model's choice. -/
def State.keeperOf (s : State) (core : Nat) : Option Nat :=
  let own := core / 8 % 8 / 2
  (own :: List.range 4).find? (s.keeperAlive (dieOf core))

/-- A stopped group is handed to its keeper (R51, R163), and the keeper does what is due; for a group that is swapped out at a breakpoint or
watchpoint that is the release of its team, where another's exit has made it due (R413). -/
def State.trapStop (s : State) (core slot : Nat) : State :=
  match s.group? core slot, s.keeperOf core with
  | some g, some _ =>
    match g.hold, g.halt with
    | .trapped, _ => s.endTrap core slot g
    | _, .suspended false => s.endSuspend core slot g
    | _, .stopped false => if (s.core core).firstStopped = some slot then s.endStop core else s
    | .debug false, .none => if s.teamBusy core g.team || ((s.team? core g.team).all fun t => t.released) then s else s.releaseTeam core slot g.team
    | _, _ => s
  | _, _ => s

def execGroupTrapStop (core slot : Nat) (s : State) : Res := .next ((s.trapStop core slot).afterStore s)

/-- An event of a group is held at its keeper: the group stays stopped (R401). -/
def State.eventHeld (s : State) (core slot : Nat) : Bool :=
  s.events.held.any fun e => (e.cls == 1 || e.cls == 2) && e.core == core && e.slot == slot

/-! ### Resuming through the divergence register window (R164) -/

/-- A word of a view as the keeper writes it: the group, and the code pointers written. -/
def Group.viewWrite (g : Group) (off : Nat) (v : Word64) : Group :=
  let at_ := fun (b : Nat) => (off - b) / 8
  if off < 8 then g
  else if off < 0x10 then { g with flags := (List.range 12).map fun f => (f, v.toNat / 16 ^ f % 16) }
  else if off < 0x18 then { g with trap := { g.trap with addr := v } }
  else if off < 0x40 then { g with trap := { g.trap with words := (List.range 5).map fun i => if i = at_ 0x18 then v else g.trap.words.getD i 0 } }
  else if off < 0xA0 then { g with k := put g.k (at_ 0x40) v }
  else if off < 0x100 then g
  else if off < 0x300 then { g with g := put g.g (at_ 0x100) v }
  else if off < 0x500 then
    g.onThreads (laneBit (at_ 0x300)) fun _ t => { t with pc := v, entry := if t.pc = v then t.entry else 0 }
  else if off < 0x600 then
    (g.onThreads (laneBit (2 * at_ 0x500)) fun _ t => { t with path := (lo32 v).extractLsb' 16 16 }).onThreads (laneBit (2 * at_ 0x500 + 1))
      fun _ t => { t with path := (hi32 v).extractLsb' 16 16 }
  else
    let word := fun (r : RReg) (i : Nat) (g : Group) =>
      (g.setReg r (laneBit i) fun _ => lo32 v).setReg r (laneBit (i + 1)) fun _ => hi32 v
    let o := (off - 0x600) / 256
    let i := (off - 0x600) % 256 / 4
    if off < 0x800 + 0x600 then word (.q o) i g
    else if off < 0x1000 then word (.l (o - 8)) i g
    else
      let n := (off - 0x1000) / 256
      if n < g.quota then word (.v n) ((off - 0x1000) % 256 / 4) g else g

/-- The status word that a list of writes leaves for a thread (R160). -/
def viewStatus (g : Group) (writes : List (Nat × Word64)) (i : Nat) : Nat :=
  match writes.reverse.find? fun w => w.1 == 0x500 + 8 * (i / 2) with
  | some w => if i % 2 = 0 then (lo32 w.2).toNat else (hi32 w.2).toNat
  | none => (g.thread i).status

/-- The state that a status word gives a thread of a held group; none where the resume fails (R164).  A thread that has exited stays
exited (R30); STATE 3, Held, leaves the state as it was before the trap (log 13). -/
def Thread.fromStatus (t : Thread) (core team x : Nat) : Option TState :=
  let obj := x / 2 ^ 7 % 64
  if t.st = .exited ∧ x / 2 ^ 13 % 8 < 5 then some .exited else
  match x / 2 ^ 13 % 8 with
  | 0 => some .ready
  | 3 => some t.st
  | 1 => if 12 ≤ obj then none
    else match t.st with
      | .maskWait k r => if k = obj then some (.maskWait k r) else some (.maskWait obj 0)
      | _ => some (.maskWait obj 0)
  | 2 => match t.st with
    | .barrierWait c k o _ => if o = obj then some (.barrierWait c k o (x.testBit 6)) else some (.barrierWait core team obj (x.testBit 6))
    | _ => some (.barrierWait core team obj (x.testBit 6))
  | 4 => some .exited
  | 5 => match t.st with
    | .collWait _ => if 12 ≤ obj then none else some (.collWait obj)
    | _ => none
  | _ => none

/-- What a list of writes to a group's view makes of it: the threads of `exited` leave, and the others take their states (R164). -/
def Group.adopt (g : Group) (writes : List (Nat × Word64)) (sts : List (Option TState)) : Group :=
  let h := writes.foldl (fun (h : Group) w => h.viewWrite w.1 w.2) g
  let h := h.onThreads allLanes fun i t => { t with st := if (sts.getD i none) = some .exited then t.st else (sts.getD i none).getD t.st }
  { h with arrivals := h.arrivals.filter fun a => match (h.thread a.lane).st with
      | .collWait _ => true
      | _ => false }

/-- Copies of a group that stopped go on from their progress pointers (R348, R388). -/
def Core.restartCopies (c : Core) (slot : Nat) : Core :=
  { c with ops := c.ops.map fun (o : Op) => if o.slot == slot then { o with kind := o.kind.modCopy fun y => { y with stopped := false } } else o }

/-- A group that nothing stops any longer goes on (R51, R149, R173): its waits are looked at anew, and a deadlock that still stands is a
trap again (R42). -/
def State.goOn (s : State) (core slot : Nat) (exited : Mask) : State :=
  let s := s.modCore core fun c => ((c.modGroup slot Group.resume).exitThreads slot exited).restartCopies slot
  (s.barRestore core slot).modCore core fun c => c.checkGroup slot

/-- The states that a view's status words give, and the threads that they make exit. -/
def Group.viewStates (g : Group) (core : Nat) (writes : List (Nat × Word64)) : List (Option TState) :=
  (List.range 64).map fun i => (g.thread i).fromStatus core g.team (viewStatus g writes i)

/-- The threads that a list of states makes exit. -/
def exitMask (sts : List (Option TState)) : Mask := maskOf fun i => sts.getD i none == some .exited

/-- The resume of a held group with what its keeper has written (R164): unchanged where its checks fail. -/
def State.resumeView (s : State) (core slot : Nat) : State :=
  match s.group? core slot with
  | none => s
  | some g =>
    let sts := g.viewStates core g.view
    let h := g.adopt g.view sts
    let exited := exitMask sts
    if sts.any (·.isNone) || (List.range 12).any fun k => h.maskReg k &&& exited != 0 then s
    else
      let s := s.modCore core fun c => c.modGroup slot fun _ => ({ h with view := [] } : Group).endHold
      let s := s.goOn core slot (exited &&& g.liveMask)
      let moved := (List.range 64).filter fun i => g.view.any (fun w => w.1 == 0x300 + 8 * i) && !has exited i
      let bad := moved.filter fun i => match s.checkTarget core g.ctx (h.thread i).pc with
        | .valid _ => false
        | _ => true
      match bad with
      | [] => s
      | i :: _ => s.trap core slot 0x02 0 (h.thread i).pc [(h.thread i).pc, maskOf fun j => bad.contains j]

/-- A keeper writes into the view of a Pre-empted group of its die, and, once the host has answered the group's trap, resumes it
(R164, R431). -/
def execKeeperResume (core slot : Nat) (writes : List (Nat × BitVec 64)) (s : State) : Res :=
  match s.group? core slot, s.keeperOf core with
  | some g, some _ =>
    let t := if g.gst = .preempted then s.modGroup core slot fun g => { g with view := g.view ++ writes } else s
    match g.hold, g.halt with
    | .forwarded _ true, .none => .next (if s.eventHeld core slot then t else t.resumeView core slot)
    | _, _ => .next t
  | _, _ => .next s

/-! ### Restoring (R28, R124, R160, R161, R173, R413) -/

/-- The words of a record, by offset. -/
def State.recordWords (s : State) (a len : Nat) : List (Nat × Word64) :=
  (List.range (len / 8)).map fun i => (8 * i, BitVec.ofNat 64 (s.coherentNat (a + 8 * i) 8))

/-- A status word as a restore reads it: STATE 5 is Ready at the code pointer (R160), and a reserved one changes nothing (log 13). -/
def Thread.fromRecord (t : Thread) (core team x : Nat) : Option TState :=
  if x / 2 ^ 13 % 8 = 5 then some (if t.st = .exited then .exited else .ready) else some ((t.fromStatus core team x).getD t.st)

/-- A group takes its record back, the flag decrements that fell due since it was written applied to the record's counts; what a keeper
wrote into its view follows (R160, R164). -/
def Group.takeBack (g : Group) (core : Nat) (words : List (Nat × Word64)) (flagsThen : Nat) : Group × Mask :=
  let sts := (List.range 64).map fun i => (g.thread i).fromRecord core g.team (viewStatus g words i)
  let lost := fun f => flagsThen / 16 ^ f % 16 - g.flag f
  let h := g.adopt words sts
  ({ h with flags := (List.range 12).map fun f => (f, h.flag f - lost f), savedAt := none }, exitMask sts &&& g.liveMask)

/-- A team takes its record back: its barrier objects, its local memory and its tiles (R124, R165, R173; its layout: log 11). -/
def State.teamBack (s : State) (core team : Nat) : State :=
  match s.team? core team with
  | none => s
  | some t =>
    match t.savedAt with
    | none => s.modTeam core team fun t => { t with released := false }
    | some (a, _) =>
      let bars := t.bars.map fun b => (b.1, Barrier.ofRecord (s.coherentNat (a + 64 * b.1) 8) (s.coherentNat (a + 64 * b.1 + 8) 24)
        (s.coherentNat (a + 64 * b.1 + 32) 24))
      let mem := (List.range t.localBytes).filterMap fun i =>
        let b := s.coherent (a + 4096 + i)
        if b = 0 then none else some (i, b)
      let base := a + 4096 + t.localBytes
      let tiles := (List.range t.tiles.length).map fun i =>
        let q := t.tiles.getD i (0, Tile.zero)
        (q.1, { q.2 with words := (List.range 4096).map fun j => BitVec.ofNat 32 (s.coherentNat (base + 16384 * i + 4 * j) 4) })
      s.modTeam core team fun t => { t with released := false, savedAt := none, bars := bars, mem := mem, tiles := tiles }

/-- A core has room for what a released team gave up (R413). -/
def Core.teamRoom (c : Core) (team : Nat) : Bool :=
  match get? c.teams team with
  | none => true
  | some t =>
    let here := fun (q : Team) => !q.released
    !t.released || (decide (t.localBytes + c.sumTeams here (·.localBytes) ≤ 2 ^ 21)
      && decide (t.tiles.length + c.sumTeams here (·.tiles.length) ≤ 32) && decide (t.nbar + c.sumTeams here (·.nbar) ≤ 64))

/-- What stopped a group besides its own trap is over: its context runs, or the stop of its core has ended; none where it is not. -/
def State.haltOver (s : State) (core : Nat) (g : Group) : Option Halt :=
  match g.halt with
  | .none | .stopped true => some .none
  | .suspended true =>
    if (s.ctx g.ctx).state = .running then some (if (s.core core).stop.any fun z => z.ctx == g.ctx then .stopped false else .none) else none
  | _ => none

/-- A group comes back, whole or as far as its trap lets it: the record is read, and its team's with the first of its groups. -/
def State.comeBack (s : State) (core slot : Nat) (g : Group) (halt : Halt) (whole : Bool) : State :=
  let s := s.teamBack core g.team
  let (h, exited) := match g.savedAt with
    | some (a, len, flags) => g.takeBack core (s.recordWords a len) flags
    | none => (g, 0)
  let sts := h.viewStates core h.view
  let free := whole && halt == .none
  let h := if free then { h.adopt h.view sts with view := [], lent := false } else { h with lent := g.lent && !whole }
  let h := { h with halt := halt }
  let s := s.modGroup core slot fun _ => if whole && h.hold != .none then h.endHold else h
  if free then s.goOn core slot ((exited ||| exitMask sts) &&& g.liveMask) else s.modCore core fun c => c.exitThreads slot exited

/-- A saved or stopped group returns to its slot once nothing stops it and the core has what it needs: it is Pending, and its threads go
on where they stood (R149, R161). -/
def State.restore (s : State) (core slot : Nat) : State :=
  match s.group? core slot with
  | none => s
  | some g =>
    match if g.free || s.eventHeld core slot then none else s.haltOver core g with
    | none => s
    | some halt =>
      let c := s.core core
      if g.mayReturn then
        if (s.ctx g.ctx).state = .running ∧ (!g.lent || decide (g.quota ≤ c.freeWords)) ∧ c.teamRoom g.team then s.comeBack core slot g halt true
        else s
      else if g.halt = halt then s
      else s.comeBack core slot g halt false

def execGroupRestore (core slot : Nat) (s : State) : Res := .next ((s.restore core slot).afterStore s)

/-! ### The two-level scheduler (R150, R151, R154) -/

/-- A thread's gang waits on a long-latency event (R150), or on what another rule has it wait for: a `SIGNAL` past its fence finds the host
die's queue full (R378). -/
def State.threadWaits (s : State) (core : Nat) (g : Group) (t : Thread) : Bool :=
  match t.st with
  | .ready =>
    t.blocked || match t.stall with
      | some id => ((s.core core).op? id).any fun o => match o.kind with
          | .tagwait _ _ | .regq _ | .barheld _ _ _ _ => true
          | .signal _ _ target => s.fenceDone core o true target
          | _ => false
      | none =>
        if t.entry ≠ 0 ∧ !t.refetch then false
        else
          match s.fetchClause core g.ctx t.pc with
          | .words _ ws => hasSig (ws.headD 0) && !g.waitClear (ws.headD 0)
          | .fault _ => false
  | _ => true

/-- Some gang of a group can issue; else the group waits (R148, R150). -/
def State.groupReady (s : State) (core : Nat) (g : Group) : Bool :=
  (lanesOf g.liveMask).any fun i => !s.threadWaits core g (g.thread i)

/-- The tick since which a pending group has been ready; it is noted at the end of a clock. -/
def Group.readyTick (g : Group) (now : Nat) : Nat := g.readySince.getD now

/-- The pending group that has been ready longest, ties to the lowest slot (R151). -/
def State.entering (s : State) (core : Nat) : Option (Nat × Group) :=
  (sortBy (fun (a b : Nat × Group) => decide (a.2.readyTick s.ticks ≤ b.2.readyTick s.ticks))
    ((s.core core).groups.filter fun g => g.2.gst == .pending && g.2.free && s.groupReady core g.2)).head?

/-- Whether a group may be exchanged for the entering one; slot 32 stands for a free place of the active set (log 1). -/
def State.mayLeave (s : State) (core leaving : Nat) : Bool :=
  match s.group? core leaving with
  | some g => g.gst == .active && g.free && !s.groupReady core g
  | none => leaving == 32 && decide ((s.core core).nactive < 8)

/-- A swap: the gangs of the group that leaves resume inside their clauses when it comes back (R76). -/
def Group.demote (g : Group) : Group := { g.mustRefetch with gst := .pending, readySince := none }
def Group.promote (g : Group) (now : Nat) : Group := { g with gst := .active, promoted := now, readySince := none }

def State.exchange (s : State) (core leaving entering : Nat) : State :=
  s.modCore core fun c => (c.modGroup leaving Group.demote).modGroup entering fun g => g.promote s.ticks

def execNaturalSwap (core leaving entering : Nat) (s : State) : Res :=
  .next (if ((s.entering core).map (·.1)) = some entering ∧ s.mayLeave core leaving then s.exchange core leaving entering else s)

/-- The active group that was promoted earliest, ties to the lowest slot. -/
def Core.earliest (c : Core) : Option Nat :=
  ((sortBy (fun (a b : Nat × Group) => decide (a.2.promoted ≤ b.2.promoted)) (c.groups.filter fun g => g.2.gst == .active)).map (·.1)).head?

/-- A forced swap is due: a pending group has been ready for 512 clocks, and none came for 128 (R151). -/
def State.forcedDue (s : State) (core : Nat) : Option (Nat × Nat) :=
  match s.entering core, (s.core core).earliest with
  | some e, some l =>
    if e.2.readyTick s.ticks + 5120 ≤ s.ticks ∧ (s.core core).lastForced + 1280 ≤ s.ticks then some (l, e.1) else none
  | _, _ => none

def execForcedSwap (core : Nat) (s : State) : Res :=
  match s.forcedDue core with
  | some (l, e) => .next ((s.exchange core l e).modCore core fun c => { c with lastForced := s.ticks })
  | none => .next s

def execScoreDecay (core : Nat) (s : State) : Res := .next (s.modCore core fun c => { c with score := c.score / 2 })

/-! ### Retiring (R146, R156, R280, R344, R346) -/

/-- Whether a group is the last of its team. -/
def Core.lastOfTeam (c : Core) (slot : Nat) (g : Group) : Bool := c.groups.all fun h => h.1 == slot || h.2.team != g.team

/-- The last group of a team prepares its retirement: held stores commit, windows are unmapped, seals end; true once all is done. -/
def State.prepareRetire (s : State) (core slot : Nat) (g : Group) : State × Bool :=
  match s.team? core g.team with
  | none => (s, true)
  | some t =>
    if t.idem then (s.commit core slot g.team, false)
    else
      let opened := t.windows.filter fun w => !w.2.closing
      if !opened.isEmpty then
        if opened.any fun w => s.windowLocked core g.team w.2 then (s, false)
        else
          let (op, s) := s.take
          (opened.foldl (fun (s : State) w => s.unmapWindow core slot g.team w.1 op) s, false)
      else (s, t.seals.all fun q => q.2.count == 0)

/-- A cluster's teams leave together, once none of them has a group (R165); a kernel whose last team retires drains (R142). -/
def State.retireTeams (s : State) (core team : Nat) : State :=
  match s.team? core team with
  | none => s
  | some t =>
    let all := s.clusterOf core team
    if all.any fun p => (s.core p.1).groups.any fun g => g.2.team == p.2 then s
    else
      let s := all.foldl (fun (s : State) p => s.modCore p.1 fun c => c.dropTeam p.2) s
      let s := s.modKernel t.kernel fun k => { k with live := k.live - all.length }
      match s.kernel? t.kernel with
      | some k => if k.st = .running ∧ k.live = 0 ∧ k.again.isEmpty ∧ k.due.isNone then s.setKernel t.kernel .draining 0 else s
      | none => s

/-- An exited group may leave its slot: its operations are complete and its stores acknowledged. -/
def Core.finished (c : Core) (slot : Nat) (g : Group) : Bool :=
  g.gst == .exited && g.free && c.ops.all (fun o => o.slot != slot) && g.stores.isEmpty

/-- An exited group's slot and quota return (R156, R280), and with the last group its team retires. -/
def State.slotRelease (s : State) (core slot : Nat) : State :=
  match s.group? core slot with
  | none => s
  | some g =>
    if !(s.core core).finished slot g then s
    else
      let r := if (s.core core).lastOfTeam slot g then s.prepareRetire core slot g else (s, true)
      match r with
      | (s, false) => s
      | (s, true) =>
        let kernel := (s.team? core g.team).map (·.kernel)
        let s := match kernel with
          | some id => s.modKernel id fun k => { k with gwct := max k.gwct g.gwct }
          | none => s
        let s := s.modCore core fun c =>
          ({ c with groups := del c.groups slot } : Core).modTeam g.team fun t => { t with free := t.free + g.quota }
        ((s.retireTeams core g.team).modCore core fun c => c.quiesce s.ticks).quotaCheck core g.team

def execGroupSlotRelease (core slot : Nat) (s : State) : Res := .next ((s.slotRelease core slot).afterStore s)

end Sys2Proof.Machine
end

