-- ==== Sys2Proof/Machine/Command.lean ====
section
/-! DEFINITION. The carrying out of firmware commands (R122, R398), and the commands on contexts, canals, pages and regions (R120–R126,
R135, R136, R162, R177, R181–R185). -/

namespace Sys2Proof.Machine

/-! ### Carrying out a command (R122, R398, R421) -/

/-- What the keepers make of a command: its result code and return values, or that it is not complete yet. -/
inductive Answer
  | done (s : State) (result : Nat) (values : List Word64)
  | wait (s : State)

/-- The first result of R122 that applies: 1 NOCTX, 3 BADARG, 2 BADSTATE, 4 BUSY; none for OK. -/
def verdict (noctx badarg badstate busy : Bool) : Option Nat :=
  if noctx then some 1 else if badarg then some 3 else if badstate then some 2 else if busy then some 4 else none

/-- A command that fails changes nothing; else it has its effect and return values. -/
def State.answer (s : State) (v : Option Nat) (t : State) (values : List Word64) : Answer :=
  match v with
  | some r => .done s r []
  | none => .done t 0 values

/-- The context that a command names, `a` being the words of its mailbox (R122). -/
def commandCtx (a : Nat → Word64) : Instr → Option Nat
  | .ctxcreate | .ctxrun | .ctxsuspend | .ctxresume | .ctxmode | .ctxquery | .ctxdestroy | .pgdone | .rgnset | .rgnpool
  | .rgnplace | .rgnclear | .rgnquery | .vminv | .edconf | .edmap | .edunmap | .dbgarea | .stopcore | .dbgresume | .watchset => some (a 1).toNat
  | .cnlcreate | .lnkmap => some (a 2).toNat
  | _ => none

/-- An earlier command for the same context is not complete (R122). -/
def State.commandBehind (s : State) (m : Nat) (i : Instr) : Bool :=
  let c := commandCtx (s.mail m) i
  c.isSome && (s.cmds.takeWhile (fun j => j != (m, i))).any fun j => commandCtx (s.mail j.1) j.2 == c

/-- The die whose keepers a command needs, where it names a core or a port: none where any die's serve (R24). -/
def commandDie (a : Nat → Word64) : Instr → Option Nat
  | .corestat => some ((a 1).toNat / 64)
  | .pgdone | .stopcore | .dbgresume => some ((a 2).toNat / 64)
  | .lnktrain | .lnkisolate | .lnkquery => some ((a 1).toNat / 9)
  | _ => none

/-- The keepers that a command needs run their firmware, and one of them works (R24, R420, R421). -/
def State.keepersRun (s : State) (a : Nat → Word64) (i : Instr) : Bool :=
  let works := fun d => (List.range 4).any (s.keeperAlive d)
  match commandDie a i with
  | some d => if d < 4 then works d else (List.range 4).any works
  | none => (List.range 4).any works

/-- The keepers carry out the command `i` of the mailbox whose turn it is, by its words: nothing where that mailbox holds no such command,
or one behind another; a command that is not complete is taken up again. -/
def State.command (s : State) (i : Instr) (k : (Nat → Word64) → State → Answer) : Res :=
  let m := s.mailbox
  if !s.cmds.contains (m, i) || s.commandBehind m i then .next s
  else
    match (if s.keepersRun (s.mail m) i || i == .devstat then k (s.mail m) s else .done s 4 []) with
    | .wait t => .next (t.afterStore s)
    | .done t r values => .next ((({ t with cmds := t.cmds.filter fun j => j != (m, i) } : State).finishCommand m r values).afterStore s)

/-- No context where one is needed. -/
def State.noCtx (s : State) (n : Word64) : Bool := decide (1024 ≤ n.toNat) || (s.ctx n.toNat).state == .free

/-! ### Contexts (R117–R126) -/

/-- Bytes of save area that the largest residency of a budget takes on every core (R124). -/
def saveNeed (budget : Nat) : Nat :=
  let regw := budget / 2 ^ 32 % 2 ^ 13
  256 * if regw = 0 then 0
    else 8192 * min 32 regw + 256 * regw + 4096 * (budget / 2 ^ 16 % 2 ^ 10) + 16384 * (budget % 2 ^ 6)

/-- The limits of a budget and a mode (R118, R122). -/
def budgetOk (b : Nat) : Bool :=
  b / 2 ^ 45 == 0 && b / 2 ^ 26 % 2 ^ 6 == 0 && b / 2 ^ 6 % 2 ^ 10 == 0 && decide (b / 2 ^ 32 ≤ 4096) && decide (b / 2 ^ 16 % 2 ^ 10 ≤ 512)
    && decide (b % 2 ^ 6 ≤ 32)
def modeOk (m : Nat) : Bool := m / 2 ^ 8 == 0 && m / 2 % 8 == 0 && decide (m / 16 ≤ 10)

/-- DROPS of every entry of a region table is zeroed (R122, R181). -/
def State.zeroDrops (s : State) (table : Nat) : State :=
  let mine := fun (a : Nat) => decide (table ≤ a) && decide (a < table + 32 * 4096) && decide (28 ≤ (a - table) % 32) && decide ((a - table) % 32 < 31)
  let owned := s.lines.flatMap fun l => [l.2.lo, l.2.hi].flatMap fun h => match h with
    | .owned d => d.map (·.1)
    | _ => []
  (((s.mem.map (·.1)) ++ owned).filter mine).foldl (fun (s : State) a => s.rawWrite a [0]) s

def execCtxcreate (s : State) : Res :=
  s.command .ctxcreate fun a s =>
    let num := a 1
    let root := a 2
    let table := a 3
    let key := a 4
    let budget := a 5
    let mode := a 6
    let saveBase := a 7
    let saveSize := a 8
    let b := budget.toNat
    let v := verdict (decide (1024 ≤ num.toNat))
      (!budgetOk b || !modeOk mode.toNat || decide (saveSize.toNat < saveNeed b) || key.toNat % 40 != 0)
      (num == 0 || (s.ctx num.toNat).state != .free) false
    let c : Ctx := { Ctx.blank with
      state := .ready, root := root.toNat, table := table.toNat,
      key := (List.range 9).map fun i => BitVec.ofNat 64 (s.coherentNat (key.toNat + 8 * i) 8),
      regw := b / 2 ^ 32, localU := b / 2 ^ 16 % 2 ^ 10, tilesMax := b % 2 ^ 6, check := mode.getLsbD 0, lease := mode.toNat / 16,
      saveBase := saveBase.toNat, saveSize := saveSize.toNat }
    s.answer v (({ s with ctxs := put s.ctxs num.toNat c } : State).zeroDrops table.toNat) []

def execCtxrun (s : State) : Res :=
  s.command .ctxrun fun a s =>
    let num := a 1
    s.answer (verdict (s.noCtx num) false (num == 0 || (s.ctx num.toNat).state != .ready) false)
      (s.modCtx num.toNat fun c => { c with state := .running }) []

/-- Every live group of a context is saved. -/
def State.allSaved (s : State) (ctx : Nat) : Bool := s.allGroups ctx fun g => g.gst == .exited || g.halt == .suspended true

/-- `CTXSUSPEND` (R121, R124): OK once every group is saved. -/
def execCtxsuspend (s : State) : Res :=
  s.command .ctxsuspend fun a s =>
    let num := a 1
    let n := num.toNat
    let st := (s.ctx n).state
    match verdict (s.noCtx num) false (num == 0 || (st != .running && st != .suspended)) false with
    | some r => .done s r []
    | none =>
      let t := (s.modCtx n fun c => { c with hostHold := true }).suspendCtx n
      if t.allSaved n then .done t 0 [] else .wait t

/-- A region of a context whose held stores still have no frame (R192). -/
def State.starved (s : State) (ctx : Nat) : Bool := s.regions.any fun r => r.ctx == ctx && r.held && r.pool == 0

def execCtxresume (s : State) : Res :=
  s.command .ctxresume fun a s =>
    let num := a 1
    let reasons := a 2
    let n := num.toNat
    let v := verdict (s.noCtx num) (decide (4 ≤ reasons.toNat))
      ((s.ctx n).state != .suspended || (reasons.getLsbD 1 && s.starved n)) false
    let t := s.modCtx n fun c =>
      let c := { c with hostHold := c.hostHold && !reasons.getLsbD 0, poolHold := c.poolHold && !reasons.getLsbD 1 }
      if c.hostHold || c.poolHold then c else { c with state := .running }
    s.answer v t []

def execCtxmode (s : State) : Res :=
  s.command .ctxmode fun a s =>
    let num := a 1
    let check := a 2
    let lease := a 3
    let st := (s.ctx num.toNat).state
    s.answer (verdict (s.noCtx num) (decide (1 < check.toNat) || decide (10 < lease.toNat)) (num == 0 || st == .faulted) false)
      (s.modCtx num.toNat fun c => { c with check := check == 1, lease := lease.toNat }) []

/-- The state code of `CTXQUERY` (R122). -/
def CtxState.code : CtxState → Nat
  | .free => 0
  | .ready => 1
  | .running => 2
  | .suspended => 3
  | .faulted => 4

def execCtxquery (s : State) : Res :=
  s.command .ctxquery fun a s =>
    let num := a 1
    let c := s.ctx num.toNat
    let teams := (s.cores.map fun k => k.2.teams.countP fun t => t.2.ctx == num.toNat).sum
    s.answer (verdict (decide (1024 ≤ num.toNat)) false false false) s
      ([BitVec.ofNat 64 c.state.code, BitVec.ofNat 64 ((if c.hostHold then 1 else 0) + if c.poolHold then 2 else 0), BitVec.ofNat 64 teams]
        ++ (List.range 6).map fun i => c.fault.getD i 0)

/-! ### Regions (R181–R185) -/

/-- Word 0 of a region's table entry (R181). -/
def Region.word0 (r : Region) (valid : Bool) : Nat :=
  (if valid then 2 ^ 63 else 0) + r.place * 2 ^ 61 + (if r.tag then 2 ^ 60 else 0) + (if r.ed then 2 ^ 59 else 0)
    + (if r.dat then 2 ^ 58 else 0) + r.dsize * 2 ^ 56 + (if r.full then 2 ^ 55 else 0) + r.base

/-- Write a word of a region's table entry. -/
def State.tableWord (s : State) (ctx idx i v : Nat) : State := s.rawWrite ((s.ctx ctx).table + 32 * idx + 8 * i) (leBytes 8 v)

/-- The near and far frames that back a region's pages. -/
def State.tierCount (s : State) (r : Region) : Nat × Nat :=
  let start := if r.dat || r.view.isSome || isLink r.base then (0, 0)
    else (r.nearPages, r.frames - r.nearPages)
  (s.pages.filter fun p => r.covers (4096 * p.1)).foldl (fun (acc : Nat × Nat) p =>
    let f := r.freshPage p.1
    let acc := if !f.backed then acc else if f.far then (acc.1, acc.2 - 1) else (acc.1 - 1, acc.2)
    if !p.2.backed then acc else if p.2.far then (acc.1, acc.2 + 1) else (acc.1 + 1, acc.2)) start

/-- Frames of a region's pages that still have to change tier, and are not being moved (R185). -/
def State.toMove (s : State) (r : Region) : Nat :=
  let n := s.tierCount r
  let moving := s.pages.countP fun p => r.covers (4096 * p.1) && p.2.migrating
  match r.place with
  | 0 => n.2 + r.poolFar - moving
  | 1 => n.1 + (r.pool - r.poolFar) - moving
  | _ => 0

/-- An unretired edition drains a region's frames (R253, R266). -/
def State.drains (s : State) (r : Region) : Bool := r.ed && r.view.isNone && s.editions.any fun e => decide (r.born ≤ e.seq)

/-- The accesses held at pages of a region are discarded. -/
def State.dropHeldAt (s : State) (r : Region) : State :=
  let mine := s.held.filter fun h => r.covers (4096 * h.1)
  let s := mine.foldl (fun s h => s.dropHeld h.2) s
  { s with held := s.held.filter fun h => !mine.contains h }

/-- What becomes of a line whose frame leaves the region, or enters it: its bytes, near and at the host, are gone; a lease and a request of the
host stand (R182). -/
def LineSt.emptied (l : LineSt) : LineSt := { l with present := false, dirty := false, lo := .invalid, hi := .invalid }

/-- A region is gone: its frames, its pool and what was set aside for frames that move return to the die. -/
def State.clearRegion (s : State) (r : Region) : State :=
  let n := s.tierCount r
  let s := if r.place = 2 then ((keysOf s.pages).filter fun p => r.covers (4096 * p)).foldl (fun s p => s.stay p) s else s
  let aside := s.toMove r + s.pages.countP fun p => r.covers (4096 * p.1) && p.2.migrating
  let s := s.dropHeldAt r
  let gone := fun (p : Nat) => r.covers (4096 * p)
  let s : State :=
    { s with regions := s.regions.filter (fun q => !(q.ctx == r.ctx && q.idx == r.idx)), mem := s.mem.filter (fun c => !r.covers c.1),
             lines := s.lines.map fun l => (l.1, if r.covers (128 * l.1) then l.2.emptied else l.2),
             pages := s.pages.filter fun p => !gone p.1, tags := s.tags.filter fun t => !gone (t.1 / 128),
             poison := s.poison.filter fun g => !gone (g / 128) }
  s.modDie (dieOfDpa r.base) fun m =>
    { m with near := m.near + n.1 + (r.pool - r.poolFar) + (if r.place = 0 then aside else 0),
             far := m.far + n.2 + r.poolFar + (if r.place = 1 then aside else 0) }

/-- A view leaves its edition (R265, R267). -/
def State.unmapView (s : State) (r : Region) : State :=
  match r.view with
  | none => s
  | some (seq, _) =>
    let s : State := { s with regions := s.regions.filter fun q => !(q.ctx == r.ctx && q.idx == r.idx) }
    (s.modEdition seq fun e => { e with views := e.views.filter fun v => v != (r.ctx, r.idx) }).settleEdition seq

/-- A range of DPAs for a region: within one die's memory, in or out of its link range as a whole, and over no other region (R182). -/
def State.rangeOk (s : State) (base frames : Nat) : Bool :=
  let last := base + 4096 * frames - 1
  base % 4096 == 0 && decide (1 ≤ frames) && decide (frames < 2 ^ 34) && decide (last < 2 ^ 48) && base / 2 ^ 45 == last / 2 ^ 45
    && !s.regions.any fun r => decide (r.base ≤ last) && decide (base < r.base + 4096 * r.frames)

/-- Near and far frames that a placement takes; none where the die's tier cannot set them aside. -/
def DieMem.supply (m : DieMem) (place n : Nat) : Option (Nat × Nat) :=
  match place with
  | 0 => if n ≤ m.near then some (n, 0) else none
  | 1 => if n ≤ m.far then some (0, n) else none
  | _ => if n ≤ m.near + m.far then some (min n m.near, n - min n m.near) else none

def DieMem.takeOut (m : DieMem) (k : Nat × Nat) : DieMem := { m with near := m.near - k.1, far := m.far - k.2 }

/-- `RGNSET`: words 0–2 as given, word 3, then VALID. -/
def execRgnset (s : State) : Res :=
  s.command .rgnset fun a s =>
    let num := a 1
    let idx := a 2
    let w0 := a 3
    let w1 := a 4
    let w2 := a 5
    let pool := a 6
    let n := num.toNat
    let i := idx.toNat
    let x := w0.toNat
    let base := x % 2 ^ 52 / 2 ^ 12 * 2 ^ 12
    let frames := w2.toNat % 2 ^ 34
    let dat := x.testBit 58
    let place := x / 2 ^ 61 % 4
    let link := isLink base
    let d := dieOfDpa base
    let got := if link then some (0, 0) else (s.die d).supply place (if dat then pool.toNat else frames)
    let r : Region :=
      { ctx := n, idx := i, place := place, tag := x.testBit 60, ed := x.testBit 59, dat := dat, dsize := x / 2 ^ 56 % 4, full := x.testBit 55,
        base := base, datum := w1, frames := frames, sticky := false, held := false, drops := 0, pool := if dat then pool.toNat else 0,
        poolFar := if dat then (got.getD (0, 0)).2 else 0, nearPages := if link then frames else if dat then 0 else (got.getD (0, 0)).1,
        wasAuto := false, view := none, born := s.liveAt d }
    let bad := decide (4096 ≤ i) || x / 2 ^ 52 % 8 != 0 || x % 2 ^ 12 != 0 || place == 3 || w2.toNat / 2 ^ 34 != 0
      || w1.toNat / 2 ^ (8 * 2 ^ r.dsize) != 0 || (!dat && pool != 0) || decide (2 ^ 32 ≤ pool.toNat) || !s.rangeOk base frames
      || (link && (place != 0 || r.tag || r.ed || dat)) || got.isNone
    let ready := link || (place == 1 || s.devstat.getLsbD (8 + d)) && (place != 1 || s.devstat.getLsbD (12 + d))
    match verdict (s.noCtx num) bad ((s.region? n i).isSome) (!ready) with
    | some c => .done s c []
    | none =>
      let t : State := { s with mem := s.mem.filter (fun c => !r.covers c.1), poison := s.poison.filter (fun g => !r.covers (32 * g)),
                                pages := s.pages.filter (fun p => !r.covers (4096 * p.1)), tags := s.tags.filter (fun g => !r.covers (32 * g.1)),
                                lines := s.lines.map (fun l => (l.1, if r.covers (128 * l.1) then l.2.emptied else l.2)),
                                regions := s.regions ++ [r] }
      let t := t.modDie d fun k => k.takeOut (got.getD (0, 0))
      let t := ((t.tableWord n i 1 w1.toNat).tableWord n i 2 w2.toNat).tableWord n i 3 r.word3
      .done (t.tableWord n i 0 (r.word0 true)) 0 []

def execRgnpool (s : State) : Res :=
  s.command .rgnpool fun a s =>
    let num := a 1
    let idx := a 2
    let frames := a 3
    let n := num.toNat
    let i := idx.toNat
    let r? := s.region? n i
    let place := (r?.map (·.place)).getD 0
    let d := (r?.map fun r => dieOfDpa r.base).getD 0
    let got := (s.die d).supply place frames.toNat
    let bad := decide (4096 ≤ i) || r?.any fun r => got.isNone || decide (2 ^ 32 ≤ r.pool + frames.toNat)
    s.answer (verdict (s.noCtx num) bad (!r?.any fun r => r.dat) false)
      ((s.modRegion n i fun r => { r with pool := r.pool + frames.toNat, poolFar := r.poolFar + (got.getD (0, 0)).2 }).modDie d
        fun k => k.takeOut (got.getD (0, 0))) []

/-- `RGNPLACE` (R185): frames set aside for an earlier change and not used return, exchanges that have not switched are given up, and the
frames that must move now are set aside. -/
def execRgnplace (s : State) : Res :=
  s.command .rgnplace fun a s =>
    let num := a 1
    let idx := a 2
    let place := a 3
    let n := num.toNat
    let i := idx.toNat
    match s.region? n i with
    | none => .done s ((verdict (s.noCtx num) (decide (4096 ≤ i) || decide (3 ≤ place.toNat)) true false).getD 0) []
    | some r =>
      let d := dieOfDpa r.base
      let back := s.toMove r
      let u := ((s.pages.filter fun p => r.covers (4096 * p.1) && p.2.swap.isSome).map (·.1)).foldl (fun s p => s.stay p) s
      let s1 := u.modDie d fun k =>
        { k with near := k.near + (if r.place = 0 then back else 0), far := k.far + (if r.place = 1 then back else 0) }
      let r' := { r with place := place.toNat }
      let n' := s.tierCount r
      let moving := fun (far : Bool) => u.pages.countP fun p => r.covers (4096 * p.1) && p.2.migrating && p.2.far == far
      let need := match place.toNat with
        | 0 => n'.2 + r.poolFar + moving false - moving true
        | 1 => n'.1 + (r.pool - r.poolFar) + moving true - moving false
        | _ => 0
      let got := if place.toNat = 2 then some (0, 0) else (s1.die d).supply place.toNat need
      let v := verdict (s.noCtx num) (decide (4096 ≤ i) || decide (3 ≤ place.toNat) || got.isNone) (isLink r.base || r.view.isSome) false
      let t := (s1.modDie d fun k => k.takeOut (got.getD (0, 0))).modRegion n i fun r => { r with place := place.toNat, wasAuto := r.place == 2 }
      s.answer v (t.tableWord n i 0 (r'.word0 true)) []

/-- `RGNCLEAR` (R183); of a view, it clears the view. -/
def execRgnclear (s : State) : Res :=
  s.command .rgnclear fun a s =>
    let num := a 1
    let idx := a 2
    let n := num.toNat
    let i := idx.toNat
    let st := (s.ctx n).state
    let r? := s.region? n i
    let v := verdict (s.noCtx num) (decide (4096 ≤ i)) (r?.isNone || (st != .ready && st != .suspended)) (r?.any s.drains)
    match r? with
    | none => .done s (v.getD 2) []
    | some r =>
      let t := if r.view.isSome then s.unmapView r else s.clearRegion r
      s.answer v (t.tableWord n i 0 (r.word0 false)) []

/-- Backed pages of a region. -/
def State.backedPages (s : State) (r : Region) : Nat := (s.tierCount r).1 + (s.tierCount r).2

/-- The stores, atomics and reductions held at the pages of a region that wait for a frame (R192). -/
def State.heldStores (s : State) (r : Region) : Nat :=
  ((s.held.filter fun h => r.covers (4096 * h.1) && (s.pageSt h.1).held).filterMap s.heldStoreId).eraseDups.length

/-- `RGNQUERY` (R183): of an entry that is not valid, zeros. -/
def execRgnquery (s : State) : Res :=
  s.command .rgnquery fun a s =>
    let num := a 1
    let idx := a 2
    let clear := a 3
    let n := num.toNat
    let i := idx.toNat
    match s.region? n i with
    | none => s.answer (verdict (s.noCtx num) (decide (4096 ≤ i) || decide (1 < clear.toNat)) false false) s (List.replicate 6 0)
    | some r =>
      let m := s.die (dieOfDpa r.base)
      let held := s.heldStores r
      let moving := s.pages.countP fun p => r.covers (4096 * p.1) && p.2.migrating
      s.answer (verdict (s.noCtx num) (decide (1 < clear.toNat)) false false)
        (if clear = 1 then s.modRegion n i fun r => { r with drops := 0, sticky := false } else s)
        ([r.word3, s.backedPages r, held, s.toMove r + moving, m.near, m.far].map (BitVec.ofNat 64))

/-- Whether an access of a context to a range of addresses, already translated, is not yet performed (R177); a `PROBE` and a `DISCARD` keep
the pages and no address, and count for every range. -/
def State.inFlight (s : State) (ctx lo n : Nat) : Bool :=
  let hits := fun (va : Word64) k => overlaps (vaBits va) k lo n
  s.cores.any fun c =>
    (c.2.groups.any fun g => g.2.ctx == ctx && g.2.stores.any fun r => r.todo != 0 && hits r.va r.width) ||
    (c.2.teams.any fun t => t.2.ctx == ctx && t.2.uncommitted.any fun r => hits r.va r.width) ||
    c.2.ops.any fun o => o.ctx == ctx && match o.kind with
      | .probe _ | .discard _ => true
      | .load _ _ _ _ accs => accs.any fun a => a.todo != 0 && hits a.va a.width
      | .atom _ _ _ _ reqs => reqs.any fun q => !q.done && hits q.va 8
      | _ => false

/-- The pages of a window that lie in a range are translated anew (R177).  A page whose new entry admits no store keeps the page that `WMAP`
gave it: the spec states nothing of that, and it is the model's choice (log 27). -/
def State.remapWindow (s : State) (ctx lo n : Nat) (w : Window) : State × Window :=
  (List.range w.pages.length).foldl (fun acc i =>
    let va := 4096 * (w.base / 4096 + i)
    if !overlaps va 4096 lo n then acc
    else
      match acc.1.translateAt ctx va .store with
      | .ok (s, dpa) => (s, { acc.2 with pages := acc.2.pages.set i (pageOf dpa) })
      | .error _ => acc) (s, w)

/-- The windows of a context with a page in a range of virtual addresses: core, team and number. -/
def State.windowsIn (s : State) (ctx lo n : Nat) : List (Nat × Nat × Nat × Window) :=
  s.cores.flatMap fun c => (c.2.teams.filter fun t => t.2.ctx == ctx).flatMap fun t =>
    (t.2.windows.filter fun w => overlaps (4096 * (w.2.base / 4096)) (4096 * w.2.pages.length) lo n).map fun w => (c.1, t.1, w.1, w.2)

def State.remapWindows (s : State) (ctx lo n : Nat) : State :=
  (s.windowsIn ctx lo n).foldl (fun s q =>
    let (u, w) := s.remapWindow ctx lo n q.2.2.2
    u.modTeam q.1 q.2.1 fun t => { t with windows := put t.windows q.2.2.1 w }) s

/-- `VMINV` (R177): every core drops what it caches of the range, a copy and a window translate their pages anew, and accesses that used
the old translation are performed. -/
def execVminv (s : State) : Res :=
  s.command .vminv fun a s =>
    let num := a 1
    let base := a 2
    let size := a 3
    match verdict (s.noCtx num) false false false with
    | some r => .done s r []
    | none =>
      let n := num.toNat
      let lo := vaBits base
      let forget := fun (c : Core) =>
        { c with tlb := c.tlb.filter (fun t => !(t.ctx == n && overlaps (4096 * t.vpage) 4096 lo size.toNat)),
                 ops := c.ops.map fun o => if o.ctx == n then { o with kind := o.kind.modCopy fun y => { y with srcPage := none, dstPage := none } } else o }
      let t := ({ s with cores := s.cores.map fun c => (c.1, forget c.2) } : State).remapWindows n lo size.toNat
      if t.inFlight n lo size.toNat then .wait t else .done t 0 []

/-! ### Canals (R136) -/

/-- A canal number that is out of range, or names no bound canal. -/
def State.noCanal (s : State) (c : Word64) : Bool := decide (c.toNat < 4096) && (s.canal? c.toNat).isNone

/-- `CNLCREATE` (R136).  That a record in a link region, an edition view or host-die space is BADARG too is the model's choice (log 17). -/
def execCnlcreate (s : State) : Res :=
  s.command .cnlcreate fun a s =>
    let canal := a 1
    let num := a 2
    let record := a 3
    let n := num.toNat
    let place := s.lookup n (vaBits record) .store
    let bad := match place with
      | .error _ => true
      | .ok (dpa, _, _) => isHostDie dpa || isLink dpa || match s.regionAt dpa with
        | some r => r.dat || r.view.isSome
        | none => true
    let v := verdict (s.noCtx num) (decide (4096 ≤ canal.toNat) || num == 0 || record.toNat % 128 != 0 || bad)
      ((s.canal? canal.toNat).isSome) false
    let link := record + 0x40#64
    let bytes := leBytes 8 link.toNat ++ zeros 64 ++ leBytes 8 link.toNat ++ zeros 48
    let c : Canal := { ctx := n, record := record, cursor := link, taken := 0, st := .empty, fcode := 0, hprio := 0, head := none }
    s.answer v { ((s.putVa n (vaBits record) bytes).getD s) with canals := put s.canals canal.toNat c } []

def execCnlresume (s : State) : Res :=
  s.command .cnlresume fun a s =>
    let canal := a 1
    match s.canal? canal.toNat with
    | none => .done s ((verdict (s.noCanal canal) true false false).getD 3) []
    | some c =>
      s.answer (verdict false false (c.st != .faulted) false)
        (s.canalAct canal.toNat { c with st := .empty, fcode := 0 }) []

/-- `CNLQUERY` (R136): the head's unmet waits are a mask of their numbers in word 4, a form that the manual does not give (log 17). -/
def execCnlquery (s : State) : Res :=
  s.command .cnlquery fun a s =>
    let canal := a 1
    match s.canal? canal.toNat with
    | none => .done s ((verdict (s.noCanal canal) true false false).getD 3) []
    | some c =>
      let unmet := match c.head.bind s.kernel? with
        | some k => ((List.range k.waits.length).filter fun j => !k.met.contains j).foldl (fun x j => x + 2 ^ j) 0
        | none => 0
      .done s 0 [BitVec.ofNat 64 c.stateWord, c.cursor, BitVec.ofNat 64 c.taken, BitVec.ofNat 64 unmet]

/-- The barges that a canal has not taken become Aborted (R136, R142): `n` links are followed at most, one for every place of a barge. -/
def State.dropBarges (s : State) (ctx : Nat) (link : Word64) : Nat → State
  | 0 => s
  | n + 1 =>
    match s.getVa ctx (vaBits link) 8 with
    | none => s
    | some 0 => s
    | some b => (s.abortBarge ctx (BitVec.ofNat 64 b) 0x30).dropBarges ctx (BitVec.ofNat 64 b) n

/-- A kernel that is over leaves the table, once its STATUS is written. -/
def State.retired (s : State) (id : Nat) : State := if (s.kernel? id).any fun k => k.due.isNone then s.dropKernel id else s

/-- A canal is unbound: its untaken barges, and a head whose kernel is still Waiting, are dropped (R136).  An Eligible head's kernel is
Dispatching, for which neither R136 nor R142 gives an event: it stays so, and hands out no team (log 17). -/
def State.unbindCanal (s : State) (n : Nat) : State :=
  match s.canal? n with
  | none => s
  | some c =>
    let s := s.dropBarges c.ctx c.cursor (2 ^ 50)
    let s := match c.head, c.head.bind s.kernel? with
      | some id, some k =>
        if k.st = KernelSt.waiting ∨ k.st = KernelSt.enqueued then (s.setKernel id .aborted 0x30).retired id else s
      | _, _ => s
    { s with canals := del s.canals n }

/-- `CNLDESTROY` (R136); a Held canal that has handed out teams of its head is Dispatching (log 17). -/
def execCnldestroy (s : State) : Res :=
  s.command .cnldestroy fun a s =>
    let canal := a 1
    match s.canal? canal.toNat with
    | none => .done s ((verdict (s.noCanal canal) true false false).getD 3) []
    | some c =>
      let busy := c.st == .dispatching || (c.head.bind s.kernel?).any fun k => k.st == .dispatching && k.next != 0
      s.answer (verdict false false false busy) (s.unbindCanal canal.toNat) []

/-! ### `PGDONE` (R162) and `CTXDESTROY` (R125) -/

def execPgdone (s : State) : Res :=
  s.command .pgdone fun a s =>
    let num := a 1
    let core := a 2
    let slot := a 3
    let c := core.toNat
    let l := slot.toNat
    let waits := (s.group? c l).any fun g => g.ctx == num.toNat && match g.hold with
      | .pageFault _ => true
      | _ => false
    let v := verdict (s.noCtx num) (decide (256 ≤ c) || decide (32 ≤ l)) (!waits) false
    let t := s.modCore c fun k =>
      let k := k.modGroup l fun g => if g.gst = .exited then g.endHold else { g with hold := .pageFault true }
      if ((get? k.groups l).map (·.gst)) = some .exited then k.restartCopies l else k
    s.answer v t []

/-- The groups and teams of a context leave their cores without being saved. -/
def State.evictCtx (s : State) (ctx : Nat) : State :=
  { s with cores := s.cores.map fun c =>
      let mine := (c.2.teams.filter fun t => t.2.ctx == ctx).map (·.1)
      let k := mine.foldl (fun k t => k.dropTeam t) c.2
      (c.1, ({ k with tlb := k.tlb.filter (fun t => t.ctx != ctx), stop := k.stop.filter fun z => z.ctx != ctx } : Core).quiesce s.ticks) }

/-- The pages of a context leave every unretired edition (R266). -/
def State.dropFromEditions (s : State) (ctx : Nat) : State :=
  let mine := fun (p : Nat) => ((s.regionAt (4096 * p)).map (·.ctx)) == some ctx
  (s.editions.map (·.seq)).foldl (fun (s : State) seq =>
    match s.edition? seq with
    | none => s
    | some e =>
      let gone := e.pages.filter fun p => mine p.1
      (s.modEdition seq fun e => { e with pages := e.pages.filter (fun p => !mine p.1), pend := e.pend.filter (fun p => p.2.1 != ctx), lost := true }).giveUp gone)
    s

/-- `CTXDESTROY` (R125, R136, R142, R390): link slots go once their requests are acknowledged or dropped. -/
def execCtxdestroy (s : State) : Res :=
  s.command .ctxdestroy fun a s =>
    let num := a 1
    let force := a 2
    let n := num.toNat
    let mine := s.regions.filter fun r => r.ctx == n
    match verdict (s.noCtx num) (decide (1 < force.toNat)) (num == 0) (force == 0 && mine.any s.drains) with
    | some r => .done s r []
    | none =>
      let t := s.evictCtx n
      let t := (keysOf t.canals).foldl (fun (t : State) c => if ((t.canal? c).map (·.ctx)) = some n then t.unbindCanal c else t) t
      let t := (keysOf t.kernels).foldl (fun (t : State) k =>
        match t.kernel? k with
        | some x =>
          if x.ctx = n then
            let t := if x.st = .complete ∨ x.st = .faulted ∨ x.st = .aborted then t else t.setKernel k .aborted 0x30
            t.dropKernel k
          else t
        | none => t) t
      let t := (t.discardHeld n).1
      let t := if mine.any t.drains then t.dropFromEditions n else t
      let t := mine.foldl (fun (t : State) r =>
        let t := if r.view.isSome then t.unmapView r else t.clearRegion r
        if (t.ctx n).table = 0 then t else t.tableWord n r.idx 0 (r.word0 false)) t
      let slots := (t.slots.filter fun x => x.2.ctx == n).map (·.1)
      if t.linkReqs.any fun r => slots.contains r.slot then .wait t
      else .done { t with slots := t.slots.filter (fun x => x.2.ctx != n), ctxs := put t.ctxs n Ctx.blank } 0 []

end Sys2Proof.Machine
end

