-- ==== Sys2Proof/Machine/Reliability.lean ====
section
/-! DEFINITION. Lane sparing (R405–R408), timing replay and errors (R409–R411), in-field test (R412), power and temperature
(R422–R425), cold reset and readiness (R24, R395, R420, R421). -/

namespace Sys2Proof.Machine

/-! ### Lane failures (R405–R408) -/

/-- `LANEMAP` after one more failed lane; none for the third failure.  A lane already mapped out changes nothing. -/
def mapLane (map : Word64) (lane : Nat) : Option Word64 :=
  let x := map.toNat
  if x % 128 = lane ∨ x / 2 ^ 16 % 128 = lane then some map
  else if !map.getLsbD 30 then some (BitVec.ofNat 64 (x / 128 * 128 + lane + 2 ^ 30))
  else if !map.getLsbD 31 then some (BitVec.ofNat 64 (x / 2 ^ 23 * 2 ^ 23 + lane * 2 ^ 16 + x % 2 ^ 16 + 2 ^ 31))
  else none

/-- A core leaves service: each of its teams is treated as one that consumed an uncorrectable error (R408). -/
def State.retireCore (s : State) (core : Nat) : State :=
  let s := s.modCore core fun c => { c with inService := false }
  (keysOf (s.core core).teams).foldl (fun (s : State) t =>
    match (s.core core).groups.find? fun g => g.2.team == t with
    | some g => s.strike core t g.1
    | none => s) s

/-- A failed lane is mapped out, or with the third failure the core leaves service. -/
def State.failLane (s : State) (core lane : Nat) : State :=
  match mapLane (s.core core).lanemap lane with
  | some m => s.modCore core fun c => { c with lanemap := m }
  | none => s.retireCore core

/-- Every resident group of a core is pre-empted with trap code 0x71, and the keeper resumes it (R407). -/
def Core.bounce (c : Core) : Core :=
  { c with groups := c.groups.map fun p => if p.2.free && p.2.gst != .exited then (p.1, p.2.takeTrap.resume) else p }

def execLaneFailure (core lane : Nat) (s : State) : Res :=
  if 256 ≤ core ∨ 65 ≤ lane then .next s
  else .next (((s.failLane core lane).modCore core Core.bounce).afterStore s)

def execTimingReplay (core : Nat) (s : State) : Res := .next (s.modCore core fun c => { c with replays := c.replays + 1 })
def execEccCorrected (core : Nat) (s : State) : Res := .next (s.modCore core fun c => { c with corrected := c.corrected + 1 })

/-- The group that answers for a team's tiles and rule file: its live group of the lowest slot (log 14). -/
def Core.speaker (c : Core) (team : Nat) : Option (Nat × Group) := (c.liveGroups team).head?

/-- Trap 0x70 of a group for an error in what it holds (R411): source and specifier. -/
def State.strikeGroup (s : State) (core : Nat) (g : Option (Nat × Group)) (source place : Nat) : State :=
  match g with
  | none => s
  | some (slot, g) => s.trap core slot 0x70 0 (g.thread (lowLane g.liveMask)).pc [BitVec.ofNat 64 source, BitVec.ofNat 64 place]

/-- An uncorrectable error: memory-side storage is poisoned; a register, a tile or the rule file is consumed (R410, R411). -/
def execUncorrectableError (site : ErrSite) (s : State) : Res :=
  let count := fun (s : State) core => s.modCore core fun c => { c with uncorrected := c.uncorrected + 1 }
  match site with
  | .memory dpa =>
    if 2 ^ 48 ≤ dpa ∨ isLink dpa then .next s
    else
      let s := count s (homeCore dpa)
      .next { s with poison := dpa / 32 :: s.poison.filter fun g => g != dpa / 32 }
  | .localMem core team off =>
    .next ((count s core).modTeam core team fun t => { t with poison := off / 32 :: t.poison.filter fun g => g != off / 32 })
  | .register core slot spec =>
    let s := count s core
    .next (s.strikeGroup core ((s.group? core slot).map fun g => (slot, g)) 1 spec.toNat)
  | .tile core team tile =>
    let s := count s core
    .next (s.strikeGroup core ((s.core core).speaker team) 4 tile)
  | .ruleFile core =>
    let s := count s core
    .next (s.strikeGroup core ((s.core core).binding.bind fun b => (s.core core).speaker b.team) 5 0)

/-! ### In-field test (R412) -/

/-- The next unit starts draining. -/
def TestUnit.turn (t : TestUnit) (now : Nat) : TestUnit :=
  { t with draining := some (t.next % 32), next := (t.next + 1) % 32, scanning := false, since := now }

/-- A unit without resident teams. -/
def State.unitEmpty (s : State) (u : Nat) : Bool := (unitCores u).all fun c => (s.core c).teams.isEmpty

def execScanTestTurn (s : State) : Res :=
  let t := s.test
  .next (if t.interval ≠ 0 ∧ t.draining = none ∧ t.since + nsTicks (1000000 * t.interval) ≤ s.ticks then { s with test := t.turn s.ticks } else s)

def execScanDrainTimeout (s : State) : Res :=
  let t := s.test
  match t.draining with
  | none => .next s
  | some u =>
    .next (if !t.scanning && !s.unitEmpty u && decide (t.since + nsTicks (1000000 * t.drain) ≤ s.ticks) then
      { s with test := t.turn s.ticks } else s)

def execScanUnitEmpty (s : State) : Res :=
  match s.test.draining with
  | none => .next s
  | some u => .next (if !s.test.scanning && s.unitEmpty u then { s with test := { s.test with scanning := true, since := s.ticks } } else s)

/-- The scan ends: failing lanes are mapped out, cores that failed otherwise leave service (R406, R408). -/
def execScanComplete (lanes : List (Nat × Nat)) (failed : List Nat) (s : State) : Res :=
  match s.test.draining with
  | none => .next s
  | some u =>
    if !s.test.scanning then .next s
    else
      let mine := (unitCores u).contains
      let t := (lanes.filter fun x => mine x.1 && decide (x.2 < 65)).foldl (fun (s : State) x => s.failLane x.1 x.2) s
      let t := (failed.filter mine).foldl (fun (s : State) c => s.retireCore c) t
      .next { t with test := { t.test with draining := none, scanning := false, since := s.ticks } }

/-! ### Power and temperature (R422–R425) -/

def execCoreIdleTimeout (core : Nat) (s : State) : Res :=
  .next (s.modCore core fun c =>
    if c.power = .on ∧ c.groups.isEmpty ∧ c.powerSince + nsTicks 1000 ≤ s.ticks then { c with power := .idle, powerSince := s.ticks } else c)

/-- A core is powered off: what its caches hold is lost. -/
def Core.gate (c : Core) (now : Nat) : Core :=
  if c.power = .gated then c else { c with power := .gated, powerSince := now, l1 := [], icache := [], tlb := [] }

def execCoreGateTimeout (core : Nat) (s : State) : Res :=
  .next (s.modCore core fun c =>
    if c.power = .idle ∧ c.groups.isEmpty ∧ c.powerSince + nsTicks 1000000 ≤ s.ticks then c.gate s.ticks else c)

/-- Issue slots are idled; no value changes (R423). -/
def execPowerCapExceeded (s : State) : Res := .next s

def execDieTemp105 (die : Nat) (s : State) : Res :=
  .next (if die < 4 then { s with thermalCap := true, cool := s.cool.filter fun d => d != die } else s)

/-- The cap of 1,000 W ends once every die that passed 105 °C has cooled to 95 °C. -/
def execDieCool95 (die : Nat) (s : State) : Res :=
  if 4 ≤ die then .next s
  else
    let cool := if s.cool.contains die then s.cool else die :: s.cool
    .next { s with cool := cool, thermalCap := s.thermalCap && !(List.range 4).all cool.contains }

/-- THERM of `DEVSTAT`, and the CORES bits. -/
def State.therm (s : State) : Bool := s.devstat.getLsbD 25

/-- A core's logic is powered down while groups are resident: what it had in flight, and stores not yet sent, are lost. -/
def Core.powerDown (c : Core) (now : Nat) : Core :=
  { c.gate now with
    ops := [], locks := [],
    groups := c.groups.map fun p => (p.1, { p.2 with stores := [], acked := [], arrivals := [], recent := [] }),
    teams := c.teams.map fun t => (t.1, { t.2 with uncommitted := [], queue := [] }) }

/-- A thermal stop (R425): Running and Suspended contexts become Faulted, and every core is stopped and powered down. -/
def execThermalStop (s : State) : Res :=
  let t := (keysOf s.ctxs).foldl (fun (s : State) c => s.faultCtx c 0x21 none [] 0xFF 0xFF) s
  let t := (List.range 256).foldl (fun (s : State) c => s.modCore c fun k => k.powerDown s.ticks) t
  let t : State := { t with devstat := (t.devstat &&& ~~~ 0xF0000#64) ||| 0x2000000#64, cool := [] }
  .next (t.afterStore s)

/-! ### Cold reset and readiness (R395, R420, R421) -/

/-- Cold reset: everything is as at reset; `failed` are the images that do not verify, and what depends on one stays not ready. -/
def execColdReset (failed : List Nat) (s : State) : Res :=
  .next { State.reset with agenda := s.agenda, n := s.n, fresh := s.fresh, badImages := failed,
                           devstat := if failed.isEmpty then 0 else 0x1000000#64 }

/-- The host context with its region 0, whose table entry it holds (R395). -/
def State.makeHost (s : State) : State :=
  let s : State := { s with ctxs := put s.ctxs 0 { Ctx.blank with state := .ready } }
  let r : Region := { ctx := 0, idx := 0, place := 0, tag := false, ed := false, dat := false, dsize := 0, full := false, base := 0, datum := 0,
                      frames := 262144, sticky := false, held := false, drops := 0, pool := 0, poolFar := 0, nearPages := 262144, wasAuto := false,
                      view := none, born := s.liveAt 0 }
  let s : State := { s with regions := s.regions ++ [r] }
  let s := s.modDie 0 fun m => { m with near := m.near - 262144 }
  s.rawWrite 0 (leBytes 8 (2 ^ 63) ++ zeros 8 ++ leBytes 8 262144 ++ zeros 8)

/-- A function becomes ready (R421): the host context is created with device time and the near tier of die 0 (R395). -/
def execFunctionReady (bit : Nat) (s : State) : Res :=
  let ok := bit = 0 ∨ (4 ≤ bit ∧ bit < 8 ∧ !s.badImages.contains (bit - 4)) ∨ (8 ≤ bit ∧ bit < 12) ∨ (12 ≤ bit ∧ bit < 16 ∧ Config.isModule)
    ∨ (16 ≤ bit ∧ bit < 20 ∧ !s.therm) ∨ (20 ≤ bit ∧ bit < 24)
  if !ok then .next s
  else
    let t : State := { s with devstat := s.devstat ||| BitVec.twoPow 64 bit }
    if t.devstat.getLsbD 0 && t.devstat.getLsbD 8 && (t.ctx 0).state == .free then .next (t.makeHost.afterStore s) else .next t

/-- A keeper fails; the others of its die answer for its cores (R24). -/
def execKeeperFailure (die idx : Nat) (s : State) : Res :=
  if 4 ≤ die ∨ 4 ≤ idx ∨ s.deadKeepers.contains (4 * die + idx) then .next s
  else .next { s with deadKeepers := s.deadKeepers ++ [4 * die + idx] }

end Sys2Proof.Machine
end

