-- ==== Sys2Proof/Machine/DeviceCommand.lean ====
section
/-! DEFINITION. The firmware commands on editions (R263–R267), links (R390), the event queue (R399), test and debug (R412–R419, R431),
readiness, power and cooling (R421, R423, R425). -/

namespace Sys2Proof.Machine

/-! ### Editions (R263–R267) -/

/-- A reserve takes a new size: frames to be taken from the die's tier, or those that return to it; none where it cannot grow. -/
def resize (old free size die : Nat) : Option (Nat × Nat) :=
  if old ≤ size then (if size - old ≤ die then some (free + (size - old), die - (size - old)) else none)
  else some (min free size, die + (free - min free size))

def DieMem.reserves (m : DieMem) (n f : Nat) : Option DieMem :=
  match resize m.resNear m.freeNear n m.near, resize m.resFar m.freeFar f m.far with
  | some a, some b => some { near := a.2, far := b.2, resNear := n, resFar := f, freeNear := a.1, freeFar := b.1 }
  | _, _ => none

def execEdconf (s : State) : Res :=
  s.command .edconf fun a s =>
    let num := a 1
    let grant := a 2
    let reserve := a 3
    let n0 := a 4
    let f0 := a 5
    let n1 := a 6
    let f1 := a 7
    let n2 := a 8
    let f2 := a 9
    let n3 := a 10
    let f3 := a 11
    let sizes := [(n0, f0), (n1, f1), (n2, f2), (n3, f3)]
    let new := (List.range 4).map fun d => (s.die d).reserves (sizes.getD d (0, 0)).1.toNat (sizes.getD d (0, 0)).2.toNat
    let v := verdict (s.noCtx num)
      (decide (1 < grant.toNat) || decide (1 < reserve.toNat) || (reserve == 1 && new.any (·.isNone))) false false
    let t := s.modCtx num.toNat fun c => { c with grant := grant == 1 }
    let t := if reserve = 1 then (List.range 4).foldl (fun (t : State) d => t.modDie d fun m => (new.getD d none).getD m) t else t
    s.answer v t []

/-- Bytes from `base` on that lie in valid regions, or that some region meets. -/
def State.inRegions (s : State) (base size : Nat) : Bool :=
  let reach := (List.range s.regions.length).foldl (fun pos _ =>
    match s.regionAt pos with
    | some r => r.base + 4096 * r.frames
    | none => pos) base
  decide (base + size ≤ reach)
def State.meetsRegion (s : State) (base size : Nat) : Bool :=
  s.regions.any fun r => decide (r.base < base + size) && decide (base < r.base + 4096 * r.frames)

/-- `EDTARGET` (R254, R263): the target of later seals, and of the editions in Sealed, which begin to drain. -/
def execEdtarget (s : State) : Res :=
  s.command .edtarget fun a s =>
    let kind := a 1
    let base := a 2
    let size := a 3
    let ports := a 4
    let share := a 5
    let full := a 6
    let b := base.toNat
    let n := size.toNat
    let place := match kind.toNat with
      | 0 => decide (b + n ≤ 2 ^ 48) && !isLink b && !s.meetsRegion b n
      | 1 => decide (b + n ≤ 2 ^ 48)
      | 2 => decide (65536 ≤ n) && s.inRegions b n
      | _ => true
    let bad := decide (3 < kind.toNat) || (kind != 3 && (b % 4096 != 0 || n % 4096 != 0 || share == 0 || decide (64 < share.toNat)
      || decide (1 < full.toNat) || decide (2 ^ 36 ≤ ports.toNat) || !place))
    let tgt : Target := { type := kind.toNat, base := b, size := n, ports := ports.toNat, share := share.toNat, full := full == 1 }
    let due := if kind = 3 then [] else (s.editions.filter fun e => e.st == .sealed).map (·.seq)
    s.answer (verdict false bad false false)
      (due.foldl (fun (s : State) q => (s.modEdition q fun e => { e with target := tgt }).beginDrain q) { s with target := tgt }) []

/-- `EDMAP` (R265): a view is a new region of the context, with its table entry. -/
def execEdmap (s : State) : Res :=
  s.command .edmap fun a s =>
    let num := a 1
    let edition := a 2
    let src := a 3
    let view := a 4
    let dpa := a 5
    let n := num.toNat
    let r? := s.region? n src.toNat
    let e? := s.edition? edition.toNat
    let frames := (r?.map (·.frames)).getD 1
    let bad := decide (4096 ≤ src.toNat) || decide (4096 ≤ view.toNat) || !s.rangeOk dpa.toNat frames || isLink dpa.toNat
      || r?.any fun r => !r.ed || decide (edition.toNat < r.born)
    let ok := e?.any fun e => e.st == .sealed || e.st == .draining || e.st == .drained
    let v := verdict (s.noCtx num) bad (!ok || r?.isNone || (s.region? n view.toNat).isSome) false
    let q : Region :=
      { ctx := n, idx := view.toNat, place := 0, tag := false, ed := false, dat := false, dsize := 0, full := false, base := dpa.toNat,
        datum := 0, frames := frames, sticky := false, held := false, drops := 0, pool := 0, poolFar := 0, nearPages := frames, wasAuto := false,
        view := some (edition.toNat, src.toNat), born := 0 }
    let t : State := { s with regions := s.regions ++ [q] }
    let t := t.modEdition edition.toNat fun e => { e with views := e.views ++ [(n, view.toNat)] }
    let t := (((t.tableWord n q.idx 1 0).tableWord n q.idx 2 frames).tableWord n q.idx 3 0).tableWord n q.idx 0 (q.word0 true)
    s.answer v t []

def execEdunmap (s : State) : Res :=
  s.command .edunmap fun a s =>
    let num := a 1
    let view := a 2
    let n := num.toNat
    match s.region? n view.toNat with
    | none => .done s ((verdict (s.noCtx num) (decide (4096 ≤ view.toNat)) true false).getD 2) []
    | some r =>
      s.answer (verdict (s.noCtx num) (decide (4096 ≤ view.toNat)) r.view.isNone false)
        ((s.unmapView r).tableWord n r.idx 0 (r.word0 false)) []

def execEdretire (s : State) : Res :=
  s.command .edretire fun a s =>
    let edition := a 1
    let force := a 2
    match s.edition? edition.toNat with
    | none => .done s ((verdict false (decide (1 < force.toNat)) true false).getD 2) []
    | some e =>
      s.answer (verdict false (decide (1 < force.toNat)) (e.st == .sealing || e.st == .drained) ((e.st == .draining && force == 0) || !e.views.isEmpty))
        (s.retire edition.toNat) []

/-- `EDQUERY`: the word of `EDSTAT`, T, pages written, and the target's six fields. -/
def execEdquery (s : State) : Res :=
  s.command .edquery fun a s =>
    let edition := a 1
    let e? := s.edition? edition.toNat
    let t := (e?.map (·.target)).getD s.target
    .done s 0 ([s.edWord (edition.toNat % 2 ^ 32), (e?.map (·.t)).getD 0, (e?.map (·.written.length)).getD 0, t.type, t.base, t.size, t.ports,
      t.share, if t.full then 1 else 0].map (BitVec.ofNat 64))

/-! ### Links (R390) -/

def execLnktrain (s : State) : Res :=
  s.command .lnktrain fun a s =>
    let port := a 1
    let p := s.port port.toNat
    s.answer (verdict false (decide (36 ≤ port.toNat)) (p.st == .up || p.st == .training) false)
      (s.setPort port.toNat { p with st := .training, lanes := 0 }) []

def execLnkisolate (s : State) : Res :=
  s.command .lnkisolate fun a s =>
    let port := a 1
    s.answer (verdict false (decide (36 ≤ port.toNat)) false false)
      (s.setPort port.toNat { s.port port.toNat with st := .isolated, lanes := 0 }) []

def execLnkmap (s : State) : Res :=
  s.command .lnkmap fun a s =>
    let slot := a 1
    let num := a 2
    let peer := a 3
    let rbase := a 4
    let ports := a 5
    let cls := a 6
    let retry := a 7
    let status := a 8
    let bad := decide (2 ^ 15 ≤ slot.toNat) || decide (2 ^ 16 ≤ peer.toNat) || decide (2 ^ 48 ≤ rbase.toNat) || rbase.toNat % 2 ^ 30 != 0
      || decide (2 ^ 36 ≤ ports.toNat) || decide (1 < cls.toNat) || decide (15 < retry.toNat) || (cls == 1 && retry != 0) || status.toNat % 8 != 0
    let x : Slot := { ctx := num.toNat, peer := peer.toNat, rbase := rbase.toNat, ports := ports.toNat, reduction := cls == 1,
                      retry := retry.toNat, status := status, att := 0, lasterr := 0, discards := 0, retries := 0, path := s.pathOf ports.toNat }
    s.answer (verdict (s.noCtx num) bad (get? s.slots slot.toNat).isSome false) (s.setSlot slot.toNat x) []

/-- A request of a slot is in flight. -/
def State.slotBusy (s : State) (n : Nat) : Bool := s.linkReqs.any fun r => r.slot == n

def execLnkunmap (s : State) : Res :=
  s.command .lnkunmap fun a s =>
    let slot := a 1
    s.answer (verdict false (decide (2 ^ 15 ≤ slot.toNat)) (get? s.slots slot.toNat).isNone (s.slotBusy slot.toNat))
      { s with slots := del s.slots slot.toNat } []

def execLnkabort (s : State) : Res :=
  s.command .lnkabort fun a s =>
    let slot := a 1
    s.answer (verdict false (decide (2 ^ 15 ≤ slot.toNat)) (!(get? s.slots slot.toNat).any fun x => x.reduction) false)
      (s.abortSlot slot.toNat) []

def execLnkquery (s : State) : Res :=
  s.command .lnkquery fun a s =>
    let port := a 1
    let p := s.port port.toNat
    s.answer (verdict false (decide (36 ≤ port.toNat)) false false) s ([p.st.code, p.lanes, p.peer, p.replays].map (BitVec.ofNat 64))

/-- `LNKEXPORT`: flags bit 0 read, bit 1 write, bit 2 atomic (log 18). -/
def execLnkexport (s : State) : Res :=
  s.command .lnkexport fun a s =>
    let peer := a 1
    let base := a 2
    let size := a 3
    let flags := a 4
    let e : LinkExport := { peer := peer.toNat, base := base.toNat, size := size.toNat, r := flags.getLsbD 0, w := flags.getLsbD 1,
                            a := flags.getLsbD 2 }
    let v := verdict false (decide (2 ^ 16 ≤ peer.toNat) || decide (8 ≤ flags.toNat)) (size != 0 && !s.inRegions base.toNat size.toNat) false
    s.answer v { s with exports := if size = 0 then s.exports.filter (fun x => x.peer != peer.toNat) else s.exports ++ [e] } []

/-! ### The event queue (R399) -/

/-- A route word within its limits. -/
def routeOk (w : Word64) : Bool :=
  w &&& 0xFFFFFFFF7E00F800#64 == 0 && decide (w.toNat / 2 ^ 21 % 16 ≤ 8) && (!w.getLsbD 31 || w.toNat % 2 ^ 11 != 0)

/-- `HOSTEVQ`: the new queue starts with TAIL 0, and held events follow. -/
def execHostevq (s : State) : Res :=
  s.command .hostevq fun a s =>
    let base := a 1
    let log := a 2
    let r1 := a 3
    let r2 := a 4
    let r3 := a 5
    let r4 := a 6
    let r5 := a 7
    let r6 := a 8
    let r7 := a 9
    let r8 := a 10
    let r9 := a 11
    let routes := [r1, r2, r3, r4, r5, r6, r7, r8, r9]
    let bad := base.toNat % 4096 != 0 || decide (log.toNat < 7) || decide (16 < log.toNat) || !routes.all routeOk
      || !s.inRegions base.toNat (0x80 + 32 * 2 ^ log.toNat)
    let unread := s.events.set && s.coherentNat (s.events.base + 0x40) 4 != s.events.tail
    let t : State := { s with events := { s.events with set := true, base := base.toNat, log := log.toNat, routes := routes, tail := 0 } }
    s.answer (verdict false bad false unread) ((t.rawWrite base.toNat (zeros 8)).postEvents) []

/-! ### Test and debug (R412–R419, R431) -/

def execCorestat (s : State) : Res :=
  s.command .corestat fun a s =>
    let core := a 1
    let c := s.core core.toNat
    s.answer (verdict false (decide (256 ≤ core.toNat)) false false) s
      [c.lanemap, if c.inService then 1 else 0, BitVec.ofNat 64 c.replays, BitVec.ofNat 64 c.corrected, BitVec.ofNat 64 c.uncorrected]

def execTestconf (s : State) : Res :=
  s.command .testconf fun a s =>
    let interval := a 1
    let drain := a 2
    s.answer (verdict false (decide (3600000 < interval.toNat) || drain == 0 || decide (1000 < drain.toNat)) false false)
      { s with test := { s.test with interval := interval.toNat, drain := drain.toNat,
                                     since := if s.test.draining.isSome then s.test.since else s.ticks } } []

def execDbgarea (s : State) : Res :=
  s.command .dbgarea fun a s =>
    let num := a 1
    let base := a 2
    let size := a 3
    s.answer (verdict (s.noCtx num) (base.toNat % 4096 != 0) false false)
      (s.modCtx num.toNat fun c => { c with dumpBase := base.toNat, dumpSize := size.toNat }) []

/-- `STOPCORE` (R415): OK once the dump is written. -/
def execStopcore (s : State) : Res :=
  s.command .stopcore fun a s =>
    let num := a 1
    let core := a 2
    let n := num.toNat
    let c := core.toNat
    let mine := (s.core c).stop.any fun z => z.ctx == n && z.code == 0x55
    let bad := (s.ctx n).state != .running || (s.ctx n).dumpSize == 0 || ((s.core c).stop.isSome && !mine)
    match verdict (s.noCtx num) (decide (256 ≤ c)) bad false with
    | some r => .done s r []
    | none =>
      let t := (if mine then s else s.freeze c n 0x55 0 none).writeDump c
      if (t.core c).stop.any fun z => z.dumped then .done t 0 [] else .wait t

/-- A group that `DBGRESUME` may act on: stopped by R413–R415, its dump written, or held for a forwarded trap (R431). -/
def Core.resumable (c : Core) (ctx : Nat) (g : Group) : Bool :=
  g.ctx == ctx && match g.hold, g.halt with
    | .debug false, _ | .forwarded _ false, _ => true
    | _, .stopped false => c.stop.all fun z => z.dumped
    | _, _ => false

/-- A precise stop of a group is over. -/
def Group.unstop (g : Group) : Group := if g.halt = .stopped false then { g with halt := .stopped true } else g

/-- One group may go on: its keeper resumes it in place, or it is restored (R413, R414, R431). -/
def Group.letGo (g : Group) (step : Bool) : Group :=
  let g := { g.unstop with stepping := if step then g.liveMask else 0 }
  match g.hold with
  | .debug _ => { g with hold := .debug true }
  | .forwarded k _ => { g with hold := .forwarded k true }
  | _ => g

/-- `DBGRESUME` (R415, R419, R431).  Where it names every group with the fault flag, the group of the lowest slot gives the fault record
and the kernel that becomes Faulted: the manual names none (log 12). -/
def execDbgresume (s : State) : Res :=
  s.command .dbgresume fun a s =>
    let num := a 1
    let core := a 2
    let slot := a 3
    let step := a 4
    let fault := a 5
    let n := num.toNat
    let c := core.toNat
    let k := s.core c
    let all := slot == 0xFF
    let mine := (k.groups.filter fun g => (all || g.1 == slot.toNat) && k.resumable n g.2).map (·.1)
    let v := verdict (s.noCtx num)
      (decide (256 ≤ c) || (decide (32 ≤ slot.toNat) && !all) || decide (1 < step.toNat) || decide (1 < fault.toNat)) mine.isEmpty false
    match v with
    | some r => .done s r []
    | none =>
      let first := mine.headD 0
      if fault = 1 then
        let kern := ((s.group? c first).bind fun g => s.team? c g.team).map (·.kernel)
        .done (s.faultCtx n 0x20 kern (s.faultRecord c first) c first) 0 []
      else
        let t := s.modCore c fun k =>
          let k : Core := { k with groups := k.groups.map fun g =>
            (g.1, if mine.contains g.1 then g.2.letGo (step == 1) else if all then g.2.unstop else g.2) }
          if k.groups.any fun g => g.2.halt == .stopped false then k else { k with stop := none }
        .done t 0 []

/-- `WATCHSET`: flags bit 0 read, bit 1 write (log 18). -/
def execWatchset (s : State) : Res :=
  s.command .watchset fun a s =>
    let num := a 1
    let idx := a 2
    let base := a 3
    let s_ := a 4
    let flags := a 5
    let bad := decide (3 < idx.toNat) || decide (3 < flags.toNat)
      || (flags != 0 && (decide (s_.toNat < 3) || decide (30 < s_.toNat) || base.toNat % 2 ^ min 30 s_.toNat != 0))
    let w : Watch := { base := base, size := 2 ^ min 30 s_.toNat, read := flags.getLsbD 0, write := flags.getLsbD 1 }
    s.answer (verdict (s.noCtx num) bad false false)
      (s.modCtx num.toNat fun c => { c with watches := if flags = 0 then del c.watches idx.toNat else put c.watches idx.toNat w }) []

/-! ### Readiness, power and cooling (R421, R423, R425) -/

def execDevstat (s : State) : Res :=
  s.command .devstat fun _ s => .done s 0 [s.devstat]

def execPwrcap (s : State) : Res :=
  s.command .pwrcap fun a s =>
    let watts := a 1
    s.answer (verdict false (decide (watts.toNat < 600) || decide (1800 < watts.toNat)) false false) { s with powerCap := watts.toNat } []

/-- `DIERESUME` (R425): the scans pass; a core that fails one leaves service by its own event. -/
def execDieresume (s : State) : Res :=
  s.command .dieresume fun _ s =>
    s.answer (verdict false false (!s.therm || !(List.range 4).all s.cool.contains) false)
      { s with devstat := (s.devstat &&& ~~~ 0x2000000#64) ||| 0xF0000#64 } []

end Sys2Proof.Machine
end

