-- ==== Sys2Proof/Machine/Float.lean ====
section
/-! DEFINITION. The floating-point and conversion instructions, opcodes 0x50–0x70 (R310–R322). -/

namespace Sys2Proof.Machine

/-- The value of an FP32 source. -/
def Group.srcF (g : Group) (j : Nat) (x : Spec) : FVal := decodeF .f32 (g.src32 j x).toNat

/-- A result pattern as a word. -/
def patWord (x : Nat) : Word64 := BitVec.ofNat 64 x

/-- A value rounded to a type, with `.sat` (R310). -/
def roundSat (t : Ty) (rnd : Rnd) (sat : Bool) (v : FVal) : Nat := if sat then satF t (roundTo t rnd v) else roundTo t rnd v

/-- SUB bit 0. -/
def subBit (f : FA) : Bool := f.sub.val % 2 == 1

/-! ### R311 -/

/-- A two-source rounded operation in format A. -/
def floatA (s : State) (i : Instr) (f : FA) (r : FVal → FVal → FVal) : Res :=
  issueAlu s i f.guard f.d false false fun g j => patWord (roundSat .f32 f.rnd (subBit f) (r (g.srcF j f.a) (g.srcF j f.b)))

/-- In format W, rounding to nearest-even. -/
def floatW (s : State) (i : Instr) (f : FW) (r : FVal → FVal → FVal) : Res :=
  issueAlu s i .always f.d false false fun g j => patWord (roundTo .f32 .rn (r (g.srcF j f.a) (decodeF .f32 f.imm.toNat)))

def execFaddA (f : FA) (s : State) : Res := floatA s (.faddA f) f fun a b => exactSum f.rnd [a, b]
def execFaddW (f : FW) (s : State) : Res := floatW s (.faddW f) f fun a b => exactSum .rn [a, b]
def execFsub (f : FA) (s : State) : Res := floatA s (.fsub f) f fun a b => exactSum f.rnd [a, b.neg]
def execFmulA (f : FA) (s : State) : Res := floatA s (.fmulA f) f FVal.mul
def execFmulW (f : FW) (s : State) : Res := floatW s (.fmulW f) f FVal.mul

/-- FMIN and FMAX in format A and format W. -/
def minMaxA (s : State) (i : Instr) (f : FA) (isMax : Bool) : Res :=
  issueAlu s i f.guard f.d false false fun g j =>
    patWord (minMaxF .f32 isMax (subBit f) (g.src32 j f.a).toNat (g.src32 j f.b).toNat)
def minMaxW (s : State) (i : Instr) (f : FW) (isMax : Bool) : Res :=
  issueAlu s i .always f.d false false fun g j => patWord (minMaxF .f32 isMax false (g.src32 j f.a).toNat f.imm.toNat)

def execFminA (f : FA) (s : State) : Res := minMaxA s (.fminA f) f false
def execFminW (f : FW) (s : State) : Res := minMaxW s (.fminW f) f false
def execFmaxA (f : FA) (s : State) : Res := minMaxA s (.fmaxA f) f true
def execFmaxW (f : FW) (s : State) : Res := minMaxW s (.fmaxW f) f true

/-! ### R312 -/

/-- a × b + c with one rounding. -/
def fma (rnd : Rnd) (a b c : FVal) : FVal := exactSum rnd [a.mul b, c]

def execFfmaA (f : FA) (s : State) : Res :=
  issueAlu s (.ffmaA f) f.guard f.d false false fun g j =>
    patWord (roundSat .f32 f.rnd (subBit f)
      (fma f.rnd (g.srcF j f.a) (g.srcF j f.b) (decodeF .f32 (g.srcC32 j f.c).toNat)))
/-- a × IMM32 + d. -/
def execFfmaW (f : FW) (s : State) : Res :=
  issueAlu s (.ffmaW f) .always f.d false false fun g j =>
    patWord (roundTo .f32 .rn (fma .rn (g.srcF j f.a) (decodeF .f32 f.imm.toNat) (g.srcF j f.d)))

/-! ### R313, R314 -/

/-- The word that FSET writes. -/
def fsetWord (sub a b : Nat) : Word32 :=
  let f := ieeeOf .f32
  if (f.decode a).isNan || (f.decode b).isNan then
    match sub with
    | 1 => 1
    | 6 => 2
    | 7 => 1
    | _ => 0
  else
    let o := compare (valueKey f a) (valueKey f b)
    match sub with
    | 6 => match o with
      | .lt => -1
      | .eq => 0
      | .gt => 1
    | 7 => 0
    | 0 => if o = .eq then 1 else 0
    | 1 => if o = .eq then 0 else 1
    | 2 => if o = .lt then 1 else 0
    | 3 => if o = .gt then 0 else 1
    | 4 => if o = .gt then 1 else 0
    | _ => if o = .lt then 0 else 1

def execFsetA (f : FA) (s : State) : Res :=
  issueAlu s (.fsetA f) f.guard f.d false false fun g j =>
    (fsetWord f.sub.val (g.src32 j f.a).toNat (g.src32 j f.b).toNat).setWidth 64
def execFsetW (f : FW) (s : State) : Res :=
  issueAlu s (.fsetW f) .always f.d false false fun g j => (fsetWord 6 (g.src32 j f.a).toNat f.imm.toNat).setWidth 64

/-- The class bit of a pattern (R314). -/
def fclass (t : Ty) (x : Nat) : Nat :=
  if t = .vt8 then (if x % 256 = 0x80 then 9 else if x % 256 = 0 then 4 else if x.testBit 7 then 1 else 6)
  else
    let f := ieeeOf t
    let neg := x.testBit (f.ew + f.fw)
    let ex := x / 2 ^ f.fw % 2 ^ f.ew
    let fr := x % 2 ^ f.fw
    if ex = f.expMax then
      if fr = 0 then (if neg then 0 else 7) else if fr.testBit (f.fw - 1) then 9 else 8
    else if ex = 0 then
      if fr = 0 then (if neg then 3 else 4) else (if neg then 2 else 5)
    else (if neg then 1 else 6)

def execFclass (f : FA) (s : State) : Res :=
  issueAlu s (.fclass f) f.guard f.d false false fun g j =>
    patWord (2 ^ fclass f.ty ((g.src32 j f.a).toNat % 2 ^ fwidth f.ty))

/-! ### R315, R316 -/

/-- A one-source SFU function. -/
def sfuUn (s : State) (i : Instr) (f : FA) (r : Rnd → FVal → Nat) : Res :=
  issueSfu s i f.guard f.d false fun g j => patWord (r f.rnd (g.srcF j f.a))

def execFrcp (f : FA) (s : State) : Res := sfuUn s (.frcp f) f frcp
def execFrsq (f : FA) (s : State) : Res := sfuUn s (.frsq f) f frsq
def execFsqrt (f : FA) (s : State) : Res := sfuUn s (.fsqrt f) f fsqrt
def execFdiv (f : FA) (s : State) : Res :=
  issueSfu s (.fdiv f) f.guard f.d false fun g j => patWord (fdiv f.rnd (g.srcF j f.a) (g.srcF j f.b))
def execFexp2 (f : FA) (s : State) : Res := sfuUn s (.fexp2 f) f fexp2
def execFlog2 (f : FA) (s : State) : Res := sfuUn s (.flog2 f) f flog2
def execFsin (f : FA) (s : State) : Res := sfuUn s (.fsin f) f fsin
def execFcos (f : FA) (s : State) : Res := sfuUn s (.fcos f) f fcos
def execFtanh (f : FA) (s : State) : Res := sfuUn s (.ftanh f) f ftanh

/-! ### R317 -/

/-- Element e of a packed pair (R96). -/
def half16 (x : Word32) (e : Nat) : Nat := x.toNat / 2 ^ (16 * e) % 2 ^ 16

/-- A packed pair. -/
def pair16 (x y : Nat) : Word64 := BitVec.ofNat 64 (x % 2 ^ 16 + y % 2 ^ 16 * 2 ^ 16)

/-- A packed-pair instruction: element e of the result from element e of each source. -/
def packed (s : State) (i : Instr) (f : FA) (r : Nat → Nat → Nat → Nat) : Res :=
  issueAlu s i f.guard f.d false false fun g j =>
    let at_ := fun e => r (half16 (g.src32 j f.a) e) (half16 (g.src32 j f.b) e) (half16 (g.srcC32 j f.c) e)
    pair16 (at_ 0) (at_ 1)

def execHadd2 (f : FA) (s : State) : Res :=
  packed s (.hadd2 f) f fun a b _ => roundSat .f16 f.rnd (subBit f) (exactSum f.rnd [decodeF .f16 a, decodeF .f16 b])
def execHmul2 (f : FA) (s : State) : Res :=
  packed s (.hmul2 f) f fun a b _ => roundSat .f16 f.rnd (subBit f) ((decodeF .f16 a).mul (decodeF .f16 b))
def execHfma2 (f : FA) (s : State) : Res :=
  packed s (.hfma2 f) f fun a b c =>
    roundSat .f16 f.rnd (subBit f) (fma f.rnd (decodeF .f16 a) (decodeF .f16 b) (decodeF .f16 c))
def execHmnmx2 (f : FA) (s : State) : Res :=
  packed s (.hmnmx2 f) f fun a b _ => minMaxF .f16 (subBit f) (f.sub.val / 2 == 1) a b
def execBfma2 (f : FA) (s : State) : Res :=
  packed s (.bfma2 f) f fun a b c =>
    roundSat .bf16 f.rnd (subBit f) (fma f.rnd (decodeF .bf16 a) (decodeF .bf16 b) (decodeF .bf16 c))

/-! ### R318 -/

def isFloat : Ty → Bool
  | .f32 | .f16 | .bf16 | .vt8 => true
  | _ => false

/-- A value saturated to an integer type and written as R269 and R100 give. -/
def satPut (t : Ty) (x : Int) : Word64 := putInt t (clampInt x (loOf t) (hiOf t))

/-- The conversion of R109 for a pair of types. -/
def convert (src dst : Ty) (rnd : Rnd) (wrap : Bool) (x : Word64) : Word64 :=
  if isFloat src then
    let p := x.toNat % 2 ^ fwidth src
    let v := decodeF src p
    if isFloat dst then patWord (if src = dst ∧ !v.isNan then p else roundTo dst rnd v)
    else
      match v with
      | .nan => 0
      | .inf neg => putInt dst (if neg then loOf dst else hiOf dst)
      | .fin neg m e => satPut dst (toIntF rnd neg m e)
  else
    let n := intOf src x
    if isFloat dst then patWord (roundTo dst rnd (ofInt n))
    else if wrap ∨ src.width < dst.width then putInt dst n
    else satPut dst n

def execCvt (f : FCvt) (s : State) : Res :=
  issueAlu s (.cvt f) f.guard f.d f.dty.wide f.dty.signed fun g j =>
    if f.pk then
      pair16 (roundTo f.dty f.rnd (g.srcF j f.a)) (roundTo f.dty f.rnd (g.srcF j f.b))
    else
      let a := g.src j f.sty f.a
      convert f.sty f.dty f.rnd f.wrap (if f.hi then a >>> 16 else a)

/-! ### R319 -/

/-- A word of fields of `w` bits, element 0 lowest. -/
def packFields (w : Nat) (l : List Nat) : Word32 := BitVec.ofNat 32 (l.foldr (fun x acc => x % 2 ^ w + 2 ^ w * acc) 0)

/-- The words that CVTQ writes for a thread, and its scale byte. -/
def cvtqOf (f : FCvq) (x : List FVal) : List Word32 × Nat :=
  let y := match f.had with
    | .none => x
    | .had16 => hadamard f.rnd 16 x
    | .had32 => hadamard f.rnd 32 x
  let words := fun w (l : List Nat) =>
    (List.range (l.length * w / 32)).map fun k => packFields w ((l.drop (k * (32 / w))).take (32 / w))
  match f.ty with
  | .e2m1 =>
    let q := quantiseBlock f.rnd y
    (words 4 q.2, q.1)
  | .vt8 => (words 8 (y.map (roundTo .vt8 f.rnd)), 0)
  | t => (words 16 (y.map (roundTo t f.rnd)), 0)

/-- The block length of R319. -/
def cvtqLen (f : FCvq) : Nat := if f.ty = .e2m1 ∨ f.had = .had32 then 32 else 16

/-- The number of a main register. -/
def mainNum : Spec → Nat
  | .main n => n.val
  | _ => 0

/-- The 2-bit byte select of an immediate specifier. -/
def immSel : Spec → Nat
  | .imm x => x.toNat % 4
  | _ => 0

def setByte (x : Word32) (n v : Nat) : Word32 := (x &&& ~~~ (0xFF#32 <<< (8 * n))) ||| (BitVec.ofNat 32 (v % 256) <<< (8 * n))

def execCvtq (f : FCvq) (s : State) : Res :=
  issue s (.cvtq f) f.guard fun x s =>
    if x.m = 0 then s
    else
      let of := fun j => cvtqOf f ((List.range (cvtqLen f)).map fun k => decodeF .f32 (x.grp.mainAt (mainNum f.a + k) j).toNat)
      let res := (List.range 64).map fun j => if has x.m j then of j else ([], 0)
      let wordAt := fun k j => (res.getD j ([], 0)).1.getD k 0
      let n := (of (lowLane x.m)).1.length
      s.modCore x.core fun c =>
        let c := (List.range n).foldl (fun c k => c.writeReg x.slot (.v (mainNum f.d + k)) x.m (wordAt k)) c
        let c := if f.ty = .e2m1 then
            c.writeDst x.slot x.m false false f.c fun j =>
              (setByte (x.grp.src32 j f.c) (immSel f.b) (res.getD j ([], 0)).2).setWidth 64
          else c
        c.updateL x.slot x.m fun j => (wordAt 0 j).setWidth 64

/-! ### R320 -/

def execCvtd (f : FA) (s : State) : Res :=
  issueAlu s (.cvtd f) f.guard f.d false false fun g j =>
    let el := fun k => roundTo f.ty f.rnd (scaledE2m1 (g.src32 j f.b).toNat ((g.src32 j f.a).toNat / 16 ^ k % 16))
    if f.ty = .f32 then patWord (el f.sub.val) else pair16 (el (2 * f.sub.val)) (el (2 * f.sub.val + 1))

/-! ### R321, R322 -/

/-- An integral value in the direction of `rnd`; zeros keep the sign of a. -/
def frnd (rnd : Rnd) : FVal → Nat
  | .nan => fpNan
  | .inf neg => fpInf neg
  | .fin neg m e => roundTo .f32 .rn (.fin neg (roundAt rnd neg m e 0 false) 0)

def execFrnd (f : FA) (s : State) : Res :=
  issueAlu s (.frnd f) f.guard f.d false false fun g j => patWord (frnd f.rnd (g.srcF j f.a))

/-- a × 2^b. -/
def fscale (rnd : Rnd) (b : Int) : FVal → Nat
  | .nan => fpNan
  | .inf neg => fpInf neg
  | .fin neg m e => roundTo .f32 rnd (.fin neg m (e + b))

def execFscale (f : FA) (s : State) : Res :=
  issueAlu s (.fscale f) f.guard f.d false false fun g j => patWord (fscale f.rnd (g.src32 j f.b).toInt (g.srcF j f.a))

end Sys2Proof.Machine
end

