-- ==== Sys2Proof/Machine/Integer.lean ====
section
/-! DEFINITION. The integer instructions, opcodes 0x20–0x4F (R290–R309). -/

namespace Sys2Proof.Machine

/-! ### Shared shapes -/

/-- Src(S, T) as the number that T makes of it (R274). -/
def Group.srcInt (g : Group) (j : Nat) (t : Ty) (x : Spec) : Int := intOf t (g.src j t x)

/-- `.sat` (R290): clamp to the range of T. -/
def satInt (sat : Bool) (t : Ty) (r : Int) : Int := if sat then clampInt r (loOf t) (hiOf t) else r

/-- A two-source integer instruction in format A (R290): D := Put(r(a, b), T), clamped first under `.sat`. -/
def intA (s : State) (i : Instr) (f : FA) (r : Int → Int → Int) : Res :=
  issueAlu s i f.guard f.d false f.ty.signed fun g j =>
    putInt f.ty (satInt (f.sub.val % 2 == 1) f.ty (r (g.srcInt j f.ty f.a) (g.srcInt j f.ty f.b)))

/-- A two-source integer instruction in format W (R84, R290): the immediate is the last source. -/
def intW (s : State) (i : Instr) (f : FW) (r : Int → Int → Int) : Res :=
  issueAlu s i .always f.d false f.ty.signed fun g j =>
    putInt f.ty (r (g.srcInt j f.ty f.a) (intOf f.ty (immOf f.ty f.imm)))

/-- A 32-bit instruction of three raw sources in format A. -/
def rawA (s : State) (i : Instr) (f : FA) (signed : Bool) (r : Word32 → Word32 → Word32 → Word32) : Res :=
  issueAlu s i f.guard f.d false signed fun g j =>
    widen signed (r (g.src32 j f.a) (g.src32 j f.b) (g.srcC32 j f.c))

/-- Bitwise functions of two unsigned numbers. -/
def andInt (a b : Int) : Int := Int.ofNat (a.toNat &&& b.toNat)
def orInt (a b : Int) : Int := Int.ofNat (a.toNat ||| b.toNat)
def xorInt (a b : Int) : Int := Int.ofNat (a.toNat ^^^ b.toNat)

/-! ### R290 -/

def execIaddA (f : FA) (s : State) : Res := intA s (.iaddA f) f fun a b => a + b
def execIaddW (f : FW) (s : State) : Res := intW s (.iaddW f) f fun a b => a + b
def execIsubA (f : FA) (s : State) : Res := intA s (.isubA f) f fun a b => a - b
/-- The W form computes IMM32 − A (R91). -/
def execIsubW (f : FW) (s : State) : Res := intW s (.isubW f) f fun a imm => imm - a
def execImulA (f : FA) (s : State) : Res := intA s (.imulA f) f fun a b => a * b
def execImulW (f : FW) (s : State) : Res := intW s (.imulW f) f fun a b => a * b
/-- Floor(a × b / 2^32). -/
def execImulh (f : FA) (s : State) : Res := intA s (.imulh f) f fun a b => (a * b).fdiv (2 ^ 32)
def execIminA (f : FA) (s : State) : Res := intA s (.iminA f) f fun a b => min a b
def execIminW (f : FW) (s : State) : Res := intW s (.iminW f) f fun a b => min a b
def execImaxA (f : FA) (s : State) : Res := intA s (.imaxA f) f fun a b => max a b
def execImaxW (f : FW) (s : State) : Res := intW s (.imaxW f) f fun a b => max a b
def execAndA (f : FA) (s : State) : Res := intA s (.andA f) f andInt
def execAndW (f : FW) (s : State) : Res := intW s (.andW f) f andInt
def execOrA (f : FA) (s : State) : Res := intA s (.orA f) f orInt
def execOrW (f : FW) (s : State) : Res := intW s (.orW f) f orInt
def execXorA (f : FA) (s : State) : Res := intA s (.xorA f) f xorInt
def execXorW (f : FW) (s : State) : Res := intW s (.xorW f) f xorInt

/-! ### R291, R292 -/

/-- One word of a multi-word sum: the sum or difference with carry in, or its carry out. -/
def addCarry (sb cy : Bool) (a b c : Word32) : Word32 :=
  let c1 : Int := (c.toNat % 2 : Nat)
  let t : Int := if sb then (a.toNat : Int) - b.toNat - c1 else (a.toNat : Int) + b.toNat + c1
  if cy then (if t < 0 ∨ 2 ^ 32 ≤ t then 1 else 0) else BitVec.ofInt 32 t

def execIaddc (f : FA) (s : State) : Res :=
  rawA s (.iaddc f) f false (addCarry (f.sub.val / 2 == 1) (f.sub.val % 2 == 1))

def execImadA (f : FA) (s : State) : Res :=
  issueAlu s (.imadA f) f.guard f.d false f.ty.signed fun g j =>
    putInt f.ty (g.srcInt j f.ty f.a * g.srcInt j f.ty f.b + intOf f.ty ((g.srcC32 j f.c).setWidth 64))

/-- D := A × IMM32 + D. -/
def execImadW (f : FW) (s : State) : Res :=
  issueAlu s (.imadW f) .always f.d false f.ty.signed fun g j =>
    putInt f.ty (g.srcInt j f.ty f.a * intOf f.ty (immOf f.ty f.imm) + g.srcInt j f.ty f.d)

/-- A 64-bit D and C; a narrower C is widened by the sign of TYPE (R269, log 39). -/
def execImadw (f : FA) (s : State) : Res :=
  issueAlu s (.imadw f) f.guard f.d true f.ty.signed fun g j =>
    BitVec.ofInt 64 (g.srcInt j f.ty f.a * g.srcInt j f.ty f.b + (g.srcC64 j f.ty.signed f.c).toNat)

/-! ### R293 -/

/-- The quotient of R293: all ones at b = 0; it wraps at Lo(T) / −1. -/
def divInt (a b : Int) : Int := if b = 0 then -1 else a.tdiv b

/-- The remainder of R293: a at b = 0; the sign of a otherwise. -/
def remInt (a b : Int) : Int := if b = 0 then a else a.tmod b

def execIdiv (f : FA) (s : State) : Res :=
  issueSfu s (.idiv f) f.guard f.d f.ty.signed fun g j => putInt f.ty (divInt (g.srcInt j f.ty f.a) (g.srcInt j f.ty f.b))
def execIrem (f : FA) (s : State) : Res :=
  issueSfu s (.irem f) f.guard f.d f.ty.signed fun g j => putInt f.ty (remInt (g.srcInt j f.ty f.a) (g.srcInt j f.ty f.b))

/-! ### R294 -/

/-- A one-source integer instruction. -/
def intUn (s : State) (i : Instr) (f : FA) (r : Int → Int) : Res :=
  issueAlu s i f.guard f.d false f.ty.signed fun g j =>
    putInt f.ty (satInt (f.sub.val % 2 == 1) f.ty (r (g.srcInt j f.ty f.a)))

def execIabs (f : FA) (s : State) : Res := intUn s (.iabs f) f fun a => (a.natAbs : Int)
def execIneg (f : FA) (s : State) : Res := intUn s (.ineg f) f fun a => -a
/-- NOT a at the width of the unsigned type. -/
def execNotA (f : FA) (s : State) : Res := intUn s (.notA f) f fun a => -1 - a

/-! ### R295 -/

/-- The bit of a Boolean function of three inputs (R295). -/
def lop3Bit (table : BitVec 8) (inv a b c : Bool) : Bool :=
  (table.getLsbD ((if a then 1 else 0) + (if b then 2 else 0) + (if c then 4 else 0))) ^^ inv

/-- A word from its bits. -/
def wordOf (p : Nat → Bool) : Word32 :=
  (List.range 32).foldl (fun x j => if p j then x ||| BitVec.twoPow 32 j else x) 0

def lop3 (table : BitVec 8) (inv : Bool) (a b c : Word32) : Word32 :=
  wordOf fun j => lop3Bit table inv (a.getLsbD j) (b.getLsbD j) (c.getLsbD j)

def execLop3 (f : FLop) (s : State) : Res :=
  issueAlu s (.lop3 f) f.guard f.d false false fun g j =>
    (lop3 f.table f.inv (g.src32 j f.a) (g.src32 j f.b) (g.srcC32 j f.c)).setWidth 64

/-! ### R296, R297 -/

def shl32 (a n : Word32) : Word32 := if 32 ≤ n.toNat then 0 else a <<< n.toNat
def shr32 (a n : Word32) : Word32 := if 32 ≤ n.toNat then 0 else a >>> n.toNat
def sar32 (a n : Word32) : Word32 := a.sshiftRight (min n.toNat 31)
def rot32 (right : Bool) (a n : Word32) : Word32 :=
  if right then a.rotateRight (n.toNat % 32) else a.rotateLeft (n.toNat % 32)

/-- The double-width shift of R297, A high and B low. -/
def shf (right : Bool) (a b c : Word32) : Word32 :=
  let x : Nat := a.toNat * 2 ^ 32 + b.toNat
  let n := min c.toNat 64
  if right then BitVec.ofNat 32 (x / 2 ^ n) else BitVec.ofNat 32 (x * 2 ^ n % 2 ^ 64 / 2 ^ 32)

def execShl (f : FA) (s : State) : Res := rawA s (.shl f) f false fun a b _ => shl32 a b
def execShr (f : FA) (s : State) : Res := rawA s (.shr f) f false fun a b _ => shr32 a b
def execSar (f : FA) (s : State) : Res := rawA s (.sar f) f true fun a b _ => sar32 a b
def execRot (f : FA) (s : State) : Res := rawA s (.rot f) f false fun a b _ => rot32 (f.sub.val % 2 == 1) a b
def execShf (f : FA) (s : State) : Res := rawA s (.shf f) f false (shf (f.sub.val % 2 == 1))

/-! ### R298 -/

def popc32 (a : Word32) : Word32 := BitVec.ofNat 32 ((List.range 32).countP a.getLsbD)
def clz32 (a : Word32) : Word32 := BitVec.ofNat 32 (((List.range 32).find? fun n => a.getLsbD (31 - n)).getD 32)
def ctz32 (a : Word32) : Word32 := BitVec.ofNat 32 (((List.range 32).find? fun n => a.getLsbD n).getD 32)
def brev32 (a : Word32) : Word32 := wordOf fun j => a.getLsbD (31 - j)

def execPopc (f : FA) (s : State) : Res := rawA s (.popc f) f false fun a _ _ => popc32 a
def execClz (f : FA) (s : State) : Res := rawA s (.clz f) f false fun a _ _ => clz32 a
def execCtz (f : FA) (s : State) : Res := rawA s (.ctz f) f false fun a _ _ => ctz32 a
def execBrev (f : FA) (s : State) : Res := rawA s (.brev f) f false fun a _ _ => brev32 a

/-! ### R299–R301 -/

/-- Field extract (R299): bits beyond bit 31 read a<31> for `.s32` and 0 for `.n32`. -/
def bfe (signed : Bool) (a b c : Word32) : Word32 :=
  let p := b.toNat % 256
  let w := min (c.toNat % 256) 32
  let fieldBit := fun j => if p + j ≤ 31 then a.getLsbD (p + j) else signed && a.getLsbD 31
  if w = 0 then 0 else wordOf fun j => if j < w then fieldBit j else signed && fieldBit (w - 1)

/-- Field insert (R300). -/
def bfi (old a b c : Word32) : Word32 :=
  let p := b.toNat % 256
  let w := min (c.toNat % 256) 32
  wordOf fun j => if p ≤ j ∧ j < p + w then a.getLsbD (j - p) else old.getLsbD j

/-- Byte permute (R301). -/
def prmt (a b c : Word32) : Word32 :=
  let x : BitVec 64 := b ++ a
  let byteOf := fun j =>
    let sel := c.toNat / 16 ^ j % 16
    let y : BitVec 8 := (x >>> (8 * (sel % 8))).setWidth 8
    if sel < 8 then y else ~~~ y
  byteOf 3 ++ byteOf 2 ++ byteOf 1 ++ byteOf 0

def execBfe (f : FA) (s : State) : Res := rawA s (.bfe f) f f.ty.signed (bfe f.ty.signed)
def execBfi (f : FA) (s : State) : Res :=
  issueAlu s (.bfi f) f.guard f.d false false fun g j =>
    (bfi (g.src32 j f.d) (g.src32 j f.a) (g.src32 j f.b) (g.srcC32 j f.c)).setWidth 64
def execPrmt (f : FA) (s : State) : Res := rawA s (.prmt f) f false prmt

/-! ### R302, R303 -/

/-- The comparison that SUB names, on an ordering (R302, R313). -/
def cmpBit (sub : Nat) (o : Ordering) : Bool :=
  match sub with
  | 0 => o == .eq
  | 1 => o != .eq
  | 2 => o == .lt
  | 3 => o != .gt
  | 4 => o == .gt
  | _ => o != .lt

/-- The word of `.cmp3` (R302). -/
def cmp3 : Ordering → Word32
  | .lt => -1
  | .eq => 0
  | .gt => 1

/-- The word that `ISET` writes. -/
def isetWord (sub : Nat) (o : Ordering) : Word32 := if sub = 6 then cmp3 o else if cmpBit sub o then 1 else 0

def execIsetA (f : FA) (s : State) : Res :=
  issueAlu s (.isetA f) f.guard f.d false f.ty.signed fun g j =>
    widen f.ty.signed (isetWord f.sub.val (compare (g.srcInt j f.ty f.a) (g.srcInt j f.ty f.b)))
def execIsetW (f : FW) (s : State) : Res :=
  issueAlu s (.isetW f) .always f.d false f.ty.signed fun g j =>
    widen f.ty.signed (cmp3 (compare (g.srcInt j f.ty f.a) (intOf f.ty (immOf f.ty f.imm))))
def execIsel (f : FA) (s : State) : Res :=
  issueAlu s (.isel f) f.guard f.d f.ty.wide false fun g j =>
    if g.srcC32 j f.c != 0 then g.src j f.ty f.a else g.src j f.ty f.b

/-! ### R304–R306 -/

def execMov (f : FA) (s : State) : Res :=
  issueAlu s (.mov f) f.guard f.d f.ty.wide false fun g j => g.src j f.ty f.a

/-- `.s32` in a `g` destination is sign-extended, `.n32` and `.f32` zero-extended (R269, R305). -/
def execMovi (f : FW) (s : State) : Res :=
  issueAlu s (.movi f) .always f.d f.ty.wide f.ty.signed fun _ _ => immOf f.ty f.imm

/-- The value of one lane of M, 0 where that lane is not in M. -/
def execMovg (f : FA) (s : State) : Res :=
  issue s (.movg f) f.guard fun x s =>
    let j := (x.grp.src32 (lowLane x.m) f.b).toNat
    let v := if j < 64 ∧ has x.m j then x.grp.src j f.ty f.a else 0
    s.modCore x.core fun c => c.writeAlu x.slot x.m true false f.d fun _ => v

/-! ### R307–R309 -/

/-- A is widened by the sign of TYPE (R269, log 39), B by the sign of its type. -/
def execLea (f : FA) (s : State) : Res :=
  issueAlu s (.lea f) f.guard f.d true false fun g j =>
    g.src64 j f.ty.signed f.a + widen f.ty.signed (g.src32 j f.b) * BitVec.ofNat 64 (2 ^ f.sub.val)
def execIadd64 (f : FA) (s : State) : Res :=
  issueAlu s (.iadd64 f) f.guard f.d true f.ty.signed fun g j =>
    putInt f.ty (satInt (f.sub.val % 2 == 1) f.ty (g.srcInt j f.ty f.a + g.srcInt j f.ty f.b))

/-- Byte j of a word under a byte type. -/
def byteInt (t : Ty) (x : Word32) (j : Nat) : Int := intOf t ((x >>> (8 * j)).setWidth 64)

/-- The sum of R309, with C under `.s32` or `.n32`. -/
def idot4 (t u : Ty) (sat : Bool) (a b c : Word32) : Word64 :=
  let r := (List.range 4).foldl (fun acc j => acc + byteInt t a j * byteInt t b j) (intOf u (c.setWidth 64))
  putInt u (satInt sat u r)

def execIdot4 (f : FA) (s : State) : Res :=
  let u : Ty := if f.ty.signed then .s32 else .n32
  issueAlu s (.idot4 f) f.guard f.d false u.signed fun g j =>
    idot4 f.ty u (f.sub.val % 2 == 1) (g.src32 j f.a) (g.src32 j f.b) (g.srcC32 j f.c)

end Sys2Proof.Machine
end

