-- ==== Sys2Proof/Machine/Lane.lean ====
section
/-! DEFINITION. The lane collectives, opcodes 0x80–0x87 (R43–R46, R323–R331): arrival, completion and delivery. -/

namespace Sys2Proof.Machine

/-! ### Arrival (R43, R45, R323) -/

/-- A gang arrives at a collective: each thread of M captures its operands and the mask `k`, and waits at its collective.
A thread that the mask does not name raises the membership trap. -/
def arrive (s : State) (i : Instr) (guard : Guard) (c : Spec) (a b : Group → Nat → Word64) : Res :=
  issueWith s i guard fun x s =>
    let k := match c with
      | .k n => n.val
      | _ => 0
    let sup := x.grp.maskReg k
    if x.m &&& ~~~ sup ≠ 0 then (x.trap s 0x03 0 [x.m &&& ~~~ sup, sup], false)
    else
      let s := s.modGroup x.core x.slot fun g =>
        let g := g.onThreads x.m fun _ t => { t with st := .collWait k }
        { g with arrivals := g.arrivals ++ (lanesOf x.m).map fun j =>
          { lane := j, instr := i, pc := (g.thread j).pc, supplied := sup, a := a x.grp j, b := b x.grp j, mark := 0, result := 0 } }
      ((x.advance s).modCore x.core fun c => c.checkGroup x.slot, false)

def execShfl (f : FA) (s : State) : Res :=
  arrive s (.shfl f) f.guard (match f.c with
    | .spec c => c
    | .imm10 _ => .zero) (fun g j => g.src j f.ty f.a) fun g j => (g.src32 j f.b).setWidth 64
def execShflx (f : FShx) (s : State) : Res :=
  arrive s (.shflx f) f.guard f.c (fun g j => g.src j f.ty f.a) fun g j => (g.src32 j f.b).setWidth 64

/-- Field C of a collective. -/
def maskSpec (f : FA) : Spec :=
  match f.c with
  | .spec c => c
  | .imm10 _ => .zero

def execBcast (f : FA) (s : State) : Res :=
  arrive s (.bcast f) f.guard (maskSpec f) (fun g j => g.src j f.ty f.a) fun g j => (g.src32 j f.b).setWidth 64
def execVote (f : FA) (s : State) : Res := arrive s (.vote f) f.guard (maskSpec f) (fun g j => g.src j f.ty f.a) fun _ _ => 0
def execRedux (f : FA) (s : State) : Res := arrive s (.redux f) f.guard (maskSpec f) (fun g j => g.src j f.ty f.a) fun _ _ => 0
def execFredux (f : FA) (s : State) : Res := arrive s (.fredux f) f.guard (maskSpec f) (fun g j => g.src j f.ty f.a) fun _ _ => 0
def execScan (f : FA) (s : State) : Res := arrive s (.scan f) f.guard (maskSpec f) (fun g j => g.src j f.ty f.a) fun _ _ => 0
def execLaneMatch (f : FA) (s : State) : Res :=
  arrive s (.laneMatch f) f.guard (maskSpec f) (fun g j => g.src j f.ty f.a) fun _ _ => 0

/-! ### Results (R324–R331) -/

/-- The inputs of a completed collective: the participant set P, and the captured values, 0 for a member of P that has
exited. -/
structure Members where
  p : Mask
  arr : List Arrival

def Members.x (c : Members) (j : Nat) : Word64 := ((c.arr.find? fun a => a.lane == j).map (·.a)).getD 0
def Members.lanes (c : Members) : List Nat := (lanesOf allLanes).filter fun j => c.arr.any fun a => a.lane == j

/-- The value of a source lane, or the member's own (R324). -/
def Members.pull (c : Members) (i : Nat) (j : Int) : Word64 :=
  if 0 ≤ j ∧ j < 64 ∧ has c.p j.toNat then c.x j.toNat else c.x i

def shflSource (mode i b : Nat) : Int :=
  match mode with
  | 0 => ((i ^^^ (b % 64) : Nat) : Int)
  | 1 => b
  | 2 => ((i : Int) - b) % 64
  | 3 => ((i : Int) + b) % 64
  | _ => (b : Int) - i

def shflxSource (mode wid i b : Nat) : Int :=
  let w := 2 ^ wid
  let o := i % w
  let base := i - o
  match mode with
  | 0 => (base + (o ^^^ b) % w : Nat)
  | 1 => (base + b % w : Nat)
  | 2 => (base : Int) + ((o : Int) - b) % w
  | _ => (base + (o + b) % w : Nat)

def Members.vote (c : Members) (sub : Nat) : Word64 :=
  let set := (lanesOf c.p).filter fun j => c.x j != 0
  let bit := fun (b : Bool) => if b then 1 else 0
  match sub with
  | 0 => maskOf fun j => set.contains j
  | 1 => BitVec.ofNat 64 set.length
  | 2 => bit (set.length == (lanesOf c.p).length)
  | 3 => bit (!set.isEmpty)
  | 4 => bit (set.length == 1)
  | _ => bit (set.length % 2 == 1)

/-- An integer reduction of a list of values of a type (R328). -/
def reduceInt (t : Ty) (sub : Nat) (l : List Word64) : Word64 :=
  let n := l.map (intOf t)
  match sub with
  | 0 => putInt t (n.foldl (· + ·) 0)
  | 1 => putInt t (n.tail.foldl min (n.headD 0))
  | 2 => putInt t (n.tail.foldl max (n.headD 0))
  | 3 => l.tail.foldl (· &&& ·) (l.headD 0)
  | 4 => l.foldl (· ||| ·) 0
  | _ => l.foldl (· ^^^ ·) 0

/-- FSum of R329, and the minimum or maximum of R311 over a list. -/
def reduceF (rnd : Rnd) (sub : Nat) (l : List Word64) : Word64 :=
  let n := l.map (·.toNat % 2 ^ 32)
  match sub with
  | 0 => patWord (roundTo .f32 rnd (exactSum rnd (n.map (decodeF .f32))))
  | k =>
    let isMax := k % 2 == 0
    let nan := decide (3 ≤ k)
    match n with
    | [] => 0
    | [a] => patWord (minMaxF .f32 isMax nan a a)
    | a :: t => patWord (t.foldl (minMaxF .f32 isMax nan) a)

/-- The prefix of member i (R330). -/
def Members.prefix (c : Members) (i : Nat) (excl : Bool) : List Word64 :=
  ((lanesOf c.p).filter fun j => decide (j < i) || (!excl && j == i)).map c.x

def Members.scan (c : Members) (f : FA) (i : Nat) : Word64 :=
  let l := c.prefix i (f.sub.val == 1)
  if f.ty = .f32 then
    if f.sub.val < 2 then (if l.isEmpty then 0 else reduceF f.rnd 0 l) else reduceF f.rnd (f.sub.val - 1) l
  else if f.sub.val < 2 then reduceInt f.ty 0 l
  else reduceInt f.ty (f.sub.val - 1) l

def Members.matches (c : Members) (sub i : Nat) : Word64 :=
  let same := c.lanes.filter fun j => c.x j == c.x i
  match sub with
  | 0 => maskOf fun j => same.contains j
  | 1 => BitVec.ofNat 64 (same.headD 0)
  | 2 => BitVec.ofNat 64 (same.filter fun j => decide (j < i)).length
  | 3 => if (lanesOf c.p).all fun j => c.x j == c.x (lowLane c.p) then 1 else 0
  | _ => BitVec.ofNat 64 (c.lanes.map c.x).eraseDups.length

/-- What arrived member i receives. -/
def Members.result (c : Members) (a : Arrival) : Word64 :=
  match a.instr with
  | .shfl f => c.pull a.lane (shflSource f.sub.val a.lane a.b.toNat)
  | .shflx f => c.pull a.lane (shflxSource f.mode.val f.wid.val a.lane a.b.toNat)
  | .bcast _ =>
    let b := ((c.arr.find? fun a => some a.lane == c.lanes.head?).map (·.b)).getD 0
    c.pull a.lane b.toNat
  | .vote f => c.vote f.sub.val
  | .redux f => reduceInt f.ty f.sub.val ((lanesOf c.p).map c.x)
  | .fredux f => reduceF f.rnd f.sub.val ((lanesOf c.p).map c.x)
  | .scan f => c.scan f a.lane
  | .laneMatch f => c.matches f.sub.val a.lane
  | _ => 0

/-- The destination of a collective, whether it takes 64 bits, and whether its type is signed. -/
def collDst : Instr → Spec × Bool × Bool
  | .shfl f => (f.d, f.ty.wide, false)
  | .shflx f => (f.d, f.ty.wide, false)
  | .bcast f => (f.d, f.ty.wide, false)
  | .vote f => (f.d, f.sub == 0, false)
  | .redux f => (f.d, f.ty.wide, f.ty.signed)
  | .fredux f => (f.d, false, false)
  | .scan f => (f.d, false, f.ty.signed)
  | .laneMatch f => (f.d, f.sub == 0, false)
  | _ => (.zero, false, false)

/-! ### Completion and delivery (R43) -/

/-- A collective completes: P, the inputs and every result are fixed. -/
def Group.completeColl (g : Group) (lane mark : Nat) : Group :=
  let l := g.together lane
  if l.isEmpty || !allArrived l || !agree l then g
  else
    let c : Members := { p := l.foldl (fun m a => m ||| a.1.supplied) 0, arr := l.map (·.1) }
    { g with arrivals := g.arrivals.map fun a =>
      if a.mark == 0 && (l.any fun b => b.1.lane == a.lane) then { a with mark := mark, result := c.result a } else a }

def execCollectiveComplete (core slot lane : Nat) (s : State) : Res :=
  match s.group? core slot with
  | none => .next s
  | some g =>
    if g.hold = .none then
      let (id, s) := s.take
      .next (s.modGroup core slot fun g => g.completeColl lane id)
    else .next s

/-- The arrivals of a mark. -/
def Group.marked (g : Group) (mark : Nat) : List Arrival := g.arrivals.filter fun a => a.mark == mark && mark != 0

/-- Delivery: every arrived member writes its D and its `l0` and `l1` in one clock and returns to Ready past its
collective; a `g` destination takes the result of the lowest-numbered arrived member (R323). -/
def Core.deliverColl (c : Core) (slot mark : Nat) : Core :=
  match get? c.groups slot with
  | none => c
  | some g =>
    let l := g.marked mark
    let m := arrivedLanes l
    let low := ((l.find? fun a => a.lane == lowLane m).map (·.result)).getD 0
    let c := l.foldl (fun c a =>
      let (d, wide, signed) := collDst a.instr
      match d with
      | .g n => c.writeG slot n.val m (if wide then low else widen signed (lo32 low))
      | d => c.writeAlu slot (laneBit a.lane) wide signed d fun _ => a.result) c
    c.modGroup slot fun g =>
      let g := ({ g with arrivals := g.arrivals.filter fun a => a.mark != mark }.wake m).forget m
      (g.onThreads m fun i t => { g.stepThread t with st := .ready, since := g.issuesOf (sliceOf i) }).settle

/-- The earlier accesses of every arrived member have reached the points of R209 (R213). -/
def Core.collReady (c : Core) (slot mark : Nat) : Bool :=
  match get? c.groups slot with
  | none => false
  | some g => !(g.marked mark).isEmpty && c.settled slot (arrivedLanes (g.marked mark)) mark false

def execCollectiveDeliver (core slot mark : Nat) (s : State) : Res :=
  .next (if (s.core core).collReady slot mark then s.modCore core fun c => c.deliverColl slot mark else s)

/-! ### Mask-waits (R41) -/

def execMaskWaitRelease (core slot k : Nat) (s : State) : Res :=
  let (id, s) := s.take
  .next (s.modGroup core slot fun g => if g.hold = .none then g.release k id else g)

/-- The threads that the evaluation `mark` has released. -/
def Group.releasedBy (g : Group) (mark : Nat) : Mask :=
  maskOf fun i =>
    match (g.thread i).st with
    | .maskWait _ r => r == mark && mark != 0
    | _ => false

/-- The threads released together leave Mask-wait together, once the earlier accesses of every one of them are done. -/
def Group.maskLeave (g : Group) (mark : Nat) : Group :=
  ((g.wake (g.releasedBy mark)).forget (g.releasedBy mark)).onThreads (g.releasedBy mark) fun i t => { t with st := .ready, since := g.issuesOf (sliceOf i) }

def execMaskWaitLeave (core slot mark : Nat) (s : State) : Res :=
  match s.group? core slot with
  | none => .next s
  | some g =>
    .next (if (s.core core).settled slot (g.releasedBy mark) mark false then s.modGroup core slot fun g => g.maskLeave mark else s)

end Sys2Proof.Machine
end

