-- ==== Sys2Proof/Machine/Dispatch.lean ====
section
/-! DEFINITION. The meaning of every row of the opcode table: one arm for each constructor. -/

namespace Sys2Proof.Machine

/-- Carry out one row: an instruction issues, an event happens, a command takes effect. -/
def exec (i : Instr) (s : State) : Host.Outcome State Fault Refusal :=
  match i with
  | .nop => Sys2Proof.Machine.execNop s
  | .bra f => Sys2Proof.Machine.execBra f s
  | .brc f => Sys2Proof.Machine.execBrc f s
  | .brx f => Sys2Proof.Machine.execBrx f s
  | .call f => Sys2Proof.Machine.execCall f s
  | .callx f => Sys2Proof.Machine.execCallx f s
  | .ret f => Sys2Proof.Machine.execRet f s
  | .exit f => Sys2Proof.Machine.execExit f s
  | .yield f => Sys2Proof.Machine.execYield f s
  | .join f => Sys2Proof.Machine.execJoin f s
  | .leave f => Sys2Proof.Machine.execLeave f s
  | .waitm f => Sys2Proof.Machine.execWaitm f s
  | .mksetA f => Sys2Proof.Machine.execMksetA f s
  | .mksetW f => Sys2Proof.Machine.execMksetW f s
  | .mklop f => Sys2Proof.Machine.execMklop f s
  | .mkcnt f => Sys2Proof.Machine.execMkcnt f s
  | .mklane f => Sys2Proof.Machine.execMklane f s
  | .trap f => Sys2Proof.Machine.execTrap f s
  | .bpt f => Sys2Proof.Machine.execBpt f s
  | .iaddA f => Sys2Proof.Machine.execIaddA f s
  | .iaddW f => Sys2Proof.Machine.execIaddW f s
  | .isubA f => Sys2Proof.Machine.execIsubA f s
  | .isubW f => Sys2Proof.Machine.execIsubW f s
  | .iaddc f => Sys2Proof.Machine.execIaddc f s
  | .imulA f => Sys2Proof.Machine.execImulA f s
  | .imulW f => Sys2Proof.Machine.execImulW f s
  | .imulh f => Sys2Proof.Machine.execImulh f s
  | .imadA f => Sys2Proof.Machine.execImadA f s
  | .imadW f => Sys2Proof.Machine.execImadW f s
  | .imadw f => Sys2Proof.Machine.execImadw f s
  | .idiv f => Sys2Proof.Machine.execIdiv f s
  | .irem f => Sys2Proof.Machine.execIrem f s
  | .iminA f => Sys2Proof.Machine.execIminA f s
  | .iminW f => Sys2Proof.Machine.execIminW f s
  | .imaxA f => Sys2Proof.Machine.execImaxA f s
  | .imaxW f => Sys2Proof.Machine.execImaxW f s
  | .iabs f => Sys2Proof.Machine.execIabs f s
  | .ineg f => Sys2Proof.Machine.execIneg f s
  | .andA f => Sys2Proof.Machine.execAndA f s
  | .andW f => Sys2Proof.Machine.execAndW f s
  | .orA f => Sys2Proof.Machine.execOrA f s
  | .orW f => Sys2Proof.Machine.execOrW f s
  | .xorA f => Sys2Proof.Machine.execXorA f s
  | .xorW f => Sys2Proof.Machine.execXorW f s
  | .notA f => Sys2Proof.Machine.execNotA f s
  | .lop3 f => Sys2Proof.Machine.execLop3 f s
  | .shl f => Sys2Proof.Machine.execShl f s
  | .shr f => Sys2Proof.Machine.execShr f s
  | .sar f => Sys2Proof.Machine.execSar f s
  | .rot f => Sys2Proof.Machine.execRot f s
  | .shf f => Sys2Proof.Machine.execShf f s
  | .popc f => Sys2Proof.Machine.execPopc f s
  | .clz f => Sys2Proof.Machine.execClz f s
  | .ctz f => Sys2Proof.Machine.execCtz f s
  | .brev f => Sys2Proof.Machine.execBrev f s
  | .bfe f => Sys2Proof.Machine.execBfe f s
  | .bfi f => Sys2Proof.Machine.execBfi f s
  | .prmt f => Sys2Proof.Machine.execPrmt f s
  | .isetA f => Sys2Proof.Machine.execIsetA f s
  | .isetW f => Sys2Proof.Machine.execIsetW f s
  | .isel f => Sys2Proof.Machine.execIsel f s
  | .mov f => Sys2Proof.Machine.execMov f s
  | .movi f => Sys2Proof.Machine.execMovi f s
  | .movg f => Sys2Proof.Machine.execMovg f s
  | .lea f => Sys2Proof.Machine.execLea f s
  | .iadd64 f => Sys2Proof.Machine.execIadd64 f s
  | .idot4 f => Sys2Proof.Machine.execIdot4 f s
  | .faddA f => Sys2Proof.Machine.execFaddA f s
  | .faddW f => Sys2Proof.Machine.execFaddW f s
  | .fsub f => Sys2Proof.Machine.execFsub f s
  | .fmulA f => Sys2Proof.Machine.execFmulA f s
  | .fmulW f => Sys2Proof.Machine.execFmulW f s
  | .ffmaA f => Sys2Proof.Machine.execFfmaA f s
  | .ffmaW f => Sys2Proof.Machine.execFfmaW f s
  | .fminA f => Sys2Proof.Machine.execFminA f s
  | .fminW f => Sys2Proof.Machine.execFminW f s
  | .fmaxA f => Sys2Proof.Machine.execFmaxA f s
  | .fmaxW f => Sys2Proof.Machine.execFmaxW f s
  | .fsetA f => Sys2Proof.Machine.execFsetA f s
  | .fsetW f => Sys2Proof.Machine.execFsetW f s
  | .fclass f => Sys2Proof.Machine.execFclass f s
  | .frcp f => Sys2Proof.Machine.execFrcp f s
  | .frsq f => Sys2Proof.Machine.execFrsq f s
  | .fsqrt f => Sys2Proof.Machine.execFsqrt f s
  | .fdiv f => Sys2Proof.Machine.execFdiv f s
  | .fexp2 f => Sys2Proof.Machine.execFexp2 f s
  | .flog2 f => Sys2Proof.Machine.execFlog2 f s
  | .fsin f => Sys2Proof.Machine.execFsin f s
  | .fcos f => Sys2Proof.Machine.execFcos f s
  | .ftanh f => Sys2Proof.Machine.execFtanh f s
  | .hadd2 f => Sys2Proof.Machine.execHadd2 f s
  | .hmul2 f => Sys2Proof.Machine.execHmul2 f s
  | .hfma2 f => Sys2Proof.Machine.execHfma2 f s
  | .hmnmx2 f => Sys2Proof.Machine.execHmnmx2 f s
  | .bfma2 f => Sys2Proof.Machine.execBfma2 f s
  | .cvt f => Sys2Proof.Machine.execCvt f s
  | .cvtq f => Sys2Proof.Machine.execCvtq f s
  | .cvtd f => Sys2Proof.Machine.execCvtd f s
  | .frnd f => Sys2Proof.Machine.execFrnd f s
  | .fscale f => Sys2Proof.Machine.execFscale f s
  | .shfl f => Sys2Proof.Machine.execShfl f s
  | .shflx f => Sys2Proof.Machine.execShflx f s
  | .bcast f => Sys2Proof.Machine.execBcast f s
  | .vote f => Sys2Proof.Machine.execVote f s
  | .redux f => Sys2Proof.Machine.execRedux f s
  | .fredux f => Sys2Proof.Machine.execFredux f s
  | .scan f => Sys2Proof.Machine.execScan f s
  | .laneMatch f => Sys2Proof.Machine.execLaneMatch f s
  | .ldB8 f => Sys2Proof.Machine.execLdB8 f s
  | .ldB16 f => Sys2Proof.Machine.execLdB16 f s
  | .ldB32 f => Sys2Proof.Machine.execLdB32 f s
  | .ldB64 f => Sys2Proof.Machine.execLdB64 f s
  | .ldB128 f => Sys2Proof.Machine.execLdB128 f s
  | .stB8 f => Sys2Proof.Machine.execStB8 f s
  | .stB16 f => Sys2Proof.Machine.execStB16 f s
  | .stB32 f => Sys2Proof.Machine.execStB32 f s
  | .stB64 f => Sys2Proof.Machine.execStB64 f s
  | .stB128 f => Sys2Proof.Machine.execStB128 f s
  | .ldlB8 f => Sys2Proof.Machine.execLdlB8 f s
  | .ldlB16 f => Sys2Proof.Machine.execLdlB16 f s
  | .ldlB32 f => Sys2Proof.Machine.execLdlB32 f s
  | .ldlB64 f => Sys2Proof.Machine.execLdlB64 f s
  | .ldlB128 f => Sys2Proof.Machine.execLdlB128 f s
  | .stlB8 f => Sys2Proof.Machine.execStlB8 f s
  | .stlB16 f => Sys2Proof.Machine.execStlB16 f s
  | .stlB32 f => Sys2Proof.Machine.execStlB32 f s
  | .stlB64 f => Sys2Proof.Machine.execStlB64 f s
  | .stlB128 f => Sys2Proof.Machine.execStlB128 f s
  | .ldt f => Sys2Proof.Machine.execLdt f s
  | .wmap f => Sys2Proof.Machine.execWmap f s
  | .wunmap f => Sys2Proof.Machine.execWunmap f s
  | .wsync f => Sys2Proof.Machine.execWsync f s
  | .winv f => Sys2Proof.Machine.execWinv f s
  | .wquery f => Sys2Proof.Machine.execWquery f s
  | .atomB32 f => Sys2Proof.Machine.execAtomB32 f s
  | .atomB64 f => Sys2Proof.Machine.execAtomB64 f s
  | .atomlB32 f => Sys2Proof.Machine.execAtomlB32 f s
  | .atomlB64 f => Sys2Proof.Machine.execAtomlB64 f s
  | .redB32 f => Sys2Proof.Machine.execRedB32 f s
  | .redB64 f => Sys2Proof.Machine.execRedB64 f s
  | .fence f => Sys2Proof.Machine.execFence f s
  | .pref f => Sys2Proof.Machine.execPref f s
  | .survey f => Sys2Proof.Machine.execSurvey f s
  | .probe f => Sys2Proof.Machine.execProbe f s
  | .discard f => Sys2Proof.Machine.execDiscard f s
  | .sealRange f => Sys2Proof.Machine.execSeal f s
  | .unsealRange f => Sys2Proof.Machine.execUnseal f s
  | .stag f => Sys2Proof.Machine.execStag f s
  | .ltag f => Sys2Proof.Machine.execLtag f s
  | .cctl f => Sys2Proof.Machine.execCctl f s
  | .barinit f => Sys2Proof.Machine.execBarinit f s
  | .bararv f => Sys2Proof.Machine.execBararv f s
  | .barwait f => Sys2Proof.Machine.execBarwait f s
  | .barexp f => Sys2Proof.Machine.execBarexp f s
  | .bartry f => Sys2Proof.Machine.execBartry f s
  | .cpyG2l f => Sys2Proof.Machine.execCpyG2l f s
  | .cpyL2g f => Sys2Proof.Machine.execCpyL2g f s
  | .cpyL2l f => Sys2Proof.Machine.execCpyL2l f s
  | .cpyg f => Sys2Proof.Machine.execCpyg f s
  | .cpys f => Sys2Proof.Machine.execCpys f s
  | .tagwaitAny f => Sys2Proof.Machine.execTagwaitAny f s
  | .tagwaitAll f => Sys2Proof.Machine.execTagwaitAll f s
  | .tagfirst f => Sys2Proof.Machine.execTagfirst f s
  | .tagclr f => Sys2Proof.Machine.execTagclr f s
  | .mmaF16 f => Sys2Proof.Machine.execMmaF16 f s
  | .mmaBf16 f => Sys2Proof.Machine.execMmaBf16 f s
  | .mmaVt8 f => Sys2Proof.Machine.execMmaVt8 f s
  | .mmaS8 f => Sys2Proof.Machine.execMmaS8 f s
  | .mmaN8 f => Sys2Proof.Machine.execMmaN8 f s
  | .mmas f => Sys2Proof.Machine.execMmas f s
  | .mzero f => Sys2Proof.Machine.execMzero f s
  | .mldt f => Sys2Proof.Machine.execMldt f s
  | .mstt f => Sys2Proof.Machine.execMstt f s
  | .mdrain f => Sys2Proof.Machine.execMdrain f s
  | .malloc f => Sys2Proof.Machine.execMalloc f s
  | .mfree f => Sys2Proof.Machine.execMfree f s
  | .grbind f => Sys2Proof.Machine.execGrbind f s
  | .greval f => Sys2Proof.Machine.execGreval f s
  | .grstat f => Sys2Proof.Machine.execGrstat f s
  | .nzscan f => Sys2Proof.Machine.execNzscan f s
  | .launch f => Sys2Proof.Machine.execLaunch f s
  | .snap f => Sys2Proof.Machine.execSnap f s
  | .edstat f => Sys2Proof.Machine.execEdstat f s
  | .sreadA f => Sys2Proof.Machine.execSreadA f s
  | .sreadS f => Sys2Proof.Machine.execSreadS f s
  | .swriteA f => Sys2Proof.Machine.execSwriteA f s
  | .swriteS f => Sys2Proof.Machine.execSwriteS f s
  | .clock f => Sys2Proof.Machine.execClock f s
  | .stamp f => Sys2Proof.Machine.execStamp f s
  | .regq f => Sys2Proof.Machine.execRegq f s
  | .signal f => Sys2Proof.Machine.execSignal f s
  | .halt f => Sys2Proof.Machine.execHalt f s
  | .reservedOpcodeIssue w => Sys2Proof.Machine.execReservedOpcodeIssue w s
  | .operandsConsumed core op => Sys2Proof.Machine.execOperandsConsumed core op s
  | .operationComplete core op => Sys2Proof.Machine.execOperationComplete core op s
  | .maskWaitRelease core slot k => Sys2Proof.Machine.execMaskWaitRelease core slot k s
  | .maskWaitLeave core slot mark => Sys2Proof.Machine.execMaskWaitLeave core slot mark s
  | .collectiveComplete core slot lane => Sys2Proof.Machine.execCollectiveComplete core slot lane s
  | .collectiveDeliver core slot mark => Sys2Proof.Machine.execCollectiveDeliver core slot mark s
  | .groupTrapStop core slot => Sys2Proof.Machine.execGroupTrapStop core slot s
  | .groupRestore core slot => Sys2Proof.Machine.execGroupRestore core slot s
  | .naturalSwap core leaving entering => Sys2Proof.Machine.execNaturalSwap core leaving entering s
  | .forcedSwap core => Sys2Proof.Machine.execForcedSwap core s
  | .scoreDecay core => Sys2Proof.Machine.execScoreDecay core s
  | .regqGrant core team => Sys2Proof.Machine.execRegqGrant core team s
  | .groupSlotRelease core slot => Sys2Proof.Machine.execGroupSlotRelease core slot s
  | .canalWatchStore canal => Sys2Proof.Machine.execCanalWatchStore canal s
  | .kernelComplete kernel => Sys2Proof.Machine.execKernelComplete kernel s
  | .homeFillRequest core op lane bytes => Sys2Proof.Machine.execHomeFillRequest core op lane bytes s
  | .homeStoreRequest core slot id bytes => Sys2Proof.Machine.execHomeStoreRequest core slot id bytes s
  | .homeAtomicRequest core op addr => Sys2Proof.Machine.execHomeAtomicRequest core op addr s
  | .heldStoresPerform page => Sys2Proof.Machine.execHeldStoresPerform page s
  | .lineWriteback line => Sys2Proof.Machine.execLineWriteback line s
  | .pageRelease page => Sys2Proof.Machine.execPageRelease page s
  | .storeAckArrival core slot id => Sys2Proof.Machine.execStoreAckArrival core slot id s
  | .leaseExpiry core line => Sys2Proof.Machine.execLeaseExpiry core line s
  | .fenceStallEnd core op => Sys2Proof.Machine.execFenceStallEnd core op s
  | .engineLockWaitEnd core op => Sys2Proof.Machine.execEngineLockWaitEnd core op s
  | .copyPageReach core op => Sys2Proof.Machine.execCopyPageReach core op s
  | .copyByteDelivery core op n => Sys2Proof.Machine.execCopyByteDelivery core op n s
  | .copyComplete core op => Sys2Proof.Machine.execCopyComplete core op s
  | .migrationTick die => Sys2Proof.Machine.execMigrationTick die s
  | .heatDecay die => Sys2Proof.Machine.execHeatDecay die s
  | .migrationSwitch page => Sys2Proof.Machine.execMigrationSwitch page s
  | .hostHalfRead dpa len => Sys2Proof.Machine.execHostHalfRead dpa len s
  | .hostWriteback half stores keep => Sys2Proof.Machine.execHostWriteback half stores keep s
  | .homeApplyCut edition die => Sys2Proof.Machine.execHomeApplyCut edition die s
  | .editionCutDone edition => Sys2Proof.Machine.execEditionCutDone edition s
  | .cowBackgroundFill page => Sys2Proof.Machine.execCowBackgroundFill page s
  | .drainPageWrite die => Sys2Proof.Machine.execDrainPageWrite die s
  | .drainTargetAck edition => Sys2Proof.Machine.execDrainTargetAck edition s
  | .chunkAckTimeout edition => Sys2Proof.Machine.execChunkAckTimeout edition s
  | .linkBulkTimeout request => Sys2Proof.Machine.execLinkBulkTimeout request s
  | .linkInboundRequest peer slotAtt dpa access => Sys2Proof.Machine.execLinkInboundRequest peer slotAtt dpa access s
  | .pcieInboundDma dpa len write => Sys2Proof.Machine.execPcieInboundDma dpa len write s
  | .coreIdleTimeout core => Sys2Proof.Machine.execCoreIdleTimeout core s
  | .coreGateTimeout core => Sys2Proof.Machine.execCoreGateTimeout core s
  | .snapRequestAtReference core op => Sys2Proof.Machine.execSnapRequestAtReference core op s
  | .remoteStoreAcknowledge idx => Sys2Proof.Machine.execRemoteStoreAcknowledge idx s
  | .hostOwnershipRequest half => Sys2Proof.Machine.execHostOwnershipRequest half s
  | .hostOwnershipGrant half stores => Sys2Proof.Machine.execHostOwnershipGrant half stores s
  | .linkAckArrival request reply => Sys2Proof.Machine.execLinkAckArrival request reply s
  | .linkAbortTokenArrival slot att => Sys2Proof.Machine.execLinkAbortTokenArrival slot att s
  | .hostDirectoryMerge base => Sys2Proof.Machine.execHostDirectoryMerge base s
  | .keeperResume core slot writes => Sys2Proof.Machine.execKeeperResume core slot writes s
  | .linkTrainingEnd port lanes peer => Sys2Proof.Machine.execLinkTrainingEnd port lanes peer s
  | .linkLaneError port => Sys2Proof.Machine.execLinkLaneError port s
  | .linkFlitReceive port accepted => Sys2Proof.Machine.execLinkFlitReceive port accepted s
  | .mailboxWrite m word value => Sys2Proof.Machine.execMailboxWrite m word value s
  | .laneFailure core lane => Sys2Proof.Machine.execLaneFailure core lane s
  | .timingReplay core => Sys2Proof.Machine.execTimingReplay core s
  | .eccCorrected core => Sys2Proof.Machine.execEccCorrected core s
  | .uncorrectableError site => Sys2Proof.Machine.execUncorrectableError site s
  | .scanComplete lanes failed => Sys2Proof.Machine.execScanComplete lanes failed s
  | .dieTemp105 die => Sys2Proof.Machine.execDieTemp105 die s
  | .dieCool95 die => Sys2Proof.Machine.execDieCool95 die s
  | .coldReset failed => Sys2Proof.Machine.execColdReset failed s
  | .keeperFailure die idx => Sys2Proof.Machine.execKeeperFailure die idx s
  | .functionReady bit => Sys2Proof.Machine.execFunctionReady bit s
  | .clauseEntry => Sys2Proof.Machine.execClauseEntry s
  | .distributorTurn => Sys2Proof.Machine.execDistributorTurn s
  | .heldEventPost => Sys2Proof.Machine.execHeldEventPost s
  | .scanTestTurn => Sys2Proof.Machine.execScanTestTurn s
  | .scanDrainTimeout => Sys2Proof.Machine.execScanDrainTimeout s
  | .scanUnitEmpty => Sys2Proof.Machine.execScanUnitEmpty s
  | .powerCapExceeded => Sys2Proof.Machine.execPowerCapExceeded s
  | .thermalStop => Sys2Proof.Machine.execThermalStop s
  | .deviceSignalAccepted => Sys2Proof.Machine.execDeviceSignalAccepted s
  | .ctxcreate => Sys2Proof.Machine.execCtxcreate s
  | .ctxrun => Sys2Proof.Machine.execCtxrun s
  | .ctxsuspend => Sys2Proof.Machine.execCtxsuspend s
  | .ctxresume => Sys2Proof.Machine.execCtxresume s
  | .ctxmode => Sys2Proof.Machine.execCtxmode s
  | .ctxquery => Sys2Proof.Machine.execCtxquery s
  | .ctxdestroy => Sys2Proof.Machine.execCtxdestroy s
  | .cnlcreate => Sys2Proof.Machine.execCnlcreate s
  | .cnlresume => Sys2Proof.Machine.execCnlresume s
  | .cnlquery => Sys2Proof.Machine.execCnlquery s
  | .cnldestroy => Sys2Proof.Machine.execCnldestroy s
  | .pgdone => Sys2Proof.Machine.execPgdone s
  | .rgnset => Sys2Proof.Machine.execRgnset s
  | .rgnpool => Sys2Proof.Machine.execRgnpool s
  | .rgnplace => Sys2Proof.Machine.execRgnplace s
  | .rgnclear => Sys2Proof.Machine.execRgnclear s
  | .rgnquery => Sys2Proof.Machine.execRgnquery s
  | .vminv => Sys2Proof.Machine.execVminv s
  | .edconf => Sys2Proof.Machine.execEdconf s
  | .edtarget => Sys2Proof.Machine.execEdtarget s
  | .edmap => Sys2Proof.Machine.execEdmap s
  | .edunmap => Sys2Proof.Machine.execEdunmap s
  | .edretire => Sys2Proof.Machine.execEdretire s
  | .edquery => Sys2Proof.Machine.execEdquery s
  | .lnktrain => Sys2Proof.Machine.execLnktrain s
  | .lnkisolate => Sys2Proof.Machine.execLnkisolate s
  | .lnkmap => Sys2Proof.Machine.execLnkmap s
  | .lnkunmap => Sys2Proof.Machine.execLnkunmap s
  | .lnkabort => Sys2Proof.Machine.execLnkabort s
  | .lnkquery => Sys2Proof.Machine.execLnkquery s
  | .lnkexport => Sys2Proof.Machine.execLnkexport s
  | .hostevq => Sys2Proof.Machine.execHostevq s
  | .corestat => Sys2Proof.Machine.execCorestat s
  | .testconf => Sys2Proof.Machine.execTestconf s
  | .dbgarea => Sys2Proof.Machine.execDbgarea s
  | .stopcore => Sys2Proof.Machine.execStopcore s
  | .dbgresume => Sys2Proof.Machine.execDbgresume s
  | .watchset => Sys2Proof.Machine.execWatchset s
  | .devstat => Sys2Proof.Machine.execDevstat s
  | .pwrcap => Sys2Proof.Machine.execPwrcap s
  | .dieresume => Sys2Proof.Machine.execDieresume s

end Sys2Proof.Machine
end

