-- ==== Sys2Proof/Machine/Schedule.lean ====
section
/-! DEFINITION. What happens next (R31–R37, R41, R43, R52, R116, R150–R154, R204): the gangs that may issue, the events that may happen,
and the passing of time.  One step is one row of the opcode table; which of the transitions that may happen is taken is left free, except
for the events that the manual places at the end of a clock or makes immediate (assumption log 1, 2, 3). -/

namespace Sys2Proof.Machine

/-- A row that may happen, with the state in which it happens: the machine's own, with the issuer or the mailbox named. -/
abbrev Choice := Instr × State

/-- An event happens only where it changes something. -/
def moves (s : State) (x : Choice) : Bool :=
  match exec x.1 x.2 with
  | .next t => decide (t ≠ s)
  | _ => true

/-! ### Gangs (R31, R34, R35) -/

/-- Two threads of one fragment: the code pointer, whose bits 63–57 do not count, and the path counter are the same (R31, R35, R277). -/
def sameFragment (a b : Thread) : Bool := vaBits a.pc == vaBits b.pc && a.path == b.path

/-- Add a thread to the fragments found so far: a thread of each, and the lanes. -/
def addFragment (i : Nat) (t : Thread) : List (Thread × Mask) → List (Thread × Mask)
  | [] => [(t, laneBit i)]
  | (u, m) :: rest => if sameFragment t u then (u, m ||| laneBit i) :: rest else (u, m) :: addFragment i t rest

/-- The lanes of a slice. -/
def sliceMask (slice : Nat) : Mask := 0xF#64 <<< (4 * slice)

/-- The fragments of a group's threads that are Ready, neither held nor behind a stalling operation, and on a slice that has not issued in
this clock; a thread that became Ready in the clock issues in a later one. -/
def Group.fragments (g : Group) : List (Thread × Mask) :=
  (List.range 64).foldl (fun l i =>
    let t := g.thread i
    if t.st = .ready ∧ !t.held ∧ t.stall = none ∧ !has g.woken i ∧ g.acted &&& sliceMask (sliceOf i) = 0 then addFragment i t l else l) []

/-- The issue of the slice since which a fragment has been ready there. -/
def Group.readyFrom (g : Group) (m : Mask) : Nat := (lanesOf m).foldl (fun x i => max x (g.thread i).since) 0

/-- A fragment that R34 prefers, by path counter and then by code pointer. -/
def before (a b : Thread) : Bool := decide (a.path.toNat < b.path.toNat) || (a.path == b.path && decide (vaBits a.pc < vaBits b.pc))

/-- The current fragment of a slice: one that has starved for 1,024 issues, longest first, else the first by R34. -/
def Group.current (g : Group) (slice : Nat) (l : List (Thread × Mask)) : Option (Thread × Mask) :=
  let here := (l.map fun f => (f.1, f.2 &&& sliceMask slice)).filter fun f => f.2 != 0
  let starved := here.filter fun f => decide (g.readyFrom f.2 + 1024 ≤ g.issuesOf slice)
  match starved with
  | f :: rest => some (rest.foldl (fun a b =>
      if g.readyFrom b.2 < g.readyFrom a.2 ∨ (g.readyFrom b.2 = g.readyFrom a.2 ∧ before b.1 a.1) then b else a) f)
  | [] =>
    match here with
    | f :: rest => some (rest.foldl (fun a b => if before b.1 a.1 then b else a) f)
    | [] => none

/-- Join the current fragment of a slice to its gang. -/
def joinGang (f : Thread × Mask) : List (Thread × Mask) → List (Thread × Mask)
  | [] => [f]
  | (u, m) :: rest => if sameFragment f.1 u then (u, m ||| f.2) :: rest else (u, m) :: joinGang f rest

/-- The gangs of a group that may issue, as a thread and an active mask. -/
def State.gangs (s : State) (core : Nat) (g : Group) : List (Thread × Mask) :=
  let ready := g.fragments.filter fun f => !s.threadWaits core g f.1
  (List.range 16).foldl (fun l slice =>
    match g.current slice ready with
    | some f => joinGang f l
    | none => l) []

/-! ### Issue (R65, R67, R75, R77) -/

/-- The instruction in a slot of a clause: an illegal one where its class is not the clause's (R67), where it is a transfer before the last
slot (R75), or where its word is reserved. -/
def clauseInstr (hdr : Word64) (slot : Nat) (w : Word64) : Instr :=
  match decodeWord w with
  | .error _ => .reservedOpcodeIssue w
  | .ok i =>
    let here := match i.cls with
      | some c => c.code == classOf hdr
      | none => i == .nop
    if here && (!i.isTransfer || slot == countOf hdr) then i else .reservedOpcodeIssue w

/-- What a gang does next: those of its threads that stand before a clause enter it, those that stall for SETB or resume a clause do that
first, and else the gang issues the word of its slot. -/
def State.issueOf (s : State) (core slot : Nat) (g : Group) (t : Thread) (m : Mask) : Choice :=
  let run := fun (m : Mask) w (i : Instr) => (i, { s with cur := { core := core, slot := slot, mask := m, word := w } })
  let those := fun (p : Thread → Bool) => m &&& maskOf fun i => p (g.thread i)
  let enters := those fun t => t.entry == 0
  let stalls := those g.setbWaits
  let resumes := those (·.refetch)
  if enters ≠ 0 then run enters 0 .clauseEntry
  else if stalls ≠ 0 then run stalls 0 .clauseEntry
  else if resumes ≠ 0 then run resumes 0 .clauseEntry
  else
    let ws := ((g.entryOf t.entry).map (·.words)).getD []
    let w := ws.getD (slotOf t.pc) 0
    run m w (clauseInstr (ws.headD 0) (slotOf t.pc) w)

/-- A group whose gangs may issue: active, not in a keeper's hands, its context running, its core in operation, and its team not held at a
commit (R146, R152). -/
def State.mayIssue (s : State) (c : Core) (g : Group) : Bool :=
  g.gst == .active && g.free && (s.ctx g.ctx).state == .running && !s.therm && (c.committing g.team).isEmpty

/-- Instructions of a class that a core issues in one clock (R152). -/
def classLimit (cls : Nat) : Nat :=
  match cls with
  | 1 | 2 => 2
  | 3 | 4 | 6 => 1
  | _ => 4

/-- A gang finds an issue slot of its core's clock (R152): four ports, the rotation of the groups, ascending lowest lanes within one, and the
limit of its instruction's class.  Clause entry takes none. -/
def Core.slotFree (c : Core) (slot : Nat) (m : Mask) (i : Instr) : Bool :=
  let cls := (i.cls.map (·.code)).getD 0
  i == .clauseEntry ||
    (decide (c.turn.used.length < 4) && decide (c.turn.used.count cls < classLimit cls) &&
      match c.turn.order with
      | none => true
      | some l => l.contains slot && (l.head? != some slot || decide (c.turn.low ≤ lowLane m)))

def State.issues (s : State) : List Choice :=
  s.cores.flatMap fun c => c.2.groups.flatMap fun g =>
    if s.mayIssue c.2 g.2 then
      ((s.gangs c.1 g.2).map fun f => s.issueOf c.1 g.1 g.2 f.1 f.2).filter fun x => c.2.slotFree g.1 x.2.cur.mask x.1
    else []

/-! ### Events of operations and stores -/

/-- The events that bring an operation on. -/
def opEvents (core : Nat) (o : Op) : List Instr :=
  match o.kind with
  | .load cls _ _ _ accs =>
    ((accs.filter fun a => a.todo != 0).flatMap fun a => (pieces (cls == .weak) a.todo).map fun b => .homeFillRequest core o.id a.lane b)
      ++ [.operationComplete core o.id]
  | .atom _ _ _ _ reqs => ((reqs.filter fun q => !q.done).map fun q => .homeAtomicRequest core o.id q.dpa) ++ [.operationComplete core o.id]
  | .fence _ _ => [.fenceStallEnd core o.id]
  | .copy y =>
    [.engineLockWaitEnd core o.id, .copyPageReach core o.id, .copyByteDelivery core o.id y.piece, .copyByteDelivery core o.id 1,
      .operandsConsumed core o.id, .copyComplete core o.id]
  | .snap 0 _ _ => [.snapRequestAtReference core o.id]
  | .regq _ | .barwait | .barheld _ _ _ _ | .tagwait _ _ => []
  | k =>
    if k.matrix || k.evaluator then [.engineLockWaitEnd core o.id, .operandsConsumed core o.id, .operationComplete core o.id]
    else [.operationComplete core o.id]

/-- The events that bring a store on. -/
def storeEvents (core slot : Nat) (r : StoreReq) : List Instr :=
  if r.todo = 0 then [.storeAckArrival core slot r.id]
  else (pieces (r.cls == .weak && r.tag.isNone) r.todo).map fun b => .homeStoreRequest core slot r.id b

/-- The marks of evaluations and collectives that wait for earlier accesses (R41, R43). -/
def Group.marks (g : Group) : List Nat :=
  (g.threads.filterMap fun t => match t.st with
    | .maskWait _ m => if m = 0 then none else some m
    | _ => none).eraseDups

def groupEvents (core slot : Nat) (g : Group) : List Instr :=
  [g.stores.flatMap fun r => storeEvents core slot r,
   g.marks.map fun m => .maskWaitLeave core slot m,
   ((g.arrivals.map (·.mark)).filter (· != 0)).eraseDups.map fun m => .collectiveDeliver core slot m,
   if g.hold = .trapped ∨ g.hold = .debug false ∨ g.halt = .suspended false ∨ g.halt = .stopped false then [.groupTrapStop core slot] else [],
   if !g.free && g.mayReturn || g.halt == .suspended true || g.halt == .stopped true then [.groupRestore core slot] else [],
   match g.hold, g.halt with
   | .forwarded _ true, .none => [.keeperResume core slot []]
   | _, _ => [],
   if g.gst = .exited then [.groupSlotRelease core slot] else []].flatten

/-- The exchanges of a core's active set, its leases, and its power state. -/
def coreEvents (s : State) (core : Nat) (c : Core) : List Instr :=
  [if c.groups.any fun g => g.2.gst == .pending then
     match s.entering core with
     | some e => .forcedSwap core :: (32 :: (c.groups.filter fun g => g.2.gst == .active).map (·.1)).map fun l => .naturalSwap core l e.1
     | none => []
   else [],
   (c.l1.filter fun l => decide (l.2.limit ≤ s.ns)).map fun l => .leaseExpiry core l.1,
   if c.groups.isEmpty then [.coreIdleTimeout core, .coreGateTimeout core] else []].flatten

/-! ### Events of the device -/

def pageEvents (p : Nat × PageSt) : List Instr :=
  [if p.2.held then [.heldStoresPerform p.1] else [], if p.2.migrating then [.migrationSwitch p.1] else [],
   if p.2.filling then [.cowBackgroundFill p.1] else [], if p.2.backed then [.pageRelease p.1] else []].flatten

def lineEvents (l : Nat × LineSt) : List Instr :=
  [if l.2.dirty then [.lineWriteback l.1] else [], if l.2.reqLo then [.hostOwnershipGrant (128 * l.1) []] else [],
   if l.2.reqHi then [.hostOwnershipGrant (128 * l.1 + 64) []] else []].flatten

def editionEvents (e : Edition) : List Instr :=
  if e.st = .draining then
    [.drainPageWrite 0, .drainPageWrite 1, .drainPageWrite 2, .drainPageWrite 3, .drainTargetAck e.seq, .chunkAckTimeout e.seq]
  else []

def deviceEvents (s : State) : List Instr :=
  [s.pages.flatMap pageEvents, s.lines.flatMap lineEvents, s.editions.flatMap editionEvents,
   s.directory.map fun e => .hostDirectoryMerge e.1,
   s.linkReqs.map fun r => .linkBulkTimeout r.id,
   (List.range s.inboundAcks.length).map fun i => .remoteStoreAcknowledge i,
   if s.signals.isEmpty then [] else [.deviceSignalAccepted],
   (s.kernels.filter fun k => k.2.st == .draining || k.2.st == .complete || (k.2.st == .running && k.2.live == 0)).map fun k => .kernelComplete k.1,
   if s.canals.isEmpty && s.kernels.isEmpty then [] else [.distributorTurn],
   if s.test.interval = 0 && s.test.draining.isNone then [] else [.scanTestTurn, .scanDrainTimeout, .scanUnitEmpty]].flatten

/-- The internal events whose moment is free. -/
def State.internal (s : State) : List Instr :=
  (s.cores.flatMap fun c =>
    [c.2.ops.flatMap fun o => opEvents c.1 o, c.2.groups.flatMap fun g => groupEvents c.1 g.1 g.2, coreEvents s c.1 c.2].flatten) ++ deviceEvents s

/-- Accesses that waited at a home for the host, and not at a held page. -/
def State.waiting (s : State) : List Choice :=
  (s.held.filter fun h => !(s.pageSt h.1).held).map fun h => (h.2, { s with held := s.held.filter fun k => k != h })

/-- Commands of the mailboxes. -/
def State.commands (s : State) : List Choice := s.cmds.map fun c => (c.2, { s with mailbox := c.1 })

/-- What may happen next, where nothing must. -/
def State.enabled (s : State) : List Choice :=
  s.issues ++ [s.commands, s.waiting, s.internal.map fun i => (i, s)].flatten.filter (moves s)

/-! ### What must happen next -/

/-- The end of a clock, once no gang of the group has issued since: mask registers are evaluated, collectives complete, and the conditions of
`TAGWAIT` are looked at (R41, R43, R351). -/
def State.clockEnd (s : State) (core slot : Nat) (g : Group) : List Instr :=
  if !g.free || g.acted != 0 then []
  else
    let waited := (g.threads.filterMap fun t => match t.st with
      | .maskWait k 0 => some k
      | _ => none).eraseDups
    let tags := (s.core core).ops.filter fun o => o.slot == slot && match o.kind with
      | .tagwait all m => s.tagReady core o.team all m
      | _ => false
    [(waited.filter fun k => g.releasable k != 0).map fun k => Instr.maskWaitRelease core slot k,
     if g.arrivals.isEmpty then [] else (g.decided.filter fun i => agree (g.together i)).map fun i => .collectiveComplete core slot i,
     tags.map fun o => .operationComplete core o.id].flatten

/-- Quota grants, canal watches, the end of a cut and held events follow their causes at once (R134, R157, R257, R401). -/
def State.immediate (s : State) : List Choice :=
  let quota : List Instr := s.cores.flatMap fun c => (c.2.teams.filter fun t => !t.2.queue.isEmpty).map fun t => .regqGrant c.1 t.1
  let cuts : List Instr := (s.editions.filter fun e => e.st == .sealing).map fun e => .editionCutDone e.seq
  let held : List Instr := if s.events.held.isEmpty then [] else [.heldEventPost]
  [s.cores.flatMap fun c => c.2.groups.flatMap fun g => (s.clockEnd c.1 g.1 g.2).map fun i => (i, s),
   ((keysOf s.canals).filter s.canalDue).map fun c => (.canalWatchStore c, s),
   ([quota, cuts, held].flatten.map fun i => (i, s)).filter (moves s)].flatten

/-- A home applies the cut of an edition in the moment that its device time passes T (R256); that of an edition which has failed before it too
(R254). -/
def State.cutDue (s : State) : Option Choice :=
  (s.editions.findSome? fun e =>
    if e.t < s.ns then ((List.range 4).find? fun d => !e.cut.contains d).map fun d => Instr.homeApplyCut e.seq d else none).map
    fun i => (i, s)

/-- The row that the machine carries out next; none where nothing can happen. -/
def State.choose (s : State) : Option Choice :=
  match s.cutDue with
  | some x => some x
  | none =>
    match s.immediate with
    | x :: _ => some x
    | [] =>
      match s.agenda with
      | i :: rest => some (i, { s with agenda := rest })
      | [] =>
        match s.enabled with
        | [] => none
        | [x] => some x
        | x :: y :: l => some ((x :: y :: l).getD (Config.pick s.n % (l.length + 2)) x)

/-! ### Time (R14, R16, R154, R185) -/

/-- How often a period of `k` ticks ends between two moments, eight times at most. -/
def crossings (k t u : Nat) : Nat := min 8 (u / k - t / k)

/-- The periodic events whose moment passes between two moments. -/
def State.periodic (s : State) (t u : Nat) : List Instr :=
  let each := fun n (l : List Instr) => (List.range n).flatMap fun _ => l
  each (crossings 10240 t u) ((s.cores.filter fun c => c.2.score != 0).map fun c => .scoreDecay c.1)
    ++ if s.regions.isEmpty then []
      else each (crossings (nsTicks 100000) t u) ((List.range 4).map fun d => .migrationTick d)
        ++ each (crossings (nsTicks 1000000) t u) ((List.range 4).map fun d => .heatDecay d)

/-- A clock of a core ends: the next begins with its shared registers as they stand, its rotation, and the pending groups that are ready by
then (R151, R152). -/
def State.coreClock (s : State) (core : Nat) (c : Core) : Core :=
  { c with
    groups := c.groups.map fun p =>
      let g := p.2.newClock
      (p.1, if g.gst == .pending && g.free && s.groupReady core g then { g with readySince := some (g.readyTick s.ticks) }
            else { g with readySince := none })
    teams := c.teams.map fun t => (t.1, { t.2 with justSet := 0 })
    lastSlot := c.turn.first.getD c.lastSlot
    turn := { order := none, low := 0, used := [], first := none } }

/-- The end of a clock on every core (R172). -/
def State.endClock (s : State) : SMap Core :=
  let t := s.endBars
  t.cores.map fun c => (c.1, t.coreClock c.1 c.2)

/-- Time passes after a step. -/
def State.pass (s : State) : State :=
  let u := s.ticks + Config.elapsed s.n
  { s with n := s.n + 1, ticks := u, agenda := s.agenda ++ s.periodic s.ticks u,
           cores := if s.clock < u / 10 then s.endClock else s.cores }

end Sys2Proof.Machine
end

