-- ==== Sys2Proof/Machine/Step.lean ====
section
/-! DEFINITION. One step of the device, and the placing of one instruction where the next step issues it. -/

namespace Sys2Proof.Machine

/-- One step: the row that comes next, and then the passing of time.  Where nothing can happen, only time passes. -/
def step (s : State) : Host.Outcome State Fault Refusal :=
  match s.choose with
  | none => .next s.pass
  | some (i, t) =>
    match exec i t with
    | .next u => .next u.pass
    | .fault f => .fault f
    | .refused r => .refused r

/-- The kernel whose team a placed instruction runs in: one team of one group with 64 main registers, 64 KiB of local memory, four tiles and
eight barrier objects. -/
def placedKernel : Kernel :=
  { barge := 0, ctx := 1, canal := 0, st := .running, kcode := 0, entry := BitVec.ofNat 64 0x1000, args := [], grid := 0,
    res := 0x8101003F0#64, travtab := [], done := 0, waits := [], met := [], due := none, next := 1, lastCore := some 0, live := 1, committed := [],
    gwct := 0, again := [] }

/-- The clause of a placed instruction: a header of the word's class and the word. -/
def placedClause (w : Word64) : List Word64 :=
  let cls := match decodeWord w with
    | .ok i => i.cls.getD .ctrl
    | .error _ => .ctrl
  [headerWord cls 1, w]

/-- The group that a placed instruction issues from: 64 threads at slot 1 of the clause, which they have entered. -/
def placedGroup (id : Nat) (w : Word64) : Group :=
  { ctx := 1, team := id, idx := 0, gst := .active, quota := 64,
    threads := List.replicate 64 { pc := codePtr (BitVec.ofNat 64 0x1000) 1, path := 0, st := .ready, held := false, entry := id, stall := none,
                                   since := 0, refetch := false, blocked := false },
    v := [], q := [], l := [], g := [], k := [], flags := [],
    entries := [{ id := id, hdr := BitVec.ofNat 64 0x1000, words := placedClause w, seta := 15, setb := 15, setbDue := false, unconsumed := 0,
                  unfinished := 0, opened := true, setaOn := false, setbOn := false, yields := false }],
    issues := [], gwct := 0, stores := [], acked := [], arrivals := [], trap := .blank, due := [], hold := .none, halt := .none, view := [],
    lent := false, recent := [], savedAt := none, promoted := 0, readySince := none, yielded := false, seenG := [], seenK := [], seenFlags := [], acted := 0,
    woken := 0, stepping := 0 }

/-- The first GiB of context 1's virtual addresses, mapped to the first GiB of memory with every permission: three table words at 1 GiB,
and the clause at its address. -/
def placedBytes (mem : List Host.Cell) (ws : List Word64) : List Host.Cell :=
  let word := fun (m : List Host.Cell) (a x : Nat) => let b := leBytes 8 x; setRange m a 8 fun i => b.getD i 0
  let m := word (word (word mem 0x40000000 0x10000401) 0x40001000 0x10000801) 0x40002000 0xDF
  (List.range ws.length).foldl (fun m i => word m (0x1000 + 8 * i) (ws.getD i 0).toNat) m

/-- The region that the placed code and its data lie in. -/
def placedRegion : Region :=
  { ctx := 1, idx := 0, place := 0, tag := false, ed := false, dat := false, dsize := 0, full := false, base := 0, datum := 0, frames := 0x40000,
    sticky := false, held := false, drops := 0, pool := 0, poolFar := 0, nearPages := 0x40000, wasAuto := false, view := none, born := 1 }

/-- The team of the placed group. -/
def placedTeam (id : Nat) : Team := Team.new placedKernel id 0 0 0 0 0

/-- `s` with the instruction word `w` placed where the next step issues it: a device that only runs one team on core 0, whose gang stands
at `w` in a clause that it has entered, and memory that holds that clause (assumption log 6). -/
def State.withFetchWord (s : State) (_nbits w : Nat) : State :=
  let ws := placedClause (BitVec.ofNat 64 w)
  let id := s.fresh
  { s with
    agenda := [], fresh := id + 1, mem := placedBytes s.mem ws, regions := [placedRegion], editions := [], held := [], cmds := [],
    linkReqs := [], inboundAcks := [], signals := [], canals := [], directory := [], pages := [], lines := [], poison := [], tags := [],
    devstat := s.devstat &&& ~~~ 0x2000000#64, events := { s.events with held := [] },
    test := { s.test with interval := 0, draining := none },
    ctxs := [(1, { Ctx.blank with state := .running, root := 0x40000, regw := 4096, localU := 512, tilesMax := 32 })],
    kernels := [(id, placedKernel)],
    cores := [(0, { Core.init with groups := [(0, placedGroup id (BitVec.ofNat 64 w))], teams := [(id, placedTeam id)] })] }

end Sys2Proof.Machine
end

