-- ==== Sys2Proof/Safety.lean ====
section
/-! DEFINITION. What a safe run is, and the words in which the statements say what a step reads, writes and leaves alone. -/

namespace Sys2Proof

open Machine

/-! ### Runs -/

/-- A step that answers a next state: the machine neither faults nor refuses. -/
def Goes (s : State) : Prop := ∃ t, step s = .next t

/-- The memory's canonical form: addresses rising, no listed byte 0. -/
def MemoryOk (s : State) : Prop := Memory.wf s.mem

/-- A property that every step from every state keeps. -/
def Kept (P : State → Prop) : Prop := ∀ s t, P s → step s = .next t → P t

/-- A property that carrying out any row from any state keeps. -/
def KeptByRows (P : State → Prop) : Prop := ∀ (i : Instr) s t, P s → exec i s = .next t → P t

/-! ### The gang that issues -/

/-- Group `g` issues `i`: it stands where the issuer names it, every field of `i` is a setting that its entry allows, and every main register
that `i` names lies below the group's quota (R79, R93). -/
def Issuing (s : State) (i : Instr) (g : Group) : Prop :=
  s.group? s.cur.core s.cur.slot = some g ∧ i.wf = true ∧ i.mainSpan ≤ g.quota

/-- M of R274: the issuing threads whose guard is true, by the mask registers as they stood at the start of the clock (R81, R272). -/
def mOf (s : State) (g : Group) (x : Guard) : Mask := g.shown.guarded s.cur.mask x

/-- The gang that issues, with M of R274. -/
def gangOf (s : State) (g : Group) (x : Guard) (cls : Option Cls := none) : Gang := s.gang g x cls

/-- The issuing threads are a gang: they stand at one code pointer with one path counter (R31, R35, R277). -/
def OneGang (s : State) (g : Group) : Prop :=
  ∀ i < 64, has s.cur.mask i = true → sameFragment (g.thread i) (g.thread (lowLane s.cur.mask)) = true

/-- `Issuing`, with some thread in M. -/
def IssuingSome (s : State) (i : Instr) (x : Guard) (g : Group) : Prop := Issuing s i g ∧ (gangOf s g x).m ≠ 0

/-! ### Frames -/

/-- Every operation, every lock of one, and every operation that a thread waits behind, has an identity below the next one. -/
def FreshIds (s : State) : Prop :=
  ∀ c, (∀ o ∈ (s.core c).ops, o.id < s.fresh) ∧ (∀ l ∈ (s.core c).locks, l.op < s.fresh) ∧
    ∀ slot g, s.group? c slot = some g → ∀ t ∈ g.threads, ∀ k, t.stall = some k → k < s.fresh

/-- From `s` to `t` nothing changes but one core. -/
structure OnlyCore (s t : State) (core : Nat) : Prop where
  device : t = { s with cores := t.cores, fresh := t.fresh }
  others : ∀ c, c ≠ core → t.core c = s.core c
  /-- Every byte of storage reads as before. -/
  memory : ∀ a, t.stored a = s.stored a

/-- A group apart from what only its next turn reads: whether it gives the turn up (R281), and whether a gang has found that it must wait at
issue (R150). -/
def still (g : Group) : Group := { g with yielded := false, threads := g.threads.map fun (t : Thread) => { t with blocked := false } }

/-- Group `slot` of a core apart from what only its next turn reads. -/
def State.still? (s : State) (core slot : Nat) : Option Group := (s.group? core slot).map Sys2Proof.still

/-- An operation apart from the writes that it still has pending. -/
def withoutWrites (o : Op) : Op := { o with writes := [], gdst := none }

/-- From `s` to `t` nothing changes but one group, the issue slots of its core's clock (R152), the pending writes of its core's operations, and
`more`, the operations that are put in flight. -/
structure OnlyGroup (s t : State) (core slot : Nat) (more : List Op) : Prop where
  outside : OnlyCore s t core
  thisCore : t.core core = { s.core core with groups := (t.core core).groups, ops := (t.core core).ops, turn := (t.core core).turn }
  groups : ∀ l, l ≠ slot → State.still? t core l = State.still? s core l
  ops : (t.core core).ops.map withoutWrites = (s.core core).ops.map withoutWrites ++ more.map withoutWrites

/-- From `g` to `h` only registers, threads, the counts of issues and completion flags, the lanes that have issued in the clock and the turn
given up at the end of a clause change. -/
def SameGroup (g h : Group) : Prop :=
  h = { g with v := h.v, q := h.q, l := h.l, g := h.g, k := h.k, threads := h.threads, issues := h.issues, entries := h.entries,
               flags := h.flags, acted := h.acted, yielded := h.yielded }

/-- Thread `i` of `h` is that of `g`, apart from whether it has found that it must wait at issue. -/
def SameThread (g h : Group) (i : Nat) : Prop := h.thread i = { g.thread i with blocked := (h.thread i).blocked }

/-- The ready threads of the gang `act` move on past their slot (R73), and each thread else stays as it is. -/
structure MovedOn (g h : Group) (act : Mask) : Prop where
  gang : ∀ i < 64, has act i = true → (g.thread i).st = .ready → ∃ n, h.thread i = { g.stepThread (g.thread i) with since := n }
  rest : ∀ i < 64, ¬(has act i = true ∧ (g.thread i).st = .ready) → SameThread g h i

/-- Where no thread leaves its clause and no count is due, the completion flags stand. -/
def FlagsStand (g h : Group) (act : Mask) : Prop :=
  g.settle = g → (∀ i < 64, has act i = true → (g.thread i).st = .ready → slotOf (g.thread i).pc < g.countAt (g.thread i)) → h.flags = g.flags

/-! ### Registers after an instruction -/

/-- Main register `n` of lane `i` after a write of D for the threads of `m` (R79, R269). -/
def mainAfter (g : Group) (m : Mask) (wide : Bool) (d : Spec) (f : Nat → Word64) (n i : Nat) : Word32 :=
  match d with
  | .main k => if has m i && n == k.val then lo32 (f i) else if has m i && wide && n == k.val + 1 then hi32 (f i) else g.mainAt n i
  | _ => g.mainAt n i

/-- Register `q n` of lane `i` after a write of D for the threads of `m` (R79). -/
def qAfter (g : Group) (m : Mask) (d : Spec) (f : Nat → Word64) (n i : Nat) : Word32 :=
  match d with
  | .q k => if has m i && n == k.val then lo32 (f i) else rowAt (rowOf g.q n) i
  | _ => rowAt (rowOf g.q n) i

/-- Register `g n` after a write of D for the threads of `m`: the value of the lowest (R79, R269). -/
def gAfter (g : Group) (m : Mask) (wide signed : Bool) (d : Spec) (f : Nat → Word64) (n : Nat) : Word64 :=
  match d with
  | .g k => if m ≠ 0 ∧ n = k.val then (if wide then f (lowLane m) else widen signed (lo32 (f (lowLane m)))) else g.greg n
  | _ => g.greg n

/-- Registers `l0` and `l1` of lane `i` after an instruction; `alu`: it is of ALU class, and D is per thread (R80). -/
def lAfter (g : Group) (m : Mask) (alu : Bool) (d : Spec) (f : Nat → Word64) (n i : Nat) : Word32 :=
  if alu && perThread d && has m i then
    if n = 0 then lo32 (f i) else if n = 1 then rowAt (rowOf g.l 0) i else rowAt (rowOf g.l n) i
  else rowAt (rowOf g.l n) i

/-- The registers of `h` are those of `g` after an instruction that writes `f` into D for the threads of `m`; a D of `zero` discards it,
and the mask registers stand. -/
structure RegsAfter (g h : Group) (m : Mask) (alu wide signed : Bool) (d : Spec) (f : Nat → Word64) : Prop where
  main : ∀ n, ∀ i < 64, h.mainAt n i = mainAfter g m wide d f n i
  q : ∀ n, ∀ i < 64, rowAt (rowOf h.q n) i = qAfter g m d f n i
  l : ∀ n, ∀ i < 64, rowAt (rowOf h.l n) i = lAfter g m alu d f n i
  uniform : ∀ n, h.greg n = gAfter g m wide signed d f n
  masks : h.k = g.k

/-- The registers of `h` are those of `g`. -/
structure SameRegs (g h : Group) : Prop where
  main : h.v = g.v
  q : h.q = g.q
  l : h.l = g.l
  uniform : h.g = g.g
  masks : h.k = g.k

/-- From `s` to `t`, group `g` of the issuing gang has written `f` into D for the threads of `m` and moved on, and all else is as it was. -/
def WroteOnly (s t : State) (g : Group) (m : Mask) (alu wide signed : Bool) (d : Spec) (f : Nat → Word64) : Prop :=
  ∃ h, t.group? s.cur.core s.cur.slot = some h ∧ RegsAfter g h m alu wide signed d f ∧ MovedOn g h s.cur.mask ∧
    FlagsStand g h s.cur.mask ∧ SameGroup g h ∧ OnlyGroup s t s.cur.core s.cur.slot []

/-- From `s` to `t`, mask register `k` has taken `v`, the bits of exited threads removed (R38), the gang of `g` has moved on, and all else is
as it was. -/
def MaskOnly (s t : State) (g : Group) (k : Nat) (v : Mask) : Prop :=
  ∃ h, t.group? s.cur.core s.cur.slot = some h ∧ h.maskReg k &&& g.liveMask = v &&& g.liveMask ∧
    (h.maskReg k = v &&& g.liveMask ∨ h.maskReg k = g.maskReg k) ∧ (∀ n, n ≠ k → h.maskReg n = g.maskReg n) ∧
    h.v = g.v ∧ h.q = g.q ∧ h.l = g.l ∧ h.g = g.g ∧ MovedOn g h s.cur.mask ∧ FlagsStand g h s.cur.mask ∧ SameGroup g h ∧
    OnlyGroup s t s.cur.core s.cur.slot []

/-- From `s` to `t` a trap has been raised on group `g` at the code pointer of the issuing gang, behind one that stood there; its threads and
registers stand, and all else is as it was (R50, R51). -/
def Trapped (s t : State) (g : Group) (code : Nat) (addr : Word64) (words : List Word64) : Prop :=
  let r : TrapRec := { code := code, addr := addr, pc := (gangOf s g .always).pc, words := words }
  t.group? s.cur.core s.cur.slot =
    some (if g.hold = .none then { g with hold := .trapped, trap := r } else { g with due := g.due ++ [r] }) ∧
  OnlyGroup s t s.cur.core s.cur.slot []

/-- The register `r` of lane `i`. -/
def regAt (g : Group) (r : RReg) (i : Nat) : Word32 :=
  match r with
  | .v n => g.mainAt n i
  | .q n => rowAt (rowOf g.q n) i
  | .l n => rowAt (rowOf g.l n) i

/-- `i` is a control transfer: where every target of the threads of M that take it is valid (R74), those threads go to their targets (R32),
the rest of the gang falls through (R33, R73), D takes the return pointer of each thread of M, and from the state in which the targets have
been checked all else is as it was. -/
def BranchDone (i : Instr) (x : Guard) (d : Option Spec) (take : Group → Nat → Bool) (tgt : Group → Nat → Word64) : Prop :=
  ∀ s g, Issuing s i g →
    let m := mOf s g x
    let takes := fun j => has m j && take g.shown j
    let tgt := tgt g.shown
    ∀ u, checkTargets s s.cur.core g.ctx (((lanesOf m).filter (take g.shown)).map fun j => (j, tgt j)) = (u, 0, none) →
      ∃ t h, exec i s = .next t ∧ t.group? s.cur.core s.cur.slot = some h ∧
        (∀ j < 64, takes j = true → (h.thread j).pc = tgt j ∧ (h.thread j).entry = 0 ∧ (h.thread j).st = (g.thread j).st ∧
          (h.thread j).path = if wordAddr (tgt j) ≤ wordAddr (g.thread j).pc ∧ (g.thread j).path ≠ 0xFFFF then (g.thread j).path + 1
            else (g.thread j).path) ∧
        (∀ j < 64, takes j = false → has s.cur.mask j = true → (h.thread j).pc = g.nextPc (g.thread j) ∧ (h.thread j).path = (g.thread j).path ∧
          (h.thread j).st = (g.thread j).st) ∧
        (∀ j < 64, has s.cur.mask j = false → SameThread g h j) ∧
        (match d with
          | some d => RegsAfter g h m false true false d fun j => g.returnPtr (g.thread j)
          | none => SameRegs g h) ∧
        SameGroup g h ∧ OnlyGroup u t s.cur.core s.cur.slot []

/-- `i` completes at issue: from every state in which a group issues it there is a next state, in which D, `l0` and `l1` hold what `f` gives
for the threads of M, each from the group as it stood (R272), the gang has moved on, and all else is as it was. -/
def AluDone (i : Instr) (x : Guard) (d : Spec) (wide signed : Bool) (f : Group → Nat → Word64) : Prop :=
  ∀ s g, Issuing s i g → ∃ t, exec i s = .next t ∧ WroteOnly s t g (mOf s g x) true wide signed d (f g.shown)

/-! ### Reductions -/

/-- `r` is the reduction of some values of a type by an operation of R328: `.add`, `.min`, `.max`, `.and`, `.or`, `.xor`. -/
def IntReduction (ty : Ty) (op : Nat) (vals : List Word64) (r : Word64) : Prop :=
  let n := vals.map (intOf ty)
  match op with
  | 0 => r = putInt ty n.sum
  | 1 => ∃ x ∈ n, (∀ y ∈ n, x ≤ y) ∧ r = putInt ty x
  | 2 => ∃ x ∈ n, (∀ y ∈ n, y ≤ x) ∧ r = putInt ty x
  | 3 => ∀ b < 64, r.getLsbD b = vals.all fun v => v.getLsbD b
  | 4 => ∀ b < 64, r.getLsbD b = vals.any fun v => v.getLsbD b
  | _ => ∀ b < 64, r.getLsbD b = (vals.countP (fun v => v.getLsbD b) % 2 == 1)

/-- `r` is the FP32 reduction of some values by an operation of R329: the exact sum rounded once, or `.min`, `.max`, `.min.nan`, `.max.nan`
over all of them. -/
def FloatReduction (rnd : Rnd) (op : Nat) (vals : List Word64) (r : Word64) : Prop :=
  let n := vals.map fun v => (lo32 v).toNat
  match op with
  | 0 => r = BitVec.ofNat 64 (roundTo .f32 rnd (exactSum rnd (n.map (decodeF .f32))))
  | k =>
    let pick := minMaxF .f32 (k % 2 == 0) (decide (3 ≤ k))
    match n with
    | [] => r = 0
    | [a] => r = BitVec.ofNat 64 (pick a a)
    | a :: t => r = BitVec.ofNat 64 (t.foldl pick a)

/-! ### Operations in flight -/

/-- An operation of the gang `x`. -/
structure OpOf (x : Gang) (o : Op) : Prop where
  slot : o.slot = x.slot
  team : o.team = x.grp.team
  ctx : o.ctx = x.grp.ctx
  entries : o.entries = x.entries
  pc : o.pc = x.pc

/-- Operation `o` is to write `words` registers from D on for its lanes, or a `g` register (R153). -/
structure Pends (o : Op) (d : Spec) (words : Nat) (signed : Bool) : Prop where
  width : o.words = words
  writes : o.writes = pendingOf d o.lanes words
  uniform : o.gdst = match (generalizing := false) d with
    | .g n => some (n.val, signed)
    | _ => none

/-- From `s` to `t` the gang of `g` has put operation `o` in flight and moved on; its registers stand, and all else is as it was. -/
def FliesOnly (s t : State) (g : Group) (o : Op) : Prop :=
  ∃ h, t.group? s.cur.core s.cur.slot = some h ∧ o ∈ (t.core s.cur.core).ops ∧ SameRegs g h ∧ MovedOn g h s.cur.mask ∧ SameGroup g h ∧
    OnlyGroup s t s.cur.core s.cur.slot [o]

/-- From `u`, the state in which the checks of an access have been passed, to `t` the gang of `g` has put operation `o` in flight and moved on:
its registers stand, no other group, core or byte of storage has changed. -/
def InFlight (s u t : State) (g : Group) (o : Op) : Prop :=
  ∃ h, t.group? s.cur.core s.cur.slot = some h ∧ o ∈ (t.core s.cur.core).ops ∧ SameRegs g h ∧ MovedOn g h s.cur.mask ∧
    (∀ l, l ≠ s.cur.slot → State.still? t s.cur.core l = State.still? u s.cur.core l) ∧ (∀ c, c ≠ s.cur.core → t.core c = u.core c) ∧
    t = { u with cores := t.cores, fresh := t.fresh, linkReqs := t.linkReqs } ∧ ∀ a, t.stored a = u.stored a

/-- From `u` to `t` the gang of `g` has put operation `o` in flight and moved on; every register, group and byte of storage stands, and beside
cores nothing else has changed.  The local memory of teams may have. -/
def InFlightLocal (s u t : State) (g : Group) (o : Op) : Prop :=
  ∃ h, t.group? s.cur.core s.cur.slot = some h ∧ o ∈ (t.core s.cur.core).ops ∧ SameRegs g h ∧ MovedOn g h s.cur.mask ∧
    (∀ c l, ¬(c = s.cur.core ∧ l = s.cur.slot) → State.still? t c l = State.still? u c l) ∧
    t = { u with cores := t.cores, fresh := t.fresh } ∧ ∀ a, t.stored a = u.stored a

/-- From `u` to `t` the gang of `g` has put operation `o` in flight and issues nothing more until it ends; its registers, every other group and
every byte of storage stand, and beside cores nothing else has changed. -/
def StallsBehind (s u t : State) (g : Group) (o : Op) : Prop :=
  ∃ h, t.group? s.cur.core s.cur.slot = some h ∧ o ∈ (t.core s.cur.core).ops ∧ SameRegs g h ∧
    (∀ j < 64, has s.cur.mask j = true → (h.thread j).stall = some o.id ∧ ((g.thread j).st = .ready → (h.thread j).pc = g.nextPc (g.thread j))) ∧
    (∀ j < 64, has s.cur.mask j = false → SameThread g h j) ∧
    (∀ c l, ¬(c = s.cur.core ∧ l = s.cur.slot) → State.still? t c l = State.still? u c l) ∧
    t = { u with cores := t.cores, fresh := t.fresh } ∧ ∀ a, t.stored a = u.stored a

/-- From `u` to `t` operation `o` has completed with the results `res`: each register that it has pending takes its word in the lanes left to
it, every other register stands, its group's threads go on where they are, and it is in flight no longer (R69, R153). -/
def Delivered (u t : State) (core : Nat) (o : Op) (res : Nat → BitVec 128) : Prop :=
  ∃ g h, u.group? core o.slot = some g ∧ t.group? core o.slot = some h ∧
    (∀ w ∈ o.writes, ∀ i < 64, has w.lanes i = true → regAt h w.reg i = word128 (res i) w.word) ∧
    (∀ r, ∀ i < 64, (∀ w ∈ o.writes, w.reg = r → has w.lanes i = false) → regAt h r i = regAt g r i) ∧
    (∀ n, h.greg n = match o.gdst with
      | some (k, signed) =>
        let x := res (lowLane o.lanes)
        if n = k then (if o.words = 1 then widen signed (x.setWidth 32) else x.setWidth 64) else g.greg n
      | none => g.greg n) ∧
    h.k = g.k ∧ (∀ i < 64, (h.thread i).pc = (g.thread i).pc ∧ (h.thread i).st = (g.thread i).st) ∧
    (t.core core).ops = (u.core core).ops.filter (fun p => p.id != o.id) ∧
    (∀ l, l ≠ o.slot → State.still? t core l = State.still? u core l) ∧ OnlyCore u t core

/-- Operation `o` stands in its core under its identity, in a resident group, with each register pending once and no poison met. -/
def Flying (s : State) (core : Nat) (o : Op) : Prop :=
  (s.core core).op? o.id = some o ∧ (s.group? core o.slot).isSome = true ∧ (o.writes.map (·.reg)).Nodup ∧ o.poison = none

/-- The operation `o` of the gang `x` gives the value `v` to D for every thread of M, in `words` registers. -/
def GivesAll (x : Gang) (o : Op) (d : Spec) (words : Nat) (v : BitVec 128) : Prop :=
  OpOf x o ∧ o.kind = .simple ∧ o.consumed = true ∧ o.lanes = x.m ∧ Pends o d words false ∧ ∀ j < 64, o.res.getD j 0 = v

/-- From `u` to `t` the gang of `g` has moved on; its registers, every other group and every byte of storage stand, and nothing beside cores
has changed. -/
def MovedOnly (s u t : State) (g : Group) : Prop :=
  ∃ h, t.group? s.cur.core s.cur.slot = some h ∧ SameRegs g h ∧ MovedOn g h s.cur.mask ∧
    (∀ c l, ¬(c = s.cur.core ∧ l = s.cur.slot) → State.still? t c l = State.still? u c l) ∧
    t = { u with cores := t.cores, fresh := t.fresh } ∧ ∀ a, t.stored a = u.stored a

/-- Nothing is owed to the host: no event waits for its queue, no Running context has a store held, and regions have their own numbers. -/
def Calm (s : State) : Prop :=
  s.events.held = [] ∧ (∀ c, (s.ctx c).poolHold = true → (s.ctx c).state ≠ .running) ∧ ∀ r ∈ s.regions, s.region? r.ctx r.idx = some r

/-- The byte of a team's local memory. -/
def localByte (s : State) (core team off : Nat) : Byte := ((s.team? core team).map fun t => t.byte off).getD 0

/-- From `s` to `t` the gang of `g` has moved on, and nothing else has happened. -/
def OnlyMovedOn (s t : State) (g : Group) : Prop :=
  ∃ h, t.group? s.cur.core s.cur.slot = some h ∧ SameRegs g h ∧ MovedOn g h s.cur.mask ∧ FlagsStand g h s.cur.mask ∧ SameGroup g h ∧
    OnlyGroup s t s.cur.core s.cur.slot []

/-- The keepers carry out the command `i` of mailbox `m` next: no earlier command for its context is left, and a keeper that it needs works
(R24, R421). -/
def Commanded (s : State) (i : Instr) (m : Nat) : Prop :=
  s.mailbox = m ∧ (m, i) ∈ s.cmds ∧ s.commandBehind m i = false ∧ (i = .devstat ∨ s.keepersRun (s.mail m) i = true)

/-- The command `i` of mailbox `m` ends with a result and return values (R398); `u` is the state with its effect. -/
def Ends (i : Instr) (s u : State) (m result : Nat) (values : List Word64) : Prop :=
  exec i s = .next ((({ u with cmds := u.cmds.filter fun j => j != (m, i) } : State).finishCommand m result values).afterStore s)

/-- `i` is of SFU class: from every state in which a group issues it there is a next state, in which an operation in flight holds what `f`
gives for the threads of M, to be written to D and `l0`; `l0` has moved to `l1` (R80); no other register has changed, the gang has moved on,
and all else is as it was.  With M empty there is no operation. -/
def SfuDone (i : Instr) (x : Guard) (d : Spec) (signed : Bool) (f : Group → Nat → Word64) : Prop :=
  ∀ s g, Issuing s i g → FreshIds s → ∃ t h, exec i s = .next t ∧ t.group? s.cur.core s.cur.slot = some h ∧
    (∀ n, ∀ j < 64, h.mainAt n j = g.mainAt n j) ∧ h.q = g.q ∧ h.g = g.g ∧ h.k = g.k ∧
    (∀ n, ∀ j < 64, rowAt (rowOf h.l n) j =
      if n = 1 ∧ perThread d = true ∧ has (gangOf s g x).m j = true then rowAt (rowOf g.l 0) j else rowAt (rowOf g.l n) j) ∧
    MovedOn g h s.cur.mask ∧ SameGroup g h ∧
    if (gangOf s g x).m = 0 then OnlyGroup s t s.cur.core s.cur.slot []
    else ∃ o ∈ (t.core s.cur.core).ops, OnlyGroup s t s.cur.core s.cur.slot [o] ∧ OpOf (gangOf s g x) o ∧ o.id = s.fresh ∧
      o.kind = .simple ∧ o.consumed = true ∧ o.poison = none ∧ o.lanes = (gangOf s g x).m ∧ o.words = 1 ∧
      (∀ j < 64, o.res.getD j 0 = (f g.shown j).setWidth 128) ∧
      o.writes = (if perThread d then [{ reg := .l 0, lanes := o.lanes, word := 0 }] else []) ++ pendingOf d o.lanes 1 ∧
      o.gdst = match d with
        | .g n => some (n.val, signed)
        | _ => none

end Sys2Proof
end

