-- ==== Sys2Proof/Certificates/Slice0/Obligations.lean ====
section
/-! DEFINITION. The statements for the provers. -/

open Sys2Proof Sys2Proof.Machine
/-! ### Integer, floating-point and conversion instructions (R80, R100, R269–R322) -/

/-- R290: a two-source integer instruction writes Put(r, T), clamped first under `.sat`; AND, OR and XOR are bitwise. -/
def Obligations.IntegerTwoSource : Prop :=
  ∀ f : FA,
    let v := fun (r : Int → Int → Int) (g : Group) j =>
      putInt f.ty (satInt (f.sub.val % 2 == 1) f.ty (r (intOf f.ty (g.src j f.ty f.a)) (intOf f.ty (g.src j f.ty f.b))))
    let done := fun i r => AluDone i f.guard f.d false f.ty.signed (v r)
    done (.iaddA f) (fun a b => a + b) ∧ done (.isubA f) (fun a b => a - b) ∧ done (.imulA f) (fun a b => a * b) ∧
    done (.imulh f) (fun a b => a * b / 2 ^ 32) ∧
    done (.iminA f) (fun a b => if a ≤ b then a else b) ∧ done (.imaxA f) (fun a b => if a ≤ b then b else a) ∧
    done (.andA f) (fun a b => (a.toNat &&& b.toNat : Nat)) ∧ done (.orA f) (fun a b => (a.toNat ||| b.toNat : Nat)) ∧
    done (.xorA f) (fun a b => (a.toNat ^^^ b.toNat : Nat))

/-- R84, R91, R290, R292, R302, R305: format W, whose last source is its immediate; `ISUB` subtracts A from it, and `IMAD` adds D. -/
def Obligations.IntegerImmediate : Prop :=
  ∀ f : FW,
    let imm := intOf f.ty (immOf f.ty f.imm)
    let a := fun (g : Group) j => intOf f.ty (g.src j f.ty f.a)
    let done := fun i (r : Int → Int) => AluDone i .always f.d false f.ty.signed fun g j => putInt f.ty (r (a g j))
    done (.iaddW f) (fun a => a + imm) ∧ done (.isubW f) (fun a => imm - a) ∧ done (.imulW f) (fun a => a * imm) ∧
    done (.iminW f) (fun a => if a ≤ imm then a else imm) ∧ done (.imaxW f) (fun a => if a ≤ imm then imm else a) ∧
    done (.andW f) (fun a => (a.toNat &&& imm.toNat : Nat)) ∧ done (.orW f) (fun a => (a.toNat ||| imm.toNat : Nat)) ∧
    done (.xorW f) (fun a => (a.toNat ^^^ imm.toNat : Nat)) ∧
    AluDone (.imadW f) .always f.d false f.ty.signed (fun g j => putInt f.ty (a g j * imm + intOf f.ty (g.src j f.ty f.d))) ∧
    AluDone (.isetW f) .always f.d false f.ty.signed
      (fun g j => widen f.ty.signed (if a g j < imm then -1 else if a g j = imm then 0 else 1)) ∧
    AluDone (.movi f) .always f.d f.ty.wide f.ty.signed (fun _ _ => immOf f.ty f.imm)

/-- R291, R292, R294: sums with carry, multiply-add (the 64-bit `IMADW` adds a 64-bit C, widened by the sign of TYPE, log 39), and the one-source instructions. -/
def Obligations.IntegerCarryAndMultiplyAdd : Prop :=
  ∀ f : FA,
    let a := fun (g : Group) j => intOf f.ty (g.src j f.ty f.a)
    let b := fun (g : Group) j => intOf f.ty (g.src j f.ty f.b)
    let one := fun i (r : Int → Int) => AluDone i f.guard f.d false f.ty.signed fun g j =>
      putInt f.ty (satInt (f.sub.val % 2 == 1) f.ty (r (a g j)))
    AluDone (.iaddc f) f.guard f.d false false (fun g j =>
      let x := (g.src32 j f.a).toNat
      let y := (g.src32 j f.b).toNat
      let c := (g.srcC32 j f.c).toNat % 2
      let r := if f.sub.val / 2 = 1 then BitVec.ofInt 32 ((x : Int) - y - c) else BitVec.ofNat 32 (x + y + c)
      let cy := if f.sub.val / 2 = 1 then decide (x < y + c) else decide (2 ^ 32 ≤ x + y + c)
      if f.sub.val % 2 = 1 then (if cy then 1 else 0) else r.setWidth 64) ∧
    AluDone (.imadA f) f.guard f.d false f.ty.signed (fun g j =>
      putInt f.ty (a g j * b g j + intOf f.ty ((g.srcC32 j f.c).setWidth 64))) ∧
    AluDone (.imadw f) f.guard f.d true f.ty.signed (fun g j => BitVec.ofInt 64 (a g j * b g j) + g.srcC64 j f.ty.signed f.c) ∧
    one (.iabs f) (fun a => if a < 0 then -a else a) ∧ one (.ineg f) (fun a => -a) ∧ one (.notA f) (fun a => -1 - a)

/-- R295–R301: the bit of `LOP3` at j is the table's bit at the index that the three inputs' bits form; shifts by 32 or more give 0, or the
sign; rotates; the double-width shift; bit counts and reversal; fields; bytes. -/
def Obligations.ShiftsAndFields : Prop :=
  ((∀ f : FLop, AluDone (.lop3 f) f.guard f.d false false fun g j =>
    (lop3 f.table f.inv (g.src32 j f.a) (g.src32 j f.b) (g.srcC32 j f.c)).setWidth 64) ∧
  ∀ f : FA,
    let done := fun i (signed : Bool) (r : Word32 → Word32 → Word32 → Word32) => AluDone i f.guard f.d false signed fun g j =>
      widen signed (r (g.src32 j f.a) (g.src32 j f.b) (g.srcC32 j f.c))
    let right := f.sub.val % 2 == 1
    done (.shl f) false (fun a n _ => if 32 ≤ n.toNat then 0 else a <<< n.toNat) ∧
    done (.shr f) false (fun a n _ => if 32 ≤ n.toNat then 0 else a >>> n.toNat) ∧
    done (.sar f) true (fun a n _ => a.sshiftRight (min n.toNat 31)) ∧
    done (.rot f) false (fun a n _ => if right then a.rotateRight (n.toNat % 32) else a.rotateLeft (n.toNat % 32)) ∧
    done (.shf f) false (shf right) ∧ done (.popc f) false (fun a _ _ => popc32 a) ∧ done (.clz f) false (fun a _ _ => clz32 a) ∧
    done (.ctz f) false (fun a _ _ => ctz32 a) ∧ done (.brev f) false (fun a _ _ => brev32 a) ∧ done (.bfe f) f.ty.signed (bfe f.ty.signed) ∧
    AluDone (.bfi f) f.guard f.d false false
      (fun g j => (bfi (g.src32 j f.d) (g.src32 j f.a) (g.src32 j f.b) (g.srcC32 j f.c)).setWidth 64) ∧
    done (.prmt f) false prmt) ∧
  (∀ (table : BitVec 8) (inv : Bool) (a b c : Word32), ∀ j < 32, (lop3 table inv a b c).getLsbD j =
    (table.getLsbD ((a.getLsbD j).toNat + 2 * (b.getLsbD j).toNat + 4 * (c.getLsbD j).toNat) ^^ inv)) ∧
  ∀ a b c : Word32,
    let x := a.toNat * 2 ^ 32 + b.toNat
    let n := min c.toNat 64
    let p := b.toNat % 256
    let w := min (c.toNat % 256) 32
    (shf false a b c).toNat = x * 2 ^ n % 2 ^ 64 / 2 ^ 32 ∧ (shf true a b c).toNat = x / 2 ^ n % 2 ^ 32 ∧
    (popc32 a).toNat = ((List.range 32).filter fun j => a.getLsbD j).length ∧
    (∀ h, a.getLsbD h = true → (∀ k, h < k → a.getLsbD k = false) → (clz32 a).toNat = 31 - h) ∧ (a = 0 → (clz32 a).toNat = 32) ∧
    (∀ h, a.getLsbD h = true → (∀ k < h, a.getLsbD k = false) → (ctz32 a).toNat = h) ∧ (a = 0 → (ctz32 a).toNat = 32) ∧
    (∀ j < 32, (brev32 a).getLsbD j = a.getLsbD (31 - j)) ∧
    (∀ signed, let field := fun j => if p + j ≤ 31 then a.getLsbD (p + j) else signed && a.getLsbD 31
      (w = 0 → bfe signed a b c = 0) ∧
      (w ≠ 0 → ∀ j < 32, (bfe signed a b c).getLsbD j = if j < w then field j else signed && field (w - 1))) ∧
    (∀ old : Word32, ∀ j < 32, (bfi old a b c).getLsbD j = if p ≤ j ∧ j < p + w then a.getLsbD (j - p) else old.getLsbD j) ∧
    ∀ j < 4, ∀ k < 8, (prmt a b c).getLsbD (8 * j + k) =
      let f := c.toNat / 16 ^ j % 16
      ((if f % 8 < 4 then a.getLsbD (8 * (f % 8) + k) else b.getLsbD (8 * (f % 8 - 4) + k)) ^^ decide (8 ≤ f))

/-- R302–R309: comparisons, selection, moves (`MOVG` gives one thread's value, 0 where that thread is not in M), addresses, 64-bit sums
and byte dot products.  That A of `LEA` is widened by the sign of TYPE is the model's reading (log 39). -/
def Obligations.CompareSelectMove : Prop :=
  ∀ f : FA,
    AluDone (.isetA f) f.guard f.d false f.ty.signed (fun g j =>
      let a := intOf f.ty (g.src j f.ty f.a)
      let b := intOf f.ty (g.src j f.ty f.b)
      let bit := fun (p : Bool) => if p then (1 : Word32) else 0
      widen f.ty.signed (match f.sub.val with
        | 0 => bit (a = b)
        | 1 => bit (a ≠ b)
        | 2 => bit (a < b)
        | 3 => bit (a ≤ b)
        | 4 => bit (b < a)
        | 5 => bit (b ≤ a)
        | 6 => if a < b then -1 else if a = b then 0 else 1
        | _ => bit (b ≤ a))) ∧
    AluDone (.isel f) f.guard f.d f.ty.wide false (fun g j => if g.srcC32 j f.c ≠ 0 then g.src j f.ty f.a else g.src j f.ty f.b) ∧
    AluDone (.mov f) f.guard f.d f.ty.wide false (fun g j => g.src j f.ty f.a) ∧
    (∀ s g, Issuing s (.movg f) g → ∃ t, exec (.movg f) s = .next t ∧
      let m := mOf s g f.guard
      let r := g.shown
      let j := (r.src32 (lowLane m) f.b).toNat
      WroteOnly s t g m true true false f.d fun _ => if j < 64 ∧ has m j = true then r.src j f.ty f.a else 0) ∧
    AluDone (.lea f) f.guard f.d true false (fun g j =>
      g.src64 j f.ty.signed f.a + widen f.ty.signed (g.src32 j f.b) * BitVec.ofNat 64 (2 ^ f.sub.val)) ∧
    AluDone (.iadd64 f) f.guard f.d true f.ty.signed (fun g j =>
      putInt f.ty (satInt (f.sub.val % 2 == 1) f.ty (intOf f.ty (g.src j f.ty f.a) + intOf f.ty (g.src j f.ty f.b)))) ∧
    AluDone (.idot4 f) f.guard f.d false f.ty.signed (fun g j =>
      let u : Ty := if f.ty.signed then .s32 else .n32
      let e := fun (x : Word32) k => intOf f.ty ((x >>> (8 * k)).setWidth 64)
      let a := g.src32 j f.a
      let b := g.src32 j f.b
      putInt u (satInt (f.sub.val % 2 == 1) u (intOf u ((g.srcC32 j f.c).setWidth 64) + e a 0 * e b 0 + e a 1 * e b 1 + e a 2 * e b 2 +
        e a 3 * e b 3)))

/-- R311–R314, R317: floating-point sums, products, multiply-adds with one rounding, minima and maxima, comparisons and classes, in FP32 and
as packed pairs. -/
def Obligations.FloatArithmetic : Prop :=
  (∀ f : FA,
    let sat := f.sub.val % 2 == 1
    let F := fun (g : Group) j (x : Spec) => decodeF .f32 (g.src32 j x).toNat
    let C := fun (g : Group) j => decodeF .f32 (g.srcC32 j f.c).toNat
    let bits := fun (g : Group) j (x : Spec) => (g.src32 j x).toNat
    let done := fun i (v : Group → Nat → Nat) => AluDone i f.guard f.d false false fun g j => BitVec.ofNat 64 (v g j)
    done (.faddA f) (fun g j => roundSat .f32 f.rnd sat (exactSum f.rnd [F g j f.a, F g j f.b])) ∧
    done (.fsub f) (fun g j => roundSat .f32 f.rnd sat (exactSum f.rnd [F g j f.a, (F g j f.b).neg])) ∧
    done (.fmulA f) (fun g j => roundSat .f32 f.rnd sat ((F g j f.a).mul (F g j f.b))) ∧
    done (.ffmaA f) (fun g j => roundSat .f32 f.rnd sat (exactSum f.rnd [(F g j f.a).mul (F g j f.b), C g j])) ∧
    done (.fminA f) (fun g j => minMaxF .f32 false sat (bits g j f.a) (bits g j f.b)) ∧
    done (.fmaxA f) (fun g j => minMaxF .f32 true sat (bits g j f.a) (bits g j f.b)) ∧
    AluDone (.fsetA f) f.guard f.d false false (fun g j => (fsetWord f.sub.val (bits g j f.a) (bits g j f.b)).setWidth 64) ∧
    done (.fclass f) (fun g j => 2 ^ fclass f.ty (bits g j f.a % 2 ^ fwidth f.ty)) ∧
    let pair := fun i (r : Nat → Nat → Nat → Nat) => AluDone i f.guard f.d false false fun g j =>
      let at_ := fun e => r (half16 (g.src32 j f.a) e) (half16 (g.src32 j f.b) e) (half16 (g.srcC32 j f.c) e)
      pair16 (at_ 0) (at_ 1)
    let H := decodeF .f16
    let B := decodeF .bf16
    pair (.hadd2 f) (fun a b _ => roundSat .f16 f.rnd sat (exactSum f.rnd [H a, H b])) ∧
    pair (.hmul2 f) (fun a b _ => roundSat .f16 f.rnd sat ((H a).mul (H b))) ∧
    pair (.hfma2 f) (fun a b c => roundSat .f16 f.rnd sat (exactSum f.rnd [(H a).mul (H b), H c])) ∧
    pair (.hmnmx2 f) (fun a b _ => minMaxF .f16 sat (f.sub.val / 2 == 1) a b) ∧
    pair (.bfma2 f) (fun a b c => roundSat .bf16 f.rnd sat (exactSum f.rnd [(B a).mul (B b), B c]))) ∧
  ∀ f : FW,
    let imm := decodeF .f32 f.imm.toNat
    let F := fun (g : Group) j (x : Spec) => decodeF .f32 (g.src32 j x).toNat
    let done := fun i (v : Group → Nat → Nat) => AluDone i .always f.d false false fun g j => BitVec.ofNat 64 (v g j)
    done (.faddW f) (fun g j => roundTo .f32 .rn (exactSum .rn [F g j f.a, imm])) ∧
    done (.fmulW f) (fun g j => roundTo .f32 .rn ((F g j f.a).mul imm)) ∧
    done (.ffmaW f) (fun g j => roundTo .f32 .rn (exactSum .rn [(F g j f.a).mul imm, F g j f.d])) ∧
    done (.fminW f) (fun g j => minMaxF .f32 false false (g.src32 j f.a).toNat f.imm.toNat) ∧
    done (.fmaxW f) (fun g j => minMaxF .f32 true false (g.src32 j f.a).toNat f.imm.toNat) ∧
    AluDone (.fsetW f) .always f.d false false (fun g j => (fsetWord 6 (g.src32 j f.a).toNat f.imm.toNat).setWidth 64)

/-- R318–R322: conversions between the number types and of packed pairs, the element of a scaled block, rounding to an integral value, and
scaling by a power of two; `CVTQ` writes the words of its block to the main registers from D on, and its scale byte into C. -/
def Obligations.Conversions : Prop :=
  (∀ f : FCvt, AluDone (.cvt f) f.guard f.d f.dty.wide f.dty.signed fun g j =>
    if f.pk then
      pair16 (roundTo f.dty f.rnd (decodeF .f32 (g.src32 j f.a).toNat)) (roundTo f.dty f.rnd (decodeF .f32 (g.src32 j f.b).toNat))
    else convert f.sty f.dty f.rnd f.wrap (if f.hi then g.src j f.sty f.a >>> 16 else g.src j f.sty f.a)) ∧
  (∀ f : FA,
    AluDone (.cvtd f) f.guard f.d false false (fun g j =>
      let el := fun k => roundTo f.ty f.rnd (scaledE2m1 (g.src32 j f.b).toNat ((g.src32 j f.a).toNat / 16 ^ k % 16))
      if f.ty = .f32 then BitVec.ofNat 64 (el f.sub.val) else pair16 (el (2 * f.sub.val)) (el (2 * f.sub.val + 1))) ∧
    AluDone (.frnd f) f.guard f.d false false (fun g j => BitVec.ofNat 64 (frnd f.rnd (decodeF .f32 (g.src32 j f.a).toNat))) ∧
    AluDone (.fscale f) f.guard f.d false false (fun g j =>
      BitVec.ofNat 64 (fscale f.rnd (g.src32 j f.b).toInt (decodeF .f32 (g.src32 j f.a).toNat)))) ∧
  ∀ (f : FCvq) s g, Issuing s (.cvtq f) g →
    let m := mOf s g f.guard
    let of := fun i => cvtqOf f ((List.range (cvtqLen f)).map fun k => decodeF .f32 (g.mainAt (mainNum f.a + k) i).toNat)
    let isC := fun n => f.ty = .e2m1 ∧ ∃ c, f.c = .main c ∧ c.val = n
    ∃ t h, exec (.cvtq f) s = .next t ∧ t.group? s.cur.core s.cur.slot = some h ∧
      (∀ i < 64, has m i = true →
        (∀ k < (of (lowLane m)).1.length, ¬isC (mainNum f.d + k) → h.mainAt (mainNum f.d + k) i = (of i).1.getD k 0) ∧
        (∀ n, isC n → h.mainAt n i = setByte (g.mainAt n i) (immSel f.b) (of i).2) ∧
        (f.ty = .e2m1 → ∀ c, f.c = .q c → rowAt (rowOf h.q c.val) i = setByte (rowAt (rowOf g.q c.val) i) (immSel f.b) (of i).2) ∧
        rowAt (rowOf h.l 0) i = (of i).1.getD 0 0 ∧ rowAt (rowOf h.l 1) i = rowAt (rowOf g.l 0) i) ∧
      (∀ i < 64, ∀ n, has m i = false ∨ (n < mainNum f.d ∨ mainNum f.d + (of (lowLane m)).1.length ≤ n) ∧ ¬isC n →
        h.mainAt n i = g.mainAt n i) ∧
      (∀ i < 64, has m i = false → ∀ n, rowAt (rowOf h.q n) i = rowAt (rowOf g.q n) i ∧ rowAt (rowOf h.l n) i = rowAt (rowOf g.l n) i) ∧
      h.g = g.g ∧ h.k = g.k ∧ MovedOn g h s.cur.mask ∧ SameGroup g h ∧ OnlyGroup s t s.cur.core s.cur.slot []

/-! ### The SFU and what completes later (R153, R273, R293, R315, R316) -/

/-- R293, R315, R316: the instructions of SFU class.  A quotient rounds toward zero and is all ones at b = 0; a remainder has the sign of a and
is a at b = 0. -/
def Obligations.SfuIssue : Prop :=
  ∀ f : FA,
    let a := fun (g : Group) j => intOf f.ty (g.src j f.ty f.a)
    let b := fun (g : Group) j => intOf f.ty (g.src j f.ty f.b)
    let F := fun (g : Group) j (x : Spec) => decodeF .f32 (g.src32 j x).toNat
    let fn := fun i (r : Rnd → FVal → Nat) => SfuDone i f.guard f.d false fun g j => BitVec.ofNat 64 (r f.rnd (F g j f.a))
    SfuDone (.idiv f) f.guard f.d f.ty.signed (fun g j => putInt f.ty (if b g j = 0 then -1 else (a g j).tdiv (b g j))) ∧
    SfuDone (.irem f) f.guard f.d f.ty.signed (fun g j => putInt f.ty (if b g j = 0 then a g j else (a g j).tmod (b g j))) ∧
    SfuDone (.fdiv f) f.guard f.d false (fun g j => BitVec.ofNat 64 (fdiv f.rnd (F g j f.a) (F g j f.b))) ∧
    fn (.frcp f) frcp ∧ fn (.frsq f) frsq ∧ fn (.fsqrt f) fsqrt ∧ fn (.fexp2 f) fexp2 ∧ fn (.flog2 f) flog2 ∧ fn (.fsin f) fsin ∧
    fn (.fcos f) fcos ∧ fn (.ftanh f) ftanh

/-- R69, R153: an operation whose effect is had completes: each register that it still has pending takes its word of the result in the lanes
left to it, every other register stands, the operation is in flight no longer, and every other operation is as it was.

R153: while an operation is pending on a register, a later write of it takes the register from it in the lanes written: its result never
reaches them. -/
def Obligations.OperationDelivers : Prop :=
  (∀ s core o, Flying s core o → o.kind = .simple → ∃ t, exec (.operationComplete core o.id) s = .next t ∧
    Delivered s t core o fun i => o.res.getD i 0) ∧
  (∀ (c : Core) slot (r : RReg) (m : Mask) (v : Nat → Word32) o w, o ∈ c.ops → o.slot = slot → w ∈ o.writes → w.reg = r →
    ∃ p ∈ (c.writeReg slot r m v).ops, withoutWrites p = withoutWrites o ∧ { w with lanes := w.lanes &&& ~~~m } ∈ p.writes)

/-! ### Control and masks (R38–R42, R73, R74, R275–R289) -/

/-- R39, R40, R285–R288: each mask write replaces K, the bits of exited threads removed; `MKSET.ballot` keeps the bits outside M.  `MKCNT` and
`MKLANE` write a count and a lane number. -/
def Obligations.MaskInstructions : Prop :=
  (∀ f : FSub,
    let wrote := fun i (v : Group → Mask → Mask) (k : Nat) => ∀ s g, Issuing s i g → ∃ t, exec i s = .next t ∧
      MaskOnly s t g k (v g (mOf s g f.guard))
    let mo := fun (g : Group) j (x : Spec) => g.shown.src64 j false x
    wrote (.join f) (fun g m => g.maskReg (kNum f.a) ||| m) (kNum f.a) ∧
    wrote (.leave f) (fun g m => g.maskReg (kNum f.a) &&& ~~~m) (kNum f.a) ∧
    wrote (.mksetA f) (fun g m =>
      if m = 0 then g.maskReg (kNum f.d)
      else if f.sub = 0 then (g.maskReg (kNum f.d) &&& ~~~m) ||| (m &&& maskOf fun j => g.shown.src32 j f.a != 0)
      else mo g (lowLane m) f.a) (kNum f.d) ∧
    wrote (.mklop f) (fun g m =>
      if m = 0 then g.maskReg (kNum f.d)
      else
        let a := mo g (lowLane m) f.a
        let b := mo g (lowLane m) f.b
        match f.sub.val with
        | 0 => a &&& b
        | 1 => a ||| b
        | 2 => a ^^^ b
        | 3 => a &&& ~~~b
        | 4 => ~~~a
        | 5 => a
        | _ => m) (kNum f.d) ∧
    (∀ s g, Issuing s (.mkcnt f) g → ∃ t, exec (.mkcnt f) s = .next t ∧
      WroteOnly s t g (mOf s g f.guard) false false false f.d fun j =>
        BitVec.ofNat 64 (popcount (if f.sub = 0 then mo g j f.a else mo g j f.a &&& maskOf fun i => decide (i < j)))) ∧
    ∀ s g, Issuing s (.mklane f) g → ∃ t, exec (.mklane f) s = .next t ∧
      WroteOnly s t g (mOf s g f.guard) false false false f.d fun j =>
        let l := lanesOf (mo g j f.a)
        BitVec.ofNat 64 (match f.sub.val with
          | 0 => l.headD 64
          | 1 => l.getLastD 64
          | 2 => l.getD (g.shown.src32 j f.b).toNat 64
          | _ => (l.filter fun i => decide (j < i)).headD 64)) ∧
  ∀ (f : FWM) s g, Issuing s (.mksetW f) g → ∃ t, exec (.mksetW f) s = .next t ∧
    MaskOnly s t g (kNum f.d) (match f.mode with
      | .lo => f.imm.setWidth 64
      | .hi => f.imm.setWidth 64 <<< 32
      | .sx => f.imm.signExtend 64)

/-- R32, R33, R73, R74, R276–R278: where every target of a transfer is valid, the threads that take it go to their targets, a target at or
below the branch raising the path counter; the rest of the gang falls through; `CALL` and `CALLX` write the return pointer.

R74: a transfer to an invalid target raises the illegal-target trap, and one whose target does not translate the translation fault, before
any thread moves or any register is written. -/
def Obligations.Branches : Prop :=
  ((∀ f : FB,
    let tgt := fun (g : Group) j => codePtr (headerOf (g.thread j).pc + f.off.signExtend 64 * 16) f.slot.val
    BranchDone (.bra f) f.guard none (fun _ _ => true) tgt ∧
    BranchDone (.brc f) f.guard none (fun g j => if f.z then g.src32 j f.a == 0 else g.src32 j f.a != 0) tgt ∧
    BranchDone (.call f) f.guard (some f.d) (fun _ _ => true) tgt) ∧
  ∀ f : FSub,
    let tgt := fun (g : Group) j => g.src64 j false f.a
    BranchDone (.brx f) f.guard none (fun _ _ => true) tgt ∧ BranchDone (.callx f) f.guard (some f.d) (fun _ _ => true) tgt ∧
    BranchDone (.ret f) f.guard none (fun _ _ => true) tgt) ∧
  (∀ (f : FB) s g, Issuing s (.call f) g →
    let x := gangOf s g f.guard
    let targets := (lanesOf x.m).map fun j => (j, codePtr (headerOf (g.thread j).pc + f.off.signExtend 64 * 16) f.slot.val)
    ∀ s' bad fault, checkTargets s x.core g.ctx targets = (s', bad, fault) →
      (bad ≠ 0 → ∃ t, exec (.call f) s = .next t ∧
        Trapped s t g 0x02 0 [((targets.find? fun p => has bad p.1).map (·.2)).getD 0, bad]) ∧
      (∀ c pc, bad = 0 → fault = some (c, pc) → ∃ t, exec (.call f) s = .next t ∧
        Trapped s t g 0x10 (headerOf pc) [BitVec.ofNat 64 c]))

/-- R275, R279, R281, R40: `NOP` only moves on; `YIELD` marks the clause, whose end gives the group's turn up; the threads of M that `EXIT` end,
their bits leave every mask register and their pending writes are discarded; those of a `WAITM` wait for K, to go on at the header that
follows. -/
def Obligations.MoveOnExitWait : Prop :=
  (∀ s g, Issuing s .nop g → ∃ t, exec .nop s = .next t ∧ OnlyMovedOn s t g) ∧
  (∀ (f : FSub) s g, Issuing s (.yield f) g →
    let ours := fun (e : Entry) => e.id ∈ (gangOf s g f.guard).entries
    ∃ t h, exec (.yield f) s = .next t ∧ t.group? s.cur.core s.cur.slot = some h ∧ SameRegs g h ∧ MovedOn g h s.cur.mask ∧ SameGroup g h ∧
      (mOf s g f.guard = 0 → OnlyMovedOn s t g) ∧
      (mOf s g f.guard ≠ 0 → (∀ e ∈ h.entries, ours e → e.yields = true) ∧
        ∀ e ∈ g.entries, e.opened = true → ours e → (∀ i < 64, (h.thread i).live = true → (h.thread i).entry ≠ e.id) → h.yielded = true) ∧
      OnlyGroup s t s.cur.core s.cur.slot []) ∧
  (∀ (f : FSub) s g, Issuing s (.exit f) g →
    let m := mOf s g f.guard
    ∃ t h, exec (.exit f) s = .next t ∧ t.group? s.cur.core s.cur.slot = some h ∧
      (∀ i < 64, has m i = true → (h.thread i).st = .exited) ∧
      (∀ i < 64, has m i = false → has s.cur.mask i = true → (g.thread i).st = .ready → (h.thread i).st = .ready ∧
        (h.thread i).pc = g.nextPc (g.thread i)) ∧
      (∀ i < 64, has s.cur.mask i = false → h.thread i = g.thread i) ∧
      (∀ k, h.maskReg k = g.maskReg k &&& ~~~m) ∧
      h.v = g.v ∧ h.q = g.q ∧ h.l = g.l ∧ h.g = g.g ∧
      h.gst = (if g.liveMask &&& ~~~m = 0 then .exited else g.gst) ∧
      (∀ o ∈ (t.core s.cur.core).ops, o.slot = s.cur.slot → (∀ w ∈ o.writes, w.lanes &&& m = 0) ∧
        (has m (lowLane o.lanes) = true → o.gdst = none)) ∧
      (∀ l, l ≠ s.cur.slot → State.still? t s.cur.core l = State.still? s s.cur.core l) ∧ OnlyCore s t s.cur.core) ∧
  ∀ (f : FSub) s g, Issuing s (.waitm f) g →
    let m := mOf s g f.guard
    let k := kNum f.a
    let members := g.shown.maskReg k
    (m &&& ~~~members = 0 → ∃ t h, exec (.waitm f) s = .next t ∧ t.group? s.cur.core s.cur.slot = some h ∧ SameRegs g h ∧
      (∀ i < 64, has m i = true → (h.thread i).st = .maskWait k 0 ∧ (h.thread i).pc = g.nextPc (g.thread i)) ∧
      (∀ i < 64, has m i = false → has s.cur.mask i = true → (g.thread i).st = .ready → (h.thread i).st = .ready ∧
        (h.thread i).pc = g.nextPc (g.thread i)) ∧
      (∀ i < 64, has s.cur.mask i = false → h.thread i = g.thread i) ∧
      (∀ l, l ≠ s.cur.slot → State.still? t s.cur.core l = State.still? s s.cur.core l) ∧ OnlyCore s t s.cur.core) ∧
    (m &&& ~~~members ≠ 0 → ∃ t, exec (.waitm f) s = .next t ∧ Trapped s t g 0x03 0 [m &&& ~~~members, members])

/-- R282, R283, R379, R92: the instructions whose effect is a trap.  `TRAP` and `HALT` leave the gang past themselves, `BPT` and a word with a
reserved opcode where it stands; the trap's record names the gang's own code pointer.

R79, R81, R93: an instruction with a field at a setting that its entry does not allow, or that names a main register at or above the group's
quota, raises the illegal-instruction trap with its word, and has no other effect; where the guard of every thread is false it only moves on. -/
def Obligations.TrapsAtIssue : Prop :=
  ((∀ (f : FS) s g, IssuingSome s (.trap f) f.guard g → g.hold = .none → ∃ t h, exec (.trap f) s = .next t ∧
    t.group? s.cur.core s.cur.slot = some h ∧ h.hold = .trapped ∧
    h.trap = { code := 0x50, addr := 0, pc := (gangOf s g f.guard).pc,
               words := [f.imm.setWidth 64, (gangOf s g f.guard).m, g.shown.src64 (lowLane (gangOf s g f.guard).m) false f.a] } ∧
    SameRegs g h ∧ MovedOn g h s.cur.mask ∧ OnlyGroup s t s.cur.core s.cur.slot []) ∧
  (∀ (f : FS) s g, IssuingSome s (.bpt f) f.guard g → ∃ t, exec (.bpt f) s = .next t ∧
    Trapped s t g 0x51 0 [f.imm.setWidth 64, (gangOf s g f.guard).m]) ∧
  (∀ (f : FS) s g, IssuingSome s (.halt f) f.guard g → g.hold = .none → (s.ctx g.ctx).check = false → ∃ t h, exec (.halt f) s = .next t ∧
    t.group? s.cur.core s.cur.slot = some h ∧ h.hold = .trapped ∧
    h.trap = { code := 0x54, addr := 0, pc := (gangOf s g f.guard).pc, words := [f.imm.setWidth 64, 0] } ∧
    SameRegs g h ∧ MovedOn g h s.cur.mask ∧ OnlyGroup s t s.cur.core s.cur.slot []) ∧
  (∀ (f : FS) s g, IssuingSome s (.halt f) f.guard g → (s.ctx g.ctx).check = true → (s.ctx g.ctx).dumpSize ≠ 0 →
    exec (.halt f) s = .next ((gangOf s g f.guard (some .sys)).advance (s.freeze s.cur.core g.ctx 0x54 f.imm.toNat
      (some (s.cur.slot, (gangOf s g f.guard).pc))))) ∧
  ∀ w s g, s.group? s.cur.core s.cur.slot = some g → ∃ t, exec (.reservedOpcodeIssue w) s = .next t ∧
    if mOf s g ((guardOfWord w).getD .always) = 0 then OnlyMovedOn s t g else Trapped s t g 0x01 0 [w]) ∧
  (let illegal := fun (i : Instr) (x : Guard) => ∀ s g, s.group? s.cur.core s.cur.slot = some g → (i.wf = false ∨ g.quota < i.mainSpan) →
    ∃ t, exec i s = .next t ∧ if mOf s g x = 0 then OnlyMovedOn s t g else Trapped s t g 0x01 0 [s.cur.word]
  (∀ i : Instr, i.cls.isSome = true → ∃ x, illegal i x) ∧ (∀ f : FA, illegal (.iaddA f) f.guard) ∧ (∀ f : FB, illegal (.brc f) f.guard) ∧
  (∀ f : FM, illegal (.ldB32 f) f.guard) ∧ (∀ f : FSub, illegal (.launch f) f.guard) ∧ ∀ f : FW, illegal (.iaddW f) .always)

/-! ### Lane collectives and mask-waits (R41, R43–R46, R323–R331) -/

/-- R43, R45: a gang arrives at a collective: each thread of M captures its operands and the mask `k`, and waits there; the rest of the gang
moves on; a thread that the mask does not name raises the membership trap, and nothing else happens. -/
def Obligations.CollectiveArrival : Prop :=
  let arrives := fun (i : Instr) (x : Guard) (c : Spec) (a b : Group → Nat → Word64) => ∀ s g, Issuing s i g →
    let m := mOf s g x
    let k := kNum c
    let members := g.shown.maskReg k
    (m &&& ~~~members = 0 → ∃ t h, exec i s = .next t ∧ t.group? s.cur.core s.cur.slot = some h ∧ SameRegs g h ∧
      (∀ j < 64, has m j = true → h.thread j = { g.thread j with st := .collWait k }) ∧
      (∀ j < 64, has m j = false → has s.cur.mask j = true → (g.thread j).st = .ready →
        ∃ n, h.thread j = { g.stepThread (g.thread j) with since := n }) ∧
      (∀ j < 64, has s.cur.mask j = false → h.thread j = g.thread j) ∧
      h.arrivals = g.arrivals ++ (lanesOf m).map (fun j =>
        { lane := j, instr := i, pc := (g.thread j).pc, supplied := members, a := a g.shown j, b := b g.shown j, mark := 0, result := 0 }) ∧
      OnlyGroup s t s.cur.core s.cur.slot []) ∧
    (m &&& ~~~members ≠ 0 → ∃ t, exec i s = .next t ∧ Trapped s t g 0x03 0 [m &&& ~~~members, members])
  (∀ f : FA,
    let c := match f.c with
      | .spec c => c
      | .imm10 _ => .zero
    let a := fun (g : Group) j => g.src j f.ty f.a
    let b := fun (g : Group) j => (g.src32 j f.b).setWidth 64
    arrives (.shfl f) f.guard c a b ∧ arrives (.bcast f) f.guard c a b ∧ arrives (.vote f) f.guard c a (fun _ _ => 0) ∧
    arrives (.redux f) f.guard c a (fun _ _ => 0) ∧ arrives (.fredux f) f.guard c a (fun _ _ => 0) ∧
    arrives (.scan f) f.guard c a (fun _ _ => 0) ∧ arrives (.laneMatch f) f.guard c a (fun _ _ => 0)) ∧
  ∀ f : FShx, arrives (.shflx f) f.guard f.c (fun g j => g.src j f.ty f.a) fun g j => (g.src32 j f.b).setWidth 64

/-- R43, R44, R324–R331: once every thread that the arrivals name has arrived or exited and they agree, completion fixes every result.  An
exited member counts with 0 where an entry ranges over P, and appears in no result of `MATCH` but `.uni`. -/
def Obligations.CollectiveResults : Prop :=
  ∀ s core slot lane g, s.group? core slot = some g → g.hold = .none →
    let l := g.together lane
    l ≠ [] → allArrived l = true → agree l = true → (∀ a ∈ l, has a.1.supplied a.1.lane = true) →
    let arr := l.map (·.1)
    let P : Mask := l.foldl (fun m a => m ||| a.1.supplied) 0
    let x := fun j => ((arr.find? fun a => a.lane == j).map (·.a)).getD 0
    let arrived := fun j => arr.any fun a => a.lane == j
    let pull := fun i (j : Int) => if 0 ≤ j ∧ j < 64 ∧ has P j.toNat = true then x j.toNat else x i
    let right := fun (a : Arrival) (r : Word64) =>
      let i := a.lane
      let b := a.b.toNat
      match a.instr with
      | .shfl f => r = pull i (match f.sub.val with
          | 0 => ((i ^^^ (b % 64) : Nat) : Int)
          | 1 => b
          | 2 => ((i : Int) - b) % 64
          | 3 => ((i : Int) + b) % 64
          | _ => (b : Int) - i)
      | .shflx f =>
        let w := 2 ^ f.wid.val
        let o := i % w
        r = pull i ((i - o : Nat) + match f.mode.val with
          | 0 => (((o ^^^ b) % w : Nat) : Int)
          | 1 => (b % w : Nat)
          | 2 => ((o : Int) - b) % w
          | _ => ((o + b) % w : Nat))
      | .bcast _ => ∃ c ∈ arr, (∀ d ∈ arr, c.lane ≤ d.lane) ∧ r = pull i (c.b.toNat : Nat)
      | .vote f =>
        let n := (lanesOf P).countP fun j => x j != 0
        match f.sub.val with
        | 0 => ∀ j < 64, has r j = (has P j && x j != 0)
        | 1 => r = BitVec.ofNat 64 n
        | 2 => r = if (lanesOf P).all fun j => x j != 0 then 1 else 0
        | 3 => r = if (lanesOf P).any fun j => x j != 0 then 1 else 0
        | 4 => r = if n = 1 then 1 else 0
        | _ => r = if n % 2 = 1 then 1 else 0
      | .redux f => IntReduction f.ty f.sub.val ((lanesOf P).map x) r
      | .fredux f => FloatReduction f.rnd f.sub.val ((lanesOf P).map x) r
      | .scan f =>
        let vals := ((lanesOf P).filter fun j => decide (j < i) || (f.sub.val != 1 && j == i)).map x
        let op := if f.sub.val < 2 then 0 else f.sub.val - 1
        if vals = [] then r = 0 else if f.ty = .f32 then FloatReduction f.rnd op vals r else IntReduction f.ty op vals r
      | .laneMatch f =>
        match f.sub.val with
        | 0 => ∀ j < 64, has r j = (arrived j && x j == x i)
        | 1 => ∃ j, r = BitVec.ofNat 64 j ∧ arrived j = true ∧ x j = x i ∧ ∀ k < j, arrived k = true → x k ≠ x i
        | 2 => r = BitVec.ofNat 64 ((List.range i).countP fun j => arrived j && x j == x i)
        | 3 => r = if (lanesOf P).all fun j => (lanesOf P).all fun k => x j == x k then 1 else 0
        | _ => r = BitVec.ofNat 64 (((List.range 64).filter arrived).map x).eraseDups.length
      | _ => True
    ∃ t, exec (.collectiveComplete core slot lane) s = .next t ∧
      t.group? core slot = some { g with arrivals := ((t.group? core slot).map (·.arrivals)).getD [] } ∧
      (∀ a ∈ g.arrivals, a ∉ arr → a ∈ ((t.group? core slot).map (·.arrivals)).getD []) ∧
      (∀ a ∈ arr, ∃ r, right a r ∧ { a with mark := s.fresh, result := r } ∈ ((t.group? core slot).map (·.arrivals)).getD []) ∧
      (∀ q, q ≠ slot → t.group? core q = s.group? core q) ∧ OnlyCore s t core

/-- R43, R323: where every earlier access of the arrived members has reached its point, each of them writes its D, `l0` and `l1` and goes on
past its collective; a `g` destination takes the result of the lowest of them. -/
def Obligations.CollectiveDelivery : Prop :=
  ∀ s core slot mark g, s.group? core slot = some g → (s.core core).collReady slot mark = true →
    let l := g.marked mark
    (l.map (·.lane)).Nodup → (∀ a ∈ l, a.lane < 64) → (∀ a ∈ l, ∀ b ∈ l, (collDst a.instr).2 = (collDst b.instr).2) →
    let at_ := fun i => l.find? fun a => a.lane == i
    ∃ t h, exec (.collectiveDeliver core slot mark) s = .next t ∧ t.group? core slot = some h ∧
      (∀ n, ∀ i < 64, h.mainAt n i = match at_ i with
        | some a => mainAfter g (laneBit i) (collDst a.instr).2.1 (collDst a.instr).1 (fun _ => a.result) n i
        | none => g.mainAt n i) ∧
      (∀ n, ∀ i < 64, rowAt (rowOf h.q n) i = match at_ i with
        | some a => qAfter g (laneBit i) (collDst a.instr).1 (fun _ => a.result) n i
        | none => rowAt (rowOf g.q n) i) ∧
      (∀ n, ∀ i < 64, rowAt (rowOf h.l n) i = match at_ i with
        | some a => lAfter g (laneBit i) true (collDst a.instr).1 (fun _ => a.result) n i
        | none => rowAt (rowOf g.l n) i) ∧
      (∀ a ∈ l, ∀ k, (collDst a.instr).1 = .g k → ∀ b ∈ l, (∀ c ∈ l, b.lane ≤ c.lane) →
        h.greg k.val = if (collDst a.instr).2.1 then b.result else widen (collDst a.instr).2.2 (lo32 b.result)) ∧
      (∀ n, (∀ a ∈ l, ∀ k, (collDst a.instr).1 = .g k → k.val ≠ n) → h.greg n = g.greg n) ∧ h.k = g.k ∧
      (∀ i < 64, (at_ i).isSome = true → ∃ n, h.thread i = { g.stepThread (g.thread i) with st := .ready, since := n }) ∧
      (∀ i < 64, at_ i = none → h.thread i = g.thread i) ∧
      h.arrivals = g.arrivals.filter (fun b => b.mark != mark) ∧
      OnlyGroup s t core slot []

/-- R41: an evaluation of K releases every waiter of K where each thread that K names waits on it, and else the waiters that K no longer
names; those that it releases take path counter 0 where they are all the live threads, and else the smallest of theirs.  They leave together,
once the earlier accesses of every one of them are done. -/
def Obligations.MaskWaits : Prop :=
  (∀ s core slot k g, s.group? core slot = some g → g.hold = .none →
    let waits := fun i => (g.thread i).st = .maskWait k 0
    let all := ∀ i < 64, has (g.maskReg k) i = true → ∃ r, (g.thread i).st = .maskWait k r
    let goes := fun i => waits i ∧ (all ∨ has (g.maskReg k) i = false)
    ∃ t h, exec (.maskWaitRelease core slot k) s = .next t ∧ t.group? core slot = some h ∧
      (∀ i < 64, goes i → (h.thread i).st = .maskWait k s.fresh ∧ (h.thread i).pc = (g.thread i).pc ∧
        ((∀ j < 64, goes j ↔ (g.thread j).st ≠ .exited) → (h.thread i).path = 0) ∧
        (¬(∀ j < 64, goes j ↔ (g.thread j).st ≠ .exited) → (∀ j < 64, goes j → (h.thread i).path.toNat ≤ (g.thread j).path.toNat) ∧ ∃ j < 64, goes j ∧ (h.thread i).path = (g.thread j).path)) ∧
      (∀ i < 64, ¬goes i → h.thread i = g.thread i) ∧ h = { g with threads := h.threads } ∧
      (∀ q, q ≠ slot → t.group? core q = s.group? core q) ∧ OnlyCore s t core) ∧
  ∀ s core slot mark g, s.group? core slot = some g → mark ≠ 0 →
    let gone := fun i => ∃ k, (g.thread i).st = .maskWait k mark
    (s.core core).settled slot (g.releasedBy mark) mark false = true →
    ∃ t h, exec (.maskWaitLeave core slot mark) s = .next t ∧ t.group? core slot = some h ∧
      (∀ i < 64, gone i → (h.thread i).st = .ready ∧ (h.thread i).pc = (g.thread i).pc ∧ (h.thread i).path = (g.thread i).path) ∧
      (∀ i < 64, ¬gone i → h.thread i = g.thread i) ∧
      h = { g with threads := h.threads, woken := g.woken ||| g.releasedBy mark, recent := h.recent } ∧
      (∀ q, q ≠ slot → t.group? core q = s.group? core q) ∧ OnlyCore s t core

/-! ### Global and local memory (R199, R200, R204–R211, R217–R223, R332–R342, R345) -/

/-- R334, R336, R338: where the checks of R335 are passed, a global load puts in flight one access for each thread of M whose tag check does
not fail (R200), which its home or the core is to serve, with D pending for its lanes; where they are not, the trap of the first that fails
is raised and no lane accesses memory. -/
def Obligations.GlobalLoads : Prop :=
  let loads := fun (i : Instr) (f : FM) (n : Nat) (tr : Bool) => ∀ s g, Issuing s i g → FreshIds s →
    let x := gangOf s g f.guard i.cls
    let q : Ask := { n := n, need := .load, host := f.cls == .vol && !tr, link := !tr, access := true }
    let addrs := (lanesOf x.m).map fun j => (j, x.grp.src64 j false f.a + f.off.signExtend 64)
    (x.m = 0 → ∃ t, exec i s = .next t ∧ OnlyMovedOn s t g) ∧
    (∀ e, x.m ≠ 0 → s.globalCheck x q addrs = .error e → ∃ t, exec i s = .next t ∧ Trapped s t g e.1 e.2.1 e.2.2) ∧
    ∀ c u spots, x.m ≠ 0 → s.globalCheck x q addrs = .ok (c, spots) →
      (∀ p ∈ spots, isLink p.dpa = false ∨ (c.nearBytes x f.cls f.scope n p).isSome = true ∨ c.mustWait x p.lane p.dpa n f.cls = false) →
      c.leaveIdem x (f.cls == .vol || spots.any fun p => c.readCommitted x.core x.grp.team p.dpa n) = (u, true) →
      let near := cacheable f.cls f.scope
      let good := spots.filter fun p => (u.badTag x near p).isNone
      ∃ t o accs, exec i s = .next t ∧ InFlight s u t g o ∧ OpOf x o ∧ o.id = u.fresh ∧ o.consumed = true ∧
        o.kind = .load f.cls f.scope f.sx tr accs ∧ Pends o f.d ((n + 3) / 4) f.sx ∧
        (∀ j < 64, has o.lanes j = (has x.m j && (spots.find? fun p => p.lane == j && (u.badTag x near p).isSome).isNone)) ∧
        spots.map (fun p => (p.lane, p.va)) = addrs ∧
        accs.map (fun a => (a.lane, a.va, a.dpa, a.width)) = good.map (fun p => (p.lane, p.va, p.dpa, n)) ∧
        (∀ a ∈ accs, a.todo = fullBytes n ∨ ∃ b, u.nearBytes x f.cls f.scope n { lane := a.lane, va := a.va, dpa := a.dpa } = some b ∧
          a.todo = 0 ∧ a.data = ofBytes b) ∧
        (good ≠ spots → ∀ h, t.group? s.cur.core s.cur.slot = some h → h.hold ≠ .none)
  ∀ f : FM, loads (.ldB8 f) f 1 false ∧ loads (.ldB16 f) f 2 false ∧ loads (.ldB32 f) f 4 false ∧ loads (.ldB64 f) f 8 false ∧
    loads (.ldB128 f) f 16 false ∧ loads (.ldt f) f 16 true

/-- R334, R336, R345: where the checks of R335 are passed, a global store leaves one request for each thread of M whose tag check does not
fail, with its address and its data, to be performed at its home; no byte of storage changes yet.  `STAG` leaves requests that set a
granule's tag and no byte, and is not tag-checked. -/
def Obligations.GlobalStores : Prop :=
  let stores := fun (i : Instr) (f : FM) (n : Nat) (tag : Bool) => ∀ s g, Issuing s i g → FreshIds s →
    let x := gangOf s g f.guard i.cls
    let q : Ask := { n := n, need := .store, host := f.cls == .vol && !tag, link := !tag, access := true }
    let addrs := (lanesOf x.m).map fun j => (j, x.grp.src64 j false f.a + f.off.signExtend 64)
    (x.m = 0 → ∃ t, exec i s = .next t ∧ OnlyMovedOn s t g) ∧
    (∀ e, x.m ≠ 0 → s.globalCheck x q addrs = .error e → ∃ t, exec i s = .next t ∧ Trapped s t g e.1 e.2.1 e.2.2) ∧
    ∀ c u spots tm, x.m ≠ 0 → s.globalCheck x q addrs = .ok (c, spots) →
      (∀ p ∈ spots, isLink p.dpa = false ∨ c.mustWait x p.lane p.dpa n f.cls = false) →
      c.leaveIdem x (if tag then f.scope == .system else f.cls == .vol || f.scope == .system || spots.any fun p => isLink p.dpa) = (u, true) →
      u.team? x.core g.team = some tm → tm.idem = false →
      let good := if tag then spots else spots.filter fun p => (u.badTag x false p).isNone
      ∃ t h o reqs, exec i s = .next t ∧ InFlight s u t g o ∧ OpOf x o ∧ o.id = u.fresh ∧ o.consumed = true ∧ o.kind = .store ∧
        t.group? s.cur.core s.cur.slot = some h ∧
        ((u.group? s.cur.core s.cur.slot).map fun g => g.stores ++ reqs) = some h.stores ∧
        spots.map (fun p => (p.lane, p.va)) = addrs ∧
        reqs.map (fun r => (r.op, r.lane, r.va, r.dpa, r.width)) = good.map (fun p => (o.id, p.lane, p.va, p.dpa, n)) ∧
        (∀ r ∈ reqs, r.scope = f.scope ∧ r.cls = (if tag then .strong else f.cls) ∧
          r.data = (if tag then 0 else x.grp.dataOf n r.lane f.d) ∧ r.todo = (if tag then 1 else fullBytes n) ∧
          r.tag = if tag then some (tagOf r.va) else none)
  ∀ f : FM, stores (.stB8 f) f 1 false ∧ stores (.stB16 f) f 2 false ∧ stores (.stB32 f) f 4 false ∧ stores (.stB64 f) f 8 false ∧
    stores (.stB128 f) f 16 false ∧ stores (.stag f) f 32 true

/-- R211, R332, R334, R337: where the checks of R335 are passed, a local load or store leaves one part for each thread of M at the bank of the
place of its local address, with D pending for a load; no byte of local memory changes yet.  A load's part is served at once where the thread's
own stores or an elided access give its bytes. -/
def Obligations.LocalLoadsAndStores : Prop :=
  let addrs := fun (f : FM) (g : Group) (m : Mask) => (lanesOf m).map fun j => (j, lo32 (g.src64 j false f.a + f.off.signExtend 64))
  let issues := fun (i : Instr) (f : FM) (n : Nat) (write : Bool) (act : BankAct) (d : Spec) (words : Nat) (sx : Bool)
      (near : State → Gang → Nat → Place → Option (List Byte)) (data : Group → Nat → BitVec 128) => ∀ s g, Issuing s i g → FreshIds s →
    let x := gangOf s g f.guard i.cls
    (x.m = 0 → ∃ t, exec i s = .next t ∧ OnlyMovedOn s t g) ∧
    (∀ e, x.m ≠ 0 → s.localCheck x n write (addrs f x.grp x.m) = .error e → ∃ t, exec i s = .next t ∧ Trapped s t g e.1 e.2.1 e.2.2) ∧
    ∀ l c, x.m ≠ 0 → s.localCheck x n write (addrs f x.grp x.m) = .ok l → s.leaveIdem x (f.cls == .vol) = (c, true) →
      ∃ t o accs, exec i s = .next t ∧ InFlightLocal s c t g o ∧ OpOf x o ∧ o.id = c.fresh ∧ o.consumed = true ∧ o.lanes = x.m ∧
        Pends o d words sx ∧ o.kind = .bank act f.cls c.clock accs ∧ l.map (·.1) = lanesOf x.m ∧
        accs = l.map (fun p => { lane := p.1, core := p.2.core, team := p.2.team, off := p.2.off, width := n,
                                 todo := if (near c x p.1 p.2).isSome then 0 else fullBytes n,
                                 data := match near c x p.1 p.2 with
                                   | some b => ofBytes b
                                   | none => data x.grp p.1 }) ∧
        ∀ c' k off, localByte t c' k off = localByte c c' k off
  let loads := fun (i : Instr) (f : FM) (n : Nat) =>
    issues i f n false (.load f.sx) f.d ((n + 3) / 4) f.sx (fun c x j p => c.nearLocal x f.cls n j p) fun _ _ => 0
  let stores := fun (i : Instr) (f : FM) (n : Nat) => issues i f n true .store .zero 1 false (fun _ _ _ _ => none) fun g j => g.dataOf n j f.d
  ∀ f : FM, loads (.ldlB8 f) f 1 ∧ loads (.ldlB16 f) f 2 ∧ loads (.ldlB32 f) f 4 ∧ loads (.ldlB64 f) f 8 ∧ loads (.ldlB128 f) f 16 ∧
    stores (.stlB8 f) f 1 ∧ stores (.stlB16 f) f 2 ∧ stores (.stlB32 f) f 4 ∧ stores (.stlB64 f) f 8 ∧ stores (.stlB128 f) f 16

/-- R222, R223, R341: a global atomic whose checks are passed leaves one request for each distinct address, which holds the operands of its
lanes in ascending order, with D pending for `ATOM` alone.  A local one leaves one part for each thread of M at its bank, with its operands. -/
def Obligations.Atomics : Prop :=
  let operands := fun (f : FAt) (wide : Bool) (g : Group) (j : Nat) =>
    let v := fun d => if wide then g.src64 j (f.kind == .s) d else (g.src32 j d).setWidth 64
    (j, v f.b, v f.c)
  let globals := fun (i : Instr) (f : FAt) (wide ret : Bool) => ∀ s g, Issuing s i g → FreshIds s →
    let x := gangOf s g f.guard i.cls
    let n := if wide then 8 else 4
    let q : Ask := { n := n, need := .store, host := false, link := true, access := true }
    let addrs := (lanesOf x.m).map fun j => (j, x.grp.src64 j false f.a)
    (x.m = 0 → ∃ t, exec i s = .next t ∧ OnlyMovedOn s t g) ∧
    (∀ e, x.m ≠ 0 → s.globalCheck x q addrs = .error e → ∃ t, exec i s = .next t ∧ Trapped s t g e.1 e.2.1 e.2.2) ∧
    ∀ c u spots, x.m ≠ 0 → s.globalCheck x q addrs = .ok (c, spots) →
      (∀ p ∈ spots, isLink p.dpa = false ∨ c.mustWait x p.lane p.dpa n .strong = false) → c.leaveIdem x true = (u, true) →
      let good := spots.filter fun p => (u.badTag x false p).isNone
      ∃ t o reqs, exec i s = .next t ∧ InFlight s u t g o ∧ OpOf x o ∧ o.id = u.fresh ∧ o.consumed = true ∧
        o.kind = .atom f.op f.kind wide f.scope reqs ∧ Pends o (if ret then f.d else .zero) (if wide then 2 else 1) (f.kind == .s) ∧
        (∀ j < 64, has o.lanes j = good.any fun p => p.lane == j) ∧ spots.map (fun p => (p.lane, p.va)) = addrs ∧
        reqs.map (·.dpa) = (good.map (·.dpa)).eraseDups ∧
        ∀ r ∈ reqs, r.done = false ∧ r.lanes = (good.filter fun p => p.dpa == r.dpa).map fun p => operands f wide x.grp p.lane
  let locals := fun (i : Instr) (f : FAt) (wide : Bool) => ∀ s g, Issuing s i g → FreshIds s →
    let x := gangOf s g f.guard i.cls
    let n := if wide then 8 else 4
    let addrs := (lanesOf x.m).map fun j => (j, lo32 (x.grp.src64 j false f.a))
    (x.m = 0 → ∃ t, exec i s = .next t ∧ OnlyMovedOn s t g) ∧
    (∀ e, x.m ≠ 0 → s.localCheck x n true addrs = .error e → ∃ t, exec i s = .next t ∧ Trapped s t g e.1 e.2.1 e.2.2) ∧
    ∀ l c, x.m ≠ 0 → s.localCheck x n true addrs = .ok l → s.leaveIdem x true = (c, true) →
      ∃ t o, exec i s = .next t ∧ InFlightLocal s c t g o ∧ OpOf x o ∧ o.id = c.fresh ∧ o.consumed = true ∧ o.lanes = x.m ∧
        Pends o f.d (if wide then 2 else 1) (f.kind == .s) ∧ l.map (·.1) = lanesOf x.m ∧
        o.kind = .bank (.atom f.op f.kind wide) .strong c.clock (l.map fun p =>
          let v := operands f wide x.grp p.1
          { lane := p.1, core := p.2.core, team := p.2.team, off := p.2.off, width := n, todo := fullBytes n, data := v.2.2 ++ v.2.1 }) ∧
        ∀ c' k off, localByte t c' k off = localByte c c' k off
  ∀ f : FAt, globals (.atomB32 f) f false true ∧ globals (.atomB64 f) f true true ∧ globals (.redB32 f) f false false ∧
    globals (.redB64 f) f true false ∧ locals (.atomlB32 f) f false ∧ locals (.atomlB64 f) f true

/-- R341: the value that each operation of an atomic leaves, at 32 and at 64 bits; lanes follow one another. -/
def Obligations.AtomicValues : Prop :=
  (∀ (op : AtomOp) (kind : AtomKind) (wide : Bool) (old b c : Word64), wide = true ∨ (old.toNat < 2 ^ 32 ∧ b.toNat < 2 ^ 32 ∧ c.toNat < 2 ^ 32) →
    (kind = .f → wide = false ∧ (op = .add ∨ op = .min ∨ op = .max ∨ op = .exch)) →
    let w := if wide then 64 else 32
    let t : Ty := if kind = .s then (if wide then .s64 else .s32) else if wide then .n64 else .n32
    let F := fun (x : Word64) => decodeF .f32 x.toNat
    (atomNew op kind wide old b c).toNat = match op with
      | .add => if kind = .f then roundTo .f32 .rn (exactSum .rn [F old, F b]) % 2 ^ 64 else (old.toNat + b.toNat) % 2 ^ w
      | .min => if kind = .f then minMaxF .f32 false false old.toNat b.toNat % 2 ^ 64 else if intOf t old ≤ intOf t b then old.toNat else b.toNat
      | .max => if kind = .f then minMaxF .f32 true false old.toNat b.toNat % 2 ^ 64 else if intOf t b ≤ intOf t old then old.toNat else b.toNat
      | .and => old.toNat &&& b.toNat
      | .or => old.toNat ||| b.toNat
      | .xor => old.toNat ^^^ b.toNat
      | .exch => b.toNat
      | .cas => if old = c then b.toNat else old.toNat
      | .inc => if b.toNat ≤ old.toNat then 0 else old.toNat + 1
      | .dec => if old.toNat = 0 ∨ b.toNat < old.toNat then b.toNat else old.toNat - 1) ∧
  ∀ op kind wide old (l : Nat × Word64 × Word64) (rest : List (Nat × Word64 × Word64)),
    (atomUnit op kind wide old []) = (old, []) ∧
    atomUnit op kind wide old (l :: rest) =
      ((atomUnit op kind wide (atomNew op kind wide old l.2.1 l.2.2) rest).1,
       (l.1, old) :: (atomUnit op kind wide (atomNew op kind wide old l.2.1 l.2.2) rest).2)

/-- R209, R214, R220, R342: a fence holds its gang until it ends, at `.device` and `.system` with the dirty words of the team's windows
written back; it ends once its threads' earlier accesses have reached their points and its own write-backs are acknowledged, and its gang
goes on.

R199, R339, R340, R345: `PREF` brings the lines near and changes no register; `CCTL` drops L1 copies at once and code lines by an
operation; `LTAG` gives each thread the tag of its granule, 0 where the region has none. -/
def Obligations.FencesCacheControlAndTags : Prop :=
  ((∀ (f : FS) s g, Issuing s (.fence f) g → FreshIds s →
    let x := gangOf s g f.guard (Instr.fence f).cls
    let sc := fenceScope f.mode.val
    let wb := sc = .device ∨ sc = .system
    let u := if writesBack sc then (s.bankSettle x).1 else s
    (x.m = 0 → ∃ t, exec (.fence f) s = .next t ∧ OnlyMovedOn s t g) ∧
    (x.m ≠ 0 → (wb → (s.bankSettle x).2 = true ∧ u.anyWindowLocked x.core g.team = false) → FreshIds u →
      (∃ tm, u.team? x.core g.team = some tm ∧ tm.idem = false ∧
        (tm.windows.map (·.1)).Nodup ∧ ∀ w ∈ tm.windows, (w.2.words.map (·.1)).Nodup) →
      ∃ t h o, exec (.fence f) s = .next t ∧ t.group? s.cur.core s.cur.slot = some h ∧ o ∈ (t.core s.cur.core).ops ∧ OpOf x o ∧
        o.id = u.fresh ∧ o.lanes = x.m ∧ o.writes = [] ∧ o.gdst = none ∧
        o.kind = .fence sc (if sc = .thread ∨ sc = .team then 0 else g.gwct) ∧ SameRegs g h ∧
        (∀ j < 64, has s.cur.mask j = true → (h.thread j).stall = some o.id ∧ ((g.thread j).st = .ready → (h.thread j).pc = g.nextPc (g.thread j))) ∧
        (∀ j < 64, has s.cur.mask j = false → SameThread g h j) ∧
        (wb → ∀ k w, (k, w) ∈ t.windowsOf x.core g.team → w.closing = false → w.dirty = []) ∧
        (∀ g', u.group? s.cur.core s.cur.slot = some g' → (∀ r ∈ g'.stores, r ∈ h.stores) ∧
          ∀ r ∈ h.stores, r ∈ g'.stores ∨ wb ∧ r.op = o.id ∧ r.cls = .strong ∧ r.scope = .device) ∧
        (∀ a, t.stored a = u.stored a))) ∧
  ∀ s core id o sc target g, (s.core core).op? id = some o → o.kind = .fence sc target → s.group? core o.slot = some g →
    s.fenceDone core o (sc == .system) (if sc = .thread ∨ sc = .team then 0 else target) = true →
    ∃ t h, exec (.fenceStallEnd core id) s = .next t ∧ t.group? core o.slot = some h ∧ SameRegs g h ∧
      (∀ i < 64, (h.thread i).pc = (g.thread i).pc ∧ (h.thread i).st = (g.thread i).st ∧
        (h.thread i).stall = if (g.thread i).stall = some id then none else (g.thread i).stall) ∧
      (t.core core).ops = (s.core core).ops.filter (fun p => p.id != id) ∧
      (∀ l, l ≠ o.slot → State.still? t core l = State.still? s core l) ∧ OnlyCore s t core) ∧
  ((∀ (f : FM) s g j, Issuing s (.pref f) g → lanesOf (mOf s g f.guard) = [j] →
    let x := gangOf s g f.guard (Instr.pref f).cls
    let a := x.grp.src64 j false f.a + f.off.signExtend 64
    (∀ c, s.translate s.cur.core g.ctx a .load = .error c → ∃ t, exec (.pref f) s = .next t ∧ OnlyMovedOn s t g) ∧
    ∀ u dpa v b, s.translate s.cur.core g.ctx a .load = .ok (u, dpa) → isHostDie dpa = false → isLink dpa = false →
      u.badTag x false { lane := j, va := a, dpa := dpa } = none → (f.low = 0 → (u.core s.cur.core).l1Live u.ns (lineOf dpa) = none) →
      let w := if f.low = 0 then u.modCore s.cur.core fun c => c.missEvent s.cur.slot (lineOf dpa) else u
      w.homeRead .heldEventPost (w.fillSpan dpa 1).1 (w.fillSpan dpa 1).2 = (v, some b) →
      exec (.pref f) s = .next (x.advance (if f.low = 0 then v.fillL1 s.cur.core s.cur.slot g.ctx (lineOf dpa) false else v))) ∧
  (∀ (f : FM) s g, Issuing s (.cctl f) g → FreshIds s →
    let x := gangOf s g f.guard (Instr.cctl f).cls
    let addrs := (lanesOf x.m).map fun j => (j, x.grp.src64 j false f.a + f.off.signExtend 64)
    let q : Ask := { n := 1, need := .load, host := false, link := false, access := false }
    (x.m = 0 → ∃ t, exec (.cctl f) s = .next t ∧ OnlyMovedOn s t g) ∧
    (x.m ≠ 0 → f.low = 1 → ∃ t h, exec (.cctl f) s = .next t ∧ (t.core s.cur.core).l1 = [] ∧ t.group? s.cur.core s.cur.slot = some h ∧
      SameRegs g h ∧ MovedOn g h s.cur.mask ∧ (∀ a, t.stored a = s.stored a) ∧ ∀ c, c ≠ s.cur.core → t.core c = s.core c) ∧
    ∀ c spots, x.m ≠ 0 → f.low ≠ 1 → s.globalCheck x q addrs = .ok (c, spots) →
      let lines := (spots.map fun p => lineOf p.dpa).eraseDups
      (f.low = 0 → ∃ t h, exec (.cctl f) s = .next t ∧ t.group? s.cur.core s.cur.slot = some h ∧ SameRegs g h ∧ MovedOn g h s.cur.mask ∧
        (t.core s.cur.core).l1 = (c.core s.cur.core).l1.filter (fun l => !lines.contains l.1) ∧ ∀ a, t.stored a = c.stored a) ∧
      (f.low ≠ 0 → ∃ t o, exec (.cctl f) s = .next t ∧ InFlight s c t g o ∧ OpOf x o ∧ o.id = c.fresh ∧ o.consumed = true ∧ o.kind = .ivau lines ∧
        Pends o .zero 1 false)) ∧
  ∀ (f : FM) s g, Issuing s (.ltag f) g → FreshIds s →
    let x := gangOf s g f.guard (Instr.ltag f).cls
    let addrs := (lanesOf x.m).map fun j => (j, x.grp.src64 j false f.a + f.off.signExtend 64)
    let q : Ask := { n := 1, need := .load, host := false, link := false, access := false }
    (x.m = 0 → ∃ t, exec (.ltag f) s = .next t ∧ OnlyMovedOn s t g) ∧
    ∀ c spots, x.m ≠ 0 → s.globalCheck x q addrs = .ok (c, spots) →
      (∀ j, has x.m j = true → (c.core x.core).follows x.slot j c.fresh (2 ^ 60) 0 f.cls = false) →
      ∃ t o, exec (.ltag f) s = .next t ∧ InFlight s c t g o ∧ OpOf x o ∧ o.id = c.fresh ∧ o.consumed = true ∧ o.kind = .simple ∧
        o.lanes = x.m ∧ Pends o f.d 1 false ∧
        ∀ p ∈ spots, o.res.getD p.lane 0 = if c.tagged p.dpa = true then
          (c.tagSeen x p.lane p.dpa (cacheable f.cls f.scope)).setWidth 128 else 0)

/-- R69, R222, R334, R336, R338: a load that has all its bytes completes with them, extended, and under `LDT` each lane takes word i mod 4 of
each lane of its slice; an atomic whose requests are done completes with the old values, once no line
that it wrote is pinned (R234); a store completes once its requests have left.

R204, R211, R222, R337, R341: a local access performs one of the parts whose turn it is, the lowest lane's, of an atomic any address's: the
bytes of a store are then in local memory, and no others change; a load's part has the bytes that stand there; at an atomic's address the
lanes follow one another, each takes what it found, and the last value stands.  With every part performed it completes. -/
def Obligations.AccessesComplete : Prop :=
  (∀ s core o, Flying s core o →
    (∀ cls scope sx tr accs, o.kind = .load cls scope sx tr accs → (∀ a ∈ accs, a.todo = 0) → (accs.map (·.lane)).Nodup →
      ∃ t res, exec (.operationComplete core o.id) s = .next t ∧ Delivered s t core o res ∧
        (tr = false → ∀ a ∈ accs, a.lane < 64 → res a.lane = extendLoad a.width sx a.data) ∧
        (tr = true → ∀ a ∈ accs, ∀ i < 64, ∀ k < 4, a.lane = 4 * (i / 4) + k → has o.lanes a.lane = true →
          word128 (res i) k = word128 a.data (i % 4))) ∧
    (∀ op kind wide scope reqs, o.kind = .atom op kind wide scope reqs → (∀ q ∈ reqs, q.done = true) → s.pinsLeft o = false →
      ∃ t, exec (.operationComplete core o.id) s = .next t ∧ Delivered (s.pinsGone core o) t core o fun i => o.res.getD i 0) ∧
    (∀ g, o.kind = .store → s.group? core o.slot = some g → (∀ r ∈ g.stores, r.op ≠ o.id) →
      ∃ t, exec (.operationComplete core o.id) s = .next t ∧ Delivered s t core o fun i => o.res.getD i 0)) ∧
  (∀ s core o act cls clk accs, Flying s core o → o.kind = .bank act cls clk accs →
    ((∀ a ∈ accs, a.todo = 0) → (accs.map (·.lane)).Nodup → ∃ t res, exec (.operationComplete core o.id) s = .next t ∧ Delivered s t core o res ∧
      match act with
      | .load sx => ∀ a ∈ accs, a.lane < 64 → res a.lane = extendLoad a.width sx a.data
      | _ => ∀ i < 64, res i = o.res.getD i 0) ∧
    ((∃ a ∈ accs, a.todo ≠ 0) →
      let parts := (s.core core).bankParts o
      (parts = [] → exec (.operationComplete core o.id) s = .next s) ∧
      (parts ≠ [] → ∃ p ∈ parts, exec (.operationComplete core o.id) s = .next (s.bankDo core o p)) ∧
      ∀ p ∈ parts, (∀ a ∈ accs, a.width ≤ 16 ∧ (s.team? a.core a.team).isSome = true) →
        p.1 ∈ accs ∧ p.1.todo ≠ 0 ∧
        (act = .store → ∀ c k off, localByte (s.bankDo core o p) c k off =
          if c = p.1.core ∧ k = p.1.team ∧ p.1.off ≤ off ∧ off < p.1.off + p.1.width ∧ p.2.getLsbD (off - p.1.off) = true then
            (p.1.data >>> (8 * (off - p.1.off))).setWidth 8
          else localByte s c k off) ∧
        (∀ sx u, act = .load sx → s.readyLocal p.1.place p.1.width (.operationComplete core o.id) = (u, true) →
          ∃ q ∈ ((s.bankDo core o p).core core).ops, q.id = o.id ∧ q.kind = .bank act cls clk (accs.map fun b =>
            if b.lane == p.1.lane then
              { b with todo := b.todo &&& ~~~p.2
                       data := mergeBytes b.data p.2 fun i => (u.localBytes p.1.place p.1.width).getD i 0 } else b)) ∧
        ∀ op kind wide u, act = .atom op kind wide → s.readyLocal p.1.place p.1.width (.operationComplete core o.id) = (u, true) →
          let unit := atomUnit op kind wide (BitVec.ofNat 64 (leNat (u.localBytes p.1.place p.1.width)))
            ((accs.filter fun b => b.place == p.1.place).map fun (b : BankAcc) => (b.lane, b.data.setWidth 64, (b.data >>> 64).setWidth 64))
          (∀ i < p.1.width, localByte (s.bankDo core o p) p.1.core p.1.team (p.1.off + i) = (unit.1 >>> (8 * i)).setWidth 8) ∧
          (∀ c k off, ¬(c = p.1.core ∧ k = p.1.team ∧ p.1.off ≤ off ∧ off < p.1.off + p.1.width) →
            localByte (s.bankDo core o p) c k off = localByte u c k off) ∧
          ∃ q ∈ ((s.bankDo core o p).core core).ops, q.id = o.id ∧
            (q.kind = .bank act cls clk (accs.map fun b => if b.place == p.1.place then { b with todo := 0 } else b)) ∧
            ((accs.map (·.lane)).Nodup → ∀ r ∈ unit.2, r.1 < 64 → q.res.getD r.1 0 = r.2.setWidth 128)))

/-! ### The homes (R178–R194, R206, R210, R217–R223, R226, R227) -/

/-- R189, R193, R207, R217, R226: a piece of a load that its home performs gives the access the bytes that stand there, or those that its
team still holds (R146), and changes no byte.  A load that the L1 may serve reads its line, or, while the host owns the line's other half,
only its own bytes; any other load reads only its own bytes. -/
def Obligations.HomePerformsLoads : Prop :=
  ∀ s core id lane (bytes : BitVec 16) o a cls scope sx tr accs, (s.core core).op? id = some o → o.kind = .load cls scope sx tr accs →
    accs.find? (fun a => a.lane == lane) = some a → (s.core core).fillOk o accs a cls bytes = true → isHostDie a.dpa = false →
    let span := if cacheable cls scope then s.fillSpan a.dpa a.width else (a.dpa, a.width)
    (∀ u, s.homeRead (.homeFillRequest core id lane bytes) span.1 span.2 = (u, none) → exec (.homeFillRequest core id lane bytes) s = .next u) ∧
    ∀ u l, s.homeRead (.homeFillRequest core id lane bytes) span.1 span.2 = (u, some l) →
      let line := lineOf a.dpa
      let w := if cacheable cls scope then u.fillL1 core o.slot o.ctx line a.ev else u.refreshL1 core line
      let v := w.readMark core o.team a.dpa a.width
      ∃ t, exec (.homeFillRequest core id lane bytes) s = .next t ∧
        (∃ p ∈ (t.core core).ops, ∃ accs', p = { o with kind := .load cls scope sx tr accs', poison := p.poison } ∧
          accs' = accs.map (fun b => if b.lane == lane then
            { b with todo := b.todo &&& ~~~bytes
                     data := mergeBytes b.data bytes fun i => v.teamByte core o.team (a.dpa + i) } else b) ∧
          (o.poison = none → (u.poisonIn a.dpa a.width).isSome = true → p.poison = some (3, a.va))) ∧
        (u.readCommitted core o.team a.dpa a.width = false → ∀ i, v.teamByte core o.team (a.dpa + i) =
          match (u.team? core o.team).bind fun tm =>
              storeByte (((u.core core).committing o.team ++ tm.uncommitted).filter fun r => r.todo.getLsbD (a.dpa + i - r.dpa)) (a.dpa + i) with
          | some x => x
          | none => u.coherent (a.dpa + i)) ∧
        (∀ k, k ≠ o.slot → t.group? core k = v.group? core k) ∧ (∀ c, c ≠ core → t.core c = u.core c) ∧ ∀ b, t.stored b = u.stored b

/-- R188, R193, R204, R210, R218: a piece of a plain store that its home performs, to a page that is backed, not held, and already changed
since the last seal, where the host holds nothing: exactly its bytes change, its request keeps the rest of them and the latest GWCT, the
lease expiry of its line if that lies ahead, and the bytes that it supersedes leave the thread's earlier weak stores.

R188, R189: in an aperture a store to an unbacked page that writes the datum changes nothing; with a frame in the pool any other store
takes one, filled with the datum; with the pool empty it is dropped under FULL = DROP, the drops counted, and else held. -/
def Obligations.HomePerformsStores : Prop :=
  (∀ (s : State) core slot id (bytes : BitVec 16) (g : Group) (r : StoreReq), s.group? core slot = some g → g.store? id = some r →
    (s.core core).storeOk g slot r bytes = true → isHostDie r.dpa = false → r.tag = none → r.width ≤ 16 → 0 < r.width →
    pageOf (r.dpa + r.width - 1) = pageOf r.dpa → Calm s → (s.pageSt (pageOf r.dpa)).held = false → (s.pageSt (pageOf r.dpa)).backed = true →
    (∀ q, s.regionAt r.dpa = some q → q.view = none) →
    (∀ q, s.regionAt (4096 * pageOf r.dpa) = some q → q.ed = false ∨ s.liveAt (dieOfDpa (4096 * pageOf r.dpa)) ≤ (s.pageSt (pageOf r.dpa)).cseq) →
    (∀ h ∈ halvesOf r.dpa r.width, (s.line (lineOf h)).half h = .invalid ∧ (s.line (lineOf h)).req h = false) →
    let gw := s.gwctAt r.dpa r.width
    let byte := fun i => ((r.data >>> (8 * i)).setWidth 8 : Byte)
    ∃ t h, exec (.homeStoreRequest core slot id bytes) s = .next t ∧
      (∀ a, (∀ q, s.regionAt a = some q → q.view = none) →
        t.stored a = if r.dpa ≤ a ∧ a < r.dpa + r.width ∧ bytes.getLsbD (a - r.dpa) = true then byte (a - r.dpa) else s.stored a) ∧
      t.group? core slot = some h ∧
      h = { g with recent := h.recent, stores := g.stores.map fun q =>
        if q.id == id then
          { q with todo := q.todo &&& ~~~bytes, gwct := max q.gwct gw
                   stamps := (List.range 16).map fun i => if bytes.getLsbD i then s.n + 1 else q.stamps.getD i 0 }
        else q.elided r bytes gw } ∧
      (r.lane < 64 → ∀ i < r.width, bytes.getLsbD i = true → h.recentBytes r.lane (r.dpa + i) 1 = some [byte i]) ∧
      (∀ l, l ≠ slot → t.group? core l = s.group? core l) ∧ (∀ c, c ≠ core → t.core c = s.core c) ∧
      t.regions = s.regions ∧ t.tags = s.tags ∧
      ∀ p, t.pageSt p = { s.pageSt p with heat := (t.pageSt p).heat, nonDatum := (t.pageSt p).nonDatum }) ∧
  (∀ (s : State) who dpa n (f : Nat → Option Byte) (r : Region), s.regionAt dpa = some r → r.view = none → (s.pageSt (pageOf dpa)).held = false →
    (s.pageSt (pageOf dpa)).backed = false → 0 < n → pageOf (dpa + n - 1) = pageOf dpa → s.region? r.ctx r.idx = some r →
    let changes := ∃ i < n, ∃ b, f i = some b ∧ b ≠ r.datumByte (dpa + i)
    (¬changes → s.storeAt who dpa n f none = (s, some (s.gwctAt dpa n))) ∧
    (changes → r.pool = 0 → r.full = true →
      s.storeAt who dpa n f none = (s.modRegion r.ctx r.idx fun r => { r with drops := min (r.drops + 1) (2 ^ 24 - 1), sticky := true }, some s.ns)) ∧
    (changes → r.pool = 0 → r.full = false → ∃ t, s.storeAt who dpa n f none = (t, none) ∧ (t.pageSt (pageOf dpa)).held = true ∧
      (t.ctx r.ctx).poolHold = true ∧ t.mem = s.mem ∧ (pageOf dpa, who) ∈ t.held) ∧
    (changes → 0 < r.pool →
      (∀ q, s.regionAt (4096 * pageOf dpa) = some q → q.ed = false ∨ s.liveAt (dieOfDpa (4096 * pageOf dpa)) ≤ (s.pageSt (pageOf dpa)).cseq) →
      ∃ t, s.storeAt who dpa n f none = (t, some (s.gwctAt dpa n)) ∧ (t.pageSt (pageOf dpa)).backed = true ∧
        (∀ q, t.region? r.ctx r.idx = some q → q.pool + 1 = r.pool) ∧
        (∀ i < n, cellAt t.mem (dpa + i) = (f i).getD (r.datumByte (dpa + i))) ∧
        (∀ a, pageOf a = pageOf dpa → (a < dpa ∨ dpa + n ≤ a) → cellAt t.mem a = r.datumByte a) ∧
        ∀ a, pageOf a ≠ pageOf dpa → cellAt t.mem a = cellAt s.mem a))

/-- R218, R222, R234, R341: a request of an atomic that its home performs takes the bytes that stand there, runs its lanes over them as one
unit, and writes what they leave; each lane's old value is its result.  Its GWCT comes back to the group at once, or, while a tile fetch pins
the line, stays with the operation, which then completes no earlier than the pins. -/
def Obligations.HomePerformsAtomics : Prop :=
  ∀ s core id addr o op kind wide scope reqs q, (s.core core).op? id = some o → o.kind = .atom op kind wide scope reqs →
    reqs.find? (fun q => q.dpa == addr && !q.done) = some q → isLink addr = false →
    let n := if wide then 8 else 4
    (∀ l ∈ q.lanes, (s.core core).follows o.slot l.1 o.id addr n .strong = false ∧ (s.core core).behindStores o.slot l.1 o.id addr n = false) →
    (q.lanes.map (·.1)).Nodup →
    ∀ u b, s.homeRead (.homeAtomicRequest core id addr) addr n = (u, some b) →
      let done := atomUnit op kind wide (BitVec.ofNat 64 (leNat b)) q.lanes
      ∀ v gw, u.homeWrite (.homeAtomicRequest core id addr) addr n (fun i => (leBytes n done.1.toNat)[i]?) none = (v, some gw) →
      ∃ t, exec (.homeAtomicRequest core id addr) s = .next t ∧ (∀ a, t.stored a = v.stored a) ∧
        (∃ p ∈ (t.core core).ops, p = { o with res := p.res, kind := p.kind, poison := p.poison, onPins := p.onPins, gwct := p.gwct } ∧
          p.kind = .atom op kind wide scope (reqs.map fun r => if r.dpa == addr then { r with done := true } else r) ∧
          (∀ l ∈ done.2, l.1 < 64 → p.res.getD l.1 0 = l.2.setWidth 128) ∧
          (∀ i < 64, (∀ l ∈ done.2, l.1 ≠ i) → p.res.getD i 0 = o.res.getD i 0) ∧
          if v.pinned (lineOf addr) = true then
            p.onPins = lineOf addr :: o.onPins ∧ p.gwct = max o.gwct (acrossDie core addr gw)
          else p.onPins = o.onPins ∧ p.gwct = o.gwct) ∧
        ∀ g, v.group? core o.slot = some g → ∃ h, t.group? core o.slot = some h ∧
          h.gwct = if v.pinned (lineOf addr) = true ∨ q.lanes = [] then g.gwct else max g.gwct (acrossDie core addr gw)

/-- R190, R192, R210, R217, R218: an acknowledged store leaves its group, whose GWCT and L1 copy follow it; an expired copy leaves the L1; a
dirty line is written back and counted; a frame whose lines all hold the datum goes back to its region's pool, its page reading the datum
still; a page held for want of a frame takes one, and the accesses that wait there come next, in their order.

R185, R186: a home's heat counts are halved every millisecond; a far page of an auto region whose heat is 32 or more begins to be moved
where near frames are free, and else in exchange for the coldest near auto frame of less than a quarter of its heat, and no byte changes; a frame
that a sealed edition holds is not chosen; the switch of a page that is Migrating puts it in the other tier, and its exchange partner where it
stood, with their bytes as they were. -/
def Obligations.HomeUpkeep : Prop :=
  ((∀ (s : State) core slot id (g : Group) (r : StoreReq), s.group? core slot = some g → g.store? id = some r → r.todo = 0 → isLink r.dpa = false →
    s.pinned (lineOf r.dpa) = false → g.ackFirst r = false →
    let gw := if isHostDie r.dpa then 0 else acrossDie core r.dpa r.gwct
    let off := r.dpa % 128
    ∃ t h, exec (.storeAckArrival core slot id) s = .next t ∧ t.group? core slot = some h ∧
      h = { g with stores := g.stores.filter (fun q => q.id != id), gwct := max g.gwct gw, acked := h.acked } ∧
      (s.ns < gw → { r with gwct := gw } ∈ h.acked) ∧
      (∀ x, get? (s.core core).l1 (lineOf r.dpa) = some x → r.tag = none → ∃ y, get? (t.core core).l1 (lineOf r.dpa) = some y ∧
        ∀ i < 128, y.bytes.getD i 0 = if off ≤ i ∧ i < off + r.width ∧ x.stamps.getD i 0 < r.stamps.getD (i - off) 0 then
          (r.data >>> (8 * (i - off))).setWidth 8 else x.bytes.getD i 0) ∧
      (∀ l, l ≠ slot → t.group? core l = s.group? core l) ∧ OnlyCore s t core) ∧
  (∀ s core line x, get? (s.core core).l1 line = some x → x.limit ≤ s.ns →
    ∃ t, exec (.leaseExpiry core line) s = .next t ∧ get? (t.core core).l1 line = none ∧ (t.core core).groups = (s.core core).groups ∧
      OnlyCore s t core) ∧
  (∀ (s : State) line (r : Region), (s.line line).dirty = true → s.regionAt (128 * line) = some r → r.dat = true → (s.pageSt (pageOf (128 * line))).backed = true →
    ∃ t, exec (.lineWriteback line) s = .next t ∧ (t.line line).dirty = false ∧ (∀ a, t.stored a = s.stored a) ∧
      ((t.pageSt (pageOf (128 * line))).nonDatum.getLsbD (line % 32) = s.lineNonDatum r line) ∧
      (∀ i < 32, i ≠ line % 32 → (t.pageSt (pageOf (128 * line))).nonDatum.getLsbD i = (s.pageSt (pageOf (128 * line))).nonDatum.getLsbD i)) ∧
  (∀ (s : State) p (r : Region), s.releasable p = true → s.regionAt (4096 * p) = some r → s.region? r.ctx r.idx = some r → r.ed = false →
    ∃ u : State, exec (.pageRelease p) s = .next (u.afterStore s) ∧ (u.pageSt p).backed = false ∧ (u.pageSt p).nonDatum = 0 ∧
      u.region? r.ctx r.idx = some { r with pool := r.pool + 1, poolFar := if (s.pageSt p).far then r.poolFar + 1 else r.poolFar } ∧
      (∀ i < 4096, cellAt u.mem (4096 * p + i) = 0) ∧ ∀ a, pageOf a ≠ p → cellAt u.mem a = cellAt s.mem a) ∧
  ∀ (s : State) p (r : Region), s.regionAt (4096 * p) = some r → s.mayRelease p = true → s.region? r.ctx r.idx = some r → r.ed = false →
    ∃ u : State, exec (.heldStoresPerform p) s = .next (u.afterStore s) ∧ (u.pageSt p).backed = true ∧ (u.pageSt p).held = false ∧
      (∀ i < 4096, cellAt u.mem (4096 * p + i) = r.datumByte (4096 * p + i)) ∧ (∀ a, pageOf a ≠ p → cellAt u.mem a = cellAt s.mem a) ∧
      u.agenda = (s.held.filter fun h => h.1 == p).map (·.2) ++ s.agenda ∧ u.held = s.held.filter fun h => h.1 != p) ∧
  (let noViews := fun (s : State) => ∀ r ∈ s.regions, r.view = none
  let hot := fun (s : State) (die p : Nat) (x : PageSt) => get? s.pages p = some x ∧ dieOfDpa (4096 * p) = die ∧
    (∃ r, s.regionAt (4096 * p) = some r ∧ r.place = 2 ∧ r.view = none) ∧ x.backed = true ∧ x.far = true ∧ 32 ≤ x.heat ∧ s.frameHeld p = false
  (∀ s die, ∃ t, exec (.heatDecay die) s = .next t ∧ (∀ p, dieOfDpa (4096 * p) = die → (get? s.pages p).isSome = true →
      (t.pageSt p).heat = (s.pageSt p).heat / 2) ∧ t.cores = s.cores ∧ ∀ a, t.stored a = s.stored a) ∧
  (∀ s page, (s.pageSt page).migrating = true → (s.pageSt page).swap ≠ some page →
    ∃ u : State, exec (.migrationSwitch page) s = .next (u.afterStore s) ∧
    (u.pageSt page).migrating = false ∧ (u.pageSt page).far = !(s.pageSt page).far ∧ (u.pageSt page).backed = (s.pageSt page).backed ∧
    (∀ q, (s.pageSt page).swap = some q → (u.pageSt q).migrating = false ∧ (u.pageSt q).far = (s.pageSt page).far) ∧
    u.cores = s.cores ∧ (noViews s → ∀ a, u.stored a = s.stored a)) ∧
  (∀ s die, ∃ t, exec (.migrationTick die) s = .next t ∧ t.cores = s.cores ∧ t.mem = s.mem ∧ (noViews s → ∀ a, t.stored a = s.stored a) ∧
    (s.pages.length ≤ 256 → 256 ≤ (s.die die).near → ∀ p x, hot s die p x → (t.pageSt p).migrating = true)) ∧
  ∀ s die p x q, (s.pages.map (·.1)).Nodup → hot s die p x → x.migrating = false → (∀ k y, k ≠ p → get? s.pages k = some y → y.heat < 32) →
    (s.die die).near = 0 → s.coldest die = some q → 4 * (s.pageSt q).heat < x.heat →
    ∃ t, exec (.migrationTick die) s = .next t ∧ (t.pageSt p).migrating = true ∧ (t.pageSt p).swap = some q ∧ (t.pageSt q).migrating = true ∧
      (t.pageSt q).swap = some p)

/-! ### Windows, sealed ranges, backing and barriers (R165–R173, R195–R198, R214, R224, R343, R344, R346) -/

/-- R343, R344: `WMAP` takes the lowest free number, and its range starts with every word Invalid; `WQUERY` gives the status word; the causes of
the window trap that are tested before translation, the lowest first. -/
def Obligations.WindowMapping : Prop :=
  (∀ (f : FSub) s g tm, Issuing s (.wmap f) g → FreshIds s → s.team? s.cur.core g.team = some tm →
    let x := gangOf s g f.guard (Instr.wmap f).cls
    let base := x.grp.src64 (lowLane x.m) false f.a
    let loc := x.grp.src32 (lowLane x.m) f.b
    let len := (x.grp.src32 (lowLane x.m) f.c).toNat
    let full := ∀ k < 16, (get? tm.windows k).isSome = true
    let bad := fun (p : Place) => base.toNat % 128 ≠ 0 ∨ p.off % 128 ≠ 0 ∨ len % 128 ≠ 0 ∨ len < 128 ∨ 2 ^ 20 < len
    let meets := fun (p : Place) => ¬(p.core = s.cur.core ∧ p.team = g.team) ∨
      (∃ w ∈ tm.windows, w.2.closing = false ∧ overlaps w.2.loc w.2.len p.off len = true) ∨ tm.isSealed p.off len = true
    let fails := fun (c : Nat) (a : Word64) => ∃ t, exec (.wmap f) s = .next t ∧ Trapped s t g 0x37 a [BitVec.ofNat 64 c]
    (x.m = 0 → ∃ t, exec (.wmap f) s = .next t ∧ OnlyMovedOn s t g) ∧
    (x.m ≠ 0 → s.place? s.cur.core g.team loc len = none → ∃ t, exec (.wmap f) s = .next t ∧ Trapped s t g 0x39 (loc.setWidth 64) []) ∧
    ∀ p, x.m ≠ 0 → s.place? s.cur.core g.team loc len = some p →
      (full → fails 1 base) ∧
      (¬full → bad p → fails 2 (if base.toNat % 128 = 0 ∧ p.off % 128 ≠ 0 then loc.setWidth 64 else base)) ∧
      (¬full → ¬bad p → meets p → fails 3 (loc.setWidth 64)) ∧
      let first := vaBits base / 4096
      let pages := (List.range ((vaBits base + len - 1) / 4096 - first + 1)).map fun i =>
        (0, if i = 0 then base else BitVec.ofNat 64 (4096 * (first + i)))
      (∀ e, ¬full → ¬bad p → ¬meets p → s.spots s.cur.core g.ctx .store pages = .error e →
        ∃ t, exec (.wmap f) s = .next t ∧ Trapped s t g e.1 e.2.1 e.2.2) ∧
      ∀ u spots, ¬full → ¬bad p → ¬meets p → s.spots s.cur.core g.ctx .store pages = .ok (u, spots) →
        (u.wmapRange tm g.ctx (vaBits base) len (spots.map fun q => pageOf q.dpa) = false → fails 4 base) ∧
        (u.wmapRange tm g.ctx (vaBits base) len (spots.map fun q => pageOf q.dpa) = true →
          u.spotStop x { n := 1, need := .store, host := false, link := false, access := false } spots = none →
          ∃ t o k w, exec (.wmap f) s = .next t ∧ InFlightLocal s u t g o ∧ GivesAll x o f.d 1 (BitVec.ofNat 128 k) ∧
            k < 16 ∧ get? tm.windows k = none ∧ (∀ j < k, (get? tm.windows j).isSome = true) ∧
            t.team? s.cur.core g.team = some { tm with windows := put tm.windows k w } ∧
            w.base = vaBits base ∧ w.loc = p.off ∧ w.len = len ∧ w.words = [] ∧ w.closing = false ∧ w.pages = spots.map fun q => pageOf q.dpa)) ∧
  ∀ (f : FSub) s g tm, Issuing s (.wquery f) g → FreshIds s → s.team? s.cur.core g.team = some tm →
    let x := gangOf s g f.guard (Instr.wquery f).cls
    let k := (x.grp.src32 (lowLane x.m) f.a).toNat
    (x.m = 0 → ∃ t, exec (.wquery f) s = .next t ∧ OnlyMovedOn s t g) ∧
    (x.m ≠ 0 → 15 < k → ∃ t, exec (.wquery f) s = .next t ∧ Trapped s t g 0x37 0 [5]) ∧
    (x.m ≠ 0 → k ≤ 15 → ∃ t o, exec (.wquery f) s = .next t ∧ InFlightLocal s s t g o ∧ GivesAll x o f.d 2 (BitVec.ofNat 128
      (match (get? tm.windows k).filter fun w => !w.closing with
        | some w => 2 ^ 63 + ((w.dirty.map fun d => d.1 / 32).eraseDups).length * 2 ^ 40 + w.len / 128 * 2 ^ 24 + w.loc
        | none => 0)))

/-- R214, R344: `WSYNC` writes back the bytes that were dirty when the clock began, as stores of its own, each word's DBM losing them; `WINV` drops
the clean words and the leases and keeps every dirty byte; `WUNMAP` makes the range plain memory, an Invalid word reading 0, and writes back
what is dirty; an unmapped number is cause 5.  `WSYNC` and `WUNMAP` wait at issue while local accesses of their gang are left at a bank.

R224, R346: `SEAL` takes the lowest free handle, and completes with it once no write lock stands on its range and no store to it is left at a bank; `UNSEAL` ends the seal, and
completes when its reference count stands at 0; the causes of the seal trap, the lowest first. -/
def Obligations.WindowWriteBackAndSeals : Prop :=
  (let chosen := fun (tm : Team) (f : FSub) (x : Gang) (k : Nat) (w : Window) => get? tm.windows k = some w ∧ w.closing = false ∧
    (f.sub = 1 ∨ k = (x.grp.src32 (lowLane x.m) f.a).toNat)
  let sound := fun (tm : Team) => (tm.windows.map (·.1)).Nodup ∧ (∀ w ∈ tm.windows, w.1 < 16 ∧ (w.2.words.map (·.1)).Nodup)
  let free := fun (s : State) (tm : Team) (core team : Nat) => ∀ w ∈ tm.windows, s.windowLocked core team w.2 = false
  let stores := fun (u : State) (h : Group) (core slot op : Nat) => ∀ g', u.group? core slot = some g' →
    (∀ r ∈ h.stores, r ∉ g'.stores → r.op = op) ∧ ∀ r ∈ g'.stores, r ∈ h.stores
  (∀ (f : FSub) s g tm, Issuing s (.wsync f) g → s.team? s.cur.core g.team = some tm →
    let x := gangOf s g f.guard (Instr.wsync f).cls
    (x.m = 0 → ∃ t, exec (.wsync f) s = .next t ∧ OnlyMovedOn s t g) ∧
    (x.m ≠ 0 → f.sub ≠ 1 → (∀ k w, ¬chosen tm f x k w) → sound tm → ∃ t, exec (.wsync f) s = .next t ∧ Trapped s t g 0x37 0 [5]) ∧
    (x.m ≠ 0 → (f.sub = 1 ∨ ∃ k w, chosen tm f x k w) → sound tm →
      (∀ u, s.bankSettle x = (u, false) → exec (.wsync f) s = .next u) ∧
      ∀ u tm', s.bankSettle x = (u, true) → FreshIds u → u.team? s.cur.core g.team = some tm' → sound tm' → free u tm s.cur.core g.team →
        tm'.idem = false →
        ∃ t h o, exec (.wsync f) s = .next t ∧ t.group? s.cur.core s.cur.slot = some h ∧ o ∈ (t.core s.cur.core).ops ∧ OpOf x o ∧ o.id = u.fresh ∧
          o.kind = .writeBack (x.grp.src32 (lowLane x.m) f.a).toNat false ∧ SameRegs g h ∧ MovedOn g h s.cur.mask ∧
          (∀ k w', chosen tm f x k w' → ∀ w, get? tm'.windows k = some w → ∀ d ∈ w.dirtyBefore u.clock, ∃ r ∈ h.stores, r.op = o.id ∧
            r.dpa = w.dpa (4 * d.1) ∧ r.width = 4 ∧ r.cls = .strong ∧ r.scope = .device ∧ r.tag = none ∧ r.todo = d.2.setWidth 16 ∧
            ∀ b < 4, (r.data >>> (8 * b)).setWidth 8 = localByte u s.cur.core g.team (w.loc + 4 * d.1 + b)) ∧
          (∀ k w', chosen tm f x k w' → ∀ w, get? tm'.windows k = some w → ∀ v, (k, v) ∈ t.windowsOf s.cur.core g.team →
            ∀ d ∈ v.dirty, d.2 = ((w.word d.1).2 &&& ~~~((w.dirtyBefore u.clock).find? fun y => y.1 == d.1).elim 0 (·.2))) ∧
          stores u h s.cur.core s.cur.slot o.id ∧
          (∀ c k off, localByte t c k off = localByte u c k off) ∧ ∀ a, t.stored a = u.stored a)) ∧
  (∀ (f : FSub) s g tm, Issuing s (.winv f) g → s.team? s.cur.core g.team = some tm →
    let x := gangOf s g f.guard (Instr.winv f).cls
    (x.m = 0 → ∃ t, exec (.winv f) s = .next t ∧ OnlyMovedOn s t g) ∧
    (x.m ≠ 0 → f.sub ≠ 1 → (∀ k w, ¬chosen tm f x k w) → sound tm → ∃ t, exec (.winv f) s = .next t ∧ Trapped s t g 0x37 0 [5]) ∧
    (x.m ≠ 0 → (f.sub = 1 ∨ ∃ k w, chosen tm f x k w) → sound tm → free s tm s.cur.core g.team →
      ∃ t, exec (.winv f) s = .next t ∧ MovedOnly s s t g ∧
        (∀ k w, chosen tm f x k w → ((t.team? s.cur.core g.team).bind fun tm => get? tm.windows k) =
          some { w with words := w.words.filter fun d => d.2.2 != 0, leases := [] }) ∧
        (∀ k w, get? tm.windows k = some w → ¬chosen tm f x k w →
          ((t.team? s.cur.core g.team).bind fun tm => get? tm.windows k) = some w) ∧
        ∀ c k off, localByte t c k off = localByte s c k off)) ∧
  ∀ (f : FSub) s g tm, Issuing s (.wunmap f) g → s.team? s.cur.core g.team = some tm →
    let x := gangOf s g f.guard (Instr.wunmap f).cls
    let k := (x.grp.src32 (lowLane x.m) f.a).toNat
    (x.m = 0 → ∃ t, exec (.wunmap f) s = .next t ∧ OnlyMovedOn s t g) ∧
    (x.m ≠ 0 → tm.named k = none → ∃ t, exec (.wunmap f) s = .next t ∧ Trapped s t g 0x37 0 [5]) ∧
    ∀ w', x.m ≠ 0 → tm.named k = some w' →
      (∀ u, s.bankSettle x = (u, false) → exec (.wunmap f) s = .next u) ∧
      ∀ u tu w, s.bankSettle x = (u, true) → FreshIds u → u.team? s.cur.core g.team = some tu → sound tu → get? tu.windows k = some w →
        w.closing = false → u.windowLocked s.cur.core g.team w' = false → tu.idem = false →
        ∃ t h o tm', exec (.wunmap f) s = .next t ∧ t.group? s.cur.core s.cur.slot = some h ∧ o ∈ (t.core s.cur.core).ops ∧ OpOf x o ∧
          o.id = u.fresh ∧ o.kind = .writeBack k true ∧ SameRegs g h ∧ MovedOn g h s.cur.mask ∧ t.team? s.cur.core g.team = some tm' ∧
          tm'.named k = none ∧ (get? tm'.windows k).isSome = true ∧
          (∀ off, w.loc ≤ off → off < w.loc + w.len →
            let d := w.word ((off - w.loc) / 4)
            (d.1 = true ∨ dbmBit d.2 ((off - w.loc) % 4) = true → tm'.byte off = tu.byte off) ∧ (d.1 = false → d.2 = 0 → tm'.byte off = 0)) ∧
          (∀ off, (off < w.loc ∨ w.loc + w.len ≤ off) → tm'.byte off = tu.byte off) ∧
          (∀ d ∈ w.dirty, ∃ r ∈ h.stores, r.op = o.id ∧ r.dpa = w.dpa (4 * d.1) ∧ r.todo = d.2.setWidth 16) ∧
          stores u h s.cur.core s.cur.slot o.id ∧ ∀ a, t.stored a = u.stored a) ∧
  ((∀ (f : FSub) s g tm, Issuing s (.sealRange f) g → FreshIds s → s.team? s.cur.core g.team = some tm →
    let x := gangOf s g f.guard (Instr.sealRange f).cls
    let a := x.grp.src32 (lowLane x.m) f.a
    let len := (x.grp.src32 (lowLane x.m) f.b).toNat
    let fails := fun (c : Nat) => ∃ t, exec (.sealRange f) s = .next t ∧ Trapped s t g 0x3A (a.setWidth 64) [BitVec.ofNat 64 c]
    let full := ∀ k < 8, (get? tm.seals k).isSome = true
    (x.m = 0 → ∃ t, exec (.sealRange f) s = .next t ∧ OnlyMovedOn s t g) ∧
    (x.m ≠ 0 → s.place? s.cur.core g.team a len = none → ∃ t, exec (.sealRange f) s = .next t ∧ Trapped s t g 0x39 (a.setWidth 64) []) ∧
    ∀ p, x.m ≠ 0 → s.place? s.cur.core g.team a len = some p →
      let bad := p.off % 128 ≠ 0 ∨ ¬(p.core = s.cur.core ∧ p.team = g.team) ∨ len % 128 ≠ 0 ∨ len < 128 ∨ 2 ^ 21 < len
      let meets := (∃ w ∈ tm.windows, w.2.closing = false ∧ overlaps w.2.loc w.2.len p.off len = true) ∨ tm.isSealed p.off len = true
      (full → fails 1) ∧ (¬full → bad → fails 2) ∧ (¬full → ¬bad → meets → fails 3) ∧
      (¬full → ¬bad → ¬meets → ∃ t o h, exec (.sealRange f) s = .next t ∧ InFlightLocal s s t g o ∧ OpOf x o ∧ o.kind = .sealRange h ∧ o.lanes = x.m ∧
        Pends o f.d 1 false ∧ (∀ j < 64, o.res.getD j 0 = BitVec.ofNat 128 h) ∧ h < 8 ∧ get? tm.seals h = none ∧
        (∀ j < h, (get? tm.seals j).isSome = true) ∧
        t.team? s.cur.core g.team = some { tm with seals := put tm.seals h { loc := p.off, len := len, count := 0, closing := false } })) ∧
  (∀ (f : FSub) s g tm, Issuing s (.unsealRange f) g → FreshIds s → s.team? s.cur.core g.team = some tm →
    let x := gangOf s g f.guard (Instr.unsealRange f).cls
    let h := (x.grp.src32 (lowLane x.m) f.a).toNat
    (x.m = 0 → ∃ t, exec (.unsealRange f) s = .next t ∧ OnlyMovedOn s t g) ∧
    (x.m ≠ 0 → (∀ q, get? tm.seals h = some q → q.closing = true) → ∃ t, exec (.unsealRange f) s = .next t ∧ Trapped s t g 0x3A 0 [3]) ∧
    ∀ q, x.m ≠ 0 → get? tm.seals h = some q → q.closing = false →
      ∃ t o, exec (.unsealRange f) s = .next t ∧ InFlightLocal s s t g o ∧ OpOf x o ∧ o.kind = .unsealRange h ∧ Pends o .zero 1 false ∧
        t.team? s.cur.core g.team = some { tm with seals := put tm.seals h { q with closing := true } }) ∧
  ∀ s core o h tm, Flying s core o → s.team? core o.team = some tm →
    (o.kind = .sealRange h → (∀ c ∈ s.cores, ∀ l ∈ c.2.locks, ∀ q, get? tm.seals h = some q → l.write = true → l.space = some (core, o.team) →
        l.hi ≤ q.loc ∨ q.loc + q.len ≤ l.lo) →
      (∀ q, get? tm.seals h = some q → s.banksOn { core := core, team := o.team, off := q.loc } q.len true = false) →
      ∃ t, exec (.operationComplete core o.id) s = .next t ∧ Delivered s t core o fun i => o.res.getD i 0) ∧
    (o.kind = .unsealRange h → (∀ q, get? tm.seals h = some q → q.count = 0) →
      ∃ t, exec (.operationComplete core o.id) s = .next t ∧ (t.team? core o.team) = some { tm with seals := del tm.seals h } ∧
        (t.core core).ops = (s.core core).ops.filter fun p => p.id != o.id) ∧
    (o.kind = .unsealRange h → ∀ q, get? tm.seals h = some q → q.count ≠ 0 → exec (.operationComplete core o.id) s = .next s))

/-- R195–R198: `SURVEY` and `PROBE` go in flight with their threads' addresses, and are answered from the state at their completion, once their
threads' earlier stores, atomics and `DISCARD`s are performed: the first page of a span that reads as backed, or a mask of 64 pages, or the word
of a probe; until then they wait.  `DISCARD` is checked at issue, a page outside apertures before
one of an edition view, and at completion each of its pages is Unbacked and reads the datum; its GWCT comes back to the group. -/
def Obligations.SurveyProbeDiscard : Prop :=
  (∀ (f : FSub) s g, Issuing s (.survey f) g → FreshIds s →
    let x := gangOf s g f.guard (Instr.survey f).cls
    (x.m = 0 → ∃ t, exec (.survey f) s = .next t ∧ OnlyMovedOn s t g) ∧
    (x.m ≠ 0 → ∃ t o, exec (.survey f) s = .next t ∧ InFlightLocal s s t g o ∧ OpOf x o ∧ o.lanes = x.m ∧ Pends o f.d 2 false ∧
      o.kind = .survey (f.sub.val % 2 == 1) (f.sub.val / 2 == 1)
        ((lanesOf x.m).map fun j => (j, x.grp.src64 j false f.a, (x.grp.src32 j f.b).toNat)))) ∧
  (∀ s core o map spans, Flying s core o → o.kind = .survey map false spans → (spans.map (·.1)).Nodup →
    (s.core core).ownPerformed o.slot o.lanes o.id = true →
    let backed := fun (a : Word64) j => s.surveyed o.ctx (vaBits a / 4096 + j)
    ∃ t res, exec (.operationComplete core o.id) s = .next t ∧ Delivered s t core o res ∧
      ∀ p ∈ spans, p.1 < 64 →
        let n := min p.2.2 65536
        (map = true → ∀ j < 64, (res p.1).getLsbD j = backed p.2.1 j) ∧
        (map = false → (∀ j < n, backed p.2.1 j = false) → res p.1 = (BitVec.allOnes 64).setWidth 128) ∧
        (map = false → ∀ j < n, backed p.2.1 j = true → (∀ k < j, backed p.2.1 k = false) →
          ((res p.1).setWidth 64 : Word64) = (p.2.1 >>> 57) <<< 57 ||| BitVec.ofNat 64 (4096 * (vaBits p.2.1 / 4096 + j) % 2 ^ 57))) ∧
  (∀ (f : FSub) s g, Issuing s (.probe f) g → FreshIds s →
    let x := gangOf s g f.guard (Instr.probe f).cls
    (x.m = 0 → ∃ t, exec (.probe f) s = .next t ∧ OnlyMovedOn s t g) ∧
    ∀ u spots, x.m ≠ 0 → s.globalCheck x { n := 1, need := .load, host := false, link := false, access := false }
        ((lanesOf x.m).map fun j => (j, x.grp.src64 j false f.a)) = .ok (u, spots) →
      ∃ t o, exec (.probe f) s = .next t ∧ InFlight s u t g o ∧ OpOf x o ∧ o.lanes = x.m ∧ Pends o f.d 1 false ∧
        o.kind = .probe (spots.map fun p => (p.lane, BitVec.ofNat 64 p.dpa))) ∧
  (∀ s core o addrs, Flying s core o → o.kind = .probe addrs → (addrs.map (·.1)).Nodup →
    (s.core core).ownPerformed o.slot o.lanes o.id = true →
    ∃ t res, exec (.operationComplete core o.id) s = .next t ∧ Delivered s t core o res ∧
      ∀ p ∈ addrs, p.1 < 64 → ∀ r, s.regionAt p.2.toNat = some r → r.dat = true →
        let pg := s.pageSt (pageOf p.2.toNat)
        ∃ w, res p.1 = BitVec.ofNat 128 w ∧ (w % 2 = 1 ↔ pg.backed = true ∨ pg.held = true) ∧
          w / 2 % 4 = (if pg.backed then (if pg.far then 1 else 0) else 2) ∧ (w / 8 % 2 = 1 ↔ pg.backed = true ∧ pg.migrating = true) ∧
          w / 16 % 16 = (if r.tag then ((get? s.tags (p.2.toNat / 32)).getD 0).toNat else 0) ∧
          w / 2 ^ 16 = if pg.backed then ((List.range 32).filter pg.nonDatum.getLsbD).length else 0) ∧
  (∀ s core o, (s.core core).op? o.id = some o → (∃ map sync spans, o.kind = .survey map sync spans) ∨ (∃ addrs, o.kind = .probe addrs) →
    (s.core core).ownPerformed o.slot o.lanes o.id = false → exec (.operationComplete core o.id) s = .next s) ∧
  (∀ (f : FSub) s g, Issuing s (.discard f) g → FreshIds s →
    let x := gangOf s g f.guard (Instr.discard f).cls
    let asked := (lanesOf x.m).map fun j => (j, x.grp.src64 j false f.a, (x.grp.src32 j f.b).toNat)
    let pages := asked.flatMap fun o => ((List.range o.2.2).map fun i => (o.1, o.2.1 + BitVec.ofNat 64 (4096 * i)))
    (x.m = 0 → ∃ t, exec (.discard f) s = .next t ∧ OnlyMovedOn s t g) ∧
    (∀ o, x.m ≠ 0 → asked.find? (fun o => o.2.1.toNat % 4096 != 0 || decide (64 < o.2.2)) = some o →
      ∃ t, exec (.discard f) s = .next t ∧ Trapped s t g 0x31 o.2.1 []) ∧
    ∀ c spots, x.m ≠ 0 → (∀ o ∈ asked, o.2.1.toNat % 4096 = 0 ∧ o.2.2 ≤ 64) → s.spots x.core g.ctx .store pages = .ok (c, spots) →
      let aperture := fun (p : Spot) => ∃ r, c.regionAt p.dpa = some r ∧ r.ctx = g.ctx ∧ match r.view with
        | some (_, src) => ∃ q, c.region? r.ctx src = some q ∧ q.dat = true
        | none => r.dat = true
      let view := fun (p : Spot) => ((c.regionAt p.dpa).map (·.view.isSome)) == some true
      (∀ p ps qs, spots = ps ++ p :: qs → ¬aperture p → (∀ q ∈ ps, aperture q) → ∃ t, exec (.discard f) s = .next t ∧ Trapped s t g 0x31 p.va []) ∧
      (∀ p, (∀ p ∈ spots, aperture p) → spots.find? view = some p → ∃ t, exec (.discard f) s = .next t ∧ Trapped s t g 0x35 p.va []) ∧
      ∀ u, (∀ p ∈ spots, aperture p ∧ view p = false) → c.leaveIdem x true = (u, true) →
        ∃ t o, exec (.discard f) s = .next t ∧ InFlight s u t g o ∧ OpOf x o ∧ o.lanes = x.m ∧ Pends o .zero 1 false ∧
          o.kind = .discard ((spots.map fun p => pageOf p.dpa).eraseDups)) ∧
  ∀ s core o p r g, Flying s core o → o.kind = .discard [p] → o.onPins = [] → o.lanes ≠ 0 → s.group? core o.slot = some g →
    (s.core core).settled o.slot o.lanes o.id true = true → s.discardReady p = true → (∀ l ∈ linesOf p, s.pinned l = false) →
    s.regionAt (4096 * p) = some r → s.region? r.ctx r.idx = some r → r.ed = false → (s.pageSt p).backed = true →
    (∀ h ∈ halvesOf (4096 * p) 4096, (s.line (lineOf h)).half h = .invalid) →
    ∃ t, ∃ u : State, exec (.operationComplete core o.id) s = .next t ∧ (s.discardPage p).1 = u.afterStore s ∧ (u.pageSt p).backed = false ∧
      u.region? r.ctx r.idx = some { r with pool := r.pool + 1, poolFar := if (s.pageSt p).far then r.poolFar + 1 else r.poolFar } ∧
      (∀ i < 4096, cellAt u.mem (4096 * p + i) = 0) ∧ (∀ a, pageOf a ≠ p → cellAt u.mem a = cellAt s.mem a) ∧
      (∀ q ∈ u.poison, q / 128 ≠ p) ∧ (∀ a, t.stored a = (u.afterStore s).stored a) ∧
      (t.core core).ops.find? (fun q => q.id == o.id) = none ∧
      ∃ h, t.group? core o.slot = some h ∧ h.gwct = max g.gwct (acrossDie core (4096 * p) (s.gwctAt (4096 * p) 4096))

/-- R49, R167–R173, R213: the barrier instructions, on an object that their handle names.  `BARINIT` sets it up, and accesses that peers hold at it
go on; an arrival, once its gang's earlier accesses are done, marks its group and gives the phase; `BAREXP` adds bytes; `BARWAIT` passes where
the phase has moved on, and else its threads wait past it; `BARTRY` gives the test.  The test sees the arrivals that this clock has made.  An
access to a peer's object that is not initialised is held there.

R167, R170, R172, R173: a phase completes at the end of a clock when no arrival is pending, no byte is expected, and a posting barrier has
been posted: the phase bit turns, what arrived early counts for the next phase, which the loop then tests too, and each thread that waits for
the phase, in a group that is not saved, is Ready.  An access held at a peer's object is a barrier-range trap if the object's CL is 0. -/
def Obligations.BarrierInstructions : Prop :=
  (let X := fun (s : State) (i : Instr) (g : Group) (f : FBar) => gangOf s g f.guard i.cls
  let named := fun (s : State) (x : Gang) (f : FBar) (b : BarAt) => s.barAt? s.cur.core x.grp.team (x.grp.src32 (lowLane x.m) f.a) = some b
  let whole := fun (s : State) (g : Group) => (s.ctx g.ctx).check = true → s.cur.mask = g.liveMask
  let own := fun (s : State) (g : Group) (b : BarAt) => b.core = s.cur.core ∧ b.team = g.team
  let others := fun (s t : State) (b : BarAt) => ∀ c, c ≠ b → (s.team? c.core c.team).isSome = true → t.bar c = s.bar c
  let gives := fun (s t : State) (g : Group) (x : Gang) (d : Spec) (v : Bool) =>
    ∃ h, t.group? s.cur.core s.cur.slot = some h ∧ RegsAfter g h x.m false false false d (fun _ => if v then 1 else 0) ∧ MovedOn g h s.cur.mask ∧
      (∀ c l, ¬(c = s.cur.core ∧ l = s.cur.slot) → State.still? t c l = State.still? s c l) ∧
      t = { s with cores := t.cores } ∧ ∀ a, t.stored a = s.stored a
  (∀ i f, i = .barinit f ∨ i = .bararv f ∨ i = .barexp f ∨ i = .barwait f ∨ i = .bartry f →
    ∀ s g, Issuing s i g →
      let x := X s i g f
      let h := x.grp.src32 (lowLane x.m) f.a
      (x.m = 0 → ∃ t, exec i s = .next t ∧ OnlyMovedOn s t g) ∧
      (x.m ≠ 0 → whole s g → s.barAt? s.cur.core g.team h = none → ∃ t, exec i s = .next t ∧ Trapped s t g 0x22 (h.setWidth 64) [h.setWidth 64]) ∧
      (∀ b, x.m ≠ 0 → whole s g → named s x f b → i ≠ .barinit f → (s.bar b).init = false → own s g b →
        ∃ t, exec i s = .next t ∧ Trapped s t g 0x20 (h.setWidth 64) [h.setWidth 64]) ∧
      (∀ b, x.m ≠ 0 → whole s g → named s x f b → i ≠ .barinit f → (s.bar b).init = false → ¬own s g b →
        (i = .bararv f → s.arrivalReady x true = true) →
        ∃ t q o, exec i s = .next t ∧ t.group? s.cur.core s.cur.slot = some q ∧ SameRegs g q ∧ o ∈ (t.core s.cur.core).ops ∧ OpOf x o ∧
          o.lanes = x.m ∧ o.kind = .barheld i b.core b.team b.obj ∧ (∀ c, t.bar c = s.bar c) ∧
          ∀ j < 64, (q.thread j).pc = (g.thread j).pc ∧ (q.thread j).st = (g.thread j).st ∧
            (has s.cur.mask j = true → (q.thread j).stall = some o.id)) ∧
      (x.m ≠ 0 → (s.ctx g.ctx).check = true → s.cur.mask ≠ g.liveMask → i = .bararv f ∨ i = .barwait f ∨ i = .bartry f →
        ∃ t, exec i s = .next t ∧ Trapped s t g 0x07 0 [s.cur.mask, g.liveMask])) ∧
  (∀ (f : FBar) s g b, Issuing s (.barinit f) g →
    let x := X s (.barinit f) g f
    let n := (x.grp.src32 (lowLane x.m) f.b).toNat
    let h := x.grp.src32 (lowLane x.m) f.a
    x.m ≠ 0 → named s x f b →
    let inUse := (s.bar b).init = true ∧ ¬((s.bar b).arrived = 0 ∧ (s.bar b).early = 0 ∧ (s.bar b).bytes = 0 ∧ s.barWaited b = false)
    let new : Barrier := { bytes := 0, pend := n, count := n, posted := false, bm := f.bytes, cl := f.cluster, phase := false, init := true,
                           arrived := 0, early := 0 }
    (¬own s g b ∨ inUse ∨ s.barNamed b = true → ∃ t, exec (.barinit f) s = .next t ∧ Trapped s t g 0x20 (h.setWidth 64) [h.setWidth 64]) ∧
    (own s g b → ¬inUse → s.barNamed b = false → n = 0 ∨ 192 < n →
      ∃ t, exec (.barinit f) s = .next t ∧ Trapped s t g 0x22 (h.setWidth 64) [h.setWidth 64]) ∧
    (own s g b → ¬inUse → s.barNamed b = false → 0 < n → n ≤ 192 →
      exec (.barinit f) s = .next (x.advance ((s.setBar b new).releaseHeld b)) ∧
      ((∀ c ∈ s.cores, ∀ o ∈ c.2.ops, ∀ i, o.kind ≠ .barheld i b.core b.team b.obj) →
        ∃ t, exec (.barinit f) s = .next t ∧ MovedOnly s s t g ∧ t.bar b = new ∧ others s t b))) ∧
  (∀ (f : FBar) s g b tm, Issuing s (.bararv f) g →
    let x := X s (.bararv f) g f
    let o := s.bar b
    let p := tm.participant g.idx
    let h := x.grp.src32 (lowLane x.m) f.a
    x.m ≠ 0 → whole s g → named s x f b → o.init = true → s.team? s.cur.core g.team = some tm →
    (s.arrivalReady x o.cl = false → exec (.bararv f) s = .next s) ∧
    (s.arrivalReady x o.cl = true →
      (o.arrived.getLsbD p = true → o.early.getLsbD p = true →
        ∃ t, exec (.bararv f) s = .next t ∧ Trapped s t g 0x21 (h.setWidth 64) [h.setWidth 64]) ∧
      (¬(o.arrived.getLsbD p = true ∧ o.early.getLsbD p = true) → ∃ t, exec (.bararv f) s = .next t ∧ gives s t g x f.d o.phase ∧ others s t b ∧
        t.bar b = if o.arrived.getLsbD p then { o with early := o.early ||| BitVec.twoPow 192 p }
          else { o with arrived := o.arrived ||| BitVec.twoPow 192 p, pend := (o.pend + 255) % 2 ^ 8 }))) ∧
  (∀ (f : FBar) s g b, Issuing s (.barexp f) g →
    let x := X s (.barexp f) g f
    let o := s.bar b
    let n : Int := (x.grp.src32 (lowLane x.m) f.b).toNat
    let h := x.grp.src32 (lowLane x.m) f.a
    x.m ≠ 0 → named s x f b → o.init = true →
    (2 ^ 31 - 1 < o.bytes + n → ∃ t, exec (.barexp f) s = .next t ∧ Trapped s t g 0x21 (h.setWidth 64) [h.setWidth 64]) ∧
    (o.bytes + n ≤ 2 ^ 31 - 1 → ∃ t, exec (.barexp f) s = .next t ∧ MovedOnly s s t g ∧ others s t b ∧
      t.bar b = { o with bytes := o.bytes + n, posted := true })) ∧
  (∀ (f : FBar) s g b, Issuing s (.barwait f) g →
    let x := X s (.barwait f) g f
    let tok := (x.grp.src32 (lowLane x.m) f.b).getLsbD 0
    x.m ≠ 0 → whole s g → named s x f b → (s.bar b).init = true →
    ((s.bar b).settled.phase ≠ tok → ∃ t, exec (.barwait f) s = .next t ∧ MovedOnly s s t g ∧ ∀ c, t.bar c = s.bar c) ∧
    ((s.bar b).settled.phase = tok → ∃ t h o, exec (.barwait f) s = .next t ∧ t.group? s.cur.core s.cur.slot = some h ∧ SameRegs g h ∧
      o ∈ (t.core s.cur.core).ops ∧ OpOf x o ∧ o.kind = .barwait ∧ o.lanes = x.m ∧
      (∀ i < 64, has x.m i = true → (h.thread i).st = .barrierWait b.core b.team b.obj tok ∧ (h.thread i).pc = g.nextPc (g.thread i)) ∧
      (∀ i < 64, has x.m i = false → has s.cur.mask i = true → (g.thread i).st = .ready →
        (h.thread i).st = .ready ∧ (h.thread i).pc = g.nextPc (g.thread i)) ∧
      (∀ i < 64, has s.cur.mask i = false → SameThread g h i) ∧
      (∀ l, l ≠ s.cur.slot → State.still? t s.cur.core l = State.still? s s.cur.core l) ∧ OnlyCore s t s.cur.core)) ∧
  ∀ (f : FBar) s g b, Issuing s (.bartry f) g →
    let x := X s (.bartry f) g f
    x.m ≠ 0 → whole s g → named s x f b → (s.bar b).init = true →
    ∃ t, exec (.bartry f) s = .next t ∧
      gives s t g x f.d ((s.bar b).settled.phase != (x.grp.src32 (lowLane x.m) f.b).getLsbD 0) ∧ ∀ c, t.bar c = s.bar c) ∧
  ((∀ (s : State) (b : BarAt) tm, s.team? b.core b.team = some tm → (∀ c, ((s.core c).ops.map (·.id)).Nodup) →
    let x := s.bar b
    let next := fun (x : Barrier) => { x with phase := !x.phase, arrived := x.early, early := 0, pend := (x.count + 256 - popcount192 x.early) % 2 ^ 8,
                                              posted := false }
    let t := s.evalBar b 2
    (x.complete = false → t = s) ∧
    (x.complete = true → t.bar b = (if (next x).complete then next (next x) else next x) ∧ ∀ a, t.stored a = s.stored a) ∧
    (x.complete = true → (next x).complete = false →
      (∀ c l g, s.group? c l = some g → (keysOf s.cores).contains c = true → g.saved = false → ∃ h, t.group? c l = some h ∧ SameRegs g h ∧
        ∀ i < 64, (h.thread i).pc = (g.thread i).pc ∧
          (h.thread i).st = if (g.thread i).st = .barrierWait b.core b.team b.obj x.phase then .ready else (g.thread i).st) ∧
      ∀ c l g, s.group? c l = some g → g.saved = true → t.group? c l = some g)) ∧
  ∀ (s : State) core o i b g, (s.core core).op? o.id = some o → s.group? core o.slot = some g → (s.bar b).cl = false → g.hold = .none →
    ∃ h, (s.takeHeld core o i b).group? core o.slot = some h ∧ h.hold = .trapped ∧ h.trap.code = 0x22 ∧ SameRegs g h ∧
      (∀ j < 64, (h.thread j).pc = (g.thread j).pc ∧ (h.thread j).st = (g.thread j).st) ∧ ∀ c, (s.takeHeld core o i b).bar c = s.bar c)

/-! ### Copies and their tags (R47, R171, R200, R224, R231–R236, R347–R351) -/

/-- R170, R171, R231, R347–R350: a copy that passes its checks, where the engine, the lock table and its tag have room, goes in flight with its
rows and its claims, its READY bit cleared; it starts at once where no earlier lock meets its own.  A gang that is not the whole group, a range
outside its limits, a barrier that does not fit and a destination that is sealed are trapped before issue; without room the gang waits, and
counts as Waiting; at a peer's object that is not initialised it is held. -/
def Obligations.CopyIssue : Prop :=
  let goes := fun (s : State) (g : Group) (i : Instr) (f : FCpy) (dst : Option (Place × Nat)) (ends : Bool) (rows : List CopyRow)
      (src : List (Nat × Nat × Nat)) (claims : List Claim) =>
    let x := gangOf s g .always i.cls
    let k := s.core s.cur.core
    let room := k.copies < 32 ∧ k.tagRoom g.team f.tag = true ∧ k.locks.length + claims.length ≤ 64
    let clear := fun bar => dst = none ∧ bar = none ∨ ∃ p n, dst = some (p, n) ∧ s.copyBar x p f.bar = .ok bar ∧ s.sealed p n = false
    (∀ p n e, dst = some (p, n) → s.copyBar x p f.bar = .trap e → ∃ t, exec i s = .next t ∧ Trapped s t g e.1 e.2.1 e.2.2) ∧
    (∀ p n b, dst = some (p, n) → s.copyBar x p f.bar = .wait b →
      ∃ t q o, exec i s = .next t ∧ t.group? s.cur.core s.cur.slot = some q ∧ SameRegs g q ∧ o ∈ (t.core s.cur.core).ops ∧ OpOf x o ∧
        o.kind = .barheld i b.core b.team b.obj ∧
        ∀ j < 64, (q.thread j).pc = (g.thread j).pc ∧ (q.thread j).st = (g.thread j).st ∧ (q.thread j).stall = some o.id) ∧
    (∀ p n bar, dst = some (p, n) → s.copyBar x p f.bar = .ok bar → s.sealed p n = true →
      ∃ t, exec i s = .next t ∧ Trapped s t g 0x34 (BitVec.ofNat 64 p.off) []) ∧
    (∀ bar, clear bar → ¬room → exec i s = .next (x.block s)) ∧
    ∀ bar u tm, clear bar → room → s.leaveIdem x ends = (u, true) → u.team? s.cur.core g.team = some tm →
      ∃ t o y, exec i s = .next t ∧ InFlightLocal s u t g o ∧ OpOf x o ∧ o.id = u.fresh ∧ o.lanes = allLanes ∧ o.writes = [] ∧
        o.tag = f.tag.map (·.val) ∧ o.kind = .copy y ∧ y = { Copy.blank with rows := rows, bar := bar, sealedSrc := src } ∧
        (t.core s.cur.core).locks = (u.core s.cur.core).locks ++ claims.map (fun c =>
          { op := o.id, slot := s.cur.slot, space := c.space, ctx := g.ctx, lo := c.lo, hi := c.hi, write := c.write }) ∧
        (∀ n, f.tag = some n → ((t.team? s.cur.core g.team).map (·.ready)) = some (tm.ready &&& ~~~(BitVec.twoPow 64 n.val))) ∧
        ((∀ l ∈ (u.core s.cur.core).locks, ∀ c ∈ claims, (l.write || c.write) = true → l.meets c.space g.ctx c.lo c.hi = false) →
          o.started = true) ∧
        (src.Nodup → ∀ c k h q, (c, k, h) ∈ src → ((u.team? c k).bind fun tm => get? tm.seals h) = some q →
          ((t.team? c k).bind fun tm => get? tm.seals h) = some { q with count := q.count + 1 }) ∧
        ∀ c k off, localByte t c k off = localByte u c k off
  let lenOk := fun n => n % 16 = 0 ∧ 16 ≤ n ∧ n ≤ 2 ^ 24
  ∀ (f : FCpy) s g, FreshIds s →
    (∀ i, i = .cpyG2l f ∨ i = .cpyL2g f ∨ i = .cpyL2l f ∨ i = .cpyg f ∨ i = .cpys f → Issuing s i g →
      ¬(s.cur.mask = allLanes ∧ g.liveMask = allLanes) → ∃ t, exec i s = .next t ∧ Trapped s t g 0x06 0 [s.cur.mask]) ∧
    (s.cur.mask = allLanes → g.liveMask = allLanes →
      let r := g.shown
      let n := (r.src32 0 f.c).toNat
      let place := fun d n => s.place? s.cur.core g.team (r.src32 0 d) n
      let at_ := fun d => (r.src32 0 d).setWidth 64
      let fails := fun i (code : Nat) (a : Word64) (ws : List Word64) => ∃ t, exec i s = .next t ∧ Trapped s t g code a ws
      (Issuing s (.cpyG2l f) g →
        let va := r.src64 0 false f.a
        (place f.b n = none → fails (.cpyG2l f) 0x39 (at_ f.b) []) ∧
        ∀ p, place f.b n = some p →
          (¬(lenOk n ∧ va.toNat % 16 = 0) → fails (.cpyG2l f) 0x38 va [1]) ∧
          (lenOk n → va.toNat % 16 = 0 → p.off % 16 ≠ 0 → fails (.cpyG2l f) 0x38 (at_ f.b) [1]) ∧
          (lenOk n → va.toNat % 16 = 0 → p.off % 16 = 0 →
            goes s g (.cpyG2l f) f (some (p, n)) false [{ src := .glob va, dst := p.at, len := n }] [] [globClaim va n false, p.claim n true])) ∧
      (Issuing s (.cpyL2g f) g →
        let va := r.src64 0 false f.b
        (place f.a n = none → fails (.cpyL2g f) 0x39 (at_ f.a) []) ∧
        ∀ p, place f.a n = some p →
          (¬(lenOk n ∧ p.off % 16 = 0) → fails (.cpyL2g f) 0x38 (at_ f.a) [1]) ∧
          (lenOk n → p.off % 16 = 0 → va.toNat % 16 ≠ 0 → fails (.cpyL2g f) 0x38 va [1]) ∧
          (lenOk n → va.toNat % 16 = 0 → p.off % 16 = 0 →
            goes s g (.cpyL2g f) f none true [{ src := p.at, dst := .glob va, len := n }] (s.sealOf p n) [p.claim n false, globClaim va n true])) ∧
      (Issuing s (.cpyL2l f) g →
        (place f.a n = none → fails (.cpyL2l f) 0x39 (at_ f.a) []) ∧
        ∀ p, place f.a n = some p →
          (place f.b n = none → fails (.cpyL2l f) 0x39 (at_ f.b) []) ∧
          ∀ q, place f.b n = some q →
            let apart := p.core ≠ q.core ∨ p.team ≠ q.team ∨ overlaps p.off n q.off n = false
            (¬(lenOk n ∧ p.off % 16 = 0 ∧ apart) → fails (.cpyL2l f) 0x38 (at_ f.a) [1]) ∧
            (lenOk n → p.off % 16 = 0 → apart → q.off % 16 ≠ 0 → fails (.cpyL2l f) 0x38 (at_ f.b) [1]) ∧
            (lenOk n → p.off % 16 = 0 → q.off % 16 = 0 → apart →
              goes s g (.cpyL2l f) f (some (q, n)) false [{ src := p.at, dst := q.at, len := n }] (s.sealOf p n) [p.claim n false, q.claim n true])))

/-- R233, R349: a gather or scatter reads its descriptor at issue, once no earlier operation still writes it, and its indices when it starts: row
k joins base + IDX[k] × STRIDE with the local rows one behind another; a field outside its limits is copy trap cause 2.  Descriptor and indices
lie here in no window. -/
def Obligations.GatherIssue : Prop :=
  ∀ (f : FCpy) s g scatter, FreshIds s → s.cur.mask = allLanes → g.liveMask = allLanes →
    let i : Instr := if scatter then .cpys f else .cpyg f
    Issuing s i g →
    let x := gangOf s g .always i.cls
    let k := s.core s.cur.core
    let base := x.grp.src64 0 false (if scatter then f.b else f.a)
    let loc := x.grp.src32 0 (if scatter then f.a else f.b)
    let c := x.grp.src32 0 f.c
    let plain := fun (p : Place) => ((s.team? p.core p.team).map (·.windows)) = some []
    let fails := fun (code : Nat) (a : Word64) (ws : List Word64) => ∃ t, exec i s = .next t ∧ Trapped s t g code a ws
    (s.place? s.cur.core g.team c 16 = none → fails 0x39 (c.setWidth 64) []) ∧
    ∀ d, s.place? s.cur.core g.team c 16 = some d → (s.readBlocked d 16 = true → exec i s = .next s) ∧ (s.readBlocked d 16 = false → plain d →
      let w := fun j => leNat ((List.range 4).map fun b => localByte s d.core d.team (d.off + 4 * j + b))
      let n := w 1
      let len := w 2
      let bad := c.toNat % 16 ≠ 0 ∨ w 0 % 4 ≠ 0 ∨ n = 0 ∨ 4096 < n ∨ len % 16 ≠ 0 ∨ len = 0 ∨ 4096 < len ∨ w 3 % 16 ≠ 0
      (s.place? s.cur.core g.team loc (n * len) = none → fails 0x39 (loc.setWidth 64) []) ∧
      ∀ p, s.place? s.cur.core g.team loc (n * len) = some p →
      (s.place? s.cur.core g.team (BitVec.ofNat 32 (w 0)) (4 * n) = none → fails 0x39 (BitVec.ofNat 64 (w 0)) []) ∧
      ∀ q, s.place? s.cur.core g.team (BitVec.ofNat 32 (w 0)) (4 * n) = some q →
        let room := k.copies < 32 ∧ k.tagRoom g.team f.tag = true ∧ k.locks.length + 3 ≤ 64
        let clear := fun bar => scatter = true ∧ bar = none ∨ scatter = false ∧ s.copyBar x p f.bar = .ok bar ∧ s.sealed p (n * len) = false
        (bad → fails 0x38 (c.setWidth 64) [2]) ∧
        (¬bad → p.off % 16 ≠ 0 → fails 0x38 (loc.setWidth 64) [2]) ∧
        (¬bad → p.off % 16 = 0 → base.toNat % 16 ≠ 0 → fails 0x38 base [1]) ∧
        (∀ bar, ¬bad → p.off % 16 = 0 → base.toNat % 16 = 0 → clear bar → ¬room → exec i s = .next (x.block s)) ∧
        ∀ bar u, ¬bad → p.off % 16 = 0 → base.toNat % 16 = 0 → plain q → clear bar → room → s.leaveIdem x scatter = (u, true) →
          ∃ t o y, exec i s = .next t ∧ InFlightLocal s u t g o ∧ OpOf x o ∧ o.id = u.fresh ∧ o.lanes = allLanes ∧ o.tag = f.tag.map (·.val) ∧
            o.kind = .copy y ∧ y.bar = bar ∧ y.row = 0 ∧ y.off = 0 ∧ y.stopped = false ∧
            (t.core s.cur.core).locks = (u.core s.cur.core).locks ++
              [d.claim 16 false, q.claim (4 * n) false, p.claim (n * len) (!scatter)].map (fun c =>
                { op := o.id, slot := s.cur.slot, space := c.space, ctx := g.ctx, lo := c.lo, hi := c.hi, write := c.write }) ∧
            (o.started = true → y.gather = none ∧ y.rows = (List.range n).map fun r =>
              let idx := leNat ((List.range 4).map fun b => localByte s q.core q.team (q.off + 4 * r + b))
              let far : End := .glob (base + BitVec.ofNat 64 (idx * w 3))
              let near : End := .loc p.core p.team (p.off + r * len)
              if scatter then { src := near, dst := far, len := len } else { src := far, dst := near, len := len }))

/-- R171, R200, R234, R235, R348: a copy at work.  It reaches the pages at which it stands, or stops with the trap of the page; a piece is read once and
performed once, counted on its barrier, and the pointer moves on; once every byte is read its read locks end; once every byte is performed, no
line that it wrote is pinned, and device time has passed its latest GWCT, it completes: its locks end, and its READY bit is set. -/
def Obligations.CopyAtWork : Prop :=
  ∀ s core o y, (s.core core).op? o.id = some o → o.kind = .copy y →
    (o.started = true → s.copyHalted o y = false → y.done = false → ¬(y.srcPage.isSome = true ∧ y.dstPage.isSome = true) →
      (∀ u v a b, s.reachPage o y.src false = .ok (u, a) → u.reachPage o y.dst true = .ok (v, b) →
        ∃ t, exec (.copyPageReach core o.id) s = .next t ∧ { o with kind := .copy { y with srcPage := a, dstPage := b } } ∈ (t.core core).ops ∧
          (∀ l, t.group? core l = v.group? core l) ∧ ∀ a, t.stored a = v.stored a) ∧
      (∀ e g, s.reachPage o y.src false = .error e → s.group? core o.slot = some g → g.hold = .none →
        ∃ t h, exec (.copyPageReach core o.id) s = .next t ∧ { o with kind := .copy { y with stopped := true } } ∈ (t.core core).ops ∧
          t.group? core o.slot = some h ∧ h.hold = .trapped ∧
          h.trap = { code := e.1, addr := e.2.1, pc := o.pc, words := [e.2.2, BitVec.ofNat 64 (2 ^ 63 + o.tag.getD 0)] } ∧
          h.threads = g.threads ∧ SameRegs g h ∧ OnlyCore s t core)) ∧
    (∀ n b u bytes v, o.started = true → s.copyHalted o y = false → y.done = false → y.srcPage.isSome = true → y.dstPage.isSome = true →
      0 < n → n ≤ y.piece → (∀ r ∈ s.linkReqs, ¬(r.op = o.id ∧ r.core = core)) → s.endTag y.src y.srcPage n = none →
      s.endTag y.dst y.dstPage n = none → (∀ va, y.src = .glob va → isLink (endDpa y.srcPage y.src) = false) →
      (∀ va, y.dst = .glob va → isLink (endDpa y.dstPage y.dst) = false) → s.endPoison y.src y.srcPage n = false →
      s.copyRead (.copyByteDelivery core o.id n) core o y n = (u, some bytes) →
      u.copyWrite (.copyByteDelivery core o.id n) core o y bytes = (v, true) → y.bar = b →
      ∀ p z, (v.core core).op? o.id = some p → p.kind = .copy z →
      (b = none → ∃ t, exec (.copyByteDelivery core o.id n) s = .next t ∧ (∀ a, t.stored a = v.stored a) ∧
        (∀ c k off, localByte t c k off = localByte v c k off) ∧ { p with kind := .copy (z.advance bytes.length) } ∈ (t.core core).ops) ∧
      (∀ c k j bar, b = some (c, k, j) → bar = v.bar { core := c, team := k, obj := j } → (v.team? c k).isSome = true →
        (-(2 ^ 31) ≤ bar.bytes - bytes.length →
          ∃ t, exec (.copyByteDelivery core o.id n) s = .next t ∧ t.bar { core := c, team := k, obj := j } = { bar with bytes := bar.bytes - bytes.length } ∧
            (∀ a, t.stored a = v.stored a) ∧ (∀ c' k' off, localByte t c' k' off = localByte v c' k' off) ∧
            { p with kind := .copy (z.advance bytes.length) } ∈ (t.core core).ops) ∧
        (bar.bytes - bytes.length < -(2 ^ 31) → ∀ g, v.group? core o.slot = some g → g.hold = .none →
          ∃ t h, exec (.copyByteDelivery core o.id n) s = .next t ∧ t.group? core o.slot = some h ∧ h.hold = .trapped ∧ h.trap.code = 0x21))) ∧
    (∀ c k off n, y.src = .loc c k off → ((s.team? c k).map (·.windows)) = some [] →
      s.copyRead (.copyByteDelivery core o.id n) core o y n = (s, some ((List.range n).map fun i => localByte s c k (off + i)))) ∧
    (∀ c k off bytes, y.dst = .loc c k off → (∃ tm, s.team? c k = some tm) → ∃ u, s.copyWrite (.copyByteDelivery core o.id bytes.length) core o y bytes =
        (u, true) ∧ ∀ c' k' i, localByte u c' k' i =
          if c' = c ∧ k' = k ∧ off ≤ i ∧ i < off + bytes.length then bytes.getD (i - off) 0 else localByte s c' k' i) ∧
    (∀ va bytes u gw, y.dst = .glob va →
      let dpa := endDpa y.dstPage y.dst
      y.dropped ≠ some (lineOf dpa) →
      s.homeWrite (.copyByteDelivery core o.id bytes.length) dpa bytes.length (fun i => bytes[i]?) none = (u, some gw) →
      ∃ v p, s.copyWrite (.copyByteDelivery core o.id bytes.length) core o y bytes = (v, true) ∧ (∀ a, v.stored a = u.stored a) ∧
        p ∈ (v.core core).ops ∧ p.id = o.id ∧ p.gwct = max o.gwct (acrossDie core dpa gw) ∧
        p.onPins = if u.pinned (lineOf dpa) then lineOf dpa :: o.onPins else o.onPins) ∧
    (y.done = true → o.consumed = false → y.sealedSrc = [] → ∃ t, exec (.operandsConsumed core o.id) s = .next t ∧
      { o with consumed := true } ∈ (t.core core).ops ∧ (t.core core).locks = (s.core core).locks.filter (fun l => !(l.op == o.id && !l.write)) ∧
      OnlyCore s t core) ∧
    (y.done = true → s.pinsLeft o = true ∨ (o.onPins = [] ∧ s.ns < o.gwct) → exec (.copyComplete core o.id) s = .next s) ∧
    (y.done = true → o.onPins ≠ [] → s.pinsLeft o = false → ∃ t, exec (.copyComplete core o.id) s = .next t ∧
      { o with onPins := [], gwct := max o.gwct s.ns } ∈ (t.core core).ops ∧ OnlyCore s t core) ∧
    (∀ tm, y.done = true → o.onPins = [] → o.gwct ≤ s.ns → y.sealedSrc = [] → s.team? core o.team = some tm →
      ∃ t tm', exec (.copyComplete core o.id) s = .next t ∧ (t.core core).ops = (s.core core).ops.filter (fun p => p.id != o.id) ∧
        (t.core core).locks = (s.core core).locks.filter (fun l => l.op != o.id) ∧ t.team? core o.team = some tm' ∧
        tm' = { tm with justSet := tm'.justSet, ready := match o.tag with
          | some n => tm.ready ||| BitVec.twoPow 64 n
          | none => tm.ready } ∧ OnlyCore s t core) ∧
    (o.started = false → (s.core core).engineBlocked o.id = false → y.gather = none → ∃ t, exec (.engineLockWaitEnd core o.id) s = .next t ∧
      { o with started := true } ∈ (t.core core).ops ∧ (t.core core).groups = (s.core core).groups ∧ OnlyCore s t core)

/-- R236, R350, R351: `TAGWAIT` holds its gang until its condition stands, and then gives READY AND m, and with m = 0 gives 0 at once; `TAGFIRST` gives the lowest set bit of it, or 64;
`TAGCLR` clears the bits of m, but for those that a completion of this clock has set. -/
def Obligations.Tags : Prop :=
  (∀ (f : FSub) s g all, FreshIds s →
    let i : Instr := if all then .tagwaitAll f else .tagwaitAny f
    Issuing s i g →
    let x := gangOf s g f.guard i.cls
    let m := x.grp.src64 (lowLane x.m) false f.a
    (x.m = 0 → ∃ t, exec i s = .next t ∧ OnlyMovedOn s t g) ∧
    (x.m ≠ 0 → m = 0 → ∃ t, exec i s = .next t ∧ WroteOnly s t g x.m false true false f.d fun _ => 0) ∧
    (x.m ≠ 0 → m ≠ 0 → ∃ t h o, exec i s = .next t ∧ t.group? s.cur.core s.cur.slot = some h ∧ o ∈ (t.core s.cur.core).ops ∧ OpOf x o ∧ o.id = s.fresh ∧
      o.lanes = x.m ∧ o.kind = .tagwait all m ∧ Pends o f.d 2 false ∧ SameRegs g h ∧
      (∀ j < 64, has s.cur.mask j = true → (h.thread j).stall = some o.id ∧ ((g.thread j).st = .ready → (h.thread j).pc = g.nextPc (g.thread j))) ∧
      (∀ j < 64, has s.cur.mask j = false → SameThread g h j) ∧ OnlyCore s t s.cur.core)) ∧
  (∀ s core o all m tm, Flying s core o → o.kind = .tagwait all m → s.team? core o.team = some tm →
    let got := tm.ready &&& m
    let ready := if all then got = m else got ≠ 0
    (ready → ∃ t, exec (.operationComplete core o.id) s = .next t ∧ Delivered s t core o fun i => if i < 64 then got.setWidth 128 else 0) ∧
    (¬ready → exec (.operationComplete core o.id) s = .next s)) ∧
  (∀ (f : FSub) s g tm, Issuing s (.tagfirst f) g → s.team? s.cur.core g.team = some tm →
    let x := gangOf s g f.guard (Instr.tagfirst f).cls
    let got := tm.ready &&& x.grp.src64 (lowLane x.m) false f.a
    ∃ t h, exec (.tagfirst f) s = .next t ∧ t.group? s.cur.core s.cur.slot = some h ∧
      RegsAfter g h x.m false false false f.d (fun _ => BitVec.ofNat 64 ((lanesOf got).headD 64)) ∧ MovedOn g h s.cur.mask ∧
      FlagsStand g h s.cur.mask ∧ SameGroup g { h with recent := g.recent } ∧ OnlyGroup s t s.cur.core s.cur.slot []) ∧
  ∀ (f : FSub) s g tm, Issuing s (.tagclr f) g → s.team? s.cur.core g.team = some tm →
    let x := gangOf s g f.guard (Instr.tagclr f).cls
    ∃ t, exec (.tagclr f) s = .next t ∧ MovedOnly s s t g ∧
      t.team? s.cur.core g.team = some { tm with ready := if x.m = 0 then tm.ready
        else tm.ready &&& (~~~x.grp.src64 (lowLane x.m) false f.a ||| tm.justSet) }

/-! ### The matrix engine (R112–R114, R352–R363) -/

/-- R47, R231, R352–R363: a matrix instruction of a whole group that passes the checks of R354, where the lock table and its tag have room, goes
in flight with what it is to do and its claims; without room its gang waits, and counts as Waiting; a tile that the team has not allocated is cause 1 of the tile trap, and a shape word, stride or
descriptor outside its limits cause 2.  An `MMA` with a global operand is stated where an earlier operation keeps the engine busy. -/
def Obligations.MatrixIssue : Prop :=
  let ready := fun (s : State) (g : Group) (n : Nat) (tag : Option (Fin 64)) =>
    (s.core s.cur.core).locks.length + n ≤ 64 ∧ (s.core s.cur.core).tagRoom g.team tag = true
  let goes := fun (s u : State) (g : Group) (i : Instr) (kind : OpKind) (tag : Option (Fin 64)) (claims : List Claim) (d : Spec) (consumed : Bool) =>
    let x := gangOf s g .always i.cls
    (¬ready u g claims.length tag → exec i s = .next (x.block u)) ∧
    (ready u g claims.length tag → ∃ t o, exec i s = .next t ∧ InFlightLocal s u t g o ∧ OpOf x o ∧ o.id = u.fresh ∧ o.lanes = allLanes ∧
      o.kind = kind ∧ o.tag = tag.map (·.val) ∧ Pends o d 1 false ∧ (consumed = true → o.consumed = true) ∧
      (consumed = false → (t.core s.cur.core).locks = (u.core s.cur.core).locks ++ claims.map (fun c =>
        { op := o.id, slot := s.cur.slot, space := c.space, ctx := g.ctx, lo := c.lo, hi := c.hi, write := c.write })) ∧
      (∀ n tm, tag = some n → u.team? s.cur.core g.team = some tm →
        ((t.team? s.cur.core g.team).map (·.ready)) = some (tm.ready &&& ~~~(BitVec.twoPow 64 n.val))))
  let fails := fun (s : State) (g : Group) (i : Instr) (code : Nat) (a : Word64) (ws : List Word64) =>
    ∃ t, exec i s = .next t ∧ Trapped s t g code a ws
  ∀ s g tm, FreshIds s → s.team? s.cur.core g.team = some tm →
    let r := g.shown
    (∀ i, (∃ f, i = .mmaF16 f ∨ i = .mmaBf16 f ∨ i = .mmaVt8 f ∨ i = .mmaS8 f ∨ i = .mmaN8 f) ∨ (∃ f, i = .mzero f ∨ i = .malloc f ∨ i = .mfree f) ∨
        (∃ f, i = .mldt f ∨ i = .mstt f ∨ i = .mdrain f) → Issuing s i g → ¬(s.cur.mask = allLanes ∧ g.liveMask = allLanes) →
      fails s g i 0x06 0 [s.cur.mask]) ∧
    (∀ (f : FMma), Issuing s (.mmas f) g →
      let quad := fun k => 4 * ((r.src64 (lowLane s.cur.mask) false f.c).toNat / 2 ^ k % 64) + 3 < g.quota
      (¬(quad 47 ∧ quad 53) → fails s g (.mmas f) 0x01 0 [s.cur.word]) ∧
      (quad 47 → quad 53 → ¬(s.cur.mask = allLanes ∧ g.liveMask = allLanes) → fails s g (.mmas f) 0x06 0 [s.cur.mask])) ∧
    (s.cur.mask = allLanes → g.liveMask = allLanes →
      (∀ (f : FMma) i ty, (i, ty) ∈ [(.mmaF16 f, .f16), (.mmaBf16 f, .bf16), (.mmaVt8 f, .vt8), (.mmaS8 f, .s8), (.mmaN8 f, .n8), (.mmas f, .e2m1)] →
        Issuing s i g →
        let x := gangOf s g .always i.cls
        let sh? := shapeOf (r.src64 0 false f.c) ty
        let quad := fun k => 4 * ((r.src64 0 false f.c).toNat / 2 ^ k % 64) + 3 < g.quota
        ((ty ≠ .e2m1 ∨ (quad 47 ∧ quad 53)) →
          (tm.owns f.td.val = false ∨ tm.owns f.ts.val = false → fails s g i 0x44 0 [1]) ∧
          (tm.owns f.td.val = true → tm.owns f.ts.val = true → sh? = none → fails s g i 0x44 0 [2]) ∧
          ∀ sh, tm.owns f.td.val = true → tm.owns f.ts.val = true → sh? = some sh →
            let len := kBytes ty sh.kv
            let na := extent sh.mr sh.sa len
            let nb := extent sh.nc sh.sb len
            (s.base? x f.ga f.a na = none → fails s g i 0x39 ((r.src32 0 f.a).setWidth 64) []) ∧
            ∀ a, s.base? x f.ga f.a na = some a →
              (s.base? x f.gb f.b nb = none → fails s g i 0x39 ((r.src32 0 f.b).setWidth 64) []) ∧
              ∀ b, s.base? x f.gb f.b nb = some b →
                let ma := a.src sh.sa sh.mr
                let mb := b.src sh.sb sh.nc
                (a.aligned = false → fails s g i 0x32 ma.base []) ∧
                (a.aligned = true → b.aligned = false → fails s g i 0x32 mb.base []) ∧
                (a.aligned = true → b.aligned = true →
                  (∀ e, s.spots s.cur.core g.ctx .load (ma.pages len ++ mb.pages len) = .error e → fails s g i e.1 e.2.1 e.2.2) ∧
                  ∀ u l, s.spots s.cur.core g.ctx .load (ma.pages len ++ mb.pages len) = .ok (u, l) →
                    (∀ e, pageStop u l false = some e → fails s g i e.1 e.2.1 e.2.2) ∧
                    (pageStop u l false = none → (f.ga = false ∧ f.gb = false) ∨ (∃ p ∈ (s.core s.cur.core).ops, p.kind.matrix = true) →
                      goes s u g i (.mma ty f.td.val f.ts.val ma mb sh.kv sh.nc sh.mr f.strict f.had
                        ((List.range 64).map fun j => if ty = .e2m1 then r.mainAt (4 * sh.asq + f.sel.val) j else 0)
                        ((List.range 64).map fun j => if ty = .e2m1 then r.mainAt (4 * sh.bsq + f.sel.val) j else 0))
                        none [a.claim na false, b.claim nb false] .zero false)))) ∧
      (∀ f : FEng,
        (Issuing s (.mzero f) g → (tm.owns f.td.val = false → fails s g (.mzero f) 0x44 0 [1]) ∧
          (tm.owns f.td.val = true → goes s s g (.mzero f) (.mzero f.td.val) none [] .zero true)) ∧
        (Issuing s (.malloc f) g → let n := (r.src32 0 f.b).toNat
          (n = 0 ∨ 32 < n → fails s g (.malloc f) 0x44 0 [2]) ∧
          (0 < n → n ≤ 32 → goes s s g (.malloc f) (.malloc 0 n) none [] f.a true)) ∧
        (Issuing s (.mfree f) g → let m := r.src32 0 f.b
          (m &&& ~~~tm.names ≠ 0 → fails s g (.mfree f) 0x44 0 [1]) ∧
          (m &&& ~~~tm.names = 0 → goes s s g (.mfree f) (.mfree m) none [] .zero true ∧
            (ready s g 0 none → ∃ t, exec (.mfree f) s = .next t ∧ ((t.team? s.cur.core g.team).map (·.names)) = some (tm.names &&& ~~~m))))) ∧
      ∀ f : FTile,
        let size := tileSize f.ty
        let st? := strideOf (r.src32 0 f.b).toNat size
        let rows := fun (i : Instr) (ok : Nat → Nat → Place → Prop) =>
          (st? = none → fails s g i 0x44 0 [2]) ∧
          ∀ st, st? = some st →
            let n := extent 64 st (64 * size)
            let a : Word64 := (r.src32 0 f.a).setWidth 64
            (s.place? s.cur.core g.team (r.src32 0 f.a) n = none → fails s g i 0x39 a []) ∧
            ∀ p, s.place? s.cur.core g.team (r.src32 0 f.a) n = some p →
              (p.off % 16 ≠ 0 → fails s g i 0x32 a []) ∧ (p.off % 16 = 0 → ok st n p)
        (Issuing s (.mldt f) g → (tm.owns f.td.val = false → fails s g (.mldt f) 0x44 0 [1]) ∧
          (tm.owns f.td.val = true → rows (.mldt f) fun st n p =>
            goes s s g (.mldt f) (.mldt f.ty f.td.val ((Base.loc p).src st 64)) none [p.claim n false] .zero false)) ∧
        (Issuing s (.mstt f) g → (tm.owns f.ts.val = false → fails s g (.mstt f) 0x44 0 [1]) ∧
          (tm.owns f.ts.val = true → rows (.mstt f) fun st n p =>
            (s.sealed p n = true → fails s g (.mstt f) 0x34 (BitVec.ofNat 64 p.off) []) ∧
            (s.sealed p n = false →
              goes s s g (.mstt f) (.mstt f.ty f.ts.val ((Base.loc p).src st 64)) f.tag [p.claim n true] .zero false))) ∧
        (Issuing s (.mdrain f) g → (tm.owns f.ts.val = false → fails s g (.mdrain f) 0x44 0 [1]) ∧
          let x := gangOf s g .always (Instr.mdrain f).cls
          ∀ d, tm.owns f.ts.val = true → s.place? s.cur.core g.team (r.src32 0 f.c) 48 = some d → d.off % 16 = 0 →
            (s.readBlocked d 48 = true → exec (.mdrain f) s = .next s) ∧
            (s.readBlocked d 48 = false → ((s.team? d.core d.team).map (·.windows)) = some [] →
            let w := fun j => leNat ((List.range 4).map fun b => localByte s d.core d.team (d.off + 4 * j + b))
            (drainOf f.ty w = none → fails s g (.mdrain f) 0x44 0 [2]) ∧
            ∀ q a rp u v l, drainOf f.ty w = some q →
              let len := q.nc * (fwidth f.ty / 8)
              let n := extent q.nr q.dstride len
              let rn := extent q.nr q.rstride len
              let dst := a.src q.dstride q.nr
              s.base? x f.g f.a n = some a →
              (q.res = none ∧ rp = none ∨ ∃ b p, q.res = some b ∧ s.place? s.cur.core g.team (BitVec.ofNat 32 b) rn = some p ∧ rp = some p) →
              (a.aligned = false → fails s g (.mdrain f) 0x32 dst.base []) ∧
              (a.aligned = true → s.spots s.cur.core g.ctx .store (dst.pages len) = .ok (u, l) →
                (∀ e, pageStop u l true = some e → fails s g (.mdrain f) e.1 e.2.1 e.2.2) ∧
                (∀ p, pageStop u l true = none → a = .loc p → u.sealed p n = true → fails s g (.mdrain f) 0x34 dst.base []) ∧
                (pageStop u l true = none → (∀ p, a = .loc p → u.sealed p n = false) → u.leaveIdem x dst.glob = (v, true) →
                  goes s v g (.mdrain f) (.mdrain f.ty f.ts.val dst (rp.map fun p => (Base.loc p).src q.rstride q.nr) (BitVec.ofNat 32 (w 3))
                    (BitVec.ofNat 32 (w 4)) (BitVec.ofNat 32 (w 5)) (BitVec.ofNat 32 (w 6)) (BitVec.ofNat 32 (w 7)) q.nr q.nc f.z) f.tag
                    ([d.claim 48 false, a.claim n true] ++ (rp.map fun p => p.claim rn false).toList) .zero false)))))

/-- R355, R357, R358, R112–R114: the words that an `MMA` leaves.  An integer element is the accumulator plus the exact sum of its products, modulo
2^32; any other is the accumulator plus the exact sum of the products, rounded once; an edge or skipped product is +0. -/
def Obligations.MatrixProduct : Prop :=
  ∀ (ty : Ty) (ts : Tile) (held : List Word32) kv nc mr had (scaleA scaleB : List Word32), ∀ i < 64, ∀ j < 64,
    let skips := fun k (n : Nat) => has (held.getD (k + 1) 0 ++ held.getD k 0 : Word64) n
    let live := i < mr ∧ j < nc ∧ skips 0 i = false ∧ skips 2 j = false
    let ra := (held.drop (4 + 16 * i)).take 16
    let rb := (held.drop (1028 + 16 * j)).take 16
    let acc := ts.at i j
    let out := (mmaTile ty ts held kv nc mr had scaleA scaleB).getD (64 * i + j) 0
    ((ty = .s8 ∨ ty = .n8) → live → kv ≤ 64 →
      out = BitVec.ofInt 32 (acc.toInt + ((List.range kv).map fun k =>
        let byte := fun (r : List Word32) => ((r.getD (k / 4) 0) >>> (8 * (k % 4))).setWidth 8
        let v := fun r => if ty = .s8 then (byte r).toInt else ((byte r).toNat : Int)
        v ra * v rb).sum)) ∧
    ((ty = .s8 ∨ ty = .n8) → ¬live → out = acc) ∧
    ((ty = .f16 ∨ ty = .bf16 ∨ ty = .vt8 ∨ ty = .e2m1) → live → kv = kMax ty →
      out = BitVec.ofNat 32 (matrixStep acc.toNat ((List.range kv).map fun k =>
        (elemF ty (scaleA.getD i 0) ra k).mul (elemF ty (scaleB.getD j 0) rb k)) (hadShift had))) ∧
    ((ty = .f16 ∨ ty = .bf16 ∨ ty = .vt8 ∨ ty = .e2m1) → ¬live → ∃ z, z ∈ [[FVal.fin false 0 0], [FVal.fin false 0 0, FVal.fin false 0 0]] ∧
      out = BitVec.ofNat 32 (matrixStep acc.toNat z (hadShift had))) ∧
    ∀ prods n m e (shift a : Nat), exactSum .rn prods = .fin n m e → m ≠ 0 →
      matrixStep a prods shift = roundTo .f32 .rn (exactSum .rn [decodeF .f32 a, .fin n m (e - shift)])

/-- R353, R357–R363: the engine's operations at their points, in issue order: what each reads, what it writes, and its completion. -/
def Obligations.MatrixAtWork : Prop :=
  ∀ (s : State) core (o : Op) tm, (s.core core).op? o.id = some o → s.team? core o.team = some tm → o.started = true →
    (s.core core).matrixFirst o.id = true →
    let done := fun (t : State) => (t.core core).ops = (s.core core).ops.filter (fun p => p.id != o.id) ∧
      (t.core core).locks = (s.core core).locks.filter (fun l => l.op != o.id)
    let tile := fun (t : State) n => (t.team? core o.team).map fun tm => (tm.tile n).words
    let kept := fun (t : State) n => ∀ k, k ≠ n → ((t.team? core o.team).bind fun tm => get? tm.tiles k) = get? tm.tiles k
    let finish := Instr.operationComplete core o.id
    (∀ ty td ts a b kv nc mr strict had sa sb, o.kind = .mma ty td ts a b kv nc mr strict had sa sb → o.consumed = true → o.poison = none →
      ∃ t, exec finish s = .next t ∧ tile t td = some (mmaTile ty (tm.tile ts) o.held kv nc mr had sa sb) ∧ kept t td ∧ done t ∧ OnlyCore s t core) ∧
    (∀ ty td ts a b kv nc mr strict had sa sb, o.kind = .mma ty td ts a b kv nc mr strict had sa sb → o.consumed = false →
      a.glob = false → b.glob = false → a.rows ≤ 64 → b.rows ≤ 64 → kBytes ty kv ≤ 64 → o.held.length = 2052 →
      a.base.toNat + 64 * a.stride < 2 ^ 64 → b.base.toNat + 64 * b.stride < 2 ^ 64 →
      ((s.team? a.core a.team).map (·.windows)) = some [] → ((s.team? b.core b.team).map (·.windows)) = some [] →
      let word := fun (m : MatSrc) i j => (List.range 4).map fun k =>
        if i < m.rows ∧ 4 * j + k < kBytes ty kv then localByte s m.core m.team (m.base.toNat + i * m.stride + 4 * j + k) else 0
      ∃ t p, exec (.operandsConsumed core o.id) s = .next t ∧ p ∈ (t.core core).ops ∧ p.id = o.id ∧ p.consumed = true ∧ p.kind = o.kind ∧
        (∀ i < 64, ∀ j < 16, p.held.getD (4 + 16 * i + j) 0 = BitVec.ofNat 32 (leNat (word a i j)) ∧
          p.held.getD (1028 + 16 * i + j) 0 = BitVec.ofNat 32 (leNat (word b i j))) ∧
        (t.core core).locks = (s.core core).locks.filter fun l => !(l.op == o.id && !l.write)) ∧
    (∀ td, o.kind = .mzero td → ∃ t, exec finish s = .next t ∧ tile t td = some [] ∧ kept t td ∧ done t ∧ OnlyCore s t core) ∧
    (∀ ty td src, o.kind = .mldt ty td src → o.consumed = true → o.poison = none → o.held.length = 4096 →
      ∃ t w, exec finish s = .next t ∧ tile t td = some w ∧ kept t td ∧ done t ∧ OnlyCore s t core ∧
        ∀ i < 64, ∀ j < 64, (ty = .n32 → w.getD (64 * i + j) 0 = o.held.getD (64 * i + j) 0) ∧
          (ty ≠ .n32 → w.getD (64 * i + j) 0 = BitVec.ofNat 32 (roundTo .f32 .rn (decodeF ty
            ((o.held.getD (64 * i + j / 2) 0 >>> (16 * (j % 2))).toNat % 2 ^ 16))))) ∧
    (∀ ty ts dst, o.kind = .mstt ty ts dst → o.consumed = true → o.poison = none → o.done = 0 → dst.glob = false → (tm.tile ts).ident = 0 →
      (ty = .n32 ∨ ty = .f16 ∨ ty = .bf16) → dst.base.toNat + 64 * dst.stride < 2 ^ 64 → 64 * tileSize ty ≤ dst.stride → (∃ q, s.team? dst.core dst.team = some q) →
      ∃ t, exec finish s = .next t ∧ done t ∧ (∀ a, t.stored a = s.stored a) ∧
        ∀ i < 64, ∀ j < 64, ∀ k < tileSize ty, localByte t dst.core dst.team (dst.base.toNat + i * dst.stride + tileSize ty * j + k) =
          BitVec.ofNat 8 ((if ty = .n32 then (o.held.getD (64 * i + j) 0).toNat
            else roundTo ty .rn (decodeF .f32 (o.held.getD (64 * i + j) 0).toNat)) / 256 ^ k)) ∧
    (∀ ty ts dst res scale seed thresh row0 col0 nr nc z, o.kind = .mdrain ty ts dst res scale seed thresh row0 col0 nr nc z → o.consumed = true →
      o.poison = none → o.done = 0 → o.onPins = [] → o.gwct ≤ s.ns → dst.glob = false → (tm.tile ts).ident = 0 → nr ≤ 64 → nc ≤ 64 →
      dst.base.toNat + 64 * dst.stride < 2 ^ 64 → nc * (fwidth ty / 8) ≤ dst.stride → fwidth ty ≤ 32 → (∃ q, s.team? dst.core dst.team = some q) →
      let size := fwidth ty / 8
      let row := fun (i : Nat) => row0 + BitVec.ofNat 32 i
      let col := fun (j : Nat) => col0 + BitVec.ofNat 32 j
      ∃ t, exec finish s = .next t ∧ done t ∧ (∀ a, t.stored a = s.stored a) ∧
        ∀ i < nr, ∀ j < nc, ∀ k < size, localByte t dst.core dst.team (dst.base.toNat + i * dst.stride + size * j + k) =
          BitVec.ofNat 8 (drainElem ty (o.held.getD (64 * i + j) 0) scale
            (if res.isSome then some (resElem ((o.held.drop (4096 + 64 * i)).take 64) size j) else none)
            (decide (thresh.toNat ≤ (dropHash seed (row i) (col j)).toNat)) / 256 ^ k)) ∧
    (∀ m n, o.kind = .malloc m n → (s.group? core o.slot).isSome = true → (o.writes.map (·.reg)).Nodup →
      let names := (List.range 32).filter fun i => !tm.names.getLsbD i && !(keysOf tm.tiles).contains i
      let room := n ≤ names.length ∧ (s.core core).tilesUsed (fun q => !q.released) + n ≤ 32 ∧
        (s.core core).tilesUsed (fun q => q.ctx == o.ctx) + n ≤ (s.ctx o.ctx).tilesMax
      let mask := nameMask (names.take n)
      (¬room → ∃ t, exec finish s = .next t ∧ Delivered s t core o (fun _ => 0) ∧ t.team? core o.team = some
        { tm with ready := tm.ready ||| (match o.tag with
            | some k => BitVec.twoPow 64 k
            | none => 0)
                  justSet := tm.justSet ||| (match o.tag with
            | some k => BitVec.twoPow 64 k
            | none => 0) }) ∧
      (room → ∃ t, exec finish s = .next t ∧ Delivered s t core o (fun _ => mask.setWidth 128) ∧
        ((t.team? core o.team).map (·.names)) = some (tm.names ||| mask) ∧ ∀ i ∈ names.take n, tile t i = some [])) ∧
    (∀ names, o.kind = .mfree names → ∃ t, exec finish s = .next t ∧ done t ∧ OnlyCore s t core ∧
      ((t.team? core o.team).map (·.tiles)) = some (tm.tiles.filter fun q => !names.getLsbD q.1))

/-! ### System registers and the system instructions (R157, R158, R255, R267, R368–R378) -/

/-- R118, R154, R236, R372–R376, R405: `SREAD` gives the register that its offset names, and the system-register trap with cause 1 where there is
none; `SWRITE` writes `STAMP.BASE` or `STAMP.CTL`, cause 2 for any other register and cause 3 where a reserved bit is set; `CLOCK` gives device
time or the core's clocks.

R376, R377: with stamps off `STAMP` has no effect but its operation; with stamps on it stores its record at the slot that the count names, as
two `.strong.device` stores, and counts it; `STAMP.tile` sets a tile's stamp identity. -/
def Obligations.SystemRegistersAndStamps : Prop :=
  (∀ s g tm, FreshIds s → s.team? s.cur.core g.team = some tm →
    let c := s.core s.cur.core
    let cx := s.ctx g.ctx
    let cycles := ((if c.power = .gated then c.powerSince else s.ticks) - c.gatedTicks) / 10
    let limit := max 1 (8 - c.score / 16)
    let reg : Nat → Option Word64 := fun off => match off with
      | 0x040 => some (BitVec.ofNat 64 (s.ticks / 13))
      | 0x048 => some (BitVec.ofNat 64 cycles)
      | 0x100 => some (BitVec.ofNat 64 g.ctx)
      | 0x108 => some (BitVec.ofNat 64 (cx.lease * 16 + if cx.check then 1 else 0))
      | 0x110 => some (BitVec.ofNat 64 (cx.regw * 2 ^ 32 + cx.localU * 2 ^ 16 + cx.tilesMax))
      | 0x180 => some tm.pos
      | 0x188 => some (BitVec.ofNat 64 (s.cur.core * 2 ^ 16 + tm.cly * 2 ^ 12 + tm.clx * 2 ^ 8 + (tm.ngroups - 1) * 2 ^ 4 + g.idx))
      | 0x1A0 => some (BitVec.ofNat 64 (c.score * 2 ^ 24 + limit * 2 ^ 16 + c.groups.countP fun g => g.2.gst == .active))
      | 0x1C0 => some tm.ready
      | 0x200 => some c.lanemap
      | 0x240 => some tm.stampBase
      | 0x248 => some tm.stampCtl
      | _ => none
    let reads := fun (i : Instr) (x : Gang) (d : Spec) (off : Nat) =>
      (x.m = 0 → ∃ t, exec i s = .next t ∧ OnlyMovedOn s t g) ∧
      (x.m ≠ 0 → reg off = none → ∃ t, exec i s = .next t ∧ Trapped s t g 0x52 0 [1]) ∧
      ∀ v, x.m ≠ 0 → reg off = some v → ∃ t o, exec i s = .next t ∧ InFlightLocal s s t g o ∧ GivesAll x o d 2 (v.setWidth 128)
    let writes := fun (i : Instr) (x : Gang) (off : Nat) (v : Word64) =>
      let bad : Word64 := if off = 0x240 then 0x1F else 0x00000000FFFFFF0E
      let open_ := off = 0x240 ∨ off = 0x248
      (x.m = 0 → ∃ t, exec i s = .next t ∧ OnlyMovedOn s t g) ∧
      (x.m ≠ 0 → reg off = none → ∃ t, exec i s = .next t ∧ Trapped s t g 0x52 0 [1]) ∧
      (x.m ≠ 0 → reg off ≠ none → ¬open_ → ∃ t, exec i s = .next t ∧ Trapped s t g 0x52 0 [2]) ∧
      (x.m ≠ 0 → open_ → v &&& bad ≠ 0 → ∃ t, exec i s = .next t ∧ Trapped s t g 0x52 0 [3]) ∧
      (x.m ≠ 0 → open_ → v &&& bad = 0 → ∃ t o, exec i s = .next t ∧ InFlightLocal s s t g o ∧ OpOf x o ∧ o.kind = .simple ∧ Pends o .zero 1 false ∧
        t.team? s.cur.core g.team = some (if off = 0x240 then { tm with stampBase := v } else { tm with stampCtl := v }))
    (∀ f : FSub,
      let x := gangOf s g f.guard
      (Issuing s (.sreadA f) g → reads (.sreadA f) x f.d (x.grp.src32 (lowLane x.m) f.a).toNat) ∧
      (Issuing s (.swriteA f) g → writes (.swriteA f) x (x.grp.src32 (lowLane x.m) f.a).toNat (x.grp.src64 (lowLane x.m) false f.b))) ∧
    ∀ f : FS,
      let x := gangOf s g f.guard
      (Issuing s (.sreadS f) g → reads (.sreadS f) x f.d f.imm.toNat) ∧
      (Issuing s (.swriteS f) g → writes (.swriteS f) x f.imm.toNat (x.grp.src64 (lowLane x.m) false f.a)) ∧
      (Issuing s (.clock f) g → (x.m = 0 → ∃ t, exec (.clock f) s = .next t ∧ OnlyMovedOn s t g) ∧
        (x.m ≠ 0 → ∃ t o, exec (.clock f) s = .next t ∧ InFlightLocal s s t g o ∧
          GivesAll x o f.d 2 (BitVec.ofNat 128 (if f.mode = 0 then s.ticks / 13 else cycles))))) ∧
  (∀ (f : FS) s g tm, Issuing s (.stamp f) g → FreshIds s → s.team? s.cur.core g.team = some tm →
    let x := gangOf s g f.guard
    let v := x.grp.src64 (lowLane x.m) false f.a
    (x.m = 0 → ∃ t, exec (.stamp f) s = .next t ∧ OnlyMovedOn s t g) ∧
    (x.m ≠ 0 → f.mode = 0 → tm.stampCtl.getLsbD 0 = false → ∃ t o, exec (.stamp f) s = .next t ∧ InFlightLocal s s t g o ∧ OpOf x o ∧
      o.kind = .simple ∧ Pends o .zero 1 false) ∧
    (x.m ≠ 0 → f.mode = 0 → tm.stampCtl.getLsbD 0 = true →
      let at_ := tm.stampBase + BitVec.ofNat 64 (32 * (tm.stampCtl.toNat / 2 ^ 32 % 2 ^ (tm.stampCtl.toNat / 16 % 16 + 6)))
      (∀ e, s.spots s.cur.core g.ctx .store [(lowLane x.m, at_)] = .error e → ∃ t, exec (.stamp f) s = .next t ∧ Trapped s t g e.1 e.2.1 e.2.2) ∧
      ∀ u p, s.spots s.cur.core g.ctx .store [(lowLane x.m, at_)] = .ok (u, [p]) →
        (∀ e, pageStop u [p] true = some e → ∃ t, exec (.stamp f) s = .next t ∧ Trapped s t g e.1 e.2.1 e.2.2) ∧
        (∀ tag, pageStop u [p] true = none → u.homeBadTag p.va p.dpa 32 = some tag → g.hold = .none →
          ∃ t h, exec (.stamp f) s = .next t ∧ t.group? s.cur.core s.cur.slot = some h ∧ SameRegs g h ∧ h.hold = .trapped ∧ h.trap.code = 0x30 ∧
            h.trap.addr = at_ ∧ h.trap.words = [tag.setWidth 64] ∧ ((t.team? s.cur.core g.team).map (·.stampCtl)) =
              ((u.team? s.cur.core g.team).map (·.stampCtl))) ∧
        (∀ q g', pageStop u [p] true = none → u.homeBadTag p.va p.dpa 32 = none → u.team? s.cur.core g.team = some q → q.idem = false →
          u.group? s.cur.core s.cur.slot = some g' →
          let record := leBytes 8 u.ns ++ leBytes 1 1 ++ leBytes 1 s.cur.core ++ leBytes 1 s.cur.slot ++ leBytes 1 0 ++ leBytes 4 f.imm.toNat ++
            leBytes 8 v.toNat ++ List.replicate 8 0
          ∃ t h o k0 k1, exec (.stamp f) s = .next t ∧ t.group? s.cur.core s.cur.slot = some h ∧ SameRegs g h ∧ MovedOn g h s.cur.mask ∧
            o ∈ (t.core s.cur.core).ops ∧ OpOf x o ∧ o.kind = .writeBack 16 false ∧ (∀ a, t.stored a = u.stored a) ∧
            h.stores = g'.stores ++ ([(k0, 0), (k1, 1)].map fun (k : Nat × Nat) =>
              { id := k.1, op := o.id, lane := 64, va := at_ + BitVec.ofNat 64 (16 * k.2), dpa := p.dpa + 16 * k.2, width := 16,
                data := BitVec.ofNat 128 (leNat ((record.drop (16 * k.2)).take 16)), todo := 0xFFFF, cls := .strong, scope := .device, tag := none,
                gwct := 0, stamps := [], firm := false }) ∧
            ((t.team? s.cur.core g.team).map (·.stampCtl)) =
              some (BitVec.ofNat 64 ((q.stampCtl.toNat / 2 ^ 32 + 1) % 2 ^ 32 * 2 ^ 32 + q.stampCtl.toNat % 2 ^ 32)))) ∧
    (x.m ≠ 0 → f.mode ≠ 0 → tm.owns (v.toNat % 32) = false → ∃ t, exec (.stamp f) s = .next t ∧ Trapped s t g 0x44 0 [1]) ∧
    (x.m ≠ 0 → f.mode ≠ 0 → tm.owns (v.toNat % 32) = true → v.toNat / 32 ≠ 0 → ∃ t, exec (.stamp f) s = .next t ∧ Trapped s t g 0x44 0 [2]) ∧
    (x.m ≠ 0 → f.mode ≠ 0 → tm.owns (v.toNat % 32) = true → v.toNat / 32 = 0 → ∃ t o, exec (.stamp f) s = .next t ∧ InFlightLocal s s t g o ∧
      OpOf x o ∧ o.kind = .simple ∧ ((t.team? s.cur.core g.team).map fun q => q.tile (v.toNat % 32)) =
        some { tm.tile (v.toNat % 32) with ident := f.imm.toNat }))

/-- R156–R158: `REGQ` gives the quota and the free count as they stood; a group that gives registers back keeps those below its new quota; a
group that asks for more waits in its team's queue, and the head of the queue is granted once the pool has the words: the new registers
read 0, and its gang goes on. -/
def Obligations.QuotaRequests : Prop :=
  (∀ (f : FS) s g tm, Issuing s (.regq f) g → FreshIds s → s.team? s.cur.core g.team = some tm →
    let n := f.imm.toNat
    let x := gangOf s g .always
    let dOk := ∀ k, f.d = .main k → f.mode ≠ 0 ∨ k.val < min n g.quota
    (¬dOk → ∃ t, exec (.regq f) s = .next t ∧ Trapped s t g 0x01 0 [s.cur.word]) ∧
    (dOk → s.cur.mask ≠ g.liveMask → ∃ t, exec (.regq f) s = .next t ∧ Trapped s t g 0x06 0 [s.cur.mask]) ∧
    (dOk → s.cur.mask = g.liveMask → ¬(f.mode = 1 ∧ g.quota < n) →
      let cut := f.mode = 0 ∧ n < g.quota
      let q := if f.mode = 0 then min n g.quota else g.quota
      let v := BitVec.ofNat 64 (g.quota + tm.free * 2 ^ 16)
      ∃ t h, exec (.regq f) s = .next t ∧ t.group? s.cur.core s.cur.slot = some h ∧ h.quota = q ∧
        (∀ k < q, ∀ i < 64, h.mainAt k i = mainAfter g s.cur.mask false f.d (fun _ => v) k i) ∧
        (∀ k, ∀ i < 64, rowAt (rowOf h.q k) i = qAfter g s.cur.mask f.d (fun _ => v) k i) ∧ h.l = g.l ∧ h.k = g.k ∧
        (∀ k, s.cur.mask ≠ 0 → h.greg k = gAfter g s.cur.mask false false f.d (fun _ => v) k) ∧ MovedOn g h s.cur.mask ∧
        t.team? s.cur.core g.team = some { tm with free := if cut then tm.free + (g.quota - n) else tm.free } ∧
        (∀ l, l ≠ s.cur.slot → State.still? t s.cur.core l = State.still? s s.cur.core l) ∧ OnlyCore s t s.cur.core) ∧
    (dOk → s.cur.mask = g.liveMask → f.mode = 1 → g.quota < n →
      ∃ t h o, exec (.regq f) s = .next t ∧ t.group? s.cur.core s.cur.slot = some h ∧ o ∈ (t.core s.cur.core).ops ∧ OpOf x o ∧ o.id = s.fresh ∧
        o.kind = .regq n ∧ Pends o f.d 1 false ∧ h.quota = g.quota ∧ SameRegs g h ∧
        (∀ j < 64, has s.cur.mask j = true → (h.thread j).stall = some o.id) ∧
        t.team? s.cur.core g.team = some { tm with queue := tm.queue ++ [(s.cur.slot, n, o.id)] } ∧ OnlyCore s t s.cur.core)) ∧
  ∀ s core team tm slot n o rest g, s.team? core team = some tm → tm.queue = (slot, n, o.id) :: rest → s.group? core slot = some g → g.quota ≤ n →
    n - g.quota ≤ tm.free → (s.core core).op? o.id = some o → o.slot = slot → (o.writes.map (·.reg)).Nodup →
    (∀ w ∈ o.writes, ∀ k, w.reg = .v k → k < g.quota) →
    ∃ t h, exec (.regqGrant core team) s = .next t ∧ t.group? core slot = some h ∧ h.quota = n ∧
      (∀ w ∈ o.writes, ∀ i < 64, has w.lanes i = true → regAt h w.reg i = word128 (o.res.getD i 0) w.word) ∧
      (∀ k, g.quota ≤ k → ∀ i < 64, h.mainAt k i = 0) ∧
      (∀ k < g.quota, ∀ i < 64, (∀ w ∈ o.writes, w.reg = .v k → has w.lanes i = false) → h.mainAt k i = g.mainAt k i) ∧ h.k = g.k ∧
      (∀ i < 64, (h.thread i).pc = (g.thread i).pc ∧ (h.thread i).st = (g.thread i).st ∧
        (h.thread i).stall = if (g.thread i).stall = some o.id then none else (g.thread i).stall) ∧
      t.team? core team = some { tm with queue := rest, free := tm.free - (n - g.quota) } ∧
      (t.core core).ops.find? (fun p => p.id == o.id) = none ∧ OnlyCore s t core

/-- R209, R255, R267, R371: `SNAP` needs the grant of its context, and begins with its fence, for which its gang stalls; at the reference it is refused, with result 0, where seven
editions are held, and else seals the live edition at a time above every earlier one and at least 500 ns ahead.  `EDSTAT` gives the word of
R267 of each thread's number at its completion. -/
def Obligations.SnapAndEditionStatus : Prop :=
  (∀ (f : FS) s g, Issuing s (.snap f) g → FreshIds s →
    let x := gangOf s g f.guard
    (x.m = 0 → ∃ t, exec (.snap f) s = .next t ∧ OnlyMovedOn s t g) ∧
    (x.m ≠ 0 → (s.ctx g.ctx).grant = false → ∃ t, exec (.snap f) s = .next t ∧ Trapped s t g 0x36 0 []) ∧
    ∀ u, x.m ≠ 0 → (s.ctx g.ctx).grant = true → s.leaveIdem x true = (u, true) →
      (∀ w, u.bankSettle x = (w, false) → exec (.snap f) s = .next w) ∧
      ∀ w, u.bankSettle x = (w, true) → w.windowsOf s.cur.core g.team = [] →
        ∃ t o, exec (.snap f) s = .next t ∧ StallsBehind s w t g o ∧ OpOf x o ∧ o.id = w.fresh ∧ o.lanes = x.m ∧ o.kind = .snap 0 0 g.gwct ∧
          Pends o f.d 2 false) ∧
  (∀ s core o z target, (s.core core).op? o.id = some o → o.kind = .snap 0 z target → s.fenceDone core o false target = true →
    (7 ≤ s.editions.length → ∃ t, exec (.snapRequestAtReference core o.id) s = .next t ∧ { o with kind := .snap 1 0 0 } ∈ (t.core core).ops ∧
      t.live = s.live ∧ t.editions = s.editions ∧ OnlyCore s t core) ∧
    (s.editions.length < 7 → ∃ t p e, exec (.snapRequestAtReference core o.id) s = .next t ∧ t.live = s.live + 1 ∧ t.editions = s.editions ++ [e] ∧
      e.seq = s.live ∧ e.st = .sealing ∧ e.cut = [] ∧ e.target = s.target ∧ s.ns + 500 ≤ e.t ∧ (∀ d ∈ s.editions, d.t < e.t) ∧
      p ∈ (t.core core).ops ∧ p = { o with kind := .snap 1 e.t s.live, res := p.res } ∧ (∀ j < 64, p.res.getD j 0 = BitVec.ofNat 128 e.t) ∧
      t.mem = s.mem ∧ ∀ l, l ≠ o.slot → t.group? core l = s.group? core l)) ∧
  (∀ (f : FS) s g, Issuing s (.edstat f) g → FreshIds s →
    let x := gangOf s g f.guard
    (x.m = 0 → ∃ t, exec (.edstat f) s = .next t ∧ OnlyMovedOn s t g) ∧
    (x.m ≠ 0 → ∃ t o, exec (.edstat f) s = .next t ∧ InFlightLocal s s t g o ∧ OpOf x o ∧ o.lanes = x.m ∧ Pends o f.d 2 false ∧
      o.kind = .edstat ((lanesOf x.m).map fun j => (j, x.grp.src32 j f.a)))) ∧
  ∀ s core o asked, Flying s core o → o.kind = .edstat asked → (asked.map (·.1)).Nodup →
    ∃ t res, exec (.operationComplete core o.id) s = .next t ∧ Delivered s t core o res ∧
      ∀ p ∈ asked, p.1 < 64 →
        let n := p.2.toNat
        (n = 0 ∨ n = s.live → res p.1 = BitVec.ofNat 128 (s.live * 2 ^ 32 + 1)) ∧
        (n ≠ 0 → n ≠ s.live → (∀ e ∈ s.editions, e.seq ≠ n) → res p.1 = BitVec.ofNat 128 (n * 2 ^ 32)) ∧
        ∀ e, n ≠ 0 → n ≠ s.live → s.editions.find? (fun e => e.seq == n) = some e → ∃ w, res p.1 = BitVec.ofNat 128 w ∧
          w % 8 = (match e.st with
            | .sealing => 2
            | .sealed => 3
            | .draining => 4
            | .drained => 5
            | .failed => 6) ∧ (e.reason < 8 → w / 2 ^ 32 = n ∧ (w / 2 ^ 7 % 2 = 1 ↔ e.lost = true) ∧ (w / 2 ^ 6 % 2 = 1 ↔ e.views ≠ []))

/-- R128, R369, R378: `LAUNCH` stores a NEXT of 0 in each barge and begins its fence, for which its gang stalls; each step then swaps a barge into its canal record, the old
value being the thread's result, and links the barge before it.  `SIGNAL` begins its fence; sent, and accepted by the host die, it posts its
event, which carries its number and its value. -/
def Obligations.LaunchAndSignal : Prop :=
  (∀ (f : FSub) s g, Issuing s (.launch f) g → FreshIds s →
    let x := gangOf s g f.guard
    let lanes := lanesOf x.m
    let canal := fun j => x.grp.src64 j false f.a
    let barge := fun j => x.grp.src64 j false f.b
    let all := lanes.flatMap fun j => [(j, canal j), (j, barge j)]
    (x.m = 0 → ∃ t, exec (.launch f) s = .next t ∧ OnlyMovedOn s t g) ∧
    (∀ a, x.m ≠ 0 → all.find? (fun a => a.2.toNat % 128 != 0) = some a → ∃ t, exec (.launch f) s = .next t ∧ Trapped s t g 0x32 a.2 []) ∧
    ∀ c u spots, x.m ≠ 0 → (∀ a ∈ all, a.2.toNat % 128 = 0) →
      s.globalCheck x { n := 8, need := .store, host := false, link := false, access := true } all = .ok (c, spots) →
      c.leaveIdem x true = (u, true) → (∀ w, u.bankSettle x = (w, false) → exec (.launch f) s = .next w) ∧
      ∀ w tm, u.bankSettle x = (w, true) → w.team? s.cur.core g.team = some tm → tm.idem = false → tm.windows = [] →
        (∀ p ∈ spots, w.badTag x false p = none) →
        ∃ t h o, exec (.launch f) s = .next t ∧ StallsBehind s w t g o ∧ t.group? s.cur.core s.cur.slot = some h ∧ OpOf x o ∧ o.id = w.fresh ∧
          o.lanes = x.m ∧ Pends o f.d 2 false ∧ o.kind = .launch (lanes.map fun j => (j, canal j, barge j)) 0 g.gwct ∧
          (∀ j ∈ lanes, ∃ r ∈ h.stores, r.op = o.id ∧ r.lane = j ∧ r.va = barge j ∧ r.width = 8 ∧ r.data = 0 ∧ r.cls = .strong ∧
            r.scope = .system)) ∧
  (∀ s core o todo target, (s.core core).op? o.id = some o → o.kind = .launch todo 0 target → s.fenceDone core o true target = true →
    ∃ t, exec (.operationComplete core o.id) s = .next t ∧ { o with kind := .launch todo 1 target } ∈ (t.core core).ops ∧ OnlyCore s t core) ∧
  (∀ s core o j canal barge rest target g, (s.core core).op? o.id = some o → o.kind = .launch ((j, canal, barge) :: rest) 1 target →
    s.group? core o.slot = some g → g.hold = .none → o.onPins = [] → ∀ u old, s.launchAccess core o canal barge = .did u old → j < 64 →
      ∃ t p, exec (.operationComplete core o.id) s = .next t ∧ p ∈ (t.core core).ops ∧ p.id = o.id ∧
        p.kind = .launch ((j, canal, barge) :: rest) 2 target ∧ p.res.getD j 0 = old.setWidth 128 ∧ ∀ a, t.stored a = u.stored a) ∧
  (∀ (f : FS) s g, Issuing s (.signal f) g → FreshIds s →
    let x := gangOf s g f.guard
    (x.m = 0 → ∃ t, exec (.signal f) s = .next t ∧ OnlyMovedOn s t g) ∧
    ∀ u, x.m ≠ 0 → s.leaveIdem x true = (u, true) → (∀ w, u.bankSettle x = (w, false) → exec (.signal f) s = .next w) ∧
      ∀ w, u.bankSettle x = (w, true) → w.windowsOf s.cur.core g.team = [] →
        ∃ t o, exec (.signal f) s = .next t ∧ StallsBehind s w t g o ∧ OpOf x o ∧ o.id = w.fresh ∧ o.lanes = x.m ∧ Pends o .zero 1 false ∧
          o.kind = .signal f.imm.toNat (x.grp.src64 (lowLane x.m) false f.a) g.gwct) ∧
  (∀ s core o n v target, (s.core core).op? o.id = some o → o.kind = .signal n v target → o.started = false → s.signals.contains (core, o.id) = false →
    s.signalFirst core o = true → s.fenceDone core o true target = true →
    ∃ t, exec (.operationComplete core o.id) s = .next t ∧ t = { s with signals := s.signals ++ [(core, o.id)], cores := t.cores } ∧
      (t.core core).ops = (s.core core).ops ∧ (∀ l, l ≠ o.slot → t.group? core l = s.group? core l) ∧ ∀ c, c ≠ core → t.core c = s.core c) ∧
  ∀ s core o n v target rest, s.signals = (core, o.id) :: rest → (s.core core).op? o.id = some o → o.kind = .signal n v target →
    ∃ u : State, exec .deviceSignalAccepted s = .next ((u.post
        { cls := 7, code := 0, ctx := o.ctx, core := core, slot := o.slot, arg0 := BitVec.ofNat 64 n, arg1 := v }).afterStore s) ∧ u.signals = rest ∧ { o with started := true } ∈ (u.core core).ops ∧
      u = { s with signals := rest, cores := u.cores }

/-! ### The grammar evaluator (R237–R252, R364–R367) -/

/-- R47, R242–R252, R364–R367: `GRBIND` of 0 releases the team's own binding (else the grammar-binding trap, cause 1), and of a record that reads
well makes it, the rule file and the status cleared, once no other team holds one and two locks have room; `GREVAL` without a binding of the team is cause 1, and one that passes its checks goes in
flight with its claims, or with no index to evaluate completes at issue; each index then gives its values to the rule file; `GRSTAT` gives the
status word at its completion; `NZSCAN` goes in flight and writes the count and the indices of the elements that are not zero. -/
def Obligations.GrammarEvaluator : Prop :=
  let noted := fun (s : State) (g : Group) (i : Instr) (code cause mode : Nat) =>
    ∃ t, exec i s = .next t ∧ Trapped (s.modTeam s.cur.core g.team fun q =>
      { q with status := { q.status with fcode := code, cause := cause, mode := mode, faulted := true } }) t g code 0 [BitVec.ofNat 64 cause]
  let goes := fun (s u : State) (g : Group) (i : Instr) (kind : OpKind) (tag : Option (Fin 64)) (claims : List Claim) =>
    ∃ t o, exec i s = .next t ∧ InFlightLocal s u t g o ∧ OpOf (gangOf s g .always i.cls) o ∧ o.id = u.fresh ∧ o.lanes = allLanes ∧ o.kind = kind ∧
      o.tag = tag.map (·.val) ∧ Pends o .zero 1 false ∧
      (t.core s.cur.core).locks = (u.core s.cur.core).locks ++ claims.map (fun c =>
        { op := o.id, slot := s.cur.slot, space := c.space, ctx := g.ctx, lo := c.lo, hi := c.hi, write := c.write }) ∧
      (∀ n tm, tag = some n → u.team? s.cur.core g.team = some tm →
        ((t.team? s.cur.core g.team).map (·.ready)) = some (tm.ready &&& ~~~(BitVec.twoPow 64 n.val)))
  let room := fun (s : State) (g : Group) (n : Nat) (tag : Option (Fin 64)) =>
    (s.core s.cur.core).locks.length + n ≤ 64 ∧ (s.core s.cur.core).tagRoom g.team tag = true
  let idle := fun (s : State) => ∀ o ∈ (s.core s.cur.core).ops, o.kind.inEval = false
  let empty : Option Binding → List Nat := fun b => (b.map (·.team)).toList
  (∀ (f : FEng) s g i, i ∈ [Instr.grbind f, .greval f, .grstat f, .nzscan f] → Issuing s i g →
    ¬(s.cur.mask = allLanes ∧ g.liveMask = allLanes) → ∃ t, exec i s = .next t ∧ Trapped s t g 0x06 0 [s.cur.mask]) ∧
  (∀ (f : FEng) s g tm, FreshIds s → s.team? s.cur.core g.team = some tm → s.cur.mask = allLanes → g.liveMask = allLanes →
    let X := fun (i : Instr) => gangOf s g .always i.cls
    let x := gangOf s g .always
    let c := s.core s.cur.core
    let a := (x.grp.src32 0 f.a).toNat
    let cleared := fun (t : State) => ((t.team? s.cur.core g.team).map (·.status)) =
      some { tm.status with fcode := 0, cause := 0, mode := 3, faulted := false }
    (Issuing s (.grbind f) g → a = 0 → empty c.binding ≠ [g.team] → noted s g (.grbind f) 0x43 1 3) ∧
    (Issuing s (.grbind f) g → a = 0 → empty c.binding = [g.team] → idle s →
      ∃ t o, exec (.grbind f) s = .next t ∧ InFlightLocal s s t g o ∧ OpOf x o ∧ o.kind = .grbind 0 ∧ o.consumed = true ∧
        Pends o .zero 1 false ∧ (t.core s.cur.core).binding = none ∧ (t.core s.cur.core).rule = [] ∧ cleared t) ∧
    (Issuing s (.grbind f) g → a ≠ 0 → a % 8 ≠ 0 → noted s g (.grbind f) 0x43 2 3) ∧
    (Issuing s (.grbind f) g → a ≠ 0 → s.readBinding (X (.grbind f)) a = .wait → exec (.grbind f) s = .next s) ∧
    (∀ u b p, Issuing s (.grbind f) g → a ≠ 0 → s.readBinding (X (.grbind f)) a = .ok u b p →
      (c.binding ≠ none ∧ empty c.binding ≠ [g.team]) ∨ 62 < c.locks.length → exec (.grbind f) s = .next ((X (.grbind f)).block s)) ∧
    (∀ u b, Issuing s (.grbind f) g → a ≠ 0 → s.readBinding (X (.grbind f)) a = .ok u b none → c.binding = none ∨ empty c.binding = [g.team] →
      c.locks.length ≤ 62 → idle s →
      ∃ t o, exec (.grbind f) s = .next t ∧ InFlightLocal s u t g o ∧ OpOf x o ∧ o.kind = .grbind a ∧ o.consumed = true ∧
        Pends o .zero 1 false ∧ (t.core s.cur.core).binding = some b ∧ (t.core s.cur.core).rule = [] ∧ cleared t) ∧
    (Issuing s (.greval f) g → empty c.binding ≠ [g.team] → noted s g (.greval f) 0x43 1 (if f.rows then 2 else 1)) ∧
    (∀ b, Issuing s (.greval f) g → c.binding = some b → b.team = g.team →
      let lo := (x.grp.src32 0 f.a).toNat
      let n := (x.grp.src32 0 f.b).toNat
      let places := s.evalPlaces (X (.greval f)) (b.ranges f.rows f.skip f.spill lo n)
      let outside := (f.rows = false ∧ (lo < b.base ∨ b.base + b.cap < lo + n)) ∨ (f.spill = true ∧ (f.rows = true ∨ b.spill = none))
      let most := if f.rows then b.nrows else b.nrules
      let mode := if f.rows then 2 else 1
      let claims := (placesOf places).map (fun p => p.1.claim p.2.2.1 p.2.2.2) ++ b.tables
      firstStop 0x43 places = none →
        (outside → noted s g (.greval f) 0x43 4 mode) ∧
        (¬outside → most < lo + n → noted s g (.greval f) 0x42 6 mode) ∧
        (¬outside → lo + n ≤ most → firstStop 0x39 places = none → s.evalSealed (placesOf places) = none →
          (n ≠ 0 → ¬room s g claims.length f.tag → exec (.greval f) s = .next ((X (.greval f)).block s)) ∧
          (n ≠ 0 → room s g claims.length f.tag → goes s s g (.greval f) (.greval f.rows f.skip f.spill lo n) f.tag claims) ∧
          (n = 0 → room s g 0 f.tag → ∃ t, exec (.greval f) s = .next t ∧
            (t.core s.cur.core).ops.map (·.id) = c.ops.map (·.id) ∧ (∀ k, f.tag = some k →
              ∃ q, t.team? s.cur.core g.team = some q ∧ q.ready.getLsbD k.val = true) ∧
            ((t.team? s.cur.core g.team).map (·.status)) =
              some { prog := lo % 2 ^ 24, fcode := 0, cause := 0, mode := mode, faulted := false }))) ∧
    (Issuing s (.grstat f) g → ∃ t o, exec (.grstat f) s = .next t ∧ InFlightLocal s s t g o ∧ OpOf x o ∧ o.kind = .grstat ∧ o.lanes = allLanes ∧
      o.consumed = true ∧ Pends o f.a 2 false) ∧
    (Issuing s (.nzscan f) g →
      let n := (x.grp.src32 0 f.c).toNat
      let src := (x.grp.src32 0 f.a).toNat
      let dst := (x.grp.src32 0 f.b).toNat
      (n = 0 ∨ 32768 < n → ∃ t, exec (.nzscan f) s = .next t ∧ Trapped s t g 0x43 0 [3]) ∧
      ∀ p q, 0 < n → n ≤ 32768 → s.evalPlace (X (.nzscan f)) src (4 * n) = .ok p → s.evalPlace (X (.nzscan f)) dst (4 + 2 * n) = .ok q →
        (src % 4 ≠ 0 → ∃ t, exec (.nzscan f) s = .next t ∧ Trapped s t g 0x32 (BitVec.ofNat 64 src) []) ∧
        (src % 4 = 0 → dst % 4 ≠ 0 → ∃ t, exec (.nzscan f) s = .next t ∧ Trapped s t g 0x32 (BitVec.ofNat 64 dst) []) ∧
        (src % 4 = 0 → dst % 4 = 0 → s.sealed q (4 + 2 * n) = true →
          ∃ t, exec (.nzscan f) s = .next t ∧ Trapped s t g 0x34 (BitVec.ofNat 64 dst) []) ∧
        (src % 4 = 0 → dst % 4 = 0 → s.sealed q (4 + 2 * n) = false → ¬room s g 2 f.tag → exec (.nzscan f) s = .next ((X (.nzscan f)).block s)) ∧
        (src % 4 = 0 → dst % 4 = 0 → s.sealed q (4 + 2 * n) = false → room s g 2 f.tag →
          goes s s g (.nzscan f) (.nzscan (src % 2 ^ 21) (dst % 2 ^ 21) n) f.tag [p.claim (4 * n) false, q.claim (4 + 2 * n) true]))) ∧
  (∀ s core o rows skip spill lo n b a l dep, (s.core core).op? o.id = some o → o.kind = .greval rows skip spill lo n → o.started = true →
    o.poison = none → (s.core core).binding = some b → o.done < n →
    (Fetching.begin s).evalSeq core o b (s.core core).rule rows skip (lo + o.done) = (a, l, dep) → a.stop = none → a.wait = false →
    a.poison = none → l.length = b.v →
      ∃ t p, exec (.operationComplete core o.id) s = .next t ∧ p ∈ (t.core core).ops ∧ p.id = o.id ∧ p.done = o.done + 1 ∧
        (rows = false → b.base ≤ lo + o.done →
          (∀ v c, l[v]? = some c → get? (t.core core).rule (b.v * (lo + o.done - b.base) + v) =
            some { value := BitVec.ofNat 32 c.acc, valid := true, depth := dep, mass := BitVec.ofNat 32 c.mass }) ∧
          ∀ k, ¬(b.v * (lo + o.done - b.base) ≤ k ∧ k < b.v * (lo + o.done - b.base) + b.v) →
            get? (t.core core).rule k = get? (a.s.core core).rule k) ∧
        (rows = true → (t.core core).rule = (a.s.core core).rule)) ∧
  (∀ s core o tm, Flying s core o → o.kind = .grstat → (∀ p ∈ (s.core core).ops, p.slot = o.slot → p.id < o.id →
      p.kind.evaluator = false ∧ ∀ a, p.kind ≠ .grbind a) → s.team? core o.team = some tm →
    let own := ((s.core core).binding.map (·.team)) = some o.team
    let busy := ∃ p ∈ (s.core core).ops, p.kind.evaluator = true ∧ p.started = true ∧ p.team ≠ o.team
    ∃ t res, exec (.operationComplete core o.id) s = .next t ∧ Delivered s t core o res ∧ ∀ j < 64, ∃ w, res j = BitVec.ofNat 128 w ∧
      w < 2 ^ 64 ∧ w / 2 ^ 40 = tm.status.prog % 2 ^ 24 ∧ w / 2 ^ 32 % 256 = tm.status.fcode % 256 ∧ w / 2 ^ 28 % 16 = tm.status.cause % 16 ∧
      (w / 16 % 2 = 1 ↔ own) ∧ w / 4 % 4 = tm.status.mode % 4 ∧
      (tm.status.faulted = true → w % 4 = 3) ∧ (tm.status.faulted = false → busy → w % 4 = 2) ∧
      (tm.status.faulted = false → ¬busy → own → w % 4 = 1) ∧ (tm.status.faulted = false → ¬busy → ¬own → w % 4 = 0)) ∧
  ∀ s core o src dst n tm, (s.core core).op? o.id = some o → o.kind = .nzscan src dst n → o.started = true → s.team? core o.team = some tm →
    tm.windows = [] → tm.poison = [] → n ≤ 32768 →
    let word := fun (i : Nat) => leNat ((List.range 4).map fun j => localByte s core o.team (src + 4 * i + j))
    let idx := (List.range n).filter fun i => word i % 2 ^ 31 != 0
    ∃ t, exec (.operationComplete core o.id) s = .next t ∧ (t.core core).op? o.id = none ∧
      (∀ j < 4, localByte t core o.team (dst + j) = BitVec.ofNat 8 (idx.length / 256 ^ j)) ∧
      (∀ k i, idx[k]? = some i → ∀ j < 2, localByte t core o.team (dst + 4 + 2 * k + j) = BitVec.ofNat 8 (i / 256 ^ j)) ∧
      (∀ a, ¬(dst ≤ a ∧ a < dst + 4 + 2 * idx.length) → localByte t core o.team a = localByte s core o.team a) ∧ ∀ a, t.stored a = s.stored a

/-! ### Clauses, traps and residency (R31, R35, R50, R51, R65–R76, R124, R151, R154, R156, R160–R164, R413, R431) -/

/-- R65–R76: a gang at a clause whose header's page does not translate takes the translation-fault trap; without SIG, or with a slot beyond COUNT,
the invalid-target trap; with an ill-formed header the illegal-instruction trap (of a header fetched again on resume, the choice of trap is the
model's, log 20).  While a flag of WAIT is set as the clock began it waits.  With WAIT clear and, for a MEM-class clause, its group among the
LIMIT promoted earliest, it enters as soon as SETA has room: the words are captured, SETA is counted, and SETB where it has room after that;
else the gang stalls until SETB has room.  A gang that holds every live thread has converged, and at slot 0 it goes on at slot 1.  A gang that
resumes inside clauses fetches their words again once WAIT is clear. -/
def Obligations.ClauseEntry : Prop :=
  ∀ s g, s.group? s.cur.core s.cur.slot = some g →
    let act := s.cur.mask
    let t := g.thread (lowLane act)
    (∀ e, g.entryOf t.entry = some e → e.setbDue = true →
      ∃ v h, exec .clauseEntry s = .next v ∧ v.group? s.cur.core s.cur.slot = some h ∧ SameRegs g h ∧ h.threads = g.threads ∧ OnlyCore s v s.cur.core ∧
        (if e.setb ≠ 15 ∧ 15 ≤ g.flag e.setb then h.flags = g.flags ∧ h.setbWaits t = true
          else (∀ f, h.flag f = g.flag f + if f = e.setb ∧ f ≠ 15 then 1 else 0) ∧ h.setbWaits t = false)) ∧
    (g.setbWaits t = false →
    (∀ c, s.fetchClause s.cur.core g.ctx t.pc = .fault c →
      exec .clauseEntry s = .next (s.trap s.cur.core s.cur.slot 0x10 (headerOf t.pc) t.pc [BitVec.ofNat 64 c])) ∧
    ∀ u ws, s.fetchClause s.cur.core g.ctx t.pc = .words u ws →
      let hdr := ws.headD 0
      let wellFormed := headerOk hdr ws.length = true
      let wait := ∃ f < 12, hdr.toNat / 2 ^ (28 + f) % 2 = 1 ∧ g.flagSeen f ≠ 0
      (hasSig hdr = false ∨ (wellFormed ∧ countOf hdr < slotOf t.pc) →
        exec .clauseEntry s = .next (u.trap s.cur.core s.cur.slot 0x02 0 t.pc [t.pc, act])) ∧
      (hasSig hdr = true → ¬wellFormed →
        exec .clauseEntry s = .next (u.trap s.cur.core s.cur.slot 0x01 (headerOf t.pc) t.pc [hdr])) ∧
      (hasSig hdr = true → wellFormed → slotOf t.pc ≤ countOf hdr → wait → exec .clauseEntry s = .next u) ∧
      (hasSig hdr = true → wellFormed → slotOf t.pc ≤ countOf hdr → ¬wait → t.entry ≠ 0 →
        ∃ v h, exec .clauseEntry s = .next v ∧ v.group? s.cur.core s.cur.slot = some h ∧ SameRegs g h ∧ h.flags = g.flags ∧
          (∀ i < 64, h.thread i = { g.thread i with refetch := (g.thread i).refetch && !has act i }) ∧
          (∀ k, h.entryOf k = (g.entryOf k).map fun e =>
            if (lanesOf act).any fun i => (g.thread i).entry == k then { e with words := ws.take (1 + countOf hdr) } else e) ∧
          OnlyCore u v s.cur.core) ∧
      (hasSig hdr = true → wellFormed → slotOf t.pc ≤ countOf hdr → ¬wait → t.entry = 0 → (∀ e ∈ g.entries, e.id ≠ u.fresh) →
        (setaOf hdr = 15 ∨ g.flag (setaOf hdr) < 15) → (classOf hdr = 2 → (u.core s.cur.core).mayMem s.cur.slot = true) →
        let once := fun f => g.flag f + if f = setaOf hdr ∧ f ≠ 15 then 1 else 0
        let room := setbOf hdr = 15 ∨ once (setbOf hdr) < 15
        ∃ v h e, exec .clauseEntry s = .next v ∧ v.group? s.cur.core s.cur.slot = some h ∧ SameRegs g h ∧
          h.entries = g.entries ++ [e] ∧ e.id = u.fresh ∧ e.words = ws.take (1 + countOf hdr) ∧ e.hdr = headerOf t.pc ∧ e.opened = true ∧
          (e.setbDue = true ↔ ¬room) ∧ (∀ f, h.flag f = once f + if room ∧ f = setbOf hdr ∧ f ≠ 15 then 1 else 0) ∧
          (∀ i < 64, has act i = true → h.thread i = { g.thread i with
            entry := u.fresh, refetch := false, pc := if slotOf (g.thread i).pc = 0 then codePtr (g.thread i).pc 1 else (g.thread i).pc,
            path := if act = g.liveMask then 0 else (g.thread i).path }) ∧
          (∀ i < 64, has act i = false → h.thread i = g.thread i) ∧
          (∀ l, l ≠ s.cur.slot → v.group? s.cur.core l = u.group? s.cur.core l) ∧ OnlyCore u v s.cur.core))

/-- R24, R50, R51, R160–R164, R173, R413, R431: the keeper that a trapped group is handed to holds every live thread with its code pointer kept;
it forwards the trap, or saves the group at a translation fault, or at a breakpoint, once it is quiet; a group of a suspended context is saved,
and with the last of its team the engines' and the local accesses that are at work must have ended.  A group whose trap the host has answered,
and a saved group that may be restored, is Pending again, its threads as they stood; where a record was saved, the general, main and code-pointer
registers are those that the record holds at the offsets of R159. -/
def Obligations.TrapAndReturn : Prop :=
  let heldAs := fun (g h : Group) =>
    (∀ i < 64, h.thread i = { g.thread i with held := (g.thread i).live || (g.thread i).held }) ∧ SameRegs g h
  let waiting := fun (g : Group) => { g with arrivals := [] }.onThreads allLanes fun _ t => match t.st with
    | .collWait _ => { t with st := .ready }
    | _ => t
  let out := fun (g h : Group) => h.gst = if g.halt = .none then .swappedOut else .preempted
  (∀ s core slot g, s.group? core slot = some g → (s.keeperOf core).isSome = true → g.hold = .trapped → g.trap.code ∉ [0x10, 0x51, 0x53, 0x70] →
    ∃ u h : _, exec (.groupTrapStop core slot) s = .next (State.afterStore u s) ∧ u.group? core slot = some h ∧ heldAs g h ∧
      h.gst = (if g.gst = .exited then .exited else .preempted) ∧ h.hold = .forwarded g.trap.code false ∧ h.trap = g.trap ∧
      u.events.held = s.events.held ++ [{ cls := 1, code := g.trap.code, ctx := g.ctx, core := core, slot := slot, arg0 := g.trap.pc,
                                          arg1 := g.trap.words.headD 0 }] ∧ OnlyCore { s with events := u.events } u core) ∧
  (∀ s core slot g, s.group? core slot = some g → (s.keeperOf core).isSome = true → g.hold = .trapped → g.trap.code = 0x10 → g.gst ≠ .exited →
    (s.core core).quiet slot = true →
    ∃ u h : _, exec (.groupTrapStop core slot) s = .next (State.afterStore u s) ∧ u.group? core slot = some h ∧ heldAs (waiting g) h ∧
      out g h ∧ h.hold = .pageFault false ∧ h.trap = g.trap ∧ h.lent = true ∧
      { cls := 2, code := (g.trap.words.headD 0).toNat % 256, ctx := g.ctx, core := core, slot := slot, arg0 := g.trap.addr, arg1 := 0 } ∈
        u.events.held) ∧
  (∀ s core slot g, s.group? core slot = some g → (s.keeperOf core).isSome = true → g.hold = .trapped → g.trap.code = 0x51 ∨ g.trap.code = 0x53 →
    g.gst ≠ .exited → (s.core core).quiet slot = true → s.teamBusy core g.team = false → ∃ u h : _,
      exec (.groupTrapStop core slot) s = .next (State.afterStore u s) ∧
      u.group? core slot = some h ∧ heldAs (waiting g) h ∧ out g h ∧ h.hold = .debug false ∧ h.trap = g.trap) ∧
  (∀ s core slot g, s.group? core slot = some g → (s.keeperOf core).isSome = true → g.hold ≠ .trapped → g.halt = .suspended false →
    (s.core core).quiet slot = true →
    ((∀ p ∈ (s.core core).groups, p.1 ≠ slot → p.2.team = g.team → p.2.halt ≠ .suspended false) →
      (s.core core).engineBusy g.team = false ∧ s.teamBusy core g.team = false) →
    ∃ u h : _, exec (.groupTrapStop core slot) s = .next (State.afterStore u s) ∧ u.group? core slot = some h ∧ h.halt = .suspended true ∧
      h.hold = g.hold ∧ SameRegs g h ∧ ∀ i < 64, SameThread (waiting g) h i) ∧
  (∀ s core slot, s.keeperOf core = none → exec (.groupTrapStop core slot) s = .next (State.afterStore s s)) ∧
  (∀ s core slot g code, s.group? core slot = some g → (s.keeperOf core).isSome = true → g.hold = .forwarded code true → g.halt = .none →
    g.due = [] → g.view = [] → g.gst ≠ .exited → g.liveMask ≠ 0 → (∀ i < 64, (g.thread i).st = .ready ∨ (g.thread i).st = .exited) →
    (∀ k < 12, g.maskReg k &&& ~~~g.liveMask = 0) → g.arrivals = [] → s.eventHeld core slot = false →
    ∃ t h, exec (.keeperResume core slot []) s = .next t ∧ t.group? core slot = some h ∧ h.gst = .pending ∧ h.hold = .none ∧ SameRegs g h ∧
      (∀ i < 64, (h.thread i).pc = (g.thread i).pc ∧ (h.thread i).st = (g.thread i).st ∧ (h.thread i).path = (g.thread i).path ∧
        (h.thread i).held = false ∧ (h.thread i).refetch = ((g.thread i).entry != 0)) ∧ OnlyCore s t core) ∧
  ∀ s core slot g, s.group? core slot = some g → (s.ctx g.ctx).state = .running → g.due = [] → g.view = [] → g.arrivals = [] →
    (∃ i < 64, (g.thread i).st = .ready) → (∀ i < 64, (g.thread i).st.obj < 64) → s.eventHeld core slot = false →
    (g.hold = .none ∧ g.halt = .suspended true ∧ ((s.core core).stop.any fun z => z.ctx == g.ctx) = false) ∨
      ((g.hold = .pageFault true ∨ g.hold = .debug true) ∧ g.halt = .none) ∨ (g.hold = .none ∧ g.halt = .stopped true) →
    (g.lent = true → g.quota ≤ (s.core core).freeWords) → (s.core core).teamRoom g.team = true →
    ∃ u h : _, exec (.groupRestore core slot) s = .next (State.afterStore u s) ∧ u.group? core slot = some h ∧ h.halt = .none ∧
      h.lent = false ∧ OnlyCore s u core ∧ (∀ i < 64, (h.thread i).held = false) ∧
      (g.savedAt = none → (∀ tm, s.team? core g.team = some tm → tm.savedAt = none) →
        h.hold = .none ∧ h.gst = (if g.gst = .exited then .exited else .pending) ∧ SameRegs g h ∧
        ∀ i < 64, (h.thread i).pc = (g.thread i).pc ∧ (h.thread i).path = (g.thread i).path ∧
          (∀ c k o p, (g.thread i).st = .barrierWait c k o p → (h.thread i).st =
            if (s.bar { core := c, team := k, obj := o }).phase = p then .barrierWait c k o p else .ready) ∧
          ((∀ c k o p, (g.thread i).st ≠ .barrierWait c k o p) → (h.thread i).st = (g.thread i).st)) ∧
      ∀ a len flags, g.savedAt = some (a, len, flags) → len = 4096 + 256 * g.quota → g.quota ≤ 256 →
        let word := fun off => BitVec.ofNat 64 (s.coherentNat (a + off) 8)
        (∀ n < 64, h.greg n = word (0x100 + 8 * n)) ∧ (∀ i < 64, (h.thread i).pc = word (0x300 + 8 * i)) ∧
        ∀ n < g.quota, ∀ j < 32, h.mainAt n (2 * j) = lo32 (word (0x1000 + 256 * n + 8 * j)) ∧
          h.mainAt n (2 * j + 1) = hi32 (word (0x1000 + 256 * n + 8 * j))

/-- R76, R151, R154, R156, R280: an exchange of the active set makes the entering group Active and the leaving one Pending, whose threads inside
clauses must fetch them again; a forced one needs 512 clocks of a ready group's waiting and 128 since the last; the score is halved; a finished
group leaves its slot, its quota goes back to its team, and with its last group a team without held stores, windows or seals retires.

R31, R34–R37, R146, R152: a gang is a set of Ready threads of one fragment, neither held, nor stalled, nor having issued in the clock; gangs are
disjoint; while none has starved, each slice's share is a fragment before which no other of the slice comes; and a row is issued only from an
Active group that nothing stops, of a Running context, within the four ports of its core's clock and the limit of its class. -/
def Obligations.GangsAndScheduling : Prop :=
  (let exchanged := fun (s t : State) (core leaving entering : Nat) =>
    (∀ g, s.group? core entering = some g → leaving ≠ entering → ∃ h, t.group? core entering = some h ∧ h.gst = .active ∧ h.promoted = s.ticks ∧
      h.readySince = none ∧ SameRegs g h ∧ h.threads = g.threads) ∧
    (∀ g, leaving ≠ entering → s.group? core leaving = some g → ∃ h, t.group? core leaving = some h ∧ h.gst = .pending ∧ h.readySince = none ∧
      SameRegs g h ∧ ∀ i < 64, h.thread i = { g.thread i with refetch := (g.thread i).entry != 0 }) ∧
    (∀ l, l ≠ leaving → l ≠ entering → t.group? core l = s.group? core l) ∧ OnlyCore s t core
  (∀ s core leaving entering e, s.entering core = some (entering, e) →
    (∃ g, s.group? core leaving = some g ∧ g.gst = .active ∧ g.hold = .none ∧ g.halt = .none ∧ s.groupReady core g = false) ∨
      (leaving = 32 ∧ s.group? core 32 = none ∧ (s.core core).nactive < 8) →
    ∃ t, exec (.naturalSwap core leaving entering) s = .next t ∧ exchanged s t core leaving entering) ∧
  (∀ s core leaving entering e x, s.entering core = some (entering, e) → e.readySince = some x → (s.core core).earliest = some leaving →
    x + 5120 ≤ s.ticks → (s.core core).lastForced + 1280 ≤ s.ticks →
    ∃ t, exec (.forcedSwap core) s = .next t ∧ exchanged s t core leaving entering ∧ (t.core core).lastForced = s.ticks) ∧
  (∀ s core, ∃ t, exec (.scoreDecay core) s = .next t ∧ t.core core = { s.core core with score := (s.core core).score / 2 } ∧ OnlyCore s t core) ∧
  (∀ s core slot g tm, s.group? core slot = some g → g.gst = .exited → g.hold = .none → g.halt = .none → g.stores = [] →
    (∀ o ∈ (s.core core).ops, o.slot ≠ slot) → (∃ p ∈ (s.core core).groups, p.1 ≠ slot ∧ p.2.team = g.team) →
    s.team? core g.team = some tm → tm.clw = 0 → tm.queue = [] → s.kernel? tm.kernel = none →
    ∃ u : State, exec (.groupSlotRelease core slot) s = .next (u.afterStore s) ∧ u.group? core slot = none ∧
      u.team? core g.team = some { tm with free := tm.free + g.quota } ∧ (∀ l, l ≠ slot → u.group? core l = s.group? core l) ∧ OnlyCore s u core) ∧
  ∀ s core slot g tm k, s.group? core slot = some g → g.gst = .exited → g.hold = .none → g.halt = .none → g.stores = [] →
    (∀ o ∈ (s.core core).ops, o.slot ≠ slot) → (∀ h ∈ (s.core core).groups, h.1 = slot ∨ h.2.team ≠ g.team) →
    s.team? core g.team = some tm → tm.clw = 0 → tm.idem = false → tm.windows = [] → tm.seals = [] → s.kernel? tm.kernel = some k → 1 < k.live →
    ∃ u : State, exec (.groupSlotRelease core slot) s = .next (u.afterStore s) ∧ u.group? core slot = none ∧ u.team? core g.team = none ∧
      (∀ l, l ≠ slot → State.still? u core l = State.still? s core l) ∧ (∀ c, c ≠ core → u.core c = s.core c) ∧
      u.kernel? tm.kernel = some { k with live := k.live - 1, gwct := max k.gwct g.gwct }) ∧
  (let free := fun (g : Group) i => (g.thread i).st = .ready ∧ (g.thread i).held = false ∧ (g.thread i).stall = none ∧ has g.woken i = false ∧
    g.acted &&& sliceMask (sliceOf i) = 0
  (∀ s core g t m, (t, m) ∈ State.gangs s core g →
    m ≠ 0 ∧ ∀ i < 64, has m i = true → free g i ∧ sameFragment (g.thread i) t = true) ∧
  (∀ s core g, (State.gangs s core g).Pairwise fun p q => p.2 &&& q.2 = 0) ∧
  (∀ s core g t m i j, (t, m) ∈ State.gangs s core g → i < 64 → j < 64 → has m i = true → free g j → sliceOf i = sliceOf j →
    (∀ k < 64, free g k → s.threadWaits core g (g.thread k) = false ∧ g.issuesOf (sliceOf k) < (g.thread k).since + 1024) →
    before (g.thread j) (g.thread i) = false) ∧
  ∀ s x, x ∈ State.issues s → ∃ c ∈ s.cores, ∃ g ∈ c.2.groups, x.2 = { s with cur := x.2.cur } ∧ x.2.cur.core = c.1 ∧ x.2.cur.slot = g.1 ∧
    g.2.gst = .active ∧ g.2.hold = .none ∧ g.2.halt = .none ∧ (s.ctx g.2.ctx).state = .running ∧
    (x.1 = .clauseEntry ∨
      let cls := (x.1.cls.map (·.code)).getD 0
      c.2.turn.used.length < 4 ∧ c.2.turn.used.count cls < (if cls = 1 ∨ cls = 2 then 2 else if cls = 3 ∨ cls = 4 ∨ cls = 6 then 1 else 4)))

/-! ### Canals and kernels (R119, R127–R145) -/

/-- R127–R145: the canal engine holds the canals of a context that does not run, looks for the next head at CURSOR as the links are performed at
their homes, takes one that passes its check, and lets it be handed out once its waits are met; each turn of the distributor places one team with
its groups, Pending, with their arguments, on the first core that can take it; a kernel whose teams have retired completes, adds 1 at DONE once
the GWCT of its STATUS has passed, and is gone.  A kernel is in a new state once the write of its STATUS is performed: while the write is held
at its home (R192) the state is due, and the canal stands.  HPRIO without a head is the model's choice (log 17). -/
def Obligations.CanalsAndKernels : Prop :=
  let becomes := fun (k k' : Kernel) (st : KernelSt) (kcode : Nat) =>
    { k' with st := k.st, kcode := k.kcode, due := k.due, gwct := k.gwct } = k ∧ k.gwct ≤ k'.gwct ∧
      ((k'.st = st ∧ k'.kcode = kcode ∧ k'.due = none) ∨ (k'.st = k.st ∧ k'.due = some (st, kcode)))
  (∀ s n c, s.canal? n = some c → c.st ≠ .faulted → (s.ctx c.ctx).state ≠ .running → (s.ctx c.ctx).state ≠ .ready →
    ∃ u : State, exec (.canalWatchStore n) s = .next (u.afterStore s) ∧ u.canal? n = some { c with st := .held } ∧ u.kernels = s.kernels) ∧
  (∀ s n c next tail, s.canal? n = some c → c.st ≠ .faulted → (s.ctx c.ctx).state = .running ∨ (s.ctx c.ctx).state = .ready → c.head = none →
    s.peekVa c.ctx (vaBits c.cursor) = some next → s.peekVa c.ctx (vaBits c.record) = some tail →
    let v := s.touch c.ctx [(c.cursor, .load), (c.record, .load)]
    let b := BitVec.ofNat 64 next
    let ended := fun (k : Kernel) (kcode : Nat) (after : Canal) => ∃ (u : State) (id : Nat), exec (.canalWatchStore n) s = .next (u.afterStore s) ∧
      (∀ j, j ≠ id → u.kernel? j = s.kernel? j) ∧
      ((u.kernel? id = none ∧ u.canal? n = some after) ∨
        ∃ k', u.kernel? id = some k' ∧ k'.barge = k.barge ∧ k'.due = some (.aborted, kcode) ∧
          u.canal? n = some { c with cursor := b, taken := c.taken + 1, hprio := k.prio, st := .waiting, head := some id })
    (next = 0 → ∃ u : State, exec (.canalWatchStore n) s = .next (u.afterStore s) ∧
      u.canal? n = some { c with st := if tail = c.cursor.toNat then .empty else .linking, hprio := 0 } ∧ u.kernels = s.kernels) ∧
    (next ≠ 0 → v.checkBarge n c b = .fault → ∃ u : State, exec (.canalWatchStore n) s = .next (u.afterStore s) ∧
      u.canal? n = some { c with st := .faulted, fcode := 1 } ∧ u.kernels = s.kernels) ∧
    (∀ k, next ≠ 0 → v.checkBarge n c b = .malformed k →
      ended k 0x02 { c with cursor := b, taken := c.taken + 1, hprio := k.prio, st := .faulted, fcode := 2 }) ∧
    (∀ k, next ≠ 0 → v.checkBarge n c b = .overBudget k → ended k 0x10 { c with cursor := b, taken := c.taken + 1, hprio := k.prio, st := .waiting }) ∧
    ∀ k, next ≠ 0 → v.checkBarge n c b = .passed k → ∃ (u : State) (id : Nat) (k' : Kernel), exec (.canalWatchStore n) s = .next (u.afterStore s) ∧
      u.canal? n = some { c with cursor := b, taken := c.taken + 1, hprio := k.prio, st := .waiting, head := some id } ∧
      u.kernel? id = some k' ∧ becomes k k' .waiting 0 ∧ ∀ j, j ≠ id → u.kernel? j = s.kernel? j) ∧
  (∀ s n c id k, s.canal? n = some c → c.st ≠ .faulted → (s.ctx c.ctx).state = .running ∨ (s.ctx c.ctx).state = .ready → c.head = some id →
    s.kernel? id = some k → k.st = .waiting → k.due = none →
    (∀ j < k.waits.length, j ∉ k.met → (s.peekVa k.ctx (vaBits (k.waits.getD j (0, 0)).1)).isSome) →
    let met := ∀ j < k.waits.length, j ∉ k.met → ∃ x, s.peekVa k.ctx (vaBits (k.waits.getD j (0, 0)).1) = some x ∧ (k.waits.getD j (0, 0)).2.toNat ≤ x
    k.met.Nodup → (∀ j ∈ k.met, j < k.waits.length) →
      ∃ (u : State) (k' : Kernel), exec (.canalWatchStore n) s = .next (u.afterStore s) ∧ u.kernel? id = some k' ∧
        (met → becomes { k with met := k'.met } k' .dispatching 0 ∧
          u.canal? n = some { c with st := if k'.st = .dispatching then .eligible else .waiting, hprio := k.prio }) ∧
        (¬met → k' = { k with met := k'.met } ∧ u.canal? n = some { c with st := .waiting, hprio := k.prio }) ∧
        ∀ j < k.waits.length, j ∈ k'.met ↔
          j ∈ k.met ∨ ∃ x, s.peekVa k.ctx (vaBits (k.waits.getD j (0, 0)).1) = some x ∧ (k.waits.getD j (0, 0)).2.toNat ≤ x) ∧
  (∀ s n rest c id k r x y z a, s.placeAgain = none → s.turnOrder = n :: rest → s.canal? n = some c → c.head = some id → s.kernel? id = some k →
    k.clw = 0 → k.clh = 0 → k.nextPlace k.next = some (r, x, y, z) → s.findAnchor k none = some a →
    ∃ (u : State) (team : Nat) (tm : Team) (k' : Kernel), exec .distributorTurn s = .next (u.afterStore s) ∧
      u.team? a team = some tm ∧ tm.ctx = k.ctx ∧ tm.kernel = id ∧ tm.pos = posWord x y z ∧ tm.ngroups = k.groups ∧
      tm.regs = k.regs ∧ tm.localBytes = k.localBytes ∧ tm.mem = [] ∧ tm.nbar = k.nbar ∧
      (∀ i < k.groups, ∃ slot g, s.group? a slot = none ∧ u.group? a slot = some g ∧ g.team = team ∧ g.ctx = k.ctx ∧ g.idx = i ∧ g.gst = .pending ∧
        g.quota = k.regs ∧ g.hold = .none ∧ g.halt = .none ∧
        (∀ l < 64, (g.thread l).st = .ready ∧ (g.thread l).pc = k.entry ∧ (g.thread l).entry = 0) ∧
        (∀ j < k.args.length, g.greg j = k.args.getD j 0) ∧ (∀ j, k.args.length ≤ j → g.greg j = 0) ∧ g.seenG = g.g) ∧
      (∀ slot g, s.group? a slot = some g → u.group? a slot = some g) ∧ (∀ q, q ≠ a → u.core q = s.core q) ∧
      u.kernel? id = some k' ∧ k'.live = k.live + 1 ∧ k'.next = r + 1 ∧ k'.lastCore = some a ∧
      ((k.nextPlace (r + 1)).isSome = true → k'.st = k.st ∧ (u.canal? n).map (·.head) = some (some id)) ∧
      ((k.nextPlace (r + 1)).isSome = false →
        (k'.st = .running ∧ k'.due = none ∧ (u.canal? n).map (·.head) = some none) ∨
        (k'.st = k.st ∧ k'.due = some (.running, 0) ∧ (u.canal? n).map (·.head) = some (if k.st = .running then none else some id))) ∧
      (u.canal? n).map (·.st) = some .dispatching ∧ get? u.lastCanal c.hprio = some n) ∧
  ∀ s id k, s.kernel? id = some k →
    (∀ st kcode, k.due = some (st, kcode) → ∃ (u : State) (k' : Kernel), exec (.kernelComplete id) s = .next (u.afterStore s) ∧
      u.kernel? id = some k' ∧ becomes k k' st kcode) ∧
    (k.due = none → k.live = 0 → k.st = .running → k.again = [] → ∃ (u : State) (k' : Kernel), exec (.kernelComplete id) s = .next (u.afterStore s) ∧
      u.kernel? id = some k' ∧ becomes k k' .draining 0) ∧
    (k.due = none → k.st = .draining → k.live = 0 → ∃ (u : State) (k' : Kernel), exec (.kernelComplete id) s = .next (u.afterStore s) ∧
      u.kernel? id = some k' ∧ becomes k k' .complete 0) ∧
    (k.due = none → k.st = .complete → k.gwct ≤ s.ns → k.done = 0 →
      exec (.kernelComplete id) s = .next (({ s with kernels := del s.kernels id } : State).afterStore s)) ∧
    ∀ (t v w : State) dpa old d, k.due = none → k.st = .complete → k.gwct ≤ s.ns → k.done ≠ 0 →
      s.translateAt k.ctx (vaBits k.done) .store = .ok (t, dpa) →
      isHostDie dpa = false → isLink dpa = false → (∀ r, t.regionAt dpa = some r → r.view = none) →
      t.homeRead (.kernelComplete id) dpa 8 = (v, some old) →
      v.homeWrite (.kernelComplete id) dpa 8 (fun i => (leBytes 8 (leNat old + 1))[i]?) none = (w, some d) →
      exec (.kernelComplete id) s = .next (({ w with kernels := del w.kernels id } : State).afterStore s)

/-! ### The host and the memory's own events (R185, R186, R226–R228, R391–R403) -/

/-- R226–R228, R391–R403: an access of the host to memory outside every region, or to a link range, is refused and changes nothing else; a read
makes its halves Shared and returns what the homes hold; ownership is asked for, granted once the lease has passed and no tile fetch pins the line, and given up with what was
stored; halves without conflict for 100 µs merge; inbound writes are performed; a held event is posted while the queue has room; a mailbox takes
words, or OVR while it is owned, and with OWN the command of its code. -/
def Obligations.HostAgents : Prop :=
  let refused := fun (i : Instr) (s : State) => exec i s = .next { s with hartRefused := s.hartRefused + 1 }
  (∀ (s : State) dpa n stores keep, s.hostMay dpa n = false → isHostDie dpa = false → refused (.hostHalfRead dpa n) s ∧
    (s.isView dpa = false → refused (.pcieInboundDma dpa n none) s) ∧
    (s.hostMay (halfOf dpa) 64 = false → refused (.hostOwnershipRequest dpa) s) ∧
    ((s.line (lineOf (halfOf dpa))).half (halfOf dpa) = .invalid → exec (.hostWriteback dpa stores keep) s = .next s)) ∧
  (∀ (s : State) dpa n, isHostDie dpa = false → s.hostMay dpa n = true → s.poisonIn dpa n = none → (s.pageSt (pageOf dpa)).held = false →
    ∃ t, exec (.hostHalfRead dpa n) s = .next t ∧ t.hartRead = (List.range n).map (fun i => (s.coherent (dpa + i))) ∧
      (∀ h ∈ halvesOf dpa n, (t.line (lineOf h)).half h ≠ .invalid) ∧ (∀ a, t.stored a = s.stored a) ∧ t.cores = s.cores) ∧
  (∀ (s : State) dpa n b, s.hostDieRead dpa n = some b → isHostDie dpa = true → exec (.hostHalfRead dpa n) s = .next { s with hartRead := b }) ∧
  (∀ (s : State) half, let h := halfOf half
    s.hostMay h 64 = true → s.isView h = false → (∀ d, (s.line (lineOf h)).half h ≠ .owned d) →
    ∃ t, exec (.hostOwnershipRequest half) s = .next t ∧ (t.line (lineOf h)).req h = true ∧ (∀ a, t.stored a = s.stored a) ∧ t.cores = s.cores) ∧
  (∀ (s : State) half stores, let h := halfOf half
    (s.line (lineOf h)).req h = true → (s.line (lineOf h)).lease ≤ s.ns → s.pinned (lineOf h) = false →
    ∃ t d, exec (.hostOwnershipGrant half stores) s = .next t ∧ (t.line (lineOf h)).half h = .owned d ∧ (t.line (lineOf h)).req h = false ∧
      (∀ k v, stores.getLast? = some (k, v) → t.coherent (h + k % 64) = v) ∧ ∀ a, t.stored a = s.stored a) ∧
  (∀ (s : State) half d keep, let h := halfOf half
    (s.line (lineOf h)).half h = .owned d → d ≠ [] → (∀ p ∈ d, h ≤ p.1 ∧ p.1 < h + 64) → (s.pageSt (pageOf h)).held = false →
    (∀ i < 64, ∀ r, s.regionAt (h + i) = some r → r.dat = false ∧ r.view = none) → (s.pageSt (pageOf h)).backed = true →
    ∃ u : State, exec (.hostWriteback half [] keep) s = .next (u.afterStore s) ∧
      (u.line (lineOf h)).half h = (if keep then .owned [] else .invalid) ∧
      ∀ i < 64, u.stored (h + i) = ((d.find? fun p => p.1 == h + i).map (·.2)).getD (s.stored (h + i))) ∧
  (∀ (s : State) base k a b, (base, k, a) ∈ s.directory → (base + 2 ^ k, k, b) ∈ s.directory → (s.directory.map (·.1)).Nodup →
    a + nsTicks 100000 ≤ s.ticks → b + nsTicks 100000 ≤ s.ticks → k < 16 → base % 2 ^ (k + 1) = 0 →
    ∃ l, exec (.hostDirectoryMerge base) s = .next { s with directory := l } ∧ (base, k + 1, max a b) ∈ l ∧
      (∀ e ∈ l, e ≠ (base, k, a) ∧ e ≠ (base + 2 ^ k, k, b)) ∧ ∀ e ∈ s.directory, e = (base, k, a) ∨ e = (base + 2 ^ k, k, b) ∨ e ∈ l) ∧
  (∀ (s : State) dpa bytes, s.hostMay dpa bytes.length = true → s.isView dpa = false → dpa % 4096 + bytes.length ≤ 4096 →
    (s.pageSt (pageOf dpa)).held = false → s.gwctAt dpa bytes.length ≤ s.ns → s.hostBlocks dpa bytes.length true = false →
    (∀ l ∈ linesIn dpa bytes.length, s.pinned l = false) →
    (∀ h ∈ halvesOf dpa bytes.length, ∀ d, (s.line (lineOf h)).half h ≠ .owned d) →
    (∀ i < bytes.length, ∀ r, s.regionAt (dpa + i) = some r → r.dat = false ∧ r.view = none) → (s.pageSt (pageOf dpa)).backed = true →
    ∃ u : State, exec (.pcieInboundDma dpa bytes.length (some bytes)) s = .next (u.afterStore s) ∧
      ∀ i < bytes.length, u.stored (dpa + i) = bytes.getD i 0) ∧
  (∀ (s : State) e, s.events.held = [e] → s.events.set = true →
    (s.events.tail + 2 ^ 32 - s.coherentNat (s.events.base + 0x40) 4) % 2 ^ 32 < 2 ^ s.events.log →
    s.storesNow (s.events.base + 0x80 + 32 * (s.events.tail % 2 ^ s.events.log)) 32 = true → s.storesNow s.events.base 8 = true →
    ∃ u : State, exec .heldEventPost s = .next (u.afterStore s) ∧ u.events.tail = (s.events.tail + 1) % 2 ^ 32 ∧
      let w := (s.events.routes.getD (e.cls - 1) 0).toNat
      w.testBit 31 = true → (w / 2 ^ 16 % 32, w / 2 ^ 21 % 16, w % 2 ^ 11) ∈ u.imsic) ∧
  ∀ (s : State) m word value,
    (64 ≤ m ∨ 16 ≤ word → refused (.mailboxWrite m word value) s) ∧
    (m < 64 → word < 16 →
      let w := s.mail m 0
      (w.getLsbD 63 = true → word = 0 → value = 0x4000000000000000 →
        exec (.mailboxWrite m word value) s = .next (s.setMail m 0 (w &&& 0xBFFFFFFFFFFFFFFF))) ∧
      (w.getLsbD 63 = true → ¬(word = 0 ∧ value = 0x4000000000000000) →
        exec (.mailboxWrite m word value) s = .next (s.setMail m 0 (w ||| 0x4000000000000000))) ∧
      (w.getLsbD 63 = false → word ≠ 0 →
        exec (.mailboxWrite m word value) s = .next (s.setMail m word (if word = 15 then value &&& 0xFF else value))) ∧
      (∀ i, w.getLsbD 63 = false → word = 0 → value.getLsbD 63 = true → (value.toNat % 2 ^ 16, i) ∈ commandTable →
        ∃ t, exec (.mailboxWrite m word value) s = .next t ∧ t.cmds = s.cmds ++ [(m, i)] ∧ (t.mail m 0).getLsbD 63 = true ∧
          (t.mail m 0).toNat % 2 ^ 16 = value.toNat % 2 ^ 16 ∧ ∀ k, 1 ≤ k → k < 16 → t.mail m k = s.mail m k) ∧
      (w.getLsbD 63 = false → word = 0 → value.getLsbD 63 = true → (∀ i, (value.toNat % 2 ^ 16, i) ∉ commandTable) →
        ∃ u : State, exec (.mailboxWrite m word value) s = .next (u.afterStore s) ∧ u.mail m 15 = 5 ∧ (u.mail m 0).getLsbD 63 = false ∧
          u.cmds = s.cmds))

/-! ### Editions (R254–R266) -/

/-- R254–R266: a home whose device time has passed T applies the cut; once all four have, the edition is Sealed, or begins to drain where a target is
set; a drain engine writes the record of its next page, or the end record of its part: into the far range, as a request over a link, which carries
the record, or into the host stream, whose full chunk waits and the rest of the record for the next; with the last record acknowledged a Drained edition
without views is retired, and one with views stays; a chunk that stays unacknowledged for 1 s fails the edition. -/
def Obligations.EditionEvents : Prop :=
  (∀ s seq die e, s.edition? seq = some e → die < 4 → die ∉ e.cut → e.t < s.ns →
    ∃ t e', exec (.homeApplyCut seq die) s = .next t ∧ t.edition? seq = some e' ∧ e'.cut = e.cut ++ [die] ∧ e'.st = e.st ∧
      (∃ l, e'.pend = e.pend ++ l ∧ ∀ p ∈ l, (s.pageSt p.1).cseq = seq) ∧ (∀ k, k ≠ seq → t.edition? k = s.edition? k) ∧
      t = { s with editions := t.editions }) ∧
  (∀ s seq e, s.edition? seq = some e → e.st = .sealing → (∀ d < 4, d ∈ e.cut) →
    ∃ t e', exec (.editionCutDone seq) s = .next t ∧ t.edition? seq = some e' ∧ t = { s with editions := t.editions } ∧
      e'.st = (if e.target.type = 3 then .sealed else .draining) ∧ (e.target.type = 3 ∨ e.target.full = false → e'.pend = e.pend) ∧
      ∀ k, k ≠ seq → t.edition? k = s.edition? k) ∧
  (∀ s page, ∃ t, exec (.cowBackgroundFill page) s = .next t ∧ (t.pageSt page).filling = false ∧ (∀ p, p ≠ page → t.pageSt p = s.pageSt p) ∧
    t.cores = s.cores ∧ ∀ a, t.stored a = s.stored a) ∧
  (∀ s die e, s.editions.find? (fun e => e.st == .draining) = some e → e.chunkSince = none → e.spill = [] → die < 4 → die ∉ e.ended →
    s.edition? e.seq = some e → e.target.type = 0 →
    (∀ p, e.pend.find? (fun p => dieOfDpa (4096 * p.1) == die) = some p → e.used + (s.pageRecord e p).length ≤ e.target.size →
      ∃ (u : State) (e' : Edition), exec (.drainPageWrite die) s = .next (u.afterStore s) ∧ u.edition? e.seq = some e' ∧
        e'.pend = e.pend.filter (fun q => q != p) ∧ e'.written = e.written ++ [p.1] ∧ e'.used = e.used + (s.pageRecord e p).length ∧
        e'.acked = e.acked + 1) ∧
    (e.pend.find? (fun p => dieOfDpa (4096 * p.1) == die) = none → e.used + 128 ≤ e.target.size →
      ∃ (u : State) (e' : Edition), exec (.drainPageWrite die) s = .next (u.afterStore s) ∧ u.edition? e.seq = some e' ∧
        e'.ended = e.ended ++ [die] ∧ e'.pend = e.pend ∧ e'.used = e.used + 128 ∧ e'.acked = e.acked + 1) ∧
    (e.pend.find? (fun p => dieOfDpa (4096 * p.1) == die) = none → e.target.size < e.used + 128 →
      ∃ (u : State) (e' : Edition), exec (.drainPageWrite die) s = .next (u.afterStore s) ∧ u.edition? e.seq = some e' ∧
        e'.st = .failed ∧ e'.reason = 2)) ∧
  (∀ s die e p, s.editions.find? (fun e => e.st == .draining) = some e → e.chunkSince = none → e.spill = [] → die < 4 → die ∉ e.ended →
    s.edition? e.seq = some e → e.pend.find? (fun p => dieOfDpa (4096 * p.1) == die) = some p →
    let r := s.pageRecord e p
    let after := fun (e' : Edition) => e'.pend = e.pend.filter (fun q => q != p) ∧ e'.written = e.written ++ [p.1]
    (e.target.type = 1 → e.used + r.length ≤ e.target.size → ∃ (u : State) (e' : Edition) (q : LinkReq),
      exec (.drainPageWrite die) s = .next (u.afterStore s) ∧ u.edition? e.seq = some e' ∧ after e' ∧ e'.used = e.used + r.length ∧
        u.linkReqs = s.linkReqs ++ [q] ∧ q.body = .drain e.seq r ∧ q.dpa = e.target.base + e.used) ∧
    (e.target.type < 2 → e.target.size < e.used + r.length → ∃ (u : State) (e' : Edition),
      exec (.drainPageWrite die) s = .next (u.afterStore s) ∧ u.edition? e.seq = some e' ∧ e'.st = .failed ∧ e'.reason = 2) ∧
    (e.target.type = 2 → let room := chunkBytes - e.used % chunkBytes
      ∃ (u : State) (e' : Edition), exec (.drainPageWrite die) s = .next (u.afterStore s) ∧ u.edition? e.seq = some e' ∧ after e' ∧
        e'.used = e.used + min room r.length ∧ e'.spill = r.drop room ∧ (e'.chunkSince = some s.ticks ↔ room ≤ r.length))) ∧
  (∀ s die e, s.editions.find? (fun e => e.st == .draining) = some e → e.chunkSince = none → e.spill ≠ [] → die < 4 → s.edition? e.seq = some e →
    e.target.type = 2 → let room := chunkBytes - e.used % chunkBytes
    ∃ (u : State) (e' : Edition), exec (.drainPageWrite die) s = .next (u.afterStore s) ∧ u.edition? e.seq = some e' ∧ e'.pend = e.pend ∧
      e'.ended = e.ended ∧ e'.used = e.used + min room e.spill.length ∧ e'.spill = e.spill.drop room) ∧
  (∀ s seq e, s.edition? seq = some e → e.st = .draining → e.target.type ≠ 2 → e.chunkSince = none → e.spill = [] → e.ended.length = 4 →
    e.acked = e.written.length + 4 →
    (e.views = [] → ∃ t, exec (.drainTargetAck seq) s = .next t ∧ t.editions = s.editions.filter (fun d => d.seq != seq)) ∧
    (e.views ≠ [] → ∃ t e', exec (.drainTargetAck seq) s = .next t ∧ t.edition? seq = some e' ∧ e' = { e with st := .drained } ∧
      t = { s with editions := t.editions })) ∧
  ∀ s seq e since, s.edition? seq = some e → e.st = .draining → e.chunkSince = some since → since + nsTicks 1000000000 ≤ s.ticks →
    s.coherentNat (e.target.chunk ((e.used - 1) / chunkBytes) + chunkBytes) 8 ≠ 1 →
    ∃ (u : State) (e' : Edition), exec (.chunkAckTimeout seq) s = .next (u.afterStore s) ∧ u.edition? seq = some e' ∧ e'.st = .failed ∧
      e'.reason = 2 ∧ e'.chunkSince = none

/-! ### Links (R229, R380–R390) -/

/-- R380, R386, R387, R389, R229: training ends Up with four lanes, Degraded with fewer, Down with none; a lane error drops a lane, a failed replay is
counted and the sixteenth in a row isolates the port; a bulk request that stays unacknowledged is sent again; an acknowledgement completes a
request; an abort token that is ahead takes its slot's attempt; a peer's request is performed where its range is open, dropped where it is
older or not allowed, and a store of it acknowledged once device time has passed its GWCT and
no tile fetch pins its line (R234). -/
def Obligations.LinkEvents : Prop :=
  (∀ s port lanes peer, port < 36 → (s.port port).st = .training →
    ∃ t, exec (.linkTrainingEnd port lanes peer) s = .next t ∧
      (t.port port).st = (if lanes = 0 then .down else if 4 ≤ lanes then .up else .degraded) ∧ (t.port port).lanes = min 4 lanes ∧
      (0 < lanes → (t.port port).peer = peer % 2 ^ 16) ∧ ∀ q, q ≠ port → t.port q = s.port q) ∧
  (∀ s port, (s.port port).st = .up ∨ (s.port port).st = .degraded → let p := s.port port
    (∃ t, exec (.linkLaneError port) s = .next t ∧ (t.port port).lanes = p.lanes - 1 ∧
      (t.port port).st = (if p.lanes ≤ 1 then .down else .degraded) ∧ ∀ q, q ≠ port → t.port q = s.port q) ∧
    (∃ t, exec (.linkFlitReceive port true) s = .next t ∧ t.port port = { p with failed := 0 } ∧ ∀ q, q ≠ port → t.port q = s.port q) ∧
    (∃ t, exec (.linkFlitReceive port false) s = .next t ∧ (t.port port).replays = p.replays + 1 ∧ (t.port port).failed = p.failed + 1 ∧
      (t.port port).st = (if 15 ≤ p.failed then .isolated else p.st) ∧ ∀ q, q ≠ port → t.port q = s.port q)) ∧
  (∀ s r x, s.linkReqs.find? (fun q => q.id == r.id) = some r → get? s.slots r.slot = some x → r.port ≠ 36 → x.reduction = false →
    r.sent + nsTicks 100000 ≤ s.ticks → r.tries < x.retry → s.usablePorts x.ports ≠ [] →
    ∃ t q, exec (.linkBulkTimeout r.id) s = .next t ∧ t.linkReqs.find? (fun q => q.id == r.id) = some q ∧ q.tries = r.tries + 1 ∧
      q.sent = s.ticks ∧ q.port ∈ s.usablePorts x.ports ∧ q.body = r.body ∧ (get? t.slots r.slot).map (·.retries) = some (min 0xFF (x.retries + 1))) ∧
  (∀ s n x att, get? s.slots n = some x → x.reduction = true →
    let ahead := (att + 2 ^ 16 - x.att % 2 ^ 16) % 2 ^ 16
    ∃ t, exec (.linkAbortTokenArrival n att) s = .next t ∧
      (0 < ahead → ahead < 2 ^ 15 → get? t.slots n = some { x with att := att % 2 ^ 16, lasterr := 3 }) ∧
      (ahead = 0 ∨ 2 ^ 15 ≤ ahead → get? t.slots n = some x ∧ t = { s with slots := t.slots })) ∧
  (∀ s peer dpa a, s.inboundOk peer dpa a = false → exec (.linkInboundRequest peer none dpa a) s = .next s) ∧
  (∀ s peer n x att dpa a, get? s.slots n = some x → 2 ^ 15 ≤ (att + 2 ^ 16 - x.att % 2 ^ 16) % 2 ^ 16 →
    ∃ t, exec (.linkInboundRequest peer (some (n, att)) dpa a) s = .next t ∧
      get? t.slots n = some { x with discards := min 0xFFFF (x.discards + 1) }) ∧
  (∀ s peer dpa b u d, s.inboundOk peer dpa (.write b) = true →
    s.homeWrite (.linkInboundRequest peer none dpa (.write b)) dpa b.length (fun i => b[i]?) none = (u, some d) →
    exec (.linkInboundRequest peer none dpa (.write b)) s = .next { u with inboundAcks := u.inboundAcks ++ [(peer, dpa, d)] }) ∧
  (∀ s i p dpa d, s.inboundAcks[i]? = some (p, dpa, d) → d < s.ns → s.pinned (lineOf dpa) = false →
    exec (.remoteStoreAcknowledge i) s = .next { s with inboundAcks := s.inboundAcks.eraseIdx i }) ∧
  ∀ s r id slot q, s.linkReqs.find? (fun q => q.id == r.id && q.port != 36) = some r → r.body = .store id →
    (s.core r.core).storeSlot id = some (slot, q) →
    let gone := fun (t : State) (h : Group) => ∃ g, s.group? r.core slot = some g ∧ t.group? r.core slot = some h ∧
      h.stores = g.stores.filter (fun x => x.id != id) ∧ SameRegs g h ∧ ∀ p ∈ t.linkReqs, p.id ≠ r.id
    (∀ data, ∃ t h, exec (.linkAckArrival r.id (.done data)) s = .next t ∧ gone t h) ∧
    (∀ x, get? s.slots r.slot = some x → x.reduction = true → ∃ t h, exec (.linkAckArrival r.id .dropped) s = .next t ∧ gone t h) ∧
    ∀ x g, get? s.slots r.slot = some x → s.group? r.core slot = some g → g.hold = .none →
      ∃ t h, exec (.linkAckArrival r.id .refused) s = .next t ∧ gone t h ∧ h.hold = .trapped ∧ h.trap.code = 0x60 ∧ h.trap.addr = q.va ∧
        h.trap.words = [2] ∧ (get? t.slots r.slot).map (·.lasterr) = some 1

/-! ### Power, temperature, errors and test (R24, R406–R412, R420–R425) -/

/-- R406–R412, R420–R425: replays and corrected errors are counted; a first and a second failed lane are mapped out and the third takes the core out
of service, its groups bounced; an uncorrectable error poisons storage or traps the group that holds the register; units are tested in turn; a
core without groups becomes Idle, then gated with its caches lost; the power cap changes no value; dies warm and cool; a thermal stop takes
the CORES bits and sets THERM; a cold reset leaves reset's state; a function that becomes ready sets its bit; a keeper fails, and
a core has the keeper of index Floor(y / 2), while it works, and else a stand-in that works. -/
def Obligations.PowerAndReliability : Prop :=
  (∀ s core, (∃ t, exec (.timingReplay core) s = .next t ∧ t.core core = { s.core core with replays := (s.core core).replays + 1 } ∧
      OnlyCore s t core) ∧
    ∃ t, exec (.eccCorrected core) s = .next t ∧ t.core core = { s.core core with corrected := (s.core core).corrected + 1 } ∧
      OnlyCore s t core) ∧
  (∀ s core lane, core < 256 → lane < 65 →
    let map := (s.core core).lanemap
    ∃ u : State, exec (.laneFailure core lane) s = .next (u.afterStore s) ∧
      (map.toNat % 128 ≠ lane → map.toNat / 2 ^ 16 % 128 ≠ lane → map.getLsbD 30 = false →
        (u.core core).lanemap.toNat % 128 = lane ∧ (u.core core).lanemap.getLsbD 30 = true ∧ (u.core core).inService = (s.core core).inService) ∧
      (map.toNat % 128 ≠ lane → map.toNat / 2 ^ 16 % 128 ≠ lane → map.getLsbD 30 = true → map.getLsbD 31 = false →
        (u.core core).lanemap.toNat / 2 ^ 16 % 128 = lane ∧ (u.core core).lanemap.getLsbD 31 = true ∧
          (u.core core).lanemap.toNat % 128 = map.toNat % 128 ∧ (u.core core).inService = (s.core core).inService) ∧
      (map.toNat % 128 ≠ lane → map.toNat / 2 ^ 16 % 128 ≠ lane → map.getLsbD 30 = true → map.getLsbD 31 = true →
        (u.core core).inService = false)) ∧
  (∀ (s : State) dpa, dpa < 2 ^ 48 → isLink dpa = false → ∃ t, exec (.uncorrectableError (.memory dpa)) s = .next t ∧ dpa / 32 ∈ t.poison ∧
    (∀ g, g ≠ dpa / 32 → (g ∈ t.poison ↔ g ∈ s.poison)) ∧ (t.core (homeCore dpa)).uncorrected = (s.core (homeCore dpa)).uncorrected + 1 ∧
    (∀ a, t.stored a = s.stored a)) ∧
  (∀ (s : State) core slot g spec, s.group? core slot = some g → g.hold = .none → ∃ t h, exec (.uncorrectableError (.register core slot spec)) s = .next t ∧
    t.group? core slot = some h ∧ h.hold = .trapped ∧ h.trap.code = 0x70 ∧ h.trap.words = [1, BitVec.ofNat 64 spec.toNat] ∧ SameRegs g h ∧
    (t.core core).uncorrected = (s.core core).uncorrected + 1) ∧
  (∀ s : State, let x := s.test
    (x.interval ≠ 0 → x.draining = none → x.since + nsTicks (1000000 * x.interval) ≤ s.ticks → exec .scanTestTurn s =
      .next { s with test := { x with draining := some (x.next % 32), next := (x.next + 1) % 32, scanning := false, since := s.ticks } }) ∧
    (∀ u, x.draining = some u → x.scanning = false →
      ((∃ c ∈ unitCores u, (s.core c).teams ≠ []) → x.since + nsTicks (1000000 * x.drain) ≤ s.ticks → exec .scanDrainTimeout s =
        .next { s with test := { x with draining := some (x.next % 32), next := (x.next + 1) % 32, scanning := false, since := s.ticks } }) ∧
      ((∀ c ∈ unitCores u, (s.core c).teams = []) → exec .scanUnitEmpty s =
        .next { s with test := { x with scanning := true, since := s.ticks } })) ∧
    (∀ u, x.draining = some u → x.scanning = true → exec (.scanComplete [] []) s =
      .next { s with test := { x with draining := none, scanning := false, since := s.ticks } })) ∧
  (∀ s core, let c := s.core core
    (c.power = .on → c.groups = [] → c.powerSince + nsTicks 1000 ≤ s.ticks → ∃ t, exec (.coreIdleTimeout core) s = .next t ∧
      t.core core = { c with power := .idle, powerSince := s.ticks } ∧ OnlyCore s t core) ∧
    (c.power = .idle → c.groups = [] → c.powerSince + nsTicks 1000000 ≤ s.ticks → ∃ t, exec (.coreGateTimeout core) s = .next t ∧
      t.core core = { c with power := .gated, powerSince := s.ticks, l1 := [], icache := [], tlb := [] } ∧ OnlyCore s t core)) ∧
  (∀ s, exec .powerCapExceeded s = .next s) ∧
  (∀ (s : State) die, die < 4 → (∃ t, exec (.dieTemp105 die) s = .next t ∧ t.thermalCap = true ∧ die ∉ t.cool ∧
      t = { s with thermalCap := t.thermalCap, cool := t.cool }) ∧
    ∃ t, exec (.dieCool95 die) s = .next t ∧ die ∈ t.cool ∧ (t.thermalCap = true ↔ s.thermalCap = true ∧ ¬∀ d < 4, d ∈ t.cool) ∧
      t = { s with thermalCap := t.thermalCap, cool := t.cool }) ∧
  (∀ s, ∃ u : State, exec .thermalStop s = .next (u.afterStore s) ∧ u.devstat.getLsbD 25 = true ∧ (∀ d < 4, u.devstat.getLsbD (16 + d) = false) ∧
    u.cool = [] ∧ (∀ c < 256, (u.core c).power = .gated ∧ (u.core c).ops = []) ∧
    ∀ c, (get? s.ctxs c).isSome = true → (s.ctx c).state = .running ∨ (s.ctx c).state = .suspended → (u.ctx c).state = .faulted) ∧
  (∀ s failed, exec (.coldReset failed) s = .next { State.reset with
    agenda := s.agenda, n := s.n, fresh := s.fresh, badImages := failed, devstat := if failed = [] then 0 else 0x1000000 }) ∧
  (∀ (s : State) bit, 4 ≤ bit → bit < 8 → bit - 4 ∈ s.badImages → exec (.functionReady bit) s = .next s) ∧
  (∀ (s : State) bit, 4 ≤ bit → bit < 8 → bit - 4 ∉ s.badImages → s.devstat.getLsbD 0 = false →
    exec (.functionReady bit) s = .next { s with devstat := s.devstat ||| BitVec.twoPow 64 bit }) ∧
  (∀ s : State, s.devstat.getLsbD 0 = true → s.devstat.getLsbD 8 = false → (s.ctx 0).state = .free → ∃ (u : State) (r : Region),
    exec (.functionReady 8) s = .next (u.afterStore s) ∧ u.devstat.getLsbD 8 = true ∧ (u.ctx 0).state = .ready ∧ r ∈ u.regions ∧ r.ctx = 0 ∧
      r.idx = 0 ∧ r.base = 0 ∧ r.frames = 262144 ∧ r.place = 0 ∧ r.dat = false) ∧
  (∀ s die idx, die < 4 → idx < 4 → 4 * die + idx ∉ s.deadKeepers →
    exec (.keeperFailure die idx) s = .next { s with deadKeepers := s.deadKeepers ++ [4 * die + idx] }) ∧
  ∀ (s : State) core, core < 256 →
    let works := fun i => s.devstat.getLsbD (4 + core / 64) = true ∧ 4 * (core / 64) + i ∉ s.deadKeepers
    (works (core / 8 % 8 / 2) → s.keeperOf core = some (core / 8 % 8 / 2)) ∧
    ((∃ i < 4, works i) → ∃ i < 4, works i ∧ s.keeperOf core = some i) ∧ ((¬∃ i < 4, works i) → s.keeperOf core = none)

/-! ### Firmware commands (R118–R126, R136, R162, R177, R181–R185, R263–R267, R390, R397–R399, R412–R421, R425, R431) -/

/-- R122, R398: the end of a command leaves its return values in the words from 1 on, its result in word 15, OWN clear, and the other mailboxes as
they were; a command whose context does not exist ends with NOCTX and has no other effect; with no keeper in its firmware each command but
`DEVSTAT` ends with BUSY. -/
def Obligations.CommandEnds : Prop :=
  (∀ (u : State) m r values, values.length ≤ 14 →
    let t := u.finishCommand m r values
    (∀ k v, values[k]? = some v → t.mail m (1 + k) = v) ∧ t.mail m 15 = BitVec.ofNat 64 r ∧ (t.mail m 0).getLsbD 63 = false ∧
      (∀ k, values.length < k → k < 15 → t.mail m k = u.mail m k) ∧ (∀ q k, q ≠ m → k < 16 → t.mail q k = u.mail q k) ∧
      t.cmds = u.cmds) ∧
  (∀ s m i, i ∈ [Instr.ctxrun, .ctxsuspend, .ctxresume, .ctxmode, .ctxdestroy, .pgdone, .rgnset, .rgnpool, .rgnplace, .rgnclear, .rgnquery, .vminv,
      .edconf, .edmap, .edunmap, .dbgarea, .stopcore, .dbgresume, .watchset] → Commanded s i m →
    1024 ≤ (s.mail m 1).toNat ∨ (s.ctx (s.mail m 1).toNat).state = .free → Ends i s s m 1 []) ∧
  ∀ s m i, i ∈ [Instr.ctxcreate, .ctxrun, .ctxquery, .cnlcreate, .cnlquery, .rgnset, .edtarget, .edquery, .lnktrain, .lnkmap, .hostevq, .corestat,
      .testconf, .pwrcap, .dieresume] → s.mailbox = m → (m, i) ∈ s.cmds → s.commandBehind m i = false →
    (∀ d < 4, s.devstat.getLsbD (4 + d) = false) → Ends i s s m 4 []

/-- R118–R126, R136, R162, R177: the commands on contexts, canals and held groups: each, where no failing result applies, ends with OK, its context,
canal or group changed as the rule says, and nothing else.

R181–R185: the commands on regions; the query of an entry that is not valid gives zeros. -/
def Obligations.ContextAndRegionCommands : Prop :=
  (∀ s m, let a := s.mail m
    let n := (a 1).toNat
    let c := s.ctx n
    let only := fun (u : State) => u = { s with ctxs := u.ctxs } ∧ ∀ k, k ≠ n → u.ctx k = s.ctx k
    (Commanded s .ctxcreate m → n < 1024 → n ≠ 0 → c.state = .free → budgetOk (a 5).toNat = true → modeOk (a 6).toNat = true →
      saveNeed (a 5).toNat ≤ (a 8).toNat → (a 4).toNat % 40 = 0 → ∃ u, Ends .ctxcreate s u m 0 [] ∧ u.cores = s.cores ∧ (u.ctx n).state = .ready ∧
        (u.ctx n).root = (a 2).toNat ∧ (u.ctx n).table = (a 3).toNat ∧ (u.ctx n).regw = (a 5).toNat / 2 ^ 32 ∧
        (u.ctx n).localU = (a 5).toNat / 2 ^ 16 % 2 ^ 10 ∧ (u.ctx n).tilesMax = (a 5).toNat % 2 ^ 6 ∧ (u.ctx n).check = (a 6).getLsbD 0 ∧
        (u.ctx n).lease = (a 6).toNat / 16 ∧ (u.ctx n).saveBase = (a 7).toNat ∧ (u.ctx n).saveSize = (a 8).toNat ∧
        let drops := fun b => ∃ i < 4096, ∃ j < 3, b = (a 3).toNat + 32 * i + 28 + j
        let quiet := ∀ l ∈ s.lines, l.2.lo = .invalid ∧ l.2.hi = .invalid ∧ l.2.reqLo = false ∧ l.2.reqHi = false
        ((∀ x ∈ s.mem, ¬drops x.1) → quiet → only u) ∧
        (MemoryOk s → quiet → (∀ p, (s.pageSt p).held = false ∧ (s.pageSt p).backed = true) → (∀ r ∈ s.regions, r.view = none ∧ r.ed = false) →
          ∀ b, drops b → u.stored b = 0)) ∧
    (Commanded s .ctxcreate m → n < 1024 → budgetOk (a 5).toNat = false ∨ modeOk (a 6).toNat = false → Ends .ctxcreate s s m 3 []) ∧
    (Commanded s .ctxrun m → n < 1024 → n ≠ 0 → c.state = .ready → ∃ u, Ends .ctxrun s u m 0 [] ∧ only u ∧ u.ctx n = { c with state := .running }) ∧
    (Commanded s .ctxrun m → n < 1024 → c.state ≠ .free → n = 0 ∨ c.state ≠ .ready → Ends .ctxrun s s m 2 []) ∧
    (Commanded s .ctxsuspend m → n < 1024 → n ≠ 0 → c.state = .running ∨ c.state = .suspended → ∃ u : State,
      (u.allSaved n = true → Ends .ctxsuspend s u m 0 []) ∧ (u.allSaved n = false → exec .ctxsuspend s = .next (u.afterStore s)) ∧
      (u.ctx n).state = .suspended ∧ (u.ctx n).hostHold = true ∧
      ∀ core slot g, s.group? core slot = some g → ∃ h, u.group? core slot = some h ∧ SameRegs g h ∧
        if g.ctx = n ∧ c.state = .running ∧ g.gst ≠ .exited then h.halt = .suspended false ∧ h.gst = .preempted else h = g) ∧
    (Commanded s .ctxresume m → n < 1024 → c.state = .suspended → (a 2).toNat < 4 → ((a 2).getLsbD 1 = true → s.starved n = false) →
      ∃ u, Ends .ctxresume s u m 0 [] ∧ only u ∧
        let host := c.hostHold && !(a 2).getLsbD 0
        let pool := c.poolHold && !(a 2).getLsbD 1
        u.ctx n = { c with hostHold := host, poolHold := pool, state := if host || pool then .suspended else .running }) ∧
    (Commanded s .ctxmode m → n < 1024 → n ≠ 0 → c.state ≠ .free → c.state ≠ .faulted → (a 2).toNat < 2 → (a 3).toNat ≤ 10 →
      ∃ u, Ends .ctxmode s u m 0 [] ∧ only u ∧ u.ctx n = { c with check := (a 2).getLsbD 0, lease := (a 3).toNat }) ∧
    (Commanded s .ctxquery m → n < 1024 → ∃ v, Ends .ctxquery s s m 0 v ∧ v.length = 9 ∧
      v.getD 1 0 = BitVec.ofNat 64 ((if c.hostHold then 1 else 0) + if c.poolHold then 2 else 0) ∧ (∀ i < 6, v.getD (3 + i) 0 = c.fault.getD i 0) ∧
      v.getD 0 0 = match c.state with
        | .free => 0
        | .ready => 1
        | .running => 2
        | .suspended => 3
        | .faulted => 4) ∧
    (Commanded s .ctxdestroy m → n < 1024 → n ≠ 0 → c.state ≠ .free → (a 2).toNat < 2 → (∀ r ∈ s.regions, r.ctx ≠ n) → s.canals = [] → s.kernels = [] →
      s.held = [] → s.slots = [] → ∃ u, Ends .ctxdestroy s u m 0 [] ∧ u.ctx n = Ctx.blank ∧ (∀ k, k ≠ n → u.ctx k = s.ctx k) ∧ u.mem = s.mem ∧
        ∀ q, ∀ p ∈ (u.core q).tlb, p.ctx ≠ n) ∧
    (Commanded s .cnlcreate m →
      let w := (a 2).toNat
      let record := a 3
      ∀ dpa b pte r, n < 4096 → w < 1024 → (s.ctx w).state ≠ .free → w ≠ 0 → record.toNat % 128 = 0 → s.canal? n = none →
        s.lookup w (vaBits record) .store = .ok (dpa, b, pte) → isHostDie dpa = false → isLink dpa = false → s.regionAt dpa = some r →
        r.dat = false → r.view = none → ∃ u x, Ends .cnlcreate s u m 0 [] ∧ u.canal? n = some x ∧ x.ctx = w ∧ x.record = record ∧
          x.cursor = record + 0x40 ∧ x.taken = 0 ∧ x.st = .empty ∧ x.head = none ∧ ∀ k, k ≠ n → u.canal? k = s.canal? k) ∧
    (∀ x, Commanded s .cnlresume m → s.canal? n = some x → x.st = .faulted → ∃ u, Ends .cnlresume s u m 0 [] ∧
      u = s.canalAct n { x with st := .empty, fcode := 0 }) ∧
    (∀ x, Commanded s .cnlquery m → s.canal? n = some x → ∃ v, Ends .cnlquery s s m 0 [BitVec.ofNat 64 x.stateWord, x.cursor, BitVec.ofNat 64 x.taken, v]) ∧
    (∀ x, Commanded s .cnldestroy m → s.canal? n = some x → x.st ≠ .dispatching → x.head = none → s.getVa x.ctx (vaBits x.cursor) 8 = some 0 →
      ∃ u, Ends .cnldestroy s u m 0 [] ∧ u.canal? n = none ∧ (∀ k, k ≠ n → u.canal? k = s.canal? k) ∧ u = { s with canals := u.canals }) ∧
    (∀ x id k, Commanded s .cnldestroy m → s.canal? n = some x → x.st ≠ .dispatching → x.head = some id → s.kernel? id = some k →
      k.st = .waiting ∨ k.st = .enqueued → s.getVa x.ctx (vaBits x.cursor) 8 = some 0 →
      ∃ u, Ends .cnldestroy s u m 0 [] ∧ u.canal? n = none ∧ (∀ j, j ≠ id → u.kernel? j = s.kernel? j) ∧
        ∀ k', u.kernel? id = some k' → k'.due = some (.aborted, 0x30)) ∧
    (∀ g cleared, Commanded s .pgdone m → n < 1024 → c.state ≠ .free → (a 2).toNat < 256 → (a 3).toNat < 32 → s.group? (a 2).toNat (a 3).toNat = some g →
      g.ctx = n → g.hold = .pageFault cleared → ∃ u, Ends .pgdone s u m 0 [] ∧ OnlyCore s u (a 2).toNat ∧
        u.group? (a 2).toNat (a 3).toNat = some (if g.gst = .exited then g.endHold else { g with hold := .pageFault true }) ∧
        ∀ l, l ≠ (a 3).toNat → u.group? (a 2).toNat l = s.group? (a 2).toNat l) ∧
    (Commanded s .vminv m → n < 1024 → c.state ≠ .free → ∃ u : State,
      (u.inFlight n (vaBits (a 2)) (a 3).toNat = false → Ends .vminv s u m 0 []) ∧
      (u.inFlight n (vaBits (a 2)) (a 3).toNat = true → exec .vminv s = .next (u.afterStore s)) ∧
      (∀ q t, t ∈ (u.core q).tlb ↔ t ∈ (s.core q).tlb ∧ ¬(t.ctx = n ∧ overlaps (4096 * t.vpage) 4096 (vaBits (a 2)) (a 3).toNat = true)) ∧
      (∀ q l, u.group? q l = s.group? q l) ∧ (s.windowsIn n (vaBits (a 2)) (a 3).toNat = [] → u = { s with cores := u.cores }))) ∧
  (∀ s m, let a := s.mail m
    let n := (a 1).toNat
    let i := (a 2).toNat
    n < 1024 → (s.ctx n).state ≠ .free → i < 4096 →
    (Commanded s .rgnset m →
      let x := (a 3).toNat
      let base := x % 2 ^ 52 / 2 ^ 12 * 2 ^ 12
      let frames := (a 5).toNat % 2 ^ 34
      ∀ k, x / 2 ^ 52 % 8 = 0 → x % 2 ^ 12 = 0 → x / 2 ^ 61 % 4 = 0 → x.testBit 58 = false → (a 5).toNat / 2 ^ 34 = 0 →
        (a 4).toNat / 2 ^ (8 * 2 ^ (x / 2 ^ 56 % 4)) = 0 → a 6 = 0 → s.rangeOk base frames = true → isLink base = false → s.region? n i = none →
        (s.die (dieOfDpa base)).supply 0 frames = some k → s.devstat.getLsbD (8 + dieOfDpa base) = true →
        ∃ u r, Ends .rgnset s u m 0 [] ∧ r ∈ u.regions ∧ r.ctx = n ∧ r.idx = i ∧ r.base = base ∧ r.frames = frames ∧ r.place = 0 ∧
          r.tag = x.testBit 60 ∧ r.ed = x.testBit 59 ∧ r.dat = false ∧ r.view = none ∧ r.born = s.liveAt (dieOfDpa base) ∧
          (∀ q ∈ s.regions, ∃ p ∈ u.regions, p.ctx = q.ctx ∧ p.idx = q.idx ∧ p.base = q.base ∧ p.frames = q.frames) ∧ u.cores = s.cores) ∧
    (Commanded s .rgnset m → (s.region? n i).isSome = true → (a 3).toNat / 2 ^ 52 % 8 ≠ 0 → Ends .rgnset s s m 3 []) ∧
    (∀ r k, Commanded s .rgnpool m → s.region? n i = some r → r.dat = true → (s.die (dieOfDpa r.base)).supply r.place (a 3).toNat = some k →
      r.pool + (a 3).toNat < 2 ^ 32 → ∃ u, Ends .rgnpool s u m 0 [] ∧ u = { s with regions := u.regions, dies := u.dies } ∧
        u.region? n i = some { r with pool := r.pool + (a 3).toNat, poolFar := r.poolFar + k.2 } ∧
        u.die (dieOfDpa r.base) = { s.die (dieOfDpa r.base) with
          near := (s.die (dieOfDpa r.base)).near - k.1, far := (s.die (dieOfDpa r.base)).far - k.2 }) ∧
    (∀ r, Commanded s .rgnplace m → s.region? n i = some r → a 3 = 2 → isLink r.base = false → r.view = none →
      ∃ u, Ends .rgnplace s u m 0 [] ∧ ∃ q ∈ u.regions, q.ctx = n ∧ q.idx = i ∧ q.base = r.base ∧ q.place = 2) ∧
    (∀ r, Commanded s .rgnclear m → s.region? n i = some r → r.view = none → (s.ctx n).state = .ready ∨ (s.ctx n).state = .suspended → s.drains r = false →
      ∃ u, Ends .rgnclear s u m 0 [] ∧ ∀ q ∈ u.regions, ¬(q.ctx = n ∧ q.idx = i)) ∧
    (∀ r, Commanded s .rgnclear m → s.region? n i = some r → (s.ctx n).state = .running → Ends .rgnclear s s m 2 []) ∧
    (Commanded s .rgnquery m → s.region? n i = none → (a 3).toNat < 2 → Ends .rgnquery s s m 0 (List.replicate 6 0)) ∧
    (∀ r, Commanded s .rgnquery m → s.region? n i = some r → (a 3).toNat < 2 →
      ∃ u v, Ends .rgnquery s u m 0 v ∧ v.length = 6 ∧ v.getD 0 0 = BitVec.ofNat 64 r.word3 ∧
        v.getD 4 0 = BitVec.ofNat 64 (s.die (dieOfDpa r.base)).near ∧ v.getD 5 0 = BitVec.ofNat 64 (s.die (dieOfDpa r.base)).far ∧
        (a 3 = 0 → u = s) ∧ (a 3 = 1 → u = { s with regions := u.regions } ∧ u.region? n i = some { r with drops := 0, sticky := false })))

/-- R263–R267, R390, R399, R412–R421, R425, R431: the commands on editions, links, the event queue, test and debug, readiness and power. -/
def Obligations.DeviceCommands : Prop :=
  ∀ s m, let a := s.mail m
    let n := (a 1).toNat
    let known := n < 1024 ∧ (s.ctx n).state ≠ .free
    (Commanded s .edconf m → known → (a 2).toNat < 2 → a 3 = 0 → ∃ u, Ends .edconf s u m 0 [] ∧ u = { s with ctxs := u.ctxs } ∧
      u.ctx n = { s.ctx n with grant := (a 2).getLsbD 0 } ∧ ∀ k, k ≠ n → u.ctx k = s.ctx k) ∧
    (Commanded s .edtarget m → a 1 = 3 → ∃ u, Ends .edtarget s u m 0 [] ∧ u.target.type = 3 ∧ u = { s with target := u.target }) ∧
    (∀ r e, Commanded s .edmap m → known → s.region? n (a 3).toNat = some r → s.edition? (a 2).toNat = some e → (a 3).toNat < 4096 → (a 4).toNat < 4096 →
      s.rangeOk (a 5).toNat r.frames = true → isLink (a 5).toNat = false → r.ed = true → r.born ≤ (a 2).toNat →
      e.st = .sealed ∨ e.st = .draining ∨ e.st = .drained → s.region? n (a 4).toNat = none →
      ∃ u q e', Ends .edmap s u m 0 [] ∧ q ∈ u.regions ∧ q.ctx = n ∧ q.idx = (a 4).toNat ∧ q.base = (a 5).toNat ∧ q.frames = r.frames ∧
        q.view = some ((a 2).toNat, (a 3).toNat) ∧ u.edition? (a 2).toNat = some e' ∧ e'.views = e.views ++ [(n, (a 4).toNat)]) ∧
    (∀ r v, Commanded s .edunmap m → known → s.region? n (a 2).toNat = some r → r.view = some v → (a 2).toNat < 4096 →
      ∃ u, Ends .edunmap s u m 0 [] ∧ ∀ q ∈ u.regions, ¬(q.ctx = n ∧ q.idx = (a 2).toNat)) ∧
    (∀ e, Commanded s .edretire m → s.edition? n = some e → (a 2).toNat < 2 → e.st ≠ .sealing → e.st = .draining → e.views = [] →
      (a 2 = 0 → Ends .edretire s s m 4 []) ∧
      (a 2 = 1 → ∃ u, Ends .edretire s u m 0 [] ∧ u.editions = s.editions.filter fun d => d.seq != n)) ∧
    (Commanded s .edquery m → ∃ v, Ends .edquery s s m 0 v ∧ v.length = 9 ∧
      ∀ e, s.edition? n = some e → v.getD 1 0 = BitVec.ofNat 64 e.t ∧ v.getD 2 0 = BitVec.ofNat 64 e.written.length) ∧
    (Commanded s .lnktrain m → n < 36 → (s.port n).st = .down ∨ (s.port n).st = .degraded ∨ (s.port n).st = .isolated →
      ∃ u, Ends .lnktrain s u m 0 [] ∧ (u.port n).st = .training ∧ ∀ q, q ≠ n → u.port q = s.port q) ∧
    (Commanded s .lnkisolate m → n < 36 → ∃ u, Ends .lnkisolate s u m 0 [] ∧ (u.port n).st = .isolated ∧ ∀ q, q ≠ n → u.port q = s.port q) ∧
    (Commanded s .lnkmap m → n < 2 ^ 15 → (a 2).toNat < 1024 → (s.ctx (a 2).toNat).state ≠ .free → (a 3).toNat < 2 ^ 16 → (a 4).toNat < 2 ^ 48 →
      (a 4).toNat % 2 ^ 30 = 0 → (a 5).toNat < 2 ^ 36 → (a 6).toNat < 2 → (a 7).toNat ≤ 15 → (a 6 = 1 → a 7 = 0) → (a 8).toNat % 8 = 0 →
      get? s.slots n = none → ∃ u x, Ends .lnkmap s u m 0 [] ∧ get? u.slots n = some x ∧ x.ctx = (a 2).toNat ∧ x.peer = (a 3).toNat ∧
        x.rbase = (a 4).toNat ∧ x.ports = (a 5).toNat ∧ (x.reduction = true ↔ a 6 = 1) ∧ x.retry = (a 7).toNat ∧ x.att = 0) ∧
    (∀ x, Commanded s .lnkunmap m → n < 2 ^ 15 → get? s.slots n = some x → (∀ r ∈ s.linkReqs, r.slot ≠ n) →
      Ends .lnkunmap s { s with slots := del s.slots n } m 0 []) ∧
    (∀ x, Commanded s .lnkabort m → n < 2 ^ 15 → get? s.slots n = some x → x.reduction = true →
      ∃ u, Ends .lnkabort s u m 0 [] ∧ get? u.slots n = some { x with att := (x.att + 1) % 2 ^ 16 }) ∧
    (Commanded s .lnkquery m → n < 36 → ∃ v, Ends .lnkquery s s m 0 v ∧ v.length = 4 ∧ v.getD 1 0 = BitVec.ofNat 64 (s.port n).lanes ∧
      v.getD 3 0 = BitVec.ofNat 64 (s.port n).replays) ∧
    (Commanded s .lnkexport m → n < 2 ^ 16 → (a 4).toNat < 8 → a 3 = 0 →
      Ends .lnkexport s { s with exports := s.exports.filter fun x => x.peer != n } m 0 []) ∧
    (Commanded s .hostevq m → n % 4096 = 0 → 7 ≤ (a 2).toNat → (a 2).toNat ≤ 16 → (∀ k < 9, routeOk (a (3 + k)) = true) →
      s.inRegions n (0x80 + 32 * 2 ^ (a 2).toNat) = true → s.events.set = false → s.events.held = [] →
      ∃ u, Ends .hostevq s u m 0 [] ∧ u.events.set = true ∧ u.events.base = n ∧ u.events.log = (a 2).toNat ∧
        ∀ k < 9, u.events.routes.getD k 0 = a (3 + k)) ∧
    (Commanded s .corestat m → n < 256 → let c := s.core n
      Ends .corestat s s m 0 [c.lanemap, if c.inService then 1 else 0, BitVec.ofNat 64 c.replays, BitVec.ofNat 64 c.corrected,
        BitVec.ofNat 64 c.uncorrected]) ∧
    (Commanded s .testconf m → n ≤ 3600000 → 0 < (a 2).toNat → (a 2).toNat ≤ 1000 → ∃ u, Ends .testconf s u m 0 [] ∧ u = { s with test := u.test } ∧
      u.test.interval = n ∧ u.test.drain = (a 2).toNat) ∧
    (Commanded s .dbgarea m → known → (a 2).toNat % 4096 = 0 → ∃ u, Ends .dbgarea s u m 0 [] ∧ u = { s with ctxs := u.ctxs } ∧
      u.ctx n = { s.ctx n with dumpBase := (a 2).toNat, dumpSize := (a 3).toNat } ∧ ∀ k, k ≠ n → u.ctx k = s.ctx k) ∧
    (∀ z, Commanded s .stopcore m → known → (a 2).toNat < 256 → (s.ctx n).state = .running → (s.ctx n).dumpSize ≠ 0 →
      (s.core (a 2).toNat).stop = some z → z.ctx = n → z.code = 0x55 → z.dumped = true → Ends .stopcore s s m 0 []) ∧
    (Commanded s .stopcore m → known → (a 2).toNat < 256 → (s.ctx n).state = .running → (s.ctx n).dumpSize ≠ 0 →
      (s.core (a 2).toNat).stop = none → ∃ u : State, (Ends .stopcore s u m 0 [] ∨ exec .stopcore s = .next (u.afterStore s)) ∧
        (u.core (a 2).toNat).stop.isSome = true ∧ ∀ slot g, s.group? (a 2).toNat slot = some g → g.halt = .none → g.gst ≠ .exited →
          ∃ h, u.group? (a 2).toNat slot = some h ∧ h.halt ≠ .none ∧ h.gst = .preempted ∧ SameRegs g h) ∧
    (∀ g, Commanded s .dbgresume m → known → (a 2).toNat < 256 → (a 3).toNat < 32 → (a 4).toNat < 2 → a 5 = 0 →
      s.group? (a 2).toNat (a 3).toNat = some g → g.ctx = n → g.halt = .none → (s.core (a 2).toNat).stop = none →
      ((s.core (a 2).toNat).groups.map (·.1)).Nodup →
      let gone := fun (h : Hold) => ∃ u, Ends .dbgresume s u m 0 [] ∧ u.group? (a 2).toNat (a 3).toNat =
        some { g with hold := h, stepping := if (a 4).toNat = 1 then g.liveMask else (0 : Mask) } ∧
        (∀ l, l ≠ (a 3).toNat → u.group? (a 2).toNat l = s.group? (a 2).toNat l) ∧ OnlyCore s u (a 2).toNat
      (∀ code, g.hold = .forwarded code false → gone (.forwarded code true)) ∧ (g.hold = .debug false → gone (.debug true)) ∧
      (g.hold = .none → Ends .dbgresume s s m 2 [])) ∧
    (∀ g z, Commanded s .dbgresume m → known → (a 2).toNat < 256 → a 3 = 0xFF → (a 4).toNat < 2 → a 5 = 0 →
      (s.core (a 2).toNat).stop = some z → z.dumped = true → (∃ p ∈ (s.core (a 2).toNat).groups, p.2.ctx = n ∧ p.2.halt = .stopped false) →
      ∃ u, Ends .dbgresume s u m 0 [] ∧ OnlyCore s u (a 2).toNat ∧ (u.core (a 2).toNat).stop = none ∧
        ∀ slot, s.group? (a 2).toNat slot = some g → ∃ h, u.group? (a 2).toNat slot = some h ∧ SameRegs g h ∧ h.threads = g.threads ∧
          h.halt = if g.halt = .stopped false then .stopped true else g.halt) ∧
    (∀ g code, Commanded s .dbgresume m → known → (a 2).toNat < 256 → (a 3).toNat < 32 → (a 4).toNat < 2 → a 5 = 1 →
      s.group? (a 2).toNat (a 3).toNat = some g → g.ctx = n → g.hold = .forwarded code false → ((s.core (a 2).toNat).groups.map (·.1)).Nodup →
      (s.ctx n).state = .running ∨ (s.ctx n).state = .suspended →
      ∃ u, Ends .dbgresume s u m 0 [] ∧ (u.ctx n).state = .faulted ∧ (u.ctx n).fault = s.faultRecord (a 2).toNat (a 3).toNat) ∧
    (Commanded s .watchset m → known → (a 2).toNat ≤ 3 → (a 5).toNat ≤ 3 → a 5 ≠ 0 → 3 ≤ (a 4).toNat → (a 4).toNat ≤ 30 →
      (a 3).toNat % 2 ^ (a 4).toNat = 0 → ∃ u w, Ends .watchset s u m 0 [] ∧ u = { s with ctxs := u.ctxs } ∧
        get? (u.ctx n).watches (a 2).toNat = some w ∧ w.base = a 3 ∧ w.size = 2 ^ (a 4).toNat ∧ w.read = (a 5).getLsbD 0 ∧
        w.write = (a 5).getLsbD 1) ∧
    (Commanded s .watchset m → known → (a 2).toNat ≤ 3 → a 5 = 0 → ∃ u, Ends .watchset s u m 0 [] ∧ u = { s with ctxs := u.ctxs } ∧
      get? (u.ctx n).watches (a 2).toNat = none) ∧
    (Commanded s .devstat m → Ends .devstat s s m 0 [s.devstat]) ∧
    (Commanded s .pwrcap m → 600 ≤ n → n ≤ 1800 → Ends .pwrcap s { s with powerCap := n } m 0 []) ∧
    (Commanded s .pwrcap m → n < 600 ∨ 1800 < n → Ends .pwrcap s s m 3 []) ∧
    (Commanded s .dieresume m → s.devstat.getLsbD 25 = true → (∀ d < 4, d ∈ s.cool) → ∃ u, Ends .dieresume s u m 0 [] ∧ u = { s with devstat := u.devstat } ∧
      u.devstat.getLsbD 25 = false ∧ ∀ d < 4, u.devstat.getLsbD (16 + d) = true)

/-! ### The machine as a whole -/

/-- R84, R85, R87, R92, R93: the worked examples of the manual's instruction words, a reserved opcode, and words with reserved settings. -/
def Obligations.WrittenWordsDecode : Prop :=
  -- IADD.s32 v6, v6, lane
  decodeTableWord 64 0x200180642C000040 =
    some (.iaddA { guard := .always, d := .main 6, a := .main 6, b := .lane, c := .spec (.main 0), ty := .s32, rnd := .rn, sub := 0 }) ∧
  -- LD.weak.s32 v6, [v4]
  decodeTableWord 64 0x9201804000000200 =
    some (.ldB32 { guard := .always, d := .main 6, a := .main 4, off := 0, sx := true, cls := .weak, scope := .thread, low := 0 }) ∧
  -- ST.weak.s32 [v4 + 0x100], v6
  decodeTableWord 64 0x9701804001000000 =
    some (.stB32 { guard := .always, d := .main 6, a := .main 4, off := 0x100, sx := false, cls := .weak, scope := .thread, low := 0 }) ∧
  -- BRA to slot 2 of the clause 24 units back
  decodeTableWord 64 0x0100000FFFE80080 =
    some (.bra { guard := .always, d := .main 0, a := .main 0, off := 0xFFFE8, slot := 2, z := false }) ∧
  decodeTableWord 64 0 = some .nop ∧
  (∀ x, x < 2 ^ 56 → decodeTableWord 64 (0xFE * 2 ^ 56 + x) = some (.reservedOpcodeIssue (BitVec.ofNat 64 (0xFE * 2 ^ 56 + x)))) ∧
  -- G = 0 with GMASK = 1; TYPE 0xE; an index that names nothing
  decodeTableWord 64 0x200180642C000840 = none ∧ decodeTableWord 64 0x200180642C0001C0 = none ∧ decodeTableWord 64 0x2001806430000040 = none

/-- R78–R93: the decoder gives back every instruction that the encoder writes, whatever its operands, and a word that it reads as an assigned
instruction is the word of that instruction. -/
def Obligations.EncodeDecode : Prop :=
  (∀ i w, i.wf = true → encode i = some w → decodeWord w = .ok i) ∧
  (∀ w i, decodeWord w = .ok i → (∀ x, i ≠ .reservedOpcodeIssue x) → encode i = some w) ∧
  ∀ w i, decodeWord w = .ok i → (∃ x, i = .reservedOpcodeIssue x) → i = .reservedOpcodeIssue w ∧ w.toNat / 2 ^ 56 ∈
    ((List.range 13).map (0x13 + ·) ++ (List.range 15).map (0x71 + ·) ++ (List.range 8).map (0x88 + ·) ++ (List.range 6).map (0xBA + ·)
      ++ [0xCE, 0xCF] ++ (List.range 16).map (0xE0 + ·) ++ (List.range 4).map (0xFC + ·))

/-- R65, R67–R69, R75–R77, R93: where nothing but one gang's issue can happen, a step runs the instruction that the word of the gang's slot
decodes to, in the clause that it has entered, and then lets time pass; a word that decodes to none, stands in a clause of another class, or is a
transfer before the last slot, runs as an illegal instruction; threads that stand before a clause, that stall for SETB or that resume a clause
enter it first.  What must follow at once is carried out before anything else, then the events that are due, and where several things can
happen, one of them.  Time passes: registers stand, and where a clock ends, each group's gangs see its shared registers and flags as they are
then (R70, R81, R272). -/
def Obligations.StepRunsDecoded : Prop :=
  let runs := fun (s : State) (i : Instr) (u : State) => step s = match exec i u with
    | .next t => .next t.pass
    | .fault f => .fault f
    | .refused r => .refused r
  let calm := fun (s : State) => s.cutDue = none ∧ s.immediate = [] ∧ s.agenda = []
  (∀ s core slot g t m hdr ws w, calm s → s.enabled = [s.issueOf core slot g t m] →
    (∀ j < 64, has m j = true → (g.thread j).entry ≠ 0 ∧ (g.thread j).refetch = false ∧ g.setbWaits (g.thread j) = false) →
    (g.entryOf t.entry).map (·.words) = some (hdr :: ws) → (hdr :: ws).getD (slotOf t.pc) 0 = w →
    let u : State := { s with cur := { core := core, slot := slot, mask := m, word := w } }
    (∀ i, decodeWord w = .ok i → (match i.cls with
        | some c => c.code = classOf hdr
        | none => i = .nop) → (i.isTransfer = true → slotOf t.pc = countOf hdr) → runs s i u) ∧
    (∀ e, decodeWord w = .error e → runs s (.reservedOpcodeIssue w) u) ∧
    (∀ i c, decodeWord w = .ok i → i.cls = some c → c.code ≠ classOf hdr → runs s (.reservedOpcodeIssue w) u) ∧
    (∀ i, decodeWord w = .ok i → i.isTransfer = true → slotOf t.pc ≠ countOf hdr → runs s (.reservedOpcodeIssue w) u)) ∧
  (∀ s core slot g t m, calm s → s.enabled = [s.issueOf core slot g t m] →
    let those := fun (p : Thread → Bool) => m &&& maskOf fun j => p (g.thread j)
    let enters := fun (k : Mask) => runs s .clauseEntry { s with cur := { core := core, slot := slot, mask := k, word := 0 } }
    let before := those fun t => t.entry == 0
    (before ≠ 0 → enters before) ∧ (before = 0 → those g.setbWaits ≠ 0 → enters (those g.setbWaits)) ∧
      (before = 0 → those g.setbWaits = 0 → those (·.refetch) ≠ 0 → enters (those (·.refetch)))) ∧
  (∀ s, calm s → s.enabled ≠ [] → ∃ x ∈ s.enabled, runs s x.1 x.2) ∧
  (∀ s x l, s.cutDue = none → s.immediate = x :: l → runs s x.1 x.2) ∧
  (∀ s i rest, s.cutDue = none → s.immediate = [] → s.agenda = i :: rest → runs s i { s with agenda := rest }) ∧
  (∀ s, calm s → s.enabled = [] → step s = .next s.pass) ∧
  ∀ s : State, let t := s.pass
    t = { s with n := s.n + 1, ticks := t.ticks, agenda := t.agenda, cores := t.cores } ∧ s.ticks ≤ t.ticks ∧
    (s.ticks / 10 = t.ticks / 10 → t.cores = s.cores) ∧
    (s.ticks / 10 ≠ t.ticks / 10 → ∀ c slot g, s.group? c slot = some g → ∃ h, t.group? c slot = some h ∧ SameRegs g h ∧
      h.seenG = h.g ∧ h.seenK = h.k ∧ h.seenFlags = h.flags ∧ h.acted = 0 ∧ h.woken = 0)

/-- Every step keeps the canonical form of memory, and keeps the identities of operations below the next one (the model's own bookkeeping). -/
def Obligations.InvariantsKept : Prop :=
  Kept MemoryOk ∧ Kept FreshIds

/-- R14, R118, R253, R374, R405 and the rest of what reset leaves: device time 0 and 1 the live edition's number, no region, context, canal,
kernel or group, no target, each core in service with the reset value of LANEMAP and 0 cycles; the two invariants hold.  (The values that the
manual does not give are the model's choice: log 4.) -/
def Obligations.ResetState : Prop :=
  let s := State.reset
  s.ns = 0 ∧ s.live = 1 ∧ s.editions = [] ∧ s.target.type = 3 ∧ s.regions = [] ∧ s.kernels = [] ∧ s.canals = [] ∧
    (∀ n, (s.ctx n).state = .free) ∧ (∀ c l, s.group? c l = none) ∧ s.powerCap = 1800 ∧ s.devstat = 0 ∧
    (∀ c, (s.core c).lanemap = 0x00000000007F007F ∧ (s.core c).inService = true ∧ s.cycles c = 0) ∧ (∀ a, s.stored a = 0) ∧
    MemoryOk s ∧ FreshIds s
end

