-- ==== Sys2Proof/Laws/Bits.lean ====
section
/-! SUPPORT. The bits of a word that is built from its bits. -/

namespace Sys2Proof.Machine

theorem orBits_getLsbD (p : Nat → Bool) (n : Nat) (hn : n ≤ 32) (j : Nat) :
    ((List.range n).foldl (fun x j => if p j then x ||| BitVec.twoPow 32 j else x) (0 : Word32)).getLsbD j = (decide (j < n) && p j) := by
  induction n with
  | zero => simp
  | succ n ih =>
    rw [List.range_succ, List.foldl_append, List.foldl_cons, List.foldl_nil]
    have ih := ih (by omega)
    by_cases hp : p n
    · simp only [hp, if_true, BitVec.getLsbD_or, ih, BitVec.getLsbD_twoPow]
      by_cases hj : j = n
      · subst hj; simp [hp]; omega
      · by_cases h : j < n
        · simp [h, show j < n + 1 by omega, Ne.symm hj]
        · simp [h, show ¬ j < n + 1 by omega, Ne.symm hj]
    · simp only [hp, Bool.false_eq_true, if_false, ih]
      by_cases hj : j = n
      · subst hj; simp [hp]
      · by_cases h : j < n
        · simp [h, show j < n + 1 by omega]
        · simp [h, show ¬ j < n + 1 by omega]

@[simp] theorem wordOf_getLsbD (p : Nat → Bool) (j : Nat) : (wordOf p).getLsbD j = (decide (j < 32) && p j) :=
  orBits_getLsbD p 32 (Nat.le_refl _) j

end Sys2Proof.Machine
end

