-- ==== Sys2Proof/Laws/Dispatch.lean ====
section
/-! SUPPORT. Dispatch: the row that `exec` carries out for each constructor. -/

namespace Sys2Proof.Machine

@[simp] theorem exec_nop (s : State) : exec (.nop) s = execNop s := rfl
@[simp] theorem exec_bra (f : FB) (s : State) : exec (.bra f) s = execBra f s := rfl
@[simp] theorem exec_brc (f : FB) (s : State) : exec (.brc f) s = execBrc f s := rfl
@[simp] theorem exec_brx (f : FSub) (s : State) : exec (.brx f) s = execBrx f s := rfl
@[simp] theorem exec_call (f : FB) (s : State) : exec (.call f) s = execCall f s := rfl
@[simp] theorem exec_callx (f : FSub) (s : State) : exec (.callx f) s = execCallx f s := rfl
@[simp] theorem exec_ret (f : FSub) (s : State) : exec (.ret f) s = execRet f s := rfl
@[simp] theorem exec_exit (f : FSub) (s : State) : exec (.exit f) s = execExit f s := rfl
@[simp] theorem exec_yield (f : FSub) (s : State) : exec (.yield f) s = execYield f s := rfl
@[simp] theorem exec_join (f : FSub) (s : State) : exec (.join f) s = execJoin f s := rfl
@[simp] theorem exec_leave (f : FSub) (s : State) : exec (.leave f) s = execLeave f s := rfl
@[simp] theorem exec_waitm (f : FSub) (s : State) : exec (.waitm f) s = execWaitm f s := rfl
@[simp] theorem exec_mksetA (f : FSub) (s : State) : exec (.mksetA f) s = execMksetA f s := rfl
@[simp] theorem exec_mksetW (f : FWM) (s : State) : exec (.mksetW f) s = execMksetW f s := rfl
@[simp] theorem exec_mklop (f : FSub) (s : State) : exec (.mklop f) s = execMklop f s := rfl
@[simp] theorem exec_mkcnt (f : FSub) (s : State) : exec (.mkcnt f) s = execMkcnt f s := rfl
@[simp] theorem exec_mklane (f : FSub) (s : State) : exec (.mklane f) s = execMklane f s := rfl
@[simp] theorem exec_trap (f : FS) (s : State) : exec (.trap f) s = execTrap f s := rfl
@[simp] theorem exec_bpt (f : FS) (s : State) : exec (.bpt f) s = execBpt f s := rfl
@[simp] theorem exec_iaddA (f : FA) (s : State) : exec (.iaddA f) s = execIaddA f s := rfl
@[simp] theorem exec_iaddW (f : FW) (s : State) : exec (.iaddW f) s = execIaddW f s := rfl
@[simp] theorem exec_isubA (f : FA) (s : State) : exec (.isubA f) s = execIsubA f s := rfl
@[simp] theorem exec_isubW (f : FW) (s : State) : exec (.isubW f) s = execIsubW f s := rfl
@[simp] theorem exec_iaddc (f : FA) (s : State) : exec (.iaddc f) s = execIaddc f s := rfl
@[simp] theorem exec_imulA (f : FA) (s : State) : exec (.imulA f) s = execImulA f s := rfl
@[simp] theorem exec_imulW (f : FW) (s : State) : exec (.imulW f) s = execImulW f s := rfl
@[simp] theorem exec_imulh (f : FA) (s : State) : exec (.imulh f) s = execImulh f s := rfl
@[simp] theorem exec_imadA (f : FA) (s : State) : exec (.imadA f) s = execImadA f s := rfl
@[simp] theorem exec_imadW (f : FW) (s : State) : exec (.imadW f) s = execImadW f s := rfl
@[simp] theorem exec_imadw (f : FA) (s : State) : exec (.imadw f) s = execImadw f s := rfl
@[simp] theorem exec_idiv (f : FA) (s : State) : exec (.idiv f) s = execIdiv f s := rfl
@[simp] theorem exec_irem (f : FA) (s : State) : exec (.irem f) s = execIrem f s := rfl
@[simp] theorem exec_iminA (f : FA) (s : State) : exec (.iminA f) s = execIminA f s := rfl
@[simp] theorem exec_iminW (f : FW) (s : State) : exec (.iminW f) s = execIminW f s := rfl
@[simp] theorem exec_imaxA (f : FA) (s : State) : exec (.imaxA f) s = execImaxA f s := rfl
@[simp] theorem exec_imaxW (f : FW) (s : State) : exec (.imaxW f) s = execImaxW f s := rfl
@[simp] theorem exec_iabs (f : FA) (s : State) : exec (.iabs f) s = execIabs f s := rfl
@[simp] theorem exec_ineg (f : FA) (s : State) : exec (.ineg f) s = execIneg f s := rfl
@[simp] theorem exec_andA (f : FA) (s : State) : exec (.andA f) s = execAndA f s := rfl
@[simp] theorem exec_andW (f : FW) (s : State) : exec (.andW f) s = execAndW f s := rfl
@[simp] theorem exec_orA (f : FA) (s : State) : exec (.orA f) s = execOrA f s := rfl
@[simp] theorem exec_orW (f : FW) (s : State) : exec (.orW f) s = execOrW f s := rfl
@[simp] theorem exec_xorA (f : FA) (s : State) : exec (.xorA f) s = execXorA f s := rfl
@[simp] theorem exec_xorW (f : FW) (s : State) : exec (.xorW f) s = execXorW f s := rfl
@[simp] theorem exec_notA (f : FA) (s : State) : exec (.notA f) s = execNotA f s := rfl
@[simp] theorem exec_lop3 (f : FLop) (s : State) : exec (.lop3 f) s = execLop3 f s := rfl
@[simp] theorem exec_shl (f : FA) (s : State) : exec (.shl f) s = execShl f s := rfl
@[simp] theorem exec_shr (f : FA) (s : State) : exec (.shr f) s = execShr f s := rfl
@[simp] theorem exec_sar (f : FA) (s : State) : exec (.sar f) s = execSar f s := rfl
@[simp] theorem exec_rot (f : FA) (s : State) : exec (.rot f) s = execRot f s := rfl
@[simp] theorem exec_shf (f : FA) (s : State) : exec (.shf f) s = execShf f s := rfl
@[simp] theorem exec_popc (f : FA) (s : State) : exec (.popc f) s = execPopc f s := rfl
@[simp] theorem exec_clz (f : FA) (s : State) : exec (.clz f) s = execClz f s := rfl
@[simp] theorem exec_ctz (f : FA) (s : State) : exec (.ctz f) s = execCtz f s := rfl
@[simp] theorem exec_brev (f : FA) (s : State) : exec (.brev f) s = execBrev f s := rfl
@[simp] theorem exec_bfe (f : FA) (s : State) : exec (.bfe f) s = execBfe f s := rfl
@[simp] theorem exec_bfi (f : FA) (s : State) : exec (.bfi f) s = execBfi f s := rfl
@[simp] theorem exec_prmt (f : FA) (s : State) : exec (.prmt f) s = execPrmt f s := rfl
@[simp] theorem exec_isetA (f : FA) (s : State) : exec (.isetA f) s = execIsetA f s := rfl
@[simp] theorem exec_isetW (f : FW) (s : State) : exec (.isetW f) s = execIsetW f s := rfl
@[simp] theorem exec_isel (f : FA) (s : State) : exec (.isel f) s = execIsel f s := rfl
@[simp] theorem exec_mov (f : FA) (s : State) : exec (.mov f) s = execMov f s := rfl
@[simp] theorem exec_movi (f : FW) (s : State) : exec (.movi f) s = execMovi f s := rfl
@[simp] theorem exec_movg (f : FA) (s : State) : exec (.movg f) s = execMovg f s := rfl
@[simp] theorem exec_lea (f : FA) (s : State) : exec (.lea f) s = execLea f s := rfl
@[simp] theorem exec_iadd64 (f : FA) (s : State) : exec (.iadd64 f) s = execIadd64 f s := rfl
@[simp] theorem exec_idot4 (f : FA) (s : State) : exec (.idot4 f) s = execIdot4 f s := rfl
@[simp] theorem exec_faddA (f : FA) (s : State) : exec (.faddA f) s = execFaddA f s := rfl
@[simp] theorem exec_faddW (f : FW) (s : State) : exec (.faddW f) s = execFaddW f s := rfl
@[simp] theorem exec_fsub (f : FA) (s : State) : exec (.fsub f) s = execFsub f s := rfl
@[simp] theorem exec_fmulA (f : FA) (s : State) : exec (.fmulA f) s = execFmulA f s := rfl
@[simp] theorem exec_fmulW (f : FW) (s : State) : exec (.fmulW f) s = execFmulW f s := rfl
@[simp] theorem exec_ffmaA (f : FA) (s : State) : exec (.ffmaA f) s = execFfmaA f s := rfl
@[simp] theorem exec_ffmaW (f : FW) (s : State) : exec (.ffmaW f) s = execFfmaW f s := rfl
@[simp] theorem exec_fminA (f : FA) (s : State) : exec (.fminA f) s = execFminA f s := rfl
@[simp] theorem exec_fminW (f : FW) (s : State) : exec (.fminW f) s = execFminW f s := rfl
@[simp] theorem exec_fmaxA (f : FA) (s : State) : exec (.fmaxA f) s = execFmaxA f s := rfl
@[simp] theorem exec_fmaxW (f : FW) (s : State) : exec (.fmaxW f) s = execFmaxW f s := rfl
@[simp] theorem exec_fsetA (f : FA) (s : State) : exec (.fsetA f) s = execFsetA f s := rfl
@[simp] theorem exec_fsetW (f : FW) (s : State) : exec (.fsetW f) s = execFsetW f s := rfl
@[simp] theorem exec_fclass (f : FA) (s : State) : exec (.fclass f) s = execFclass f s := rfl
@[simp] theorem exec_frcp (f : FA) (s : State) : exec (.frcp f) s = execFrcp f s := rfl
@[simp] theorem exec_frsq (f : FA) (s : State) : exec (.frsq f) s = execFrsq f s := rfl
@[simp] theorem exec_fsqrt (f : FA) (s : State) : exec (.fsqrt f) s = execFsqrt f s := rfl
@[simp] theorem exec_fdiv (f : FA) (s : State) : exec (.fdiv f) s = execFdiv f s := rfl
@[simp] theorem exec_fexp2 (f : FA) (s : State) : exec (.fexp2 f) s = execFexp2 f s := rfl
@[simp] theorem exec_flog2 (f : FA) (s : State) : exec (.flog2 f) s = execFlog2 f s := rfl
@[simp] theorem exec_fsin (f : FA) (s : State) : exec (.fsin f) s = execFsin f s := rfl
@[simp] theorem exec_fcos (f : FA) (s : State) : exec (.fcos f) s = execFcos f s := rfl
@[simp] theorem exec_ftanh (f : FA) (s : State) : exec (.ftanh f) s = execFtanh f s := rfl
@[simp] theorem exec_hadd2 (f : FA) (s : State) : exec (.hadd2 f) s = execHadd2 f s := rfl
@[simp] theorem exec_hmul2 (f : FA) (s : State) : exec (.hmul2 f) s = execHmul2 f s := rfl
@[simp] theorem exec_hfma2 (f : FA) (s : State) : exec (.hfma2 f) s = execHfma2 f s := rfl
@[simp] theorem exec_hmnmx2 (f : FA) (s : State) : exec (.hmnmx2 f) s = execHmnmx2 f s := rfl
@[simp] theorem exec_bfma2 (f : FA) (s : State) : exec (.bfma2 f) s = execBfma2 f s := rfl
@[simp] theorem exec_cvt (f : FCvt) (s : State) : exec (.cvt f) s = execCvt f s := rfl
@[simp] theorem exec_cvtq (f : FCvq) (s : State) : exec (.cvtq f) s = execCvtq f s := rfl
@[simp] theorem exec_cvtd (f : FA) (s : State) : exec (.cvtd f) s = execCvtd f s := rfl
@[simp] theorem exec_frnd (f : FA) (s : State) : exec (.frnd f) s = execFrnd f s := rfl
@[simp] theorem exec_fscale (f : FA) (s : State) : exec (.fscale f) s = execFscale f s := rfl
@[simp] theorem exec_shfl (f : FA) (s : State) : exec (.shfl f) s = execShfl f s := rfl
@[simp] theorem exec_shflx (f : FShx) (s : State) : exec (.shflx f) s = execShflx f s := rfl
@[simp] theorem exec_bcast (f : FA) (s : State) : exec (.bcast f) s = execBcast f s := rfl
@[simp] theorem exec_vote (f : FA) (s : State) : exec (.vote f) s = execVote f s := rfl
@[simp] theorem exec_redux (f : FA) (s : State) : exec (.redux f) s = execRedux f s := rfl
@[simp] theorem exec_fredux (f : FA) (s : State) : exec (.fredux f) s = execFredux f s := rfl
@[simp] theorem exec_scan (f : FA) (s : State) : exec (.scan f) s = execScan f s := rfl
@[simp] theorem exec_laneMatch (f : FA) (s : State) : exec (.laneMatch f) s = execLaneMatch f s := rfl
@[simp] theorem exec_ldB8 (f : FM) (s : State) : exec (.ldB8 f) s = execLdB8 f s := rfl
@[simp] theorem exec_ldB16 (f : FM) (s : State) : exec (.ldB16 f) s = execLdB16 f s := rfl
@[simp] theorem exec_ldB32 (f : FM) (s : State) : exec (.ldB32 f) s = execLdB32 f s := rfl
@[simp] theorem exec_ldB64 (f : FM) (s : State) : exec (.ldB64 f) s = execLdB64 f s := rfl
@[simp] theorem exec_ldB128 (f : FM) (s : State) : exec (.ldB128 f) s = execLdB128 f s := rfl
@[simp] theorem exec_stB8 (f : FM) (s : State) : exec (.stB8 f) s = execStB8 f s := rfl
@[simp] theorem exec_stB16 (f : FM) (s : State) : exec (.stB16 f) s = execStB16 f s := rfl
@[simp] theorem exec_stB32 (f : FM) (s : State) : exec (.stB32 f) s = execStB32 f s := rfl
@[simp] theorem exec_stB64 (f : FM) (s : State) : exec (.stB64 f) s = execStB64 f s := rfl
@[simp] theorem exec_stB128 (f : FM) (s : State) : exec (.stB128 f) s = execStB128 f s := rfl
@[simp] theorem exec_ldlB8 (f : FM) (s : State) : exec (.ldlB8 f) s = execLdlB8 f s := rfl
@[simp] theorem exec_ldlB16 (f : FM) (s : State) : exec (.ldlB16 f) s = execLdlB16 f s := rfl
@[simp] theorem exec_ldlB32 (f : FM) (s : State) : exec (.ldlB32 f) s = execLdlB32 f s := rfl
@[simp] theorem exec_ldlB64 (f : FM) (s : State) : exec (.ldlB64 f) s = execLdlB64 f s := rfl
@[simp] theorem exec_ldlB128 (f : FM) (s : State) : exec (.ldlB128 f) s = execLdlB128 f s := rfl
@[simp] theorem exec_stlB8 (f : FM) (s : State) : exec (.stlB8 f) s = execStlB8 f s := rfl
@[simp] theorem exec_stlB16 (f : FM) (s : State) : exec (.stlB16 f) s = execStlB16 f s := rfl
@[simp] theorem exec_stlB32 (f : FM) (s : State) : exec (.stlB32 f) s = execStlB32 f s := rfl
@[simp] theorem exec_stlB64 (f : FM) (s : State) : exec (.stlB64 f) s = execStlB64 f s := rfl
@[simp] theorem exec_stlB128 (f : FM) (s : State) : exec (.stlB128 f) s = execStlB128 f s := rfl
@[simp] theorem exec_ldt (f : FM) (s : State) : exec (.ldt f) s = execLdt f s := rfl
@[simp] theorem exec_wmap (f : FSub) (s : State) : exec (.wmap f) s = execWmap f s := rfl
@[simp] theorem exec_wunmap (f : FSub) (s : State) : exec (.wunmap f) s = execWunmap f s := rfl
@[simp] theorem exec_wsync (f : FSub) (s : State) : exec (.wsync f) s = execWsync f s := rfl
@[simp] theorem exec_winv (f : FSub) (s : State) : exec (.winv f) s = execWinv f s := rfl
@[simp] theorem exec_wquery (f : FSub) (s : State) : exec (.wquery f) s = execWquery f s := rfl
@[simp] theorem exec_atomB32 (f : FAt) (s : State) : exec (.atomB32 f) s = execAtomB32 f s := rfl
@[simp] theorem exec_atomB64 (f : FAt) (s : State) : exec (.atomB64 f) s = execAtomB64 f s := rfl
@[simp] theorem exec_atomlB32 (f : FAt) (s : State) : exec (.atomlB32 f) s = execAtomlB32 f s := rfl
@[simp] theorem exec_atomlB64 (f : FAt) (s : State) : exec (.atomlB64 f) s = execAtomlB64 f s := rfl
@[simp] theorem exec_redB32 (f : FAt) (s : State) : exec (.redB32 f) s = execRedB32 f s := rfl
@[simp] theorem exec_redB64 (f : FAt) (s : State) : exec (.redB64 f) s = execRedB64 f s := rfl
@[simp] theorem exec_fence (f : FS) (s : State) : exec (.fence f) s = execFence f s := rfl
@[simp] theorem exec_pref (f : FM) (s : State) : exec (.pref f) s = execPref f s := rfl
@[simp] theorem exec_survey (f : FSub) (s : State) : exec (.survey f) s = execSurvey f s := rfl
@[simp] theorem exec_probe (f : FSub) (s : State) : exec (.probe f) s = execProbe f s := rfl
@[simp] theorem exec_discard (f : FSub) (s : State) : exec (.discard f) s = execDiscard f s := rfl
@[simp] theorem exec_sealRange (f : FSub) (s : State) : exec (.sealRange f) s = execSeal f s := rfl
@[simp] theorem exec_unsealRange (f : FSub) (s : State) : exec (.unsealRange f) s = execUnseal f s := rfl
@[simp] theorem exec_stag (f : FM) (s : State) : exec (.stag f) s = execStag f s := rfl
@[simp] theorem exec_ltag (f : FM) (s : State) : exec (.ltag f) s = execLtag f s := rfl
@[simp] theorem exec_cctl (f : FM) (s : State) : exec (.cctl f) s = execCctl f s := rfl
@[simp] theorem exec_barinit (f : FBar) (s : State) : exec (.barinit f) s = execBarinit f s := rfl
@[simp] theorem exec_bararv (f : FBar) (s : State) : exec (.bararv f) s = execBararv f s := rfl
@[simp] theorem exec_barwait (f : FBar) (s : State) : exec (.barwait f) s = execBarwait f s := rfl
@[simp] theorem exec_barexp (f : FBar) (s : State) : exec (.barexp f) s = execBarexp f s := rfl
@[simp] theorem exec_bartry (f : FBar) (s : State) : exec (.bartry f) s = execBartry f s := rfl
@[simp] theorem exec_cpyG2l (f : FCpy) (s : State) : exec (.cpyG2l f) s = execCpyG2l f s := rfl
@[simp] theorem exec_cpyL2g (f : FCpy) (s : State) : exec (.cpyL2g f) s = execCpyL2g f s := rfl
@[simp] theorem exec_cpyL2l (f : FCpy) (s : State) : exec (.cpyL2l f) s = execCpyL2l f s := rfl
@[simp] theorem exec_cpyg (f : FCpy) (s : State) : exec (.cpyg f) s = execCpyg f s := rfl
@[simp] theorem exec_cpys (f : FCpy) (s : State) : exec (.cpys f) s = execCpys f s := rfl
@[simp] theorem exec_tagwaitAny (f : FSub) (s : State) : exec (.tagwaitAny f) s = execTagwaitAny f s := rfl
@[simp] theorem exec_tagwaitAll (f : FSub) (s : State) : exec (.tagwaitAll f) s = execTagwaitAll f s := rfl
@[simp] theorem exec_tagfirst (f : FSub) (s : State) : exec (.tagfirst f) s = execTagfirst f s := rfl
@[simp] theorem exec_tagclr (f : FSub) (s : State) : exec (.tagclr f) s = execTagclr f s := rfl
@[simp] theorem exec_mmaF16 (f : FMma) (s : State) : exec (.mmaF16 f) s = execMmaF16 f s := rfl
@[simp] theorem exec_mmaBf16 (f : FMma) (s : State) : exec (.mmaBf16 f) s = execMmaBf16 f s := rfl
@[simp] theorem exec_mmaVt8 (f : FMma) (s : State) : exec (.mmaVt8 f) s = execMmaVt8 f s := rfl
@[simp] theorem exec_mmaS8 (f : FMma) (s : State) : exec (.mmaS8 f) s = execMmaS8 f s := rfl
@[simp] theorem exec_mmaN8 (f : FMma) (s : State) : exec (.mmaN8 f) s = execMmaN8 f s := rfl
@[simp] theorem exec_mmas (f : FMma) (s : State) : exec (.mmas f) s = execMmas f s := rfl
@[simp] theorem exec_mzero (f : FEng) (s : State) : exec (.mzero f) s = execMzero f s := rfl
@[simp] theorem exec_mldt (f : FTile) (s : State) : exec (.mldt f) s = execMldt f s := rfl
@[simp] theorem exec_mstt (f : FTile) (s : State) : exec (.mstt f) s = execMstt f s := rfl
@[simp] theorem exec_mdrain (f : FTile) (s : State) : exec (.mdrain f) s = execMdrain f s := rfl
@[simp] theorem exec_malloc (f : FEng) (s : State) : exec (.malloc f) s = execMalloc f s := rfl
@[simp] theorem exec_mfree (f : FEng) (s : State) : exec (.mfree f) s = execMfree f s := rfl
@[simp] theorem exec_grbind (f : FEng) (s : State) : exec (.grbind f) s = execGrbind f s := rfl
@[simp] theorem exec_greval (f : FEng) (s : State) : exec (.greval f) s = execGreval f s := rfl
@[simp] theorem exec_grstat (f : FEng) (s : State) : exec (.grstat f) s = execGrstat f s := rfl
@[simp] theorem exec_nzscan (f : FEng) (s : State) : exec (.nzscan f) s = execNzscan f s := rfl
@[simp] theorem exec_launch (f : FSub) (s : State) : exec (.launch f) s = execLaunch f s := rfl
@[simp] theorem exec_snap (f : FS) (s : State) : exec (.snap f) s = execSnap f s := rfl
@[simp] theorem exec_edstat (f : FS) (s : State) : exec (.edstat f) s = execEdstat f s := rfl
@[simp] theorem exec_sreadA (f : FSub) (s : State) : exec (.sreadA f) s = execSreadA f s := rfl
@[simp] theorem exec_sreadS (f : FS) (s : State) : exec (.sreadS f) s = execSreadS f s := rfl
@[simp] theorem exec_swriteA (f : FSub) (s : State) : exec (.swriteA f) s = execSwriteA f s := rfl
@[simp] theorem exec_swriteS (f : FS) (s : State) : exec (.swriteS f) s = execSwriteS f s := rfl
@[simp] theorem exec_clock (f : FS) (s : State) : exec (.clock f) s = execClock f s := rfl
@[simp] theorem exec_stamp (f : FS) (s : State) : exec (.stamp f) s = execStamp f s := rfl
@[simp] theorem exec_regq (f : FS) (s : State) : exec (.regq f) s = execRegq f s := rfl
@[simp] theorem exec_signal (f : FS) (s : State) : exec (.signal f) s = execSignal f s := rfl
@[simp] theorem exec_halt (f : FS) (s : State) : exec (.halt f) s = execHalt f s := rfl
@[simp] theorem exec_reservedOpcodeIssue (w : BitVec 64) (s : State) : exec (.reservedOpcodeIssue w) s = execReservedOpcodeIssue w s := rfl
@[simp] theorem exec_operandsConsumed (core op : Nat) (s : State) : exec (.operandsConsumed core op) s = execOperandsConsumed core op s := rfl
@[simp] theorem exec_operationComplete (core op : Nat) (s : State) : exec (.operationComplete core op) s = execOperationComplete core op s := rfl
@[simp] theorem exec_maskWaitRelease (core slot k : Nat) (s : State) : exec (.maskWaitRelease core slot k) s = execMaskWaitRelease core slot k s := rfl
@[simp] theorem exec_maskWaitLeave (core slot mark : Nat) (s : State) : exec (.maskWaitLeave core slot mark) s = execMaskWaitLeave core slot mark s := rfl
@[simp] theorem exec_collectiveComplete (core slot lane : Nat) (s : State) : exec (.collectiveComplete core slot lane) s = execCollectiveComplete core slot lane s := rfl
@[simp] theorem exec_collectiveDeliver (core slot mark : Nat) (s : State) : exec (.collectiveDeliver core slot mark) s = execCollectiveDeliver core slot mark s := rfl
@[simp] theorem exec_groupTrapStop (core slot : Nat) (s : State) : exec (.groupTrapStop core slot) s = execGroupTrapStop core slot s := rfl
@[simp] theorem exec_groupRestore (core slot : Nat) (s : State) : exec (.groupRestore core slot) s = execGroupRestore core slot s := rfl
@[simp] theorem exec_naturalSwap (core leaving entering : Nat) (s : State) : exec (.naturalSwap core leaving entering) s = execNaturalSwap core leaving entering s := rfl
@[simp] theorem exec_forcedSwap (core : Nat) (s : State) : exec (.forcedSwap core) s = execForcedSwap core s := rfl
@[simp] theorem exec_scoreDecay (core : Nat) (s : State) : exec (.scoreDecay core) s = execScoreDecay core s := rfl
@[simp] theorem exec_regqGrant (core team : Nat) (s : State) : exec (.regqGrant core team) s = execRegqGrant core team s := rfl
@[simp] theorem exec_groupSlotRelease (core slot : Nat) (s : State) : exec (.groupSlotRelease core slot) s = execGroupSlotRelease core slot s := rfl
@[simp] theorem exec_canalWatchStore (canal : Nat) (s : State) : exec (.canalWatchStore canal) s = execCanalWatchStore canal s := rfl
@[simp] theorem exec_kernelComplete (kernel : Nat) (s : State) : exec (.kernelComplete kernel) s = execKernelComplete kernel s := rfl
@[simp] theorem exec_homeFillRequest (core op lane : Nat) (bytes : BitVec 16) (s : State) : exec (.homeFillRequest core op lane bytes) s = execHomeFillRequest core op lane bytes s := rfl
@[simp] theorem exec_homeStoreRequest (core slot id : Nat) (bytes : BitVec 16) (s : State) : exec (.homeStoreRequest core slot id bytes) s = execHomeStoreRequest core slot id bytes s := rfl
@[simp] theorem exec_homeAtomicRequest (core op addr : Nat) (s : State) : exec (.homeAtomicRequest core op addr) s = execHomeAtomicRequest core op addr s := rfl
@[simp] theorem exec_heldStoresPerform (page : Nat) (s : State) : exec (.heldStoresPerform page) s = execHeldStoresPerform page s := rfl
@[simp] theorem exec_lineWriteback (line : Nat) (s : State) : exec (.lineWriteback line) s = execLineWriteback line s := rfl
@[simp] theorem exec_pageRelease (page : Nat) (s : State) : exec (.pageRelease page) s = execPageRelease page s := rfl
@[simp] theorem exec_storeAckArrival (core slot id : Nat) (s : State) : exec (.storeAckArrival core slot id) s = execStoreAckArrival core slot id s := rfl
@[simp] theorem exec_leaseExpiry (core line : Nat) (s : State) : exec (.leaseExpiry core line) s = execLeaseExpiry core line s := rfl
@[simp] theorem exec_fenceStallEnd (core op : Nat) (s : State) : exec (.fenceStallEnd core op) s = execFenceStallEnd core op s := rfl
@[simp] theorem exec_engineLockWaitEnd (core op : Nat) (s : State) : exec (.engineLockWaitEnd core op) s = execEngineLockWaitEnd core op s := rfl
@[simp] theorem exec_copyPageReach (core op : Nat) (s : State) : exec (.copyPageReach core op) s = execCopyPageReach core op s := rfl
@[simp] theorem exec_copyByteDelivery (core op n : Nat) (s : State) : exec (.copyByteDelivery core op n) s = execCopyByteDelivery core op n s := rfl
@[simp] theorem exec_copyComplete (core op : Nat) (s : State) : exec (.copyComplete core op) s = execCopyComplete core op s := rfl
@[simp] theorem exec_migrationTick (die : Nat) (s : State) : exec (.migrationTick die) s = execMigrationTick die s := rfl
@[simp] theorem exec_heatDecay (die : Nat) (s : State) : exec (.heatDecay die) s = execHeatDecay die s := rfl
@[simp] theorem exec_migrationSwitch (page : Nat) (s : State) : exec (.migrationSwitch page) s = execMigrationSwitch page s := rfl
@[simp] theorem exec_hostHalfRead (dpa len : Nat) (s : State) : exec (.hostHalfRead dpa len) s = execHostHalfRead dpa len s := rfl
@[simp] theorem exec_hostWriteback (half : Nat) (stores : List (Nat × BitVec 8)) (keep : Bool) (s : State) : exec (.hostWriteback half stores keep) s = execHostWriteback half stores keep s := rfl
@[simp] theorem exec_homeApplyCut (edition die : Nat) (s : State) : exec (.homeApplyCut edition die) s = execHomeApplyCut edition die s := rfl
@[simp] theorem exec_editionCutDone (edition : Nat) (s : State) : exec (.editionCutDone edition) s = execEditionCutDone edition s := rfl
@[simp] theorem exec_cowBackgroundFill (page : Nat) (s : State) : exec (.cowBackgroundFill page) s = execCowBackgroundFill page s := rfl
@[simp] theorem exec_drainPageWrite (die : Nat) (s : State) : exec (.drainPageWrite die) s = execDrainPageWrite die s := rfl
@[simp] theorem exec_drainTargetAck (edition : Nat) (s : State) : exec (.drainTargetAck edition) s = execDrainTargetAck edition s := rfl
@[simp] theorem exec_chunkAckTimeout (edition : Nat) (s : State) : exec (.chunkAckTimeout edition) s = execChunkAckTimeout edition s := rfl
@[simp] theorem exec_linkBulkTimeout (request : Nat) (s : State) : exec (.linkBulkTimeout request) s = execLinkBulkTimeout request s := rfl
@[simp] theorem exec_linkInboundRequest (peer : Nat) (slotAtt : Option (Nat × Nat)) (dpa : Nat) (access : Inbound) (s : State) : exec (.linkInboundRequest peer slotAtt dpa access) s = execLinkInboundRequest peer slotAtt dpa access s := rfl
@[simp] theorem exec_pcieInboundDma (dpa len : Nat) (write : Option (List (BitVec 8))) (s : State) : exec (.pcieInboundDma dpa len write) s = execPcieInboundDma dpa len write s := rfl
@[simp] theorem exec_coreIdleTimeout (core : Nat) (s : State) : exec (.coreIdleTimeout core) s = execCoreIdleTimeout core s := rfl
@[simp] theorem exec_coreGateTimeout (core : Nat) (s : State) : exec (.coreGateTimeout core) s = execCoreGateTimeout core s := rfl
@[simp] theorem exec_snapRequestAtReference (core op : Nat) (s : State) : exec (.snapRequestAtReference core op) s = execSnapRequestAtReference core op s := rfl
@[simp] theorem exec_remoteStoreAcknowledge (idx : Nat) (s : State) : exec (.remoteStoreAcknowledge idx) s = execRemoteStoreAcknowledge idx s := rfl
@[simp] theorem exec_hostOwnershipRequest (half : Nat) (s : State) : exec (.hostOwnershipRequest half) s = execHostOwnershipRequest half s := rfl
@[simp] theorem exec_hostOwnershipGrant (half : Nat) (stores : List (Nat × BitVec 8)) (s : State) : exec (.hostOwnershipGrant half stores) s = execHostOwnershipGrant half stores s := rfl
@[simp] theorem exec_linkAckArrival (request : Nat) (reply : LinkReply) (s : State) : exec (.linkAckArrival request reply) s = execLinkAckArrival request reply s := rfl
@[simp] theorem exec_linkAbortTokenArrival (slot att : Nat) (s : State) : exec (.linkAbortTokenArrival slot att) s = execLinkAbortTokenArrival slot att s := rfl
@[simp] theorem exec_hostDirectoryMerge (base : Nat) (s : State) : exec (.hostDirectoryMerge base) s = execHostDirectoryMerge base s := rfl
@[simp] theorem exec_keeperResume (core slot : Nat) (writes : List (Nat × BitVec 64)) (s : State) : exec (.keeperResume core slot writes) s = execKeeperResume core slot writes s := rfl
@[simp] theorem exec_linkTrainingEnd (port lanes peer : Nat) (s : State) : exec (.linkTrainingEnd port lanes peer) s = execLinkTrainingEnd port lanes peer s := rfl
@[simp] theorem exec_linkLaneError (port : Nat) (s : State) : exec (.linkLaneError port) s = execLinkLaneError port s := rfl
@[simp] theorem exec_linkFlitReceive (port : Nat) (accepted : Bool) (s : State) : exec (.linkFlitReceive port accepted) s = execLinkFlitReceive port accepted s := rfl
@[simp] theorem exec_mailboxWrite (m word : Nat) (value : BitVec 64) (s : State) : exec (.mailboxWrite m word value) s = execMailboxWrite m word value s := rfl
@[simp] theorem exec_laneFailure (core lane : Nat) (s : State) : exec (.laneFailure core lane) s = execLaneFailure core lane s := rfl
@[simp] theorem exec_timingReplay (core : Nat) (s : State) : exec (.timingReplay core) s = execTimingReplay core s := rfl
@[simp] theorem exec_eccCorrected (core : Nat) (s : State) : exec (.eccCorrected core) s = execEccCorrected core s := rfl
@[simp] theorem exec_uncorrectableError (site : ErrSite) (s : State) : exec (.uncorrectableError site) s = execUncorrectableError site s := rfl
@[simp] theorem exec_scanComplete (lanes : List (Nat × Nat)) (failed : List Nat) (s : State) : exec (.scanComplete lanes failed) s = execScanComplete lanes failed s := rfl
@[simp] theorem exec_dieTemp105 (die : Nat) (s : State) : exec (.dieTemp105 die) s = execDieTemp105 die s := rfl
@[simp] theorem exec_dieCool95 (die : Nat) (s : State) : exec (.dieCool95 die) s = execDieCool95 die s := rfl
@[simp] theorem exec_coldReset (failed : List Nat) (s : State) : exec (.coldReset failed) s = execColdReset failed s := rfl
@[simp] theorem exec_keeperFailure (die idx : Nat) (s : State) : exec (.keeperFailure die idx) s = execKeeperFailure die idx s := rfl
@[simp] theorem exec_functionReady (bit : Nat) (s : State) : exec (.functionReady bit) s = execFunctionReady bit s := rfl
@[simp] theorem exec_clauseEntry (s : State) : exec (.clauseEntry) s = execClauseEntry s := rfl
@[simp] theorem exec_distributorTurn (s : State) : exec (.distributorTurn) s = execDistributorTurn s := rfl
@[simp] theorem exec_heldEventPost (s : State) : exec (.heldEventPost) s = execHeldEventPost s := rfl
@[simp] theorem exec_scanTestTurn (s : State) : exec (.scanTestTurn) s = execScanTestTurn s := rfl
@[simp] theorem exec_scanDrainTimeout (s : State) : exec (.scanDrainTimeout) s = execScanDrainTimeout s := rfl
@[simp] theorem exec_scanUnitEmpty (s : State) : exec (.scanUnitEmpty) s = execScanUnitEmpty s := rfl
@[simp] theorem exec_powerCapExceeded (s : State) : exec (.powerCapExceeded) s = execPowerCapExceeded s := rfl
@[simp] theorem exec_thermalStop (s : State) : exec (.thermalStop) s = execThermalStop s := rfl
@[simp] theorem exec_deviceSignalAccepted (s : State) : exec (.deviceSignalAccepted) s = execDeviceSignalAccepted s := rfl
@[simp] theorem exec_ctxcreate (s : State) : exec (.ctxcreate) s = execCtxcreate s := rfl
@[simp] theorem exec_ctxrun (s : State) : exec (.ctxrun) s = execCtxrun s := rfl
@[simp] theorem exec_ctxsuspend (s : State) : exec (.ctxsuspend) s = execCtxsuspend s := rfl
@[simp] theorem exec_ctxresume (s : State) : exec (.ctxresume) s = execCtxresume s := rfl
@[simp] theorem exec_ctxmode (s : State) : exec (.ctxmode) s = execCtxmode s := rfl
@[simp] theorem exec_ctxquery (s : State) : exec (.ctxquery) s = execCtxquery s := rfl
@[simp] theorem exec_ctxdestroy (s : State) : exec (.ctxdestroy) s = execCtxdestroy s := rfl
@[simp] theorem exec_cnlcreate (s : State) : exec (.cnlcreate) s = execCnlcreate s := rfl
@[simp] theorem exec_cnlresume (s : State) : exec (.cnlresume) s = execCnlresume s := rfl
@[simp] theorem exec_cnlquery (s : State) : exec (.cnlquery) s = execCnlquery s := rfl
@[simp] theorem exec_cnldestroy (s : State) : exec (.cnldestroy) s = execCnldestroy s := rfl
@[simp] theorem exec_pgdone (s : State) : exec (.pgdone) s = execPgdone s := rfl
@[simp] theorem exec_rgnset (s : State) : exec (.rgnset) s = execRgnset s := rfl
@[simp] theorem exec_rgnpool (s : State) : exec (.rgnpool) s = execRgnpool s := rfl
@[simp] theorem exec_rgnplace (s : State) : exec (.rgnplace) s = execRgnplace s := rfl
@[simp] theorem exec_rgnclear (s : State) : exec (.rgnclear) s = execRgnclear s := rfl
@[simp] theorem exec_rgnquery (s : State) : exec (.rgnquery) s = execRgnquery s := rfl
@[simp] theorem exec_vminv (s : State) : exec (.vminv) s = execVminv s := rfl
@[simp] theorem exec_edconf (s : State) : exec (.edconf) s = execEdconf s := rfl
@[simp] theorem exec_edtarget (s : State) : exec (.edtarget) s = execEdtarget s := rfl
@[simp] theorem exec_edmap (s : State) : exec (.edmap) s = execEdmap s := rfl
@[simp] theorem exec_edunmap (s : State) : exec (.edunmap) s = execEdunmap s := rfl
@[simp] theorem exec_edretire (s : State) : exec (.edretire) s = execEdretire s := rfl
@[simp] theorem exec_edquery (s : State) : exec (.edquery) s = execEdquery s := rfl
@[simp] theorem exec_lnktrain (s : State) : exec (.lnktrain) s = execLnktrain s := rfl
@[simp] theorem exec_lnkisolate (s : State) : exec (.lnkisolate) s = execLnkisolate s := rfl
@[simp] theorem exec_lnkmap (s : State) : exec (.lnkmap) s = execLnkmap s := rfl
@[simp] theorem exec_lnkunmap (s : State) : exec (.lnkunmap) s = execLnkunmap s := rfl
@[simp] theorem exec_lnkabort (s : State) : exec (.lnkabort) s = execLnkabort s := rfl
@[simp] theorem exec_lnkquery (s : State) : exec (.lnkquery) s = execLnkquery s := rfl
@[simp] theorem exec_lnkexport (s : State) : exec (.lnkexport) s = execLnkexport s := rfl
@[simp] theorem exec_hostevq (s : State) : exec (.hostevq) s = execHostevq s := rfl
@[simp] theorem exec_corestat (s : State) : exec (.corestat) s = execCorestat s := rfl
@[simp] theorem exec_testconf (s : State) : exec (.testconf) s = execTestconf s := rfl
@[simp] theorem exec_dbgarea (s : State) : exec (.dbgarea) s = execDbgarea s := rfl
@[simp] theorem exec_stopcore (s : State) : exec (.stopcore) s = execStopcore s := rfl
@[simp] theorem exec_dbgresume (s : State) : exec (.dbgresume) s = execDbgresume s := rfl
@[simp] theorem exec_watchset (s : State) : exec (.watchset) s = execWatchset s := rfl
@[simp] theorem exec_devstat (s : State) : exec (.devstat) s = execDevstat s := rfl
@[simp] theorem exec_pwrcap (s : State) : exec (.pwrcap) s = execPwrcap s := rfl
@[simp] theorem exec_dieresume (s : State) : exec (.dieresume) s = execDieresume s := rfl

end Sys2Proof.Machine
end

