-- ==== Sys2Proof/Laws/Maps.lean ====
section
/-! SUPPORT. The sparse tables: what a read gives after a write or a removal, and that writes and removals keep the keys rising. -/

namespace Sys2Proof.Machine

variable {α : Type}

@[simp] theorem get?_nil (k : Nat) : get? ([] : SMap α) k = none := rfl

@[simp] theorem get?_put_self (m : SMap α) (k : Nat) (v : α) : get? (put m k v) k = some v := by
  induction m with
  | nil => simp [put, get?]
  | cons p t ih =>
    obtain ⟨j, x⟩ := p
    unfold put
    split
    · simp [get?]
    · split
      · simp [get?]
      · simp [get?, *]

theorem get?_put_ne (m : SMap α) {j k : Nat} (v : α) (h : j ≠ k) : get? (put m k v) j = get? m j := by
  induction m with
  | nil => simp [put, get?, Ne.symm h]
  | cons p t ih =>
    obtain ⟨l, x⟩ := p
    unfold put
    split
    · subst_vars
      simp [get?, Ne.symm h]
    · split
      · simp [get?, Ne.symm h]
      · simp only [get?, ih]

theorem get?_put (m : SMap α) (j k : Nat) (v : α) : get? (put m k v) j = if j = k then some v else get? m j := by
  by_cases h : j = k
  · subst h; simp
  · simp [h, get?_put_ne]

theorem put_put (m : SMap α) (k : Nat) (a b : α) : put (put m k a) k b = put m k b := by
  induction m with
  | nil => simp [put]
  | cons p t ih =>
    obtain ⟨j, y⟩ := p
    by_cases h1 : j = k
    · simp [put, h1]
    · by_cases h2 : k < j
      · simp [put, h1, h2]
      · simp [put, h1, h2, ih]

theorem get?_filter_key (m : SMap α) (p : Nat → Bool) (k : Nat) :
    get? (m.filter fun c => p c.1) k = if p k then get? m k else none := by
  induction m with
  | nil => simp
  | cons c t ih =>
    obtain ⟨j, x⟩ := c
    by_cases hj : p j = true
    · by_cases e : j = k
      · subst e; simp [List.filter, hj, get?]
      · simp [List.filter, hj, get?, e, ih]
    · by_cases e : j = k
      · subst e; simp [List.filter, hj, ih]
      · simp [List.filter, hj, get?, e, ih]

@[simp] theorem get?_del_self (m : SMap α) (k : Nat) : get? (del m k) k = none := by
  unfold del
  rw [get?_filter_key m (fun j => j != k)]
  simp

theorem get?_del_ne (m : SMap α) {j k : Nat} (h : j ≠ k) : get? (del m k) j = get? m j := by
  unfold del
  rw [get?_filter_key m (fun j => j != k)]
  simp [h]

theorem mem_put {m : SMap α} {k : Nat} {v : α} {p : Nat × α} (h : p ∈ put m k v) : p = (k, v) ∨ p ∈ m := by
  induction m with
  | nil => simpa [put] using h
  | cons c t ih =>
    obtain ⟨j, x⟩ := c
    unfold put at h
    split at h
    · rcases List.mem_cons.1 h with h | h
      · exact .inl h
      · exact .inr (List.mem_cons_of_mem _ h)
    · split at h
      · rcases List.mem_cons.1 h with h | h
        · exact .inl h
        · exact .inr h
      · rcases List.mem_cons.1 h with h | h
        · exact .inr (h ▸ List.mem_cons_self)
        · exact (ih h).imp id (List.mem_cons_of_mem _)

theorem rising_put {m : SMap α} (h : Rising m) (k : Nat) (v : α) : Rising (put m k v) := by
  induction m with
  | nil => simp [put, Rising]
  | cons c t ih =>
    obtain ⟨j, x⟩ := c
    have h' := List.pairwise_cons.1 h
    unfold put
    split
    · subst_vars
      exact List.pairwise_cons.2 h'
    · split
      · rename_i hlt
        refine List.pairwise_cons.2 ⟨fun p hp => ?_, h⟩
        rcases List.mem_cons.1 hp with hp | hp
        · subst hp; exact hlt
        · exact Nat.lt_trans hlt (h'.1 p hp)
      · refine List.pairwise_cons.2 ⟨fun p hp => ?_, ih h'.2⟩
        rcases mem_put hp with hp | hp
        · subst hp; simp only; omega
        · exact h'.1 p hp

theorem rising_filter {m : SMap α} (h : Rising m) (p : Nat × α → Bool) : Rising (m.filter p) := List.Pairwise.filter p h

theorem rising_del {m : SMap α} (h : Rising m) (k : Nat) : Rising (del m k) := rising_filter h _

theorem get?_none_of_lt {m : SMap α} {k : Nat} (h : ∀ p ∈ m, k < p.1) : get? m k = none := by
  induction m with
  | nil => rfl
  | cons c t ih =>
    obtain ⟨j, x⟩ := c
    have : j ≠ k := Nat.ne_of_gt (h (j, x) List.mem_cons_self)
    simp [get?, this, ih fun p hp => h p (List.mem_cons_of_mem _ hp)]

/-- A read finds a listed entry of a rising table. -/
theorem get?_of_mem {m : SMap α} (h : Rising m) {k : Nat} {v : α} (hm : (k, v) ∈ m) : get? m k = some v := by
  induction m with
  | nil => cases hm
  | cons c t ih =>
    obtain ⟨j, x⟩ := c
    have h' := List.pairwise_cons.1 h
    rcases List.mem_cons.1 hm with e | hm
    · cases e; simp [get?]
    · have : j ≠ k := Nat.ne_of_lt (h'.1 _ hm)
      simp [get?, this, ih h'.2 hm]

theorem mem_of_get? {m : SMap α} {k : Nat} {v : α} (h : get? m k = some v) : (k, v) ∈ m := by
  induction m with
  | nil => cases h
  | cons c t ih =>
    obtain ⟨j, x⟩ := c
    unfold get? at h
    split at h
    · rename_i e; cases h; subst e; exact List.mem_cons_self
    · exact List.mem_cons_of_mem _ (ih h)

end Sys2Proof.Machine
end

