-- ==== Sys2Proof/Laws/State.lean ====
section
/-! SUPPORT. One lemma per field and update: the updates of `Machine/Ops.lean` and `Machine/Memory.lean` that change one field of the
state leave every other field as it was. -/

namespace Sys2Proof.Machine

/-! ### `State.setCore` changes `cores` alone -/

@[simp] theorem State.setCore_agenda (s : State) (c : Nat) (k : Core) : (s.setCore c k).agenda = s.agenda := rfl
@[simp] theorem State.setCore_n (s : State) (c : Nat) (k : Core) : (s.setCore c k).n = s.n := rfl
@[simp] theorem State.setCore_fresh (s : State) (c : Nat) (k : Core) : (s.setCore c k).fresh = s.fresh := rfl
@[simp] theorem State.setCore_cur (s : State) (c : Nat) (k : Core) : (s.setCore c k).cur = s.cur := rfl
@[simp] theorem State.setCore_ticks (s : State) (c : Nat) (k : Core) : (s.setCore c k).ticks = s.ticks := rfl
@[simp] theorem State.setCore_mem (s : State) (c : Nat) (k : Core) : (s.setCore c k).mem = s.mem := rfl
@[simp] theorem State.setCore_poison (s : State) (c : Nat) (k : Core) : (s.setCore c k).poison = s.poison := rfl
@[simp] theorem State.setCore_tags (s : State) (c : Nat) (k : Core) : (s.setCore c k).tags = s.tags := rfl
@[simp] theorem State.setCore_lines (s : State) (c : Nat) (k : Core) : (s.setCore c k).lines = s.lines := rfl
@[simp] theorem State.setCore_pages (s : State) (c : Nat) (k : Core) : (s.setCore c k).pages = s.pages := rfl
@[simp] theorem State.setCore_held (s : State) (c : Nat) (k : Core) : (s.setCore c k).held = s.held := rfl
@[simp] theorem State.setCore_regions (s : State) (c : Nat) (k : Core) : (s.setCore c k).regions = s.regions := rfl
@[simp] theorem State.setCore_dies (s : State) (c : Nat) (k : Core) : (s.setCore c k).dies = s.dies := rfl
@[simp] theorem State.setCore_directory (s : State) (c : Nat) (k : Core) : (s.setCore c k).directory = s.directory := rfl
@[simp] theorem State.setCore_ctxs (s : State) (c : Nat) (k : Core) : (s.setCore c k).ctxs = s.ctxs := rfl
@[simp] theorem State.setCore_canals (s : State) (c : Nat) (k : Core) : (s.setCore c k).canals = s.canals := rfl
@[simp] theorem State.setCore_lastCanal (s : State) (c : Nat) (k : Core) : (s.setCore c k).lastCanal = s.lastCanal := rfl
@[simp] theorem State.setCore_kernels (s : State) (c : Nat) (k : Core) : (s.setCore c k).kernels = s.kernels := rfl
@[simp] theorem State.setCore_live (s : State) (c : Nat) (k : Core) : (s.setCore c k).live = s.live := rfl
@[simp] theorem State.setCore_editions (s : State) (c : Nat) (k : Core) : (s.setCore c k).editions = s.editions := rfl
@[simp] theorem State.setCore_target (s : State) (c : Nat) (k : Core) : (s.setCore c k).target = s.target := rfl
@[simp] theorem State.setCore_ports (s : State) (c : Nat) (k : Core) : (s.setCore c k).ports = s.ports := rfl
@[simp] theorem State.setCore_slots (s : State) (c : Nat) (k : Core) : (s.setCore c k).slots = s.slots := rfl
@[simp] theorem State.setCore_linkReqs (s : State) (c : Nat) (k : Core) : (s.setCore c k).linkReqs = s.linkReqs := rfl
@[simp] theorem State.setCore_exports (s : State) (c : Nat) (k : Core) : (s.setCore c k).exports = s.exports := rfl
@[simp] theorem State.setCore_inboundAcks (s : State) (c : Nat) (k : Core) : (s.setCore c k).inboundAcks = s.inboundAcks := rfl
@[simp] theorem State.setCore_mailboxes (s : State) (c : Nat) (k : Core) : (s.setCore c k).mailboxes = s.mailboxes := rfl
@[simp] theorem State.setCore_cmds (s : State) (c : Nat) (k : Core) : (s.setCore c k).cmds = s.cmds := rfl
@[simp] theorem State.setCore_mailbox (s : State) (c : Nat) (k : Core) : (s.setCore c k).mailbox = s.mailbox := rfl
@[simp] theorem State.setCore_events (s : State) (c : Nat) (k : Core) : (s.setCore c k).events = s.events := rfl
@[simp] theorem State.setCore_imsic (s : State) (c : Nat) (k : Core) : (s.setCore c k).imsic = s.imsic := rfl
@[simp] theorem State.setCore_signals (s : State) (c : Nat) (k : Core) : (s.setCore c k).signals = s.signals := rfl
@[simp] theorem State.setCore_hartRead (s : State) (c : Nat) (k : Core) : (s.setCore c k).hartRead = s.hartRead := rfl
@[simp] theorem State.setCore_hartRefused (s : State) (c : Nat) (k : Core) : (s.setCore c k).hartRefused = s.hartRefused := rfl
@[simp] theorem State.setCore_test (s : State) (c : Nat) (k : Core) : (s.setCore c k).test = s.test := rfl
@[simp] theorem State.setCore_powerCap (s : State) (c : Nat) (k : Core) : (s.setCore c k).powerCap = s.powerCap := rfl
@[simp] theorem State.setCore_thermalCap (s : State) (c : Nat) (k : Core) : (s.setCore c k).thermalCap = s.thermalCap := rfl
@[simp] theorem State.setCore_cool (s : State) (c : Nat) (k : Core) : (s.setCore c k).cool = s.cool := rfl
@[simp] theorem State.setCore_devstat (s : State) (c : Nat) (k : Core) : (s.setCore c k).devstat = s.devstat := rfl
@[simp] theorem State.setCore_deadKeepers (s : State) (c : Nat) (k : Core) : (s.setCore c k).deadKeepers = s.deadKeepers := rfl
@[simp] theorem State.setCore_badImages (s : State) (c : Nat) (k : Core) : (s.setCore c k).badImages = s.badImages := rfl

/-! ### `State.modCore` changes `cores` alone -/

@[simp] theorem State.modCore_agenda (s : State) (c : Nat) (f : Core → Core) : (s.modCore c f).agenda = s.agenda := rfl
@[simp] theorem State.modCore_n (s : State) (c : Nat) (f : Core → Core) : (s.modCore c f).n = s.n := rfl
@[simp] theorem State.modCore_fresh (s : State) (c : Nat) (f : Core → Core) : (s.modCore c f).fresh = s.fresh := rfl
@[simp] theorem State.modCore_cur (s : State) (c : Nat) (f : Core → Core) : (s.modCore c f).cur = s.cur := rfl
@[simp] theorem State.modCore_ticks (s : State) (c : Nat) (f : Core → Core) : (s.modCore c f).ticks = s.ticks := rfl
@[simp] theorem State.modCore_mem (s : State) (c : Nat) (f : Core → Core) : (s.modCore c f).mem = s.mem := rfl
@[simp] theorem State.modCore_poison (s : State) (c : Nat) (f : Core → Core) : (s.modCore c f).poison = s.poison := rfl
@[simp] theorem State.modCore_tags (s : State) (c : Nat) (f : Core → Core) : (s.modCore c f).tags = s.tags := rfl
@[simp] theorem State.modCore_lines (s : State) (c : Nat) (f : Core → Core) : (s.modCore c f).lines = s.lines := rfl
@[simp] theorem State.modCore_pages (s : State) (c : Nat) (f : Core → Core) : (s.modCore c f).pages = s.pages := rfl
@[simp] theorem State.modCore_held (s : State) (c : Nat) (f : Core → Core) : (s.modCore c f).held = s.held := rfl
@[simp] theorem State.modCore_regions (s : State) (c : Nat) (f : Core → Core) : (s.modCore c f).regions = s.regions := rfl
@[simp] theorem State.modCore_dies (s : State) (c : Nat) (f : Core → Core) : (s.modCore c f).dies = s.dies := rfl
@[simp] theorem State.modCore_directory (s : State) (c : Nat) (f : Core → Core) : (s.modCore c f).directory = s.directory := rfl
@[simp] theorem State.modCore_ctxs (s : State) (c : Nat) (f : Core → Core) : (s.modCore c f).ctxs = s.ctxs := rfl
@[simp] theorem State.modCore_canals (s : State) (c : Nat) (f : Core → Core) : (s.modCore c f).canals = s.canals := rfl
@[simp] theorem State.modCore_lastCanal (s : State) (c : Nat) (f : Core → Core) : (s.modCore c f).lastCanal = s.lastCanal := rfl
@[simp] theorem State.modCore_kernels (s : State) (c : Nat) (f : Core → Core) : (s.modCore c f).kernels = s.kernels := rfl
@[simp] theorem State.modCore_live (s : State) (c : Nat) (f : Core → Core) : (s.modCore c f).live = s.live := rfl
@[simp] theorem State.modCore_editions (s : State) (c : Nat) (f : Core → Core) : (s.modCore c f).editions = s.editions := rfl
@[simp] theorem State.modCore_target (s : State) (c : Nat) (f : Core → Core) : (s.modCore c f).target = s.target := rfl
@[simp] theorem State.modCore_ports (s : State) (c : Nat) (f : Core → Core) : (s.modCore c f).ports = s.ports := rfl
@[simp] theorem State.modCore_slots (s : State) (c : Nat) (f : Core → Core) : (s.modCore c f).slots = s.slots := rfl
@[simp] theorem State.modCore_linkReqs (s : State) (c : Nat) (f : Core → Core) : (s.modCore c f).linkReqs = s.linkReqs := rfl
@[simp] theorem State.modCore_exports (s : State) (c : Nat) (f : Core → Core) : (s.modCore c f).exports = s.exports := rfl
@[simp] theorem State.modCore_inboundAcks (s : State) (c : Nat) (f : Core → Core) : (s.modCore c f).inboundAcks = s.inboundAcks := rfl
@[simp] theorem State.modCore_mailboxes (s : State) (c : Nat) (f : Core → Core) : (s.modCore c f).mailboxes = s.mailboxes := rfl
@[simp] theorem State.modCore_cmds (s : State) (c : Nat) (f : Core → Core) : (s.modCore c f).cmds = s.cmds := rfl
@[simp] theorem State.modCore_mailbox (s : State) (c : Nat) (f : Core → Core) : (s.modCore c f).mailbox = s.mailbox := rfl
@[simp] theorem State.modCore_events (s : State) (c : Nat) (f : Core → Core) : (s.modCore c f).events = s.events := rfl
@[simp] theorem State.modCore_imsic (s : State) (c : Nat) (f : Core → Core) : (s.modCore c f).imsic = s.imsic := rfl
@[simp] theorem State.modCore_signals (s : State) (c : Nat) (f : Core → Core) : (s.modCore c f).signals = s.signals := rfl
@[simp] theorem State.modCore_hartRead (s : State) (c : Nat) (f : Core → Core) : (s.modCore c f).hartRead = s.hartRead := rfl
@[simp] theorem State.modCore_hartRefused (s : State) (c : Nat) (f : Core → Core) : (s.modCore c f).hartRefused = s.hartRefused := rfl
@[simp] theorem State.modCore_test (s : State) (c : Nat) (f : Core → Core) : (s.modCore c f).test = s.test := rfl
@[simp] theorem State.modCore_powerCap (s : State) (c : Nat) (f : Core → Core) : (s.modCore c f).powerCap = s.powerCap := rfl
@[simp] theorem State.modCore_thermalCap (s : State) (c : Nat) (f : Core → Core) : (s.modCore c f).thermalCap = s.thermalCap := rfl
@[simp] theorem State.modCore_cool (s : State) (c : Nat) (f : Core → Core) : (s.modCore c f).cool = s.cool := rfl
@[simp] theorem State.modCore_devstat (s : State) (c : Nat) (f : Core → Core) : (s.modCore c f).devstat = s.devstat := rfl
@[simp] theorem State.modCore_deadKeepers (s : State) (c : Nat) (f : Core → Core) : (s.modCore c f).deadKeepers = s.deadKeepers := rfl
@[simp] theorem State.modCore_badImages (s : State) (c : Nat) (f : Core → Core) : (s.modCore c f).badImages = s.badImages := rfl

/-! ### `State.modGroup` changes `cores` alone -/

@[simp] theorem State.modGroup_agenda (s : State) (c l : Nat) (f : Group → Group) : (s.modGroup c l f).agenda = s.agenda := rfl
@[simp] theorem State.modGroup_n (s : State) (c l : Nat) (f : Group → Group) : (s.modGroup c l f).n = s.n := rfl
@[simp] theorem State.modGroup_fresh (s : State) (c l : Nat) (f : Group → Group) : (s.modGroup c l f).fresh = s.fresh := rfl
@[simp] theorem State.modGroup_cur (s : State) (c l : Nat) (f : Group → Group) : (s.modGroup c l f).cur = s.cur := rfl
@[simp] theorem State.modGroup_ticks (s : State) (c l : Nat) (f : Group → Group) : (s.modGroup c l f).ticks = s.ticks := rfl
@[simp] theorem State.modGroup_mem (s : State) (c l : Nat) (f : Group → Group) : (s.modGroup c l f).mem = s.mem := rfl
@[simp] theorem State.modGroup_poison (s : State) (c l : Nat) (f : Group → Group) : (s.modGroup c l f).poison = s.poison := rfl
@[simp] theorem State.modGroup_tags (s : State) (c l : Nat) (f : Group → Group) : (s.modGroup c l f).tags = s.tags := rfl
@[simp] theorem State.modGroup_lines (s : State) (c l : Nat) (f : Group → Group) : (s.modGroup c l f).lines = s.lines := rfl
@[simp] theorem State.modGroup_pages (s : State) (c l : Nat) (f : Group → Group) : (s.modGroup c l f).pages = s.pages := rfl
@[simp] theorem State.modGroup_held (s : State) (c l : Nat) (f : Group → Group) : (s.modGroup c l f).held = s.held := rfl
@[simp] theorem State.modGroup_regions (s : State) (c l : Nat) (f : Group → Group) : (s.modGroup c l f).regions = s.regions := rfl
@[simp] theorem State.modGroup_dies (s : State) (c l : Nat) (f : Group → Group) : (s.modGroup c l f).dies = s.dies := rfl
@[simp] theorem State.modGroup_directory (s : State) (c l : Nat) (f : Group → Group) : (s.modGroup c l f).directory = s.directory := rfl
@[simp] theorem State.modGroup_ctxs (s : State) (c l : Nat) (f : Group → Group) : (s.modGroup c l f).ctxs = s.ctxs := rfl
@[simp] theorem State.modGroup_canals (s : State) (c l : Nat) (f : Group → Group) : (s.modGroup c l f).canals = s.canals := rfl
@[simp] theorem State.modGroup_lastCanal (s : State) (c l : Nat) (f : Group → Group) : (s.modGroup c l f).lastCanal = s.lastCanal := rfl
@[simp] theorem State.modGroup_kernels (s : State) (c l : Nat) (f : Group → Group) : (s.modGroup c l f).kernels = s.kernels := rfl
@[simp] theorem State.modGroup_live (s : State) (c l : Nat) (f : Group → Group) : (s.modGroup c l f).live = s.live := rfl
@[simp] theorem State.modGroup_editions (s : State) (c l : Nat) (f : Group → Group) : (s.modGroup c l f).editions = s.editions := rfl
@[simp] theorem State.modGroup_target (s : State) (c l : Nat) (f : Group → Group) : (s.modGroup c l f).target = s.target := rfl
@[simp] theorem State.modGroup_ports (s : State) (c l : Nat) (f : Group → Group) : (s.modGroup c l f).ports = s.ports := rfl
@[simp] theorem State.modGroup_slots (s : State) (c l : Nat) (f : Group → Group) : (s.modGroup c l f).slots = s.slots := rfl
@[simp] theorem State.modGroup_linkReqs (s : State) (c l : Nat) (f : Group → Group) : (s.modGroup c l f).linkReqs = s.linkReqs := rfl
@[simp] theorem State.modGroup_exports (s : State) (c l : Nat) (f : Group → Group) : (s.modGroup c l f).exports = s.exports := rfl
@[simp] theorem State.modGroup_inboundAcks (s : State) (c l : Nat) (f : Group → Group) : (s.modGroup c l f).inboundAcks = s.inboundAcks := rfl
@[simp] theorem State.modGroup_mailboxes (s : State) (c l : Nat) (f : Group → Group) : (s.modGroup c l f).mailboxes = s.mailboxes := rfl
@[simp] theorem State.modGroup_cmds (s : State) (c l : Nat) (f : Group → Group) : (s.modGroup c l f).cmds = s.cmds := rfl
@[simp] theorem State.modGroup_mailbox (s : State) (c l : Nat) (f : Group → Group) : (s.modGroup c l f).mailbox = s.mailbox := rfl
@[simp] theorem State.modGroup_events (s : State) (c l : Nat) (f : Group → Group) : (s.modGroup c l f).events = s.events := rfl
@[simp] theorem State.modGroup_imsic (s : State) (c l : Nat) (f : Group → Group) : (s.modGroup c l f).imsic = s.imsic := rfl
@[simp] theorem State.modGroup_signals (s : State) (c l : Nat) (f : Group → Group) : (s.modGroup c l f).signals = s.signals := rfl
@[simp] theorem State.modGroup_hartRead (s : State) (c l : Nat) (f : Group → Group) : (s.modGroup c l f).hartRead = s.hartRead := rfl
@[simp] theorem State.modGroup_hartRefused (s : State) (c l : Nat) (f : Group → Group) : (s.modGroup c l f).hartRefused = s.hartRefused := rfl
@[simp] theorem State.modGroup_test (s : State) (c l : Nat) (f : Group → Group) : (s.modGroup c l f).test = s.test := rfl
@[simp] theorem State.modGroup_powerCap (s : State) (c l : Nat) (f : Group → Group) : (s.modGroup c l f).powerCap = s.powerCap := rfl
@[simp] theorem State.modGroup_thermalCap (s : State) (c l : Nat) (f : Group → Group) : (s.modGroup c l f).thermalCap = s.thermalCap := rfl
@[simp] theorem State.modGroup_cool (s : State) (c l : Nat) (f : Group → Group) : (s.modGroup c l f).cool = s.cool := rfl
@[simp] theorem State.modGroup_devstat (s : State) (c l : Nat) (f : Group → Group) : (s.modGroup c l f).devstat = s.devstat := rfl
@[simp] theorem State.modGroup_deadKeepers (s : State) (c l : Nat) (f : Group → Group) : (s.modGroup c l f).deadKeepers = s.deadKeepers := rfl
@[simp] theorem State.modGroup_badImages (s : State) (c l : Nat) (f : Group → Group) : (s.modGroup c l f).badImages = s.badImages := rfl

/-! ### `State.modTeam` changes `cores` alone -/

@[simp] theorem State.modTeam_agenda (s : State) (c l : Nat) (f : Team → Team) : (s.modTeam c l f).agenda = s.agenda := rfl
@[simp] theorem State.modTeam_n (s : State) (c l : Nat) (f : Team → Team) : (s.modTeam c l f).n = s.n := rfl
@[simp] theorem State.modTeam_fresh (s : State) (c l : Nat) (f : Team → Team) : (s.modTeam c l f).fresh = s.fresh := rfl
@[simp] theorem State.modTeam_cur (s : State) (c l : Nat) (f : Team → Team) : (s.modTeam c l f).cur = s.cur := rfl
@[simp] theorem State.modTeam_ticks (s : State) (c l : Nat) (f : Team → Team) : (s.modTeam c l f).ticks = s.ticks := rfl
@[simp] theorem State.modTeam_mem (s : State) (c l : Nat) (f : Team → Team) : (s.modTeam c l f).mem = s.mem := rfl
@[simp] theorem State.modTeam_poison (s : State) (c l : Nat) (f : Team → Team) : (s.modTeam c l f).poison = s.poison := rfl
@[simp] theorem State.modTeam_tags (s : State) (c l : Nat) (f : Team → Team) : (s.modTeam c l f).tags = s.tags := rfl
@[simp] theorem State.modTeam_lines (s : State) (c l : Nat) (f : Team → Team) : (s.modTeam c l f).lines = s.lines := rfl
@[simp] theorem State.modTeam_pages (s : State) (c l : Nat) (f : Team → Team) : (s.modTeam c l f).pages = s.pages := rfl
@[simp] theorem State.modTeam_held (s : State) (c l : Nat) (f : Team → Team) : (s.modTeam c l f).held = s.held := rfl
@[simp] theorem State.modTeam_regions (s : State) (c l : Nat) (f : Team → Team) : (s.modTeam c l f).regions = s.regions := rfl
@[simp] theorem State.modTeam_dies (s : State) (c l : Nat) (f : Team → Team) : (s.modTeam c l f).dies = s.dies := rfl
@[simp] theorem State.modTeam_directory (s : State) (c l : Nat) (f : Team → Team) : (s.modTeam c l f).directory = s.directory := rfl
@[simp] theorem State.modTeam_ctxs (s : State) (c l : Nat) (f : Team → Team) : (s.modTeam c l f).ctxs = s.ctxs := rfl
@[simp] theorem State.modTeam_canals (s : State) (c l : Nat) (f : Team → Team) : (s.modTeam c l f).canals = s.canals := rfl
@[simp] theorem State.modTeam_lastCanal (s : State) (c l : Nat) (f : Team → Team) : (s.modTeam c l f).lastCanal = s.lastCanal := rfl
@[simp] theorem State.modTeam_kernels (s : State) (c l : Nat) (f : Team → Team) : (s.modTeam c l f).kernels = s.kernels := rfl
@[simp] theorem State.modTeam_live (s : State) (c l : Nat) (f : Team → Team) : (s.modTeam c l f).live = s.live := rfl
@[simp] theorem State.modTeam_editions (s : State) (c l : Nat) (f : Team → Team) : (s.modTeam c l f).editions = s.editions := rfl
@[simp] theorem State.modTeam_target (s : State) (c l : Nat) (f : Team → Team) : (s.modTeam c l f).target = s.target := rfl
@[simp] theorem State.modTeam_ports (s : State) (c l : Nat) (f : Team → Team) : (s.modTeam c l f).ports = s.ports := rfl
@[simp] theorem State.modTeam_slots (s : State) (c l : Nat) (f : Team → Team) : (s.modTeam c l f).slots = s.slots := rfl
@[simp] theorem State.modTeam_linkReqs (s : State) (c l : Nat) (f : Team → Team) : (s.modTeam c l f).linkReqs = s.linkReqs := rfl
@[simp] theorem State.modTeam_exports (s : State) (c l : Nat) (f : Team → Team) : (s.modTeam c l f).exports = s.exports := rfl
@[simp] theorem State.modTeam_inboundAcks (s : State) (c l : Nat) (f : Team → Team) : (s.modTeam c l f).inboundAcks = s.inboundAcks := rfl
@[simp] theorem State.modTeam_mailboxes (s : State) (c l : Nat) (f : Team → Team) : (s.modTeam c l f).mailboxes = s.mailboxes := rfl
@[simp] theorem State.modTeam_cmds (s : State) (c l : Nat) (f : Team → Team) : (s.modTeam c l f).cmds = s.cmds := rfl
@[simp] theorem State.modTeam_mailbox (s : State) (c l : Nat) (f : Team → Team) : (s.modTeam c l f).mailbox = s.mailbox := rfl
@[simp] theorem State.modTeam_events (s : State) (c l : Nat) (f : Team → Team) : (s.modTeam c l f).events = s.events := rfl
@[simp] theorem State.modTeam_imsic (s : State) (c l : Nat) (f : Team → Team) : (s.modTeam c l f).imsic = s.imsic := rfl
@[simp] theorem State.modTeam_signals (s : State) (c l : Nat) (f : Team → Team) : (s.modTeam c l f).signals = s.signals := rfl
@[simp] theorem State.modTeam_hartRead (s : State) (c l : Nat) (f : Team → Team) : (s.modTeam c l f).hartRead = s.hartRead := rfl
@[simp] theorem State.modTeam_hartRefused (s : State) (c l : Nat) (f : Team → Team) : (s.modTeam c l f).hartRefused = s.hartRefused := rfl
@[simp] theorem State.modTeam_test (s : State) (c l : Nat) (f : Team → Team) : (s.modTeam c l f).test = s.test := rfl
@[simp] theorem State.modTeam_powerCap (s : State) (c l : Nat) (f : Team → Team) : (s.modTeam c l f).powerCap = s.powerCap := rfl
@[simp] theorem State.modTeam_thermalCap (s : State) (c l : Nat) (f : Team → Team) : (s.modTeam c l f).thermalCap = s.thermalCap := rfl
@[simp] theorem State.modTeam_cool (s : State) (c l : Nat) (f : Team → Team) : (s.modTeam c l f).cool = s.cool := rfl
@[simp] theorem State.modTeam_devstat (s : State) (c l : Nat) (f : Team → Team) : (s.modTeam c l f).devstat = s.devstat := rfl
@[simp] theorem State.modTeam_deadKeepers (s : State) (c l : Nat) (f : Team → Team) : (s.modTeam c l f).deadKeepers = s.deadKeepers := rfl
@[simp] theorem State.modTeam_badImages (s : State) (c l : Nat) (f : Team → Team) : (s.modTeam c l f).badImages = s.badImages := rfl

/-! ### `State.trap` changes `cores` alone -/

@[simp] theorem State.trap_agenda (s : State) (c l code : Nat) (a p : Word64) (w : List Word64) : (s.trap c l code a p w).agenda = s.agenda := rfl
@[simp] theorem State.trap_n (s : State) (c l code : Nat) (a p : Word64) (w : List Word64) : (s.trap c l code a p w).n = s.n := rfl
@[simp] theorem State.trap_fresh (s : State) (c l code : Nat) (a p : Word64) (w : List Word64) : (s.trap c l code a p w).fresh = s.fresh := rfl
@[simp] theorem State.trap_cur (s : State) (c l code : Nat) (a p : Word64) (w : List Word64) : (s.trap c l code a p w).cur = s.cur := rfl
@[simp] theorem State.trap_ticks (s : State) (c l code : Nat) (a p : Word64) (w : List Word64) : (s.trap c l code a p w).ticks = s.ticks := rfl
@[simp] theorem State.trap_mem (s : State) (c l code : Nat) (a p : Word64) (w : List Word64) : (s.trap c l code a p w).mem = s.mem := rfl
@[simp] theorem State.trap_poison (s : State) (c l code : Nat) (a p : Word64) (w : List Word64) : (s.trap c l code a p w).poison = s.poison := rfl
@[simp] theorem State.trap_tags (s : State) (c l code : Nat) (a p : Word64) (w : List Word64) : (s.trap c l code a p w).tags = s.tags := rfl
@[simp] theorem State.trap_lines (s : State) (c l code : Nat) (a p : Word64) (w : List Word64) : (s.trap c l code a p w).lines = s.lines := rfl
@[simp] theorem State.trap_pages (s : State) (c l code : Nat) (a p : Word64) (w : List Word64) : (s.trap c l code a p w).pages = s.pages := rfl
@[simp] theorem State.trap_held (s : State) (c l code : Nat) (a p : Word64) (w : List Word64) : (s.trap c l code a p w).held = s.held := rfl
@[simp] theorem State.trap_regions (s : State) (c l code : Nat) (a p : Word64) (w : List Word64) : (s.trap c l code a p w).regions = s.regions := rfl
@[simp] theorem State.trap_dies (s : State) (c l code : Nat) (a p : Word64) (w : List Word64) : (s.trap c l code a p w).dies = s.dies := rfl
@[simp] theorem State.trap_directory (s : State) (c l code : Nat) (a p : Word64) (w : List Word64) : (s.trap c l code a p w).directory = s.directory := rfl
@[simp] theorem State.trap_ctxs (s : State) (c l code : Nat) (a p : Word64) (w : List Word64) : (s.trap c l code a p w).ctxs = s.ctxs := rfl
@[simp] theorem State.trap_canals (s : State) (c l code : Nat) (a p : Word64) (w : List Word64) : (s.trap c l code a p w).canals = s.canals := rfl
@[simp] theorem State.trap_lastCanal (s : State) (c l code : Nat) (a p : Word64) (w : List Word64) : (s.trap c l code a p w).lastCanal = s.lastCanal := rfl
@[simp] theorem State.trap_kernels (s : State) (c l code : Nat) (a p : Word64) (w : List Word64) : (s.trap c l code a p w).kernels = s.kernels := rfl
@[simp] theorem State.trap_live (s : State) (c l code : Nat) (a p : Word64) (w : List Word64) : (s.trap c l code a p w).live = s.live := rfl
@[simp] theorem State.trap_editions (s : State) (c l code : Nat) (a p : Word64) (w : List Word64) : (s.trap c l code a p w).editions = s.editions := rfl
@[simp] theorem State.trap_target (s : State) (c l code : Nat) (a p : Word64) (w : List Word64) : (s.trap c l code a p w).target = s.target := rfl
@[simp] theorem State.trap_ports (s : State) (c l code : Nat) (a p : Word64) (w : List Word64) : (s.trap c l code a p w).ports = s.ports := rfl
@[simp] theorem State.trap_slots (s : State) (c l code : Nat) (a p : Word64) (w : List Word64) : (s.trap c l code a p w).slots = s.slots := rfl
@[simp] theorem State.trap_linkReqs (s : State) (c l code : Nat) (a p : Word64) (w : List Word64) : (s.trap c l code a p w).linkReqs = s.linkReqs := rfl
@[simp] theorem State.trap_exports (s : State) (c l code : Nat) (a p : Word64) (w : List Word64) : (s.trap c l code a p w).exports = s.exports := rfl
@[simp] theorem State.trap_inboundAcks (s : State) (c l code : Nat) (a p : Word64) (w : List Word64) : (s.trap c l code a p w).inboundAcks = s.inboundAcks := rfl
@[simp] theorem State.trap_mailboxes (s : State) (c l code : Nat) (a p : Word64) (w : List Word64) : (s.trap c l code a p w).mailboxes = s.mailboxes := rfl
@[simp] theorem State.trap_cmds (s : State) (c l code : Nat) (a p : Word64) (w : List Word64) : (s.trap c l code a p w).cmds = s.cmds := rfl
@[simp] theorem State.trap_mailbox (s : State) (c l code : Nat) (a p : Word64) (w : List Word64) : (s.trap c l code a p w).mailbox = s.mailbox := rfl
@[simp] theorem State.trap_events (s : State) (c l code : Nat) (a p : Word64) (w : List Word64) : (s.trap c l code a p w).events = s.events := rfl
@[simp] theorem State.trap_imsic (s : State) (c l code : Nat) (a p : Word64) (w : List Word64) : (s.trap c l code a p w).imsic = s.imsic := rfl
@[simp] theorem State.trap_signals (s : State) (c l code : Nat) (a p : Word64) (w : List Word64) : (s.trap c l code a p w).signals = s.signals := rfl
@[simp] theorem State.trap_hartRead (s : State) (c l code : Nat) (a p : Word64) (w : List Word64) : (s.trap c l code a p w).hartRead = s.hartRead := rfl
@[simp] theorem State.trap_hartRefused (s : State) (c l code : Nat) (a p : Word64) (w : List Word64) : (s.trap c l code a p w).hartRefused = s.hartRefused := rfl
@[simp] theorem State.trap_test (s : State) (c l code : Nat) (a p : Word64) (w : List Word64) : (s.trap c l code a p w).test = s.test := rfl
@[simp] theorem State.trap_powerCap (s : State) (c l code : Nat) (a p : Word64) (w : List Word64) : (s.trap c l code a p w).powerCap = s.powerCap := rfl
@[simp] theorem State.trap_thermalCap (s : State) (c l code : Nat) (a p : Word64) (w : List Word64) : (s.trap c l code a p w).thermalCap = s.thermalCap := rfl
@[simp] theorem State.trap_cool (s : State) (c l code : Nat) (a p : Word64) (w : List Word64) : (s.trap c l code a p w).cool = s.cool := rfl
@[simp] theorem State.trap_devstat (s : State) (c l code : Nat) (a p : Word64) (w : List Word64) : (s.trap c l code a p w).devstat = s.devstat := rfl
@[simp] theorem State.trap_deadKeepers (s : State) (c l code : Nat) (a p : Word64) (w : List Word64) : (s.trap c l code a p w).deadKeepers = s.deadKeepers := rfl
@[simp] theorem State.trap_badImages (s : State) (c l code : Nat) (a p : Word64) (w : List Word64) : (s.trap c l code a p w).badImages = s.badImages := rfl

/-! ### `State.modCtx` changes `ctxs` alone -/

@[simp] theorem State.modCtx_agenda (s : State) (n : Nat) (f : Ctx → Ctx) : (s.modCtx n f).agenda = s.agenda := rfl
@[simp] theorem State.modCtx_n (s : State) (n : Nat) (f : Ctx → Ctx) : (s.modCtx n f).n = s.n := rfl
@[simp] theorem State.modCtx_fresh (s : State) (n : Nat) (f : Ctx → Ctx) : (s.modCtx n f).fresh = s.fresh := rfl
@[simp] theorem State.modCtx_cur (s : State) (n : Nat) (f : Ctx → Ctx) : (s.modCtx n f).cur = s.cur := rfl
@[simp] theorem State.modCtx_ticks (s : State) (n : Nat) (f : Ctx → Ctx) : (s.modCtx n f).ticks = s.ticks := rfl
@[simp] theorem State.modCtx_cores (s : State) (n : Nat) (f : Ctx → Ctx) : (s.modCtx n f).cores = s.cores := rfl
@[simp] theorem State.modCtx_mem (s : State) (n : Nat) (f : Ctx → Ctx) : (s.modCtx n f).mem = s.mem := rfl
@[simp] theorem State.modCtx_poison (s : State) (n : Nat) (f : Ctx → Ctx) : (s.modCtx n f).poison = s.poison := rfl
@[simp] theorem State.modCtx_tags (s : State) (n : Nat) (f : Ctx → Ctx) : (s.modCtx n f).tags = s.tags := rfl
@[simp] theorem State.modCtx_lines (s : State) (n : Nat) (f : Ctx → Ctx) : (s.modCtx n f).lines = s.lines := rfl
@[simp] theorem State.modCtx_pages (s : State) (n : Nat) (f : Ctx → Ctx) : (s.modCtx n f).pages = s.pages := rfl
@[simp] theorem State.modCtx_held (s : State) (n : Nat) (f : Ctx → Ctx) : (s.modCtx n f).held = s.held := rfl
@[simp] theorem State.modCtx_regions (s : State) (n : Nat) (f : Ctx → Ctx) : (s.modCtx n f).regions = s.regions := rfl
@[simp] theorem State.modCtx_dies (s : State) (n : Nat) (f : Ctx → Ctx) : (s.modCtx n f).dies = s.dies := rfl
@[simp] theorem State.modCtx_directory (s : State) (n : Nat) (f : Ctx → Ctx) : (s.modCtx n f).directory = s.directory := rfl
@[simp] theorem State.modCtx_canals (s : State) (n : Nat) (f : Ctx → Ctx) : (s.modCtx n f).canals = s.canals := rfl
@[simp] theorem State.modCtx_lastCanal (s : State) (n : Nat) (f : Ctx → Ctx) : (s.modCtx n f).lastCanal = s.lastCanal := rfl
@[simp] theorem State.modCtx_kernels (s : State) (n : Nat) (f : Ctx → Ctx) : (s.modCtx n f).kernels = s.kernels := rfl
@[simp] theorem State.modCtx_live (s : State) (n : Nat) (f : Ctx → Ctx) : (s.modCtx n f).live = s.live := rfl
@[simp] theorem State.modCtx_editions (s : State) (n : Nat) (f : Ctx → Ctx) : (s.modCtx n f).editions = s.editions := rfl
@[simp] theorem State.modCtx_target (s : State) (n : Nat) (f : Ctx → Ctx) : (s.modCtx n f).target = s.target := rfl
@[simp] theorem State.modCtx_ports (s : State) (n : Nat) (f : Ctx → Ctx) : (s.modCtx n f).ports = s.ports := rfl
@[simp] theorem State.modCtx_slots (s : State) (n : Nat) (f : Ctx → Ctx) : (s.modCtx n f).slots = s.slots := rfl
@[simp] theorem State.modCtx_linkReqs (s : State) (n : Nat) (f : Ctx → Ctx) : (s.modCtx n f).linkReqs = s.linkReqs := rfl
@[simp] theorem State.modCtx_exports (s : State) (n : Nat) (f : Ctx → Ctx) : (s.modCtx n f).exports = s.exports := rfl
@[simp] theorem State.modCtx_inboundAcks (s : State) (n : Nat) (f : Ctx → Ctx) : (s.modCtx n f).inboundAcks = s.inboundAcks := rfl
@[simp] theorem State.modCtx_mailboxes (s : State) (n : Nat) (f : Ctx → Ctx) : (s.modCtx n f).mailboxes = s.mailboxes := rfl
@[simp] theorem State.modCtx_cmds (s : State) (n : Nat) (f : Ctx → Ctx) : (s.modCtx n f).cmds = s.cmds := rfl
@[simp] theorem State.modCtx_mailbox (s : State) (n : Nat) (f : Ctx → Ctx) : (s.modCtx n f).mailbox = s.mailbox := rfl
@[simp] theorem State.modCtx_events (s : State) (n : Nat) (f : Ctx → Ctx) : (s.modCtx n f).events = s.events := rfl
@[simp] theorem State.modCtx_imsic (s : State) (n : Nat) (f : Ctx → Ctx) : (s.modCtx n f).imsic = s.imsic := rfl
@[simp] theorem State.modCtx_signals (s : State) (n : Nat) (f : Ctx → Ctx) : (s.modCtx n f).signals = s.signals := rfl
@[simp] theorem State.modCtx_hartRead (s : State) (n : Nat) (f : Ctx → Ctx) : (s.modCtx n f).hartRead = s.hartRead := rfl
@[simp] theorem State.modCtx_hartRefused (s : State) (n : Nat) (f : Ctx → Ctx) : (s.modCtx n f).hartRefused = s.hartRefused := rfl
@[simp] theorem State.modCtx_test (s : State) (n : Nat) (f : Ctx → Ctx) : (s.modCtx n f).test = s.test := rfl
@[simp] theorem State.modCtx_powerCap (s : State) (n : Nat) (f : Ctx → Ctx) : (s.modCtx n f).powerCap = s.powerCap := rfl
@[simp] theorem State.modCtx_thermalCap (s : State) (n : Nat) (f : Ctx → Ctx) : (s.modCtx n f).thermalCap = s.thermalCap := rfl
@[simp] theorem State.modCtx_cool (s : State) (n : Nat) (f : Ctx → Ctx) : (s.modCtx n f).cool = s.cool := rfl
@[simp] theorem State.modCtx_devstat (s : State) (n : Nat) (f : Ctx → Ctx) : (s.modCtx n f).devstat = s.devstat := rfl
@[simp] theorem State.modCtx_deadKeepers (s : State) (n : Nat) (f : Ctx → Ctx) : (s.modCtx n f).deadKeepers = s.deadKeepers := rfl
@[simp] theorem State.modCtx_badImages (s : State) (n : Nat) (f : Ctx → Ctx) : (s.modCtx n f).badImages = s.badImages := rfl

/-! ### `State.modDie` changes `dies` alone -/

@[simp] theorem State.modDie_agenda (s : State) (n : Nat) (f : DieMem → DieMem) : (s.modDie n f).agenda = s.agenda := rfl
@[simp] theorem State.modDie_n (s : State) (n : Nat) (f : DieMem → DieMem) : (s.modDie n f).n = s.n := rfl
@[simp] theorem State.modDie_fresh (s : State) (n : Nat) (f : DieMem → DieMem) : (s.modDie n f).fresh = s.fresh := rfl
@[simp] theorem State.modDie_cur (s : State) (n : Nat) (f : DieMem → DieMem) : (s.modDie n f).cur = s.cur := rfl
@[simp] theorem State.modDie_ticks (s : State) (n : Nat) (f : DieMem → DieMem) : (s.modDie n f).ticks = s.ticks := rfl
@[simp] theorem State.modDie_cores (s : State) (n : Nat) (f : DieMem → DieMem) : (s.modDie n f).cores = s.cores := rfl
@[simp] theorem State.modDie_mem (s : State) (n : Nat) (f : DieMem → DieMem) : (s.modDie n f).mem = s.mem := rfl
@[simp] theorem State.modDie_poison (s : State) (n : Nat) (f : DieMem → DieMem) : (s.modDie n f).poison = s.poison := rfl
@[simp] theorem State.modDie_tags (s : State) (n : Nat) (f : DieMem → DieMem) : (s.modDie n f).tags = s.tags := rfl
@[simp] theorem State.modDie_lines (s : State) (n : Nat) (f : DieMem → DieMem) : (s.modDie n f).lines = s.lines := rfl
@[simp] theorem State.modDie_pages (s : State) (n : Nat) (f : DieMem → DieMem) : (s.modDie n f).pages = s.pages := rfl
@[simp] theorem State.modDie_held (s : State) (n : Nat) (f : DieMem → DieMem) : (s.modDie n f).held = s.held := rfl
@[simp] theorem State.modDie_regions (s : State) (n : Nat) (f : DieMem → DieMem) : (s.modDie n f).regions = s.regions := rfl
@[simp] theorem State.modDie_directory (s : State) (n : Nat) (f : DieMem → DieMem) : (s.modDie n f).directory = s.directory := rfl
@[simp] theorem State.modDie_ctxs (s : State) (n : Nat) (f : DieMem → DieMem) : (s.modDie n f).ctxs = s.ctxs := rfl
@[simp] theorem State.modDie_canals (s : State) (n : Nat) (f : DieMem → DieMem) : (s.modDie n f).canals = s.canals := rfl
@[simp] theorem State.modDie_lastCanal (s : State) (n : Nat) (f : DieMem → DieMem) : (s.modDie n f).lastCanal = s.lastCanal := rfl
@[simp] theorem State.modDie_kernels (s : State) (n : Nat) (f : DieMem → DieMem) : (s.modDie n f).kernels = s.kernels := rfl
@[simp] theorem State.modDie_live (s : State) (n : Nat) (f : DieMem → DieMem) : (s.modDie n f).live = s.live := rfl
@[simp] theorem State.modDie_editions (s : State) (n : Nat) (f : DieMem → DieMem) : (s.modDie n f).editions = s.editions := rfl
@[simp] theorem State.modDie_target (s : State) (n : Nat) (f : DieMem → DieMem) : (s.modDie n f).target = s.target := rfl
@[simp] theorem State.modDie_ports (s : State) (n : Nat) (f : DieMem → DieMem) : (s.modDie n f).ports = s.ports := rfl
@[simp] theorem State.modDie_slots (s : State) (n : Nat) (f : DieMem → DieMem) : (s.modDie n f).slots = s.slots := rfl
@[simp] theorem State.modDie_linkReqs (s : State) (n : Nat) (f : DieMem → DieMem) : (s.modDie n f).linkReqs = s.linkReqs := rfl
@[simp] theorem State.modDie_exports (s : State) (n : Nat) (f : DieMem → DieMem) : (s.modDie n f).exports = s.exports := rfl
@[simp] theorem State.modDie_inboundAcks (s : State) (n : Nat) (f : DieMem → DieMem) : (s.modDie n f).inboundAcks = s.inboundAcks := rfl
@[simp] theorem State.modDie_mailboxes (s : State) (n : Nat) (f : DieMem → DieMem) : (s.modDie n f).mailboxes = s.mailboxes := rfl
@[simp] theorem State.modDie_cmds (s : State) (n : Nat) (f : DieMem → DieMem) : (s.modDie n f).cmds = s.cmds := rfl
@[simp] theorem State.modDie_mailbox (s : State) (n : Nat) (f : DieMem → DieMem) : (s.modDie n f).mailbox = s.mailbox := rfl
@[simp] theorem State.modDie_events (s : State) (n : Nat) (f : DieMem → DieMem) : (s.modDie n f).events = s.events := rfl
@[simp] theorem State.modDie_imsic (s : State) (n : Nat) (f : DieMem → DieMem) : (s.modDie n f).imsic = s.imsic := rfl
@[simp] theorem State.modDie_signals (s : State) (n : Nat) (f : DieMem → DieMem) : (s.modDie n f).signals = s.signals := rfl
@[simp] theorem State.modDie_hartRead (s : State) (n : Nat) (f : DieMem → DieMem) : (s.modDie n f).hartRead = s.hartRead := rfl
@[simp] theorem State.modDie_hartRefused (s : State) (n : Nat) (f : DieMem → DieMem) : (s.modDie n f).hartRefused = s.hartRefused := rfl
@[simp] theorem State.modDie_test (s : State) (n : Nat) (f : DieMem → DieMem) : (s.modDie n f).test = s.test := rfl
@[simp] theorem State.modDie_powerCap (s : State) (n : Nat) (f : DieMem → DieMem) : (s.modDie n f).powerCap = s.powerCap := rfl
@[simp] theorem State.modDie_thermalCap (s : State) (n : Nat) (f : DieMem → DieMem) : (s.modDie n f).thermalCap = s.thermalCap := rfl
@[simp] theorem State.modDie_cool (s : State) (n : Nat) (f : DieMem → DieMem) : (s.modDie n f).cool = s.cool := rfl
@[simp] theorem State.modDie_devstat (s : State) (n : Nat) (f : DieMem → DieMem) : (s.modDie n f).devstat = s.devstat := rfl
@[simp] theorem State.modDie_deadKeepers (s : State) (n : Nat) (f : DieMem → DieMem) : (s.modDie n f).deadKeepers = s.deadKeepers := rfl
@[simp] theorem State.modDie_badImages (s : State) (n : Nat) (f : DieMem → DieMem) : (s.modDie n f).badImages = s.badImages := rfl

/-! ### `State.modRegion` changes `regions` alone -/

@[simp] theorem State.modRegion_agenda (s : State) (n k : Nat) (f : Region → Region) : (s.modRegion n k f).agenda = s.agenda := rfl
@[simp] theorem State.modRegion_n (s : State) (n k : Nat) (f : Region → Region) : (s.modRegion n k f).n = s.n := rfl
@[simp] theorem State.modRegion_fresh (s : State) (n k : Nat) (f : Region → Region) : (s.modRegion n k f).fresh = s.fresh := rfl
@[simp] theorem State.modRegion_cur (s : State) (n k : Nat) (f : Region → Region) : (s.modRegion n k f).cur = s.cur := rfl
@[simp] theorem State.modRegion_ticks (s : State) (n k : Nat) (f : Region → Region) : (s.modRegion n k f).ticks = s.ticks := rfl
@[simp] theorem State.modRegion_cores (s : State) (n k : Nat) (f : Region → Region) : (s.modRegion n k f).cores = s.cores := rfl
@[simp] theorem State.modRegion_mem (s : State) (n k : Nat) (f : Region → Region) : (s.modRegion n k f).mem = s.mem := rfl
@[simp] theorem State.modRegion_poison (s : State) (n k : Nat) (f : Region → Region) : (s.modRegion n k f).poison = s.poison := rfl
@[simp] theorem State.modRegion_tags (s : State) (n k : Nat) (f : Region → Region) : (s.modRegion n k f).tags = s.tags := rfl
@[simp] theorem State.modRegion_lines (s : State) (n k : Nat) (f : Region → Region) : (s.modRegion n k f).lines = s.lines := rfl
@[simp] theorem State.modRegion_pages (s : State) (n k : Nat) (f : Region → Region) : (s.modRegion n k f).pages = s.pages := rfl
@[simp] theorem State.modRegion_held (s : State) (n k : Nat) (f : Region → Region) : (s.modRegion n k f).held = s.held := rfl
@[simp] theorem State.modRegion_dies (s : State) (n k : Nat) (f : Region → Region) : (s.modRegion n k f).dies = s.dies := rfl
@[simp] theorem State.modRegion_directory (s : State) (n k : Nat) (f : Region → Region) : (s.modRegion n k f).directory = s.directory := rfl
@[simp] theorem State.modRegion_ctxs (s : State) (n k : Nat) (f : Region → Region) : (s.modRegion n k f).ctxs = s.ctxs := rfl
@[simp] theorem State.modRegion_canals (s : State) (n k : Nat) (f : Region → Region) : (s.modRegion n k f).canals = s.canals := rfl
@[simp] theorem State.modRegion_lastCanal (s : State) (n k : Nat) (f : Region → Region) : (s.modRegion n k f).lastCanal = s.lastCanal := rfl
@[simp] theorem State.modRegion_kernels (s : State) (n k : Nat) (f : Region → Region) : (s.modRegion n k f).kernels = s.kernels := rfl
@[simp] theorem State.modRegion_live (s : State) (n k : Nat) (f : Region → Region) : (s.modRegion n k f).live = s.live := rfl
@[simp] theorem State.modRegion_editions (s : State) (n k : Nat) (f : Region → Region) : (s.modRegion n k f).editions = s.editions := rfl
@[simp] theorem State.modRegion_target (s : State) (n k : Nat) (f : Region → Region) : (s.modRegion n k f).target = s.target := rfl
@[simp] theorem State.modRegion_ports (s : State) (n k : Nat) (f : Region → Region) : (s.modRegion n k f).ports = s.ports := rfl
@[simp] theorem State.modRegion_slots (s : State) (n k : Nat) (f : Region → Region) : (s.modRegion n k f).slots = s.slots := rfl
@[simp] theorem State.modRegion_linkReqs (s : State) (n k : Nat) (f : Region → Region) : (s.modRegion n k f).linkReqs = s.linkReqs := rfl
@[simp] theorem State.modRegion_exports (s : State) (n k : Nat) (f : Region → Region) : (s.modRegion n k f).exports = s.exports := rfl
@[simp] theorem State.modRegion_inboundAcks (s : State) (n k : Nat) (f : Region → Region) : (s.modRegion n k f).inboundAcks = s.inboundAcks := rfl
@[simp] theorem State.modRegion_mailboxes (s : State) (n k : Nat) (f : Region → Region) : (s.modRegion n k f).mailboxes = s.mailboxes := rfl
@[simp] theorem State.modRegion_cmds (s : State) (n k : Nat) (f : Region → Region) : (s.modRegion n k f).cmds = s.cmds := rfl
@[simp] theorem State.modRegion_mailbox (s : State) (n k : Nat) (f : Region → Region) : (s.modRegion n k f).mailbox = s.mailbox := rfl
@[simp] theorem State.modRegion_events (s : State) (n k : Nat) (f : Region → Region) : (s.modRegion n k f).events = s.events := rfl
@[simp] theorem State.modRegion_imsic (s : State) (n k : Nat) (f : Region → Region) : (s.modRegion n k f).imsic = s.imsic := rfl
@[simp] theorem State.modRegion_signals (s : State) (n k : Nat) (f : Region → Region) : (s.modRegion n k f).signals = s.signals := rfl
@[simp] theorem State.modRegion_hartRead (s : State) (n k : Nat) (f : Region → Region) : (s.modRegion n k f).hartRead = s.hartRead := rfl
@[simp] theorem State.modRegion_hartRefused (s : State) (n k : Nat) (f : Region → Region) : (s.modRegion n k f).hartRefused = s.hartRefused := rfl
@[simp] theorem State.modRegion_test (s : State) (n k : Nat) (f : Region → Region) : (s.modRegion n k f).test = s.test := rfl
@[simp] theorem State.modRegion_powerCap (s : State) (n k : Nat) (f : Region → Region) : (s.modRegion n k f).powerCap = s.powerCap := rfl
@[simp] theorem State.modRegion_thermalCap (s : State) (n k : Nat) (f : Region → Region) : (s.modRegion n k f).thermalCap = s.thermalCap := rfl
@[simp] theorem State.modRegion_cool (s : State) (n k : Nat) (f : Region → Region) : (s.modRegion n k f).cool = s.cool := rfl
@[simp] theorem State.modRegion_devstat (s : State) (n k : Nat) (f : Region → Region) : (s.modRegion n k f).devstat = s.devstat := rfl
@[simp] theorem State.modRegion_deadKeepers (s : State) (n k : Nat) (f : Region → Region) : (s.modRegion n k f).deadKeepers = s.deadKeepers := rfl
@[simp] theorem State.modRegion_badImages (s : State) (n k : Nat) (f : Region → Region) : (s.modRegion n k f).badImages = s.badImages := rfl

/-! ### `State.modPage` changes `pages` alone -/

@[simp] theorem State.modPage_agenda (s : State) (n : Nat) (f : PageSt → PageSt) : (s.modPage n f).agenda = s.agenda := rfl
@[simp] theorem State.modPage_n (s : State) (n : Nat) (f : PageSt → PageSt) : (s.modPage n f).n = s.n := rfl
@[simp] theorem State.modPage_fresh (s : State) (n : Nat) (f : PageSt → PageSt) : (s.modPage n f).fresh = s.fresh := rfl
@[simp] theorem State.modPage_cur (s : State) (n : Nat) (f : PageSt → PageSt) : (s.modPage n f).cur = s.cur := rfl
@[simp] theorem State.modPage_ticks (s : State) (n : Nat) (f : PageSt → PageSt) : (s.modPage n f).ticks = s.ticks := rfl
@[simp] theorem State.modPage_cores (s : State) (n : Nat) (f : PageSt → PageSt) : (s.modPage n f).cores = s.cores := rfl
@[simp] theorem State.modPage_mem (s : State) (n : Nat) (f : PageSt → PageSt) : (s.modPage n f).mem = s.mem := rfl
@[simp] theorem State.modPage_poison (s : State) (n : Nat) (f : PageSt → PageSt) : (s.modPage n f).poison = s.poison := rfl
@[simp] theorem State.modPage_tags (s : State) (n : Nat) (f : PageSt → PageSt) : (s.modPage n f).tags = s.tags := rfl
@[simp] theorem State.modPage_lines (s : State) (n : Nat) (f : PageSt → PageSt) : (s.modPage n f).lines = s.lines := rfl
@[simp] theorem State.modPage_held (s : State) (n : Nat) (f : PageSt → PageSt) : (s.modPage n f).held = s.held := rfl
@[simp] theorem State.modPage_regions (s : State) (n : Nat) (f : PageSt → PageSt) : (s.modPage n f).regions = s.regions := rfl
@[simp] theorem State.modPage_dies (s : State) (n : Nat) (f : PageSt → PageSt) : (s.modPage n f).dies = s.dies := rfl
@[simp] theorem State.modPage_directory (s : State) (n : Nat) (f : PageSt → PageSt) : (s.modPage n f).directory = s.directory := rfl
@[simp] theorem State.modPage_ctxs (s : State) (n : Nat) (f : PageSt → PageSt) : (s.modPage n f).ctxs = s.ctxs := rfl
@[simp] theorem State.modPage_canals (s : State) (n : Nat) (f : PageSt → PageSt) : (s.modPage n f).canals = s.canals := rfl
@[simp] theorem State.modPage_lastCanal (s : State) (n : Nat) (f : PageSt → PageSt) : (s.modPage n f).lastCanal = s.lastCanal := rfl
@[simp] theorem State.modPage_kernels (s : State) (n : Nat) (f : PageSt → PageSt) : (s.modPage n f).kernels = s.kernels := rfl
@[simp] theorem State.modPage_live (s : State) (n : Nat) (f : PageSt → PageSt) : (s.modPage n f).live = s.live := rfl
@[simp] theorem State.modPage_editions (s : State) (n : Nat) (f : PageSt → PageSt) : (s.modPage n f).editions = s.editions := rfl
@[simp] theorem State.modPage_target (s : State) (n : Nat) (f : PageSt → PageSt) : (s.modPage n f).target = s.target := rfl
@[simp] theorem State.modPage_ports (s : State) (n : Nat) (f : PageSt → PageSt) : (s.modPage n f).ports = s.ports := rfl
@[simp] theorem State.modPage_slots (s : State) (n : Nat) (f : PageSt → PageSt) : (s.modPage n f).slots = s.slots := rfl
@[simp] theorem State.modPage_linkReqs (s : State) (n : Nat) (f : PageSt → PageSt) : (s.modPage n f).linkReqs = s.linkReqs := rfl
@[simp] theorem State.modPage_exports (s : State) (n : Nat) (f : PageSt → PageSt) : (s.modPage n f).exports = s.exports := rfl
@[simp] theorem State.modPage_inboundAcks (s : State) (n : Nat) (f : PageSt → PageSt) : (s.modPage n f).inboundAcks = s.inboundAcks := rfl
@[simp] theorem State.modPage_mailboxes (s : State) (n : Nat) (f : PageSt → PageSt) : (s.modPage n f).mailboxes = s.mailboxes := rfl
@[simp] theorem State.modPage_cmds (s : State) (n : Nat) (f : PageSt → PageSt) : (s.modPage n f).cmds = s.cmds := rfl
@[simp] theorem State.modPage_mailbox (s : State) (n : Nat) (f : PageSt → PageSt) : (s.modPage n f).mailbox = s.mailbox := rfl
@[simp] theorem State.modPage_events (s : State) (n : Nat) (f : PageSt → PageSt) : (s.modPage n f).events = s.events := rfl
@[simp] theorem State.modPage_imsic (s : State) (n : Nat) (f : PageSt → PageSt) : (s.modPage n f).imsic = s.imsic := rfl
@[simp] theorem State.modPage_signals (s : State) (n : Nat) (f : PageSt → PageSt) : (s.modPage n f).signals = s.signals := rfl
@[simp] theorem State.modPage_hartRead (s : State) (n : Nat) (f : PageSt → PageSt) : (s.modPage n f).hartRead = s.hartRead := rfl
@[simp] theorem State.modPage_hartRefused (s : State) (n : Nat) (f : PageSt → PageSt) : (s.modPage n f).hartRefused = s.hartRefused := rfl
@[simp] theorem State.modPage_test (s : State) (n : Nat) (f : PageSt → PageSt) : (s.modPage n f).test = s.test := rfl
@[simp] theorem State.modPage_powerCap (s : State) (n : Nat) (f : PageSt → PageSt) : (s.modPage n f).powerCap = s.powerCap := rfl
@[simp] theorem State.modPage_thermalCap (s : State) (n : Nat) (f : PageSt → PageSt) : (s.modPage n f).thermalCap = s.thermalCap := rfl
@[simp] theorem State.modPage_cool (s : State) (n : Nat) (f : PageSt → PageSt) : (s.modPage n f).cool = s.cool := rfl
@[simp] theorem State.modPage_devstat (s : State) (n : Nat) (f : PageSt → PageSt) : (s.modPage n f).devstat = s.devstat := rfl
@[simp] theorem State.modPage_deadKeepers (s : State) (n : Nat) (f : PageSt → PageSt) : (s.modPage n f).deadKeepers = s.deadKeepers := rfl
@[simp] theorem State.modPage_badImages (s : State) (n : Nat) (f : PageSt → PageSt) : (s.modPage n f).badImages = s.badImages := rfl

/-! ### `State.modLine` changes `lines` alone -/

@[simp] theorem State.modLine_agenda (s : State) (n : Nat) (f : LineSt → LineSt) : (s.modLine n f).agenda = s.agenda := rfl
@[simp] theorem State.modLine_n (s : State) (n : Nat) (f : LineSt → LineSt) : (s.modLine n f).n = s.n := rfl
@[simp] theorem State.modLine_fresh (s : State) (n : Nat) (f : LineSt → LineSt) : (s.modLine n f).fresh = s.fresh := rfl
@[simp] theorem State.modLine_cur (s : State) (n : Nat) (f : LineSt → LineSt) : (s.modLine n f).cur = s.cur := rfl
@[simp] theorem State.modLine_ticks (s : State) (n : Nat) (f : LineSt → LineSt) : (s.modLine n f).ticks = s.ticks := rfl
@[simp] theorem State.modLine_cores (s : State) (n : Nat) (f : LineSt → LineSt) : (s.modLine n f).cores = s.cores := rfl
@[simp] theorem State.modLine_mem (s : State) (n : Nat) (f : LineSt → LineSt) : (s.modLine n f).mem = s.mem := rfl
@[simp] theorem State.modLine_poison (s : State) (n : Nat) (f : LineSt → LineSt) : (s.modLine n f).poison = s.poison := rfl
@[simp] theorem State.modLine_tags (s : State) (n : Nat) (f : LineSt → LineSt) : (s.modLine n f).tags = s.tags := rfl
@[simp] theorem State.modLine_pages (s : State) (n : Nat) (f : LineSt → LineSt) : (s.modLine n f).pages = s.pages := rfl
@[simp] theorem State.modLine_held (s : State) (n : Nat) (f : LineSt → LineSt) : (s.modLine n f).held = s.held := rfl
@[simp] theorem State.modLine_regions (s : State) (n : Nat) (f : LineSt → LineSt) : (s.modLine n f).regions = s.regions := rfl
@[simp] theorem State.modLine_dies (s : State) (n : Nat) (f : LineSt → LineSt) : (s.modLine n f).dies = s.dies := rfl
@[simp] theorem State.modLine_directory (s : State) (n : Nat) (f : LineSt → LineSt) : (s.modLine n f).directory = s.directory := rfl
@[simp] theorem State.modLine_ctxs (s : State) (n : Nat) (f : LineSt → LineSt) : (s.modLine n f).ctxs = s.ctxs := rfl
@[simp] theorem State.modLine_canals (s : State) (n : Nat) (f : LineSt → LineSt) : (s.modLine n f).canals = s.canals := rfl
@[simp] theorem State.modLine_lastCanal (s : State) (n : Nat) (f : LineSt → LineSt) : (s.modLine n f).lastCanal = s.lastCanal := rfl
@[simp] theorem State.modLine_kernels (s : State) (n : Nat) (f : LineSt → LineSt) : (s.modLine n f).kernels = s.kernels := rfl
@[simp] theorem State.modLine_live (s : State) (n : Nat) (f : LineSt → LineSt) : (s.modLine n f).live = s.live := rfl
@[simp] theorem State.modLine_editions (s : State) (n : Nat) (f : LineSt → LineSt) : (s.modLine n f).editions = s.editions := rfl
@[simp] theorem State.modLine_target (s : State) (n : Nat) (f : LineSt → LineSt) : (s.modLine n f).target = s.target := rfl
@[simp] theorem State.modLine_ports (s : State) (n : Nat) (f : LineSt → LineSt) : (s.modLine n f).ports = s.ports := rfl
@[simp] theorem State.modLine_slots (s : State) (n : Nat) (f : LineSt → LineSt) : (s.modLine n f).slots = s.slots := rfl
@[simp] theorem State.modLine_linkReqs (s : State) (n : Nat) (f : LineSt → LineSt) : (s.modLine n f).linkReqs = s.linkReqs := rfl
@[simp] theorem State.modLine_exports (s : State) (n : Nat) (f : LineSt → LineSt) : (s.modLine n f).exports = s.exports := rfl
@[simp] theorem State.modLine_inboundAcks (s : State) (n : Nat) (f : LineSt → LineSt) : (s.modLine n f).inboundAcks = s.inboundAcks := rfl
@[simp] theorem State.modLine_mailboxes (s : State) (n : Nat) (f : LineSt → LineSt) : (s.modLine n f).mailboxes = s.mailboxes := rfl
@[simp] theorem State.modLine_cmds (s : State) (n : Nat) (f : LineSt → LineSt) : (s.modLine n f).cmds = s.cmds := rfl
@[simp] theorem State.modLine_mailbox (s : State) (n : Nat) (f : LineSt → LineSt) : (s.modLine n f).mailbox = s.mailbox := rfl
@[simp] theorem State.modLine_events (s : State) (n : Nat) (f : LineSt → LineSt) : (s.modLine n f).events = s.events := rfl
@[simp] theorem State.modLine_imsic (s : State) (n : Nat) (f : LineSt → LineSt) : (s.modLine n f).imsic = s.imsic := rfl
@[simp] theorem State.modLine_signals (s : State) (n : Nat) (f : LineSt → LineSt) : (s.modLine n f).signals = s.signals := rfl
@[simp] theorem State.modLine_hartRead (s : State) (n : Nat) (f : LineSt → LineSt) : (s.modLine n f).hartRead = s.hartRead := rfl
@[simp] theorem State.modLine_hartRefused (s : State) (n : Nat) (f : LineSt → LineSt) : (s.modLine n f).hartRefused = s.hartRefused := rfl
@[simp] theorem State.modLine_test (s : State) (n : Nat) (f : LineSt → LineSt) : (s.modLine n f).test = s.test := rfl
@[simp] theorem State.modLine_powerCap (s : State) (n : Nat) (f : LineSt → LineSt) : (s.modLine n f).powerCap = s.powerCap := rfl
@[simp] theorem State.modLine_thermalCap (s : State) (n : Nat) (f : LineSt → LineSt) : (s.modLine n f).thermalCap = s.thermalCap := rfl
@[simp] theorem State.modLine_cool (s : State) (n : Nat) (f : LineSt → LineSt) : (s.modLine n f).cool = s.cool := rfl
@[simp] theorem State.modLine_devstat (s : State) (n : Nat) (f : LineSt → LineSt) : (s.modLine n f).devstat = s.devstat := rfl
@[simp] theorem State.modLine_deadKeepers (s : State) (n : Nat) (f : LineSt → LineSt) : (s.modLine n f).deadKeepers = s.deadKeepers := rfl
@[simp] theorem State.modLine_badImages (s : State) (n : Nat) (f : LineSt → LineSt) : (s.modLine n f).badImages = s.badImages := rfl

/-! ### `State.queueEvent` changes `events` alone -/

@[simp] theorem State.queueEvent_agenda (s : State) (e : Event) : (s.queueEvent e).agenda = s.agenda := rfl
@[simp] theorem State.queueEvent_n (s : State) (e : Event) : (s.queueEvent e).n = s.n := rfl
@[simp] theorem State.queueEvent_fresh (s : State) (e : Event) : (s.queueEvent e).fresh = s.fresh := rfl
@[simp] theorem State.queueEvent_cur (s : State) (e : Event) : (s.queueEvent e).cur = s.cur := rfl
@[simp] theorem State.queueEvent_ticks (s : State) (e : Event) : (s.queueEvent e).ticks = s.ticks := rfl
@[simp] theorem State.queueEvent_cores (s : State) (e : Event) : (s.queueEvent e).cores = s.cores := rfl
@[simp] theorem State.queueEvent_mem (s : State) (e : Event) : (s.queueEvent e).mem = s.mem := rfl
@[simp] theorem State.queueEvent_poison (s : State) (e : Event) : (s.queueEvent e).poison = s.poison := rfl
@[simp] theorem State.queueEvent_tags (s : State) (e : Event) : (s.queueEvent e).tags = s.tags := rfl
@[simp] theorem State.queueEvent_lines (s : State) (e : Event) : (s.queueEvent e).lines = s.lines := rfl
@[simp] theorem State.queueEvent_pages (s : State) (e : Event) : (s.queueEvent e).pages = s.pages := rfl
@[simp] theorem State.queueEvent_held (s : State) (e : Event) : (s.queueEvent e).held = s.held := rfl
@[simp] theorem State.queueEvent_regions (s : State) (e : Event) : (s.queueEvent e).regions = s.regions := rfl
@[simp] theorem State.queueEvent_dies (s : State) (e : Event) : (s.queueEvent e).dies = s.dies := rfl
@[simp] theorem State.queueEvent_directory (s : State) (e : Event) : (s.queueEvent e).directory = s.directory := rfl
@[simp] theorem State.queueEvent_ctxs (s : State) (e : Event) : (s.queueEvent e).ctxs = s.ctxs := rfl
@[simp] theorem State.queueEvent_canals (s : State) (e : Event) : (s.queueEvent e).canals = s.canals := rfl
@[simp] theorem State.queueEvent_lastCanal (s : State) (e : Event) : (s.queueEvent e).lastCanal = s.lastCanal := rfl
@[simp] theorem State.queueEvent_kernels (s : State) (e : Event) : (s.queueEvent e).kernels = s.kernels := rfl
@[simp] theorem State.queueEvent_live (s : State) (e : Event) : (s.queueEvent e).live = s.live := rfl
@[simp] theorem State.queueEvent_editions (s : State) (e : Event) : (s.queueEvent e).editions = s.editions := rfl
@[simp] theorem State.queueEvent_target (s : State) (e : Event) : (s.queueEvent e).target = s.target := rfl
@[simp] theorem State.queueEvent_ports (s : State) (e : Event) : (s.queueEvent e).ports = s.ports := rfl
@[simp] theorem State.queueEvent_slots (s : State) (e : Event) : (s.queueEvent e).slots = s.slots := rfl
@[simp] theorem State.queueEvent_linkReqs (s : State) (e : Event) : (s.queueEvent e).linkReqs = s.linkReqs := rfl
@[simp] theorem State.queueEvent_exports (s : State) (e : Event) : (s.queueEvent e).exports = s.exports := rfl
@[simp] theorem State.queueEvent_inboundAcks (s : State) (e : Event) : (s.queueEvent e).inboundAcks = s.inboundAcks := rfl
@[simp] theorem State.queueEvent_mailboxes (s : State) (e : Event) : (s.queueEvent e).mailboxes = s.mailboxes := rfl
@[simp] theorem State.queueEvent_cmds (s : State) (e : Event) : (s.queueEvent e).cmds = s.cmds := rfl
@[simp] theorem State.queueEvent_mailbox (s : State) (e : Event) : (s.queueEvent e).mailbox = s.mailbox := rfl
@[simp] theorem State.queueEvent_imsic (s : State) (e : Event) : (s.queueEvent e).imsic = s.imsic := rfl
@[simp] theorem State.queueEvent_signals (s : State) (e : Event) : (s.queueEvent e).signals = s.signals := rfl
@[simp] theorem State.queueEvent_hartRead (s : State) (e : Event) : (s.queueEvent e).hartRead = s.hartRead := rfl
@[simp] theorem State.queueEvent_hartRefused (s : State) (e : Event) : (s.queueEvent e).hartRefused = s.hartRefused := rfl
@[simp] theorem State.queueEvent_test (s : State) (e : Event) : (s.queueEvent e).test = s.test := rfl
@[simp] theorem State.queueEvent_powerCap (s : State) (e : Event) : (s.queueEvent e).powerCap = s.powerCap := rfl
@[simp] theorem State.queueEvent_thermalCap (s : State) (e : Event) : (s.queueEvent e).thermalCap = s.thermalCap := rfl
@[simp] theorem State.queueEvent_cool (s : State) (e : Event) : (s.queueEvent e).cool = s.cool := rfl
@[simp] theorem State.queueEvent_devstat (s : State) (e : Event) : (s.queueEvent e).devstat = s.devstat := rfl
@[simp] theorem State.queueEvent_deadKeepers (s : State) (e : Event) : (s.queueEvent e).deadKeepers = s.deadKeepers := rfl
@[simp] theorem State.queueEvent_badImages (s : State) (e : Event) : (s.queueEvent e).badImages = s.badImages := rfl

/-! ### `State.take` changes `fresh` alone -/

@[simp] theorem State.take_agenda (s : State) : s.take.2.agenda = s.agenda := rfl
@[simp] theorem State.take_n (s : State) : s.take.2.n = s.n := rfl
@[simp] theorem State.take_cur (s : State) : s.take.2.cur = s.cur := rfl
@[simp] theorem State.take_ticks (s : State) : s.take.2.ticks = s.ticks := rfl
@[simp] theorem State.take_cores (s : State) : s.take.2.cores = s.cores := rfl
@[simp] theorem State.take_mem (s : State) : s.take.2.mem = s.mem := rfl
@[simp] theorem State.take_poison (s : State) : s.take.2.poison = s.poison := rfl
@[simp] theorem State.take_tags (s : State) : s.take.2.tags = s.tags := rfl
@[simp] theorem State.take_lines (s : State) : s.take.2.lines = s.lines := rfl
@[simp] theorem State.take_pages (s : State) : s.take.2.pages = s.pages := rfl
@[simp] theorem State.take_held (s : State) : s.take.2.held = s.held := rfl
@[simp] theorem State.take_regions (s : State) : s.take.2.regions = s.regions := rfl
@[simp] theorem State.take_dies (s : State) : s.take.2.dies = s.dies := rfl
@[simp] theorem State.take_directory (s : State) : s.take.2.directory = s.directory := rfl
@[simp] theorem State.take_ctxs (s : State) : s.take.2.ctxs = s.ctxs := rfl
@[simp] theorem State.take_canals (s : State) : s.take.2.canals = s.canals := rfl
@[simp] theorem State.take_lastCanal (s : State) : s.take.2.lastCanal = s.lastCanal := rfl
@[simp] theorem State.take_kernels (s : State) : s.take.2.kernels = s.kernels := rfl
@[simp] theorem State.take_live (s : State) : s.take.2.live = s.live := rfl
@[simp] theorem State.take_editions (s : State) : s.take.2.editions = s.editions := rfl
@[simp] theorem State.take_target (s : State) : s.take.2.target = s.target := rfl
@[simp] theorem State.take_ports (s : State) : s.take.2.ports = s.ports := rfl
@[simp] theorem State.take_slots (s : State) : s.take.2.slots = s.slots := rfl
@[simp] theorem State.take_linkReqs (s : State) : s.take.2.linkReqs = s.linkReqs := rfl
@[simp] theorem State.take_exports (s : State) : s.take.2.exports = s.exports := rfl
@[simp] theorem State.take_inboundAcks (s : State) : s.take.2.inboundAcks = s.inboundAcks := rfl
@[simp] theorem State.take_mailboxes (s : State) : s.take.2.mailboxes = s.mailboxes := rfl
@[simp] theorem State.take_cmds (s : State) : s.take.2.cmds = s.cmds := rfl
@[simp] theorem State.take_mailbox (s : State) : s.take.2.mailbox = s.mailbox := rfl
@[simp] theorem State.take_events (s : State) : s.take.2.events = s.events := rfl
@[simp] theorem State.take_imsic (s : State) : s.take.2.imsic = s.imsic := rfl
@[simp] theorem State.take_signals (s : State) : s.take.2.signals = s.signals := rfl
@[simp] theorem State.take_hartRead (s : State) : s.take.2.hartRead = s.hartRead := rfl
@[simp] theorem State.take_hartRefused (s : State) : s.take.2.hartRefused = s.hartRefused := rfl
@[simp] theorem State.take_test (s : State) : s.take.2.test = s.test := rfl
@[simp] theorem State.take_powerCap (s : State) : s.take.2.powerCap = s.powerCap := rfl
@[simp] theorem State.take_thermalCap (s : State) : s.take.2.thermalCap = s.thermalCap := rfl
@[simp] theorem State.take_cool (s : State) : s.take.2.cool = s.cool := rfl
@[simp] theorem State.take_devstat (s : State) : s.take.2.devstat = s.devstat := rfl
@[simp] theorem State.take_deadKeepers (s : State) : s.take.2.deadKeepers = s.deadKeepers := rfl
@[simp] theorem State.take_badImages (s : State) : s.take.2.badImages = s.badImages := rfl
@[simp] theorem State.take_fresh (s : State) : s.take.2.fresh = s.fresh + 1 := rfl
@[simp] theorem State.take_id (s : State) : s.take.1 = s.fresh := rfl

end Sys2Proof.Machine
end

