-- ==== Sys2Proof/Laws/Groups.lean ====
section
/-! SUPPORT. Groups, threads and register files: what a write of a register gives, what `Group.onThreads`, `Group.settle` and
`Group.advance` change and what they leave. -/

namespace Sys2Proof.Machine

/-! ### Cores, groups, teams -/

@[simp] theorem core_setCore (s : State) (c : Nat) (k : Core) : (s.setCore c k).core c = k := by simp [State.core, State.setCore]

theorem core_setCore_ne (s : State) {c d : Nat} (k : Core) (h : d ≠ c) : (s.setCore c k).core d = s.core d := by
  simp [State.core, State.setCore, get?_put_ne _ _ h]

@[simp] theorem core_modCore (s : State) (c : Nat) (f : Core → Core) : (s.modCore c f).core c = f (s.core c) := by simp [State.modCore]

theorem core_modCore_ne (s : State) {c d : Nat} (f : Core → Core) (h : d ≠ c) : (s.modCore c f).core d = s.core d := by
  simp [State.modCore, core_setCore_ne _ _ h]

@[simp] theorem core_modGroup (s : State) (c l : Nat) (f : Group → Group) : (s.modGroup c l f).core c = (s.core c).modGroup l f := by
  simp [State.modGroup]

theorem core_modGroup_ne (s : State) {c d : Nat} (l : Nat) (f : Group → Group) (h : d ≠ c) : (s.modGroup c l f).core d = s.core d := by
  simp [State.modGroup, core_modCore_ne _ _ h]

theorem Core.modGroup_groups {c : Core} {l : Nat} {g : Group} (h : get? c.groups l = some g) (f : Group → Group) :
    c.modGroup l f = { c with groups := put c.groups l (f g) } := by simp [Core.modGroup, h]

/-- A core's group after a change of it. -/
theorem Core.get?_modGroup {c : Core} {l : Nat} {g : Group} (h : get? c.groups l = some g) (f : Group → Group) :
    get? (c.modGroup l f).groups l = some (f g) := by simp [Core.modGroup, h]

theorem Core.get?_modGroup_ne (c : Core) {l k : Nat} (f : Group → Group) (h : k ≠ l) :
    get? (c.modGroup l f).groups k = get? c.groups k := by
  unfold Core.modGroup
  split
  · simp [get?_put_ne _ _ h]
  · rfl

@[simp] theorem Core.modGroup_ops (c : Core) (l : Nat) (f : Group → Group) : (c.modGroup l f).ops = c.ops := by
  unfold Core.modGroup; split <;> rfl

@[simp] theorem Core.modGroup_teams (c : Core) (l : Nat) (f : Group → Group) : (c.modGroup l f).teams = c.teams := by
  unfold Core.modGroup; split <;> rfl

/-- Only the groups, the operations and the issue slots of a core differ. -/
def Core.sameRest (c d : Core) : Prop := d = { c with groups := d.groups, ops := d.ops, turn := d.turn }

theorem Core.sameRest.rfl' (c : Core) : c.sameRest c := rfl

theorem Core.sameRest.trans {c d e : Core} (h : c.sameRest d) (k : d.sameRest e) : c.sameRest e := by
  unfold Core.sameRest at *
  rw [k, h]

theorem Core.sameRest_modGroup (c : Core) (l : Nat) (f : Group → Group) : c.sameRest (c.modGroup l f) := by
  unfold Core.sameRest Core.modGroup; split <;> rfl

theorem stored_modCore (s : State) (c : Nat) (f : Core → Core) (a : Nat) : (s.modCore c f).stored a = s.stored a := rfl

/-! ### Lanes -/

theorem lt_of_has {m : Mask} {i : Nat} (h : has m i = true) : i < 64 := by
  unfold has at h
  exact BitVec.lt_of_getLsbD h

theorem mem_lanesOf {m : Mask} {i : Nat} : i ∈ lanesOf m ↔ has m i = true := by
  simp only [lanesOf, List.mem_filter, List.mem_range]
  exact ⟨And.right, fun h => ⟨lt_of_has h, h⟩⟩

theorem has_and (a b : Mask) (i : Nat) : has (a &&& b) i = (has a i && has b i) := by simp [has]

theorem has_zero (i : Nat) : has 0#64 i = false := by simp [has]

theorem has_not {a : Mask} {i : Nat} (h : i < 64) : has (~~~ a) i = !has a i := by simp [has, h]

/-- A mask of the lanes that satisfy a predicate. -/
theorem has_maskOf (p : Nat → Bool) (i : Nat) : has (maskOf p) i = (decide (i < 64) && p i) := by
  have key : ∀ (l : List Nat) (m : Mask),
      (l.foldl (fun m i => if p i then m ||| laneBit i else m) m).getLsbD i = (m.getLsbD i || (decide (i ∈ l) && decide (i < 64) && p i)) := by
    intro l
    induction l with
    | nil => simp
    | cons j t ih =>
      intro m
      rw [List.foldl_cons, ih]
      by_cases hj : p j = true
      · simp only [hj, if_true, BitVec.getLsbD_or, laneBit, BitVec.getLsbD_twoPow, List.mem_cons]
        by_cases e : i = j
        · subst e; cases decide (i < 64) <;> simp [hj]
        · simp [e, Ne.symm e]
      · simp only [hj, Bool.false_eq_true, if_false, List.mem_cons]
        by_cases e : i = j
        · subst e; simp [hj]
        · simp [e]
  unfold has maskOf
  rw [key]
  simp only [BitVec.ofNat_eq_ofNat, BitVec.getLsbD_zero, List.mem_range, Bool.false_or]
  cases decide (i < 64) <;> simp

theorem guarded_sub {g : Group} {m : Mask} {x : Guard} {i : Nat} (h : has (g.guarded m x) i = true) : has m i = true := by
  unfold Group.guarded at h
  split at h
  · exact h
  · rw [has_and] at h; exact (Bool.and_eq_true _ _ ▸ h).1

/-! ### Rows -/

@[simp] theorem rowAt_mkRow (f : Nat → Word32) {i : Nat} (h : i < 64) : rowAt (mkRow f) i = f i := by
  simp [rowAt, mkRow, List.getD_eq_getElem?_getD, h]

theorem rowAt_mergeRow (r : Row) (m : Mask) (f : Nat → Word32) {i : Nat} (h : i < 64) :
    rowAt (mergeRow r m f) i = if has m i then f i else rowAt r i := by simp [mergeRow, h]

theorem rowOf_put (m : SMap Row) (n k : Nat) (r : Row) : rowOf (put m k r) n = if n = k then r else rowOf m n := by
  unfold rowOf
  rw [get?_put]
  split <;> rfl

/-! ### Threads -/

@[simp] theorem thread_onThreads (g : Group) (m : Mask) (f : Nat → Thread → Thread) {i : Nat} (h : i < 64) :
    (g.onThreads m f).thread i = if has m i then f i (g.thread i) else g.thread i := by
  simp [Group.thread, Group.onThreads, List.getD_eq_getElem?_getD, h]

theorem onThreads_same (g : Group) (m : Mask) (f : Nat → Thread → Thread) :
    g.onThreads m f = { g with threads := (g.onThreads m f).threads } := rfl

theorem countIssue_same (g : Group) (m : Mask) :
    g.countIssue m = { g with issues := (g.countIssue m).issues, acted := (g.countIssue m).acted } := rfl

@[simp] theorem thread_countIssue (g : Group) (m : Mask) (i : Nat) : (g.countIssue m).thread i = g.thread i := rfl

theorem stepThread_countIssue (g : Group) (m : Mask) (t : Thread) : (g.countIssue m).stepThread t = g.stepThread t := rfl

/-! ### Settling of clauses (R69) -/

theorem countDown_same (g : Group) (f : Nat) : g.countDown f = { g with flags := (g.countDown f).flags } := by
  unfold Group.countDown; split <;> rfl

theorem settleEntry_same (g : Group) (e : Entry) : (g.settleEntry e).1 = { g with flags := (g.settleEntry e).1.flags } := by
  unfold Group.settleEntry
  by_cases h1 : (e.setbOn && !e.opened && e.unconsumed == 0) = true
  · rw [if_pos h1]
    simp only
    split
    · simp only
      rw [countDown_same (g.countDown e.setb), countDown_same g]
    · exact countDown_same g _
  · rw [if_neg h1]
    simp only
    split
    · exact countDown_same g _
    · rfl

/-- A fold whose every step changes the completion flags alone. -/
theorem foldFlags {β : Type} (F : Group × β → Entry → Group × β) (hF : ∀ acc e, (F acc e).1 = { acc.1 with flags := (F acc e).1.flags })
    (es : List Entry) : ∀ acc, (es.foldl F acc).1 = { acc.1 with flags := (es.foldl F acc).1.flags } := by
  induction es with
  | nil => intro acc; rfl
  | cons e t ih =>
    intro acc
    rw [List.foldl_cons, ih, hF acc e]

/-- Some live thread executes an entry. -/
def Group.runs (g : Group) (e : Entry) : Bool := (List.range 64).any fun i => (g.thread i).live && (g.thread i).entry == e.id

/-- The turn is given up once settled. -/
def Group.yields (g : Group) : Bool := g.yielded || g.entries.any fun e => e.opened && e.yields && !g.runs e

/-- The fold of a settling. -/
def settleFold (g : Group) (es : List Entry) (acc : List Entry) : Group × List Entry :=
  es.foldl (fun (acc : Group × List Entry) e => ((acc.1.settleEntry e).1, acc.2 ++ [(acc.1.settleEntry e).2])) (g, acc)

theorem settle_eq (g : Group) : g.settle =
    let r := settleFold { g with yielded := g.yields } (g.entries.map fun e => { e with opened := e.opened && g.runs e }) []
    { r.1 with entries := r.2.filter fun e => e.opened || e.setaOn || e.setbOn || e.unfinished != 0 } := rfl

/-- Settling changes the completion flags, the clause entries, and whether the turn is given up, alone. -/
theorem settle_same (g : Group) :
    g.settle = { g with flags := g.settle.flags, entries := g.settle.entries, yielded := g.settle.yielded } := by
  have h := foldFlags (fun (acc : Group × List Entry) e => ((acc.1.settleEntry e).1, acc.2 ++ [(acc.1.settleEntry e).2]))
    (fun acc e => settleEntry_same acc.1 e)
    (g.entries.map fun e => { e with opened := e.opened && g.runs e }) ({ g with yielded := g.yields }, [])
  have h' : (settleFold { g with yielded := g.yields } (g.entries.map fun e => { e with opened := e.opened && g.runs e }) []).1 =
      { g with yielded := g.yields, flags := (settleFold { g with yielded := g.yields } (g.entries.map fun e =>
        { e with opened := e.opened && g.runs e }) []).1.flags } := h
  rw [settle_eq]
  simp only
  rw [h']

@[simp] theorem settle_thread (g : Group) (i : Nat) : g.settle.thread i = g.thread i := by rw [settle_same]; rfl

theorem settleEntry_congr {g h : Group} (hf : g.flags = h.flags) (e : Entry) :
    (g.settleEntry e).1.flags = (h.settleEntry e).1.flags ∧ (g.settleEntry e).2 = (h.settleEntry e).2 := by
  have hflag : ∀ (a b : Group) n, a.flags = b.flags → (a.countDown n).flags = (b.countDown n).flags := by
    intro a b n hab
    unfold Group.countDown Group.flag
    split <;> simp [hab]
  unfold Group.settleEntry
  by_cases h1 : (e.setbOn && !e.opened && e.unconsumed == 0) = true
  · rw [if_pos h1, if_pos h1]
    simp only
    split
    · exact ⟨hflag _ _ _ (hflag _ _ _ hf), rfl⟩
    · exact ⟨hflag _ _ _ hf, rfl⟩
  · rw [if_neg h1, if_neg h1]
    simp only
    split
    · exact ⟨hflag _ _ _ hf, rfl⟩
    · exact ⟨hf, rfl⟩

/-- What settling gives depends on the entries, the flags, and which threads live in which entry. -/
theorem settle_congr {g h : Group} (he : g.entries = h.entries) (hf : g.flags = h.flags)
    (ht : ∀ i < 64, (g.thread i).live = (h.thread i).live ∧ (g.thread i).entry = (h.thread i).entry) :
    g.settle.flags = h.settle.flags ∧ g.settle.entries = h.settle.entries := by
  have fold : ∀ (es : List Entry) (a b : Group × List Entry), a.1.flags = b.1.flags → a.2 = b.2 →
      (es.foldl (fun (acc : Group × List Entry) e => ((acc.1.settleEntry e).1, acc.2 ++ [(acc.1.settleEntry e).2])) a).1.flags =
        (es.foldl (fun (acc : Group × List Entry) e => ((acc.1.settleEntry e).1, acc.2 ++ [(acc.1.settleEntry e).2])) b).1.flags ∧
      (es.foldl (fun (acc : Group × List Entry) e => ((acc.1.settleEntry e).1, acc.2 ++ [(acc.1.settleEntry e).2])) a).2 =
        (es.foldl (fun (acc : Group × List Entry) e => ((acc.1.settleEntry e).1, acc.2 ++ [(acc.1.settleEntry e).2])) b).2 := by
    intro es
    induction es with
    | nil => exact fun a b h1 h2 => ⟨h1, h2⟩
    | cons e t ih =>
      intro a b h1 h2
      rw [List.foldl_cons, List.foldl_cons]
      have hc := settleEntry_congr h1 e
      exact ih _ _ hc.1 (by simp only [h2, hc.2])
  have hruns : ∀ e, g.runs e = h.runs e := by
    intro e
    unfold Group.runs
    rw [Bool.eq_iff_iff, List.any_eq_true, List.any_eq_true]
    constructor
    · rintro ⟨i, hi, hp⟩
      exact ⟨i, hi, by rwa [← (ht i (List.mem_range.1 hi)).1, ← (ht i (List.mem_range.1 hi)).2]⟩
    · rintro ⟨i, hi, hp⟩
      exact ⟨i, hi, by rwa [(ht i (List.mem_range.1 hi)).1, (ht i (List.mem_range.1 hi)).2]⟩
  have hmap : (g.entries.map fun e => { e with opened := e.opened && g.runs e }) =
      h.entries.map fun e => { e with opened := e.opened && h.runs e } := by
    rw [he]
    exact List.map_congr_left fun e _ => by rw [hruns]
  have hh := fold (h.entries.map fun e => { e with opened := e.opened && h.runs e }) ({ g with yielded := g.yields }, [])
    ({ h with yielded := h.yields }, []) hf rfl
  constructor
  · rw [settle_eq, settle_eq, hmap]
    exact hh.1
  · rw [settle_eq, settle_eq, hmap]
    show List.filter _ _ = List.filter _ _
    exact congrArg (List.filter fun e => e.opened || e.setaOn || e.setbOn || e.unfinished != 0) hh.2

/-- What settling keeps of an entry. -/
def Entry.alike (a b : Entry) : Prop := b.id = a.id ∧ b.words = a.words ∧ b.unfinished = a.unfinished

/-- Lists of entries that are alike one by one. -/
inductive Alikes : List Entry → List Entry → Prop
  | nil : Alikes [] []
  | cons {a b : Entry} {l m : List Entry} : a.alike b → Alikes l m → Alikes (a :: l) (b :: m)

theorem settleEntry_alike (g : Group) (e : Entry) : e.alike (g.settleEntry e).2 := by
  unfold Group.settleEntry
  by_cases h1 : (e.setbOn && !e.opened && e.unconsumed == 0) = true
  · rw [if_pos h1]; simp only; split <;> exact ⟨rfl, rfl, rfl⟩
  · rw [if_neg h1]; simp only; split <;> exact ⟨rfl, rfl, rfl⟩

theorem find_alike {es fs : List Entry} (h : Alikes es fs) (id : Nat) (p : Entry → Bool)
    (hp : ∀ e ∈ es, e.id = id → e.unfinished ≠ 0) (hq : ∀ e, e.unfinished ≠ 0 → p e = true) :
    ((fs.filter p).find? fun e => e.id == id).map (·.words) = (es.find? fun e => e.id == id).map (·.words) := by
  induction h with
  | nil => rfl
  | @cons a b l m hab _ ih =>
    have ih := ih fun e he => hp e (List.mem_cons_of_mem _ he)
    by_cases e : a.id = id
    · have hb : p b = true := hq b (by rw [hab.2.2]; exact hp a List.mem_cons_self e)
      simp [hb, hab.1, e, hab.2.1]
    · have e' : (b.id == id) = false := by simp [hab.1, e]
      have e'' : (a.id == id) = false := by simp [e]
      by_cases hb : p b = true
      · rw [List.filter_cons, if_pos hb, List.find?_cons, e', List.find?_cons, e'']
        exact ih
      · rw [List.filter_cons, if_neg hb, List.find?_cons, e'']
        exact ih

/-- An entry with operations outstanding stands through a settling, with its words. -/
theorem settle_entryOf (g : Group) (id : Nat) (h : ∀ e ∈ g.entries, e.id = id → e.unfinished ≠ 0) :
    (g.settle.entryOf id).map (·.words) = (g.entryOf id).map (·.words) := by
  have fold : ∀ (es : List Entry) (a : Group × List Entry), ∃ fs,
      (es.foldl (fun (acc : Group × List Entry) e => ((acc.1.settleEntry e).1, acc.2 ++ [(acc.1.settleEntry e).2])) a).2 = a.2 ++ fs ∧
      Alikes es fs := by
    intro es
    induction es with
    | nil => exact fun a => ⟨[], by simp, .nil⟩
    | cons e t ih =>
      intro a
      rw [List.foldl_cons]
      obtain ⟨fs, h1, h2⟩ := ih ((a.1.settleEntry e).1, a.2 ++ [(a.1.settleEntry e).2])
      exact ⟨(a.1.settleEntry e).2 :: fs, by rw [h1]; simp, .cons (settleEntry_alike _ _) h2⟩
  obtain ⟨fs, h1, h2⟩ := fold (g.entries.map fun e => { e with opened := e.opened && g.runs e }) ({ g with yielded := g.yields }, [])
  have hmap : ∀ {es fs : List Entry} (f : Entry → Entry), (∀ e : Entry, e.alike (f e)) → Alikes (es.map f) fs →
      Alikes es fs := by
    intro es
    induction es with
    | nil => intro fs f _ h; exact h
    | cons e t ih =>
      intro fs f hf h
      cases h with
      | cons ha hb => exact .cons ⟨ha.1.trans (hf e).1, ha.2.1.trans (hf e).2.1, ha.2.2.trans (hf e).2.2⟩ (ih f hf hb)
  have h3 := hmap (fun e => { e with opened := e.opened && g.runs e }) (fun e => ⟨rfl, rfl, rfl⟩) h2
  have h4 := find_alike h3 id (fun e => e.opened || e.setaOn || e.setbOn || e.unfinished != 0) h (fun e he => by simp [he])
  have h5 : g.settle.entries = fs.filter fun e => e.opened || e.setaOn || e.setbOn || e.unfinished != 0 := by
    rw [settle_eq]
    simp only [settleFold, h1, List.nil_append]
  unfold Group.entryOf
  rw [h5, h4]

/-! ### Moving on (R73) -/

theorem entryOf_congr {g h : Group} (he : h.entries = g.entries) (j : Nat) : h.entryOf j = g.entryOf j := by
  unfold Group.entryOf; rw [he]

/-- What `Group.advance` changes: threads, clause entries, completion flags, and whether the turn is given up. -/
theorem advance_same (g : Group) (act : Mask) :
    g.advance act = { g with threads := (g.advance act).threads, entries := (g.advance act).entries, flags := (g.advance act).flags,
                             yielded := (g.advance act).yielded } := by
  unfold Group.advance
  rw [settle_same]
  rfl

theorem advance_thread (g : Group) (act : Mask) {i : Nat} (hi : i < 64) :
    (g.advance act).thread i =
      if has act i then
        if (g.thread i).st = .ready then { g.stepThread (g.thread i) with since := g.issuesOf (sliceOf i) } else g.thread i
      else g.thread i := by
  unfold Group.advance
  rw [settle_thread, thread_onThreads _ _ _ hi]

/-- A group that issues and moves on. -/
def Group.moved (g : Group) (act : Mask) : Group := (g.countIssue act).advance act

/-- What `Group.moved` changes. -/
theorem moved_same (g : Group) (act : Mask) :
    g.moved act = { g with threads := (g.moved act).threads, issues := (g.moved act).issues, acted := (g.moved act).acted,
                           entries := (g.moved act).entries, flags := (g.moved act).flags, yielded := (g.moved act).yielded } := by
  unfold Group.moved
  rw [advance_same]
  rfl

theorem moved_thread (g : Group) (act : Mask) {i : Nat} (hi : i < 64) :
    (g.moved act).thread i =
      if has act i then
        if (g.thread i).st = .ready then { g.stepThread (g.thread i) with since := (g.countIssue act).issuesOf (sliceOf i) } else g.thread i
      else g.thread i := by
  unfold Group.moved
  rw [advance_thread _ _ hi]
  rfl

theorem countAt_congr {g h : Group} {a b : Thread} (ht : b.entry = a.entry)
    (he : (h.entryOf a.entry).map (·.words) = (g.entryOf a.entry).map (·.words)) : h.countAt b = g.countAt a := by
  unfold Group.countAt
  rw [ht]
  cases h1 : h.entryOf a.entry <;> cases h2 : g.entryOf a.entry <;> simp_all

/-- A group that has the threads of `g`, but for what they have found at issue, and the words of its entries, moved on, stands to `g` as R73
says. -/
theorem movedOn_moved {g h : Group} (act : Mask) (ht : ∀ i < 64, SameThread g h i)
    (he : ∀ i < 64, has act i = true → (h.entryOf (g.thread i).entry).map (·.words) = (g.entryOf (g.thread i).entry).map (·.words)) :
    MovedOn g (h.moved act) act := by
  have hstep : ∀ i < 64, has act i = true → h.stepThread (h.thread i) = g.stepThread (g.thread i) := fun i hi hm => by
    have e := ht i hi
    unfold SameThread at e
    have hpc : (h.thread i).pc = (g.thread i).pc := by rw [e]
    have hen : (h.thread i).entry = (g.thread i).entry := by rw [e]
    have hc : h.countAt (h.thread i) = g.countAt (g.thread i) := countAt_congr hen (he i hi hm)
    unfold Group.stepThread Group.nextPc
    rw [hc, hpc]
    rw [e]
  refine ⟨fun i hi hm hr => ⟨(h.countIssue act).issuesOf (sliceOf i), ?_⟩, fun i hi hn => ?_⟩
  · have hr' : (h.thread i).st = .ready := by rw [ht i hi]; exact hr
    rw [moved_thread _ _ hi, if_pos hm, if_pos hr', hstep i hi hm]
  · unfold SameThread
    have hst : (h.thread i).st = (g.thread i).st := by rw [ht i hi]
    have : (h.moved act).thread i = h.thread i := by
      rw [moved_thread _ _ hi]
      by_cases hm : has act i = true
      · rw [if_pos hm, if_neg fun hr => hn ⟨hm, hst ▸ hr⟩]
      · rw [if_neg hm]
    rw [this]
    exact ht i hi

/-- The flags of a group that has the threads, entries and flags of `g`, moved on. -/
theorem flagsStand_moved {g h : Group} (act : Mask) (ht : h.threads = g.threads) (he : h.entries = g.entries) (hf : h.flags = g.flags) :
    FlagsStand g (h.moved act) act := by
  intro hs hl
  have hth : ∀ i, h.thread i = g.thread i := fun i => by simp only [Group.thread, ht]
  have hc : ((h.countIssue act).onThreads act fun i t =>
      if t.st = .ready then { (h.countIssue act).stepThread t with since := (h.countIssue act).issuesOf (sliceOf i) } else t).settle.flags =
      g.settle.flags := by
    refine (settle_congr ?_ ?_ ?_).1
    · exact he
    · exact hf
    · intro i hi
      rw [thread_onThreads _ _ _ hi, thread_countIssue, hth]
      by_cases hm : has act i = true
      · rw [if_pos hm]
        by_cases hr : (g.thread i).st = .ready
        · rw [if_pos hr, stepThread_countIssue]
          have hc : h.countAt (g.thread i) = g.countAt (g.thread i) := countAt_congr rfl (by rw [entryOf_congr he])
          have : slotOf (g.thread i).pc < h.countAt (g.thread i) := by rw [hc]; exact hl i hi hm hr
          unfold Group.stepThread
          rw [if_pos this]
          exact ⟨rfl, rfl⟩
        · rw [if_neg hr]; exact ⟨rfl, rfl⟩
      · rw [if_neg hm]; exact ⟨rfl, rfl⟩
  unfold Group.moved Group.advance
  rw [hs] at hc
  exact hc

/-! ### What only the next turn reads -/

theorem still_of_sameThread {g : Group} (b : Bool) : still { g with yielded := b } = still g := rfl

theorem still?_modCore_ne (s : State) {c d : Nat} (f : Core → Core) (h : d ≠ c) (l : Nat) :
    State.still? (s.modCore c f) d l = State.still? s d l := by
  unfold State.still? State.group?
  rw [core_modCore_ne _ _ h]

end Sys2Proof.Machine
end

