-- ==== Sys2Proof/Laws/Registers.lean ====
section
/-! SUPPORT. Writing registers (R79, R80, R153): what `Core.writeReg`, `Core.writeDst` and `Core.writeAlu` do to a core's group, and that they
leave the rest of the core. -/

namespace Sys2Proof.Machine

/-! ### One register -/

theorem setReg_main (g : Group) (r : RReg) (m : Mask) (f : Nat → Word32) (n : Nat) {i : Nat} (hi : i < 64) :
    (g.setReg r m f).mainAt n i = if r = .v n ∧ has m i = true then f i else g.mainAt n i := by
  cases r with
  | v k =>
    simp only [Group.setReg, Group.mainAt, rowOf_put]
    by_cases h : n = k
    · subst h; simp [rowAt_mergeRow _ _ _ hi]
    · simp [h, Ne.symm h]
  | q k => simp [Group.setReg, Group.mainAt]
  | l k => simp [Group.setReg, Group.mainAt]

theorem setReg_q (g : Group) (r : RReg) (m : Mask) (f : Nat → Word32) (n : Nat) {i : Nat} (hi : i < 64) :
    rowAt (rowOf (g.setReg r m f).q n) i = if r = .q n ∧ has m i = true then f i else rowAt (rowOf g.q n) i := by
  cases r with
  | q k =>
    simp only [Group.setReg, rowOf_put]
    by_cases h : n = k
    · subst h; simp [rowAt_mergeRow _ _ _ hi]
    · simp [h, Ne.symm h]
  | v k => simp [Group.setReg]
  | l k => simp [Group.setReg]

theorem setReg_l (g : Group) (r : RReg) (m : Mask) (f : Nat → Word32) (n : Nat) {i : Nat} (hi : i < 64) :
    rowAt (rowOf (g.setReg r m f).l n) i = if r = .l n ∧ has m i = true then f i else rowAt (rowOf g.l n) i := by
  cases r with
  | l k =>
    simp only [Group.setReg, rowOf_put]
    by_cases h : n = k
    · subst h; simp [rowAt_mergeRow _ _ _ hi]
    · simp [h, Ne.symm h]
  | v k => simp [Group.setReg]
  | q k => simp [Group.setReg]

/-- A register write changes a register file alone. -/
theorem setReg_same (g : Group) (r : RReg) (m : Mask) (f : Nat → Word32) :
    g.setReg r m f = { g with v := (g.setReg r m f).v, q := (g.setReg r m f).q, l := (g.setReg r m f).l } := by
  cases r <;> rfl

/-! ### Groups that differ in registers alone -/

/-- From `g` to `h` only registers change. -/
def Group.sameButRegs (g h : Group) : Prop := h = { g with v := h.v, q := h.q, l := h.l, g := h.g }

theorem Group.sameButRegs.refl (g : Group) : g.sameButRegs g := rfl

theorem Group.sameButRegs.trans {a b c : Group} (h : a.sameButRegs b) (k : b.sameButRegs c) : a.sameButRegs c := by
  unfold Group.sameButRegs at *
  rw [k, h]

theorem sameButRegs_setReg (g : Group) (r : RReg) (m : Mask) (f : Nat → Word32) : g.sameButRegs (g.setReg r m f) := by
  cases r <;> rfl

/-! ### What a register write does to a core -/

/-- A change of a core that writes registers of group `l`, and changes of the operations the writes that they have pending. -/
structure Core.Wrote (c d : Core) (l : Nat) (g h : Group) : Prop where
  now : get? d.groups l = some h
  others : ∀ k, k ≠ l → get? d.groups k = get? c.groups k
  rest : c.sameRest d
  ops : d.ops.map withoutWrites = c.ops.map withoutWrites
  group : g.sameButRegs h

theorem Core.Wrote.refl {c : Core} {l : Nat} {g : Group} (h : get? c.groups l = some g) : c.Wrote c l g g :=
  ⟨h, fun _ _ => rfl, rfl, rfl, rfl⟩

theorem Core.Wrote.trans {c d e : Core} {l : Nat} {g h k : Group} (a : c.Wrote d l g h) (b : d.Wrote e l h k) : c.Wrote e l g k :=
  ⟨b.now, fun n hn => (b.others n hn).trans (a.others n hn), a.rest.trans b.rest, b.ops.trans a.ops, a.group.trans b.group⟩

theorem Core.wrote_modGroup {c : Core} {l : Nat} {g : Group} (h : get? c.groups l = some g) {f : Group → Group} (hf : g.sameButRegs (f g)) :
    c.Wrote (c.modGroup l f) l g (f g) :=
  ⟨Core.get?_modGroup h f, fun _ hk => Core.get?_modGroup_ne c f hk, Core.sameRest_modGroup c l f, by simp, hf⟩

theorem Core.wrote_cancel {c : Core} {l : Nat} {g : Group} (h : get? c.groups l = some g) (r : RReg) (m : Mask) :
    c.Wrote (c.cancel l r m) l g g := by
  refine ⟨h, fun _ _ => rfl, rfl, ?_, rfl⟩
  unfold Core.cancel
  rw [List.map_map]
  refine List.map_congr_left fun o _ => ?_
  simp only [Function.comp]
  split <;> rfl

theorem Core.wrote_cancelG {c : Core} {l : Nat} {g : Group} (h : get? c.groups l = some g) (n : Nat) (m : Mask) :
    c.Wrote (c.cancelG l n m) l g g := by
  refine ⟨h, fun _ _ => rfl, rfl, ?_, rfl⟩
  unfold Core.cancelG
  rw [List.map_map]
  refine List.map_congr_left fun o _ => ?_
  simp only [Function.comp]
  split <;> rfl

theorem Core.wrote_writeReg {c : Core} {l : Nat} {g : Group} (h : get? c.groups l = some g) (r : RReg) (m : Mask) (f : Nat → Word32) :
    c.Wrote (c.writeReg l r m f) l g (g.setReg r m f) :=
  have a := Core.wrote_modGroup h (f := fun g => g.setReg r m f) (sameButRegs_setReg g r m f)
  a.trans (Core.wrote_cancel a.now r m)

theorem Core.wrote_writeG {c : Core} {l : Nat} {g : Group} (h : get? c.groups l = some g) (n : Nat) (m : Mask) (x : Word64) :
    c.Wrote (c.writeG l n m x) l g { g with g := put g.g n x } :=
  have a := Core.wrote_modGroup h (f := fun g => { g with g := put g.g n x }) rfl
  a.trans (Core.wrote_cancelG a.now n m)

/-! ### Destinations -/

/-- What `Core.writeDst` does (R79, R269, R272). -/
theorem Core.writeDst_effect {c : Core} {l : Nat} {g : Group} (h : get? c.groups l = some g) (m : Mask) (wide signed : Bool) (d : Spec)
    (f : Nat → Word64) :
    ∃ k, c.Wrote (c.writeDst l m wide signed d f) l g k ∧
      (∀ n, ∀ i < 64, k.mainAt n i = mainAfter g m wide d f n i) ∧
      (∀ n, ∀ i < 64, rowAt (rowOf k.q n) i = qAfter g m d f n i) ∧
      (∀ n, ∀ i < 64, rowAt (rowOf k.l n) i = rowAt (rowOf g.l n) i) ∧
      (∀ n, k.greg n = gAfter g m wide signed d f n) := by
  unfold Core.writeDst
  by_cases hm : m = 0
  · rw [if_pos hm]
    refine ⟨g, .refl h, ?_, ?_, fun _ _ _ => rfl, ?_⟩
    · intro n i _
      cases d <;> simp [mainAfter, hm, has_zero]
    · intro n i _
      cases d <;> simp [qAfter, hm, has_zero]
    · intro n
      cases d <;> simp [gAfter, hm]
  · rw [if_neg hm]
    cases d with
    | main k =>
      have a := Core.wrote_writeReg h (.v k.val) m fun i => lo32 (f i)
      cases wide with
      | false =>
        refine ⟨_, a, ?_, ?_, ?_, fun _ => rfl⟩
        · intro n i hi
          rw [setReg_main _ _ _ _ _ hi]
          by_cases e : n = k.val
          · subst e; cases hb : has m i <;> simp [mainAfter, hb]
          · simp [mainAfter, e, Ne.symm e]
        · intro n i hi
          rw [setReg_q _ _ _ _ _ hi]; simp [qAfter]
        · intro n i hi
          rw [setReg_l _ _ _ _ _ hi]; simp
      | true =>
        have b := a.trans (Core.wrote_writeReg a.now (.v (k.val + 1)) m fun i => hi32 (f i))
        refine ⟨_, b, ?_, ?_, ?_, fun _ => rfl⟩
        · intro n i hi
          rw [setReg_main _ _ _ _ _ hi, setReg_main _ _ _ _ _ hi]
          cases hb : has m i
          · simp [mainAfter, hb]
          · by_cases e : n = k.val
            · subst e; simp [mainAfter, hb]
            · by_cases e' : n = k.val + 1
              · subst e'; simp [mainAfter, hb]
              · simp [mainAfter, e, e', Ne.symm e, Ne.symm e']
        · intro n i hi
          rw [setReg_q _ _ _ _ _ hi, setReg_q _ _ _ _ _ hi]; simp [qAfter]
        · intro n i hi
          rw [setReg_l _ _ _ _ _ hi, setReg_l _ _ _ _ _ hi]; simp
    | q k =>
      refine ⟨_, Core.wrote_writeReg h (.q k.val) m fun i => lo32 (f i), ?_, ?_, ?_, fun _ => rfl⟩
      · intro n i hi
        rw [setReg_main _ _ _ _ _ hi]; simp [mainAfter]
      · intro n i hi
        rw [setReg_q _ _ _ _ _ hi]
        by_cases e : n = k.val
        · subst e; cases hb : has m i <;> simp [qAfter, hb]
        · simp [qAfter, e, Ne.symm e]
      · intro n i hi
        rw [setReg_l _ _ _ _ _ hi]; simp
    | g k =>
      refine ⟨_, Core.wrote_writeG h k.val m _, ?_, ?_, fun _ _ _ => rfl, ?_⟩
      · intro n i _; rfl
      · intro n i _; rfl
      · intro n
        simp only [Group.greg, get?_put, gAfter]
        by_cases e : n = k.val
        · have hm' : ¬ m = 0#64 := hm
          simp [e, hm']
        · simp [e]
    | l k => exact ⟨g, .refl h, fun _ _ _ => rfl, fun _ _ _ => rfl, fun _ _ _ => rfl, fun _ => rfl⟩
    | zero => exact ⟨g, .refl h, fun _ _ _ => rfl, fun _ _ _ => rfl, fun _ _ _ => rfl, fun _ => rfl⟩
    | lane => exact ⟨g, .refl h, fun _ _ _ => rfl, fun _ _ _ => rfl, fun _ _ _ => rfl, fun _ => rfl⟩
    | k n => exact ⟨g, .refl h, fun _ _ _ => rfl, fun _ _ _ => rfl, fun _ _ _ => rfl, fun _ => rfl⟩
    | imm x => exact ⟨g, .refl h, fun _ _ _ => rfl, fun _ _ _ => rfl, fun _ _ _ => rfl, fun _ => rfl⟩

/-- What `Core.shiftL` does (R80). -/
theorem Core.shiftL_effect {c : Core} {l : Nat} {g : Group} (h : get? c.groups l = some g) (m : Mask) :
    c.Wrote (c.shiftL l m) l g (g.setReg (.l 1) m fun i => rowAt (rowOf g.l 0) i) := by
  unfold Core.shiftL
  rw [h]
  exact Core.wrote_writeReg h _ _ _

/-- A destination written by an instruction that leaves `l0` and `l1` alone. -/
theorem Core.writeDst_regs {c : Core} {l : Nat} {g : Group} (h : get? c.groups l = some g) (m : Mask) (wide signed : Bool) (d : Spec)
    (f : Nat → Word64) : ∃ k, c.Wrote (c.writeDst l m wide signed d f) l g k ∧ RegsAfter g k m false wide signed d f := by
  obtain ⟨k, hw, hv, hq, hl, hg⟩ := Core.writeDst_effect h m wide signed d f
  refine ⟨k, hw, hv, hq, ?_, hg, ?_⟩
  · intro n i hi
    rw [hl n i hi]
    simp [lAfter]
  · have := hw.group
    unfold Group.sameButRegs at this
    rw [this]

/-- What `Core.writeAlu` does (R79, R80). -/
theorem Core.writeAlu_effect {c : Core} {l : Nat} {g : Group} (h : get? c.groups l = some g) (m : Mask) (wide signed : Bool) (d : Spec)
    (f : Nat → Word64) : ∃ k, c.Wrote (c.writeAlu l m wide signed d f) l g k ∧ RegsAfter g k m true wide signed d f := by
  obtain ⟨k, hw, hv, hq, hl, hg⟩ := Core.writeDst_effect h m wide signed d f
  have hk : k.k = g.k := by
    have := hw.group
    unfold Group.sameButRegs at this
    rw [this]
  unfold Core.writeAlu
  simp only
  by_cases hp : perThread d = true
  · rw [if_pos hp]
    have a := hw.trans (Core.shiftL_effect hw.now m)
    have b := a.trans (Core.wrote_writeReg a.now (.l 0) m fun i => lo32 (f i))
    refine ⟨_, b, ?_, ?_, ?_, hg, hk⟩
    · intro n i hi
      rw [setReg_main _ _ _ _ _ hi, setReg_main _ _ _ _ _ hi]
      simpa using hv n i hi
    · intro n i hi
      rw [setReg_q _ _ _ _ _ hi, setReg_q _ _ _ _ _ hi]
      simpa using hq n i hi
    · intro n i hi
      rw [setReg_l _ _ _ _ _ hi, setReg_l _ _ _ _ _ hi]
      unfold lAfter
      rw [hp]
      cases hb : has m i
      · simpa using hl n i hi
      · by_cases e : n = 0
        · subst e; simp
        · by_cases e' : n = 1
          · subst e'; simpa using hl 0 i hi
          · simpa [e, e', Ne.symm e, Ne.symm e'] using hl n i hi
  · rw [if_neg hp]
    refine ⟨k, hw, hv, hq, ?_, hg, hk⟩
    intro n i hi
    rw [hl n i hi]
    simp [lAfter, hp]

end Sys2Proof.Machine
end

