-- ==== Sys2Proof/Laws/Issue.lean ====
section
/-! SUPPORT. Issue: what `issueWith` answers, and everything that an instruction which completes at issue does. -/

namespace Sys2Proof.Machine

/-- An instruction whose effect lets the gang move on. -/
theorem issueWith_next {s : State} {i : Instr} {g : Group} (h : Issuing s i g) {x : Guard} {k : Gang → State → State × Bool} {u : State}
    (hk : k (gangOf s g x i.cls) s = (u, true)) : issueWith s i x k = .next ((gangOf s g x i.cls).advance u) := by
  obtain ⟨hg, hwf, hq⟩ := h
  unfold gangOf at hk
  simp only [issueWith, hg, hwf, hq, Bool.true_and, decide_true, if_true, hk, gangOf]

/-- An instruction whose effect leaves the gang where it put it. -/
theorem issueWith_stay {s : State} {i : Instr} {g : Group} (h : Issuing s i g) {x : Guard} {k : Gang → State → State × Bool} {u : State}
    (hk : k (gangOf s g x i.cls) s = (u, false)) : issueWith s i x k = .next u := by
  obtain ⟨hg, hwf, hq⟩ := h
  unfold gangOf at hk
  simp only [issueWith, hg, hwf, hq, Bool.true_and, decide_true, if_true, hk]

/-- An encoding fault: the illegal-instruction trap and no effect (R79, R93), unless every thread's guard is false (R81). -/
theorem issueWith_illegal {s : State} {i : Instr} {g : Group} (hg : s.group? s.cur.core s.cur.slot = some g)
    (h : i.wf = false ∨ g.quota < i.mainSpan) (x : Guard) (k : Gang → State → State × Bool) :
    issueWith s i x k = .next (if mOf s g x = 0 then (gangOf s g x i.cls).advance s else (gangOf s g x i.cls).trap s 0x01 0 [s.cur.word]) := by
  have hc : ¬(i.wf && decide (i.mainSpan ≤ g.quota)) = true := by
    rcases h with h | h
    · simp [h]
    · simp [show ¬ i.mainSpan ≤ g.quota by omega]
  simp only [issueWith, hg]
  rw [if_neg hc]
  by_cases hm : mOf s g x = 0
  · rw [if_pos hm, if_pos (show (s.gang g x i.cls).m = 0 from hm)]; rfl
  · rw [if_neg hm, if_neg (show ¬ (s.gang g x i.cls).m = 0 from hm)]; rfl

/-! ### The issue slots of a clock (R152) -/

theorem get?_map (l : SMap Group) (f : Group → Group) (n : Nat) : get? (l.map fun p => (p.1, f p.2)) n = (get? l n).map f := by
  induction l with
  | nil => rfl
  | cons p t ih =>
    simp only [get?, List.map_cons] at *
    by_cases h : p.1 = n
    · simp [h]
    · simp only [h, if_false]; exact ih

/-- A group after an issue slot of its core's clock has been taken. -/
def Core.afterPort (c : Core) (g : Group) : Group := if c.turn.order.isSome then g else { g with yielded := false }

theorem Core.takePort_group (c : Core) (slot cls : Nat) (act : Mask) (n : Nat) :
    get? (c.takePort slot cls act).groups n = (get? c.groups n).map c.afterPort := by
  unfold Core.takePort Core.afterPort
  cases h : c.turn.order.isSome
  · simp only [Bool.false_eq_true, if_false]
    exact get?_map c.groups (fun g => { g with yielded := false }) n
  · simp

theorem Core.sameRest_takePort (c : Core) (slot cls : Nat) (act : Mask) : c.sameRest (c.takePort slot cls act) := by
  unfold Core.sameRest Core.takePort
  cases h : c.turn.order.isSome <;> simp

theorem Core.takePort_ops (c : Core) (slot cls : Nat) (act : Mask) : (c.takePort slot cls act).ops = c.ops := by
  unfold Core.takePort
  cases h : c.turn.order.isSome <;> simp

theorem still_afterPort (c : Core) (g : Group) : still (c.afterPort g) = still g := by
  unfold Core.afterPort; split <;> rfl

/-! ### Moving on -/

/-- The core of a gang that has issued and moved on. -/
def Gang.movedCore (x : Gang) (c : Core) : Core :=
  ((c.takePort x.slot x.cls x.act).modGroup x.slot fun g => g.countIssue x.act).modGroup x.slot fun g => g.advance x.act

theorem advance_eq (x : Gang) (s : State) : x.advance s = s.modCore x.core x.movedCore := by
  unfold Gang.advance Gang.issued State.modGroup State.modCore State.setCore State.core Gang.movedCore
  simp [put_put]

/-- What moving on does to its core. -/
theorem movedCore_effect {x : Gang} {c : Core} {g : Group} (hg : get? c.groups x.slot = some g) :
    get? (x.movedCore c).groups x.slot = some ((c.afterPort g).moved x.act) ∧
      (∀ l, l ≠ x.slot → (get? (x.movedCore c).groups l).map still = (get? c.groups l).map still) ∧ c.sameRest (x.movedCore c) ∧
      (x.movedCore c).ops = c.ops := by
  have h1 : get? (c.takePort x.slot x.cls x.act).groups x.slot = some (c.afterPort g) := by rw [Core.takePort_group, hg]; rfl
  have h2 := Core.get?_modGroup h1 fun g => g.countIssue x.act
  refine ⟨Core.get?_modGroup h2 _, ?_, ?_, ?_⟩
  · intro l hl
    unfold Gang.movedCore
    rw [Core.get?_modGroup_ne _ _ hl, Core.get?_modGroup_ne _ _ hl, Core.takePort_group]
    cases get? c.groups l with
    | none => rfl
    | some h => exact congrArg some (still_afterPort c h)
  · exact ((Core.sameRest_takePort c x.slot x.cls x.act).trans (Core.sameRest_modGroup _ _ _)).trans (Core.sameRest_modGroup _ _ _)
  · unfold Gang.movedCore
    rw [Core.modGroup_ops, Core.modGroup_ops, Core.takePort_ops]

/-- A gang that moves on after its core has become `d`, by changes that OnlyGroup allows. -/
theorem onlyGroup_moved {s u : State} {x : Gang} {k : Group} {more : List Op}
    (hu : u = { s with cores := put s.cores x.core (u.core x.core), fresh := u.fresh })
    (hk : get? (u.core x.core).groups x.slot = some k)
    (hothers : ∀ l, l ≠ x.slot → (get? (u.core x.core).groups l).map still = (get? (s.core x.core).groups l).map still)
    (hrest : (s.core x.core).sameRest (u.core x.core))
    (hops : (u.core x.core).ops.map withoutWrites = (s.core x.core).ops.map withoutWrites ++ more.map withoutWrites) :
    (x.advance u).group? x.core x.slot = some (((u.core x.core).afterPort k).moved x.act) ∧
      OnlyGroup s (x.advance u) x.core x.slot more := by
  have hcore : (x.advance u).core x.core = x.movedCore (u.core x.core) := by rw [advance_eq, core_modCore]
  have hm := movedCore_effect (x := x) hk
  refine ⟨?_, ⟨⟨?_, ?_, fun a => ?_⟩, ?_, ?_, ?_⟩⟩
  · unfold State.group?
    rw [hcore]
    exact hm.1
  · rw [advance_eq]
    unfold State.modCore State.setCore
    rw [hu]
  · intro c hc
    rw [advance_eq, core_modCore_ne _ _ hc]
    unfold State.core
    rw [hu]
    exact congrArg (·.getD Core.init) (get?_put_ne _ _ hc)
  · rw [advance_eq, stored_modCore, hu]
    rfl
  · rw [hcore]
    exact hrest.trans hm.2.2.1
  · intro l hl
    unfold State.still? State.group?
    rw [hcore, hm.2.1 l hl]
    exact hothers l hl
  · rw [hcore, hm.2.2.2]
    exact hops

theorem sameThread_afterPort (c : Core) (g : Group) (i : Nat) : (c.afterPort g).thread i = g.thread i := by
  unfold Core.afterPort; split <;> rfl

/-- A gang that moves on after `f` has written registers of its group. -/
theorem onlyGroup_advance {s : State} {x : Gang} {g k : Group} {f : Core → Core} (hg : s.group? x.core x.slot = some g)
    (hw : (s.core x.core).Wrote (f (s.core x.core)) x.slot g k) :
    (x.advance (s.modCore x.core f)).group? x.core x.slot = some (((f (s.core x.core)).afterPort k).moved x.act) ∧
      OnlyGroup s (x.advance (s.modCore x.core f)) x.core x.slot [] := by
  have e : (s.modCore x.core f).core x.core = f (s.core x.core) := core_modCore _ _ _
  have h := onlyGroup_moved (s := s) (u := s.modCore x.core f) (x := x) (k := k) (more := []) (by rw [e]; rfl) (by rw [e]; exact hw.now)
    (fun l hl => by rw [e, hw.others l hl]) (by rw [e]; exact hw.rest) (by rw [e]; simp [hw.ops])
  rwa [e] at h

/-- A register write of the issuing gang, which then moves on. -/
theorem wroteOnly_advance {s : State} {g k : Group} {x : Gang} {f : Core → Core} {alu wide signed : Bool} {d : Spec} {v : Nat → Word64}
    (hx : x.core = s.cur.core ∧ x.slot = s.cur.slot ∧ x.act = s.cur.mask)
    (hg : s.group? s.cur.core s.cur.slot = some g) (hw : (s.core s.cur.core).Wrote (f (s.core s.cur.core)) s.cur.slot g k)
    (hr : RegsAfter g k x.m alu wide signed d v) : WroteOnly s (x.advance (s.modCore s.cur.core f)) g x.m alu wide signed d v := by
  obtain ⟨h1, h2, h3⟩ := hx
  rw [← h1, ← h2] at hg hw
  have ha := onlyGroup_advance (x := x) (f := f) hg hw
  rw [h1, h2, h3] at ha
  rw [← h1] at ha ⊢
  have e := hw.group
  unfold Group.sameButRegs at e
  have ep : ∀ b, ((f (s.core x.core)).afterPort k) = { k with yielded := b } ∨ ((f (s.core x.core)).afterPort k) = k ∨
      ((f (s.core x.core)).afterPort k) = { k with yielded := false } := fun b => by
    unfold Core.afterPort; split
    · exact .inr (.inl rfl)
    · exact .inr (.inr rfl)
  have e0 : ((f (s.core x.core)).afterPort k) = { k with yielded := ((f (s.core x.core)).afterPort k).yielded } := by
    rcases ep false with h | h | h <;> rw [h]
  have e' := moved_same ((f (s.core x.core)).afterPort k) s.cur.mask
  have eg : ((f (s.core x.core)).afterPort k).threads = g.threads ∧ ((f (s.core x.core)).afterPort k).entries = g.entries ∧
      ((f (s.core x.core)).afterPort k).flags = g.flags := by rw [e0, e]; exact ⟨rfl, rfl, rfl⟩
  refine ⟨_, by rw [← h1]; exact ha.1, ?_, ?_, ?_, ?_, by rw [← h1]; exact ha.2⟩
  · rw [e', e0]
    exact ⟨hr.main, hr.q, hr.l, hr.uniform, hr.masks⟩
  · refine movedOn_moved s.cur.mask (fun i _ => ?_) (fun i _ _ => by rw [entryOf_congr eg.2.1])
    have : ((f (s.core x.core)).afterPort k).thread i = g.thread i := by unfold Group.thread; rw [eg.1]
    unfold SameThread
    rw [this]
  · exact flagsStand_moved s.cur.mask eg.1 eg.2.1 eg.2.2
  · unfold SameGroup
    rw [e', e0, e]

/-- Everything that an ALU-class instruction which completes at issue does; `f` may look at M. -/
theorem issue_writeAlu {s : State} {i : Instr} {g : Group} (h : Issuing s i g) (x : Guard) (d : Spec) (wide signed : Bool)
    (f : Gang → Nat → Word64) :
    ∃ t, issue s i x (fun y s => s.modCore y.core fun c => c.writeAlu y.slot y.m wide signed d (f y)) = .next t ∧
      WroteOnly s t g (mOf s g x) true wide signed d (f (gangOf s g x i.cls)) := by
  obtain ⟨k, hw, hr⟩ := Core.writeAlu_effect (c := s.core s.cur.core) h.1 (mOf s g x) wide signed d (f (gangOf s g x i.cls))
  exact ⟨_, issueWith_next h rfl, wroteOnly_advance (x := gangOf s g x i.cls) ⟨rfl, rfl, rfl⟩ h.1 hw hr⟩

/-- Everything that an instruction which writes a destination at issue and leaves `l0` and `l1` alone does. -/
theorem issue_writeDst {s : State} {i : Instr} {g : Group} (h : Issuing s i g) (x : Guard) (d : Spec) (wide signed : Bool)
    (f : Gang → Nat → Word64) :
    ∃ t, issue s i x (fun y s => s.modCore y.core fun c => c.writeDst y.slot y.m wide signed d (f y)) = .next t ∧
      WroteOnly s t g (mOf s g x) false wide signed d (f (gangOf s g x i.cls)) := by
  obtain ⟨k, hw, hr⟩ := Core.writeDst_regs (c := s.core s.cur.core) h.1 (mOf s g x) wide signed d (f (gangOf s g x i.cls))
  exact ⟨_, issueWith_next h rfl, wroteOnly_advance (x := gangOf s g x i.cls) ⟨rfl, rfl, rfl⟩ h.1 hw hr⟩

/-- Everything that an ALU-class instruction which completes at issue does. -/
theorem issueAlu_effect {s : State} {i : Instr} {g : Group} (h : Issuing s i g) (x : Guard) (d : Spec) (wide signed : Bool)
    (f : Group → Nat → Word64) :
    ∃ t, issueAlu s i x d wide signed f = .next t ∧ WroteOnly s t g (mOf s g x) true wide signed d (f g.shown) :=
  issue_writeAlu h x d wide signed fun y => f y.grp

/-- A row that is an ALU-class instruction completing at issue. -/
theorem aluDone_of {i : Instr} {x : Guard} {d : Spec} {wide signed : Bool} {f f' : Group → Nat → Word64}
    (he : ∀ s, exec i s = issueAlu s i x d wide signed f') (hf : ∀ g j, f g j = f' g j) : AluDone i x d wide signed f := by
  intro s g h
  rw [he, show f = f' from funext fun g => funext fun j => hf g j]
  exact issueAlu_effect h x d wide signed f'

end Sys2Proof.Machine
end

