-- ==== Sys2Proof/Laws/InFlight.lean ====
section
/-! SUPPORT. Operations put in flight (R69, R153): what `Gang.start` and `State.consume` do to a core, and what an instruction that only puts
an operation in flight does. -/

namespace Sys2Proof.Machine

/-- Only clause entries, completion flags, threads and what the next turn reads differ. -/
def Group.sameRest (g h : Group) : Prop := h = { g with entries := h.entries, flags := h.flags, yielded := h.yielded, threads := h.threads }

theorem Group.sameRest.trans {a b c : Group} (h : a.sameRest b) (k : b.sameRest c) : a.sameRest c := by
  unfold Group.sameRest at *
  rw [k, h]

/-- A group whose registers and threads stand: only clause entries, completion flags and what its next turn reads differ. -/
structure Group.sameButEntries (g h : Group) : Prop where
  rest : g.sameRest h
  threads : ∀ i < 64, SameThread g h i

/-- A group with no thread that has found that it must wait. -/
def Group.unblocked (g : Group) : Group := { g with threads := g.threads.map fun (t : Thread) => { t with blocked := false } }

theorem unblocked_thread (g : Group) (i : Nat) : g.unblocked.thread i = { g.thread i with blocked := false } := by
  unfold Group.unblocked Group.thread
  simp only [List.getD_eq_getElem?_getD, List.getElem?_map]
  cases g.threads[i]? <;> rfl

theorem still_unblocked (g : Group) : still g.unblocked = still g := by
  unfold still Group.unblocked
  simp

theorem Core.unblock_group (c : Core) (n : Nat) : get? c.unblock.groups n = (get? c.groups n).map Group.unblocked :=
  get?_map c.groups Group.unblocked n

/-- The operation that an instruction puts in flight, as it stands once its operands are consumed at issue. -/
def startedOp (o : Op) (d : Spec) (words : Nat) (signed : Bool) : Op :=
  { o with writes := o.writes ++ pendingOf d o.lanes words, words := words, consumed := true,
           gdst := match d with
             | .g n => some (n.val, signed)
             | _ => none }

/-- From `c` to `d` operation `o` has been put in flight by group `l`. -/
structure Core.Started (c d : Core) (l : Nat) (g h : Group) (o : Op) : Prop where
  now : get? d.groups l = some h
  others : ∀ k, k ≠ l → (get? d.groups k).map still = (get? c.groups k).map still
  rest : c.sameRest d
  ops : d.ops.map withoutWrites = c.ops.map withoutWrites ++ [withoutWrites o]
  flying : o ∈ d.ops
  group : g.sameButEntries h
  entry : ∀ e ∈ o.entries, (h.entryOf e).map (·.words) = (g.entryOf e).map (·.words)

theorem Core.wrote_cancelDst {c : Core} {l : Nat} {g : Group} (h : get? c.groups l = some g) (d : Spec) (m : Mask) (words : Nat) :
    c.Wrote (c.cancelDst l d m words) l g g := by
  cases d with
  | main n =>
    have key : ∀ (js : List Nat) (c : Core), get? c.groups l = some g →
        c.Wrote (js.foldl (fun c j => c.cancel l (.v (n.val + j)) m) c) l g g := by
      intro js
      induction js with
      | nil => exact fun c hc => .refl hc
      | cons j t ih =>
        intro c hc
        have a := Core.wrote_cancel hc (.v (n.val + j)) m
        exact a.trans (ih _ a.now)
    exact key _ c h
  | q n => exact Core.wrote_cancel h _ _
  | g n => exact Core.wrote_cancelG h _ _
  | l n => exact .refl h
  | zero => exact .refl h
  | lane => exact .refl h
  | k n => exact .refl h
  | imm x => exact .refl h

theorem ids_of_withoutWrites {l m : List Op} (h : l.map withoutWrites = m.map withoutWrites) {n : Nat} (hm : ∀ o ∈ m, o.id ≠ n) :
    ∀ o ∈ l, o.id ≠ n := by
  intro o ho
  have : withoutWrites o ∈ m.map withoutWrites := h ▸ List.mem_map_of_mem ho
  obtain ⟨p, hp, e⟩ := List.mem_map.1 this
  have : p.id = o.id := by
    have := congrArg Op.id e
    simpa [withoutWrites] using this
  rw [← this]
  exact hm p hp

theorem find_new {l : List Op} {o : Op} (h : ∀ p ∈ l, p.id ≠ o.id) : (l ++ [o]).find? (fun p => p.id == o.id) = some o := by
  rw [List.find?_append, List.find?_eq_none.2 fun p hp => by simp [h p hp]]
  simp

theorem map_new {l : List Op} {o : Op} (h : ∀ p ∈ l, p.id ≠ o.id) (f : Op → Op) :
    (l ++ [o]).map (fun p => if p.id == o.id then f p else p) = l ++ [f o] := by
  rw [List.map_append]
  have : l.map (fun p => if p.id == o.id then f p else p) = l := by
    conv => rhs; rw [← List.map_id l]
    refine List.map_congr_left fun p hp => ?_
    simp [h p hp]
  rw [this]
  simp

theorem entryOf_modEntry (g : Group) (id : Nat) (f : Entry → Entry) (hf : ∀ e, (f e).id = e.id ∧ (f e).words = e.words) (j : Nat) :
    ((g.modEntry id f).entryOf j).map (·.words) = (g.entryOf j).map (·.words) := by
  unfold Group.modEntry Group.entryOf
  simp only
  induction g.entries with
  | nil => rfl
  | cons e t ih =>
    have e1 : (if e.id == id then f e else e).id = e.id := by split <;> simp [hf]
    have e2 : (if e.id == id then f e else e).words = e.words := by split <;> simp [hf]
    rw [List.map_cons, List.find?_cons, List.find?_cons, e1]
    cases e.id == j
    · exact ih
    · exact congrArg some e2

theorem entryOf_modEntries (g : Group) (ids : List Nat) (f : Entry → Entry) (hf : ∀ e, (f e).id = e.id ∧ (f e).words = e.words) (j : Nat) :
    ((g.modEntries ids f).entryOf j).map (·.words) = (g.entryOf j).map (·.words) := by
  unfold Group.modEntries
  induction ids generalizing g with
  | nil => rfl
  | cons i t ih => rw [List.foldl_cons, ih, entryOf_modEntry _ _ _ hf]

theorem modEntries_same (g : Group) (ids : List Nat) (f : Entry → Entry) :
    g.modEntries ids f = { g with entries := (g.modEntries ids f).entries } := by
  unfold Group.modEntries
  induction ids generalizing g with
  | nil => rfl
  | cons i t ih => rw [List.foldl_cons, ih]; rfl

theorem sameRest_settle (g : Group) : g.sameRest g.settle := by
  unfold Group.sameRest
  have h : g.settle.threads = g.threads := by rw [settle_same]
  rw [h]
  exact settle_same g

theorem sameRest_modEntries (g : Group) (ids : List Nat) (f : Entry → Entry) : g.sameRest (g.modEntries ids f) := by
  unfold Group.sameRest
  have h := modEntries_same g ids f
  have h1 : (g.modEntries ids f).threads = g.threads := by rw [h]
  have h2 : (g.modEntries ids f).flags = g.flags := by rw [h]
  have h3 : (g.modEntries ids f).yielded = g.yielded := by rw [h]
  rw [h1, h2, h3]
  exact h

/-- Every entry of `ids` is marked by a change that keeps entries' identities. -/
theorem marked_modEntries (g : Group) (ids : List Nat) (f : Entry → Entry) (P : Entry → Prop) (hid : ∀ e, (f e).id = e.id)
    (hP : ∀ e, P (f e)) (hkeep : ∀ e, P e → P (f e)) : ∀ j ∈ ids, ∀ e ∈ (g.modEntries ids f).entries, e.id = j → P e := by
  have keep : ∀ (ids : List Nat) (g : Group) (j : Nat), (∀ e ∈ g.entries, e.id = j → P e) →
      ∀ e ∈ (g.modEntries ids f).entries, e.id = j → P e := by
    intro ids
    induction ids with
    | nil => exact fun g j h => h
    | cons i t ih =>
      intro g j h
      refine ih (g.modEntry i f) j fun e he hj => ?_
      obtain ⟨b, hb, rfl⟩ := List.mem_map.1 he
      by_cases hi : (b.id == i) = true
      · rw [if_pos hi]; exact hP b
      · rw [if_neg hi] at hj ⊢; exact h b hb hj
  induction ids generalizing g with
  | nil => intro j hj; cases hj
  | cons i t ih =>
    intro j hj
    rcases List.mem_cons.1 hj with rfl | hj
    · refine keep t (g.modEntry j f) j fun e he hj => ?_
      obtain ⟨b, hb, rfl⟩ := List.mem_map.1 he
      by_cases hi : (b.id == j) = true
      · rw [if_pos hi]; exact hP b
      · rw [if_neg hi] at hj; simp [hj] at hi
    · exact ih (g.modEntry i f) j hj

/-- Everything that putting an operation in flight, with its operands consumed at issue, does to a core. -/
theorem start_consume {u : State} {x : Gang} {g : Group} (hg : get? (u.core x.core).groups x.slot = some g) {o : Op} (hs : o.slot = x.slot)
    (hc : o.consumed = false) (ho : ∀ p ∈ (u.core x.core).ops, p.id ≠ o.id) (hl : ∀ l ∈ (u.core x.core).locks, l.op ≠ o.id) (d : Spec)
    (words : Nat) (signed : Bool) :
    ∃ c h, (x.start u o d words signed).consume x.core o.id = (u.modCore x.core fun _ => c) ∧
      (u.core x.core).Started c x.slot g h (startedOp o d words signed) := by
  let c1 := (u.core x.core).cancelDst x.slot d o.lanes words
  have hw : (u.core x.core).Wrote c1 x.slot g g := Core.wrote_cancelDst hg d o.lanes words
  let o1 : Op := { o with writes := o.writes ++ pendingOf d o.lanes words, words := words,
                          gdst := match d with
                            | .g n => some (n.val, signed)
                            | _ => none }
  let up : Entry → Entry := fun e => { e with unconsumed := e.unconsumed + 1, unfinished := e.unfinished + 1 }
  let dn : Entry → Entry := fun e => { e with unconsumed := e.unconsumed - 1 }
  let g1 := g.modEntries o.entries up
  let c2 := c1.beginOp o1
  have hids : ∀ p ∈ c1.ops, p.id ≠ o1.id := ids_of_withoutWrites hw.ops ho
  have hlock : c1.locks = (u.core x.core).locks := by rw [hw.rest]
  have hc2 : c2 = { c1 with groups := put c1.groups x.slot g1, ops := c1.ops ++ [o1] } := by
    show ({ c1.modGroup o1.slot fun g => g.modEntries o1.entries up with ops := (c1.modGroup o1.slot _).ops ++ [o1] } : Core) = _
    rw [show o1.slot = x.slot from hs, Core.modGroup_groups hw.now]
  let g2 := (g1.unblocked.modEntries o.entries dn).settle
  have hso : ({ startedOp o d words signed with slot := x.slot } : Op) = startedOp o d words signed := by rw [← hs]; rfl
  let c3 : Core := ({ c1 with groups := put c1.groups x.slot g1, ops := c1.ops ++ [{ startedOp o d words signed with slot := x.slot }] } : Core).unblock
  have hc3 : c2.consumeOp o1.id = c3.modGroup x.slot fun g => (g.modEntries o.entries dn).settle := by
    rw [hc2]
    unfold Core.consumeOp Core.op? Core.modOp
    simp only
    rw [find_new hids]
    simp only
    rw [if_neg (by rw [show o1.consumed = o.consumed from rfl, hc]; decide), map_new hids]
    have hf : (c1.locks.filter fun l => !(l.op == o1.id && !l.write)) = c1.locks := by
      rw [List.filter_eq_self]
      intro l h
      rw [hlock] at h
      have : l.op ≠ o1.id := hl l h
      simp [this]
    rw [hf, show o1.slot = x.slot from hs]
    rfl
  have hnow3 : get? c3.groups x.slot = some g1.unblocked := by
    rw [show c3.groups = _ from rfl]
    rw [Core.unblock_group]
    simp
  have hc4 : c2.consumeOp o1.id = { c3 with groups := put c3.groups x.slot g2 } := by rw [hc3, Core.modGroup_groups hnow3]
  refine ⟨c2.consumeOp o1.id, g2, ?_, ?_⟩
  · show ((u.modCore x.core fun c => (c.cancelDst x.slot d o.lanes words).beginOp o1).modCore x.core fun c => c.consumeOp o.id) = _
    simp only [State.modCore, State.setCore, State.core, get?_put_self, Option.getD_some]
    congr 1
    rw [put_put]
    rfl
  · rw [hc4]
    have hsame : g.sameRest g2 := by
      have e1 : (g1.unblocked.modEntries o.entries dn).sameRest g2 := sameRest_settle _
      have e2 : g1.unblocked.sameRest (g1.unblocked.modEntries o.entries dn) := sameRest_modEntries _ _ _
      have e3 : g.sameRest g1 := sameRest_modEntries _ _ _
      have e4 : g1.sameRest g1.unblocked := rfl
      exact ((e3.trans e4).trans e2).trans e1
    have hth : ∀ i, g2.thread i = { g.thread i with blocked := false } := by
      intro i
      show ((g1.unblocked.modEntries o.entries dn).settle).thread i = _
      rw [settle_thread, modEntries_same]
      show (g1.unblocked).thread i = _
      have : g1.thread i = g.thread i := by
        show (g.modEntries o.entries up).thread i = _
        rw [modEntries_same]; rfl
      rw [unblocked_thread, this]
    have hc3o : c3.ops = c1.ops ++ [startedOp o d words signed] := by
      show c1.ops ++ [_] = _
      rw [hso]
    refine ⟨by simp, ?_, ?_, ?_, by simp [hc3o], ⟨hsame, ?_⟩, ?_⟩
    · intro k hk
      simp only [get?_put_ne _ _ hk]
      rw [show get? c3.groups k = _ from Core.unblock_group _ k]
      simp only [get?_put_ne _ _ hk, hw.others k hk]
      cases get? (u.core x.core).groups k with
      | none => rfl
      | some h => exact congrArg some (still_unblocked h)
    · have := hw.rest
      unfold Core.sameRest at *
      simp only [c3, Core.unblock]
      rw [this]
    · simp [hc3o, hw.ops]
    · intro i _
      unfold SameThread
      rw [hth]
    · intro e he
      have he : e ∈ o.entries := he
      show (((g1.unblocked.modEntries o.entries dn).settle).entryOf e).map _ = _
      have hwords : ((g1.unblocked.modEntries o.entries dn).entryOf e).map (·.words) = (g.entryOf e).map (·.words) := by
        rw [entryOf_modEntries _ _ dn (fun e => ⟨rfl, rfl⟩)]
        show (g1.entryOf e).map _ = _
        exact entryOf_modEntries _ _ up (fun e => ⟨rfl, rfl⟩) _
      rw [settle_entryOf]
      · exact hwords
      · intro b hb hid
        have h1 : ∀ e' ∈ g1.entries, e'.id = e → e'.unfinished ≠ 0 := fun e' h' hi =>
          marked_modEntries g o.entries up (fun e => e.unfinished ≠ 0) (fun _ => rfl) (fun _ => Nat.succ_ne_zero _)
            (fun _ _ => Nat.succ_ne_zero _) e he e' h' hi
        have keep : ∀ (ids : List Nat) (h : Group), (∀ e' ∈ h.entries, e'.id = e → e'.unfinished ≠ 0) →
            ∀ e' ∈ (h.modEntries ids dn).entries, e'.id = e → e'.unfinished ≠ 0 := by
          intro ids
          induction ids with
          | nil => exact fun h hh => hh
          | cons i t ih =>
            intro h hh
            refine ih (h.modEntry i dn) fun e' he' hj => ?_
            obtain ⟨a, ha, rfl⟩ := List.mem_map.1 he'
            by_cases hi : (a.id == i) = true
            · rw [if_pos hi] at hj ⊢; exact hh a ha hj
            · rw [if_neg hi] at hj ⊢; exact hh a ha hj
        exact keep o.entries g1.unblocked h1 b hb hid

theorem entry_of_gang {s : State} {g : Group} {x : Guard} {cl : Option Cls} {i : Nat} (hm : has s.cur.mask i = true) :
    (g.thread i).entry ∈ (gangOf s g x cl).entries := by
  unfold Gang.entries
  rw [List.mem_eraseDups]
  exact List.mem_map.2 ⟨i, mem_lanesOf.2 hm, rfl⟩

/-- What an operation put in flight after `pre` has written registers leaves, once the gang has moved on. -/
theorem flies_after {s : State} {g g1 : Group} {x : Gang} (hx : x.core = s.cur.core ∧ x.slot = s.cur.slot ∧ x.act = s.cur.mask)
    (hf : FreshIds s) {pre : Core → Core}
    (hpre : (s.core s.cur.core).Wrote (pre (s.core s.cur.core)) s.cur.slot g g1) {o : Op} (hid : o.id = s.fresh) (hs : o.slot = s.cur.slot)
    (he : ∀ i, has s.cur.mask i = true → (g.thread i).entry ∈ o.entries) (hc : o.consumed = false) (d : Spec) (words : Nat) (signed : Bool) :
    let t := x.advance ((x.start (s.take.2.modCore s.cur.core pre) o d words signed).consume s.cur.core s.fresh)
    ∃ k, t.group? s.cur.core s.cur.slot = some k ∧ startedOp o d words signed ∈ (t.core s.cur.core).ops ∧
      SameRegs g1 k ∧ MovedOn g k s.cur.mask ∧ SameGroup g k ∧ OnlyGroup s t s.cur.core s.cur.slot [startedOp o d words signed] := by
  obtain ⟨h1, h2, h3⟩ := hx
  rw [← h1, ← h2] at hpre ⊢
  rw [← h2] at hs
  have hcp : (s.take.2.modCore x.core pre).core x.core = pre (s.core x.core) := by rw [core_modCore]; rfl
  have hlk : (pre (s.core x.core)).locks = (s.core x.core).locks := by rw [hpre.rest]
  obtain ⟨c, h, hu, hst⟩ := start_consume (u := s.take.2.modCore x.core pre) (x := x) (g := g1) (by
      rw [hcp]; exact hpre.now) (o := o) hs hc
    (fun p hp => by
      rw [hcp] at hp
      exact ids_of_withoutWrites hpre.ops (fun q hq => by have := (hf x.core).1 q hq; omega) p hp)
    (fun l hl => by
      rw [hcp, hlk] at hl
      have := (hf x.core).2.1 l hl
      omega) d words signed
  rw [hcp] at hst
  rw [hid] at hu
  intro t
  have ht : t = x.advance ((s.take.2.modCore x.core pre).modCore x.core fun _ => c) := congrArg x.advance hu
  have hcore : ((s.take.2.modCore x.core pre).modCore x.core fun _ => c).core x.core = c := core_modCore _ _ _
  have hm := onlyGroup_moved (s := s) (u := (s.take.2.modCore x.core pre).modCore x.core fun _ => c) (x := x) (k := h)
    (more := [startedOp o d words signed])
    (by rw [hcore]; unfold State.modCore State.setCore; rw [put_put]; rfl) (by rw [hcore]; exact hst.now)
    (fun l hl => by rw [hcore, hst.others l hl, hpre.others l hl]) (by rw [hcore]; exact hpre.rest.trans hst.rest)
    (by rw [hcore, hst.ops, hpre.ops]; rfl)
  rw [hcore, ← ht] at hm
  have hops : (t.core x.core).ops = c.ops := by
    rw [ht, advance_eq, core_modCore, hcore]
    exact (movedCore_effect (x := x) (c := c) hst.now).2.2.2
  have hg1 := hpre.group
  unfold Group.sameButRegs at hg1
  have hg2 := hst.group.rest
  unfold Group.sameRest at hg2
  have e0 : c.afterPort h = { h with yielded := (c.afterPort h).yielded } := by unfold Core.afterPort; split <;> rfl
  have e' := moved_same (c.afterPort h) s.cur.mask
  rw [h3] at hm
  have hth : ∀ i < 64, SameThread g (c.afterPort h) i := fun i hi => by
    have a := hst.group.threads i hi
    have b : g1.thread i = g.thread i := by rw [hg1]; rfl
    unfold SameThread at a ⊢
    rw [sameThread_afterPort, a, b]
  refine ⟨_, hm.1, by rw [hops]; exact hst.flying, ?_, ?_, ?_, hm.2⟩
  · rw [e', e0, hg2]
    exact ⟨rfl, rfl, rfl, rfl, rfl⟩
  · refine movedOn_moved s.cur.mask hth fun i hi hm => ?_
    have a := hst.entry _ (he i hm)
    have b : (c.afterPort h).entries = h.entries := by rw [e0]
    have d : g1.entries = g.entries := by rw [hg1]
    rw [entryOf_congr b, a, entryOf_congr d]
  · unfold SameGroup
    rw [e', e0, hg2, hg1]

/-- Everything that an instruction does whose whole effect, from a state `s` that is ready for it, is to put an operation in flight with its
operands consumed. -/
theorem flies_advance {s : State} {g : Group} {x : Guard} {cl : Option Cls} (hg : s.group? s.cur.core s.cur.slot = some g)
    (hf : FreshIds s) {o : Op} (hid : o.id = s.fresh) (hs : o.slot = s.cur.slot) (he : o.entries = (gangOf s g x cl).entries)
    (hc : o.consumed = false) (d : Spec) (words : Nat) (signed : Bool) :
    FliesOnly s ((gangOf s g x cl).advance (((gangOf s g x cl).start s.take.2 o d words signed).consume s.cur.core o.id)) g
      (startedOp o d words signed) := by
  obtain ⟨k, h1, h2, h3, h4, h5, h6⟩ := flies_after (x := gangOf s g x cl) ⟨rfl, rfl, rfl⟩ hf (pre := fun c => c) (Core.Wrote.refl hg) (o := o)
    hid hs (fun i hm => by rw [he]; exact entry_of_gang hm) hc d words signed
  have e : (gangOf s g x cl).start (s.take.2.modCore s.cur.core fun c => c) o d words signed = (gangOf s g x cl).start s.take.2 o d words signed := by
    unfold Gang.start State.modCore State.setCore State.core
    simp [put_put, gangOf, State.gang]
  rw [e, ← hid] at h1 h2 h6
  exact ⟨k, h1, h2, h3, h4, h5, h6⟩

theorem sameGroup_moved (g : Group) (b : Bool) (act : Mask) : SameGroup g (({ g with yielded := b } : Group).moved act) := by
  have e := moved_same { g with yielded := b } act
  unfold SameGroup
  generalize ({ g with yielded := b } : Group).moved act = h at e ⊢
  rw [e]

/-- A gang that only moves on. -/
theorem advance_only {s : State} {g : Group} (hg : s.group? s.cur.core s.cur.slot = some g) (x : Guard) (cl : Option Cls) :
    OnlyMovedOn s ((gangOf s g x cl).advance s) g := by
  have ha := onlyGroup_advance (s := s) (x := gangOf s g x cl) (g := g) (k := g) (f := fun c => c) hg (Core.Wrote.refl hg)
  have hadv : (gangOf s g x cl).advance (s.modCore (gangOf s g x cl).core fun c => c) = (gangOf s g x cl).advance s := by
    rw [advance_eq, advance_eq]
    unfold State.modCore State.setCore State.core
    simp [put_put]
  rw [hadv] at ha
  have e0 : (s.core (gangOf s g x cl).core).afterPort g = { g with yielded := ((s.core (gangOf s g x cl).core).afterPort g).yielded } := by
    unfold Core.afterPort; split <;> rfl
  have e' := moved_same ((s.core (gangOf s g x cl).core).afterPort g) s.cur.mask
  have hth : ∀ i < 64, SameThread g ((s.core (gangOf s g x cl).core).afterPort g) i := fun i _ => by
    unfold SameThread; rw [sameThread_afterPort]
  refine ⟨_, ha.1, ?_, movedOn_moved s.cur.mask hth fun i _ _ => ?_, flagsStand_moved s.cur.mask ?_ ?_ ?_, ?_, ha.2⟩
  · show SameRegs g (Group.moved _ s.cur.mask)
    rw [e', e0]
    exact ⟨rfl, rfl, rfl, rfl, rfl⟩
  · rw [entryOf_congr (show ((s.core (gangOf s g x cl).core).afterPort g).entries = g.entries by rw [e0])]
  · rw [e0]
  · rw [e0]
  · rw [e0]
  · unfold SameGroup
    obtain ⟨b, hb⟩ : ∃ b, (s.core (gangOf s g x cl).core).afterPort g = { g with yielded := b } := ⟨_, e0⟩
    rw [hb, show (gangOf s g x cl).act = s.cur.mask from rfl]
    exact sameGroup_moved g b s.cur.mask

/-- Everything that an instruction of SFU class does. -/
theorem issueSfu_effect {s : State} {i : Instr} {g : Group} (h : Issuing s i g) (hf : FreshIds s) (x : Guard) (d : Spec)
    (signed : Bool) (f : Group → Nat → Word64) :
    ∃ t k, issueSfu s i x d signed f = .next t ∧ t.group? s.cur.core s.cur.slot = some k ∧
      (∀ n, ∀ j < 64, k.mainAt n j = g.mainAt n j) ∧ k.q = g.q ∧ k.g = g.g ∧ k.k = g.k ∧
      (∀ n, ∀ j < 64, rowAt (rowOf k.l n) j =
        if n = 1 ∧ perThread d = true ∧ has (gangOf s g x).m j = true then rowAt (rowOf g.l 0) j else rowAt (rowOf g.l n) j) ∧
      MovedOn g k s.cur.mask ∧ SameGroup g k ∧
      if (gangOf s g x).m = 0 then OnlyGroup s t s.cur.core s.cur.slot []
      else ∃ o ∈ (t.core s.cur.core).ops, OnlyGroup s t s.cur.core s.cur.slot [o] ∧ OpOf (gangOf s g x) o ∧ o.id = s.fresh ∧
        o.kind = .simple ∧ o.consumed = true ∧ o.poison = none ∧ o.lanes = (gangOf s g x).m ∧ o.words = 1 ∧
        (∀ j < 64, o.res.getD j 0 = (f g.shown j).setWidth 128) ∧
        o.writes = (if perThread d then [{ reg := .l 0, lanes := o.lanes, word := 0 }] else []) ++ pendingOf d o.lanes 1 ∧
        o.gdst = match d with
          | .g n => some (n.val, signed)
          | _ => none := by
  have hres : ∀ j < 64, ((List.range 64).map fun j => (f g.shown j).setWidth 128 : List (BitVec 128)).getD j 0 = (f g.shown j).setWidth 128 := by
    intro j hj
    simp [List.getD_eq_getElem?_getD, hj]
  by_cases hm : mOf s g x = 0
  · obtain ⟨k, h1, h2, h3, h4, h5, h6⟩ := advance_only h.1 x i.cls
    refine ⟨(gangOf s g x i.cls).advance s, k, ?_, h1, fun n j _ => by simp only [Group.mainAt, h2.main], h2.q, h2.uniform, h2.masks, ?_, h3, h5, ?_⟩
    · unfold issueSfu issue
      exact issueWith_next h (by show ((if mOf s g x = 0 then s else _), true) = _; rw [if_pos hm])
    · intro n j _
      rw [h2.l, show (gangOf s g x).m = 0 from hm]
      simp [has_zero]
    · rw [if_pos (show (gangOf s g x).m = 0 from hm)]; exact h6
  · have hent : ∀ i' : Nat, has s.cur.mask i' = true → (g.thread i').entry ∈ (gangOf s g x i.cls).entries := fun _ h => entry_of_gang h
    cases hp : perThread d
    · let o : Op := { (gangOf s g x i.cls).op s.fresh .simple with res := (List.range 64).map fun j => (f g.shown j).setWidth 128 }
      obtain ⟨k, h1, h2, h3, h4, h5, h6⟩ := flies_after (x := gangOf s g x i.cls) ⟨rfl, rfl, rfl⟩ hf (pre := fun c => c) (Core.Wrote.refl h.1)
        (o := o) rfl rfl hent rfl d 1 signed
      refine ⟨_, k, ?_, h1, fun n j _ => by simp only [Group.mainAt, h3.main], h3.q, h3.uniform, h3.masks, fun n j _ => by rw [h3.l]; simp, h4, h5, ?_⟩
      · unfold issueSfu issue
        refine issueWith_next h ?_
        show ((if mOf s g x = 0 then s else _), true) = _
        rw [if_neg hm]
        simp only [hp, Bool.false_eq_true, if_false]
        refine congrArg (·, true) ?_
        unfold Gang.start State.consume State.modCore State.setCore State.core
        simp [put_put, gangOf, State.gang, State.take, o, Gang.op]
      · rw [if_neg (show ¬ (gangOf s g x).m = 0 from hm)]
        exact ⟨_, h2, h6, ⟨rfl, rfl, rfl, rfl, rfl⟩, rfl, rfl, rfl, rfl, rfl, rfl, hres, rfl, rfl⟩
    · let o : Op := { (gangOf s g x i.cls).op s.fresh .simple with res := (List.range 64).map fun j => (f g.shown j).setWidth 128,
                                                                    writes := [{ reg := .l 0, lanes := mOf s g x, word := 0 }] }
      have a := Core.shiftL_effect (c := s.core s.cur.core) h.1 (mOf s g x)
      obtain ⟨k, h1, h2, h3, h4, h5, h6⟩ := flies_after (x := gangOf s g x i.cls) ⟨rfl, rfl, rfl⟩ hf
        (pre := fun c => (c.shiftL s.cur.slot (mOf s g x)).cancel s.cur.slot (.l 0) (mOf s g x))
        (a.trans (Core.wrote_cancel a.now _ _)) (o := o) rfl rfl hent rfl d 1 signed
      refine ⟨_, k, ?_, h1, ?_, h3.q, h3.uniform, h3.masks, ?_, h4, h5, ?_⟩
      · unfold issueSfu issue
        refine issueWith_next h ?_
        show ((if mOf s g x = 0 then s else _), true) = _
        rw [if_neg hm]
        simp only [hp, if_true]
        rfl
      · intro n j hj
        have : k.mainAt n j = (g.setReg (.l 1) (mOf s g x) fun i => rowAt (rowOf g.l 0) i).mainAt n j := by
          simp only [Group.mainAt, h3.main]
        rw [this, setReg_main _ _ _ _ _ hj]
        simp
      · intro n j hj
        rw [h3.l, setReg_l _ _ _ _ _ hj]
        by_cases e : n = 1
        · simp [e]; rfl
        · simp [e, Ne.symm e]
      · rw [if_neg (show ¬ (gangOf s g x).m = 0 from hm)]
        exact ⟨_, h2, h6, ⟨rfl, rfl, rfl, rfl, rfl⟩, rfl, rfl, rfl, rfl, rfl, rfl, hres, rfl, rfl⟩

end Sys2Proof.Machine
end

