-- ==== Sys2Proof/Laws/Memory.lean ====
section
/-! SUPPORT. Memory as a canonical list: what a byte reads as after a write, and that a write and a removal keep the canonical form. -/

namespace Sys2Proof.Machine

/-- The bytes of a range that are not 0, as a list of cells. -/
def rangeCells (lo n : Nat) (f : Nat → Byte) : List Host.Cell := ((List.range n).map fun i => (lo + i, f i)).filter fun c => c.2 != 0

theorem mem_rangeCells {lo n : Nat} {f : Nat → Byte} {c : Host.Cell} :
    c ∈ rangeCells lo n f ↔ ∃ i < n, c = (lo + i, f i) ∧ f i ≠ 0 := by
  simp only [rangeCells, List.mem_filter, List.mem_map, List.mem_range]
  constructor
  · rintro ⟨⟨i, hi, rfl⟩, h⟩
    exact ⟨i, hi, rfl, by simpa using h⟩
  · rintro ⟨i, hi, rfl, h⟩
    exact ⟨⟨i, hi, rfl⟩, by simpa using h⟩

theorem rangeCells_rising (lo n : Nat) (f : Nat → Byte) : Rising (rangeCells lo n f) := by
  refine rising_filter ?_ _
  refine List.Pairwise.map (R := fun i j => i < j) _ (fun _ _ h => ?_) List.pairwise_lt_range
  simpa using h

theorem setRange_eq (m : List Host.Cell) (lo n : Nat) (f : Nat → Byte) :
    setRange m lo n f = m.filter (fun c => decide (c.1 < lo)) ++ rangeCells lo n f ++ m.filter fun c => decide (lo + n ≤ c.1) := rfl

theorem get?_append {α : Type} (m l : SMap α) (k : Nat) : get? (m ++ l) k = (get? m k).or (get? l k) := by
  induction m with
  | nil => rfl
  | cons c t ih =>
    obtain ⟨j, x⟩ := c
    by_cases h : j = k <;> simp [get?, h, ih]

theorem get?_rangeCells (lo n : Nat) (f : Nat → Byte) (a : Nat) :
    (get? (rangeCells lo n f) a).getD 0 = if lo ≤ a ∧ a < lo + n then f (a - lo) else 0 := by
  by_cases h : ∃ v, get? (rangeCells lo n f) a = some v
  · obtain ⟨v, hv⟩ := h
    obtain ⟨i, hi, he, h0⟩ := mem_rangeCells.1 (mem_of_get? hv)
    cases he
    simp only [hv, Option.getD_some]
    rw [if_pos (by omega)]
    congr 1
    omega
  · have hn : get? (rangeCells lo n f) a = none := by
      cases e : get? (rangeCells lo n f) a with
      | none => rfl
      | some v => exact absurd ⟨v, e⟩ h
    rw [hn]
    split
    · rename_i hr
      by_cases h0 : f (a - lo) = 0
      · simp [h0]
      · exfalso
        apply h
        refine ⟨f (a - lo), get?_of_mem (rangeCells_rising lo n f) (mem_rangeCells.2 ⟨a - lo, by omega, ?_, h0⟩)⟩
        rw [show lo + (a - lo) = a by omega]
    · rfl

/-- A write of a range: its bytes read as written, every other byte as before. -/
theorem cellAt_setRange (m : List Host.Cell) (lo n : Nat) (f : Nat → Byte) (a : Nat) :
    cellAt (setRange m lo n f) a = if lo ≤ a ∧ a < lo + n then f (a - lo) else cellAt m a := by
  have hl := get?_filter_key m (fun x => decide (x < lo)) a
  have hh := get?_filter_key m (fun x => decide (lo + n ≤ x)) a
  unfold cellAt
  rw [setRange_eq, get?_append, get?_append, hl, hh]
  have hr := get?_rangeCells lo n f a
  by_cases h1 : a < lo
  · have hn : get? (rangeCells lo n f) a = none := by
      apply get?_none_of_lt
      intro p hp
      obtain ⟨i, _, rfl, _⟩ := mem_rangeCells.1 hp
      simp only; omega
    rw [if_neg (by omega : ¬(lo ≤ a ∧ a < lo + n)), hn]
    simp [h1, show ¬ lo + n ≤ a by omega]
  · by_cases h2 : lo + n ≤ a
    · have hn : get? (rangeCells lo n f) a = none := by
        cases e : get? (rangeCells lo n f) a with
        | none => rfl
        | some v =>
          obtain ⟨i, _, he, _⟩ := mem_rangeCells.1 (mem_of_get? e)
          cases he
          omega
      rw [if_neg (by omega : ¬(lo ≤ a ∧ a < lo + n)), hn]
      simp [h1, h2]
    · have hin : lo ≤ a ∧ a < lo + n := by omega
      rw [if_pos hin] at hr ⊢
      rw [← hr]
      simp [h1, h2]

/-- A write of a range keeps the canonical form. -/
theorem memory_wf_setRange {m : List Host.Cell} (h : Memory.wf m) (lo n : Nat) (f : Nat → Byte) : Memory.wf (setRange m lo n f) := by
  obtain ⟨hp, hz⟩ := h
  rw [setRange_eq]
  refine ⟨?_, fun c hc => ?_⟩
  · rw [List.pairwise_append, List.pairwise_append]
    refine ⟨⟨List.Pairwise.filter _ hp, rangeCells_rising lo n f, ?_⟩, List.Pairwise.filter _ hp, ?_⟩
    · intro p hq q hr
      obtain ⟨i, _, rfl, _⟩ := mem_rangeCells.1 hr
      have := (List.mem_filter.1 hq).2
      simp only [decide_eq_true_eq] at this
      simp only; omega
    · intro p hq q hr
      have hr := (List.mem_filter.1 hr).2
      simp only [decide_eq_true_eq] at hr
      rcases List.mem_append.1 hq with hq | hq
      · have := (List.mem_filter.1 hq).2
        simp only [decide_eq_true_eq] at this
        omega
      · obtain ⟨i, _, rfl, _⟩ := mem_rangeCells.1 hq
        simp only; omega
  · rcases List.mem_append.1 hc with hc | hc
    · rcases List.mem_append.1 hc with hc | hc
      · exact hz c (List.mem_filter.1 hc).1
      · obtain ⟨i, _, rfl, h0⟩ := mem_rangeCells.1 hc
        exact h0
    · exact hz c (List.mem_filter.1 hc).1

/-- Removing cells keeps the canonical form. -/
theorem memory_wf_filter {m : List Host.Cell} (h : Memory.wf m) (p : Host.Cell → Bool) : Memory.wf (m.filter p) :=
  ⟨List.Pairwise.filter _ h.1, fun c hc => h.2 c (List.mem_filter.1 hc).1⟩

theorem memory_wf_nil : Memory.wf [] := ⟨List.Pairwise.nil, fun _ h => nomatch h⟩

/-- Two memories in canonical form whose bytes all read the same are the same list. -/
theorem memory_ext {m l : List Host.Cell} (hm : Memory.wf m) (hl : Memory.wf l) (h : ∀ a, cellAt m a = cellAt l a) : m = l := by
  have key : ∀ {m l : List Host.Cell}, Memory.wf m → Memory.wf l → (∀ a, cellAt m a = cellAt l a) → ∀ c ∈ m, c ∈ l := by
    intro m l hm hl h c hc
    have e := h c.1
    unfold cellAt at e
    rw [get?_of_mem hm.1 (v := c.2) hc] at e
    cases hg : get? l c.1 with
    | none => rw [hg] at e; exact absurd e (hm.2 c hc)
    | some v => rw [hg] at e; simp only [Option.getD_some] at e; rw [show c = (c.1, v) from by rw [← e]]; exact mem_of_get? hg
  exact List.Perm.eq_of_pairwise (le := fun p q => p.1 < q.1) (fun p q _ _ h1 h2 => absurd h1 (by omega)) hm.1 hl.1
    ((List.perm_ext_iff_of_nodup (hm.1.imp fun h => by rintro rfl; omega) (hl.1.imp fun h => by rintro rfl; omega)).2
      fun c => ⟨key hm hl h c, key hl hm (fun a => (h a).symm) c⟩)

end Sys2Proof.Machine
end

