-- ==== Sys2Proof/Laws/PerInstr.lean ====
section
/-! SUPPORT. The statement made of every instruction: its word fits 64 bits (R77). -/

namespace Sys2Proof.Laws

theorem encodeSpec_lt (s : Spec) : encodeSpec s < 1024 := by
  cases s <;> simp only [encodeSpec] <;> omega

theorem encodeGuard_lt (g : Guard) : encodeGuard g < 64 := by
  cases g with
  | always => decide
  | mask k neg => have := k.isLt; cases neg <;> simp only [encodeGuard, bit] <;> simp <;> omega

theorem encodeC_lt (c : SrcC) : (encodeC c).1 < 1024 ∧ (encodeC c).2 < 2 := by
  cases c with
  | spec s => exact ⟨encodeSpec_lt s, by simp [encodeC]⟩
  | imm10 x => exact ⟨x.isLt, by simp [encodeC]⟩

theorem encodeTy_lt (t : Ty) : encodeTy t < 16 := by cases t <;> decide

theorem encodeRnd_lt (r : Rnd) : encodeRnd r < 4 := by cases r <;> decide

theorem encodeHad_lt (h : Had) : encodeHad h < 4 := by cases h <;> decide

theorem encodeClass_lt (c : MemClass) : encodeClass c < 4 := by cases c <;> decide

theorem encodeScope_lt (c : Scope) : encodeScope c < 8 := by cases c <;> decide

theorem encodeKind_lt (k : AtomKind) : encodeKind k < 4 := by cases k <;> decide

theorem encodeAtomOp_lt (o : AtomOp) : encodeAtomOp o < 16 := by cases o <;> decide

theorem encodeMaskMode_lt (m : MaskMode) : encodeMaskMode m < 16 := by cases m <;> decide

theorem bit_lt (b : Bool) : bit b < 2 := by cases b <;> decide

theorem encodeOpt64_lt (o : Option (Fin 64)) : encodeOpt64 o < 128 := by
  cases o with
  | none => decide
  | some x => have := x.isLt; simp only [encodeOpt64]; omega

theorem pack_lt {op d a b c low : Nat} (ho : op < 256) (hd : d < 1024) (ha : a < 1024) (hb : b < 1024) (hc : c < 1024)
    (hl : low < 65536) : pack op d a b c low < 2 ^ 64 := by
  unfold pack; omega

theorem packW_lt {op d a low : Nat} (ho : op < 256) (hd : d < 1024) (ha : a < 1024) (hl : low < 2 ^ 36) :
    packW op d a low < 2 ^ 64 := by
  unfold packW; omega

theorem packFA_lt {op : Nat} (ho : op < 256) (f : FA) : packFA op f < 2 ^ 64 := by
  have h0 := encodeGuard_lt f.guard
  have h1 := (encodeC_lt f.c).2
  have h2 := encodeTy_lt f.ty
  have h3 := encodeRnd_lt f.rnd
  have h4 := f.sub.isLt
  exact pack_lt ho (encodeSpec_lt f.d) (encodeSpec_lt f.a) (encodeSpec_lt f.b) (encodeC_lt f.c).1 (by omega)

theorem packFSub_lt {op : Nat} (ho : op < 256) (f : FSub) : packFSub op f < 2 ^ 64 := by
  have h0 := encodeGuard_lt f.guard
  have h1 := f.sub.isLt
  exact pack_lt ho (encodeSpec_lt f.d) (encodeSpec_lt f.a) (encodeSpec_lt f.b) (encodeSpec_lt f.c) (by omega)

theorem packFW_lt {op : Nat} (ho : op < 256) (f : FW) : packFW op f < 2 ^ 64 := by
  have h0 := encodeTy_lt f.ty
  have h1 := f.imm.isLt
  exact packW_lt ho (encodeSpec_lt f.d) (encodeSpec_lt f.a) (by omega)

theorem packFWM_lt {op : Nat} (ho : op < 256) (f : FWM) : packFWM op f < 2 ^ 64 := by
  have h0 := encodeMaskMode_lt f.mode
  have h1 := f.imm.isLt
  exact packW_lt ho (encodeSpec_lt f.d) (encodeSpec_lt f.a) (by omega)

theorem packFLop_lt {op : Nat} (ho : op < 256) (f : FLop) : packFLop op f < 2 ^ 64 := by
  have h0 := encodeGuard_lt f.guard
  have h1 := (encodeC_lt f.c).2
  have h2 := f.table.isLt
  have h3 := bit_lt f.inv
  exact pack_lt ho (encodeSpec_lt f.d) (encodeSpec_lt f.a) (encodeSpec_lt f.b) (encodeC_lt f.c).1 (by omega)

theorem packFShx_lt {op : Nat} (ho : op < 256) (f : FShx) : packFShx op f < 2 ^ 64 := by
  have h0 := encodeGuard_lt f.guard
  have h1 := encodeTy_lt f.ty
  have h2 := f.mode.isLt
  have h3 := f.wid.isLt
  exact pack_lt ho (encodeSpec_lt f.d) (encodeSpec_lt f.a) (encodeSpec_lt f.b) (encodeSpec_lt f.c) (by omega)

theorem packFCvt_lt {op : Nat} (ho : op < 256) (f : FCvt) : packFCvt op f < 2 ^ 64 := by
  have h0 := encodeGuard_lt f.guard
  have h1 := encodeTy_lt f.dty
  have h2 := encodeRnd_lt f.rnd
  have h3 := bit_lt f.wrap
  have h4 := bit_lt f.hi
  have h5 := bit_lt f.pk
  exact pack_lt ho (encodeSpec_lt f.d) (encodeSpec_lt f.a) (encodeSpec_lt f.b) (by have := encodeTy_lt f.sty; omega) (by omega)

theorem packFCvq_lt {op : Nat} (ho : op < 256) (f : FCvq) : packFCvq op f < 2 ^ 64 := by
  have h0 := encodeGuard_lt f.guard
  have h1 := encodeTy_lt f.ty
  have h2 := encodeRnd_lt f.rnd
  have h3 := encodeHad_lt f.had
  exact pack_lt ho (encodeSpec_lt f.d) (encodeSpec_lt f.a) (encodeSpec_lt f.b) (encodeSpec_lt f.c) (by omega)

theorem packFM_lt {op : Nat} (ho : op < 256) (f : FM) : packFM op f < 2 ^ 64 := by
  have h0 := encodeGuard_lt f.guard
  have h1 := f.off.isLt
  have h2 := bit_lt f.sx
  have h3 := encodeClass_lt f.cls
  have h4 := encodeScope_lt f.scope
  have h5 := f.low.isLt
  exact packW_lt ho (encodeSpec_lt f.d) (encodeSpec_lt f.a) (by omega)

theorem packFAt_lt {op : Nat} (ho : op < 256) (f : FAt) : packFAt op f < 2 ^ 64 := by
  have h0 := encodeGuard_lt f.guard
  have h1 := encodeScope_lt f.scope
  have h2 := encodeKind_lt f.kind
  have h3 := encodeAtomOp_lt f.op
  exact pack_lt ho (encodeSpec_lt f.d) (encodeSpec_lt f.a) (encodeSpec_lt f.b) (encodeSpec_lt f.c) (by omega)

theorem packFBar_lt {op : Nat} (ho : op < 256) (f : FBar) : packFBar op f < 2 ^ 64 := by
  have h0 := encodeGuard_lt f.guard
  have h1 := bit_lt f.cluster
  have h2 := bit_lt f.bytes
  exact pack_lt ho (encodeSpec_lt f.d) (encodeSpec_lt f.a) (encodeSpec_lt f.b) (by decide) (by omega)

theorem packFCpy_lt {op : Nat} (ho : op < 256) (f : FCpy) : packFCpy op f < 2 ^ 64 := by
  have h0 := encodeOpt64_lt f.bar
  have h1 := encodeOpt64_lt f.tag
  exact pack_lt ho (by decide) (encodeSpec_lt f.a) (encodeSpec_lt f.b) (encodeSpec_lt f.c) (by omega)

theorem packFMma_lt {op : Nat} (ho : op < 256) (f : FMma) : packFMma op f < 2 ^ 64 := by
  have h0 := bit_lt f.ga
  have h1 := bit_lt f.gb
  have h2 := bit_lt f.strict
  have h3 := encodeHad_lt f.had
  have h4 := f.sel.isLt
  exact pack_lt ho (by have := f.td.isLt; have := f.ts.isLt; omega) (encodeSpec_lt f.a) (encodeSpec_lt f.b) (encodeSpec_lt f.c) (by omega)

theorem packFTile_lt {op : Nat} (ho : op < 256) (f : FTile) : packFTile op f < 2 ^ 64 := by
  have h0 := encodeTy_lt f.ty
  have h1 := bit_lt f.g
  have h2 := bit_lt f.z
  have h3 := encodeOpt64_lt f.tag
  exact pack_lt ho (by have := f.td.isLt; have := f.ts.isLt; omega) (encodeSpec_lt f.a) (encodeSpec_lt f.b) (encodeSpec_lt f.c) (by omega)

theorem packFEng_lt {op : Nat} (ho : op < 256) (f : FEng) : packFEng op f < 2 ^ 64 := by
  have h0 := bit_lt f.rows
  have h1 := bit_lt f.skip
  have h2 := bit_lt f.spill
  have h3 := encodeOpt64_lt f.tag
  exact pack_lt ho (by have := f.td.isLt; have := f.ts.isLt; omega) (encodeSpec_lt f.a) (encodeSpec_lt f.b) (encodeSpec_lt f.c) (by omega)

theorem packFB_lt {op : Nat} (ho : op < 256) (f : FB) : packFB op f < 2 ^ 64 := by
  have h0 := encodeGuard_lt f.guard
  have h1 := f.off.isLt
  have h2 := f.slot.isLt
  have h3 := bit_lt f.z
  exact packW_lt ho (encodeSpec_lt f.d) (encodeSpec_lt f.a) (by omega)

theorem packFS_lt {op : Nat} (ho : op < 256) (f : FS) : packFS op f < 2 ^ 64 := by
  have h0 := encodeGuard_lt f.guard
  have h1 := f.imm.isLt
  have h2 := f.mode.isLt
  exact packW_lt ho (encodeSpec_lt f.d) (encodeSpec_lt f.a) (by omega)

namespace WordRange

/-- The word of an instruction, where it has one, fits 64 bits (R77). -/
def Statement (i : Instr) : Prop := ∀ n, encodeNat i = some n → n < 2 ^ 64

theorem of_word {i : Instr} {n : Nat} (h : encodeNat i = some n) (hn : n < 2 ^ 64) : Statement i := by
  intro m hm
  rw [h] at hm
  cases hm
  exact hn

theorem of_none {i : Instr} (h : encodeNat i = none) : Statement i := by
  intro m hm
  rw [h] at hm
  cases hm

theorem nop : Statement (.nop) := of_word rfl (by decide)
theorem bra (f : FB) : Statement (.bra f) := of_word rfl (packFB_lt (by decide) f)
theorem brc (f : FB) : Statement (.brc f) := of_word rfl (packFB_lt (by decide) f)
theorem brx (f : FSub) : Statement (.brx f) := of_word rfl (packFSub_lt (by decide) f)
theorem call (f : FB) : Statement (.call f) := of_word rfl (packFB_lt (by decide) f)
theorem callx (f : FSub) : Statement (.callx f) := of_word rfl (packFSub_lt (by decide) f)
theorem ret (f : FSub) : Statement (.ret f) := of_word rfl (packFSub_lt (by decide) f)
theorem exit (f : FSub) : Statement (.exit f) := of_word rfl (packFSub_lt (by decide) f)
theorem yield (f : FSub) : Statement (.yield f) := of_word rfl (packFSub_lt (by decide) f)
theorem join (f : FSub) : Statement (.join f) := of_word rfl (packFSub_lt (by decide) f)
theorem leave (f : FSub) : Statement (.leave f) := of_word rfl (packFSub_lt (by decide) f)
theorem waitm (f : FSub) : Statement (.waitm f) := of_word rfl (packFSub_lt (by decide) f)
theorem mksetA (f : FSub) : Statement (.mksetA f) := of_word rfl (packFSub_lt (by decide) f)
theorem mksetW (f : FWM) : Statement (.mksetW f) := of_word rfl (packFWM_lt (by decide) f)
theorem mklop (f : FSub) : Statement (.mklop f) := of_word rfl (packFSub_lt (by decide) f)
theorem mkcnt (f : FSub) : Statement (.mkcnt f) := of_word rfl (packFSub_lt (by decide) f)
theorem mklane (f : FSub) : Statement (.mklane f) := of_word rfl (packFSub_lt (by decide) f)
theorem trap (f : FS) : Statement (.trap f) := of_word rfl (packFS_lt (by decide) f)
theorem bpt (f : FS) : Statement (.bpt f) := of_word rfl (packFS_lt (by decide) f)
theorem iaddA (f : FA) : Statement (.iaddA f) := of_word rfl (packFA_lt (by decide) f)
theorem iaddW (f : FW) : Statement (.iaddW f) := of_word rfl (packFW_lt (by decide) f)
theorem isubA (f : FA) : Statement (.isubA f) := of_word rfl (packFA_lt (by decide) f)
theorem isubW (f : FW) : Statement (.isubW f) := of_word rfl (packFW_lt (by decide) f)
theorem iaddc (f : FA) : Statement (.iaddc f) := of_word rfl (packFA_lt (by decide) f)
theorem imulA (f : FA) : Statement (.imulA f) := of_word rfl (packFA_lt (by decide) f)
theorem imulW (f : FW) : Statement (.imulW f) := of_word rfl (packFW_lt (by decide) f)
theorem imulh (f : FA) : Statement (.imulh f) := of_word rfl (packFA_lt (by decide) f)
theorem imadA (f : FA) : Statement (.imadA f) := of_word rfl (packFA_lt (by decide) f)
theorem imadW (f : FW) : Statement (.imadW f) := of_word rfl (packFW_lt (by decide) f)
theorem imadw (f : FA) : Statement (.imadw f) := of_word rfl (packFA_lt (by decide) f)
theorem idiv (f : FA) : Statement (.idiv f) := of_word rfl (packFA_lt (by decide) f)
theorem irem (f : FA) : Statement (.irem f) := of_word rfl (packFA_lt (by decide) f)
theorem iminA (f : FA) : Statement (.iminA f) := of_word rfl (packFA_lt (by decide) f)
theorem iminW (f : FW) : Statement (.iminW f) := of_word rfl (packFW_lt (by decide) f)
theorem imaxA (f : FA) : Statement (.imaxA f) := of_word rfl (packFA_lt (by decide) f)
theorem imaxW (f : FW) : Statement (.imaxW f) := of_word rfl (packFW_lt (by decide) f)
theorem iabs (f : FA) : Statement (.iabs f) := of_word rfl (packFA_lt (by decide) f)
theorem ineg (f : FA) : Statement (.ineg f) := of_word rfl (packFA_lt (by decide) f)
theorem andA (f : FA) : Statement (.andA f) := of_word rfl (packFA_lt (by decide) f)
theorem andW (f : FW) : Statement (.andW f) := of_word rfl (packFW_lt (by decide) f)
theorem orA (f : FA) : Statement (.orA f) := of_word rfl (packFA_lt (by decide) f)
theorem orW (f : FW) : Statement (.orW f) := of_word rfl (packFW_lt (by decide) f)
theorem xorA (f : FA) : Statement (.xorA f) := of_word rfl (packFA_lt (by decide) f)
theorem xorW (f : FW) : Statement (.xorW f) := of_word rfl (packFW_lt (by decide) f)
theorem notA (f : FA) : Statement (.notA f) := of_word rfl (packFA_lt (by decide) f)
theorem lop3 (f : FLop) : Statement (.lop3 f) := of_word rfl (packFLop_lt (by decide) f)
theorem shl (f : FA) : Statement (.shl f) := of_word rfl (packFA_lt (by decide) f)
theorem shr (f : FA) : Statement (.shr f) := of_word rfl (packFA_lt (by decide) f)
theorem sar (f : FA) : Statement (.sar f) := of_word rfl (packFA_lt (by decide) f)
theorem rot (f : FA) : Statement (.rot f) := of_word rfl (packFA_lt (by decide) f)
theorem shf (f : FA) : Statement (.shf f) := of_word rfl (packFA_lt (by decide) f)
theorem popc (f : FA) : Statement (.popc f) := of_word rfl (packFA_lt (by decide) f)
theorem clz (f : FA) : Statement (.clz f) := of_word rfl (packFA_lt (by decide) f)
theorem ctz (f : FA) : Statement (.ctz f) := of_word rfl (packFA_lt (by decide) f)
theorem brev (f : FA) : Statement (.brev f) := of_word rfl (packFA_lt (by decide) f)
theorem bfe (f : FA) : Statement (.bfe f) := of_word rfl (packFA_lt (by decide) f)
theorem bfi (f : FA) : Statement (.bfi f) := of_word rfl (packFA_lt (by decide) f)
theorem prmt (f : FA) : Statement (.prmt f) := of_word rfl (packFA_lt (by decide) f)
theorem isetA (f : FA) : Statement (.isetA f) := of_word rfl (packFA_lt (by decide) f)
theorem isetW (f : FW) : Statement (.isetW f) := of_word rfl (packFW_lt (by decide) f)
theorem isel (f : FA) : Statement (.isel f) := of_word rfl (packFA_lt (by decide) f)
theorem mov (f : FA) : Statement (.mov f) := of_word rfl (packFA_lt (by decide) f)
theorem movi (f : FW) : Statement (.movi f) := of_word rfl (packFW_lt (by decide) f)
theorem movg (f : FA) : Statement (.movg f) := of_word rfl (packFA_lt (by decide) f)
theorem lea (f : FA) : Statement (.lea f) := of_word rfl (packFA_lt (by decide) f)
theorem iadd64 (f : FA) : Statement (.iadd64 f) := of_word rfl (packFA_lt (by decide) f)
theorem idot4 (f : FA) : Statement (.idot4 f) := of_word rfl (packFA_lt (by decide) f)
theorem faddA (f : FA) : Statement (.faddA f) := of_word rfl (packFA_lt (by decide) f)
theorem faddW (f : FW) : Statement (.faddW f) := of_word rfl (packFW_lt (by decide) f)
theorem fsub (f : FA) : Statement (.fsub f) := of_word rfl (packFA_lt (by decide) f)
theorem fmulA (f : FA) : Statement (.fmulA f) := of_word rfl (packFA_lt (by decide) f)
theorem fmulW (f : FW) : Statement (.fmulW f) := of_word rfl (packFW_lt (by decide) f)
theorem ffmaA (f : FA) : Statement (.ffmaA f) := of_word rfl (packFA_lt (by decide) f)
theorem ffmaW (f : FW) : Statement (.ffmaW f) := of_word rfl (packFW_lt (by decide) f)
theorem fminA (f : FA) : Statement (.fminA f) := of_word rfl (packFA_lt (by decide) f)
theorem fminW (f : FW) : Statement (.fminW f) := of_word rfl (packFW_lt (by decide) f)
theorem fmaxA (f : FA) : Statement (.fmaxA f) := of_word rfl (packFA_lt (by decide) f)
theorem fmaxW (f : FW) : Statement (.fmaxW f) := of_word rfl (packFW_lt (by decide) f)
theorem fsetA (f : FA) : Statement (.fsetA f) := of_word rfl (packFA_lt (by decide) f)
theorem fsetW (f : FW) : Statement (.fsetW f) := of_word rfl (packFW_lt (by decide) f)
theorem fclass (f : FA) : Statement (.fclass f) := of_word rfl (packFA_lt (by decide) f)
theorem frcp (f : FA) : Statement (.frcp f) := of_word rfl (packFA_lt (by decide) f)
theorem frsq (f : FA) : Statement (.frsq f) := of_word rfl (packFA_lt (by decide) f)
theorem fsqrt (f : FA) : Statement (.fsqrt f) := of_word rfl (packFA_lt (by decide) f)
theorem fdiv (f : FA) : Statement (.fdiv f) := of_word rfl (packFA_lt (by decide) f)
theorem fexp2 (f : FA) : Statement (.fexp2 f) := of_word rfl (packFA_lt (by decide) f)
theorem flog2 (f : FA) : Statement (.flog2 f) := of_word rfl (packFA_lt (by decide) f)
theorem fsin (f : FA) : Statement (.fsin f) := of_word rfl (packFA_lt (by decide) f)
theorem fcos (f : FA) : Statement (.fcos f) := of_word rfl (packFA_lt (by decide) f)
theorem ftanh (f : FA) : Statement (.ftanh f) := of_word rfl (packFA_lt (by decide) f)
theorem hadd2 (f : FA) : Statement (.hadd2 f) := of_word rfl (packFA_lt (by decide) f)
theorem hmul2 (f : FA) : Statement (.hmul2 f) := of_word rfl (packFA_lt (by decide) f)
theorem hfma2 (f : FA) : Statement (.hfma2 f) := of_word rfl (packFA_lt (by decide) f)
theorem hmnmx2 (f : FA) : Statement (.hmnmx2 f) := of_word rfl (packFA_lt (by decide) f)
theorem bfma2 (f : FA) : Statement (.bfma2 f) := of_word rfl (packFA_lt (by decide) f)
theorem cvt (f : FCvt) : Statement (.cvt f) := of_word rfl (packFCvt_lt (by decide) f)
theorem cvtq (f : FCvq) : Statement (.cvtq f) := of_word rfl (packFCvq_lt (by decide) f)
theorem cvtd (f : FA) : Statement (.cvtd f) := of_word rfl (packFA_lt (by decide) f)
theorem frnd (f : FA) : Statement (.frnd f) := of_word rfl (packFA_lt (by decide) f)
theorem fscale (f : FA) : Statement (.fscale f) := of_word rfl (packFA_lt (by decide) f)
theorem shfl (f : FA) : Statement (.shfl f) := of_word rfl (packFA_lt (by decide) f)
theorem shflx (f : FShx) : Statement (.shflx f) := of_word rfl (packFShx_lt (by decide) f)
theorem bcast (f : FA) : Statement (.bcast f) := of_word rfl (packFA_lt (by decide) f)
theorem vote (f : FA) : Statement (.vote f) := of_word rfl (packFA_lt (by decide) f)
theorem redux (f : FA) : Statement (.redux f) := of_word rfl (packFA_lt (by decide) f)
theorem fredux (f : FA) : Statement (.fredux f) := of_word rfl (packFA_lt (by decide) f)
theorem scan (f : FA) : Statement (.scan f) := of_word rfl (packFA_lt (by decide) f)
theorem laneMatch (f : FA) : Statement (.laneMatch f) := of_word rfl (packFA_lt (by decide) f)
theorem ldB8 (f : FM) : Statement (.ldB8 f) := of_word rfl (packFM_lt (by decide) f)
theorem ldB16 (f : FM) : Statement (.ldB16 f) := of_word rfl (packFM_lt (by decide) f)
theorem ldB32 (f : FM) : Statement (.ldB32 f) := of_word rfl (packFM_lt (by decide) f)
theorem ldB64 (f : FM) : Statement (.ldB64 f) := of_word rfl (packFM_lt (by decide) f)
theorem ldB128 (f : FM) : Statement (.ldB128 f) := of_word rfl (packFM_lt (by decide) f)
theorem stB8 (f : FM) : Statement (.stB8 f) := of_word rfl (packFM_lt (by decide) f)
theorem stB16 (f : FM) : Statement (.stB16 f) := of_word rfl (packFM_lt (by decide) f)
theorem stB32 (f : FM) : Statement (.stB32 f) := of_word rfl (packFM_lt (by decide) f)
theorem stB64 (f : FM) : Statement (.stB64 f) := of_word rfl (packFM_lt (by decide) f)
theorem stB128 (f : FM) : Statement (.stB128 f) := of_word rfl (packFM_lt (by decide) f)
theorem ldlB8 (f : FM) : Statement (.ldlB8 f) := of_word rfl (packFM_lt (by decide) f)
theorem ldlB16 (f : FM) : Statement (.ldlB16 f) := of_word rfl (packFM_lt (by decide) f)
theorem ldlB32 (f : FM) : Statement (.ldlB32 f) := of_word rfl (packFM_lt (by decide) f)
theorem ldlB64 (f : FM) : Statement (.ldlB64 f) := of_word rfl (packFM_lt (by decide) f)
theorem ldlB128 (f : FM) : Statement (.ldlB128 f) := of_word rfl (packFM_lt (by decide) f)
theorem stlB8 (f : FM) : Statement (.stlB8 f) := of_word rfl (packFM_lt (by decide) f)
theorem stlB16 (f : FM) : Statement (.stlB16 f) := of_word rfl (packFM_lt (by decide) f)
theorem stlB32 (f : FM) : Statement (.stlB32 f) := of_word rfl (packFM_lt (by decide) f)
theorem stlB64 (f : FM) : Statement (.stlB64 f) := of_word rfl (packFM_lt (by decide) f)
theorem stlB128 (f : FM) : Statement (.stlB128 f) := of_word rfl (packFM_lt (by decide) f)
theorem ldt (f : FM) : Statement (.ldt f) := of_word rfl (packFM_lt (by decide) f)
theorem wmap (f : FSub) : Statement (.wmap f) := of_word rfl (packFSub_lt (by decide) f)
theorem wunmap (f : FSub) : Statement (.wunmap f) := of_word rfl (packFSub_lt (by decide) f)
theorem wsync (f : FSub) : Statement (.wsync f) := of_word rfl (packFSub_lt (by decide) f)
theorem winv (f : FSub) : Statement (.winv f) := of_word rfl (packFSub_lt (by decide) f)
theorem wquery (f : FSub) : Statement (.wquery f) := of_word rfl (packFSub_lt (by decide) f)
theorem atomB32 (f : FAt) : Statement (.atomB32 f) := of_word rfl (packFAt_lt (by decide) f)
theorem atomB64 (f : FAt) : Statement (.atomB64 f) := of_word rfl (packFAt_lt (by decide) f)
theorem atomlB32 (f : FAt) : Statement (.atomlB32 f) := of_word rfl (packFAt_lt (by decide) f)
theorem atomlB64 (f : FAt) : Statement (.atomlB64 f) := of_word rfl (packFAt_lt (by decide) f)
theorem redB32 (f : FAt) : Statement (.redB32 f) := of_word rfl (packFAt_lt (by decide) f)
theorem redB64 (f : FAt) : Statement (.redB64 f) := of_word rfl (packFAt_lt (by decide) f)
theorem fence (f : FS) : Statement (.fence f) := of_word rfl (packFS_lt (by decide) f)
theorem pref (f : FM) : Statement (.pref f) := of_word rfl (packFM_lt (by decide) f)
theorem survey (f : FSub) : Statement (.survey f) := of_word rfl (packFSub_lt (by decide) f)
theorem probe (f : FSub) : Statement (.probe f) := of_word rfl (packFSub_lt (by decide) f)
theorem discard (f : FSub) : Statement (.discard f) := of_word rfl (packFSub_lt (by decide) f)
theorem sealRange (f : FSub) : Statement (.sealRange f) := of_word rfl (packFSub_lt (by decide) f)
theorem unsealRange (f : FSub) : Statement (.unsealRange f) := of_word rfl (packFSub_lt (by decide) f)
theorem stag (f : FM) : Statement (.stag f) := of_word rfl (packFM_lt (by decide) f)
theorem ltag (f : FM) : Statement (.ltag f) := of_word rfl (packFM_lt (by decide) f)
theorem cctl (f : FM) : Statement (.cctl f) := of_word rfl (packFM_lt (by decide) f)
theorem barinit (f : FBar) : Statement (.barinit f) := of_word rfl (packFBar_lt (by decide) f)
theorem bararv (f : FBar) : Statement (.bararv f) := of_word rfl (packFBar_lt (by decide) f)
theorem barwait (f : FBar) : Statement (.barwait f) := of_word rfl (packFBar_lt (by decide) f)
theorem barexp (f : FBar) : Statement (.barexp f) := of_word rfl (packFBar_lt (by decide) f)
theorem bartry (f : FBar) : Statement (.bartry f) := of_word rfl (packFBar_lt (by decide) f)
theorem cpyG2l (f : FCpy) : Statement (.cpyG2l f) := of_word rfl (packFCpy_lt (by decide) f)
theorem cpyL2g (f : FCpy) : Statement (.cpyL2g f) := of_word rfl (packFCpy_lt (by decide) f)
theorem cpyL2l (f : FCpy) : Statement (.cpyL2l f) := of_word rfl (packFCpy_lt (by decide) f)
theorem cpyg (f : FCpy) : Statement (.cpyg f) := of_word rfl (packFCpy_lt (by decide) f)
theorem cpys (f : FCpy) : Statement (.cpys f) := of_word rfl (packFCpy_lt (by decide) f)
theorem tagwaitAny (f : FSub) : Statement (.tagwaitAny f) := of_word rfl (packFSub_lt (by decide) f)
theorem tagwaitAll (f : FSub) : Statement (.tagwaitAll f) := of_word rfl (packFSub_lt (by decide) f)
theorem tagfirst (f : FSub) : Statement (.tagfirst f) := of_word rfl (packFSub_lt (by decide) f)
theorem tagclr (f : FSub) : Statement (.tagclr f) := of_word rfl (packFSub_lt (by decide) f)
theorem mmaF16 (f : FMma) : Statement (.mmaF16 f) := of_word rfl (packFMma_lt (by decide) f)
theorem mmaBf16 (f : FMma) : Statement (.mmaBf16 f) := of_word rfl (packFMma_lt (by decide) f)
theorem mmaVt8 (f : FMma) : Statement (.mmaVt8 f) := of_word rfl (packFMma_lt (by decide) f)
theorem mmaS8 (f : FMma) : Statement (.mmaS8 f) := of_word rfl (packFMma_lt (by decide) f)
theorem mmaN8 (f : FMma) : Statement (.mmaN8 f) := of_word rfl (packFMma_lt (by decide) f)
theorem mmas (f : FMma) : Statement (.mmas f) := of_word rfl (packFMma_lt (by decide) f)
theorem mzero (f : FEng) : Statement (.mzero f) := of_word rfl (packFEng_lt (by decide) f)
theorem mldt (f : FTile) : Statement (.mldt f) := of_word rfl (packFTile_lt (by decide) f)
theorem mstt (f : FTile) : Statement (.mstt f) := of_word rfl (packFTile_lt (by decide) f)
theorem mdrain (f : FTile) : Statement (.mdrain f) := of_word rfl (packFTile_lt (by decide) f)
theorem malloc (f : FEng) : Statement (.malloc f) := of_word rfl (packFEng_lt (by decide) f)
theorem mfree (f : FEng) : Statement (.mfree f) := of_word rfl (packFEng_lt (by decide) f)
theorem grbind (f : FEng) : Statement (.grbind f) := of_word rfl (packFEng_lt (by decide) f)
theorem greval (f : FEng) : Statement (.greval f) := of_word rfl (packFEng_lt (by decide) f)
theorem grstat (f : FEng) : Statement (.grstat f) := of_word rfl (packFEng_lt (by decide) f)
theorem nzscan (f : FEng) : Statement (.nzscan f) := of_word rfl (packFEng_lt (by decide) f)
theorem launch (f : FSub) : Statement (.launch f) := of_word rfl (packFSub_lt (by decide) f)
theorem snap (f : FS) : Statement (.snap f) := of_word rfl (packFS_lt (by decide) f)
theorem edstat (f : FS) : Statement (.edstat f) := of_word rfl (packFS_lt (by decide) f)
theorem sreadA (f : FSub) : Statement (.sreadA f) := of_word rfl (packFSub_lt (by decide) f)
theorem sreadS (f : FS) : Statement (.sreadS f) := of_word rfl (packFS_lt (by decide) f)
theorem swriteA (f : FSub) : Statement (.swriteA f) := of_word rfl (packFSub_lt (by decide) f)
theorem swriteS (f : FS) : Statement (.swriteS f) := of_word rfl (packFS_lt (by decide) f)
theorem clock (f : FS) : Statement (.clock f) := of_word rfl (packFS_lt (by decide) f)
theorem stamp (f : FS) : Statement (.stamp f) := of_word rfl (packFS_lt (by decide) f)
theorem regq (f : FS) : Statement (.regq f) := of_word rfl (packFS_lt (by decide) f)
theorem signal (f : FS) : Statement (.signal f) := of_word rfl (packFS_lt (by decide) f)
theorem halt (f : FS) : Statement (.halt f) := of_word rfl (packFS_lt (by decide) f)
theorem reservedOpcodeIssue (w : BitVec 64) : Statement (.reservedOpcodeIssue w) := of_word rfl w.isLt
theorem operandsConsumed (core op : Nat) : Statement (.operandsConsumed core op) := of_none rfl
theorem operationComplete (core op : Nat) : Statement (.operationComplete core op) := of_none rfl
theorem maskWaitRelease (core slot k : Nat) : Statement (.maskWaitRelease core slot k) := of_none rfl
theorem maskWaitLeave (core slot mark : Nat) : Statement (.maskWaitLeave core slot mark) := of_none rfl
theorem collectiveComplete (core slot lane : Nat) : Statement (.collectiveComplete core slot lane) := of_none rfl
theorem collectiveDeliver (core slot mark : Nat) : Statement (.collectiveDeliver core slot mark) := of_none rfl
theorem groupTrapStop (core slot : Nat) : Statement (.groupTrapStop core slot) := of_none rfl
theorem groupRestore (core slot : Nat) : Statement (.groupRestore core slot) := of_none rfl
theorem naturalSwap (core leaving entering : Nat) : Statement (.naturalSwap core leaving entering) := of_none rfl
theorem forcedSwap (core : Nat) : Statement (.forcedSwap core) := of_none rfl
theorem scoreDecay (core : Nat) : Statement (.scoreDecay core) := of_none rfl
theorem regqGrant (core team : Nat) : Statement (.regqGrant core team) := of_none rfl
theorem groupSlotRelease (core slot : Nat) : Statement (.groupSlotRelease core slot) := of_none rfl
theorem canalWatchStore (canal : Nat) : Statement (.canalWatchStore canal) := of_none rfl
theorem kernelComplete (kernel : Nat) : Statement (.kernelComplete kernel) := of_none rfl
theorem homeFillRequest (core op lane : Nat) (bytes : BitVec 16) : Statement (.homeFillRequest core op lane bytes) := of_none rfl
theorem homeStoreRequest (core slot id : Nat) (bytes : BitVec 16) : Statement (.homeStoreRequest core slot id bytes) := of_none rfl
theorem homeAtomicRequest (core op addr : Nat) : Statement (.homeAtomicRequest core op addr) := of_none rfl
theorem heldStoresPerform (page : Nat) : Statement (.heldStoresPerform page) := of_none rfl
theorem lineWriteback (line : Nat) : Statement (.lineWriteback line) := of_none rfl
theorem pageRelease (page : Nat) : Statement (.pageRelease page) := of_none rfl
theorem storeAckArrival (core slot id : Nat) : Statement (.storeAckArrival core slot id) := of_none rfl
theorem leaseExpiry (core line : Nat) : Statement (.leaseExpiry core line) := of_none rfl
theorem fenceStallEnd (core op : Nat) : Statement (.fenceStallEnd core op) := of_none rfl
theorem engineLockWaitEnd (core op : Nat) : Statement (.engineLockWaitEnd core op) := of_none rfl
theorem copyPageReach (core op : Nat) : Statement (.copyPageReach core op) := of_none rfl
theorem copyByteDelivery (core op n : Nat) : Statement (.copyByteDelivery core op n) := of_none rfl
theorem copyComplete (core op : Nat) : Statement (.copyComplete core op) := of_none rfl
theorem migrationTick (die : Nat) : Statement (.migrationTick die) := of_none rfl
theorem heatDecay (die : Nat) : Statement (.heatDecay die) := of_none rfl
theorem migrationSwitch (page : Nat) : Statement (.migrationSwitch page) := of_none rfl
theorem hostHalfRead (dpa len : Nat) : Statement (.hostHalfRead dpa len) := of_none rfl
theorem hostWriteback (half : Nat) (stores : List (Nat × BitVec 8)) (keep : Bool) : Statement (.hostWriteback half stores keep) := of_none rfl
theorem homeApplyCut (edition die : Nat) : Statement (.homeApplyCut edition die) := of_none rfl
theorem editionCutDone (edition : Nat) : Statement (.editionCutDone edition) := of_none rfl
theorem cowBackgroundFill (page : Nat) : Statement (.cowBackgroundFill page) := of_none rfl
theorem drainPageWrite (die : Nat) : Statement (.drainPageWrite die) := of_none rfl
theorem drainTargetAck (edition : Nat) : Statement (.drainTargetAck edition) := of_none rfl
theorem chunkAckTimeout (edition : Nat) : Statement (.chunkAckTimeout edition) := of_none rfl
theorem linkBulkTimeout (request : Nat) : Statement (.linkBulkTimeout request) := of_none rfl
theorem linkInboundRequest (peer : Nat) (slotAtt : Option (Nat × Nat)) (dpa : Nat) (access : Inbound) : Statement (.linkInboundRequest peer slotAtt dpa access) := of_none rfl
theorem pcieInboundDma (dpa len : Nat) (write : Option (List (BitVec 8))) : Statement (.pcieInboundDma dpa len write) := of_none rfl
theorem coreIdleTimeout (core : Nat) : Statement (.coreIdleTimeout core) := of_none rfl
theorem coreGateTimeout (core : Nat) : Statement (.coreGateTimeout core) := of_none rfl
theorem snapRequestAtReference (core op : Nat) : Statement (.snapRequestAtReference core op) := of_none rfl
theorem remoteStoreAcknowledge (idx : Nat) : Statement (.remoteStoreAcknowledge idx) := of_none rfl
theorem hostOwnershipRequest (half : Nat) : Statement (.hostOwnershipRequest half) := of_none rfl
theorem hostOwnershipGrant (half : Nat) (stores : List (Nat × BitVec 8)) : Statement (.hostOwnershipGrant half stores) := of_none rfl
theorem linkAckArrival (request : Nat) (reply : LinkReply) : Statement (.linkAckArrival request reply) := of_none rfl
theorem linkAbortTokenArrival (slot att : Nat) : Statement (.linkAbortTokenArrival slot att) := of_none rfl
theorem hostDirectoryMerge (base : Nat) : Statement (.hostDirectoryMerge base) := of_none rfl
theorem keeperResume (core slot : Nat) (writes : List (Nat × BitVec 64)) : Statement (.keeperResume core slot writes) := of_none rfl
theorem linkTrainingEnd (port lanes peer : Nat) : Statement (.linkTrainingEnd port lanes peer) := of_none rfl
theorem linkLaneError (port : Nat) : Statement (.linkLaneError port) := of_none rfl
theorem linkFlitReceive (port : Nat) (accepted : Bool) : Statement (.linkFlitReceive port accepted) := of_none rfl
theorem mailboxWrite (m word : Nat) (value : BitVec 64) : Statement (.mailboxWrite m word value) := of_none rfl
theorem laneFailure (core lane : Nat) : Statement (.laneFailure core lane) := of_none rfl
theorem timingReplay (core : Nat) : Statement (.timingReplay core) := of_none rfl
theorem eccCorrected (core : Nat) : Statement (.eccCorrected core) := of_none rfl
theorem uncorrectableError (site : ErrSite) : Statement (.uncorrectableError site) := of_none rfl
theorem scanComplete (lanes : List (Nat × Nat)) (failed : List Nat) : Statement (.scanComplete lanes failed) := of_none rfl
theorem dieTemp105 (die : Nat) : Statement (.dieTemp105 die) := of_none rfl
theorem dieCool95 (die : Nat) : Statement (.dieCool95 die) := of_none rfl
theorem coldReset (failed : List Nat) : Statement (.coldReset failed) := of_none rfl
theorem keeperFailure (die idx : Nat) : Statement (.keeperFailure die idx) := of_none rfl
theorem functionReady (bit : Nat) : Statement (.functionReady bit) := of_none rfl
theorem clauseEntry : Statement (.clauseEntry) := of_none rfl
theorem distributorTurn : Statement (.distributorTurn) := of_none rfl
theorem heldEventPost : Statement (.heldEventPost) := of_none rfl
theorem scanTestTurn : Statement (.scanTestTurn) := of_none rfl
theorem scanDrainTimeout : Statement (.scanDrainTimeout) := of_none rfl
theorem scanUnitEmpty : Statement (.scanUnitEmpty) := of_none rfl
theorem powerCapExceeded : Statement (.powerCapExceeded) := of_none rfl
theorem thermalStop : Statement (.thermalStop) := of_none rfl
theorem deviceSignalAccepted : Statement (.deviceSignalAccepted) := of_none rfl
theorem ctxcreate : Statement (.ctxcreate) := of_none rfl
theorem ctxrun : Statement (.ctxrun) := of_none rfl
theorem ctxsuspend : Statement (.ctxsuspend) := of_none rfl
theorem ctxresume : Statement (.ctxresume) := of_none rfl
theorem ctxmode : Statement (.ctxmode) := of_none rfl
theorem ctxquery : Statement (.ctxquery) := of_none rfl
theorem ctxdestroy : Statement (.ctxdestroy) := of_none rfl
theorem cnlcreate : Statement (.cnlcreate) := of_none rfl
theorem cnlresume : Statement (.cnlresume) := of_none rfl
theorem cnlquery : Statement (.cnlquery) := of_none rfl
theorem cnldestroy : Statement (.cnldestroy) := of_none rfl
theorem pgdone : Statement (.pgdone) := of_none rfl
theorem rgnset : Statement (.rgnset) := of_none rfl
theorem rgnpool : Statement (.rgnpool) := of_none rfl
theorem rgnplace : Statement (.rgnplace) := of_none rfl
theorem rgnclear : Statement (.rgnclear) := of_none rfl
theorem rgnquery : Statement (.rgnquery) := of_none rfl
theorem vminv : Statement (.vminv) := of_none rfl
theorem edconf : Statement (.edconf) := of_none rfl
theorem edtarget : Statement (.edtarget) := of_none rfl
theorem edmap : Statement (.edmap) := of_none rfl
theorem edunmap : Statement (.edunmap) := of_none rfl
theorem edretire : Statement (.edretire) := of_none rfl
theorem edquery : Statement (.edquery) := of_none rfl
theorem lnktrain : Statement (.lnktrain) := of_none rfl
theorem lnkisolate : Statement (.lnkisolate) := of_none rfl
theorem lnkmap : Statement (.lnkmap) := of_none rfl
theorem lnkunmap : Statement (.lnkunmap) := of_none rfl
theorem lnkabort : Statement (.lnkabort) := of_none rfl
theorem lnkquery : Statement (.lnkquery) := of_none rfl
theorem lnkexport : Statement (.lnkexport) := of_none rfl
theorem hostevq : Statement (.hostevq) := of_none rfl
theorem corestat : Statement (.corestat) := of_none rfl
theorem testconf : Statement (.testconf) := of_none rfl
theorem dbgarea : Statement (.dbgarea) := of_none rfl
theorem stopcore : Statement (.stopcore) := of_none rfl
theorem dbgresume : Statement (.dbgresume) := of_none rfl
theorem watchset : Statement (.watchset) := of_none rfl
theorem devstat : Statement (.devstat) := of_none rfl
theorem pwrcap : Statement (.pwrcap) := of_none rfl
theorem dieresume : Statement (.dieresume) := of_none rfl

end WordRange

end Sys2Proof.Laws
end

