-- ==== Sys2Proof/Tests/Slice0.lean ====
section
/-! SUPPORT. Tests: words written out from the encodings of the specification (R77–R94, R168, R270 and the entries R275–R367), ill-formed terms, a few
single steps, and a witness for the hypotheses of every statement.  Expected results are computed by hand from the rules. -/

namespace Sys2Proof.Tests

open Sys2Proof Sys2Proof.Machine

set_option Elab.async false

/-! ### Decoding

Each word stands beside the instruction that the encoding tables give it: the opcode in bits 63–56 (R90), D, A, B and C in bits 55–46, 45–36, 35–26
and 25–16 (R82), the guard in bits 15–10 (R81), and the entry's modifiers. -/

/-- Every word decodes to the instruction beside it, as the host lays a word out, and that instruction encodes to the word. -/
def decodesTo (l : List (Nat × Instr)) : Bool :=
  l.all fun p => decodeTableWord 64 p.1 == some p.2 && encodeNat p.2 == some p.1

def wordsControl : List (Nat × Instr) := [
  (0x0000000000000000, .nop),
  (0x0100000FFFE88C80, .bra ⟨.mask 1 true, .main 0, .main 0, 0xFFFE8, 2, false⟩),
  (0x02000150001093C1, .brc ⟨.mask 2 false, .main 0, .main 21, 0x00010, 15, true⟩),
  (0x0300221000009C00, .brx ⟨.mask 3 true, .main 0, .g 33, .main 0, .main 0, 0⟩),
  (0x04018007FFFFA000, .call ⟨.mask 4 false, .main 6, .main 0, 0x7FFFF, 0, false⟩),
  (0x0501A2100000AC00, .callx ⟨.mask 5 true, .main 6, .g 33, .main 0, .main 0, 0⟩),
  (0x060022100000B000, .ret ⟨.mask 6 false, .main 0, .g 33, .main 0, .main 0, 0⟩),
  (0x070000000000BC00, .exit ⟨.mask 7 true, .main 0, .main 0, .main 0, .main 0, 0⟩),
  (0x080000000000C000, .yield ⟨.mask 8 false, .main 0, .main 0, .main 0, .main 0, 0⟩),
  (0x090024B00000CC00, .join ⟨.mask 9 true, .main 0, .k 11, .main 0, .main 0, 0⟩),
  (0x0A0024B00000D000, .leave ⟨.mask 10 false, .main 0, .k 11, .main 0, .main 0, 0⟩),
  (0x0B0024B00000DC00, .waitm ⟨.mask 11 true, .main 0, .k 11, .main 0, .main 0, 0⟩),
  (0x0C90C12000008001, .mksetA ⟨.mask 0 false, .k 3, .main 18, .main 0, .main 0, 1⟩),
  (0x0D90C00DEADBEEF2, .mksetW ⟨.k 3, .main 0, 0xDEADBEEF, .sx⟩),
  (0x0E90C12038009003, .mklop ⟨.mask 2 false, .k 3, .main 18, .main 14, .main 0, 3⟩),
  (0x0F01C12000009C01, .mkcnt ⟨.mask 3 true, .main 7, .main 18, .main 0, .main 0, 1⟩),
  (0x1001C1242C00A002, .mklane ⟨.mask 4 false, .main 7, .main 18, .lane, .main 0, 2⟩),
  (0x1100012ABCDEAC00, .trap ⟨.mask 5 true, .main 0, .main 18, 0xABCDE, 0⟩),
  (0x120000000001B000, .bpt ⟨.mask 6 false, .main 0, .main 0, 0x00001, 0⟩)]

theorem test_decode_control : decodesTo wordsControl = true := by decide +kernel

def wordsInteger : List (Nat × Instr) := [
  (0x2001C1542C00C041, .iaddA ⟨.mask 8 false, .main 7, .main 21, .lane, .spec (.main 0), .s32, .rn, 1⟩),
  (0x2101C1589ABCDEF1, .iaddW ⟨.main 7, .main 21, 0x89ABCDEF, .s16⟩),
  (0x2201C1542C00D0A1, .isubA ⟨.mask 10 false, .main 7, .main 21, .lane, .spec (.main 0), .n16, .rn, 1⟩),
  (0x2301C15800000014, .isubW ⟨.main 7, .main 21, 0x80000001, .n8⟩),
  (0x2401C1542D5582C2, .iaddc ⟨.mask 0 false, .main 7, .main 21, .lane, .imm10 0x155, .n32, .rn, 2⟩),
  (0x2501C1542C008C00, .imulA ⟨.mask 1 true, .main 7, .main 21, .lane, .spec (.main 0), .s8, .rn, 0⟩),
  (0x2601C15123456782, .imulW ⟨.main 7, .main 21, 0x12345678, .s32⟩),
  (0x2701C1542C009C40, .imulh ⟨.mask 3 true, .main 7, .main 21, .lane, .spec (.main 0), .s32, .rn, 0⟩),
  (0x2801C1542D55A2A0, .imadA ⟨.mask 4 false, .main 7, .main 21, .lane, .imm10 0x155, .n16, .rn, 0⟩),
  (0x2901C15FFFFFFFF6, .imadW ⟨.main 7, .main 21, 0xFFFFFFFF, .n32⟩),
  (0x2A0181542D55B240, .imadw ⟨.mask 6 false, .main 6, .main 21, .lane, .imm10 0x155, .s32, .rn, 0⟩),
  (0x2B01C1542C00BC20, .idiv ⟨.mask 7 true, .main 7, .main 21, .lane, .spec (.main 0), .s16, .rn, 0⟩),
  (0x2C01C1542C00C080, .irem ⟨.mask 8 false, .main 7, .main 21, .lane, .spec (.main 0), .n8, .rn, 0⟩),
  (0x2D01C1542C00CC40, .iminA ⟨.mask 9 true, .main 7, .main 21, .lane, .spec (.main 0), .s32, .rn, 0⟩),
  (0x2E01C1500007FFF5, .iminW ⟨.main 7, .main 21, 0x7FFF, .n16⟩),
  (0x2F01C1542C00DC00, .imaxA ⟨.mask 11 true, .main 7, .main 21, .lane, .spec (.main 0), .s8, .rn, 0⟩),
  (0x3001C15FFFF80002, .imaxW ⟨.main 7, .main 21, 0xFFFF8000, .s32⟩),
  (0x3101C15000008C21, .iabs ⟨.mask 1 true, .main 7, .main 21, .main 0, .spec (.main 0), .s16, .rn, 1⟩),
  (0x3201C15000009041, .ineg ⟨.mask 2 false, .main 7, .main 21, .main 0, .spec (.main 0), .s32, .rn, 1⟩),
  (0x3301C1542C009C80, .andA ⟨.mask 3 true, .main 7, .main 21, .lane, .spec (.main 0), .n8, .rn, 0⟩),
  (0x3401C15FF00FF006, .andW ⟨.main 7, .main 21, 0xFF00FF00, .n32⟩),
  (0x3501C1542C00ACA0, .orA ⟨.mask 5 true, .main 7, .main 21, .lane, .spec (.main 0), .n16, .rn, 0⟩),
  (0x3601C15800000006, .orW ⟨.main 7, .main 21, 0x80000000, .n32⟩),
  (0x3701C1542C00BCC0, .xorA ⟨.mask 7 true, .main 7, .main 21, .lane, .spec (.main 0), .n32, .rn, 0⟩)] ++ [
  (0x3801C150000FFFF5, .xorW ⟨.main 7, .main 21, 0xFFFF, .n16⟩),
  (0x3901C1500000CC80, .notA ⟨.mask 9 true, .main 7, .main 21, .main 0, .spec (.main 0), .n8, .rn, 0⟩),
  (0x3A01C1542D55D3D1, .lop3 ⟨.mask 10 false, .main 7, .main 21, .lane, .imm10 0x155, 0xE8, true⟩),
  (0x3B01C1542C00DCC0, .shl ⟨.mask 11 true, .main 7, .main 21, .lane, .spec (.main 0), .n32, .rn, 0⟩),
  (0x3C01C1542C0080C0, .shr ⟨.mask 0 false, .main 7, .main 21, .lane, .spec (.main 0), .n32, .rn, 0⟩),
  (0x3D01C1542C008C40, .sar ⟨.mask 1 true, .main 7, .main 21, .lane, .spec (.main 0), .s32, .rn, 0⟩),
  (0x3E01C1542C0090C1, .rot ⟨.mask 2 false, .main 7, .main 21, .lane, .spec (.main 0), .n32, .rn, 1⟩),
  (0x3F01C1542D559EC1, .shf ⟨.mask 3 true, .main 7, .main 21, .lane, .imm10 0x155, .n32, .rn, 1⟩),
  (0x4001C1500000A0C0, .popc ⟨.mask 4 false, .main 7, .main 21, .main 0, .spec (.main 0), .n32, .rn, 0⟩),
  (0x4101C1500000ACC0, .clz ⟨.mask 5 true, .main 7, .main 21, .main 0, .spec (.main 0), .n32, .rn, 0⟩),
  (0x4201C1500000B0C0, .ctz ⟨.mask 6 false, .main 7, .main 21, .main 0, .spec (.main 0), .n32, .rn, 0⟩),
  (0x4301C1500000BCC0, .brev ⟨.mask 7 true, .main 7, .main 21, .main 0, .spec (.main 0), .n32, .rn, 0⟩),
  (0x4401C1542D55C240, .bfe ⟨.mask 8 false, .main 7, .main 21, .lane, .imm10 0x155, .s32, .rn, 0⟩),
  (0x4501C1542D55CEC0, .bfi ⟨.mask 9 true, .main 7, .main 21, .lane, .imm10 0x155, .n32, .rn, 0⟩),
  (0x4601C1542D55D2C0, .prmt ⟨.mask 10 false, .main 7, .main 21, .lane, .imm10 0x155, .n32, .rn, 0⟩),
  (0x4701C1542C00DCC6, .isetA ⟨.mask 11 true, .main 7, .main 21, .lane, .spec (.main 0), .n32, .rn, 6⟩),
  (0x4801C15000000102, .isetW ⟨.main 7, .main 21, 0x10, .s32⟩),
  (0x4901812039558EE0, .isel ⟨.mask 1 true, .main 6, .main 18, .main 14, .imm10 0x155, .n64, .rn, 0⟩),
  (0x4A018120000090E0, .mov ⟨.mask 2 false, .main 6, .main 18, .main 0, .spec (.main 0), .n64, .rn, 0⟩),
  (0x4B01800800000003, .movi ⟨.main 6, .main 0, 0x80000000, .s64⟩),
  (0x4C8501242C00A0E0, .movg ⟨.mask 4 false, .g 20, .main 18, .lane, .spec (.main 0), .n64, .rn, 0⟩),
  (0x4D0181242C00AC47, .lea ⟨.mask 5 true, .main 6, .main 18, .lane, .spec (.main 0), .s32, .rn, 7⟩),
  (0x4E0181203800B061, .iadd64 ⟨.mask 6 false, .main 6, .main 18, .main 14, .spec (.main 0), .s64, .rn, 1⟩),
  (0x4F01C1542D55BE81, .idot4 ⟨.mask 7 true, .main 7, .main 21, .lane, .imm10 0x155, .n8, .rn, 1⟩)]

theorem test_decode_integer : decodesTo wordsInteger = true := by decide +kernel

def wordsFloat : List (Nat × Instr) := [
  (0x5001C1542C00C111, .faddA ⟨.mask 8 false, .main 7, .main 21, .lane, .spec (.main 0), .f32, .ru, 1⟩),
  (0x5101C153F8000008, .faddW ⟨.main 7, .main 21, 0x3F800000, .f32⟩),
  (0x5201C1542C00D108, .fsub ⟨.mask 10 false, .main 7, .main 21, .lane, .spec (.main 0), .f32, .rz, 0⟩),
  (0x5301C1542C00DD19, .fmulA ⟨.mask 11 true, .main 7, .main 21, .lane, .spec (.main 0), .f32, .rd, 1⟩),
  (0x5401C15C00000008, .fmulW ⟨.main 7, .main 21, 0xC0000000, .f32⟩),
  (0x5501C1542F5A8D09, .ffmaA ⟨.mask 1 true, .main 7, .main 21, .lane, .spec (.imm 0x5A), .f32, .rz, 1⟩),
  (0x5601C157F8000008, .ffmaW ⟨.main 7, .main 21, 0x7F800000, .f32⟩),
  (0x5701C1542C009D01, .fminA ⟨.mask 3 true, .main 7, .main 21, .lane, .spec (.main 0), .f32, .rn, 1⟩),
  (0x5801C15800000008, .fminW ⟨.main 7, .main 21, 0x80000000, .f32⟩),
  (0x5901C1542C00AD00, .fmaxA ⟨.mask 5 true, .main 7, .main 21, .lane, .spec (.main 0), .f32, .rn, 0⟩),
  (0x5A01C15000000018, .fmaxW ⟨.main 7, .main 21, 0x00000001, .f32⟩),
  (0x5B01C1542C00BD07, .fsetA ⟨.mask 7 true, .main 7, .main 21, .lane, .spec (.main 0), .f32, .rn, 7⟩),
  (0x5C01C1542F600008, .fsetW ⟨.main 7, .main 21, 0x42F60000, .f32⟩),
  (0x5D01C1500000CD40, .fclass ⟨.mask 9 true, .main 7, .main 21, .main 0, .spec (.main 0), .bf16, .rn, 0⟩),
  (0x5E01C1500000D108, .frcp ⟨.mask 10 false, .main 7, .main 21, .main 0, .spec (.main 0), .f32, .rz, 0⟩),
  (0x5F01C1500000DD00, .frsq ⟨.mask 11 true, .main 7, .main 21, .main 0, .spec (.main 0), .f32, .rn, 0⟩)] ++ [
  (0x6001C15000008110, .fsqrt ⟨.mask 0 false, .main 7, .main 21, .main 0, .spec (.main 0), .f32, .ru, 0⟩),
  (0x6101C1542C008D18, .fdiv ⟨.mask 1 true, .main 7, .main 21, .lane, .spec (.main 0), .f32, .rd, 0⟩),
  (0x6201C15000009100, .fexp2 ⟨.mask 2 false, .main 7, .main 21, .main 0, .spec (.main 0), .f32, .rn, 0⟩),
  (0x6301C15000009D00, .flog2 ⟨.mask 3 true, .main 7, .main 21, .main 0, .spec (.main 0), .f32, .rn, 0⟩),
  (0x6401C1500000A100, .fsin ⟨.mask 4 false, .main 7, .main 21, .main 0, .spec (.main 0), .f32, .rn, 0⟩),
  (0x6501C1500000AD00, .fcos ⟨.mask 5 true, .main 7, .main 21, .main 0, .spec (.main 0), .f32, .rn, 0⟩),
  (0x6601C1500000B100, .ftanh ⟨.mask 6 false, .main 7, .main 21, .main 0, .spec (.main 0), .f32, .rn, 0⟩),
  (0x6701C1542C00BD21, .hadd2 ⟨.mask 7 true, .main 7, .main 21, .lane, .spec (.main 0), .f16, .rn, 1⟩),
  (0x6801C1542C00C128, .hmul2 ⟨.mask 8 false, .main 7, .main 21, .lane, .spec (.main 0), .f16, .rz, 0⟩),
  (0x6901C1542F5ACD30, .hfma2 ⟨.mask 9 true, .main 7, .main 21, .lane, .spec (.imm 0x5A), .f16, .ru, 0⟩),
  (0x6A01C1542C00D123, .hmnmx2 ⟨.mask 10 false, .main 7, .main 21, .lane, .spec (.main 0), .f16, .rn, 3⟩),
  (0x6B01C1542F5ADD59, .bfma2 ⟨.mask 11 true, .main 7, .main 21, .lane, .spec (.imm 0x5A), .bf16, .rd, 1⟩),
  (0x6C01C1542F088131, .cvt ⟨.mask 0 false, .main 7, .main 21, .lane, .f32, .f16, .ru, false, false, true⟩),
  (0x6D01040C08218D8C, .cvtq ⟨.mask 1 true, .main 4, .main 64, .imm 2, .main 33, .e2m1, .rz, .had32⟩),
  (0x6E01C1542C009123, .cvtd ⟨.mask 2 false, .main 7, .main 21, .lane, .spec (.main 0), .f16, .rn, 3⟩),
  (0x6F01C15000009D18, .frnd ⟨.mask 3 true, .main 7, .main 21, .main 0, .spec (.main 0), .f32, .rd, 0⟩),
  (0x7001C1542C00A108, .fscale ⟨.mask 4 false, .main 7, .main 21, .lane, .spec (.main 0), .f32, .rz, 0⟩)]

theorem test_decode_float : decodesTo wordsFloat = true := by decide +kernel

def wordsLane : List (Nat × Instr) := [
  (0x800181242E47C0E4, .shfl ⟨.mask 8 false, .main 6, .main 18, .lane, .spec (.k 7), .n64, .rn, 4⟩),
  (0x8101C1542E47CCD6, .shflx ⟨.mask 9 true, .main 7, .main 21, .lane, .k 7, .n32, 2, 6⟩),
  (0x820181242E47D0E0, .bcast ⟨.mask 10 false, .main 6, .main 18, .lane, .spec (.k 7), .n64, .rn, 0⟩),
  (0x830181500247DCC0, .vote ⟨.mask 11 true, .main 6, .main 21, .main 0, .spec (.k 7), .n32, .rn, 0⟩),
  (0x8401812002478065, .redux ⟨.mask 0 false, .main 6, .main 18, .main 0, .spec (.k 7), .s64, .rn, 5⟩),
  (0x8501C15002478D10, .fredux ⟨.mask 1 true, .main 7, .main 21, .main 0, .spec (.k 7), .f32, .ru, 0⟩),
  (0x8601C15002479046, .scan ⟨.mask 2 false, .main 7, .main 21, .main 0, .spec (.k 7), .s32, .rn, 6⟩),
  (0x8701812002479CE0, .laneMatch ⟨.mask 3 true, .main 6, .main 18, .main 0, .spec (.k 7), .n64, .rn, 0⟩)]

theorem test_decode_lane : decodesTo wordsLane = true := by decide +kernel

def wordsMemory : List (Nat × Instr) := [
  (0x9040A21FFFF08340, .ldB8 ⟨.mask 0 false, .q 2, .g 33, 0xFFFF0, true, .vol, .system, 0⟩),
  (0x9140A21FFFF08F41, .ldB16 ⟨.mask 1 true, .q 2, .g 33, 0xFFFF0, true, .vol, .system, 1⟩),
  (0x9240A21FFFF09340, .ldB32 ⟨.mask 2 false, .q 2, .g 33, 0xFFFF0, true, .vol, .system, 0⟩),
  (0x9302A21FFFF09F41, .ldB64 ⟨.mask 3 true, .main 10, .g 33, 0xFFFF0, true, .vol, .system, 1⟩),
  (0x9403221FFFF0A340, .ldB128 ⟨.mask 4 false, .main 12, .g 33, 0xFFFF0, true, .vol, .system, 0⟩),
  (0x950262100008AC91, .stB8 ⟨.mask 5 true, .main 9, .g 33, 0x00008, false, .strong, .team, 1⟩),
  (0x960262100008B090, .stB16 ⟨.mask 6 false, .main 9, .g 33, 0x00008, false, .strong, .team, 0⟩),
  (0x970262100008BC91, .stB32 ⟨.mask 7 true, .main 9, .g 33, 0x00008, false, .strong, .team, 1⟩),
  (0x9802A2100008C090, .stB64 ⟨.mask 8 false, .main 10, .g 33, 0x00008, false, .strong, .team, 0⟩),
  (0x990322100008CC91, .stB128 ⟨.mask 9 true, .main 12, .g 33, 0x00008, false, .strong, .team, 1⟩),
  (0x9A40A2100100D0A0, .ldlB8 ⟨.mask 10 false, .q 2, .g 33, 0x00100, false, .strong, .cluster, 0⟩),
  (0x9B40A2100100DCA0, .ldlB16 ⟨.mask 11 true, .q 2, .g 33, 0x00100, false, .strong, .cluster, 0⟩),
  (0x9C40A210010080A0, .ldlB32 ⟨.mask 0 false, .q 2, .g 33, 0x00100, false, .strong, .cluster, 0⟩),
  (0x9D02A21001008CA0, .ldlB64 ⟨.mask 1 true, .main 10, .g 33, 0x00100, false, .strong, .cluster, 0⟩),
  (0x9E032210010090A0, .ldlB128 ⟨.mask 2 false, .main 12, .g 33, 0x00100, false, .strong, .cluster, 0⟩),
  (0x9F026217FFF09E00, .stlB8 ⟨.mask 3 true, .main 9, .g 33, 0x7FFF0, true, .weak, .thread, 0⟩),
  (0xA0026217FFF0A200, .stlB16 ⟨.mask 4 false, .main 9, .g 33, 0x7FFF0, true, .weak, .thread, 0⟩),
  (0xA1026217FFF0AE00, .stlB32 ⟨.mask 5 true, .main 9, .g 33, 0x7FFF0, true, .weak, .thread, 0⟩),
  (0xA202A217FFF0B200, .stlB64 ⟨.mask 6 false, .main 10, .g 33, 0x7FFF0, true, .weak, .thread, 0⟩),
  (0xA3032217FFF0BE00, .stlB128 ⟨.mask 7 true, .main 12, .g 33, 0x7FFF0, true, .weak, .thread, 0⟩),
  (0xA40322100040C0B0, .ldt ⟨.mask 8 false, .main 12, .g 33, 0x00040, false, .strong, .device, 0⟩)] ++ [
  (0xA501C1242F5ACC00, .wmap ⟨.mask 9 true, .main 7, .main 18, .lane, .imm 0x5A, 0⟩),
  (0xA60001500000D000, .wunmap ⟨.mask 10 false, .main 0, .main 21, .main 0, .main 0, 0⟩),
  (0xA70001500000DC00, .wsync ⟨.mask 11 true, .main 0, .main 21, .main 0, .main 0, 0⟩),
  (0xA800000000008001, .winv ⟨.mask 0 false, .main 0, .main 0, .main 0, .main 0, 1⟩),
  (0xA901815000008C00, .wquery ⟨.mask 1 true, .main 6, .main 21, .main 0, .main 0, 0⟩),
  (0xAA01E2142C009122, .atomB32 ⟨.mask 2 false, .main 7, .g 33, .lane, .main 0, .system, .f, .max⟩),
  (0xAB01A21038029CD7, .atomB64 ⟨.mask 3 true, .main 6, .g 33, .main 14, .main 2, .device, .n, .cas⟩),
  (0xAC01E2142C00A059, .atomlB32 ⟨.mask 4 false, .main 7, .g 33, .lane, .main 0, .team, .n, .dec⟩),
  (0xAD01A2103800AC81, .atomlB64 ⟨.mask 5 true, .main 6, .g 33, .main 14, .main 0, .cluster, .s, .min⟩),
  (0xAE0022142C00B055, .redB32 ⟨.mask 6 false, .main 0, .g 33, .lane, .main 0, .team, .n, .xor⟩),
  (0xAF0022103800BD00, .redB64 ⟨.mask 7 true, .main 0, .g 33, .main 14, .main 0, .system, .s, .add⟩),
  (0xB00000000000C004, .fence ⟨.mask 8 false, .main 0, .main 0, 0, 4⟩),
  (0xB10022180000CC01, .pref ⟨.mask 9 true, .main 0, .g 33, 0x80000, false, .weak, .thread, 1⟩),
  (0xB205A2142C00D002, .survey ⟨.mask 10 false, .main 22, .g 33, .lane, .main 0, 2⟩),
  (0xB301E2100000DC00, .probe ⟨.mask 11 true, .main 7, .g 33, .main 0, .main 0, 0⟩),
  (0xB40022142C008000, .discard ⟨.mask 0 false, .main 0, .g 33, .lane, .main 0, 0⟩),
  (0xB501C1542C008C00, .sealRange ⟨.mask 1 true, .main 7, .main 21, .lane, .main 0, 0⟩),
  (0xB600015000009000, .unsealRange ⟨.mask 2 false, .main 0, .main 21, .main 0, .main 0, 0⟩),
  (0xB700221000209CC0, .stag ⟨.mask 3 true, .main 0, .g 33, 0x00020, false, .strong, .system, 0⟩),
  (0xB801E2100030A0B0, .ltag ⟨.mask 4 false, .main 7, .g 33, 0x00030, false, .strong, .device, 0⟩),
  (0xB900221FFFFFAC02, .cctl ⟨.mask 5 true, .main 0, .g 33, 0xFFFFF, false, .weak, .thread, 2⟩)]

theorem test_decode_memory : decodesTo wordsMemory = true := by decide +kernel

def wordsAsync : List (Nat × Instr) := [
  (0xC00001542C008180, .barinit ⟨.mask 0 false, .main 0, .main 21, .lane, true, true⟩),
  (0xC101C15000008C00, .bararv ⟨.mask 1 true, .main 7, .main 21, .main 0, false, false⟩),
  (0xC20001542C009000, .barwait ⟨.mask 2 false, .main 0, .main 21, .lane, false, false⟩),
  (0xC30001542C009C00, .barexp ⟨.mask 3 true, .main 0, .main 21, .lane, false, false⟩),
  (0xC401C1542C00A000, .bartry ⟨.mask 4 false, .main 7, .main 21, .lane, false, false⟩),
  (0xC50022142F5AFF14, .cpyG2l ⟨.g 33, .lane, .imm 0x5A, (some 63), (some 5)⟩),
  (0xC6000150A35A01FC, .cpyL2g ⟨.main 21, .main 40, .imm 0x5A, none, (some 63)⟩),
  (0xC70001542F5A8200, .cpyL2l ⟨.main 21, .lane, .imm 0x5A, (some 1), none⟩),
  (0xC80022142F5A8F20, .cpyg ⟨.g 33, .lane, .imm 0x5A, (some 7), (some 8)⟩),
  (0xC9000150A35A0100, .cpys ⟨.main 21, .main 40, .imm 0x5A, none, (some 0)⟩),
  (0xCA0181200000D000, .tagwaitAny ⟨.mask 10 false, .main 6, .main 18, .main 0, .main 0, 0⟩),
  (0xCB0181200000DC00, .tagwaitAll ⟨.mask 11 true, .main 6, .main 18, .main 0, .main 0, 0⟩),
  (0xCC01C12000008000, .tagfirst ⟨.mask 0 false, .main 7, .main 18, .main 0, .main 0, 0⟩),
  (0xCD00012000008C00, .tagclr ⟨.mask 1 true, .main 0, .main 18, .main 0, .main 0, 0⟩)]

theorem test_decode_async : decodesTo wordsAsync = true := by decide +kernel

def wordsMatrix : List (Nat × Instr) := [
  (0xD008A2142C329000, .mmaF16 ⟨1, 2, .g 33, .lane, .main 50, true, false, false, .had32, 0⟩),
  (0xD1FF8150A0326000, .mmaBf16 ⟨31, 30, .main 21, .main 40, .main 50, false, true, true, .none, 0⟩),
  (0xD22141542C320800, .mmaVt8 ⟨4, 5, .main 21, .lane, .main 50, false, false, false, .had16, 0⟩),
  (0xD331C1542C320000, .mmaS8 ⟨6, 7, .main 21, .lane, .main 50, false, false, false, .none, 0⟩),
  (0xD4426210A032C000, .mmaN8 ⟨8, 9, .g 33, .main 40, .main 50, true, true, false, .none, 0⟩),
  (0xD552C1542C322E00, .mmas ⟨10, 11, .main 21, .lane, .main 50, false, false, true, .had16, 3⟩),
  (0xD6E8000000000000, .mzero ⟨29, 0, .main 0, .main 0, .main 0, false, false, false, none⟩),
  (0xD71801542C00A000, .mldt ⟨3, 0, .main 21, .lane, .main 0, .bf16, false, false, none⟩),
  (0xD80701542C009124, .mstt ⟨0, 28, .main 21, .lane, .main 0, .f16, false, false, (some 9)⟩),
  (0xD9016210035ABDF8, .mdrain ⟨0, 5, .g 33, .main 0, .imm 0x5A, .vt8, true, true, (some 62)⟩),
  (0xDA0001742C000000, .malloc ⟨0, 0, .main 23, .lane, .main 0, false, false, false, none⟩),
  (0xDB0000042C000000, .mfree ⟨0, 0, .main 0, .lane, .main 0, false, false, false, none⟩),
  (0xDC00015000000000, .grbind ⟨0, 0, .main 21, .main 0, .main 0, false, false, false, none⟩),
  (0xDD0001542C00E184, .greval ⟨0, 0, .main 21, .lane, .main 0, true, true, true, (some 33)⟩),
  (0xDE0001E000000000, .grstat ⟨0, 0, .main 30, .main 0, .main 0, false, false, false, none⟩),
  (0xDF0001542F5A0108, .nzscan ⟨0, 0, .main 21, .lane, .imm 0x5A, false, false, false, (some 2)⟩)]

theorem test_decode_matrix : decodesTo wordsMatrix = true := by decide +kernel

def wordsSystem : List (Nat × Instr) := [
  (0xF001812038008000, .launch ⟨.mask 0 false, .main 6, .main 18, .main 14, .main 0, 0⟩),
  (0xF101800000008C00, .snap ⟨.mask 1 true, .main 6, .main 0, 0, 0⟩),
  (0xF201815000009000, .edstat ⟨.mask 2 false, .main 6, .main 21, 0, 0⟩),
  (0xF301815000009C00, .sreadA ⟨.mask 3 true, .main 6, .main 21, .main 0, .main 0, 0⟩),
  (0xF40180000012A000, .sreadS ⟨.mask 4 false, .main 6, .main 0, 0x00012, 0⟩),
  (0xF50001503800AC00, .swriteA ⟨.mask 5 true, .main 0, .main 21, .main 14, .main 0, 0⟩),
  (0xF600012F0001B000, .swriteS ⟨.mask 6 false, .main 0, .main 18, 0xF0001, 0⟩),
  (0xF70180000000BC01, .clock ⟨.mask 7 true, .main 6, .main 0, 0, 1⟩),
  (0xF80001254321C001, .stamp ⟨.mask 8 false, .main 0, .main 18, 0x54321, 1⟩),
  (0xF901C00001000001, .regq ⟨.always, .main 7, .main 0, 0x00100, 1⟩),
  (0xFA0001200042D000, .signal ⟨.mask 10 false, .main 0, .main 18, 0x00042, 0⟩),
  (0xFB0000000007DC00, .halt ⟨.mask 11 true, .main 0, .main 0, 0x00007, 0⟩)]

theorem test_decode_system : decodesTo wordsSystem = true := by decide +kernel

/-- The worked words of the specification: `IADD.s32 v6, v6, lane`, a weak load, a store and a backward branch; and a reserved opcode (R92). -/
theorem test_decode_worked :
    decodesTo [
      (0x200180642C000040, .iaddA ⟨.always, .main 6, .main 6, .lane, .spec (.main 0), .s32, .rn, 0⟩),
      (0x9201804000000200, .ldB32 ⟨.always, .main 6, .main 4, 0, true, .weak, .thread, 0⟩),
      (0x9701804001000000, .stB32 ⟨.always, .main 6, .main 4, 0x00100, false, .weak, .thread, 0⟩),
      (0x0100000FFFE80080, .bra ⟨.always, .main 0, .main 0, 0xFFFE8, 2, false⟩),
      (0x1300000000000001, .reservedOpcodeIssue 0x1300000000000001)] = true := by decide +kernel

/-- Why a word is no instruction. -/
def errorOf (w : Nat) : Option DecodeError :=
  match decodeWord (BitVec.ofNat 64 w) with
  | .ok _ => none
  | .error e => some e

/-- Words that are no instruction, each with its reason: a reserved index (R78), the guard field (R81), a reserved TYPE code (R83), a reserved class
and scope (R85), an undefined bit (R93), a setting that the entry does not allow (R79), a nonzero word of opcode 0x00 (R275). -/
theorem test_decode_refuses :
    [(0x200180642C0C0040 + 0x0100 * 2 ^ 16, DecodeError.reservedIndex), (0x200180642C000040 + 2 ^ 10, .reservedGuard),
     (0x200180642C000040 + 2 ^ 15 + 12 * 2 ^ 11, .reservedGuard), (0x200180642C0001C0, .reservedType), (0x9201804000000380, .reservedCode),
     (0x9201804000000250, .reservedCode), (0x0C00000000000008, .undefinedBit), (0x200180642C000042, .outsideEntry),
     (0x200180642C000048, .outsideEntry)].all (fun p => errorOf p.1 == some p.2) = true := by decide +kernel

/-! ### Well-formedness

For each layout an instruction word with every field 0; a term changes the fields that its entry needs and then breaks one check. -/

def wFA : FA := ⟨.always, .main 0, .main 0, .main 0, .spec (.main 0), .n32, .rn, 0⟩
def wFSub : FSub := ⟨.always, .main 0, .main 0, .main 0, .main 0, 0⟩
def wFW : FW := ⟨.main 0, .main 0, 0, .n32⟩
def wFWM : FWM := ⟨.main 0, .main 0, 0, .lo⟩
def wFLop : FLop := ⟨.always, .main 0, .main 0, .main 0, .spec (.main 0), 0, false⟩
def wFShx : FShx := ⟨.always, .main 0, .main 0, .main 0, .main 0, .n32, 0, 0⟩
def wFCvt : FCvt := ⟨.always, .main 0, .main 0, .main 0, .f32, .f32, .rn, false, false, false⟩
def wFCvq : FCvq := ⟨.always, .main 0, .main 0, .main 0, .main 0, .n32, .rn, .none⟩
def wFM : FM := ⟨.always, .main 0, .main 0, 0, false, .weak, .thread, 0⟩
def wFAt : FAt := ⟨.always, .main 0, .main 0, .main 0, .main 0, .thread, .n, .add⟩
def wFBar : FBar := ⟨.always, .main 0, .main 0, .main 0, false, false⟩
def wFCpy : FCpy := ⟨.main 0, .main 0, .main 0, none, none⟩
def wFMma : FMma := ⟨0, 0, .main 0, .main 0, .main 0, false, false, false, .none, 0⟩
def wFTile : FTile := ⟨0, 0, .main 0, .main 0, .main 0, .n32, false, false, none⟩
def wFEng : FEng := ⟨0, 0, .main 0, .main 0, .main 0, false, false, false, none⟩
def wFB : FB := ⟨.always, .main 0, .main 0, 0, 0, false⟩
def wFS : FS := ⟨.always, .main 0, .main 0, 0, 0⟩

def illControl0 : List Instr := [
    .bra { wFB with d := .main 1 }, .bra { wFB with a := .main 1 }, .bra { wFB with z := true }, .brc { wFB with d := .main 1 },
    .brx { wFSub with d := .main 1 }, .brx { wFSub with a := .main 1 }, .brx { wFSub with a := .zero }, .brx { wFSub with b := .main 1 },
    .brx { wFSub with c := .main 1 }, .brx { wFSub with sub := 1 }, .call { wFB with d := .main 1 }, .call { wFB with d := .q 0 },
    .call { wFB with a := .main 1 }, .call { wFB with z := true }, .callx { wFSub with d := .main 1 }, .callx { wFSub with d := .q 0 },
    .callx { wFSub with a := .main 1 }, .callx { wFSub with a := .zero }, .callx { wFSub with b := .main 1 }, .callx { wFSub with c := .main 1 },
    .callx { wFSub with sub := 1 }, .exit { wFSub with d := .main 1 }, .exit { wFSub with a := .main 1 }, .exit { wFSub with b := .main 1 }]

def illControl1 : List Instr := [
    .exit { wFSub with c := .main 1 }, .exit { wFSub with sub := 1 }, .join { wFSub with d := .main 1, a := .k 0 }, .join wFSub,
    .join { wFSub with a := .k 0, b := .main 1 }, .join { wFSub with a := .k 0, c := .main 1 }, .join { wFSub with a := .k 0, sub := 1 },
    .mksetA wFSub, .mksetA { wFSub with d := .k 0, b := .main 1 }, .mksetA { wFSub with d := .k 0, c := .main 1 },
    .mksetA { wFSub with d := .k 0, sub := 2 }, .mksetA { wFSub with d := .k 0, a := .main 1, sub := 1 }, .mksetW wFWM,
    .mksetW { wFWM with d := .k 0, a := .main 1 }, .mklop wFSub, .mklop { wFSub with d := .k 0, a := .main 1 },
    .mklop { wFSub with d := .k 0, b := .main 1 }, .mklop { wFSub with d := .k 0, c := .main 1 }, .mklop { wFSub with d := .k 0, sub := 7 },
    .mklop { wFSub with d := .k 0, a := .main 2, sub := 6 }, .mklop { wFSub with d := .k 0, b := .main 2, sub := 4 },
    .mkcnt { wFSub with d := .lane }, .mkcnt { wFSub with d := .k 0 }, .mkcnt { wFSub with a := .main 1 }]

def illControl2 : List Instr := [
    .mkcnt { wFSub with b := .main 1 }, .mkcnt { wFSub with c := .main 1 }, .mkcnt { wFSub with sub := 2 }, .mklane { wFSub with d := .lane },
    .mklane { wFSub with d := .k 0 }, .mklane { wFSub with a := .main 1 }, .mklane { wFSub with b := .main 1 }, .mklane { wFSub with c := .main 1 },
    .mklane { wFSub with sub := 4 }, .mklane { wFSub with b := .main 2, sub := 1 }, .trap { wFS with d := .main 1 },
    .trap { wFS with a := .main 1 }, .trap { wFS with mode := 1 }, .bpt { wFS with d := .main 1 }, .bpt { wFS with a := .main 1 },
    .bpt { wFS with mode := 1 }]

theorem test_wf_refuses_control : ([illControl0, illControl1, illControl2].all fun l => l.all fun i => !i.wf) = true := by decide +kernel

def illInteger0 : List Instr := [
    .iaddA { wFA with d := .lane, ty := .s8 }, .iaddA { wFA with d := .k 0, ty := .s8 }, .iaddA { wFA with c := .spec (.main 1), ty := .s8 },
    .iaddA { wFA with c := .imm10 0, ty := .s8 }, .iaddA { wFA with ty := .e8m0 }, .iaddA { wFA with ty := .s8, sub := 2 },
    .iaddA { wFA with ty := .s8, rnd := .rz }, .iaddW { wFW with d := .lane, ty := .s8 }, .iaddW { wFW with d := .k 0, ty := .s8 },
    .iaddW { wFW with ty := .e8m0 }, .iaddc { wFA with d := .lane }, .iaddc { wFA with d := .k 0 }, .iaddc { wFA with ty := .e8m0 },
    .iaddc { wFA with sub := 4 }, .iaddc { wFA with rnd := .rz }, .imulA { wFA with d := .lane, ty := .s8 },
    .imulA { wFA with d := .k 0, ty := .s8 }, .imulA { wFA with c := .spec (.main 1), ty := .s8 }, .imulA { wFA with c := .imm10 0, ty := .s8 },
    .imulA { wFA with ty := .e8m0 }, .imulA { wFA with ty := .s8, sub := 1 }, .imulA { wFA with ty := .s8, rnd := .rz },
    .imulh { wFA with d := .lane, ty := .s32 }, .imulh { wFA with d := .k 0, ty := .s32 }]

def illInteger1 : List Instr := [
    .imulh { wFA with c := .spec (.main 1), ty := .s32 }, .imulh { wFA with c := .imm10 0, ty := .s32 }, .imulh { wFA with ty := .e8m0 },
    .imulh { wFA with ty := .s32, sub := 1 }, .imulh { wFA with ty := .s32, rnd := .rz }, .imadA { wFA with d := .lane, ty := .s8 },
    .imadA { wFA with d := .k 0, ty := .s8 }, .imadA { wFA with ty := .e8m0 }, .imadA { wFA with ty := .s8, sub := 1 },
    .imadA { wFA with ty := .s8, rnd := .rz }, .imadw { wFA with d := .main 1, ty := .s32 }, .imadw { wFA with d := .q 0, ty := .s32 },
    .imadw { wFA with c := .spec (.main 1), ty := .s32 }, .imadw { wFA with ty := .e8m0 }, .imadw { wFA with ty := .s32, sub := 1 },
    .imadw { wFA with ty := .s32, rnd := .rz }, .iabs { wFA with d := .lane, ty := .s8 }, .iabs { wFA with d := .k 0, ty := .s8 },
    .iabs { wFA with b := .main 1, ty := .s8 }, .iabs { wFA with c := .spec (.main 1), ty := .s8 }, .iabs { wFA with c := .imm10 0, ty := .s8 },
    .iabs { wFA with ty := .e8m0 }, .iabs { wFA with ty := .s8, sub := 2 }, .iabs { wFA with ty := .s8, rnd := .rz }]

def illInteger2 : List Instr := [
    .ineg { wFA with d := .lane, ty := .s8 }, .ineg { wFA with d := .k 0, ty := .s8 }, .ineg { wFA with b := .main 1, ty := .s8 },
    .ineg { wFA with c := .spec (.main 1), ty := .s8 }, .ineg { wFA with c := .imm10 0, ty := .s8 }, .ineg { wFA with ty := .e8m0 },
    .ineg { wFA with ty := .s8, sub := 2 }, .ineg { wFA with ty := .s8, rnd := .rz }, .ineg { wFA with sub := 1 },
    .andA { wFA with d := .lane, ty := .n8 }, .andA { wFA with d := .k 0, ty := .n8 }, .andA { wFA with c := .spec (.main 1), ty := .n8 },
    .andA { wFA with c := .imm10 0, ty := .n8 }, .andA { wFA with ty := .e8m0 }, .andA { wFA with ty := .n8, sub := 1 },
    .andA { wFA with ty := .n8, rnd := .rz }, .andW { wFW with d := .lane, ty := .n8 }, .andW { wFW with d := .k 0, ty := .n8 },
    .andW { wFW with ty := .e8m0 }, .notA { wFA with d := .lane, ty := .n8 }, .notA { wFA with d := .k 0, ty := .n8 },
    .notA { wFA with b := .main 1, ty := .n8 }, .notA { wFA with c := .spec (.main 1), ty := .n8 }, .notA { wFA with c := .imm10 0, ty := .n8 }]

def illInteger3 : List Instr := [
    .notA { wFA with ty := .e8m0 }, .notA { wFA with ty := .n8, sub := 1 }, .notA { wFA with ty := .n8, rnd := .rz },
    .lop3 { wFLop with d := .lane }, .lop3 { wFLop with d := .k 0 }, .shl { wFA with d := .lane }, .shl { wFA with d := .k 0 },
    .shl { wFA with c := .spec (.main 1) }, .shl { wFA with c := .imm10 0 }, .shl { wFA with ty := .e8m0 }, .shl { wFA with sub := 1 },
    .shl { wFA with rnd := .rz }, .sar { wFA with d := .lane, ty := .s32 }, .sar { wFA with d := .k 0, ty := .s32 },
    .sar { wFA with c := .spec (.main 1), ty := .s32 }, .sar { wFA with c := .imm10 0, ty := .s32 }, .sar { wFA with ty := .e8m0 },
    .sar { wFA with ty := .s32, sub := 1 }, .sar { wFA with ty := .s32, rnd := .rz }, .rot { wFA with d := .lane }, .rot { wFA with d := .k 0 },
    .rot { wFA with c := .spec (.main 1) }, .rot { wFA with c := .imm10 0 }, .rot { wFA with ty := .e8m0 }]

def illInteger4 : List Instr := [
    .rot { wFA with sub := 2 }, .rot { wFA with rnd := .rz }, .shf { wFA with d := .lane }, .shf { wFA with d := .k 0 },
    .shf { wFA with ty := .e8m0 }, .shf { wFA with sub := 2 }, .shf { wFA with rnd := .rz }, .popc { wFA with d := .lane },
    .popc { wFA with d := .k 0 }, .popc { wFA with b := .main 1 }, .popc { wFA with c := .spec (.main 1) }, .popc { wFA with c := .imm10 0 },
    .popc { wFA with ty := .e8m0 }, .popc { wFA with sub := 1 }, .popc { wFA with rnd := .rz }, .bfe { wFA with d := .lane, ty := .s32 },
    .bfe { wFA with d := .k 0, ty := .s32 }, .bfe { wFA with ty := .e8m0 }, .bfe { wFA with ty := .s32, sub := 1 },
    .bfe { wFA with ty := .s32, rnd := .rz }, .bfi { wFA with d := .lane }, .bfi { wFA with d := .k 0 }, .bfi { wFA with ty := .e8m0 },
    .bfi { wFA with sub := 1 }]

def illInteger5 : List Instr := [
    .bfi { wFA with rnd := .rz }, .isetA { wFA with d := .lane, ty := .s8 }, .isetA { wFA with d := .k 0, ty := .s8 },
    .isetA { wFA with c := .spec (.main 1), ty := .s8 }, .isetA { wFA with c := .imm10 0, ty := .s8 }, .isetA { wFA with ty := .e8m0 },
    .isetA { wFA with ty := .s8, sub := 7 }, .isetA { wFA with ty := .s8, rnd := .rz }, .isel { wFA with d := .lane }, .isel { wFA with d := .k 0 },
    .isel { wFA with ty := .e8m0 }, .isel { wFA with sub := 1 }, .isel { wFA with rnd := .rz }, .isel { wFA with d := .main 1, ty := .n64 },
    .isel { wFA with a := .main 1, ty := .n64 }, .mov { wFA with d := .lane }, .mov { wFA with d := .k 0 }, .mov { wFA with b := .main 1 },
    .mov { wFA with c := .spec (.main 1) }, .mov { wFA with c := .imm10 0 }, .mov { wFA with ty := .e8m0 }, .mov { wFA with sub := 1 },
    .mov { wFA with rnd := .rz }, .mov { wFA with d := .main 1, ty := .n64 }]

def illInteger6 : List Instr := [
    .mov { wFA with a := .main 1, ty := .n64 }, .movi { wFW with d := .lane, ty := .s32 }, .movi { wFW with d := .k 0, ty := .s32 },
    .movi { wFW with a := .main 1, ty := .s32 }, .movi { wFW with ty := .e8m0 }, .movi { wFW with d := .main 1, ty := .s64 }, .movg wFA,
    .movg { wFA with d := .g 0, c := .spec (.main 1) }, .movg { wFA with d := .g 0, c := .imm10 0 }, .movg { wFA with d := .g 0, ty := .e8m0 },
    .movg { wFA with d := .g 0, sub := 1 }, .movg { wFA with d := .g 0, rnd := .rz }, .movg { wFA with d := .g 0, a := .main 1, ty := .n64 },
    .lea { wFA with d := .main 1, ty := .s32 }, .lea { wFA with d := .q 0, ty := .s32 }, .lea { wFA with a := .main 1, ty := .s32 },
    .lea { wFA with c := .spec (.main 1), ty := .s32 }, .lea { wFA with c := .imm10 0, ty := .s32 }, .lea { wFA with ty := .e8m0 },
    .lea { wFA with ty := .s32, rnd := .rz }, .iadd64 { wFA with d := .main 1, ty := .s64 }, .iadd64 { wFA with d := .q 0, ty := .s64 },
    .iadd64 { wFA with a := .main 1, ty := .s64 }, .iadd64 { wFA with b := .main 1, ty := .s64 }]

def illInteger7 : List Instr := [
    .iadd64 { wFA with c := .spec (.main 1), ty := .s64 }, .iadd64 { wFA with c := .imm10 0, ty := .s64 }, .iadd64 { wFA with ty := .e8m0 },
    .iadd64 { wFA with ty := .s64, sub := 2 }, .iadd64 { wFA with ty := .s64, rnd := .rz }, .idot4 { wFA with d := .lane, ty := .s8 },
    .idot4 { wFA with d := .k 0, ty := .s8 }, .idot4 { wFA with ty := .e8m0 }, .idot4 { wFA with ty := .s8, sub := 2 },
    .idot4 { wFA with ty := .s8, rnd := .rz }]

theorem test_wf_refuses_integer : ([illInteger0, illInteger1, illInteger2, illInteger3, illInteger4, illInteger5, illInteger6, illInteger7].all fun l => l.all fun i => !i.wf) = true := by decide +kernel

def illFloat0 : List Instr := [
    .faddA { wFA with d := .lane, ty := .f32 }, .faddA { wFA with d := .k 0, ty := .f32 }, .faddA { wFA with c := .spec (.main 1), ty := .f32 },
    .faddA { wFA with c := .imm10 0, ty := .f32 }, .faddA { wFA with ty := .e8m0 }, .faddA { wFA with ty := .f32, sub := 2 },
    .faddW { wFW with d := .lane, ty := .f32 }, .faddW { wFW with d := .k 0, ty := .f32 }, .faddW { wFW with ty := .e8m0 },
    .ffmaA { wFA with d := .lane, ty := .f32 }, .ffmaA { wFA with d := .k 0, ty := .f32 }, .ffmaA { wFA with c := .imm10 0, ty := .f32 },
    .ffmaA { wFA with ty := .e8m0 }, .ffmaA { wFA with ty := .f32, sub := 2 }, .fminA { wFA with d := .lane, ty := .f32 },
    .fminA { wFA with d := .k 0, ty := .f32 }, .fminA { wFA with c := .spec (.main 1), ty := .f32 }, .fminA { wFA with c := .imm10 0, ty := .f32 },
    .fminA { wFA with ty := .e8m0 }, .fminA { wFA with ty := .f32, sub := 2 }, .fminA { wFA with ty := .f32, rnd := .rz },
    .fsetA { wFA with d := .lane, ty := .f32 }, .fsetA { wFA with d := .k 0, ty := .f32 }, .fsetA { wFA with c := .spec (.main 1), ty := .f32 }]

def illFloat1 : List Instr := [
    .fsetA { wFA with c := .imm10 0, ty := .f32 }, .fsetA { wFA with ty := .e8m0 }, .fsetA { wFA with ty := .f32, rnd := .rz },
    .fclass { wFA with d := .lane, ty := .f32 }, .fclass { wFA with d := .k 0, ty := .f32 }, .fclass { wFA with b := .main 1, ty := .f32 },
    .fclass { wFA with c := .spec (.main 1), ty := .f32 }, .fclass { wFA with c := .imm10 0, ty := .f32 }, .fclass { wFA with ty := .e8m0 },
    .fclass { wFA with ty := .f32, sub := 1 }, .fclass { wFA with ty := .f32, rnd := .rz }, .frcp { wFA with d := .lane, ty := .f32 },
    .frcp { wFA with d := .k 0, ty := .f32 }, .frcp { wFA with b := .main 1, ty := .f32 }, .frcp { wFA with c := .spec (.main 1), ty := .f32 },
    .frcp { wFA with c := .imm10 0, ty := .f32 }, .frcp { wFA with ty := .e8m0 }, .frcp { wFA with ty := .f32, sub := 1 },
    .fdiv { wFA with d := .lane, ty := .f32 }, .fdiv { wFA with d := .k 0, ty := .f32 }, .fdiv { wFA with c := .spec (.main 1), ty := .f32 },
    .fdiv { wFA with c := .imm10 0, ty := .f32 }, .fdiv { wFA with ty := .e8m0 }, .fdiv { wFA with ty := .f32, sub := 1 }]

def illFloat2 : List Instr := [
    .hadd2 { wFA with d := .lane, ty := .f16 }, .hadd2 { wFA with d := .k 0, ty := .f16 }, .hadd2 { wFA with c := .spec (.main 1), ty := .f16 },
    .hadd2 { wFA with c := .imm10 0, ty := .f16 }, .hadd2 { wFA with ty := .e8m0 }, .hadd2 { wFA with ty := .f16, sub := 2 },
    .hfma2 { wFA with d := .lane, ty := .f16 }, .hfma2 { wFA with d := .k 0, ty := .f16 }, .hfma2 { wFA with c := .imm10 0, ty := .f16 },
    .hfma2 { wFA with ty := .e8m0 }, .hfma2 { wFA with ty := .f16, sub := 2 }, .hmnmx2 { wFA with d := .lane, ty := .f16 },
    .hmnmx2 { wFA with d := .k 0, ty := .f16 }, .hmnmx2 { wFA with c := .spec (.main 1), ty := .f16 },
    .hmnmx2 { wFA with c := .imm10 0, ty := .f16 }, .hmnmx2 { wFA with ty := .e8m0 }, .hmnmx2 { wFA with ty := .f16, sub := 4 },
    .hmnmx2 { wFA with ty := .f16, rnd := .rz }, .bfma2 { wFA with d := .lane, ty := .bf16 }, .bfma2 { wFA with d := .k 0, ty := .bf16 },
    .bfma2 { wFA with c := .imm10 0, ty := .bf16 }, .bfma2 { wFA with ty := .e8m0 }, .bfma2 { wFA with ty := .bf16, sub := 2 },
    .cvt { wFCvt with d := .lane }]

def illFloat3 : List Instr := [
    .cvt { wFCvt with d := .k 0 }, .cvt { wFCvt with b := .main 1 }, .cvt { wFCvt with sty := .e2m1 }, .cvt { wFCvt with dty := .e8m0 },
    .cvt { wFCvt with pk := true }, .cvt { wFCvt with hi := true }, .cvt { wFCvt with wrap := true },
    .cvt { wFCvt with sty := .n8, dty := .n16, wrap := true }, .cvt { wFCvt with d := .main 1, dty := .n64 },
    .cvt { wFCvt with a := .main 1, sty := .n64 }, .cvt { wFCvt with b := .main 1 }, .cvtq { wFCvq with d := .main 2, ty := .f16, had := .had16 },
    .cvtq { wFCvq with a := .main 4, ty := .f16, had := .had16 }, .cvtq { wFCvq with ty := .f16 },
    .cvtq { wFCvq with b := .imm 0, ty := .f16, had := .had16 }, .cvtq { wFCvq with c := .q 0, ty := .f16, had := .had16 },
    .cvtq { wFCvq with ty := .f32, had := .had16 }, .cvtq { wFCvq with b := .imm 4, c := .q 0, ty := .e2m1, had := .had16 },
    .cvtq { wFCvq with b := .imm 0, c := .main 3, ty := .e2m1, had := .had16 },
    .cvtq { wFCvq with b := .imm 0, c := .zero, ty := .e2m1, had := .had16 }, .cvtd { wFA with d := .lane, ty := .f32 },
    .cvtd { wFA with d := .k 0, ty := .f32 }, .cvtd { wFA with c := .spec (.main 1), ty := .f32 }, .cvtd { wFA with c := .imm10 0, ty := .f32 }]

def illFloat4 : List Instr := [
    .cvtd { wFA with ty := .e8m0 }, .cvtd { wFA with ty := .f16, sub := 4 }]

theorem test_wf_refuses_float : ([illFloat0, illFloat1, illFloat2, illFloat3, illFloat4].all fun l => l.all fun i => !i.wf) = true := by decide +kernel

def illLane0 : List Instr := [
    .shfl { wFA with d := .lane, c := .spec (.k 0) }, .shfl { wFA with d := .k 0, c := .spec (.k 0) }, .shfl wFA, .shfl { wFA with c := .imm10 0 },
    .shfl { wFA with c := .spec (.k 0), ty := .e8m0 }, .shfl { wFA with c := .spec (.k 0), sub := 5 },
    .shfl { wFA with c := .spec (.k 0), rnd := .rz }, .shfl { wFA with d := .main 1, c := .spec (.k 0), ty := .n64 },
    .shfl { wFA with a := .main 1, c := .spec (.k 0), ty := .n64 }, .shflx { wFShx with d := .lane, c := .k 0 },
    .shflx { wFShx with d := .k 0, c := .k 0 }, .shflx wFShx, .shflx { wFShx with c := .k 0, ty := .e8m0 },
    .shflx { wFShx with d := .main 1, c := .k 0, ty := .n64 }, .shflx { wFShx with a := .main 1, c := .k 0, ty := .n64 },
    .bcast { wFA with d := .lane, c := .spec (.k 0) }, .bcast { wFA with d := .k 0, c := .spec (.k 0) }, .bcast wFA,
    .bcast { wFA with c := .imm10 0 }, .bcast { wFA with c := .spec (.k 0), ty := .e8m0 }, .bcast { wFA with c := .spec (.k 0), sub := 1 },
    .bcast { wFA with c := .spec (.k 0), rnd := .rz }, .bcast { wFA with d := .main 1, c := .spec (.k 0), ty := .n64 },
    .bcast { wFA with a := .main 1, c := .spec (.k 0), ty := .n64 }]

def illLane1 : List Instr := [
    .vote { wFA with d := .main 1, c := .spec (.k 0) }, .vote { wFA with d := .q 0, c := .spec (.k 0) },
    .vote { wFA with b := .main 1, c := .spec (.k 0) }, .vote wFA, .vote { wFA with c := .imm10 0 },
    .vote { wFA with c := .spec (.k 0), ty := .e8m0 }, .vote { wFA with c := .spec (.k 0), sub := 6 },
    .vote { wFA with c := .spec (.k 0), rnd := .rz }, .redux { wFA with d := .lane, c := .spec (.k 0), ty := .s32 },
    .redux { wFA with d := .k 0, c := .spec (.k 0), ty := .s32 }, .redux { wFA with b := .main 1, c := .spec (.k 0), ty := .s32 },
    .redux { wFA with ty := .s32 }, .redux { wFA with c := .imm10 0, ty := .s32 }, .redux { wFA with c := .spec (.k 0), ty := .e8m0 },
    .redux { wFA with c := .spec (.k 0), ty := .s32, sub := 6 }, .redux { wFA with c := .spec (.k 0), ty := .s32, rnd := .rz },
    .redux { wFA with d := .main 1, c := .spec (.k 0), ty := .n64 }, .redux { wFA with a := .main 1, c := .spec (.k 0), ty := .n64 },
    .fredux { wFA with d := .lane, c := .spec (.k 0), ty := .f32 }, .fredux { wFA with d := .k 0, c := .spec (.k 0), ty := .f32 },
    .fredux { wFA with b := .main 1, c := .spec (.k 0), ty := .f32 }, .fredux { wFA with ty := .f32 },
    .fredux { wFA with c := .imm10 0, ty := .f32 }, .fredux { wFA with c := .spec (.k 0), ty := .e8m0 }]

def illLane2 : List Instr := [
    .fredux { wFA with c := .spec (.k 0), ty := .f32, sub := 5 }, .fredux { wFA with c := .spec (.k 0), ty := .f32, rnd := .rz, sub := 1 },
    .scan { wFA with d := .lane, c := .spec (.k 0), ty := .s32 }, .scan { wFA with d := .k 0, c := .spec (.k 0), ty := .s32 },
    .scan { wFA with b := .main 1, c := .spec (.k 0), ty := .s32 }, .scan { wFA with ty := .s32 }, .scan { wFA with c := .imm10 0, ty := .s32 },
    .scan { wFA with c := .spec (.k 0), ty := .e8m0 }, .scan { wFA with c := .spec (.k 0), ty := .s32, sub := 7 },
    .scan { wFA with c := .spec (.k 0), ty := .f32, sub := 4 }, .scan { wFA with c := .spec (.k 0), ty := .s32, rnd := .rz },
    .scan { wFA with c := .spec (.k 0), ty := .f32, rnd := .rz, sub := 2 }, .laneMatch { wFA with d := .main 1, c := .spec (.k 0) },
    .laneMatch { wFA with d := .q 0, c := .spec (.k 0) }, .laneMatch { wFA with b := .main 1, c := .spec (.k 0) }, .laneMatch wFA,
    .laneMatch { wFA with c := .imm10 0 }, .laneMatch { wFA with c := .spec (.k 0), ty := .e8m0 },
    .laneMatch { wFA with c := .spec (.k 0), sub := 5 }, .laneMatch { wFA with c := .spec (.k 0), rnd := .rz }]

theorem test_wf_refuses_lane : ([illLane0, illLane1, illLane2].all fun l => l.all fun i => !i.wf) = true := by decide +kernel

def illMemory0 : List Instr := [
    .ldB8 { wFM with d := .zero }, .ldB8 { wFM with a := .main 1 }, .ldB8 { wFM with a := .zero }, .ldB8 { wFM with scope := .team },
    .ldB8 { wFM with low := 2 }, .ldB64 { wFM with d := .main 1 }, .ldB64 { wFM with d := .g 0 }, .ldB64 { wFM with a := .main 1 },
    .ldB64 { wFM with a := .zero }, .ldB64 { wFM with scope := .team }, .ldB64 { wFM with low := 2 }, .ldB128 { wFM with d := .main 2 },
    .ldB128 { wFM with d := .q 0 }, .ldB128 { wFM with a := .main 1 }, .ldB128 { wFM with a := .zero }, .ldB128 { wFM with scope := .team },
    .ldB128 { wFM with low := 2 }, .stB8 { wFM with a := .main 1 }, .stB8 { wFM with a := .zero }, .stB8 { wFM with scope := .team },
    .stB8 { wFM with low := 2 }, .ldlB8 { wFM with d := .zero }, .ldlB8 { wFM with a := .main 1 }, .ldlB8 { wFM with a := .zero }]

def illMemory1 : List Instr := [
    .ldlB8 { wFM with scope := .team }, .ldlB8 { wFM with low := 1 }, .ldlB8 { wFM with cls := .strong, scope := .device },
    .ldlB8 { wFM with cls := .strong, scope := .system }, .ldlB64 { wFM with d := .main 1 }, .ldlB64 { wFM with d := .g 0 },
    .ldlB64 { wFM with a := .main 1 }, .ldlB64 { wFM with a := .zero }, .ldlB64 { wFM with scope := .team }, .ldlB64 { wFM with low := 1 },
    .ldlB64 { wFM with cls := .strong, scope := .device }, .ldlB64 { wFM with cls := .strong, scope := .system },
    .ldlB128 { wFM with d := .main 2 }, .ldlB128 { wFM with d := .q 0 }, .ldlB128 { wFM with a := .main 1 }, .ldlB128 { wFM with a := .zero },
    .ldlB128 { wFM with scope := .team }, .ldlB128 { wFM with low := 1 }, .ldlB128 { wFM with cls := .strong, scope := .device },
    .ldlB128 { wFM with cls := .strong, scope := .system }, .stlB8 { wFM with a := .main 1 }, .stlB8 { wFM with a := .zero },
    .stlB8 { wFM with scope := .team }, .stlB8 { wFM with low := 1 }]

def illMemory2 : List Instr := [
    .stlB8 { wFM with cls := .strong, scope := .device }, .stlB8 { wFM with cls := .strong, scope := .system }, .ldt { wFM with d := .main 2 },
    .ldt { wFM with d := .q 0 }, .ldt { wFM with a := .main 1 }, .ldt { wFM with a := .zero }, .ldt { wFM with scope := .team },
    .ldt { wFM with low := 1 }, .ldt { wFM with sx := true }, .wmap { wFSub with d := .lane }, .wmap { wFSub with d := .k 0 },
    .wmap { wFSub with a := .main 1 }, .wmap { wFSub with sub := 1 }, .wunmap { wFSub with d := .main 1 }, .wunmap { wFSub with b := .main 1 },
    .wunmap { wFSub with c := .main 1 }, .wunmap { wFSub with sub := 1 }, .wsync { wFSub with d := .main 1 }, .wsync { wFSub with b := .main 1 },
    .wsync { wFSub with c := .main 1 }, .wsync { wFSub with sub := 2 }, .wsync { wFSub with a := .main 2, sub := 1 },
    .wquery { wFSub with d := .main 1 }, .wquery { wFSub with d := .q 0 }]

def illMemory3 : List Instr := [
    .wquery { wFSub with b := .main 1 }, .wquery { wFSub with c := .main 1 }, .wquery { wFSub with sub := 1 },
    .atomB32 { wFAt with d := .lane, scope := .team }, .atomB32 { wFAt with d := .k 0, scope := .team },
    .atomB32 { wFAt with a := .main 1, scope := .team }, .atomB32 { wFAt with a := .zero, scope := .team },
    .atomB32 { wFAt with c := .main 1, scope := .team }, .atomB32 wFAt, .atomB32 { wFAt with scope := .team, kind := .s, op := .inc },
    .atomB32 { wFAt with scope := .team, kind := .s, op := .cas }, .atomB64 { wFAt with d := .main 1, scope := .team },
    .atomB64 { wFAt with d := .q 0, scope := .team }, .atomB64 { wFAt with a := .main 1, scope := .team },
    .atomB64 { wFAt with a := .zero, scope := .team }, .atomB64 { wFAt with b := .main 1, scope := .team },
    .atomB64 { wFAt with c := .main 1, scope := .team }, .atomB64 wFAt, .atomB64 { wFAt with scope := .team, kind := .s, op := .inc },
    .atomB64 { wFAt with scope := .team, kind := .f }, .atomB64 { wFAt with scope := .team, kind := .s, op := .cas },
    .atomlB32 { wFAt with d := .lane, scope := .team }, .atomlB32 { wFAt with d := .k 0, scope := .team },
    .atomlB32 { wFAt with a := .main 1, scope := .team }]

def illMemory4 : List Instr := [
    .atomlB32 { wFAt with a := .zero, scope := .team }, .atomlB32 { wFAt with c := .main 1, scope := .team }, .atomlB32 wFAt,
    .atomlB32 { wFAt with scope := .team, kind := .s, op := .inc }, .atomlB32 { wFAt with scope := .device },
    .atomlB32 { wFAt with scope := .team, kind := .s, op := .cas }, .atomlB64 { wFAt with d := .main 1, scope := .team },
    .atomlB64 { wFAt with d := .q 0, scope := .team }, .atomlB64 { wFAt with a := .main 1, scope := .team },
    .atomlB64 { wFAt with a := .zero, scope := .team }, .atomlB64 { wFAt with b := .main 1, scope := .team },
    .atomlB64 { wFAt with c := .main 1, scope := .team }, .atomlB64 wFAt, .atomlB64 { wFAt with scope := .team, kind := .s, op := .inc },
    .atomlB64 { wFAt with scope := .team, kind := .f }, .atomlB64 { wFAt with scope := .device },
    .atomlB64 { wFAt with scope := .team, kind := .s, op := .cas }, .redB32 { wFAt with d := .main 1, scope := .team },
    .redB32 { wFAt with a := .main 1, scope := .team }, .redB32 { wFAt with a := .zero, scope := .team },
    .redB32 { wFAt with c := .main 1, scope := .team }, .redB32 wFAt, .redB32 { wFAt with scope := .team, kind := .s, op := .inc },
    .redB32 { wFAt with scope := .team, op := .exch }]

def illMemory5 : List Instr := [
    .redB32 { wFAt with scope := .team, op := .cas }, .redB64 { wFAt with d := .main 1, scope := .team },
    .redB64 { wFAt with a := .main 1, scope := .team }, .redB64 { wFAt with a := .zero, scope := .team },
    .redB64 { wFAt with b := .main 1, scope := .team }, .redB64 { wFAt with c := .main 1, scope := .team }, .redB64 wFAt,
    .redB64 { wFAt with scope := .team, kind := .s, op := .inc }, .redB64 { wFAt with scope := .team, kind := .f },
    .redB64 { wFAt with scope := .team, op := .exch }, .redB64 { wFAt with scope := .team, op := .cas }, .fence { wFS with d := .main 1 },
    .fence { wFS with a := .main 1 }, .fence { wFS with imm := 1 }, .fence { wFS with mode := 5 }, .pref { wFM with d := .main 1 },
    .pref { wFM with a := .main 1 }, .pref { wFM with a := .zero }, .pref { wFM with cls := .strong }, .pref { wFM with scope := .team },
    .pref { wFM with sx := true }, .pref { wFM with low := 2 }, .survey { wFSub with d := .main 1 }, .survey { wFSub with d := .zero }]

def illMemory6 : List Instr := [
    .survey { wFSub with a := .main 1 }, .survey { wFSub with a := .zero }, .survey { wFSub with c := .main 1 }, .survey { wFSub with sub := 4 },
    .survey { wFSub with b := .main 2, sub := 1 }, .probe { wFSub with d := .lane }, .probe { wFSub with d := .k 0 },
    .probe { wFSub with a := .main 1 }, .probe { wFSub with a := .zero }, .probe { wFSub with b := .main 1 }, .probe { wFSub with c := .main 1 },
    .probe { wFSub with sub := 1 }, .discard { wFSub with d := .main 1 }, .discard { wFSub with a := .main 1 }, .discard { wFSub with a := .zero },
    .discard { wFSub with c := .main 1 }, .discard { wFSub with sub := 1 }, .sealRange { wFSub with d := .lane },
    .sealRange { wFSub with d := .k 0 }, .sealRange { wFSub with c := .main 1 }, .sealRange { wFSub with sub := 1 },
    .stag { wFM with d := .main 1, cls := .strong, scope := .team }, .stag { wFM with a := .main 1, cls := .strong, scope := .team },
    .stag { wFM with a := .zero, cls := .strong, scope := .team }]

def illMemory7 : List Instr := [
    .stag { wFM with cls := .vol, scope := .team }, .stag { wFM with cls := .strong },
    .stag { wFM with sx := true, cls := .strong, scope := .team }, .stag { wFM with cls := .strong, scope := .team, low := 1 },
    .ltag { wFM with d := .lane }, .ltag { wFM with d := .k 0 }, .ltag { wFM with a := .main 1 }, .ltag { wFM with a := .zero },
    .ltag { wFM with scope := .team }, .ltag { wFM with cls := .vol }, .ltag { wFM with sx := true }, .ltag { wFM with low := 1 },
    .cctl { wFM with d := .main 1 }, .cctl { wFM with a := .main 1 }, .cctl { wFM with a := .zero }, .cctl { wFM with cls := .strong },
    .cctl { wFM with scope := .team }, .cctl { wFM with sx := true }, .cctl { wFM with low := 3 }, .cctl { wFM with off := 1, low := 1 }]

theorem test_wf_refuses_memory : ([illMemory0, illMemory1, illMemory2, illMemory3, illMemory4, illMemory5, illMemory6, illMemory7].all fun l => l.all fun i => !i.wf) = true := by decide +kernel

def illAsync0 : List Instr := [
    .barinit { wFBar with d := .main 1 }, .bararv { wFBar with d := .lane }, .bararv { wFBar with d := .k 0 }, .bararv { wFBar with b := .main 1 },
    .bararv { wFBar with cluster := true }, .bararv { wFBar with bytes := true }, .barwait { wFBar with d := .main 1 },
    .barwait { wFBar with cluster := true }, .barwait { wFBar with bytes := true }, .bartry { wFBar with d := .lane },
    .bartry { wFBar with d := .k 0 }, .bartry { wFBar with cluster := true }, .bartry { wFBar with bytes := true },
    .cpyG2l { wFCpy with a := .main 1 }, .cpyG2l { wFCpy with a := .zero }, .cpyL2g { wFCpy with b := .main 1 }, .cpyL2g { wFCpy with b := .zero },
    .cpyL2g { wFCpy with bar := some 3 }, .tagwaitAny { wFSub with d := .main 1 }, .tagwaitAny { wFSub with d := .q 0 },
    .tagwaitAny { wFSub with a := .main 1 }, .tagwaitAny { wFSub with b := .main 1 }, .tagwaitAny { wFSub with c := .main 1 },
    .tagwaitAny { wFSub with sub := 1 }]

def illAsync1 : List Instr := [
    .tagfirst { wFSub with d := .lane }, .tagfirst { wFSub with d := .k 0 }, .tagfirst { wFSub with a := .main 1 },
    .tagfirst { wFSub with b := .main 1 }, .tagfirst { wFSub with c := .main 1 }, .tagfirst { wFSub with sub := 1 },
    .tagclr { wFSub with d := .main 1 }, .tagclr { wFSub with a := .main 1 }, .tagclr { wFSub with b := .main 1 },
    .tagclr { wFSub with c := .main 1 }, .tagclr { wFSub with sub := 1 }]

theorem test_wf_refuses_async : ([illAsync0, illAsync1].all fun l => l.all fun i => !i.wf) = true := by decide +kernel

def illMatrix0 : List Instr := [
    .mmaF16 { wFMma with c := .main 1 }, .mmaF16 { wFMma with c := .q 0 }, .mmaF16 { wFMma with sel := 1 },
    .mmaF16 { wFMma with a := .main 1, ga := true }, .mmaF16 { wFMma with b := .main 1, gb := true }, .mmaS8 { wFMma with c := .main 1 },
    .mmaS8 { wFMma with c := .q 0 }, .mmaS8 { wFMma with sel := 1 }, .mmaS8 { wFMma with had := .had16 }, .mmas { wFMma with c := .main 1 },
    .mmas { wFMma with c := .q 0 }, .mmas { wFMma with a := .main 1, ga := true }, .mmas { wFMma with b := .main 1, gb := true },
    .mzero { wFEng with a := .main 1 }, .mzero { wFEng with b := .main 1 }, .mzero { wFEng with c := .main 1 }, .mzero { wFEng with ts := 1 },
    .mzero { wFEng with rows := true }, .mzero { wFEng with skip := true }, .mzero { wFEng with spill := true },
    .mzero { wFEng with tag := some 3 }, .mldt { wFTile with c := .main 1 }, .mldt { wFTile with ts := 1 }, .mldt { wFTile with ty := .e8m0 }]

def illMatrix1 : List Instr := [
    .mldt { wFTile with g := true }, .mldt { wFTile with z := true }, .mldt { wFTile with tag := some 3 }, .mstt { wFTile with c := .main 1 },
    .mstt { wFTile with td := 1 }, .mstt { wFTile with ty := .e8m0 }, .mstt { wFTile with g := true }, .mstt { wFTile with z := true },
    .mdrain { wFTile with b := .main 1, ty := .f32 }, .mdrain { wFTile with td := 1, ty := .f32 }, .mdrain { wFTile with ty := .e8m0 },
    .mdrain { wFTile with a := .main 1, ty := .f32, g := true }, .malloc { wFEng with a := .lane }, .malloc { wFEng with a := .k 0 },
    .malloc { wFEng with c := .main 1 }, .malloc { wFEng with td := 1 }, .malloc { wFEng with ts := 1 }, .malloc { wFEng with rows := true },
    .malloc { wFEng with skip := true }, .malloc { wFEng with spill := true }, .malloc { wFEng with tag := some 3 },
    .mfree { wFEng with a := .main 1 }, .mfree { wFEng with c := .main 1 }, .mfree { wFEng with td := 1 }]

def illMatrix2 : List Instr := [
    .mfree { wFEng with ts := 1 }, .mfree { wFEng with rows := true }, .mfree { wFEng with skip := true }, .mfree { wFEng with spill := true },
    .mfree { wFEng with tag := some 3 }, .grbind { wFEng with b := .main 1 }, .grbind { wFEng with c := .main 1 }, .grbind { wFEng with td := 1 },
    .grbind { wFEng with ts := 1 }, .grbind { wFEng with rows := true }, .grbind { wFEng with skip := true }, .grbind { wFEng with spill := true },
    .grbind { wFEng with tag := some 3 }, .greval { wFEng with c := .main 1 }, .greval { wFEng with td := 1 }, .greval { wFEng with ts := 1 },
    .grstat { wFEng with a := .main 1 }, .grstat { wFEng with a := .q 0 }, .grstat { wFEng with b := .main 1 }, .grstat { wFEng with c := .main 1 },
    .grstat { wFEng with td := 1 }, .grstat { wFEng with ts := 1 }, .grstat { wFEng with rows := true }, .grstat { wFEng with skip := true }]

def illMatrix3 : List Instr := [
    .grstat { wFEng with spill := true }, .grstat { wFEng with tag := some 3 }, .nzscan { wFEng with td := 1 }, .nzscan { wFEng with ts := 1 },
    .nzscan { wFEng with rows := true }, .nzscan { wFEng with skip := true }, .nzscan { wFEng with spill := true }]

theorem test_wf_refuses_matrix : ([illMatrix0, illMatrix1, illMatrix2, illMatrix3].all fun l => l.all fun i => !i.wf) = true := by decide +kernel

def illSystem0 : List Instr := [
    .launch { wFSub with d := .main 1 }, .launch { wFSub with d := .q 0 }, .launch { wFSub with a := .main 1 }, .launch { wFSub with b := .main 1 },
    .launch { wFSub with c := .main 1 }, .launch { wFSub with sub := 1 }, .snap { wFS with d := .main 1 }, .snap { wFS with d := .q 0 },
    .snap { wFS with a := .main 1 }, .snap { wFS with imm := 1 }, .snap { wFS with mode := 1 }, .edstat { wFS with d := .main 1 },
    .edstat { wFS with d := .q 0 }, .edstat { wFS with imm := 1 }, .edstat { wFS with mode := 1 }, .sreadS { wFS with d := .main 1 },
    .sreadS { wFS with d := .q 0 }, .sreadS { wFS with a := .main 1 }, .sreadS { wFS with mode := 1 }, .swriteA { wFSub with d := .main 1 },
    .swriteA { wFSub with b := .main 1 }, .swriteA { wFSub with c := .main 1 }, .swriteA { wFSub with sub := 1 }, .clock { wFS with d := .main 1 }]

def illSystem1 : List Instr := [
    .clock { wFS with d := .q 0 }, .clock { wFS with a := .main 1 }, .clock { wFS with imm := 1 }, .clock { wFS with mode := 2 },
    .stamp { wFS with d := .main 1 }, .stamp { wFS with a := .main 1 }, .stamp { wFS with mode := 2 }, .regq { wFS with d := .lane, imm := 1 },
    .regq { wFS with d := .k 0, imm := 1 }, .regq { wFS with a := .main 1, imm := 1 }, .regq { wFS with guard := .mask 0 false, imm := 1 },
    .regq { wFS with imm := 1, mode := 3 }, .regq wFS, .regq { wFS with imm := 257 }, .regq { wFS with imm := 1, mode := 2 }]

theorem test_wf_refuses_system : ([illSystem0, illSystem1].all fun l => l.all fun i => !i.wf) = true := by decide +kernel


/-! ### The states of the witnesses

All small changes of one state: 64 threads of one group at slot 1 of a clause, as `State.withFetchWord` places them. -/

def base : State :=
  { State.reset.withFetchWord 64 0 with fresh := 20, devstat := 0x1F1F1, cur := { core := 0, slot := 0, mask := allLanes, word := 0x1234 } }

/-- A change of the group, at the start of a clock. -/
def grp (f : Group → Group) (s : State := base) : State :=
  s.modGroup 0 0 fun g =>
    let h := f g
    { h with seenG := h.g, seenK := h.k, seenFlags := h.flags }
def onTeam (f : Team → Team) (s : State := base) : State := s.modTeam 0 1 f
def onCore (f : Core → Core) (s : State := base) : State := s.modCore 0 f
def onCtx (f : Ctx → Ctx) (s : State := base) : State := s.modCtx 1 f
def the (s : State) : Group := (s.group? 0 0).getD (placedGroup 1 0)
def theTeam (s : State) : Team := (s.team? 0 1).getD (placedTeam 1)

/-- Main register `r` of every lane holds `v`. -/
def reg (r v : Nat) (s : State := base) : State := grp (fun g => { g with v := put g.v r (List.replicate 64 (BitVec.ofNat 32 v)) }) s

/-- Main register `r` of lane `j` holds `v + n * j`. -/
def regs (r v n : Nat) (s : State := base) : State :=
  grp (fun g => { g with v := put g.v r ((List.range 64).map fun j => BitVec.ofNat 32 (v + n * j)) }) s

/-- Bytes of storage, and of the team's local memory, `n` to a number. -/
def stored (a n : Nat) (l : List Nat) (s : State := base) : State :=
  { s with mem := setRange s.mem a (n * l.length) fun i => BitVec.ofNat 8 (l.getD (i / n) 0 / 2 ^ (8 * (i % n))) }
def localMem (a n : Nat) (l : List Nat) (s : State := base) : State :=
  onTeam (fun t => { t with mem := setRange t.mem a (n * l.length) fun i => BitVec.ofNat 8 (l.getD (i / n) 0 / 2 ^ (8 * (i % n))) }) s

def allOff (m : Mask) (s : State := base) : State := { s with cur := { s.cur with mask := m } }
def pageSt (backed held : Bool) : PageSt :=
  { backed := backed, far := false, held := held, migrating := false, swap := none, nonDatum := 0, heat := 0, cseq := 0, filling := false }
def aperture (pool : Nat) (full : Bool) (s : State := base) : State :=
  { s with regions := s.regions.map fun r => { r with dat := true, dsize := 2, datum := 0xDEADBEEF, pool := pool, full := full } }

/-- What carrying out a row leaves. -/
def after (i : Instr) (s : State) : State :=
  match exec i s with
  | .next t => t
  | _ => State.reset

/-- The gang's operation of the highest identity. -/
def last (s : State) : Op := ((s.core 0).ops.getLast?).getD
  { id := 0, slot := 0, team := 0, ctx := 0, entries := [], pc := 0, lanes := 0, consumed := false, kind := .simple, writes := [], gdst := none,
    words := 0, res := [], tag := none, gwct := 0, poison := none, started := false, pins := [], onPins := [], held := [], done := 0 }

def issuesB (s : State) (l : List Instr) : Bool :=
  (s.group? s.cur.core s.cur.slot == some (the s)) && l.all fun i => i.wf && decide (i.mainSpan ≤ (the s).quota)

def freshB (s : State) : Bool :=
  s.cores.all fun c => c.2.ops.all (fun o => decide (o.id < s.fresh)) && c.2.locks.all (fun l => decide (l.op < s.fresh)) &&
    c.2.groups.all fun g => g.2.threads.all fun t => match t.stall with
      | some k => decide (k < s.fresh)
      | none => true

def gangB (s : State) : Bool :=
  (List.range 64).all fun i => !has s.cur.mask i || sameFragment ((the s).thread i) ((the s).thread (lowLane s.cur.mask))

def readyB (s : State) (l : List Instr) : Bool := issuesB s l && freshB s && gangB s

/-- Group `the s` issues each instruction of the list in the state `s`. -/
def Issues (s : State) (l : List Instr) : Prop := ∀ i ∈ l, Issuing s i (the s)

/-- `Issues`, and the issuing threads are one gang, and identities are fresh. -/
def Ready (s : State) (l : List Instr) : Prop := Issues s l ∧ OneGang s (the s) ∧ FreshIds s

theorem issues_of {s : State} {l : List Instr} (h : issuesB s l = true) : Issues s l := by
  simp only [issuesB, Bool.and_eq_true, beq_iff_eq, List.all_eq_true, decide_eq_true_eq] at h
  exact fun i hi => ⟨h.1, h.2 i hi⟩

theorem gang_of {s : State} (h : gangB s = true) : OneGang s (the s) := by
  intro i hi hm
  have := List.all_eq_true.mp h i (List.mem_range.mpr hi)
  simpa [hm] using this


theorem core_mem (s : State) (c : Nat) : (∃ p ∈ s.cores, p.2 = s.core c) ∨ s.core c = Core.init := by
  unfold State.core
  cases h : get? s.cores c with
  | none => exact .inr rfl
  | some x => exact .inl ⟨_, mem_of_get? h, rfl⟩

theorem fresh_of {s : State} (h : freshB s = true) : FreshIds s := by
  intro c
  rcases core_mem s c with ⟨p, hp, hc⟩ | hc
  · have := List.all_eq_true.mp h p hp
    simp only [Bool.and_eq_true, List.all_eq_true, decide_eq_true_eq] at this
    refine ⟨fun o ho => this.1.1 o (hc ▸ ho), fun l hl => this.1.2 l (hc ▸ hl), fun slot g hg t ht k hk => ?_⟩
    have hg' : get? p.2.groups slot = some g := by rw [hc]; exact hg
    have := this.2 _ (mem_of_get? hg') t ht
    rw [hk] at this
    exact of_decide_eq_true this
  · refine ⟨fun o ho => ?_, fun l hl => ?_, fun slot g hg => ?_⟩
    · rw [hc] at ho; cases ho
    · rw [hc] at hl; cases hl
    have : get? (s.core c).groups slot = some g := hg
    rw [hc] at this
    cases this

theorem ready_of {s : State} {l : List Instr} (h : readyB s l = true) : Ready s l := by
  simp only [readyB, Bool.and_eq_true] at h
  exact ⟨issues_of h.1.1, gang_of h.2, fresh_of h.1.2⟩

def fa : FA := { guard := .mask 3 true, d := .main 2, a := .main 4, b := .lane, c := .spec (.main 0), ty := .s32, rnd := .rn, sub := 0 }
def fw : FW := { d := .main 2, a := .main 4, imm := 0x80000000, ty := .s32 }
def sub (d a b : Spec) (n : Fin 8 := 0) : FSub := { guard := .always, d := d, a := a, b := b, c := .main 0, sub := n }
def fm (d : Spec) (c : MemClass := .weak) (sc : Scope := .thread) (low : Fin 16 := 0) : FM :=
  { guard := .always, d := d, a := .main 4, off := 0, sx := false, cls := c, scope := sc, low := low }
def fs (d a : Spec) (imm : Nat := 0) (mode : Fin 8 := 0) : FS := { guard := .always, d := d, a := a, imm := BitVec.ofNat 20 imm, mode := mode }


/-! ### Witnesses: integer, floating-point, control and lane instructions -/

/-- The instructions of `l` whose opcode lies in a range. -/
def ops (l : List (Nat × Instr)) (lo hi : Nat) : List Instr :=
  (l.filter fun p => decide (lo ≤ p.1 / 2 ^ 56) && decide (p.1 / 2 ^ 56 ≤ hi)).map (·.2)

theorem test_witness_IntegerTwoSource : Issues base (ops wordsInteger 0x20 0x39) := issues_of (by decide +kernel)

theorem test_witness_IntegerImmediate : Issues base (ops wordsInteger 0x21 0x48 ++ ops wordsInteger 0x4B 0x4B) := issues_of (by decide +kernel)

theorem test_witness_IntegerCarryAndMultiplyAdd : Issues base (ops wordsInteger 0x24 0x39) := issues_of (by decide +kernel)

theorem test_witness_ShiftsAndFields : Issues base (ops wordsInteger 0x3A 0x46) := issues_of (by decide +kernel)

theorem test_witness_CompareSelectMove : Issues base (ops wordsInteger 0x47 0x4F) := issues_of (by decide +kernel)

theorem test_witness_FloatArithmetic : Issues base (ops wordsFloat 0x50 0x6B) := issues_of (by decide +kernel)

theorem test_witness_Conversions : Issues (grp fun g => { g with quota := 256 }) (ops wordsFloat 0x6C 0x70) := issues_of (by decide +kernel)

theorem test_witness_SfuIssue : Ready base (ops wordsInteger 0x2B 0x2C ++ ops wordsFloat 0x5E 0x66) ∧
    (gangOf base (the base) .always).m ≠ 0 := ⟨ready_of (by decide +kernel), by decide +kernel⟩

def flyingB (s : State) (o : Op) : Bool :=
  ((s.core 0).op? o.id == some o) && (s.group? 0 o.slot).isSome && decide ((o.writes.map (·.reg)).Nodup) && o.poison.isNone

theorem flying_of {s : State} {o : Op} (h : flyingB s o = true) : Flying s 0 o := by
  simp only [flyingB, Bool.and_eq_true, beq_iff_eq, decide_eq_true_eq, Option.isNone_iff_eq_none] at h
  exact ⟨h.1.1.1, h.1.1.2, h.1.2, h.2⟩

def idived : State := after (.idiv { fa with guard := .always }) base

theorem test_witness_OperationDelivers : Flying idived 0 (last idived) ∧ (last idived).kind = .simple ∧
    ∃ o ∈ (idived.core 0).ops, ∃ w ∈ o.writes, w.reg = .v 2 :=
  ⟨flying_of (by decide +kernel), by decide +kernel, by decide +kernel⟩

theorem test_witness_MaskInstructions : Issues base (ops wordsControl 0x09 0x0A ++ ops wordsControl 0x0C 0x10) := issues_of (by decide +kernel)

def br (off : Nat) : FB := { guard := .always, d := .main 6, a := .main 0, off := BitVec.ofNat 20 off, slot := 0, z := false }
def jumps : List Instr := [.bra { br 0 with d := .main 0 }, .brc { br 0 with d := .main 0, a := .main 8 }, .call (br 0), .brx (sub (.main 0) (.main 4) (.main 0)),
  .callx (sub (.main 6) (.main 4) (.main 0)), .ret (sub (.main 0) (.main 4) (.main 0))]
/-- The targets of lane 0. -/
def direct (off : Nat) : List (Nat × Word64) := (lanesOf 1).map fun j =>
  (j, codePtr (headerOf ((the base).thread j).pc + (BitVec.ofNat 20 off).signExtend 64 * 16) 0)
def indirect (s : State) : List (Nat × Word64) := (lanesOf 1).map fun j => (j, (the s).src64 j false (.main 4))

theorem test_witness_Branches :
    (Issues (allOff 1 (reg 4 0x1000)) jumps ∧ (checkTargets (allOff 1) 0 1 (direct 0)).2 = (0, none) ∧
      (checkTargets (allOff 1 (reg 4 0x1000)) 0 1 (indirect (reg 4 0x1000))).2 = (0, none)) ∧
    (Issues (allOff 1) [.call (br 1)] ∧ (checkTargets (allOff 1) 0 1 (direct 1)).2.1 ≠ 0) ∧
    (Issues (allOff 1) [.call (br 0x80000)] ∧ (checkTargets (allOff 1) 0 1 (direct 0x80000)).2.1 = 0 ∧
      (checkTargets (allOff 1) 0 1 (direct 0x80000)).2.2.isSome) :=
  ⟨⟨issues_of (by decide +kernel), by decide +kernel, by decide +kernel⟩, ⟨issues_of (by decide +kernel), by decide +kernel⟩,
    issues_of (by decide +kernel), by decide +kernel, by decide +kernel⟩

/-- Mask register `k3` holds `m`. -/
def mask (m : Mask) (s : State := base) : State := grp (fun g => { g with k := put g.k 3 m }) s
def waitm : FSub := sub (.main 0) (.k 3) (.main 0)

theorem test_witness_MoveOnExitWait :
    Issues (mask allLanes) [.nop, .yield (sub (.main 0) (.main 0) (.main 0)), .exit (sub (.main 0) (.main 0) (.main 0)), .waitm waitm] ∧
    (the (mask allLanes)).guarded (mask allLanes).cur.mask .always &&& ~~~(the (mask allLanes)).maskReg 3 = 0 ∧
    Issues base [.waitm waitm] ∧ (the base).guarded base.cur.mask .always &&& ~~~(the base).maskReg 3 ≠ 0 :=
  ⟨issues_of (by decide +kernel), by decide +kernel, issues_of (by decide +kernel), by decide +kernel⟩

def checked : State := onCtx fun c => { c with check := true, dumpSize := 0x1000000, dumpBase := 0x5000000 }

theorem test_witness_TrapsAtIssue :
    (Issues base [.trap (fs (.main 0) (.main 4) 7), .bpt (fs (.main 0) (.main 0) 7), .halt (fs (.main 0) (.main 0) 7)] ∧ (gangOf base (the base) .always).m ≠ 0 ∧
      (the base).hold = .none ∧ (base.ctx (the base).ctx).check = false) ∧
    (Issues checked [.halt (fs (.main 0) (.main 0) 7)] ∧ (checked.ctx (the checked).ctx).check = true ∧ (checked.ctx (the checked).ctx).dumpSize ≠ 0) ∧
    base.group? base.cur.core base.cur.slot = some (the base) ∧
    (let i : Instr := .iaddA { fa with ty := .f32 }
     i.cls.isSome = true ∧ i.wf = false) ∧
    (let i : Instr := .iaddA { fa with d := .main 64 }
     i.cls.isSome = true ∧ (the base).quota < i.mainSpan) :=
  ⟨⟨issues_of (by decide +kernel), by decide +kernel, by decide +kernel, by decide +kernel⟩,
    ⟨issues_of (by decide +kernel), by decide +kernel, by decide +kernel⟩, by decide +kernel, by decide +kernel, by decide +kernel⟩

def coll (ty : Ty) (n : Fin 8) (b : Spec := .main 0) : FA :=
  { guard := .always, d := .main 2, a := .main 4, b := b, c := .spec (.k 3), ty := ty, rnd := .rn, sub := n }
def collectives : List Instr := [.shfl (coll .n32 0 (.main 6)), .shflx { wFShx with d := .main 2, a := .main 4, b := .main 6, c := .k 3, wid := 6 }, .bcast (coll .n32 0 (.main 6)),
  .vote (coll .n32 0), .redux (coll .s32 0), .fredux (coll .f32 1), .scan (coll .s32 1), .laneMatch (coll .n32 2)]

theorem test_witness_CollectiveArrival :
    (Issues (mask allLanes) collectives ∧ (the (mask allLanes)).guarded allLanes .always &&& ~~~(the (mask allLanes)).maskReg 3 = 0) ∧
    Issues (mask 0xFFFF) collectives ∧ (the (mask 0xFFFF)).guarded allLanes .always &&& ~~~(the (mask 0xFFFF)).maskReg 3 ≠ 0 :=
  ⟨⟨issues_of (by decide +kernel), by decide +kernel⟩, issues_of (by decide +kernel), by decide +kernel⟩

/-- Lanes 0 to 3 arrive at a vote that names lanes 0 to 4; lane 4 has exited. -/
def voting : State := after (.vote (coll .n32 1)) (allOff 15 (grp (fun g =>
  { g with threads := (List.range 64).map fun i => if i < 4 then g.thread i else { g.thread i with st := .exited, entry := 0 } }) (mask 31)))
def voted : State := after (.collectiveComplete 0 0 0) voting

theorem test_witness_CollectiveResults :
    let g := the voting
    let l := g.together 0
    voting.group? 0 0 = some g ∧ g.hold = .none ∧ l ≠ [] ∧ allArrived l = true ∧ agree l = true ∧ ∀ a ∈ l, has a.1.supplied a.1.lane = true := by
  decide +kernel

theorem test_witness_CollectiveDelivery :
    let g := the voted
    let l := g.marked 20
    voted.group? 0 0 = some g ∧ (voted.core 0).collReady 0 20 = true ∧ l ≠ [] ∧ (l.map (·.lane)).Nodup ∧ (∀ a ∈ l, a.lane < 64) ∧
      ∀ a ∈ l, ∀ b ∈ l, (collDst a.instr).2 = (collDst b.instr).2 := by
  decide +kernel

def waiting : State := after (.waitm waitm) (mask allLanes)
def released : State := after (.maskWaitRelease 0 0 3) waiting

theorem test_witness_MaskWaits :
    (waiting.group? 0 0 = some (the waiting) ∧ (the waiting).hold = .none ∧ ((the waiting).thread 0).st = .maskWait 3 0) ∧
    released.group? 0 0 = some (the released) ∧ ((the released).thread 0).st = .maskWait 3 20 ∧
      (released.core 0).settled 0 ((the released).releasedBy 20) 20 false = true := by
  decide +kernel


/-! ### Witnesses: memory -/

def gang (s : State) : Gang := gangOf s (the s) .always

/-- One thread, whose address is `a`. -/
def at1 (a : Nat) (s : State := base) : State := allOff 1 (reg 4 a s)

/-- The answer is good and what it gives meets `p`. -/
def passes {α : Type} (r : Except Stop α) (p : α → Bool) : Bool :=
  match r with
  | .ok x => p x
  | .error _ => false

def stops {α : Type} (r : Except Stop α) : Bool :=
  match r with
  | .ok _ => false
  | .error _ => true

/-- The global addresses of the gang's threads. -/
def globals (s : State) : List (Nat × Word64) := (lanesOf (gang s).m).map fun j => (j, (the s).src64 j false (.main 4))

def ask (n : Nat) (need : Need) (host link : Bool) : Ask := { n := n, need := need, host := host, link := link, access := true }

def loadAll : List Instr := [.ldB8 (fm (.main 8)), .ldB16 (fm (.main 8)), .ldB32 (fm (.main 8)), .ldB64 (fm (.main 8)), .ldB128 (fm (.main 8)), .ldt (fm (.main 8))]

theorem test_witness_GlobalLoads :
    (Ready (at1 0x2000) loadAll ∧ (gang (at1 0x2000)).m ≠ 0 ∧
      ∀ n ∈ [1, 2, 4, 8, 16], ∀ link ∈ [true, false], passes ((at1 0x2000).globalCheck (gang (at1 0x2000)) (ask n .load false link) (globals (at1 0x2000))) (fun r =>
        r.2.length == 1 && (r.2.all fun p => !isLink p.dpa) && (r.1.leaveIdem (gang (at1 0x2000)) false).2) = true) ∧
    (Ready (at1 0x80000000) loadAll ∧
      stops ((at1 0x80000000).globalCheck (gang (at1 0x80000000)) (ask 16 .load false true) (globals (at1 0x80000000))) = true) ∧
    Ready base [.ldB8 { fm (.main 8) with guard := .mask 3 false }] ∧ (gangOf base (the base) (.mask 3 false)).m = 0 :=
  ⟨⟨ready_of (by decide +kernel), by decide +kernel, by decide +kernel⟩, ⟨ready_of (by decide +kernel), by decide +kernel⟩,
    ready_of (by decide +kernel), by decide +kernel⟩

def storeAll : List Instr := [.stB8 (fm (.main 8)), .stB16 (fm (.main 8)), .stB32 (fm (.main 8)), .stB64 (fm (.main 8)), .stB128 (fm (.main 8)),
  .stag (fm (.main 0) .strong .device)]

theorem test_witness_GlobalStores :
    (Ready (at1 0x2000) storeAll ∧ (gang (at1 0x2000)).m ≠ 0 ∧
      ∀ n ∈ [1, 2, 4, 8, 16, 32], ∀ link ∈ [true, false], passes ((at1 0x2000).globalCheck (gang (at1 0x2000)) (ask n .store false link) (globals (at1 0x2000))) (fun r =>
        r.2.length == 1 && (r.2.all fun p => !isLink p.dpa) && (r.1.leaveIdem (gang (at1 0x2000)) false).2 &&
          ((r.1.leaveIdem (gang (at1 0x2000)) false).1.team? 0 1).any fun t => !t.idem) = true) ∧
    Ready (at1 0x2004) storeAll ∧ stops ((at1 0x2004).globalCheck (gang (at1 0x2004)) (ask 8 .store false true) (globals (at1 0x2004))) = true :=
  ⟨⟨ready_of (by decide +kernel), by decide +kernel, by decide +kernel⟩, ready_of (by decide +kernel), by decide +kernel⟩

def locals (s : State) : List (Nat × Word32) := (lanesOf (gang s).m).map fun j => (j, lo32 ((the s).src64 j false (.main 4)))
/-- Every lane has a local address of its own. -/
def near : State := regs 4 0x100 16
def localAll : List Instr := [.ldlB8 (fm (.main 8)), .ldlB16 (fm (.main 8)), .ldlB32 (fm (.main 8)), .ldlB64 (fm (.main 8)), .ldlB128 (fm (.main 8)),
  .stlB8 (fm (.main 8)), .stlB16 (fm (.main 8)), .stlB32 (fm (.main 8)), .stlB64 (fm (.main 8)), .stlB128 (fm (.main 8))]

theorem test_witness_LocalLoadsAndStores :
    (Ready near localAll ∧ (gang near).m ≠ 0 ∧ (near.leaveIdem (gang near) false).2 = true ∧
      ∀ n ∈ [1, 2, 4, 8, 16], ∀ write ∈ [true, false], passes (near.localCheck (gang near) n write (locals near)) (fun l => l.map (·.1) == lanesOf (gang near).m) = true) ∧
    Ready (reg 4 0xFFFFF) localAll ∧ (∀ n ∈ [1, 2, 4, 8, 16], stops ((reg 4 0xFFFFF).localCheck (gang (reg 4 0xFFFFF)) n true (locals (reg 4 0xFFFFF))) = true) :=
  ⟨⟨ready_of (by decide +kernel), by decide +kernel, by decide +kernel, by decide +kernel⟩, ready_of (by decide +kernel), by decide +kernel⟩

def fat : FAt := { guard := .always, d := .main 2, a := .main 4, b := .main 8, c := .main 0, scope := .device, kind := .n, op := .add }
def fatTeam : FAt := { fat with scope := .team }

theorem test_witness_Atomics :
    (Ready (at1 0x2000) [.atomB32 fat, .atomB64 fat, .redB32 { fat with d := .main 0 }, .redB64 { fat with d := .main 0 }] ∧ (gang (at1 0x2000)).m ≠ 0 ∧
      ∀ n ∈ [4, 8], passes ((at1 0x2000).globalCheck (gang (at1 0x2000)) (ask n .store false true) (globals (at1 0x2000))) (fun r =>
        r.2.length == 1 && (r.2.all fun p => !isLink p.dpa) && (r.1.leaveIdem (gang (at1 0x2000)) true).2) = true) ∧
    (Ready near [.atomlB32 fatTeam, .atomlB64 fatTeam] ∧ (near.leaveIdem (gang near) true).2 = true ∧
      ∀ n ∈ [4, 8], passes (near.localCheck (gang near) n true (locals near)) (fun l => l.map (·.1) == lanesOf (gang near).m) = true) ∧
    stops ((at1 0x2002).globalCheck (gang (at1 0x2002)) (ask 4 .store false true) (globals (at1 0x2002))) = true ∧
    stops ((at1 0x102).localCheck (gang (at1 0x102)) 4 true (locals (at1 0x102))) = true :=
  ⟨⟨ready_of (by decide +kernel), by decide +kernel, by decide +kernel⟩,
    ⟨ready_of (by decide +kernel), by decide +kernel, by decide +kernel⟩, by decide +kernel, by decide +kernel⟩

theorem test_witness_AtomicValues :
    (∃ (b : Word64), b.toNat < 2 ^ 32 ∧ AtomKind.f = .f ∧ (AtomOp.min = .add ∨ AtomOp.min = .min)) ∧
    ∃ (wide : Bool) (kind : AtomKind), wide = true ∧ (kind = .f → wide = false) := ⟨⟨7, by decide⟩, true, .s, rfl, by decide⟩

def fenced : State := after (.fence (fs (.main 0) (.main 0) 0 2)) base

theorem test_witness_FencesCacheControlAndTags :
    (∀ mode ∈ [(0 : Fin 8), 1, 2, 3, 4], ((Instr.fence (fs (.main 0) (.main 0) 0 mode)).wf = true)) ∧ Ready base [.fence (fs (.main 0) (.main 0) 0 2), .cctl { fm (.main 0) .weak .thread 1 with a := .main 0 }] ∧
    ((gang base).m ≠ 0 ∧ (base.bankSettle (gang base)) = (base, true) ∧ base.anyWindowLocked 0 1 = false ∧ (theTeam base).idem = false ∧ (theTeam base).windows = []) ∧
    ((fenced.core 0).op? (last fenced).id = some (last fenced) ∧ (∃ sc target, (last fenced).kind = .fence sc target) ∧
      fenced.fenceDone 0 (last fenced) false 0 = true) ∧
    (Issues (at1 0x2000) [.pref (fm (.main 0))] ∧ lanesOf (gang (at1 0x2000)).m = [0] ∧
      (match (at1 0x2000).translate 0 1 0x2000 .load with
        | .ok (u, dpa) => !isHostDie dpa && !isLink dpa && (u.badTag (gang (at1 0x2000)) false { lane := 0, va := 0x2000, dpa := dpa }).isNone &&
            ((u.core 0).l1Live u.ns (lineOf dpa)).isNone &&
            ((u.modCore 0 fun c => c.missEvent 0 (lineOf dpa)).homeRead .heldEventPost (u.fillSpan dpa 1).1 (u.fillSpan dpa 1).2).2.isSome
        | .error _ => false) = true) ∧
    (Ready (at1 0x2000) [.cctl (fm (.main 0)),  .cctl (fm (.main 0) .weak .thread 2), .ltag (fm (.main 8))] ∧
      passes ((at1 0x2000).globalCheck (gang (at1 0x2000)) { n := 1, need := .load, host := false, link := false, access := false } (globals (at1 0x2000)))
        (fun r => r.2.length == 1 && (List.range 64).all fun j => !(r.1.core 0).follows 0 j r.1.fresh (2 ^ 60) 0 .weak) = true) := by
  refine ⟨by decide +kernel, ready_of (by decide +kernel), by decide +kernel, ⟨by decide +kernel, ?_, by decide +kernel⟩,
    ⟨issues_of (by decide +kernel), by decide +kernel, by decide +kernel⟩, ready_of (by decide +kernel), by decide +kernel⟩
  exact ⟨.cluster, 0, by decide +kernel⟩

def loaded : State := after (.ldB32 (fm (.main 8) .strong .device)) (at1 0x2000 (stored 0x2000 4 [0x89ABCDEF]))
def filled : State := after (.homeFillRequest 0 (last loaded).id 0 0xF) loaded
def added : State := after (.atomB32 fat) (at1 0x2000 (stored 0x2000 4 [0x89ABCDEF]))
def addedAt : State := after (.homeAtomicRequest 0 (last added).id 0x2000) added
def storing : State := after (.stB32 (fm (.main 8))) (at1 0x2000 (reg 8 0x12345678))
/-- The one request of a store. -/
def request (s : State) : StoreReq := ((the s).stores.head?).getD
  { id := 0, op := 0, lane := 0, va := 0, dpa := 0, width := 0, data := 0, todo := 0, cls := .weak, scope := .thread, tag := none, gwct := 0,
    stamps := [], firm := false }
def performed : State := after (.homeStoreRequest 0 0 (request storing).id 0xF) storing
def acknowledged : State := after (.storeAckArrival 0 0 (request performed).id) performed

/-- Local accesses of lane 0 at their banks: a store, a load of the same bytes, and an atomic. -/
def bankStore : State := after (.stlB32 (fm (.main 8) .strong .team)) (at1 0x100 (reg 8 0x12345678))
def bankLoad : State := bankStore.modCore 0 fun c => c.modOp (last bankStore).id fun o =>
  { o with kind := match o.kind with
      | .bank _ cls clk accs => .bank (.load false) cls clk accs
      | k => k }
def bankAtom : State := after (.atomlB32 fatTeam) (at1 0x100 (localMem 0x100 4 [7]))
/-- Its first part performed. -/
def banked (s : State) : State :=
  match (s.core 0).bankParts (last s) with
  | p :: _ => s.bankDo 0 (last s) p
  | [] => s

def bankB (s : State) (doneToo : Bool) : Bool :=
  match (last s).kind with
  | .bank act _ _ accs =>
    let parts := (s.core 0).bankParts (last s)
    if doneToo then accs.all (fun a => a.todo == 0)
    else !parts.isEmpty && (accs.all fun a => decide (a.width ≤ 16) && (s.team? a.core a.team).isSome) &&
      parts.all fun p => act == .store || (s.readyLocal p.1.place p.1.width (.operationComplete 0 (last s).id)).2
  | _ => false

theorem test_witness_AccessesComplete :
    (Flying filled 0 (last filled) ∧ (match (last filled).kind with
      | .load _ _ _ _ accs => accs.length == 1 && accs.all fun a => a.todo == 0
      | _ => false) = true) ∧
    (Flying addedAt 0 (last addedAt) ∧ (match (last addedAt).kind with
      | .atom _ _ _ _ reqs => reqs.length == 1 && reqs.all fun q => q.done
      | _ => false) = true ∧ addedAt.pinsLeft (last addedAt) = false) ∧
    (Flying acknowledged 0 (last acknowledged) ∧ (last acknowledged).kind = .store ∧ (the acknowledged).stores = []) ∧
    (∀ s ∈ [bankLoad, bankStore, bankAtom], Flying s 0 (last s) ∧ bankB s false = true) ∧
    ∀ s ∈ [banked bankStore, banked bankAtom], Flying s 0 (last s) ∧ bankB s true = true := by
  refine ⟨⟨flying_of (by decide +kernel), by decide +kernel⟩, ⟨flying_of (by decide +kernel), by decide +kernel, by decide +kernel⟩,
    ⟨flying_of (by decide +kernel), by decide +kernel, by decide +kernel⟩, fun s hs => ?_, fun s hs => ?_⟩
  · have h : ([bankLoad, bankStore, bankAtom].all fun s => flyingB s (last s) && bankB s false) = true := by decide +kernel
    have := List.all_eq_true.mp h s hs
    simp only [Bool.and_eq_true] at this
    exact ⟨flying_of this.1, this.2⟩
  · have h : ([banked bankStore, banked bankAtom].all fun s => flyingB s (last s) && bankB s true) = true := by decide +kernel
    have := List.all_eq_true.mp h s hs
    simp only [Bool.and_eq_true] at this
    exact ⟨flying_of this.1, this.2⟩


/-! ### Witnesses: homes, windows, sealed ranges and backing -/

def accs (o : Op) : List Acc :=
  match o.kind with
  | .load _ _ _ _ l => l
  | _ => []
def reqs (o : Op) : List AtomReq :=
  match o.kind with
  | .atom _ _ _ _ l => l
  | _ => []

theorem test_witness_HomePerformsLoads :
    let o := last loaded
    let a := (accs o).headD { lane := 0, va := 0, dpa := 0, width := 0, todo := 0, data := 0, ev := false }
    (loaded.core 0).op? o.id = some o ∧ (accs o).find? (fun a => a.lane == 0) = some a ∧ o.kind = .load .strong .device false false (accs o) ∧
      (loaded.core 0).fillOk o (accs o) a .strong 0xF = true ∧ isHostDie a.dpa = false ∧
      (loaded.homeRead (.homeFillRequest 0 o.id 0 0xF) a.dpa a.width).2.isSome := by
  decide +kernel

def backedAt (s : State := base) : State := { s with pages := [(2, pageSt true false)] }
def storingBacked : State := after (.stB32 (fm (.main 8))) (at1 0x2000 (reg 8 0x12345678 backedAt))

theorem calm_of {s : State} (h : (s.events.held.isEmpty && (s.ctxs.all fun c => !c.2.poolHold || c.2.state != .running) &&
    s.regions.all fun r => s.region? r.ctx r.idx == some r) = true) : Calm s := by
  simp only [Bool.and_eq_true, List.isEmpty_iff, List.all_eq_true, beq_iff_eq] at h
  refine ⟨h.1.1, fun c hc => ?_, h.2⟩
  unfold State.ctx at hc ⊢
  cases hx : get? s.ctxs c with
  | none => rw [hx] at hc; exact absurd hc (by decide)
  | some x =>
    have := h.1.2 _ (mem_of_get? hx)
    rw [hx] at hc
    simp only [Option.getD_some] at hc ⊢
    simpa [hc] using this

def changed : Nat → Option Byte := fun _ => some 0x55

theorem test_witness_HomePerformsStores :
    (let s := storingBacked
     let r := request s
     s.group? 0 0 = some (the s) ∧ (the s).store? r.id = some r ∧ (s.core 0).storeOk (the s) 0 r 0xF = true ∧ isHostDie r.dpa = false ∧ r.tag = none ∧
       r.width = 4 ∧ pageOf (r.dpa + r.width - 1) = pageOf r.dpa ∧ (s.pageSt (pageOf r.dpa)).held = false ∧ (s.pageSt (pageOf r.dpa)).backed = true ∧
       (s.regionAt (4096 * pageOf r.dpa)).all (fun q => !q.ed) = true ∧
       ∀ h ∈ halvesOf r.dpa r.width, (s.line (lineOf h)).half h = .invalid ∧ (s.line (lineOf h)).req h = false) ∧
    Calm storingBacked ∧
    ∀ p ∈ [(0, true), (0, false), (3, false)],
      let s := aperture p.1 p.2
      ∃ r ∈ s.regions, s.regionAt 0x2000 = some r ∧ r.view = none ∧ (s.pageSt 2).held = false ∧ (s.pageSt 2).backed = false ∧
        pageOf (0x2000 + 4 - 1) = pageOf 0x2000 ∧ s.region? r.ctx r.idx = some r ∧ r.pool = p.1 ∧ r.full = p.2 ∧
        (∃ i < 4, ∃ b ∈ changed i, b ≠ r.datumByte (0x2000 + i)) ∧ ¬∃ i < 4, ∃ b ∈ some (r.datumByte (0x2000 + i)), b ≠ r.datumByte (0x2000 + i) :=
  ⟨by decide +kernel, calm_of (by decide +kernel), by decide +kernel⟩

theorem test_witness_HomePerformsAtomics :
    let o := last added
    let q := (reqs o).headD { dpa := 0, va := 0, done := true, lanes := [] }
    let r := added.homeRead (.homeAtomicRequest 0 o.id 0x2000) 0x2000 4
    (added.core 0).op? o.id = some o ∧ o.kind = .atom .add .n false .device (reqs o) ∧ (reqs o).find? (fun q => q.dpa == 0x2000 && !q.done) = some q ∧
      isLink 0x2000 = false ∧ added.pinned (lineOf 0x2000) = false ∧ (q.lanes.map (·.1)).Nodup ∧ q.lanes ≠ [] ∧
      (∀ l ∈ q.lanes, (added.core 0).follows o.slot l.1 o.id 0x2000 4 .strong = false ∧ (added.core 0).behindStores o.slot l.1 o.id 0x2000 4 = false) ∧
      r.2.isSome ∧ (r.1.homeWrite (.homeAtomicRequest 0 o.id 0x2000) 0x2000 4 (fun _ => some 7) none).2.isSome := by
  decide +kernel

def line (lo hi : HostSt) (dirty reqHi : Bool) : LineSt := { lease := 0, present := true, dirty := dirty, lo := lo, hi := hi, reqLo := false, reqHi := reqHi }
def blank : L1Line := { bytes := List.replicate 128 0, tags := [], limit := 0, filler := 0, evictFirst := false, stamps := [] }
/-- Page 2 of an aperture is Backed, its first line dirty; and page 2 is held. -/
def dirty : State := { aperture 3 false backedAt with lines := [(0x40, line .invalid .invalid true false)] }
def owed : State := { aperture 3 false with pages := [(2, pageSt false true)], held := [(2, .nop)] }
/-- Page 2 holds the datum in every line. -/
def idle : State := stored 0x2000 4 (List.replicate 1024 0xDEADBEEF) (aperture 3 false backedAt)
/-- A far page of an auto region, hot; and one that is being moved. -/
def far (m : Bool) : State :=
  { (aperture 3 false) with pages := [(2, { pageSt true false with far := true, heat := 40, migrating := m })], dies := [(0, { DieMem.init with near := 1000 })],
                            regions := (aperture 3 false).regions.map fun r => { r with place := 2 } }
/-- No near frame is free, and page 3, a near page of the region, is cold. -/
def exchanging : State :=
  { far false with dies := [(0, { DieMem.init with near := 0 })], pages := (far false).pages ++ [(3, { pageSt true false with heat := 5 })] }

theorem test_witness_HomeUpkeep :
    (let r := request performed
     performed.group? 0 0 = some (the performed) ∧ (the performed).store? r.id = some r ∧ r.todo = 0 ∧ isLink r.dpa = false ∧ performed.pinned (lineOf r.dpa) = false ∧ (the performed).ackFirst r = false) ∧
    (get? ((onCore fun c => { c with l1 := [(0x40, blank)] }).core 0).l1 0x40 = some blank ∧ blank.limit ≤ base.ns) ∧
    (∃ r ∈ dirty.regions, (dirty.line 0x40).dirty = true ∧ dirty.regionAt (128 * 0x40) = some r ∧ r.dat = true ∧ (dirty.pageSt (pageOf (128 * 0x40))).backed = true) ∧
    (∃ r ∈ idle.regions, idle.releasable 2 = true ∧ idle.regionAt (4096 * 2) = some r ∧ idle.region? r.ctx r.idx = some r ∧ r.ed = false) ∧
    (∃ r ∈ owed.regions, owed.regionAt (4096 * 2) = some r ∧ owed.mayRelease 2 = true ∧ owed.region? r.ctx r.idx = some r ∧ r.ed = false) ∧
    (((far true).pageSt 2).migrating = true ∧ ((far true).pageSt 2).swap ≠ some 2 ∧ ∀ r ∈ (far true).regions, r.view = none) ∧
    (∃ r ∈ (far false).regions, (far false).pages.length ≤ 256 ∧ 256 ≤ ((far false).die 0).near ∧ get? (far false).pages 2 = some ((far false).pageSt 2) ∧
      dieOfDpa (4096 * 2) = 0 ∧ (far false).regionAt (4096 * 2) = some r ∧ r.place = 2 ∧ r.view = none ∧ ((far false).pageSt 2).backed = true ∧
      ((far false).pageSt 2).far = true ∧ 32 ≤ ((far false).pageSt 2).heat ∧ (far false).frameHeld 2 = false) ∧
    ∃ r ∈ exchanging.regions, (exchanging.pages.map (·.1)).Nodup ∧ get? exchanging.pages 2 = some (exchanging.pageSt 2) ∧
      exchanging.regionAt (4096 * 2) = some r ∧ r.place = 2 ∧ r.view = none ∧ (exchanging.pageSt 2).backed = true ∧ (exchanging.pageSt 2).far = true ∧
      32 ≤ (exchanging.pageSt 2).heat ∧ exchanging.frameHeld 2 = false ∧ (exchanging.pageSt 2).migrating = false ∧
      (∀ k ∈ exchanging.pages, k.1 ≠ 2 → k.2.heat < 32) ∧ (exchanging.die 0).near = 0 ∧ exchanging.coldest 0 = some 3 ∧
      4 * (exchanging.pageSt 3).heat < (exchanging.pageSt 2).heat := by
  refine ⟨by decide +kernel, by decide +kernel, by decide +kernel, by decide +kernel, by decide +kernel, by decide +kernel, by decide +kernel, by decide +kernel⟩

def win (base loc len : Nat) (words : SMap (Bool × BitVec 4)) : Window :=
  { base := base, loc := loc, len := len, words := words, freshClock := 0, fresh := [], leases := [], closing := false,
    pages := (List.range ((len + 4095) / 4096)).map fun i => base / 4096 + i }
/-- The operands of `WMAP`. -/
def mapping (b loc len : Nat) (s : State := base) : State := reg 4 b (reg 6 loc (reg 7 len s))
def wmap : FSub := { sub (.main 8) (.main 4) (.main 6) with c := .main 7 }
def windowed : State := onTeam fun t =>
  { t with windows := [(0, win 0x8000 0x4000 128 [(3, (true, 5))]), (3, win 0x9000 0x6000 256 [])], seals := [(0, ⟨0x7000, 128, 0, false⟩)] }
def crowded : State := onTeam fun t => { t with windows := (List.range 16).map fun k => (k, win 0x8000 (0x4000 + 128 * k) 128 []) }
def place (loc : Nat) : Place := { core := 0, team := 1, off := loc }

/-- No earlier cause holds: a number is free, the operands are within their limits, and the range meets no other. -/
def fine (s : State) (b loc len : Nat) : Bool :=
  (s.place? 0 1 (BitVec.ofNat 32 loc) len == some (place loc)) && !((List.range 16).all fun k => (get? (theTeam s).windows k).isSome) && b % 128 == 0 && loc % 128 == 0 &&
    len % 128 == 0 && decide (128 ≤ len) && decide (len ≤ 2 ^ 20) && ((theTeam s).windows.all fun w => w.2.closing || !overlaps w.2.loc w.2.len loc len) &&
    !(theTeam s).isSealed loc len

def wmapPasses (s : State) (b loc len : Nat) : Bool :=
  passes (s.spots 0 1 .store [(0, BitVec.ofNat 64 b)]) fun r => r.1.wmapRange (theTeam s) 1 b len (r.2.map fun q => pageOf q.dpa) &&
    (r.1.spotStop (gang s) { n := 1, need := .store, host := false, link := false, access := false } r.2).isNone

theorem test_witness_WindowMapping :
    (∀ s ∈ [mapping 0x2000 0x100 128, mapping 0x2000 0x100 128 crowded, mapping 0x2010 0x100 128, mapping 0x2000 0x4000 128 windowed],
      readyB s [.wmap wmap, .wquery { sub (.main 8) (.main 4) (.main 0) with guard := .always }] = true ∧ (gang s).m ≠ 0 ∧ s.team? 0 1 = some (theTeam s)) ∧
    base.place? 0 1 0xFFF0 256 = none ∧ (crowded.place? 0 1 0x100 128 = some (place 0x100) ∧ ∀ k < 16, (get? (theTeam crowded).windows k).isSome = true) ∧
    (base.place? 0 1 0x100 128 = some (place 0x100) ∧ 0x2010 % 128 ≠ 0 ∧ ¬∀ k < 16, (get? (theTeam base).windows k).isSome = true) ∧
    (windowed.place? 0 1 0x4000 128 = some (place 0x4000) ∧ ∃ w ∈ (theTeam windowed).windows, w.2.closing = false ∧ overlaps w.2.loc w.2.len 0x4000 128 = true) ∧
    (fine base 0x80000000 0x100 128 = true ∧ stops (base.spots 0 1 .store [(0, 0x80000000)]) = true) ∧
    (fine windowed 0x9000 0x100 128 = true ∧ passes (windowed.spots 0 1 .store [(0, 0x9000)]) (fun r =>
      !r.1.wmapRange (theTeam windowed) 1 0x9000 128 (r.2.map fun q => pageOf q.dpa)) = true) ∧
    (fine base 0x2000 0x100 128 = true ∧ wmapPasses base 0x2000 0x100 128 = true) ∧
    (((the (mapping 16 0 0)).src32 0 (.main 4)).toNat = 16 ∧ ((the (mapping 15 0 0)).src32 0 (.main 4)).toNat = 15) := by
  decide +kernel

theorem test_witness_WindowMapping_ready : Ready (mapping 0x2000 0x100 128) [.wmap wmap, .wquery (sub (.main 8) (.main 4) (.main 0))] := ready_of (by decide +kernel)

def soundB (t : Team) : Bool := decide ((t.windows.map (·.1)).Nodup) && t.windows.all fun w => decide (w.1 < 16) && decide ((w.2.words.map (·.1)).Nodup)
def handles (k : Nat) (s : State) : State := reg 4 k (reg 6 128 s)
def sealed : State := onTeam fun t => { t with seals := [(0, ⟨0x7000, 128, 0, false⟩), (1, ⟨0x7100, 128, 2, false⟩), (2, ⟨0x7200, 128, 0, true⟩)] }
def fullSeals : State := onTeam fun t => { t with seals := (List.range 8).map fun k => (k, ⟨0x7000 + 128 * k, 128, 0, false⟩) }
def sealing : State := after (.sealRange (sub (.main 8) (.main 4) (.main 6))) (handles 0x100 base)
def unsealing (k : Nat) : State := after (.unsealRange (sub (.main 0) (.main 4) (.main 0))) (handles k sealed)
/-- No earlier cause of the seal trap holds. -/
def sealFine (s : State) (loc len : Nat) : Bool :=
  (s.place? 0 1 (BitVec.ofNat 32 loc) len == some (place loc)) && !((List.range 8).all fun k => (get? (theTeam s).seals k).isSome) && loc % 128 == 0 && len % 128 == 0 &&
    decide (128 ≤ len) && decide (len ≤ 2 ^ 21)
/-- A local store of the gang is left at its bank. -/
def banking : State := after (.stlB32 (fm (.main 8) .strong .team)) (at1 0 windowed)

theorem test_witness_WindowWriteBackAndSeals :
    (let l : List Instr := [.wsync (sub (.main 0) (.main 4) (.main 0)), .wsync (sub (.main 0) (.main 0) (.main 0) 1), .winv (sub (.main 0) (.main 4) (.main 0)),
        .winv (sub (.main 0) (.main 0) (.main 0) 1), .wunmap (sub (.main 0) (.main 4) (.main 0))]
      ∀ k ∈ [0, 7], let s := handles k windowed
        readyB s l = true ∧ (gang s).m ≠ 0 ∧ s.team? 0 1 = some (theTeam s) ∧ soundB (theTeam s) = true ∧ (theTeam s).idem = false ∧
          (∀ w ∈ (theTeam s).windows, s.windowLocked 0 1 w.2 = false) ∧ ((theTeam s).named k).isSome = (k == 0) ∧ s.bankSettle (gang s) = (s, true)) ∧
    (let s := banking
     readyB s [.wsync (sub (.main 0) (.main 4) (.main 0)), .wunmap (sub (.main 0) (.main 4) (.main 0))] = true ∧ (gang s).m ≠ 0 ∧
       ((theTeam s).named 0).isSome = true ∧ soundB (theTeam s) = true ∧ (s.bankSettle (gang s)).2 = false) ∧
    (∀ s ∈ [handles 0x100 base, handles 0x100 fullSeals, handles 1 sealed],
      readyB s [.sealRange (sub (.main 8) (.main 4) (.main 6)), .unsealRange (sub (.main 0) (.main 4) (.main 0))] = true ∧ s.team? 0 1 = some (theTeam s)) ∧
    (base.place? 0 1 0xFFF0 128 = none ∧ (∀ k < 8, (get? (theTeam fullSeals).seals k).isSome = true) ∧ 0x110 % 128 ≠ 0 ∧
      (windowed.place? 0 1 0x4000 128 = some (place 0x4000) ∧ ∃ w ∈ (theTeam windowed).windows, w.2.closing = false ∧ overlaps w.2.loc w.2.len 0x4000 128 = true) ∧
      (sealFine sealed 0x7000 128 = true ∧ (theTeam sealed).isSealed 0x7000 128 = true) ∧ sealFine base 0x100 128 = true ∧
      (theTeam base).windows = [] ∧ (theTeam base).seals = []) ∧
    (get? (theTeam sealed).seals 0 = some ⟨0x7000, 128, 0, false⟩ ∧ get? (theTeam sealed).seals 2 = some ⟨0x7200, 128, 0, true⟩) ∧
    (flyingB sealing (last sealing) = true ∧ (last sealing).kind = .sealRange 0 ∧ (∀ c ∈ sealing.cores, c.2.locks = []) ∧ sealing.banksOn { core := 0, team := 1, off := 0x100 } 128 true = false) ∧
    (flyingB (unsealing 0) (last (unsealing 0)) = true ∧ (last (unsealing 0)).kind = .unsealRange 0 ∧
      get? (theTeam (unsealing 0)).seals 0 = some ⟨0x7000, 128, 0, true⟩) ∧
    (flyingB (unsealing 1) (last (unsealing 1)) = true ∧ (last (unsealing 1)).kind = .unsealRange 1 ∧
      get? (theTeam (unsealing 1)).seals 1 = some ⟨0x7100, 128, 2, true⟩) := by
  decide +kernel

def spanned (n : Nat) (s : State) : State := at1 0x2000 (reg 6 n s)
def surveying (map : Bool) : State :=
  after (.survey (if map then sub (.main 8) (.main 4) (.main 0) 1 else sub (.main 8) (.main 4) (.main 6))) (spanned 4 base)
def probing : State := after (.probe (sub (.main 8) (.main 4) (.main 0))) (spanned 0 (aperture 3 false))
def surveyingBehind : State := after (.survey (sub (.main 8) (.main 4) (.main 6))) (reg 6 4 storing)
def discarding : State := after (.discard (sub (.main 0) (.main 4) (.main 6))) (spanned 1 (aperture 3 false backedAt))
/-- The storage is a view of an aperture. -/
def viewed : State := { aperture 3 false with regions := (aperture 3 false).regions.flatMap fun r =>
  [{ r with view := some (1, 5), dat := false }, { r with idx := 5, base := 0x60000000 }] }

theorem test_witness_SurveyProbeDiscard :
    (readyB (spanned 4 base) [.survey (sub (.main 8) (.main 4) (.main 6)), .survey (sub (.main 8) (.main 4) (.main 0) 1), .probe (sub (.main 8) (.main 4) (.main 0)),
      .discard (sub (.main 0) (.main 4) (.main 6))] = true ∧ (gang (spanned 4 base)).m ≠ 0) ∧
    (∀ map ∈ [true, false], flyingB (surveying map) (last (surveying map)) = true ∧ (last (surveying map)).kind = .survey map false [(0, 0x2000, if map then 0 else 4)] ∧
      ((surveying map).core 0).ownPerformed (last (surveying map)).slot (last (surveying map)).lanes (last (surveying map)).id = true) ∧
    (let s := surveyingBehind
     (s.core 0).op? (last s).id = some (last s) ∧ (last s).kind = .survey false false [(0, 0x2000, 4)] ∧
       (s.core 0).ownPerformed (last s).slot (last s).lanes (last s).id = false) ∧
    (passes (base.globalCheck (gang (spanned 0 base)) { n := 1, need := .load, host := false, link := false, access := false } [(0, 0x2000)]) (fun r => r.2.length == 1) = true ∧
      flyingB probing (last probing) = true ∧ (last probing).kind = .probe [(0, 0x2000)] ∧ (probing.core 0).ownPerformed (last probing).slot (last probing).lanes (last probing).id = true ∧
      ∃ r ∈ probing.regions, probing.regionAt 0x2000 = some r ∧ r.dat = true) ∧
    (let s := spanned 65 (aperture 3 false)
     readyB s [.discard (sub (.main 0) (.main 4) (.main 6))] = true ∧ 64 < ((the s).src32 0 (.main 6)).toNat ∧ ((the s).src64 0 false (.main 4)).toNat % 4096 = 0) ∧
    (let s := spanned 1 base
     readyB s [.discard (sub (.main 0) (.main 4) (.main 6))] = true ∧ passes (s.spots 0 1 .store [(0, 0x2000)]) (fun r =>
       r.2.length == 1 && r.2.all fun p => (r.1.regionAt p.dpa).any fun q => q.ctx == 1 && q.view.isNone && !q.dat) = true) ∧
    (let s := spanned 1 viewed
     readyB s [.discard (sub (.main 0) (.main 4) (.main 6))] = true ∧ passes (s.spots 0 1 .store [(0, 0x2000)]) (fun r =>
       r.2.length == 1 && r.2.all fun p => (r.1.regionAt p.dpa).any fun q => q.ctx == 1 && match q.view with
         | some (_, src) => (r.1.region? 1 src).any fun x => x.dat
         | none => false) = true) ∧
    (passes ((aperture 3 false).spots 0 1 .store [(0, 0x2000)]) (fun r => (r.2.all fun p => (r.1.regionAt p.dpa).any fun q =>
      q.dat && q.ctx == 1 && q.view.isNone) && (r.1.leaveIdem (gang (spanned 1 base)) true).2) = true) ∧
    (let s := discarding
     ∃ r ∈ s.regions, flyingB s (last s) = true ∧ (last s).kind = .discard [2] ∧ (last s).onPins = [] ∧ (last s).lanes ≠ 0 ∧ s.group? 0 (last s).slot = some (the s) ∧
      (∀ l ∈ linesOf 2, s.pinned l = false) ∧ (s.core 0).settled (last s).slot (last s).lanes (last s).id true = true ∧
      s.discardReady 2 = true ∧ s.regionAt (4096 * 2) = some r ∧ s.region? r.ctx r.idx = some r ∧ r.ed = false ∧ (s.pageSt 2).backed = true ∧
      ∀ h ∈ halvesOf (4096 * 2) 4096, (s.line (lineOf h)).half h = .invalid) := by
  decide +kernel


/-! ### Witnesses: barriers, copies and tags -/

def bar (init phase : Bool) (pend count : Nat) (bytes : Int) (arrived early : Nat) : Barrier :=
  { bytes := bytes, pend := pend, count := count, posted := false, bm := false, cl := false, phase := phase, init := init,
    arrived := BitVec.ofNat 192 arrived, early := BitVec.ofNat 192 early }
/-- Objects: 0 waits for one arrival, 1 has all but one and this group twice, 2 is not initialised, 3 expects bytes. -/
def barred (k n : Nat) (check : Bool := false) : State :=
  reg 4 k (reg 6 n (onTeam (fun t => { t with bars := [(0, bar true false 1 1 0 0 0), (1, bar true true 2 3 0 1 1), (3, bar true false 1 1 8 0 0)] }) (onCtx fun c => { c with check := check })))
def fbar (d b : Spec) : FBar := { guard := .always, d := d, a := .main 4, b := b, cluster := false, bytes := false }
def barriers : List Instr := [.barinit (fbar (.main 0) (.main 6)), .bararv (fbar (.main 8) (.main 0)), .barexp (fbar (.main 0) (.main 6)), .barwait (fbar (.main 0) (.main 6)), .bartry (fbar (.main 8) (.main 6))]
def obj (k : Nat) : BarAt := { core := 0, team := 1, obj := k }
/-- The team is one of a cluster of two; its peer stands on core 1. -/
def peered (s : State := base) : State :=
  (onTeam (fun t => { t with clw := 2, clh := 1 }) s).modCore 1 fun c => { c with teams := [(2, { theTeam s with clw := 2, clh := 1, clx := 1, pos := 1 })] }
def peerObj (k : Nat) : BarAt := { core := 1, team := 2, obj := k }
/-- The group's wait is held at the peer's object 0, which its `BARINIT` then sets up without its CL. -/
def heldBar : State := after (.barwait (fbar (.main 0) (.main 6))) (peered (barred 0x10102 0))

theorem test_witness_BarrierInstructions :
    (∀ k < 4, readyB (barred k 0) barriers = true ∧ (barred k 0).barAt? 0 1 (BitVec.ofNat 32 k) = some (obj k)) ∧ (gang (barred 0 0)).m ≠ 0 ∧
    (((barred 0 0).ctx 1).check = false ∧ ((barred 0 0 true).ctx 1).check = true ∧ (barred 0 0 true).cur.mask = (the (barred 0 0 true)).liveMask ∧
      (allOff 1 (barred 0 0 true)).cur.mask ≠ (the (allOff 1 (barred 0 0 true))).liveMask) ∧
    (barred 0x40 0).barAt? 0 1 0x40 = none ∧ ((barred 2 0).bar (obj 2)).init = false ∧
    ((barred 2 192).barNamed (obj 2) = false ∧ ((the (barred 2 192)).src32 0 (.main 6)).toNat = 192 ∧ ((the (barred 2 1)).src32 0 (.main 6)).toNat = 1) ∧
    (((barred 0 0).bar (obj 0)).init = true ∧ (barred 0 0).arrivalReady (gang (barred 0 0)) ((barred 0 0).bar (obj 0)).cl = true ∧
      ((barred 0 0).bar (obj 0)).arrived.getLsbD ((theTeam base).participant 0) = false) ∧
    ((barred 1 0).arrivalReady (gang (barred 1 0)) ((barred 1 0).bar (obj 1)).cl = true ∧
      ((barred 1 0).bar (obj 1)).arrived.getLsbD ((theTeam base).participant 0) = true ∧ ((barred 1 0).bar (obj 1)).early.getLsbD ((theTeam base).participant 0) = true) ∧
    (((barred 0 0).bar (obj 0)).bytes + ((2 ^ 31 - 1 : Nat) : Int) ≤ 2 ^ 31 - 1 ∧ 2 ^ 31 - 1 < ((barred 3 0).bar (obj 3)).bytes + ((2 ^ 31 - 8 : Nat) : Int)) ∧
    (((barred 0 0).bar (obj 0)).phase = false ∧ ((the (barred 0 0)).src32 0 (.main 6)).getLsbD 0 = false ∧ ((the (barred 0 1)).src32 0 (.main 6)).getLsbD 0 = true) ∧
    (bar true false 1 1 0 0 0).complete = false ∧ ((bar true false 0 1 0 1 0).complete = true ∧ (bar true false 0 1 0 1 0).next.complete = false) ∧
    (let s := peered (barred 0x10102 0)
     readyB s barriers = true ∧ (gang s).m ≠ 0 ∧ s.barAt? 0 1 0x10102 = some (peerObj 2) ∧ (s.bar (peerObj 2)).init = false ∧
       s.arrivalReady (gang s) true = true ∧ (s.ctx 1).check = false) ∧
    (let s := peered (barred 0 1)
     (s.bar (obj 0)).init = true ∧ (s.bar (obj 0)).arrived = 0 ∧ (s.bar (obj 0)).early = 0 ∧ (s.bar (obj 0)).bytes = 0 ∧ s.barWaited (obj 0) = false ∧
       s.barNamed (obj 0) = false ∧ ∀ c ∈ s.cores, ∀ o ∈ c.2.ops, o.kind = .simple) ∧
    (((barred 1 0).bar (obj 1)).init = true ∧ ((barred 1 0).bar (obj 1)).arrived ≠ 0 ∧ ((the (barred 2 193)).src32 0 (.main 6)).toNat = 193) ∧
    (let s := heldBar
     (s.core 0).op? (last s).id = some (last s) ∧ (last s).kind = .barheld (.barwait (fbar (.main 0) (.main 6))) 1 2 2 ∧
       s.group? 0 (last s).slot = some (the s) ∧ (s.bar (peerObj 2)).cl = false ∧ (the s).hold = .none) := by
  refine ⟨by decide +kernel, by decide +kernel, by decide +kernel, by decide +kernel, by decide +kernel, by decide +kernel, by decide +kernel,
    by decide +kernel, by decide +kernel, by decide +kernel, by decide +kernel, by decide +kernel, by decide +kernel, by decide +kernel,
    by decide +kernel, by decide +kernel⟩

theorem test_witness_BarrierInstructions_ids : ∀ c, ((base.core c).ops.map (·.id)).Nodup := by
  intro c
  rcases core_mem base c with ⟨p, hp, hc⟩ | hc
  · rw [← hc]
    exact (by decide +kernel : ∀ p ∈ base.cores, (p.2.ops.map (·.id)).Nodup) p hp
  · rw [hc]
    exact List.nodup_nil

/-- The operands of a copy: a global address, a length, and two local addresses. -/
def copying (va n a b : Nat) (s : State := base) : State := reg 4 va (reg 6 n (reg 8 a (reg 10 b s)))
def fcpy (a b c : Spec) : FCpy := { a := a, b := b, c := c, bar := some 0, tag := some 9 }
def g2l : Instr := .cpyG2l (fcpy (.main 4) (.main 8) (.main 6))
def copies : List Instr := [g2l, .cpyL2g { fcpy (.main 8) (.main 4) (.main 6) with bar := none }, .cpyL2l (fcpy (.main 8) (.main 10) (.main 6))]
def phased : State := onTeam fun t => { t with bars := [(0, bar true false 1 1 0 0 0)], seals := [(0, ⟨0x400, 256, 0, false⟩)] }
def barOk (s : State) (p : Place) (b : Option (Fin 64)) : Bool :=
  match s.copyBar (gang s) p b with
  | .ok _ => true
  | _ => false
/-- A copy of 64 bytes to local 0x100, in flight; its pages reached; its first 16 bytes delivered; all of it. -/
def flown : State := after g2l (copying 0x2000 16 0x100 0x800 (stored 0x2000 8 [1, 2, 3, 4] phased))
def reached : State := after (.copyPageReach 0 (last flown).id) flown
def moved : State := after (.copyByteDelivery 0 (last flown).id 16) reached
def copyOf (s : State) : Copy :=
  match (last s).kind with
  | .copy y => y
  | _ => Copy.blank

theorem test_witness_CopyIssue :
    (let s := copying 0x2000 64 0x100 0x800 phased
     readyB s copies = true ∧ readyB (allOff 7 s) copies = true ∧ s.cur.mask = allLanes ∧ (the s).liveMask = allLanes ∧
      ¬((allOff 7 s).cur.mask = allLanes) ∧ (∀ a ∈ [0x100, 0x800], s.place? 0 1 (BitVec.ofNat 32 a) 64 = some (place a)) ∧
      (64 % 16 = 0 ∧ 16 ≤ 64 ∧ 64 ≤ 2 ^ 24) ∧ overlaps 0x100 64 0x800 64 = false ∧ overlaps 0x100 64 0x120 64 = true ∧
      barOk s (place 0x100) (some 0) = true ∧ barOk s (place 0x400) (some 0) = true ∧ s.sealed (place 0x400) 64 = true ∧ s.sealed (place 0x100) 64 = false ∧
      (s.core 0).copies < 32 ∧ (s.core 0).tagRoom 1 (some 9) = true ∧ (s.core 0).locks.length + 2 ≤ 64 ∧ (s.leaveIdem (gang s) true).2 = true ∧
      s.team? 0 1 = some (theTeam s)) ∧
    (copying 0x2000 64 0xFFF0 0x800 phased).place? 0 1 0xFFF0 64 = none ∧ 0x2008 % 16 ≠ 0 ∧
    (let s := peered (copying 0x2000 64 0x20200100 0x800)
     readyB s copies = true ∧ s.place? 0 1 0x20200100 64 = some { core := 1, team := 2, off := 0x100 } ∧
       (match s.copyBar (gang s) { core := 1, team := 2, off := 0x100 } (some 0) with
         | .wait b => b == peerObj 0
         | _ => false) = true) ∧
    (let s := onCore (fun c => { c with locks := List.replicate 63 { op := 1, slot := 0, space := some (0, 1), ctx := 1, lo := 0, hi := 16, write := false } })
       (copying 0x2000 64 0x100 0x800 phased)
     readyB s copies = true ∧ ¬(s.core 0).locks.length + 2 ≤ 64) := by
  refine ⟨by decide +kernel, by decide +kernel, by decide +kernel, by decide +kernel, by decide +kernel⟩

/-- A gather: the descriptor's address, the index array's, rows, row length and stride. -/
def gathering (idx n len stride : Nat) : State :=
  copying 0x2000 0x200 0x800 0x900 (localMem idx 4 [0, 2, 5, 9] (localMem 0x200 4 [idx, n, len, stride] phased))

theorem test_witness_GatherIssue :
    (∀ d ∈ [(0x300, 4, 32, 16), (0x300, 0, 32, 16), (0x300, 4096, 16, 16)],
      let s := gathering d.1 d.2.1 d.2.2.1 d.2.2.2
      readyB s [.cpyg (fcpy (.main 4) (.main 8) (.main 6)), .cpys { fcpy (.main 8) (.main 4) (.main 6) with bar := none }] = true ∧ s.cur.mask = allLanes ∧
        (the s).liveMask = allLanes ∧ s.place? 0 1 0x200 16 = some (place 0x200) ∧ (s.team? 0 1).map (·.windows) = some [] ∧
        (∀ j < 4, leNat ((List.range 4).map fun b => localByte s 0 1 (0x200 + 4 * j + b)) = [d.1, d.2.1, d.2.2.1, d.2.2.2].getD j 0) ∧ s.readBlocked (place 0x200) 16 = false) ∧
    (onCore (fun c => { c with locks := [{ op := 1, slot := 0, space := some (0, 1), ctx := 1, lo := 0x200, hi := 0x210, write := true }] })
      (gathering 0x300 4 32 16)).readBlocked (place 0x200) 16 = true ∧
    base.place? 0 1 0xFFF8 16 = none ∧
    (let s := gathering 0x300 4 32 16
     s.place? 0 1 0x800 (4 * 32) = some (place 0x800) ∧ s.place? 0 1 0x300 (4 * 4) = some (place 0x300) ∧ barOk s (place 0x800) (some 0) = true ∧
      s.sealed (place 0x800) (4 * 32) = false ∧ (s.core 0).copies < 32 ∧ (s.core 0).tagRoom 1 (some 9) = true ∧ (s.core 0).locks.length + 3 ≤ 64 ∧
      (∀ b ∈ [true, false], (s.leaveIdem (gang s) b).2 = true) ∧
      (∀ o ∈ ((after (.cpyg (fcpy (.main 4) (.main 8) (.main 6))) s).core 0).ops, o.started = true)) ∧
    ((gathering 0x300 4 32 16).place? 0 1 0x808 128 = some (place 0x808) ∧ 0x808 % 16 ≠ 0 ∧ 0x2008 % 16 ≠ 0) := by
  decide +kernel
/-- A copy whose bytes are all performed, with lines written under pins and a latest GWCT; line 0x40 is pinned. -/
def overPins (lines : List Nat) (gwct : Nat) : State :=
  onCore (fun c => { c with ops := c.ops.map fun o => { o with onPins := lines, gwct := gwct, pins := [0x40] } }) moved
/-- A copy from local memory, its pages reached. -/
def outward : State :=
  let s := after (.cpyL2g { fcpy (.main 8) (.main 4) (.main 6) with bar := none }) (copying 0x2000 16 0x100 0x800 phased)
  after (.copyPageReach 0 (last s).id) s

theorem test_witness_CopyAtWork :
    (let s := flown
     let o := last s
     let y := copyOf s
     (s.core 0).op? o.id = some o ∧ o.kind = .copy y ∧ o.started = true ∧ s.copyHalted o y = false ∧ y.done = false ∧ y.srcPage.isSome = false ∧
      (match s.reachPage o y.src false with
        | .ok (u, _) => (match u.reachPage o y.dst true with
          | .ok _ => true
          | .error _ => false)
        | .error _ => false) = true) ∧
    (let s := { flown with mem := [] }
     (match s.reachPage (last s) (copyOf s).src false with
        | .ok _ => false
        | .error _ => true) = true ∧ s.group? 0 0 = some (the s) ∧ (the s).hold = .none) ∧
    (let s := reached
     let o := last s
     let y := copyOf s
     let r := s.copyRead (.copyByteDelivery 0 o.id 16) 0 o y 16
     (s.core 0).op? o.id = some o ∧ o.kind = .copy y ∧ o.started = true ∧ s.copyHalted o y = false ∧ y.done = false ∧ y.srcPage.isSome = true ∧ y.dstPage.isSome = true ∧
      16 ≤ y.piece ∧ s.linkReqs = [] ∧ s.endTag y.src y.srcPage 16 = none ∧ s.endTag y.dst y.dstPage 16 = none ∧ isLink (endDpa y.srcPage y.src) = false ∧
      s.endPoison y.src y.srcPage 16 = false ∧ r.2.isSome ∧ (r.1.copyWrite (.copyByteDelivery 0 o.id 16) 0 o y (r.2.getD [])).2 = true ∧
      (((r.1.copyWrite (.copyByteDelivery 0 o.id 16) 0 o y (r.2.getD [])).1.core 0).op? o.id).isSome ∧
      y.bar = some (0, 1, 0) ∧ -(2 ^ 31) ≤ (s.bar (obj 0)).bytes - 16) ∧
    (let s := moved
     let o := last s
     (s.core 0).op? o.id = some o ∧ o.kind = .copy (copyOf s) ∧ (copyOf s).done = true ∧ o.consumed = false ∧ (copyOf s).sealedSrc = [] ∧ o.gwct ≤ s.ns ∧ o.onPins = [] ∧
      s.team? 0 o.team = some (theTeam s)) ∧
    (let s := onCore (fun c => { c with locks := [], ops := c.ops.map fun o => { o with started := false } }) flown
     (last s).started = false ∧ (s.core 0).engineBlocked (last s).id = false ∧ (copyOf s).gather = none) ∧
    (let s := overPins [0x40] 0
     (copyOf s).done = true ∧ (s.core 0).op? (last s).id = some (last s) ∧ s.pinsLeft (last s) = true) ∧
    (let s := overPins [] 5
     (copyOf s).done = true ∧ (last s).onPins = [] ∧ s.ns < (last s).gwct) ∧
    (let s := overPins [0x41] 0
     (copyOf s).done = true ∧ (last s).onPins ≠ [] ∧ s.pinsLeft (last s) = false) ∧
    (let s := flown
     (copyOf s).dst = .loc 0 1 0x100 ∧ (s.team? 0 1).isSome = true) ∧
    (let s := outward
     let y := copyOf s
     let dpa := endDpa y.dstPage y.dst
     y.dst = .glob 0x2000 ∧ y.dropped ≠ some (lineOf dpa) ∧ (s.homeWrite (.copyByteDelivery 0 (last s).id 16) dpa 16 (fun _ => some 5) none).2.isSome = true) := by
  refine ⟨by decide +kernel, by decide +kernel, by decide +kernel, by decide +kernel, by decide +kernel, by decide +kernel, by decide +kernel,
    by decide +kernel, by decide +kernel, by decide +kernel⟩

def tagged (r : Nat) (s : State := base) : State := onTeam (fun t => { t with ready := BitVec.ofNat 64 r }) s
def awaiting (all : Bool) : State :=
  after (if all then .tagwaitAll (sub (.main 8) (.main 4) (.main 0)) else .tagwaitAny (sub (.main 8) (.main 4) (.main 0))) (reg 4 0x300 (tagged 0x200))

theorem test_witness_Tags :
    (readyB (reg 4 0x300 (tagged 0x200)) [.tagwaitAny (sub (.main 8) (.main 4) (.main 0)), .tagwaitAll (sub (.main 8) (.main 4) (.main 0)),
      .tagfirst (sub (.main 8) (.main 4) (.main 0)), .tagclr (sub (.main 0) (.main 4) (.main 0))] = true ∧ (gang base).m ≠ 0) ∧
    (readyB base [.tagwaitAny (sub (.main 8) (.main 4) (.main 0)), .tagwaitAll (sub (.main 8) (.main 4) (.main 0))] = true ∧
      (the base).src64 (lowLane (gang base).m) false (.main 4) = 0 ∧
      ((after (.tagwaitAny (sub (.main 8) (.main 4) (.main 0))) (reg 8 7)).core 0).ops = [] ∧
      (the (after (.tagwaitAny (sub (.main 8) (.main 4) (.main 0))) (reg 8 7))).mainAt 8 5 = 0) ∧
    (∀ all ∈ [true, false], flyingB (awaiting all) (last (awaiting all)) = true ∧ (last (awaiting all)).kind = .tagwait all 0x300 ∧
      (awaiting all).team? 0 1 = some (theTeam (awaiting all)) ∧ (theTeam (awaiting all)).ready &&& 0x300 = 0x200) := by
  decide +kernel


/-! ### Witnesses: the matrix engine, the grammar evaluator and the system instructions -/

/-- The operands of the matrix instructions: local A and B, the shape word, a global address, a count and a stride; tiles 0, 1, 2 and 4. -/
def matrix (a b sh ga n st : Nat) : State :=
  reg 4 a (reg 6 b (reg 8 (sh % 2 ^ 32) (reg 9 (sh / 2 ^ 32) (reg 10 ga (reg 12 n (reg 14 st (onTeam fun t =>
    { t with names := 0b10111, tiles := [(0, Tile.zero), (1, { Tile.zero with words := [7, 8] }), (2, Tile.zero), (4, Tile.zero)] })))))))
def shape (mr nc kv sa sb asq bsq : Nat) : Nat := mr + nc * 64 + kv * 2 ^ 12 + sa * 2 ^ 19 + sb * 2 ^ 33 + asq * 2 ^ 47 + bsq * 2 ^ 53
def fmma (td ts : Fin 32) : FMma := { wFMma with td := td, ts := ts, a := .main 4, b := .main 6, c := .main 8 }
def products (f : FMma) : List Instr := [.mmaF16 f, .mmaBf16 f, .mmaVt8 f, .mmaS8 f, .mmaN8 f, .mmas f]
def feng (td : Fin 32) (a b : Spec) : FEng := { wFEng with td := td, a := a, b := b }
def ftile (td ts : Fin 32) (b c : Spec) (ty : Ty) (tag : Option (Fin 64)) : FTile := { wFTile with td := td, ts := ts, a := .main 4, b := b, c := c, ty := ty, tag := tag }
def tiles (td ts : Fin 32) : List Instr := [.mldt (ftile td 0 (.main 14) (.main 0) .f16 none), .mstt (ftile 0 ts (.main 14) (.main 0) .f16 (some 9)), .mdrain (ftile 0 ts (.main 0) (.main 6) .f32 none)]
def small : Nat := shape 3 5 7 5 6 0 0
def scaled : Nat := shape 3 5 7 5 6 1 2
def multiplying : State := after (.mmaS8 (fmma 0 1)) (matrix 0x100 0x800 small 0 0 0)
def drain : State := localMem 0x300 4 [0, 0xFFFFFFFF, 0, 0x3F800000, 5, 0, 0, 0, 0, 0, 0, 0] (matrix 0x800 0x300 0 0 0 0)

theorem test_witness_MatrixIssue :
    ∀ p ∈ [((0 : Fin 32), (1 : Fin 32)), (3, 1)], let s := matrix 0x100 0x800 small 0x2000 2 0
      readyB s (products (fmma p.1 p.2) ++ tiles p.1 p.2 ++ [.mzero (feng p.1 (.main 0) (.main 0)), .malloc (feng 0 (.main 20) (.main 12)), .mfree (feng 0 (.main 0) (.main 12))]) = true ∧
        s.team? 0 1 = some (theTeam s) ∧ s.cur.mask = allLanes ∧ (the s).liveMask = allLanes ∧ (s.core 0).locks.length + 2 ≤ 64 ∧ (s.core 0).tagRoom 1 (some 9) = true := by
  decide +kernel

/-- The lock table is full, the lines of the drain descriptor being written. -/
def crowdedLocks : State :=
  onCore (fun c => { c with locks := List.replicate 64 { op := 1, slot := 0, space := some (0, 1), ctx := 1, lo := 0x300, hi := 0x330, write := true } })
    (matrix 0x100 0x300 small 0x2000 2 0)

theorem test_witness_MatrixIssue_waits :
    let s := crowdedLocks
    readyB s (products (fmma 0 1) ++ tiles 0 1 ++ [.mzero (feng 0 (.main 0) (.main 0))]) = true ∧ ¬(s.core 0).locks.length + 1 ≤ 64 ∧
      s.place? 0 1 0x300 48 = some (place 0x300) ∧ s.readBlocked (place 0x300) 48 = true := by
  decide +kernel

/-- The operands that an `MMA` passes, and those that it does not. -/
def shapeFits (ty : Ty) (sh : Shape) : Bool :=
  let x := gang (matrix 0x100 0x800 small 0 0 0)
  sh.mr == 3 && sh.nc == 5 && decide (4 * sh.asq + 3 < 64) && decide (4 * sh.bsq + 3 < 64) && (base.base? x false (.main 4) (extent sh.mr sh.sa (kBytes ty sh.kv))).isSome &&
    (base.base? x false (.main 6) (extent sh.nc sh.sb (kBytes ty sh.kv))).isSome

theorem test_witness_MatrixIssue_shapes :
    ([(Ty.f16, small), (.bf16, small), (.vt8, small), (.s8, small), (.n8, small), (.e2m1, scaled)].all fun p =>
      (shapeOf (BitVec.ofNat 64 p.2) p.1).any (shapeFits p.1)) = true ∧
    (shapeOf (BitVec.ofNat 64 (shape 3 5 127 5 6 0 0)) .f16).isNone = true ∧
    ((shapeOf (BitVec.ofNat 64 (shape 3 5 7 5 6 63 0)) .e2m1).any fun sh => decide (64 ≤ 4 * sh.asq + 3)) = true ∧
    (Base.loc (place 0x108)).aligned = false ∧ (Base.loc (place 0x100)).aligned = true ∧ passes (base.spots 0 1 .load []) (fun r => (pageStop r.1 r.2 false).isNone) = true := by
  decide +kernel

theorem test_witness_MatrixIssue_tiles :
    (¬(allOff 1).cur.mask = allLanes ∧ (theTeam (matrix 0 0 0 0 0 0)).owns 0 = true ∧ (theTeam (matrix 0 0 0 0 0 0)).owns 3 = false) ∧
    (strideOf 0 2 = some 128 ∧ strideOf 17 2 = none ∧ base.place? 0 1 0x100 (extent 64 128 128) = some (place 0x100) ∧ base.sealed (place 0x100) 8192 = false ∧
      (onTeam fun t => { t with seals := [(0, ⟨0x400, 256, 0, false⟩)] }).sealed (place 0x100) 8192 = true) ∧
    (readyB drain (tiles 0 1) = true ∧ drain.place? 0 1 0x300 48 = some (place 0x300) ∧ (drain.team? 0 1).map (·.windows) = some [] ∧ drain.readBlocked (place 0x300) 48 = false) ∧
    ((drainOf .f32 fun j => leNat ((List.range 4).map fun b => localByte drain 0 1 (0x300 + 4 * j + b))).any fun q =>
      q.res.isNone && (drain.base? (gang drain) false (.main 4) (extent q.nr q.dstride (q.nc * 4))).isSome) = true ∧
    (drainOf .f32 fun _ => 7).isNone = true := by
  decide +kernel

theorem test_witness_MatrixProduct :
    (∃ i < 64, ∃ j < 64, ∃ mr nc : Nat, i < mr ∧ j < nc ∧ has (([] : List Word32).getD 1 0 ++ ([] : List Word32).getD 0 0 : Word64) i = false) ∧
    (∃ i < 64, ∃ mr, ¬i < mr) ∧ (∀ ty ∈ [Ty.f16, .bf16, .vt8, .e2m1], kMax ty = kMax ty) ∧
    ∃ n m e, exactSum .rn [FVal.fin false 3 (-5)] = .fin n m e ∧ m ≠ 0 :=
  ⟨⟨0, by decide, 0, by decide, 1, 1, by decide, by decide, by decide⟩, ⟨1, by decide, 0, by decide⟩, fun _ _ => rfl, false, 3, -5, by decide +kernel, by decide⟩

def consumed : State := after (.operandsConsumed 0 (last multiplying).id) multiplying
def start (s : State) : State := onCore (fun c => { c with ops := c.ops.map fun o => { o with started := true } }) s
def engine (i : Instr) (s : State := matrix 0x100 0x800 small 0 2 0) : State := start (after i s)
def drained (s : State) (n : Nat) : State := onCore (fun c => { c with ops := c.ops.map fun o => { o with started := true, consumed := true, held := List.replicate n 5 } }) s
theorem op_of {s : State} (h : (s.core 0).ops.length = 1) : (s.core 0).op? (last s).id = some (last s) := by
  obtain ⟨o, ho⟩ := List.length_eq_one_iff.mp h
  simp [last, Core.op?, ho]

/-- It is the engine's first operation, and its core's one operation (`op_of`). -/
def first (s : State) : Bool :=
  decide ((s.core 0).ops.length = 1) && (s.team? 0 (last s).team == some (theTeam s)) && (last s).started && (s.core 0).matrixFirst (last s).id

theorem test_witness_MatrixAtWork :
    (first (start multiplying) = true ∧ (last (start multiplying)).consumed = false ∧ (last (start multiplying)).held.length = 2052 ∧ ((start multiplying).team? 0 1).map (·.windows) = some [] ∧
      (match (last (start multiplying)).kind with
        | .mma ty _ _ a b kv _ _ _ _ _ _ => !a.glob && !b.glob && decide (a.rows ≤ 64) && decide (b.rows ≤ 64) && decide (kBytes ty kv ≤ 64) &&
            decide (a.base.toNat + 64 * a.stride < 2 ^ 64) && decide (b.base.toNat + 64 * b.stride < 2 ^ 64) && a.core == 0 && a.team == 1
        | _ => false) = true) ∧
    (first (drained multiplying 2052) = true ∧ (last (drained multiplying 2052)).consumed = true ∧ (last (drained multiplying 2052)).held.length = 2052) ∧
    (first (engine (.mzero (feng 0 (.main 0) (.main 0)))) = true ∧ (last (engine (.mzero (feng 0 (.main 0) (.main 0))))).kind = .mzero 0) ∧
    (let s := drained (after (.mldt (ftile 0 0 (.main 14) (.main 0) .f16 none)) (matrix 0x100 0 0 0 0 0)) 4096
     first s = true ∧ (last s).poison = none ∧ (last s).held.length = 4096 ∧ (match (last s).kind with
        | .mldt .f16 0 _ => true
        | _ => false) = true) ∧
    (let s := drained (after (.mstt (ftile 0 1 (.main 14) (.main 0) .f16 none)) (matrix 0x100 0 0 0 0 0)) 4096
     first s = true ∧ (last s).done = 0 ∧ ((theTeam s).tile 1).ident = 0 ∧ (match (last s).kind with
        | .mstt .f16 1 dst => !dst.glob && decide (dst.base.toNat + 64 * dst.stride < 2 ^ 64) && decide (64 * tileSize .f16 ≤ dst.stride)
        | _ => false) = true) ∧
    (let s := engine (.malloc (feng 0 (.main 20) (.main 12)))
     first s = true ∧ (last s).kind = .malloc 0 2 ∧ ((last s).writes.map (·.reg)).Nodup ∧ (s.core 0).tilesUsed (fun q => !q.released) + 2 ≤ 32) ∧
    (let s := engine (.mfree (feng 0 (.main 0) (.main 12)))
     first s = true ∧ (last s).kind = .mfree 2) ∧
    (let s := drained (after (.mdrain (ftile 0 1 (.main 0) (.main 6) .f32 none)) drain) 8192
     first s = true ∧ (last s).consumed = true ∧ (last s).poison = none ∧ (last s).done = 0 ∧ (last s).onPins = [] ∧ (last s).gwct ≤ s.ns ∧
       ((theTeam s).tile 1).ident = 0 ∧ (match (last s).kind with
        | .mdrain ty _ dst _ _ _ _ _ _ nr nc _ => !dst.glob && decide (nr ≤ 64) && decide (nc ≤ 64) && decide (dst.base.toNat + 64 * dst.stride < 2 ^ 64) &&
            decide (nc * (fwidth ty / 8) ≤ dst.stride) && decide (fwidth ty ≤ 32)
        | _ => false) = true) := by
  refine ⟨by decide +kernel, by decide +kernel, by decide +kernel, by decide +kernel, by decide +kernel, by decide +kernel, by decide +kernel,
    by decide +kernel⟩

def stamping (ctl : Nat) (v : Nat := 0) : State :=
  reg 6 v (onTeam fun t => { t with stampBase := 0x2F00, stampCtl := BitVec.ofNat 64 ctl, names := 0b1011, tiles := [(0, Tile.zero), (1, Tile.zero), (3, Tile.zero)] })
/-- An operand of a system register: its offset, and a value. -/
def sysreg (off v : Nat) : State := reg 4 off (reg 6 v)

theorem test_witness_SystemRegistersAndStamps :
    (∀ off ∈ [0x040, 0x048, 0x100, 0x108, 0x110, 0x180, 0x188, 0x1A0, 0x1C0, 0x200, 0x240, 0x248, 0x241], let s := sysreg off 0x2020
      readyB s [.sreadA (sub (.main 8) (.main 4) (.main 0)), .swriteA (sub (.main 0) (.main 4) (.main 6)), .sreadS (fs (.main 8) (.main 0) off),
        .swriteS (fs (.main 0) (.main 6) off), .clock (fs (.main 8) (.main 0) 0 0), .clock (fs (.main 8) (.main 0) 0 1)] = true ∧
      s.team? 0 1 = some (theTeam s) ∧ (gang s).m ≠ 0) ∧
    ((0x2020 : Word64) &&& 0x1F = 0 ∧ (0x2001 : Word64) &&& 0x1F ≠ 0 ∧ (0x501 : Word64) &&& 0x00000000FFFFFF0E ≠ 0 ∧ (0xF1 : Word64) &&& 0x00000000FFFFFF0E = 0) ∧
    (∀ p ∈ [(0, 0), (1, 0), (0, 1), (0, 2), (0, 35)], let s := stamping p.1 p.2
      readyB s [.stamp (fs (.main 0) (.main 6) 77 0), .stamp (fs (.main 0) (.main 6) 77 1)] = true ∧ s.team? 0 1 = some (theTeam s)) ∧
    ((theTeam (stamping 0)).stampCtl.getLsbD 0 = false ∧ (theTeam (stamping 1)).stampCtl.getLsbD 0 = true ∧ (theTeam (stamping 0)).owns 1 = true ∧
      (theTeam (stamping 0)).owns 2 = false ∧ (theTeam (stamping 0)).owns (35 % 32) = true ∧ 35 / 32 ≠ 0) ∧
    (let s := stamping (2 ^ 32 * 7 + 1)
     passes (s.spots 0 1 .store [(0, 0x2F00 + BitVec.ofNat 64 (32 * 7))]) (fun r => (pageStop r.1 r.2 true).isNone && r.2.length == 1 &&
      r.2.all fun q => (r.1.homeBadTag q.va q.dpa 32).isNone) = true ∧ (theTeam s).idem = false) ∧
    (let s := { stamping 1 with regions := base.regions.map fun r => { r with tag := true }, tags := [(0x2F00 / 32, 5)] }
     readyB s [.stamp (fs (.main 0) (.main 6) 77 0)] = true ∧ (the s).hold = .none ∧ passes (s.spots 0 1 .store [(0, 0x2F00)]) (fun r =>
       (pageStop r.1 r.2 true).isNone && r.2.length == 1 && r.2.all fun q => r.1.homeBadTag q.va q.dpa 32 == some 5) = true) := by
  refine ⟨by decide +kernel, by decide +kernel, by decide +kernel, by decide +kernel, by decide +kernel, by decide +kernel⟩

def regq (n : Nat) (mode : Fin 8) : Instr := .regq (fs (.main 8) (.main 0) n mode)
def quotaed (free : Nat) : State := after (regq 70 1) (onTeam fun t => { t with free := free })

theorem test_witness_QuotaRequests :
    (readyB base [regq 10 0, regq 200 0, regq 70 1, regq 64 1, regq 1 0, regq 256 1] = true ∧ base.team? 0 1 = some (theTeam base) ∧
      base.cur.mask = (the base).liveMask ∧ (allOff 1).cur.mask ≠ (the (allOff 1)).liveMask ∧ (the base).quota = 64) ∧
    (let s := quotaed 6
     let o := last s
     s.team? 0 1 = some (theTeam s) ∧ (theTeam s).queue = [(0, 70, o.id)] ∧ s.group? 0 0 = some (the s) ∧ (the s).quota ≤ 70 ∧
      70 - (the s).quota ≤ (theTeam s).free ∧ (s.core 0).op? o.id = some o ∧ o.slot = 0 ∧ (o.writes.map (·.reg)).Nodup ∧
      ∀ w ∈ o.writes, w.reg = .v 8) := by
  decide +kernel

def ed (seq t : Nat) (st : EdState) (views : List (Nat × Nat)) (cut : List Nat) : Edition :=
  { seq := seq, st := st, t := t, reason := 0, lost := false, target := State.reset.target, views := views, pages := [], cut := cut, pend := [], ended := [],
    written := [], acked := 0, used := 0, spill := [], chunkSince := none }
def granted : State := { (reg 4 4 (onCtx fun c => { c with grant := true })) with live := 9, editions := [ed 3 100000 .sealing [] [0, 1, 2, 3], ed 4 20 .draining [(1, 1)] []] }
def snapping : State := after (.snap (fs (.main 8) (.main 0))) granted
def edstatting : State := after (.edstat (fs (.main 8) (.main 4))) granted

theorem test_witness_SnapAndEditionStatus :
    (readyB granted [.snap (fs (.main 8) (.main 0)), .edstat (fs (.main 8) (.main 4))] = true ∧ (gang granted).m ≠ 0 ∧ (granted.ctx 1).grant = true ∧
      (base.ctx 1).grant = false ∧ granted.leaveIdem (gang granted) true = (granted, true) ∧
      granted.bankSettle (gang granted) = (granted, true) ∧ granted.windowsOf 0 1 = []) ∧
    (let s := after (.stlB32 (fm (.main 8) .strong .team)) granted
     readyB s [.snap (fs (.main 8) (.main 0))] = true ∧ s.leaveIdem (gang s) true = (s, true) ∧ (s.bankSettle (gang s)).2 = false) ∧
    (let s := snapping
     (s.core 0).op? (last s).id = some (last s) ∧ (last s).kind = .snap 0 0 (the granted).gwct ∧ s.fenceDone 0 (last s) false (the granted).gwct = true ∧
      s.editions.length < 7 ∧ ({ s with editions := List.replicate 7 (ed 3 1 .sealed [] []) } : State).editions.length = 7) ∧
    (flyingB edstatting (last edstatting) = true ∧ (match (last edstatting).kind with
      | .edstat asked => decide ((asked.map (·.1)).Nodup) && asked.contains (0, 4)
      | _ => false) = true ∧ edstatting.editions.find? (fun e => e.seq == 4) = some (ed 4 20 .draining [(1, 1)] [])) := by
  decide +kernel

/-- A canal at 0x2000 and a barge at 0x4000, for one thread. -/
def launching : State := at1 0x2000 (reg 6 0x4000)
def launch : Instr := .launch (sub (.main 8) (.main 4) (.main 6))
def launched : State := after launch launching
/-- Its NEXT store is acknowledged, and no translation is cached. -/
def fencing : State :=
  let s := after (.storeAckArrival 0 0 (request launched).id) (after (.homeStoreRequest 0 0 (request launched).id 0xFF) launched)
  onCore (fun c => { c with tlb := [] }) { s with ticks := 1000 }
def swapping : State := after (.operationComplete 0 (last fencing).id) fencing
def signalling : State := after (.signal (fs (.main 0) (.main 4) 0x42)) base
def sent : State := after (.operationComplete 0 (last signalling).id) signalling

theorem test_witness_LaunchAndSignal :
    (readyB launching [launch] = true ∧ (gang launching).m ≠ 0 ∧ (∀ a ∈ [0x2000, 0x4000], a % 128 = 0) ∧
      passes (launching.globalCheck (gang launching) { n := 8, need := .store, host := false, link := false, access := true } [(0, 0x2000), (0, 0x4000)])
        (fun r =>
          let u := r.1.leaveIdem (gang launching) true
          let w := u.1.bankSettle (gang launching)
          u.2 && w.2 && r.2.all fun p => (w.1.badTag (gang launching) false p).isNone) = true ∧ (theTeam launching).idem = false ∧ (theTeam launching).windows = []) ∧
    readyB (at1 0x2001 (reg 6 0x4000)) [launch] = true ∧
    (let s := fencing
     let o := last s
     (s.core 0).op? o.id = some o ∧ o.kind = .launch [(0, 0x2000, 0x4000)] 0 (the base).gwct ∧ s.fenceDone 0 o true (the base).gwct = true) ∧
    (let s := swapping
     let o := last s
     (s.core 0).op? o.id = some o ∧ o.kind = .launch [(0, 0x2000, 0x4000)] 1 (the base).gwct ∧ s.group? 0 o.slot = some (the s) ∧ (the s).hold = .none ∧
      o.onPins = [] ∧ (match s.launchAccess 0 o 0x2000 0x4000 with
        | .did _ _ => true
        | _ => false) = true) ∧
    (readyB base [.signal (fs (.main 0) (.main 4) 0x42)] = true ∧ base.leaveIdem (gang base) true = (base, true) ∧
      base.bankSettle (gang base) = (base, true) ∧ base.windowsOf 0 1 = []) ∧
    (let s := signalling
     let o := last s
     (s.core 0).op? o.id = some o ∧ o.kind = .signal 0x42 0 (the base).gwct ∧ o.started = false ∧ s.signals.contains (0, o.id) = false ∧ s.signalFirst 0 o = true ∧
      s.fenceDone 0 o true (the base).gwct = true) ∧
    (sent.signals = [(0, (last sent).id)] ∧ (sent.core 0).op? (last sent).id = some (last sent)) := by
  decide +kernel

/-- A GLOBAL descriptor at 0x3300 with rules, rows and symbols; a record that names it at local 0x200; a vector at 0x400. -/
def grammar : State :=
  let entry := fun (a b c : Nat) => a * 2 ^ 32 + b * 2 ^ 16 + c
  stored 0x6000 4 [0x00003C00, 0x00014000, 0x0002BC00, 0x80000000, 0x00033C00, 0x80000001, 0x80000007, 0x0001FFFF]
    (stored 0x4100 8 [entry 0 3 1, entry 3 2 2, entry 5 1 3, entry 6 1 4, entry 7 1 5, entry 0 0 1]
    (stored 0x5200 8 [entry 0 3 0, entry 3 2 0, entry 5 1 0, entry 0 0 0]
    (stored 0x3300 8 [0x4100, 0x5200, 0x6000, 6 * 2 ^ 40 + 4 * 2 ^ 16 + 0x900, 3, 8, 0, 0]
    (localMem 0x200 4 [0x3300, 0, 0x400, 16, 0x500, 16, 0x600, 0xFFFFFFFF, 0x3F800000, 0]
    (localMem 0x228 1 [1] (localMem 0x400 4 [0x3F800000, 0x40000000, 0, 0x3F000000]))))))
def binding : Binding :=
  { team := 1, ctx := 1, record := 0x200, desc := 0x3300, rules := 0x4100, rows := 0x5200, syms := 0x6000, nrules := 6, nrows := 4, etype := .f16, ncols := 3,
    nsyms := 8, x := 0x400, xstride := 16, y := 0x500, ystride := 16, e := 0x600, spill := none, tau := 0x3F800000, base := 0, v := 1 }
def bound (s : State := grammar) : State := onCore (fun c => { c with binding := some binding }) s
def operands (a b c : Nat) (s : State) : State := reg 4 a (reg 6 b (reg 8 c s))
def fev (b c : Spec) : FEng := { wFEng with a := .main 4, b := b, c := c }
def evaluator : List Instr := [.grbind (fev (.main 0) (.main 0)), .greval (fev (.main 6) (.main 0)), .grstat (fev (.main 0) (.main 0)), .nzscan (fev (.main 6) (.main 8))]
/-- The first index of an evaluation; and a count of elements that are not zero. -/
def evaluating : State := start (after (.greval (fev (.main 6) (.main 0))) (operands 0 1 0 bound))
def statting : State := after (.grstat (fev (.main 0) (.main 0))) bound
def scanning : State := start (after (.nzscan (fev (.main 6) (.main 8))) (operands 0x400 0x700 3 grammar))

theorem test_witness_GrammarEvaluator :
    (∀ s ∈ [operands 0 0 0 grammar, operands 0x200 1 0 bound, operands 0x400 0x700 32768 bound, operands 0x401 0x700 3 bound],
      readyB s evaluator = true ∧ s.cur.mask = allLanes ∧ (the s).liveMask = allLanes ∧ s.team? 0 1 = some (theTeam s) ∧ (s.core 0).tagRoom 1 none = true) ∧
    ((grammar.core 0).binding = none ∧ ((bound).core 0).binding = some binding ∧ (bound.core 0).ops = []) ∧
    (match grammar.readBinding (gang grammar) 0x200 with
      | .ok _ _ none => true
      | _ => false) = true ∧
    (let r := binding.ranges false false false 5 1
     let places := bound.evalPlaces (gang bound) r
     firstStop 0x43 places = none ∧ firstStop 0x39 places = none ∧ (bound.evalSealed (placesOf places)).isNone = true ∧ 5 + 1 ≤ binding.nrules ∧ binding.nrules < 6 + 1 ∧
      5 + 1 ≤ binding.base + binding.cap ∧ binding.base + binding.cap < binding.cap + 1 ∧ (placesOf places).length + binding.tables.length ≤ 64) ∧
    (let s := scanning
     let o := last s
     (s.core 0).op? o.id = some o ∧ o.kind = .nzscan 0x400 0x700 3 ∧ o.started = true ∧ s.team? 0 o.team = some (theTeam s) ∧ (theTeam s).windows = [] ∧ (theTeam s).poison = []) ∧
    (flyingB statting (last statting) = true ∧ (last statting).kind = .grstat ∧ statting.team? 0 1 = some (theTeam statting)) ∧
    ((∃ p ∈ [bound.evalPlace (gang bound) 0x400 12], (match p with
        | .ok _ => true
        | .error _ => false) = true) ∧ 0x401 % 4 ≠ 0 ∧ 0x702 % 4 ≠ 0 ∧ 32768 < 32769) := by
  decide +kernel

theorem test_witness_GrammarEvaluator_index :
    let s := evaluating
    let o := last s
    let r := (Fetching.begin s).evalSeq 0 o binding (s.core 0).rule false false (0 + o.done)
    (s.core 0).op? o.id = some o ∧ o.kind = .greval false false false 0 1 ∧ o.started = true ∧ o.poison = none ∧ (s.core 0).binding = some binding ∧ o.done < 1 ∧
      r.1.stop = none ∧ r.1.wait = false ∧ r.1.poison = none ∧ r.2.1.length = binding.v := by
  decide +kernel


/-! ### Witnesses: clauses, traps, scheduling and kernels -/

/-- A header word: SIG, class, COUNT, SETA, SETB, WAIT. -/
def header (sig cls count a b wait : Nat) : Nat := sig * 2 ^ 56 + cls * 2 ^ 53 + count * 2 ^ 49 + a * 2 ^ 44 + b * 2 ^ 40 + wait * 2 ^ 28
/-- The gang stands at code pointer `pc` outside a clause, before the header `h`. -/
def clause (h pc : Nat) (entry : Nat := 0) : State :=
  grp (fun g => { g with flags := [(3, 1)], threads := g.threads.map fun t => { t with pc := BitVec.ofNat 64 pc, entry := entry } }) (stored 0x1000 8 [h, 1, 2, 3, 4, 5])
def fetched (s : State) (p : State → Word64 → Nat → Bool) : Bool :=
  match s.fetchClause 0 1 ((the s).thread 0).pc with
  | .words u ws => p u (ws.headD 0) ws.length
  | .fault _ => false
def waitsOn (s : State) (h : Word64) : Bool := (List.range 12).any fun f => h.toNat / 2 ^ (28 + f) % 2 == 1 && (the s).flag f != 0
/-- The gang has counted SETA, and waits for room in SETB. -/
def setbOwed (setb count : Nat) : State :=
  grp (fun g => { g with flags := [(setb, count)], entries := g.entries.map fun e => { e with setb := setb, setbDue := true } }) (clause 0 0x1000 1)

theorem test_witness_ClauseEntry :
    ((match (clause 0 0x80000000).fetchClause 0 1 0x80000000 with
      | .fault _ => true
      | .words _ _ => false) = true) ∧
    fetched (clause (header 0xFD 0 3 15 15 0) 0x1000) (fun _ h _ => !hasSig h) = true ∧
    fetched (clause (header 0xFE 0 3 15 15 0) 0x1004) (fun _ h n => hasSig h && headerOk h n && decide (countOf h < 4)) = true ∧
    fetched (clause (header 0xFE 7 3 15 15 0) 0x1000) (fun _ h n => hasSig h && !headerOk h n) = true ∧
    fetched (clause (header 0xFE 1 3 5 6 8) 0x1000) (fun _ h n => hasSig h && headerOk h n && waitsOn (clause 0 0x1000) h) = true ∧
    fetched (clause (header 0xFE 0 3 15 15 0) 0x1003 1) (fun _ h n => hasSig h && headerOk h n && decide (3 ≤ countOf h) && !waitsOn (clause 0 0x1000) h) = true ∧
    fetched (clause (header 0xFE 2 3 3 6 0) 0x1000) (fun u h n => hasSig h && headerOk h n && !waitsOn (clause 0 0x1000) h &&
      decide ((the (clause 0 0x1000)).flag (setaOf h) < 15) && (the (clause 0 0x1000)).entries.all (fun e => e.id != u.fresh) && classOf h == 2 && (u.core 0).mayMem 0) = true ∧
    (∀ pc ∈ [0x1000, 0x1003, 0x1004, 0x80000000], slotOf (BitVec.ofNat 64 pc) = pc % 8) ∧
    (∀ p ∈ [(6, 0), (3, 15)], let s := setbOwed p.1 p.2
      s.group? 0 0 = some (the s) ∧ (the s).setbWaits ((the s).thread (lowLane s.cur.mask)) = true ∧ (p.2 = 15 ↔ 15 ≤ (the s).flag p.1)) := by
  decide +kernel

def heldGroup (h : Hold) (code : Nat) (gst : GState := .active) : State :=
  grp (fun g => { g with hold := h, gst := gst, trap := { code := code, addr := 0x1234, pc := 0x1001, words := [5, 6] } })

def halted (h : Halt) (s : State := base) : State := grp (fun g => { g with halt := h }) s
/-- Its record lies in the save area. -/
def recorded : State := halted (.suspended true) (grp fun g => { g with lent := true, savedAt := some (0x20000, 4096 + 256 * 64, 0) })

theorem test_witness_TrapAndReturn :
    (∀ code ∈ [0x01, 0x22, 0x10, 0x51, 0x53], let s := heldGroup .trapped code
      s.group? 0 0 = some (the s) ∧ (s.keeperOf 0).isSome = true ∧ (the s).hold = .trapped ∧ (the s).trap.code = code ∧ (the s).gst ≠ .exited ∧
        (s.core 0).quiet 0 = true ∧ s.teamBusy 0 1 = false) ∧
    (let s := halted (.suspended false)
     s.group? 0 0 = some (the s) ∧ (s.keeperOf 0).isSome = true ∧ (the s).hold ≠ .trapped ∧ (the s).halt = .suspended false ∧ (s.core 0).quiet 0 = true ∧
       (s.core 0).engineBusy 1 = false ∧ s.teamBusy 0 1 = false) ∧
    ({ base with deadKeepers := [0, 1, 2, 3] } : State).keeperOf 0 = none ∧
    (let s := heldGroup (.forwarded 0x22 true) 0x22
     let g := the s
     s.group? 0 0 = some g ∧ (s.keeperOf 0).isSome = true ∧ g.hold = .forwarded 0x22 true ∧ g.halt = .none ∧ g.due = [] ∧ g.view = [] ∧ g.gst ≠ .exited ∧
      g.liveMask ≠ 0 ∧ (∀ i < 64, (g.thread i).st = .ready) ∧ (∀ k < 12, g.maskReg k &&& ~~~g.liveMask = 0) ∧ g.arrivals = [] ∧ s.eventHeld 0 0 = false) ∧
    ∀ s ∈ [halted (.suspended true), heldGroup (.pageFault true) 0x10 .swappedOut, heldGroup (.debug true) 0x51 .swappedOut, halted (.stopped true), recorded],
      s.group? 0 0 = some (the s) ∧ (s.ctx (the s).ctx).state = .running ∧ (the s).due = [] ∧ (the s).view = [] ∧ (the s).arrivals = [] ∧
        ((the s).thread 0).st = .ready ∧ (∀ i < 64, ((the s).thread i).st.obj < 64) ∧ (s.core 0).stop = none ∧ (the s).quota ≤ (s.core 0).freeWords ∧
        (s.core 0).teamRoom (the s).team = true ∧ s.eventHeld 0 0 = false ∧ (∀ tm ∈ s.team? 0 1, tm.savedAt = none) := by
  refine ⟨by decide +kernel, by decide +kernel, by decide +kernel, by decide +kernel, by decide +kernel⟩

/-- `n` groups of one team, the first eight of them Active. -/
def groups (n : Nat) : State :=
  { onCore fun c => { c with groups := (List.range n).map fun k => (k, { placedGroup 1 0 with promoted := k, readySince := some 0, gst := if k < 8 then .active else .pending }) } with
    ticks := 6000 }
def edit (k : Nat) (f : Group → Group) (s : State) : State := s.modGroup 0 k f
def blocked (g : Group) : Group := { g with threads := g.threads.map fun t => { t with st := .maskWait 3 0 } }
def finished (g : Group) : Group := { g with gst := .exited, threads := g.threads.map fun t => { t with st := .exited } }
def enters (s : State) (k : Nat) (since : Nat) : Bool := (s.entering 0).any fun e => e.1 == k && e.2.readySince.any fun x => decide (x + since ≤ s.ticks)

theorem test_witness_GangsAndScheduling :
    (let s := edit 3 blocked (groups 9)
     enters s 8 0 = true ∧ ∃ g ∈ s.group? 0 3, g.gst = .active ∧ g.hold = .none ∧ g.halt = .none ∧ s.groupReady 0 g = false) ∧
    (let s := edit 2 (fun g => { g with gst := .pending }) (groups 5)
     enters s 2 0 = true ∧ s.group? 0 32 = none ∧ (s.core 0).nactive < 8) ∧
    (let s := groups 9
     enters s 8 5120 = true ∧ (s.core 0).earliest = some 0 ∧ (s.core 0).lastForced + 1280 ≤ s.ticks) ∧
    (let s := { edit 2 finished (groups 9) with kernels := [] }
     ∃ g ∈ s.group? 0 2, g.gst = .exited ∧ g.hold = .none ∧ g.halt = .none ∧ g.stores = [] ∧ (s.core 0).ops = [] ∧ (∃ h ∈ s.group? 0 3, h.team = g.team) ∧
      s.team? 0 g.team = some (theTeam s) ∧ (theTeam s).clw = 0 ∧ (theTeam s).queue = [] ∧ s.kernel? (theTeam s).kernel = none) ∧
    (let s := { edit 0 finished (groups 1) with kernels := base.kernels.map fun k => (k.1, { k.2 with live := 2 }) }
     ∃ g ∈ s.group? 0 0, g.gst = .exited ∧ g.hold = .none ∧ g.halt = .none ∧ g.stores = [] ∧ (s.core 0).ops = [] ∧ (∀ h ∈ (s.core 0).groups, h.1 = 0) ∧
      s.team? 0 g.team = some (theTeam s) ∧ (theTeam s).clw = 0 ∧ (theTeam s).idem = false ∧ (theTeam s).windows = [] ∧ (theTeam s).seals = [] ∧
      ∃ k ∈ s.kernel? (theTeam s).kernel, 1 < k.live) ∧
    (∃ p ∈ base.gangs 0 (the base), has p.2 5 = true ∧ ((the base).thread 5).st = .ready ∧ ((the base).thread 5).held = false ∧
      ((the base).thread 5).stall = none ∧ has (the base).woken 5 = false ∧ (the base).acted &&& sliceMask (sliceOf 5) = 0 ∧
      ∀ k < 64, base.threadWaits 0 (the base) ((the base).thread k) = false ∧ (the base).issuesOf (sliceOf k) < ((the base).thread k).since + 1024) ∧
    base.issues ≠ [] := by
  refine ⟨by decide +kernel, by decide +kernel, by decide +kernel, by decide +kernel, by decide +kernel, by decide +kernel, by decide +kernel⟩

/-- The resource word of a barge: groups, registers, local memory, tiles, barriers, priority, and the number of waits. -/
def resources (g r l t b p nw : Nat) : Nat := (g - 1) + (r - 1) * 16 + l * 2 ^ 12 + t * 2 ^ 26 + b * 2 ^ 32 + p * 2 ^ 48 + 3 * 2 ^ 54 + nw * 2 ^ 59
def canal (st : CanalSt) (head : Option Nat) : Canal :=
  { ctx := 1, record := 0x8000, cursor := 0x8080, taken := 0, st := st, fcode := 0, hprio := 2, head := head }
/-- Canal 5, its record at 0x8000; `next` is what stands at CURSOR, `tail` at the record. -/
def canals (next tail : Nat) : State := { stored 0x8000 8 [tail] (stored 0x8080 8 [next]) with canals := [(5, canal .empty none)] }
/-- The same with a barge at 0x9000: one team, two groups, arguments, and waits. -/
def barges (res : Nat) (waits : List Nat) : State :=
  onCtx (fun c => { c with table := 0x41000000 }) (stored 0x9000 8 ([0, 0x1000, 0xA000, 1, res, 0, 0xB000, 0] ++ waits) (stored 0xA000 8 [11, 12, 13] (canals 0x9000 0x9000)))
def taken : State := after (.canalWatchStore 5) (barges (resources 2 20 1 1 2 3 0) [])
def eligible : State := after (.canalWatchStore 5) taken
def handed : State := after .distributorTurn eligible
def kernelIs (st : KernelSt) (live : Nat) (done : Word64) (s : State) : State := { s with kernels := s.kernels.map fun k => (k.1, { k.2 with st := st, live := live, done := done }) }
/-- A STATUS write of every kernel waits at a held page. -/
def owing (s : State) : State := { s with kernels := s.kernels.map fun k => (k.1, { k.2 with due := some (.draining, 0) }) }
def bargeIs (s : State) (b : BitVec 64) (p : BargeCheck → Bool) : Bool :=
  p ((s.touch 1 [(0x8080, .load), (0x8000, .load)]).checkBarge 5 (canal .empty none) b)

theorem test_witness_CanalsAndKernels :
    (let s := onCtx (fun c => { c with state := .suspended }) (canals 0 0)
     s.canal? 5 = some (canal .empty none) ∧ (s.ctx 1).state ≠ .running ∧ (s.ctx 1).state ≠ .ready) ∧
    (∀ next ∈ [0, 0x9000], (canals next 0x8080).canal? 5 = some (canal .empty none) ∧ (canals next 0x8080).peekVa 1 (vaBits 0x8080) = some next ∧
      (canals next 0x8080).peekVa 1 (vaBits 0x8000) = some 0x8080) ∧
    bargeIs (canals 0x70000000 0) 0x70000000 (fun r => match r with
      | .fault => true
      | _ => false) = true ∧
    bargeIs (barges (resources 1 300 0 0 0 0 5) []) 0x9000 (fun r => match r with
      | .malformed _ => true
      | _ => false) = true ∧
    bargeIs (onCtx (fun c => { c with regw := 10 }) (barges (resources 2 20 1 1 2 3 0) [])) 0x9000 (fun r => match r with
      | .overBudget _ => true
      | _ => false) = true ∧
    bargeIs (barges (resources 2 20 1 1 2 3 0) []) 0x9000 (fun r => match r with
      | .passed _ => true
      | _ => false) = true ∧
    (∃ c ∈ taken.canal? 5, c.st ≠ .faulted ∧ (taken.ctx c.ctx).state = .running ∧ ∃ id ∈ c.head, ∃ k ∈ taken.kernel? id, k.st = .waiting ∧ k.waits = [] ∧ k.met = [] ∧ k.due = none) ∧
    (eligible.placeAgain = none ∧ eligible.turnOrder = [5] ∧ ∃ c ∈ eligible.canal? 5, ∃ id ∈ c.head, ∃ k ∈ eligible.kernel? id, k.clw = 0 ∧ k.clh = 0 ∧
      (k.nextPlace k.next).isSome = true ∧ (eligible.findAnchor k none).isSome = true) ∧
    (∀ p ∈ handed.kernels, ∃ k ∈ (kernelIs .draining 0 0 handed).kernel? p.1, k.st = .draining ∧ k.live = 0 ∧ k.due = none) ∧
    (∀ p ∈ handed.kernels, ∃ k ∈ (kernelIs .complete 0 0 { handed with ticks := 100000 }).kernel? p.1, k.st = .complete ∧ k.gwct ≤ ({ handed with ticks := 100000 } : State).ns ∧ k.done = 0 ∧ k.due = none) ∧
    (∀ p ∈ handed.kernels, ∃ k ∈ (kernelIs .running 0 0 handed).kernel? p.1, k.st = .running ∧ k.live = 0 ∧ k.again = [] ∧ k.due = none) ∧
    (∀ p ∈ handed.kernels, ∃ k ∈ (owing handed).kernel? p.1, k.due = some (.draining, 0)) ∧
    (let s := kernelIs .complete 0 0xB000 { handed with ticks := 100000 }
     passes (α := State × Nat) ((s.translateAt 1 (vaBits 0xB000) .store).mapError fun c => (c, 0, [])) (fun r => !isHostDie r.2 && !isLink r.2 &&
      (r.1.regionAt r.2).all (fun q => q.view.isNone) && (r.1.homeRead .nop r.2 8).2.isSome &&
      ((r.1.homeRead .nop r.2 8).1.homeWrite .nop r.2 8 (fun _ => some 1) none).2.isSome) = true) := by
  refine ⟨by decide +kernel, by decide +kernel, by decide +kernel, by decide +kernel, by decide +kernel, by decide +kernel, by decide +kernel,
    by decide +kernel, by decide +kernel, by decide +kernel, by decide +kernel, by decide +kernel, by decide +kernel⟩

/-- The head waits for a word to reach 7. -/
def headWaits : State := after (.canalWatchStore 5) (barges (resources 2 20 1 1 2 3 1) [0x8100, 7])

theorem test_witness_CanalsAndKernels_waits :
    ∃ c ∈ headWaits.canal? 5, c.st ≠ .faulted ∧ (headWaits.ctx c.ctx).state = .running ∧ ∃ id ∈ c.head, ∃ k ∈ headWaits.kernel? id, k.st = .waiting ∧
      k.due = none ∧ k.waits = [(0x8100, 7)] ∧ k.met = [] ∧ headWaits.peekVa k.ctx 0x8100 = some 0 := by
  decide +kernel

/-- The record lies under a write lock; and the lock table is full. -/
def bindLocked (n lo : Nat) : State :=
  onCore (fun c => { c with locks := List.replicate n { op := 1, slot := 0, space := some (0, 1), ctx := 1, lo := lo, hi := lo + 16, write := true } })
    (operands 0x200 1 0 grammar)

theorem test_witness_GrammarEvaluator_waits :
    (let s := bindLocked 1 0x200
     readyB s evaluator = true ∧ s.cur.mask = allLanes ∧ (the s).liveMask = allLanes ∧ (match s.readBinding (gang s) 0x200 with
       | .wait => true
       | _ => false) = true) ∧
    (let s := bindLocked 63 0x8000
     readyB s evaluator = true ∧ 62 < (s.core 0).locks.length ∧ (match s.readBinding (gang s) 0x200 with
       | .ok _ _ _ => true
       | _ => false) = true) := by
  decide +kernel


/-! ### Witnesses: the host, editions, links, and what happens to the device -/

/-- Storage with page 2 Backed; a half owned with stored bytes, one shared, one asked for. -/
def coherence : State :=
  { backedAt with ticks := 2000000,
                  lines := [(0x40, line (.owned [(0x2004, 7)]) .invalid false false), (0x41, line .shared .invalid false true), (0x42, line .invalid .invalid false false)] }
def directoryOf : State := { base with ticks := 2000000, directory := [(0, 6, 100), (64, 6, 50)] }
def event (cls : Nat) : Event := { cls := cls, code := 3, ctx := 1, core := 4, slot := 5, arg0 := 6, arg1 := 7 }
def queued : State := { base with events := { set := true, base := 0x5000, log := 7, routes := [0x80230005], tail := 3, held := [event 1] } }
def mailed (m : Nat) (w : Nat) : State := { base with mailboxes := [(16 * m, BitVec.ofNat 64 w)] }
/-- A view of edition 1. -/
def viewing : State := { base with regions := base.regions ++ [{ placedRegion with idx := 1, base := 0x80000000, view := some (1, 0) }] }

theorem test_witness_HostAgents :
    (base.hostMay 0x70000000 4 = false ∧ isHostDie 0x70000000 = false ∧ base.isView 0x70000000 = false ∧ base.hostMay (halfOf 0x70000000) 64 = false ∧
      (base.line (lineOf (halfOf 0x2100))).half (halfOf 0x2100) = .invalid) ∧
    (isHostDie 0x2104 = false ∧ coherence.hostMay 0x2104 4 = true ∧ coherence.poisonIn 0x2104 4 = none ∧ (coherence.pageSt (pageOf 0x2104)).held = false) ∧
    (coherence.hostMay 0x2100 64 = true ∧ coherence.isView 0x2100 = false ∧ (coherence.line (lineOf 0x2100)).half 0x2100 = .invalid) ∧
    ((coherence.line (lineOf 0x20C0)).req 0x20C0 = true ∧ (coherence.line (lineOf 0x20C0)).lease ≤ coherence.ns ∧ coherence.pinned (lineOf 0x20C0) = false ∧ halfOf 0x20C0 = 0x20C0) ∧
    ((coherence.line (lineOf 0x2000)).half 0x2000 = .owned [(0x2004, 7)] ∧ (coherence.pageSt (pageOf 0x2000)).held = false ∧ (coherence.pageSt (pageOf 0x2000)).backed = true ∧
      ∀ i < 64, (coherence.regionAt (0x2000 + i)).all (fun r => !r.dat && r.view.isNone) = true) ∧
    ((0, 6, 100) ∈ directoryOf.directory ∧ (0 + 2 ^ 6, 6, 50) ∈ directoryOf.directory ∧ (directoryOf.directory.map (·.1)).Nodup ∧ 100 + nsTicks 100000 ≤ directoryOf.ticks ∧
      0 % 2 ^ 7 = 0) ∧
    (coherence.hostMay 0x2100 4 = true ∧ coherence.isView 0x2100 = false ∧ 0x2100 % 4096 + 4 ≤ 4096 ∧ coherence.gwctAt 0x2100 4 ≤ coherence.ns ∧ (∀ l ∈ linesIn 0x2100 4, coherence.pinned l = false) ∧
      coherence.hostBlocks 0x2100 4 true = false ∧ (∀ h ∈ halvesOf 0x2100 4, (coherence.line (lineOf h)).half h = .invalid) ∧
      (∀ i < 4, (coherence.regionAt (0x2100 + i)).all (fun r => !r.dat && r.view.isNone) = true) ∧ (coherence.pageSt (pageOf 0x2100)).backed = true) ∧
    (queued.events.held = [event 1] ∧ queued.events.set = true ∧
      (queued.events.tail + 2 ^ 32 - queued.coherentNat (queued.events.base + 0x40) 4) % 2 ^ 32 < 2 ^ queued.events.log ∧
      (queued.events.routes.getD ((event 1).cls - 1) 0).toNat.testBit 31 = true ∧
      queued.storesNow (queued.events.base + 0x80 + 32 * (queued.events.tail % 2 ^ queued.events.log)) 32 = true ∧ queued.storesNow queued.events.base 8 = true) ∧
    (((mailed 0 (2 ^ 63 + 0x101)).mail 0 0).getLsbD 63 = true ∧ ((mailed 63 0x101).mail 63 0).getLsbD 63 = false ∧ (0x101, Instr.ctxcreate) ∈ commandTable ∧
      commandTable.all (fun p => p.1 != 0xFFFF) = true ∧ (0x8000000000000101 : Word64).getLsbD 63 = true ∧ (64 ≤ 64 ∨ 16 ≤ 16)) := by
  refine ⟨by decide +kernel, by decide +kernel, by decide +kernel, by decide +kernel, by decide +kernel, by decide +kernel, by decide +kernel, by decide +kernel, by decide +kernel⟩

theorem test_witness_HostAgents_die : isHostDie (2 ^ 48 + 0x200) = true ∧ (base.hostDieRead (2 ^ 48 + 0x200) 8).isSome = true := by
  decide +kernel

def target (type size : Nat) (full : Bool) : Target := { type := type, base := 0x3000000, size := size, ports := 3, share := 4, full := full }
def archive (e : Edition) : State :=
  { base with ticks := 14 * 10 ^ 9, live := 9, editions := [e], regions := base.regions.map fun r => { r with ed := true, frames := 16 } }
def draining (size : Nat) (pend : List (Nat × Nat × Nat)) (ended : List Nat) (written : List Nat) (acked used : Nat) (views : List (Nat × Nat)) : Edition :=
  { ed 3 100 .draining views [0, 1, 2, 3] with target := target 0 size false, pend := pend, ended := ended, written := written, acked := acked, used := used }

theorem test_witness_EditionEvents :
    (let s := archive (ed 3 100 .sealing [] [])
     s.edition? 3 = some (ed 3 100 .sealing [] []) ∧ 0 ∉ (ed 3 100 .sealing [] []).cut ∧ 100 < s.ns) ∧
    (let e := ed 3 100 .sealing [] [1, 0, 2, 3]
     (archive e).edition? 3 = some e ∧ e.st = .sealing ∧ ∀ d < 4, d ∈ e.cut) ∧
    (∀ e ∈ [draining 100000 [(2, 1, 0)] [] [] 0 0 [], draining 300 [] [] [2] 0 200 [], draining 300 [] [1] [2] 5 100 []],
      let s := archive e
      s.editions.find? (fun e => e.st == .draining) = some e ∧ e.chunkSince = none ∧ e.spill = [] ∧ 0 ∉ e.ended ∧ s.edition? e.seq = some e ∧ e.target.type = 0) ∧
    (let e := draining 100000 [(2, 1, 0)] [] [] 0 0 []
     e.pend.find? (fun p => dieOfDpa (4096 * p.1) == 0) = some (2, 1, 0) ∧ e.used + ((archive e).pageRecord e (2, 1, 0)).length ≤ e.target.size) ∧
    (300 < 200 + 128 ∧ 100 + 128 ≤ 300) ∧
    (∀ views ∈ [[], [(1, 1)]], let e := draining 300 [] [1, 0, 2, 3] [2] 5 200 views
      (archive e).edition? 3 = some e ∧ e.st = .draining ∧ e.target.type ≠ 2 ∧ e.chunkSince = none ∧ e.spill = [] ∧ e.ended.length = 4 ∧ e.acked = e.written.length + 4) ∧
    (let e := { draining 131072 [] [] [] 0 65528 [] with target := target 2 131072 false, chunkSince := some 77 }
     (archive e).edition? 3 = some e ∧ 77 + nsTicks 1000000000 ≤ (archive e).ticks ∧ (archive e).coherentNat (e.target.chunk ((e.used - 1) / chunkBytes) + chunkBytes) 8 ≠ 1) ∧
    (∀ p ∈ [(1, 100000, 0, []), (1, 50, 0, []), (0, 50, 0, []), (2, 131072, 0, []), (2, 131072, 65000, []), (2, 131072, 65536, [1, 2, 3])],
      let e := { draining p.2.1 [(2, 1, 0)] [] [] 0 p.2.2.1 [] with target := target p.1 p.2.1 false, spill := p.2.2.2.map (BitVec.ofNat 8) }
      let s := archive e
      s.editions.find? (fun e => e.st == .draining) = some e ∧ e.chunkSince = none ∧ (e.spill = [] ↔ p.2.2.2 = []) ∧ 0 ∉ e.ended ∧ s.edition? e.seq = some e ∧
        e.target.type = p.1 ∧ e.pend.find? (fun q => dieOfDpa (4096 * q.1) == 0) = some (2, 1, 0) ∧
        (p.2.1 = 100000 → e.used + (s.pageRecord e (2, 1, 0)).length ≤ e.target.size) ∧
        (p.2.1 = 50 → e.target.size < e.used + (s.pageRecord e (2, 1, 0)).length)) := by
  refine ⟨by decide +kernel, by decide +kernel, by decide +kernel, by decide +kernel, by decide +kernel, by decide +kernel, by decide +kernel,
    by decide +kernel⟩

def port (st : PortSt) (lanes failed : Nat) : Port := { st := st, lanes := lanes, peer := 7, replays := 3, failed := failed }
def slot (att : Nat) (reduction : Bool) (retry : Nat) : Slot :=
  { ctx := 1, peer := 7, rbase := 0, ports := 0xF, reduction := reduction, retry := retry, status := 0x6000, att := att, lasterr := 0, discards := 0, retries := 0, path := 1 }
def linkReq (id slot : Nat) (body : LinkBody) : LinkReq :=
  { id := id, slot := slot, core := 0, op := 7, body := body, dpa := 2 ^ 45 + slot * 2 ^ 30, att := 5, tries := 0, port := 0, sent := 10 }
def linkStore : StoreReq := { request base with id := 9, op := 7, lane := 3, va := 0x13000, dpa := 2 ^ 45, width := 4, data := 5, todo := 15 }
def linked : State :=
  { grp (fun g => { g with stores := [linkStore] }) with
    ticks := 5000000, ports := [(0, port .up 4 15), (1, port .degraded 1 3), (2, port .training 0 0)], slots := [(3, slot 5 false 3), (4, slot 0xFFFF true 0)],
    linkReqs := [linkReq 40 3 (.load 3), linkReq 41 4 (.store 9), linkReq 42 3 (.store 9)], exports := [{ peer := 7, base := 0x2000, size := 0x1000, r := true, w := true, a := false }],
    inboundAcks := [(7, 0x2000, 100)], pages := [(2, pageSt true false)] }

theorem test_witness_LinkEvents :
    ((linked.port 2).st = .training ∧ (linked.port 0).st = .up ∧ (linked.port 0).failed = 15 ∧ (linked.port 1).st = .degraded ∧ (linked.port 1).failed < 15) ∧
    (linked.linkReqs.find? (fun q => q.id == 40) = some (linkReq 40 3 (.load 3)) ∧ get? linked.slots 3 = some (slot 5 false 3) ∧ 10 + nsTicks 100000 ≤ linked.ticks ∧
      linked.usablePorts (slot 5 false 3).ports ≠ []) ∧
    (get? linked.slots 4 = some (slot 0xFFFF true 0) ∧ (∀ p ∈ [(3, true), (0xFFFF, false), (0x7FFF, false), (0x7FFE, true)], (0 < (p.1 + 2 ^ 16 - 0xFFFF) % 2 ^ 16 ∧ (p.1 + 2 ^ 16 - 0xFFFF) % 2 ^ 16 < 2 ^ 15) ↔ p.2)) ∧
    (linked.inboundOk 7 0x9000 (.read 4) = false ∧ linked.inboundOk 7 0x2000 (.write [1, 2, 3]) = true ∧
      (linked.homeWrite (.linkInboundRequest 7 none 0x2000 (.write [1, 2, 3])) 0x2000 3 (fun _ => some 1) none).2.isSome) ∧
    2 ^ 15 ≤ (0xFFFE + 2 ^ 16 - 0xFFFF) % 2 ^ 16 ∧ (linked.inboundAcks[0]? = some (7, 0x2000, 100) ∧ 100 < linked.ns ∧ linked.pinned (lineOf 0x2000) = false) ∧
    (∀ p ∈ [(41, 4), (42, 3)], linked.linkReqs.find? (fun q => q.id == p.1 && q.port != 36) = some (linkReq p.1 p.2 (.store 9)) ∧ (linked.core 0).storeSlot 9 = some (0, linkStore)) ∧
    (linked.group? 0 0 = some (the linked) ∧ (the linked).hold = .none) := by
  decide +kernel

def lanes (map : Nat) : State := onCore fun c => { c with lanemap := BitVec.ofNat 64 map }
def tested (interval : Nat) (draining : Option Nat) (scanning : Bool) : State :=
  { base with ticks := 30000000, test := { interval := interval, drain := 1, next := 3, draining := draining, scanning := scanning, since := 0 } }
def powered (p : Power) : State := { onCore (fun c => { c with power := p, groups := [], teams := [] }) with ticks := 50000000 }

theorem test_witness_PowerAndReliability :
    ((lanes 0x7F007F).core 0).lanemap.getLsbD 30 = false ∧ (((lanes 0x4005007F).core 0).lanemap.getLsbD 30 = true ∧ ((lanes 0x4005007F).core 0).lanemap.getLsbD 31 = false) ∧
    (((lanes 0xC0050006).core 0).lanemap.getLsbD 30 = true ∧ ((lanes 0xC0050006).core 0).lanemap.getLsbD 31 = true ∧ 0xC0050006 % 128 ≠ 64 ∧ 0xC0050006 / 2 ^ 16 % 128 ≠ 64) ∧
    (base.group? 0 0 = some (the base) ∧ (the base).hold = .none) ∧
    ((tested 1 none false).test.since + nsTicks (1000000 * 1) ≤ (tested 1 none false).ticks ∧ (∃ c ∈ unitCores 0, ((tested 1 (some 0) false).core c).teams ≠ []) ∧
      (∀ c ∈ unitCores 5, ((tested 1 (some 5) false).core c).teams = []) ∧ (tested 1 (some 5) true).test.scanning = true) ∧
    (((powered .on).core 0).power = .on ∧ ((powered .on).core 0).groups = [] ∧ ((powered .on).core 0).powerSince + nsTicks 1000 ≤ (powered .on).ticks) ∧
    (((powered .idle).core 0).power = .idle ∧ ((powered .idle).core 0).powerSince + nsTicks 1000000 ≤ (powered .idle).ticks) ∧
    ((get? base.ctxs 1).isSome = true ∧ (base.ctx 1).state = .running) ∧
    (State.reset.devstat.getLsbD 24 = false ∧ State.reset.devstat.getLsbD 0 = false) ∧
    (let s := { State.reset with devstat := 1 }
     s.devstat.getLsbD 0 = true ∧ s.devstat.getLsbD 8 = false ∧ (s.ctx 0).state = .free) ∧ 4 * 3 + 3 ∉ base.deadKeepers ∧ isLink 0x2000 = false ∧
    (let s := { State.reset with badImages := [2] }
     6 - 4 ∈ s.badImages ∧ 7 - 4 ∉ s.badImages ∧ s.devstat.getLsbD 0 = false) := by
  decide +kernel


/-! ### Witnesses: firmware commands -/

/-- Mailbox 2 holds the command `i` and its argument words. -/
def told (i : Instr) (ws : List Nat) (s : State := base) : State :=
  let code := ((commandTable.find? fun p => p.2 == i).map (·.1)).getD 0
  { s with mailbox := 2, cmds := [(2, i)], mailboxes := (32, BitVec.ofNat 64 (2 ^ 63 + code)) :: ws.zipIdx.map fun p => (33 + p.2, BitVec.ofNat 64 p.1) }
def arg (s : State) (k : Nat) : Nat := (s.mail 2 k).toNat

def commandedB (s : State) (i : Instr) : Bool :=
  s.mailbox == 2 && s.cmds.contains (2, i) && !s.commandBehind 2 i && s.keepersRun (s.mail 2) i

theorem commanded_of {s : State} {i : Instr} (h : commandedB s i = true) : Commanded s i 2 := by
  simp only [commandedB, Bool.and_eq_true, beq_iff_eq, Bool.not_eq_true', List.contains_iff_mem] at h
  exact ⟨h.1.1.1, h.1.1.2, h.1.2, .inr h.2⟩

/-- Each command stands in its mailbox, its turn come, with arguments that meet what its clause asks. -/
def given (l : List (Instr × List Nat × State)) : Bool := l.all fun p => commandedB (told p.1 p.2.1 p.2.2) p.1

def silent : State := { base with devstat := 0x1F101 }

theorem test_witness_CommandEnds :
    given [(.ctxrun, [9], base), (.ctxrun, [2000], base), (.rgnset, [9], base), (.dbgarea, [0x3FF], base), (.stopcore, [5000], base)] = true ∧
    ((base.ctx 9).state = .free ∧ (base.ctx 0x3FF).state = .free ∧ 1024 ≤ 2000) ∧
    ((told .pwrcap [700] silent).mailbox = 2 ∧ (2, Instr.pwrcap) ∈ (told .pwrcap [700] silent).cmds ∧ (told .pwrcap [700] silent).commandBehind 2 .pwrcap = false ∧
      ∀ d < 4, (told .pwrcap [700] silent).devstat.getLsbD (4 + d) = false) ∧ ([1, 2, 3] : List Word64).length ≤ 14 := by
  decide +kernel

def budget (r l t : Nat) : Nat := r * 2 ^ 32 + l * 2 ^ 16 + t
def state (st : CtxState) (host pool : Bool) (s : State := base) : State := onCtx (fun c => { c with state := st, hostHold := host, poolHold := pool, fault := [9, 8], table := 0x41000000 }) s
def canalOf (st : CanalSt) : State := { canals 0 0x8080 with canals := [(5, canal st none)] }
def area (idx base_ : Nat) (dat : Bool) : Region := { placedRegion with idx := idx, base := base_, frames := 8, dat := dat, pool := if dat then 9 else 0, poolFar := if dat then 4 else 0 }
def regions : State := { onCtx (fun c => { c with table := 0x1000000 }) with regions := base.regions ++ [area 3 0x80000000 true, area 4 0x90000000 false], dies := [(0, { DieMem.init with near := 100, far := 50 })] }
/-- The canal's head waits. -/
def headed : State := { headWaits with devstat := base.devstat }

theorem test_witness_ContextAndRegionCommands :
    given [(.ctxcreate, [7, 5, 6, 0, budget 10 20 3, 0x51, 0x100000, 2 ^ 31], base), (.ctxcreate, [7, 5, 6, 0, budget 5000 20 3, 0x51, 0, 0], base), (.ctxrun, [1], state .ready false false),
      (.ctxrun, [1], base), (.ctxrun, [0], base), (.ctxsuspend, [1], base), (.ctxsuspend, [1], state .suspended true true), (.ctxresume, [1, 1], state .suspended true false),
      (.ctxmode, [1, 1, 10], base), (.ctxquery, [1], base), (.ctxdestroy, [1, 0], { base with regions := [], kernels := [] }), (.cnlcreate, [5, 1, 0x8000], base),
      (.cnlresume, [5], canalOf .faulted), (.cnlquery, [5], canalOf .empty), (.cnldestroy, [5], canalOf .empty), (.pgdone, [1, 0, 0], grp fun g => { g with hold := .pageFault false }),
      (.vminv, [1, 0x2000, 0x1000], base), (.rgnset, [1, 7, 0x100000000, 0, 40, 0], regions), (.rgnset, [1, 3, 2 ^ 52, 0, 0, 0], regions), (.rgnpool, [1, 3, 5], regions),
      (.rgnplace, [1, 3, 2], regions), (.rgnclear, [1, 3], state .ready false false regions), (.rgnclear, [1, 4], regions), (.rgnquery, [1, 3, 0], regions), (.rgnquery, [1, 3, 1], regions), (.rgnquery, [1, 8, 0], regions), (.cnldestroy, [5], headed)] = true := by
  decide +kernel

theorem test_witness_ContextAndRegionCommands_arguments :
    ((base.ctx 7).state = .free ∧ budgetOk (budget 10 20 3) = true ∧ budgetOk (budget 5000 20 3) = false ∧ modeOk 0x51 = true ∧ saveNeed (budget 10 20 3) ≤ 2 ^ 31) ∧
    (((state .ready false false).ctx 1).state = .ready ∧ (base.ctx 1).state = .running ∧ ((state .suspended true false).ctx 1).state = .suspended ∧ base.starved 1 = false) ∧
    ((∀ r ∈ ([] : List Region), r.ctx ≠ 1) ∧ base.canals = [] ∧ base.held = [] ∧ base.slots = []) ∧
    (base.canal? 5 = none ∧ 0x8000 % 128 = 0 ∧ (match base.lookup 1 0x8000 .store with
      | .ok r => !isHostDie r.1 && !isLink r.1 && (base.regionAt r.1).any fun q => !q.dat && q.view.isNone
      | .error _ => false) = true) ∧
    ((canalOf .faulted).canal? 5 = some (canal .faulted none) ∧ (canalOf .empty).canal? 5 = some (canal .empty none) ∧ (canalOf .empty).getVa 1 (vaBits 0x8080) 8 = some 0) ∧
    (∃ x ∈ headed.canal? 5, x.st ≠ .dispatching ∧ headed.getVa x.ctx (vaBits x.cursor) 8 = some 0 ∧ ∃ id ∈ x.head, ∃ k ∈ headed.kernel? id, k.st = .waiting) ∧
    regions.region? 1 8 = none ∧
    (∃ g ∈ (grp fun g => { g with hold := .pageFault false }).group? 0 0, g.ctx = 1 ∧ g.hold = .pageFault false) ∧
    (regions.rangeOk 0x100000000 40 = true ∧ isLink 0x100000000 = false ∧ regions.region? 1 7 = none ∧ ((regions.die (dieOfDpa 0x100000000)).supply 0 40).isSome = true ∧
      regions.devstat.getLsbD (8 + dieOfDpa 0x100000000) = true ∧ (regions.region? 1 3).isSome = true ∧ 2 ^ 52 / 2 ^ 52 % 8 ≠ 0) ∧
    (regions.region? 1 3 = some (area 3 0x80000000 true) ∧ ((regions.die 0).supply (area 3 0x80000000 true).place 5).isSome = true ∧ 9 + 5 < 2 ^ 32 ∧ isLink 0x80000000 = false) ∧
    ((state .ready false false regions).drains (area 3 0x80000000 true) = false ∧ regions.region? 1 4 = some (area 4 0x90000000 false)) := by
  decide +kernel

/-- Editions 3 to 5, a view of edition 4, ports and slots. -/
def device : State :=
  { onCtx (fun c => { c with table := 0x1000000, dumpBase := 0x5000000, dumpSize := 0x1000000, watches := [(2, ⟨8, 8, true, true⟩)] }) with
    live := 9, editions := [ed 3 77 .draining [] [], ed 4 77 .drained [(1, 5)] [], ed 5 77 .sealed [] []],
    regions := (base.regions.map fun r => { r with ed := true, born := 2 }) ++ [{ area 5 0xA0000000 false with view := some (4, 1) }],
    ports := [(0, port .up 4 0), (1, port .degraded 2 3)], slots := [(3, slot 5 false 0), (4, slot 0xFFFF true 0)] }
def stopped : State := onCore (fun c => { c with stop := some { ctx := 1, halter := none, code := 0x55, n := 0, time := 5, dumped := true } }) device
def forwarded : State := grp (fun g => { g with hold := .forwarded 0x22 false }) device
/-- The group stands saved at a breakpoint; and stopped with its core, the dump written. -/
def broken : State := grp (fun g => { g with hold := .debug false }) device
def frozen : State := grp (fun g => { g with halt := .stopped false }) stopped
def cooled : State := { device with devstat := 0x0201F1F1, cool := [3, 2, 1, 0] }

theorem test_witness_DeviceCommands :
    given [(.edconf, [1, 1, 0], device), (.edtarget, [3], device), (.edmap, [1, 5, 0, 9, 0x200000000], device), (.edunmap, [1, 5], device), (.edretire, [3, 0], device),
      (.edretire, [3, 1], device), (.edquery, [3], device), (.lnktrain, [3], device), (.lnktrain, [1], device), (.lnkisolate, [0], device), (.lnkmap, [9, 1, 7, 2 ^ 30, 5, 0, 3, 0x8000], device),
      (.lnkunmap, [3], device), (.lnkabort, [4], device), (.lnkquery, [1], device), (.lnkexport, [7, 0x2000, 0, 3], device), (.hostevq, [0x9000, 7, 0, 1, 0x80000001, 0, 0, 0, 0, 0, 0], device),
      (.corestat, [255], device), (.testconf, [3600000, 1000], device), (.dbgarea, [1, 0x1000, 0x2000], device), (.stopcore, [1, 0], stopped), (.stopcore, [1, 0], device),
      (.dbgresume, [1, 0, 0, 1, 0], forwarded), (.dbgresume, [1, 0, 0, 0, 1], forwarded), (.dbgresume, [1, 0, 0, 0, 0], broken), (.dbgresume, [1, 0, 0, 0, 0], device),
      (.dbgresume, [1, 0, 0xFF, 0, 0], frozen), (.watchset, [1, 3, 0x1000, 12, 3], device), (.watchset, [1, 2, 0, 0, 0], device), (.devstat, [], device), (.pwrcap, [600], device),
      (.pwrcap, [1800], device), (.pwrcap, [599], device), (.pwrcap, [1801], device), (.dieresume, [], cooled)] = true := by
  decide +kernel

theorem test_witness_DeviceCommands_arguments :
    ((device.ctx 1).state = .running ∧ ∃ r ∈ device.regions, device.region? 1 0 = some r ∧ r.ed = true ∧ r.born ≤ 5 ∧ device.rangeOk 0x200000000 r.frames = true) ∧
    (device.edition? 5 = some (ed 5 77 .sealed [] []) ∧ device.region? 1 9 = none ∧ isLink 0x200000000 = false) ∧
    (∃ r ∈ device.regions, device.region? 1 5 = some r ∧ r.view = some (4, 1)) ∧ (device.edition? 3 = some (ed 3 77 .draining [] [])) ∧
    ((device.port 3).st = .down ∧ (device.port 1).st = .degraded) ∧ (get? device.slots 9 = none ∧ get? device.slots 3 = some (slot 5 false 0) ∧ get? device.slots 4 = some (slot 0xFFFF true 0) ∧ device.linkReqs = []) ∧
    (routeOk 0x80000001 = true ∧ routeOk 0 = true ∧ device.inRegions 0x9000 (0x80 + 32 * 2 ^ 7) = true ∧ device.events.set = false ∧ device.events.held = []) ∧
    ((stopped.core 0).stop = some { ctx := 1, halter := none, code := 0x55, n := 0, time := 5, dumped := true } ∧ (device.core 0).stop = none ∧ (device.ctx 1).dumpSize ≠ 0) ∧
    (∃ g ∈ forwarded.group? 0 0, g.ctx = 1 ∧ g.hold = .forwarded 0x22 false ∧ g.halt = .none ∧ (forwarded.core 0).stop = none ∧ ((forwarded.core 0).groups.map (·.1)).Nodup) ∧
    ((the broken).hold = .debug false ∧ (the device).hold = .none ∧ (the device).halt = .none ∧ (the frozen).ctx = 1 ∧ (the frozen).halt = .stopped false ∧
      (frozen.core 0).stop = (stopped.core 0).stop) ∧
    (0x1000 % 2 ^ 12 = 0 ∧ cooled.devstat.getLsbD 25 = true ∧ ∀ d < 4, d ∈ cooled.cool) := by
  decide +kernel

/-! ### Witnesses: the machine as a whole, and single steps -/

theorem test_witness_EncodeDecode : ∃ i w, Instr.wf i = true ∧ encode i = some w ∧ decodeWord w = .ok i ∧ ∃ v, decodeWord v = .ok (.reservedOpcodeIssue v) :=
  ⟨.nop, 0, by decide +kernel, by decide +kernel, rfl, 0x1300000000000001, rfl⟩

/-- One gang that stands at a placed word. -/
def placed (w : Nat) : State := State.reset.withFetchWord 64 w
def runs (s : State) : Option (Instr × Nat) := s.enabled.head?.map fun x => (x.1, x.2.cur.word.toNat)

theorem test_witness_StepRunsDecoded :
    (let s := placed 0x200180642C000040
     s.cutDue = none ∧ s.agenda = [] ∧ s.immediate = [] ∧ s.enabled = [s.issueOf 0 0 (the s) ((the s).thread 0) allLanes] ∧
      ((the s).entryOf ((the s).thread 0).entry).map (·.words) = some [headerWord .alu 1, 0x200180642C000040] ∧
      runs s = (match decodeWord 0x200180642C000040 with
        | .ok i => some (i, 0x200180642C000040)
        | .error _ => none)) ∧
    runs (placed 0x2001806430000040) = some (.reservedOpcodeIssue 0x2001806430000040, 0x2001806430000040) ∧
    (let s : State := { placed 0 with agenda := [.nop] }
     s.cutDue = none ∧ s.agenda = [.nop]) ∧
    (let s := State.reset
     s.cutDue = none ∧ s.agenda = [] ∧ s.immediate = [] ∧ s.enabled = []) ∧
    (let s := queued
     s.cutDue = none ∧ s.immediate ≠ []) := by
  decide +kernel

/-- The gang stands before the clause; inside it, the words to be fetched again; and stalled for SETB. -/
def standing (f : Thread → Thread) (due : Bool) : State :=
  grp (fun g => { g with threads := g.threads.map f, entries := g.entries.map fun e => { e with setbDue := due } }) (placed 0)

theorem test_witness_StepRunsDecoded_entry :
    (∀ s ∈ [standing (fun t => { t with entry := 0 }) false, standing (fun t => { t with refetch := true }) false, standing id true],
      s.cutDue = none ∧ s.agenda = [] ∧ s.immediate = [] ∧ s.enabled = [s.issueOf 0 0 (the s) ((the s).thread 0) allLanes]) ∧
    ((the (standing (fun t => { t with entry := 0 }) false)).thread 0).entry = 0 ∧
    ((the (standing (fun t => { t with refetch := true }) false)).thread 0).refetch = true ∧
    (the (standing id true)).setbWaits ((the (standing id true)).thread 0) = true := by
  decide +kernel

theorem test_witness_InvariantsKept : MemoryOk base ∧ FreshIds base ∧ ∃ t, step base = .next t := by
  refine ⟨by unfold MemoryOk; decide +kernel, fresh_of (by decide +kernel), ?_⟩
  have h : (match step base with
    | .next _ => true
    | _ => false) = true := by decide +kernel
  revert h
  cases step base with
  | next t => exact fun _ => ⟨t, rfl⟩
  | fault f => intro h; cases h
  | refused r => intro h; cases h

/-! ### Single steps

One step at a placed word: the result register, and where the program counter goes. -/

/-- The state in which the step of a placed word leaves the device, before time passes (`test_step_passes`). -/
def stepped (w x : Nat) : Option State :=
  match (reg 4 x (placed w)).choose with
  | some (i, t) => match exec i t with
    | .next u => some u
    | _ => none
  | none => none

theorem test_step_passes : ∀ w x u, stepped w x = some u → step (reg 4 x (placed w)) = .next u.pass := by
  intro w x u h
  unfold stepped at h
  unfold step
  split at h
  · rename_i i t hc
    rw [hc]
    dsimp only
    split at h
    · rename_i v hv
      rw [hv]
      cases h
      rfl
    · cases h
  · cases h

/-- Lane 5's main register 6 then. -/
def stepReg (w x : Nat) : Option (BitVec 32) := (stepped w x).map fun t => (the t).src32 5 (.main 6)

/-- Lane 5's program counter then. -/
def stepPc (w x : Nat) : Option Word64 := (stepped w x).map fun t => ((the t).thread 5).pc

-- IADDW R6, R4, 0x80000001 (R290): the sum modulo 2^32.
theorem test_iaddw_wraps : stepReg 0x2101804800000012 0x80000000 = some 1#32 := by decide +kernel
-- The same at type S16: the low half is added, and the result is extended with its sign (R100).
theorem test_iaddw_s16 : stepReg 0x2101804000000011 0x00017FFF = some 0xFFFF8000#32 := by decide +kernel
-- ISUBW R6, R4, 1 (R290): the immediate minus A.
theorem test_isubw_reversed : stepReg 0x2301804000000012 2 = some 0xFFFFFFFF#32 := by decide +kernel
-- IMULW R6, R4, 0x10001: the low 32 bits of 0x10001 squared.
theorem test_imulw_low : stepReg 0x2601804000100012 0x10001 = some 0x00020001#32 := by decide +kernel
-- IADD R6, R6, LANE is another gang's word: lane 5 adds 5 to register 6, which is 0 at reset.
theorem test_iadd_lane : stepReg 0x200180642C000040 9 = some 5#32 := by decide +kernel
-- NOP ends its clause of one word at 0x1000, and the next header lies at 0x1010 (R66, R73).
theorem test_nop_advances : stepPc 0 0 = some 0x1010#64 := by decide +kernel
-- IADD.sat.n8 R6, R4, R4 of 200 writes 255 (R290).
theorem test_iadd_saturates : stepReg 0x2001804010000081 200 = some 255#32 := by decide +kernel

end Sys2Proof.Tests
end

namespace Sys2Proof.Machine

/-! ### Reset (R14, R118, R253, R374, R405) -/

theorem cycles_reset (c : Nat) : State.reset.cycles c = 0 := by simp [State.cycles, State.core, State.reset, Core.init]

theorem freshIds_reset : FreshIds State.reset :=
  fun _ => ⟨fun _ h => (nomatch h), fun _ h => (nomatch h), fun _ _ h => (nomatch h)⟩

/-- Settles O60: each field of `State.reset` as it is written, the two invariants of its empty tables. -/
theorem resetState : Obligations.ResetState := by
  unfold Obligations.ResetState
  refine ⟨rfl, rfl, rfl, rfl, rfl, rfl, rfl, fun _ => rfl, fun _ _ => rfl, rfl, rfl, fun c => ⟨rfl, rfl, cycles_reset c⟩, fun _ => rfl, ?_⟩
  exact ⟨memory_wf_nil, freshIds_reset⟩

end Sys2Proof.Machine

namespace Sys2Proof

open Machine

/-! ### Changes of one core -/

theorem OnlyCore.refl (s : State) (core : Nat) : OnlyCore s s core := ⟨rfl, fun _ _ => rfl, fun _ => rfl⟩

theorem OnlyCore.modCore {s t : State} {core : Nat} (h : OnlyCore s t core) (f : Core → Core) : OnlyCore s (t.modCore core f) core where
  device := by
    show { t with cores := _ } = _
    rw [h.device]
    rfl
  others := fun c hc => (core_modCore_ne t f hc).trans (h.others c hc)
  memory := fun a => (stored_modCore t core f a).trans (h.memory a)

theorem onlyCore_modCore (s : State) (core : Nat) (f : Core → Core) : OnlyCore s (s.modCore core f) core := (OnlyCore.refl s core).modCore f

end Sys2Proof

namespace Sys2Proof.Machine

/-! ### What storing changes

The device's own stores reach storage, its homes and what the keepers post (R181, R190–R194, R227, R259, R401); cores, kernels, canals and the
readiness word stand. -/

/-- A region apart from what accesses to it change: its pool, its drops and whether one is held. -/
def Region.granted (r : Region) : Region := { r with pool := 0, poolFar := 0, drops := 0, sticky := false, held := false }

/-- From `s` to `t` only storage, homes, frames and events change, of a context at most its POOL reason, and of a region what accesses change. -/
structure StoredOnly (s t : State) : Prop where
  device : t = { s with fresh := t.fresh, mem := t.mem, poison := t.poison, tags := t.tags, lines := t.lines, pages := t.pages, held := t.held,
                        regions := t.regions, dies := t.dies, ctxs := t.ctxs, editions := t.editions, events := t.events, imsic := t.imsic }
  ctx : ∀ c, t.ctx c = { s.ctx c with poolHold := (t.ctx c).poolHold }
  regions : t.regions.map Region.granted = s.regions.map Region.granted

theorem StoredOnly.refl (s : State) : StoredOnly s s := ⟨rfl, fun _ => rfl, rfl⟩

theorem StoredOnly.trans {s t u : State} (h : StoredOnly s t) (k : StoredOnly t u) : StoredOnly s u where
  device := by rw [k.device, h.device]
  ctx := fun c => by rw [k.ctx, h.ctx]
  regions := k.regions.trans h.regions

theorem StoredOnly.cores {s t : State} (h : StoredOnly s t) : t.cores = s.cores := by rw [h.device]
theorem StoredOnly.devstat {s t : State} (h : StoredOnly s t) : t.devstat = s.devstat := by rw [h.device]
theorem StoredOnly.core {s t : State} (h : StoredOnly s t) (c : Nat) : t.core c = s.core c := by unfold State.core; rw [h.cores]
theorem StoredOnly.group? {s t : State} (h : StoredOnly s t) (c l : Nat) : t.group? c l = s.group? c l := by unfold State.group?; rw [h.core]
theorem StoredOnly.team? {s t : State} (h : StoredOnly s t) (c k : Nat) : t.team? c k = s.team? c k := by unfold State.team?; rw [h.core]
theorem StoredOnly.ctxState {s t : State} (h : StoredOnly s t) (c : Nat) : (t.ctx c).state = (s.ctx c).state := by rw [h.ctx]

theorem StoredOnly.ite {s t u : State} {p : Prop} [Decidable p] (ht : StoredOnly s t) (hu : StoredOnly s u) :
    StoredOnly s (if p then t else u) := by split <;> assumption

/-- A fold of steps that store. -/
theorem StoredOnly.foldl {β : Type} {f : State → β → State} (hf : ∀ s x, StoredOnly s (f s x)) (l : List β) (s : State) :
    StoredOnly s (l.foldl f s) := by
  induction l generalizing s with
  | nil => exact .refl s
  | cons x l ih => exact (hf s x).trans (ih _)

theorem storedOnly_take (s : State) : StoredOnly s s.take.2 := ⟨rfl, fun _ => rfl, rfl⟩
theorem storedOnly_modDie (s : State) (d : Nat) (f : DieMem → DieMem) : StoredOnly s (s.modDie d f) := ⟨rfl, fun _ => rfl, rfl⟩
theorem storedOnly_modPage (s : State) (p : Nat) (f : PageSt → PageSt) : StoredOnly s (s.modPage p f) := ⟨rfl, fun _ => rfl, rfl⟩
theorem storedOnly_modLine (s : State) (l : Nat) (f : LineSt → LineSt) : StoredOnly s (s.modLine l f) := ⟨rfl, fun _ => rfl, rfl⟩
theorem storedOnly_queueEvent (s : State) (e : Event) : StoredOnly s (s.queueEvent e) := ⟨rfl, fun _ => rfl, rfl⟩
theorem storedOnly_editions (s : State) (l : List Edition) : StoredOnly s { s with editions := l } := ⟨rfl, fun _ => rfl, rfl⟩
theorem storedOnly_mem (s : State) (m : List Host.Cell) : StoredOnly s { s with mem := m } := ⟨rfl, fun _ => rfl, rfl⟩
theorem storedOnly_imsic (s : State) (l : List (Nat × Nat × Nat)) : StoredOnly s { s with imsic := l } := ⟨rfl, fun _ => rfl, rfl⟩

theorem storedOnly_queueHeld (s : State) (p : Nat) (who : Instr) : StoredOnly s (s.queueHeld p who) := by
  unfold State.queueHeld
  split
  · exact .refl s
  · exact ⟨rfl, fun _ => rfl, rfl⟩

theorem storedOnly_modRegion (s : State) (ctx idx : Nat) {f : Region → Region} (hf : ∀ r, (f r).granted = r.granted) :
    StoredOnly s (s.modRegion ctx idx f) := by
  refine ⟨rfl, fun _ => rfl, ?_⟩
  simp only [State.modRegion, List.map_map]
  refine List.map_congr_left fun r _ => ?_
  simp only [Function.comp]
  split
  · exact hf r
  · rfl

theorem ctx_modCtx (s : State) (n c : Nat) (f : Ctx → Ctx) : (s.modCtx n f).ctx c = if c = n then f (s.ctx c) else s.ctx c := by
  simp only [State.modCtx, State.ctx, get?_put]
  by_cases h : c = n
  · subst h; simp
  · simp [h]

theorem storedOnly_poolHold (s : State) (c : Nat) : StoredOnly s (s.modCtx c fun x => { x with poolHold := true }) := by
  refine ⟨rfl, fun d => ?_, rfl⟩
  rw [ctx_modCtx]
  split <;> rfl

theorem storedOnly_copyOnWrite (s : State) (p : Nat) : StoredOnly s (s.copyOnWrite p) := by
  unfold State.copyOnWrite
  split
  · exact .refl s
  · refine .ite (.refl s) (StoredOnly.trans ?_ (storedOnly_modPage _ _ _))
    refine .ite (.refl s) (.ite (storedOnly_editions _ _) (.ite ?_ ?_))
    · exact (((storedOnly_take s).trans (storedOnly_modDie _ _ _)).trans (storedOnly_modPage _ _ _)).trans (storedOnly_editions _ _)
    · exact (storedOnly_editions _ _).trans (.foldl (fun s _ => storedOnly_queueEvent s _) _ _)

theorem storedOnly_writeBackLine (s : State) (l : Nat) : StoredOnly s (s.writeBackLine l) := by
  unfold State.writeBackLine
  refine .ite (.refl s) ?_
  dsimp only
  split
  · exact .ite ((storedOnly_modLine s l _).trans (storedOnly_modPage _ _ _)) (storedOnly_modLine s l _)
  · exact storedOnly_modLine s l _

theorem storedOnly_warm (s : State) (dpa : Nat) : StoredOnly s (s.warm dpa) := by
  unfold State.warm
  split
  · split
    · exact storedOnly_modPage _ _ _
    · exact .refl s
  · exact .refl s

theorem storedOnly_l2Fill (s : State) (l : Nat) : StoredOnly s (s.l2Fill l) := by
  unfold State.l2Fill
  split
  · exact .refl s
  · refine StoredOnly.trans ?_ ((storedOnly_warm _ _).trans (storedOnly_modLine _ _ _))
    split
    · exact .refl s
    · exact (storedOnly_writeBackLine s _).trans (storedOnly_modLine _ _ _)

theorem storedOnly_putBytes (s : State) (dpa n : Nat) (f : Nat → Option Byte) (tag : Option (BitVec 4)) :
    StoredOnly s (s.putBytes dpa n f tag) := by
  unfold State.putBytes
  refine StoredOnly.trans ?_ (.foldl (fun s l => (storedOnly_l2Fill s l).trans (storedOnly_modLine _ l _)) _ _)
  cases tag <;> exact ⟨rfl, fun _ => rfl, rfl⟩

theorem storedOnly_reserve (s : State) (r : Region) (p : Nat) : StoredOnly s (s.reserve r p) := by
  unfold State.reserve
  refine StoredOnly.trans ?_ (storedOnly_modPage _ _ _)
  refine StoredOnly.trans ?_ (storedOnly_mem _ _)
  exact storedOnly_modRegion s _ _ fun _ => rfl

theorem storedOnly_storeAt (s : State) (who : Instr) (dpa n : Nat) (f : Nat → Option Byte) (tag : Option (BitVec 4)) :
    StoredOnly s (s.storeAt who dpa n f tag).1 := by
  unfold State.storeAt
  dsimp only
  split
  · exact storedOnly_queueHeld _ _ _
  split
  · exact storedOnly_putBytes s dpa n f none
  next r _ =>
  split
  · exact (StoredOnly.ite (storedOnly_copyOnWrite _ _) (.refl s)).trans (storedOnly_putBytes _ _ _ _ _)
  split
  · exact .refl s
  split
  · exact ((storedOnly_copyOnWrite _ _).trans (storedOnly_reserve _ _ _)).trans (storedOnly_putBytes _ _ _ _ _)
  split
  · refine storedOnly_modRegion s r.ctx r.idx ?_
    exact fun _ => rfl
  · refine ((((storedOnly_modRegion s r.ctx r.idx ?_).trans (storedOnly_modPage _ _ _)).trans (storedOnly_poolHold _ _)).trans
      (storedOnly_queueEvent _ _)).trans (storedOnly_queueHeld _ _ _)
    exact fun _ => rfl

theorem storedOnly_dropHalf (s : State) (dpa : Nat) : StoredOnly s (s.dropHalf dpa).1 := by
  unfold State.dropHalf
  split
  · exact .refl s
  · exact storedOnly_modLine s (lineOf dpa) fun l => l.setHalf dpa .invalid
  · next d _ =>
    have hr : StoredOnly s (if d.isEmpty then (s, some 0) else
        s.storeAt (.hostWriteback (halfOf dpa) [] false) (halfOf dpa) 64 (fun i => (d.find? fun p => p.1 == halfOf dpa + i).map (·.2)) none).1 := by
      split
      · exact .refl s
      · exact storedOnly_storeAt _ _ _ _ _ _
    dsimp only
    split
    · next h => rw [h] at hr; exact hr.trans (storedOnly_modLine _ (lineOf dpa) fun l => l.setHalf dpa .invalid)
    · next h => rw [h] at hr; exact hr

theorem storedOnly_dropHalves (s : State) (dpa n : Nat) : StoredOnly s (s.dropHalves dpa n).1 := by
  unfold State.dropHalves
  generalize halvesOf dpa n = l
  generalize true = b
  induction l generalizing s b with
  | nil => exact .refl s
  | cons h l ih => exact (storedOnly_dropHalf s h).trans (ih _ _)

theorem storedOnly_deviceStore (s : State) (who : Instr) (dpa : Nat) (bytes : List Byte) : StoredOnly s (s.deviceStore who dpa bytes).1 := by
  have hd := storedOnly_dropHalves s dpa bytes.length
  unfold State.deviceStore
  split
  · exact storedOnly_queueHeld _ _ _
  · split
    · next h => rw [h] at hd; exact hd.trans (storedOnly_queueHeld _ _ _)
    · next h => rw [h] at hd; exact hd.trans (storedOnly_storeAt _ _ _ _ _ _)

theorem storedOnly_rawWrite (s : State) (dpa : Nat) (bytes : List Byte) : StoredOnly s (s.rawWrite dpa bytes) :=
  .foldl (fun s _ => storedOnly_deviceStore s _ _ _) _ s

theorem storedOnly_translateAt {s t : State} {ctx va dpa : Nat} {need : Need} (h : s.translateAt ctx va need = .ok (t, dpa)) : StoredOnly s t := by
  unfold State.translateAt at h
  split at h
  · cases h
  · obtain ⟨rfl, -⟩ := Prod.mk.inj (Except.ok.inj h)
    exact .ite (.refl s) (storedOnly_rawWrite _ _ _)

theorem storedOnly_putVa {s t : State} {ctx va : Nat} {bytes : List Byte} (h : s.putVa ctx va bytes = some t) : StoredOnly s t := by
  unfold State.putVa at h
  split at h
  · next ht => cases h; exact (storedOnly_translateAt ht).trans (storedOnly_rawWrite _ _ _)
  · cases h

theorem storedOnly_events (s : State) (q : EventQ) : StoredOnly s { s with events := q } := ⟨rfl, fun _ => rfl, rfl⟩

theorem storedOnly_postEvents (s : State) : StoredOnly s s.postEvents := by
  refine .foldl (fun s e => .ite ?_ (.refl s)) _ s
  refine .ite (.ite ?_ (StoredOnly.trans ?_ (storedOnly_imsic _ _))) ?_ <;>
    exact ((storedOnly_rawWrite _ _ _).trans (storedOnly_events _ _)).trans (storedOnly_rawWrite _ _ _)

theorem storedOnly_post (s : State) (e : Event) : StoredOnly s (s.post e) := (storedOnly_queueEvent s e).trans (storedOnly_postEvents _)

end Sys2Proof.Machine

namespace Sys2Proof.Machine

/-! ### Who is in service, and which contexts run

What a fault of a context, or an error that a team cannot absorb, does to the rest of the device (R123, R142, R146, R411). -/

theorem get?_mapVals {α β : Type} (l : SMap α) (f : α → β) (n : Nat) : get? (l.map fun p => (p.1, f p.2)) n = (get? l n).map f := by
  induction l with
  | nil => rfl
  | cons p t ih =>
    obtain ⟨j, x⟩ := p
    simp only [get?, List.map_cons]
    split
    · rfl
    · exact ih

/-- From `s` to `t` no core enters or leaves service, and each context keeps its state. -/
structure SameStanding (s t : State) : Prop where
  service : ∀ c, (t.core c).inService = (s.core c).inService
  ctx : ∀ c, (t.ctx c).state = (s.ctx c).state

theorem SameStanding.refl (s : State) : SameStanding s s := ⟨fun _ => rfl, fun _ => rfl⟩

theorem SameStanding.trans {s t u : State} (h : SameStanding s t) (k : SameStanding t u) : SameStanding s u :=
  ⟨fun c => (k.service c).trans (h.service c), fun c => (k.ctx c).trans (h.ctx c)⟩

theorem SameStanding.ite {s t u : State} {p : Prop} [Decidable p] (ht : SameStanding s t) (hu : SameStanding s u) :
    SameStanding s (if p then t else u) := by split <;> assumption

theorem SameStanding.foldl {β : Type} {f : State → β → State} (hf : ∀ s x, SameStanding s (f s x)) (l : List β) (s : State) :
    SameStanding s (l.foldl f s) := by
  induction l generalizing s with
  | nil => exact .refl s
  | cons x l ih => exact (hf s x).trans (ih _)

theorem StoredOnly.standing {s t : State} (h : StoredOnly s t) : SameStanding s t := ⟨fun c => by rw [h.core], h.ctxState⟩

theorem core_modCore_field {α : Type} (p : Core → α) (s : State) (c : Nat) {f : Core → Core} (hf : ∀ k, p (f k) = p k) (d : Nat) :
    p ((s.modCore c f).core d) = p (s.core d) := by
  by_cases h : d = c
  · subst h; rw [core_modCore, hf]
  · rw [core_modCore_ne _ _ h]

theorem standing_modCore (s : State) (c : Nat) {f : Core → Core} (hf : ∀ k, (f k).inService = k.inService) : SameStanding s (s.modCore c f) :=
  ⟨core_modCore_field Core.inService s c hf, fun _ => rfl⟩

@[simp] theorem Core.modGroup_inService (c : Core) (l : Nat) (f : Group → Group) : (c.modGroup l f).inService = c.inService := by
  unfold Core.modGroup; split <;> rfl

theorem standing_modGroup (s : State) (c l : Nat) (f : Group → Group) : SameStanding s (s.modGroup c l f) :=
  standing_modCore s c fun k => k.modGroup_inService l f

@[simp] theorem Core.consumeOp_inService (c : Core) (id : Nat) : (c.consumeOp id).inService = c.inService := by
  unfold Core.consumeOp
  split
  · rfl
  · split
    · rfl
    · rw [Core.modGroup_inService]; rfl

@[simp] theorem Core.finishOp_inService (c : Core) (id : Nat) : (c.finishOp id).inService = c.inService := by
  unfold Core.finishOp
  dsimp only
  split
  · exact c.consumeOp_inService id
  · rw [Core.endStall, Core.modGroup_inService, Core.modGroup_inService]
    exact c.consumeOp_inService id

theorem standing_modKernel (s : State) (k : Nat) (f : Kernel → Kernel) : SameStanding s (s.modKernel k f) := by
  unfold State.modKernel
  split
  · exact ⟨fun _ => rfl, fun _ => rfl⟩
  · exact .refl s

theorem standing_setKernel (s : State) (k : Nat) (st : KernelSt) (kcode : Nat) : SameStanding s (s.setKernel k st kcode) := by
  unfold State.setKernel
  split
  · exact .refl s
  · split
    · exact standing_modKernel _ _ _
    · next ht =>
      have stored := storedOnly_translateAt ht
      dsimp only
      split
      · next hd => exact (stored.trans (hd ▸ storedOnly_deviceStore _ _ _ _ :)).standing.trans (standing_modKernel _ _ _)
      · next hd => exact (stored.trans (hd ▸ storedOnly_deviceStore _ _ _ _ :)).standing.trans (standing_modKernel _ _ _)

theorem storedOnly_putVa_getD (s : State) (ctx va : Nat) (bytes : List Byte) : StoredOnly s ((s.putVa ctx va bytes).getD s) := by
  cases h : s.putVa ctx va bytes with
  | none => exact .refl s
  | some t => exact storedOnly_putVa h

theorem standing_setCanal (s : State) (n : Nat) (c : Canal) : SameStanding s (s.setCanal n c) := by
  unfold State.setCanal
  split
  · exact .refl s
  · have field := fun (s : State) va (b : Bool) x => StoredOnly.ite (p := b = true) (storedOnly_putVa_getD s c.ctx va (leBytes 8 x)) (.refl s)
    exact ((((field _ _ _ _).trans (field _ _ _ _)).trans (field _ _ _ _)).standing).trans ⟨fun _ => rfl, fun _ => rfl⟩

theorem standing_holdCanals (s : State) (ctx : Nat) : SameStanding s (s.holdCanals ctx) := by
  refine .foldl (fun s n => ?_) _ s
  split
  · exact .ite (standing_setCanal _ _ _) (.refl s)
  · exact .refl s

theorem core_mapGroups (s : State) (ctx : Nat) (f : Group → Group) (c : Nat) :
    (s.mapGroups ctx f).core c =
      { s.core c with groups := (s.core c).groups.map fun p => (p.1, if p.2.ctx == ctx then f p.2 else p.2) } := by
  refine (congrArg (·.getD Core.init) (get?_mapVals s.cores (fun k : Core =>
    { k with groups := k.groups.map fun p => (p.1, if p.2.ctx == ctx then f p.2 else p.2) }) c)).trans ?_
  unfold State.core
  cases get? s.cores c <;> rfl

theorem standing_mapGroups (s : State) (ctx : Nat) (f : Group → Group) : SameStanding s (s.mapGroups ctx f) :=
  ⟨fun c => by rw [core_mapGroups], fun _ => rfl⟩

theorem standing_dropHeld (s : State) (i : Instr) : SameStanding s (s.dropHeld i) := by
  unfold State.dropHeld
  split
  · exact standing_modGroup _ _ _ _
  · exact standing_modCore _ _ fun _ => rfl
  · exact standing_modCore _ _ fun k => k.finishOp_inService _
  · exact .refl s

theorem standing_discardHeld (s : State) (ctx : Nat) : SameStanding s (s.discardHeld ctx).1 :=
  (SameStanding.foldl (fun s (h : Nat × Instr) => standing_dropHeld s h.2) _ s).trans ⟨fun _ => rfl, fun _ => rfl⟩

/-- Whether a context has something to stop: it is Running or Suspended. -/
def CtxState.stoppable (x : CtxState) : Bool := x == .running || x == .suspended

/-- What a fault of a context does once the context is Faulted: its groups, held accesses, kernels and canals, and the event. -/
def State.haltCtx (s : State) (ctx kcode : Nat) (kernel : Option Nat) (core slot : Nat) : State :=
  let d := (s.mapGroups ctx (Group.preempt · (.suspended true))).discardHeld ctx
  let s := d.1.modCtx ctx fun c => { c with discards := c.discards + d.2 }
  let first := kernel <|> ((s.kernels.filter fun k => k.2.ctx == ctx && k.2.going).map (·.1)).head?
  let s := (keysOf s.kernels).foldl (fun s k =>
    match s.kernel? k with
    | some x =>
      if x.ctx == ctx && x.going then (if first = some k then s.setKernel k .faulted kcode else s.setKernel k .aborted 0x30) else s
    | none => s) s
  let s := s.holdCanals ctx
  let barge := (first.bind s.kernel?).map (·.barge)
  s.post { cls := 9, code := kcode, ctx := ctx, core := core, slot := slot, arg0 := barge.getD 0, arg1 := 0 }

theorem faultCtx_of_stoppable {s : State} {ctx : Nat} (h : (s.ctx ctx).state.stoppable = true) (kcode : Nat) (kernel : Option Nat)
    (record : List Word64) (core slot : Nat) :
    s.faultCtx ctx kcode kernel record core slot =
      (s.modCtx ctx fun c => { c with state := .faulted, fault := record }).haltCtx ctx kcode kernel core slot := by
  unfold State.faultCtx
  exact if_pos (by simpa [CtxState.stoppable] using h)

theorem faultCtx_of_not_stoppable {s : State} {ctx : Nat} (h : (s.ctx ctx).state.stoppable = false) (kcode : Nat) (kernel : Option Nat)
    (record : List Word64) (core slot : Nat) : s.faultCtx ctx kcode kernel record core slot = s := by
  unfold State.faultCtx
  exact if_neg (by simpa [CtxState.stoppable] using h)

theorem standing_modCtx (s : State) (n : Nat) {f : Ctx → Ctx} (hf : ∀ c, (f c).state = c.state) : SameStanding s (s.modCtx n f) := by
  refine ⟨fun _ => rfl, fun c => ?_⟩
  rw [ctx_modCtx]
  split
  · exact hf _
  · rfl

theorem standing_haltCtx (s : State) (ctx kcode : Nat) (kernel : Option Nat) (core slot : Nat) :
    SameStanding s (s.haltCtx ctx kcode kernel core slot) := by
  unfold State.haltCtx
  dsimp only
  refine SameStanding.trans ?_ (storedOnly_post _ _).standing
  refine SameStanding.trans ?_ (standing_holdCanals _ _)
  refine SameStanding.trans ?_ (.foldl (fun s k => ?_) _ _)
  · exact ((standing_mapGroups s ctx _).trans (standing_discardHeld _ ctx)).trans (standing_modCtx _ _ fun _ => rfl)
  · split
    · exact .ite (.ite (standing_setKernel _ _ _ _) (standing_setKernel _ _ _ _)) (.refl s)
    · exact .refl s

/-- A fault takes its own context from Running or Suspended to Faulted (R123); every other keeps its state. -/
theorem ctxState_faultCtx (s : State) (ctx kcode : Nat) (kernel : Option Nat) (record : List Word64) (core slot c : Nat) :
    ((s.faultCtx ctx kcode kernel record core slot).ctx c).state =
      if c = ctx ∧ (s.ctx c).state.stoppable = true then .faulted else (s.ctx c).state := by
  by_cases h : (s.ctx ctx).state.stoppable = true
  · rw [faultCtx_of_stoppable h, (standing_haltCtx _ _ _ _ _ _).ctx, ctx_modCtx]
    by_cases hc : c = ctx
    · subst hc; simp [h]
    · simp [hc]
  · rw [faultCtx_of_not_stoppable (by simpa using h)]
    split
    · next hc => exact absurd (hc.1 ▸ hc.2) h
    · rfl

/-- A fault of a context leaves every core in its service. -/
theorem inService_faultCtx (s : State) (ctx kcode : Nat) (kernel : Option Nat) (record : List Word64) (core slot c : Nat) :
    ((s.faultCtx ctx kcode kernel record core slot).core c).inService = (s.core c).inService := by
  by_cases h : (s.ctx ctx).state.stoppable = true
  · rw [faultCtx_of_stoppable h, (standing_haltCtx _ _ _ _ _ _).service]; rfl
  · rw [faultCtx_of_not_stoppable (by simpa using h)]

/-- The faults of a list of contexts, one after the other, as at a thermal stop. -/
theorem ctxState_faultCtxs (l : List Nat) (s : State) (c : Nat) :
    ((l.foldl (fun (s : State) c => s.faultCtx c 0x21 none [] 0xFF 0xFF) s).ctx c).state =
      if c ∈ l ∧ (s.ctx c).state.stoppable = true then .faulted else (s.ctx c).state := by
  induction l generalizing s with
  | nil => simp
  | cons n l ih =>
    rw [List.foldl_cons, ih, ctxState_faultCtx]
    rcases Decidable.em (c = n) with rfl | hc
    · by_cases hs : (s.ctx c).state.stoppable = true <;> simp [hs]
    · simp [hc]

theorem inService_ite {s t : State} {p : Prop} [Decidable p] {c : Nat} {b : Bool} (hs : (s.core c).inService = b) (ht : (t.core c).inService = b) :
    ((if p then s else t).core c).inService = b := by split <;> assumption

theorem inService_strike (s : State) (core team slot c : Nat) : ((s.strike core team slot).core c).inService = (s.core c).inService := by
  unfold State.strike
  split
  · rfl
  · refine inService_ite ?_ (inService_faultCtx _ _ _ _ _ _ _ _)
    refine ((standing_modKernel _ _ _).service c).trans ((SameStanding.foldl (fun s (p : Nat × Nat) => standing_modCore s p.1 fun k => ?_) _ s).service c)
    unfold Core.quiesce
    split <;> rfl

/-- A core that leaves service is out of it, and no error of its teams brings it back (R408). -/
theorem inService_retireCore (s : State) (core : Nat) : ((s.retireCore core).core core).inService = false := by
  unfold State.retireCore
  have out : ((s.modCore core fun c => { c with inService := false }).core core).inService = false := by rw [core_modCore]
  generalize (s.modCore core fun c => { c with inService := false }) = t at out
  dsimp only
  generalize keysOf (t.core core).teams = l
  induction l generalizing t with
  | nil => exact out
  | cons k l ih =>
    refine ih _ ?_
    dsimp only
    split
    · rw [inService_strike]; exact out
    · exact out

end Sys2Proof.Machine

namespace Sys2Proof.Machine

/-! ### Lane failures (R405–R408) -/

/-- A bit of a word, as arithmetic. -/
theorem getLsbD_iff_div (x : Word64) (i : Nat) : x.getLsbD i = true ↔ x.toNat / 2 ^ i % 2 = 1 := by
  rw [← BitVec.testBit_toNat, Nat.testBit_eq_decide_div_mod_eq, decide_eq_true_eq]

section
variable {map : Word64} {lane : Nat} (hl : lane < 65) (ha : map.toNat % 128 ≠ lane) (hb : map.toNat / 2 ^ 16 % 128 ≠ lane)
include hl ha hb

/-- The first failed lane stands in FIRST, with its bit. -/
theorem mapLane_first (h30 : map.getLsbD 30 = false) :
    ∃ m, mapLane map lane = some m ∧ m.toNat % 128 = lane ∧ m.getLsbD 30 = true := by
  refine ⟨_, by simp only [mapLane, ha, hb, or_self, if_false, h30, Bool.not_false, if_true]; rfl, ?_⟩
  have hbit := mt (getLsbD_iff_div map 30).2 (Bool.eq_false_iff.1 h30)
  have hlt := map.isLt
  rw [getLsbD_iff_div, BitVec.toNat_ofNat]
  constructor <;> omega

/-- The second failed lane stands in SECOND, with its bit, and the first stays. -/
theorem mapLane_second (h30 : map.getLsbD 30 = true) (h31 : map.getLsbD 31 = false) :
    ∃ m, mapLane map lane = some m ∧ m.toNat / 2 ^ 16 % 128 = lane ∧ m.getLsbD 31 = true ∧ m.toNat % 128 = map.toNat % 128 := by
  refine ⟨_, by simp only [mapLane, ha, hb, or_self, if_false, h30, h31, Bool.not_true, Bool.not_false, Bool.false_eq_true, if_true]; rfl, ?_⟩
  have hbit := mt (getLsbD_iff_div map 31).2 (Bool.eq_false_iff.1 h31)
  have hlt := map.isLt
  rw [getLsbD_iff_div, BitVec.toNat_ofNat]
  refine ⟨?_, ?_, ?_⟩ <;> omega

omit hl in
/-- For a third there is no place. -/
theorem mapLane_third (h30 : map.getLsbD 30 = true) (h31 : map.getLsbD 31 = true) : mapLane map lane = none := by
  simp only [mapLane, ha, hb, or_self, if_false, h30, h31, Bool.not_true, Bool.false_eq_true]

end

theorem core_failLane_some {s : State} {core lane : Nat} {m : Word64} (h : mapLane (s.core core).lanemap lane = some m) :
    (s.failLane core lane).core core = { s.core core with lanemap := m } := by
  simp [State.failLane, h]

theorem inService_failLane_none {s : State} {core lane : Nat} (h : mapLane (s.core core).lanemap lane = none) :
    ((s.failLane core lane).core core).inService = false := by
  simp only [State.failLane, h]
  exact inService_retireCore s core

/-- The state that a lane failure leaves before what follows every row. -/
theorem execLaneFailure_effect (s : State) {core lane : Nat} (hc : core < 256) (hl : lane < 65) :
    ∃ u : State, exec (.laneFailure core lane) s = .next (u.afterStore s) ∧
      (u.core core).lanemap = ((s.failLane core lane).core core).lanemap ∧
      (u.core core).inService = ((s.failLane core lane).core core).inService := by
  refine ⟨(s.failLane core lane).modCore core Core.bounce, ?_, ?_, ?_⟩
  · rw [exec_laneFailure, execLaneFailure, if_neg (by omega)]
  · rw [core_modCore]; rfl
  · rw [core_modCore]; rfl

/-! ### Errors (R410, R411) -/

/-- An uncorrectable error is counted at a core (R410). -/
def State.countError (s : State) (core : Nat) : State := s.modCore core fun c => { c with uncorrected := c.uncorrected + 1 }

theorem core_countError (s : State) (core : Nat) :
    (s.countError core).core core = { s.core core with uncorrected := (s.core core).uncorrected + 1 } := core_modCore s core _

theorem group?_countError (s : State) (core slot : Nat) : (s.countError core).group? core slot = s.group? core slot := by
  unfold State.group?
  rw [core_countError]

theorem execUncorrectableError_memory (s : State) {dpa : Nat} (h : dpa < 2 ^ 48) (hl : isLink dpa = false) :
    exec (.uncorrectableError (.memory dpa)) s =
      .next { s.countError (homeCore dpa) with poison := dpa / 32 :: s.poison.filter fun g => g != dpa / 32 } :=
  if_neg (by simp [hl]; omega)

theorem execUncorrectableError_register (s : State) (core slot : Nat) (spec : BitVec 10) :
    exec (.uncorrectableError (.register core slot spec)) s =
      .next ((s.countError core).strikeGroup core ((s.group? core slot).map fun g => (slot, g)) 1 spec.toNat) := by
  rw [← group?_countError]
  rfl

theorem Group.raise_free {g : Group} (h : g.hold = .none) (r : TrapRec) : g.raise r = { g with hold := .trapped, trap := r } := if_pos h

theorem core_trap (s : State) (core slot code : Nat) (addr pc : Word64) (words : List Word64) :
    (s.trap core slot code addr pc words).core core = (s.core core).modGroup slot fun g => g.raise { code, addr, pc, words } :=
  core_modCore s core _

/-- A trap raised on a group that stands at none (R50). -/
theorem group?_trap {s : State} {core slot : Nat} {g : Group} (hg : s.group? core slot = some g) (hh : g.hold = .none) (code : Nat)
    (addr pc : Word64) (words : List Word64) :
    (s.trap core slot code addr pc words).group? core slot = some { g with hold := .trapped, trap := { code, addr, pc, words } } := by
  unfold State.group?
  rw [core_trap, Core.get?_modGroup hg, Group.raise_free hh]

@[simp] theorem Core.modGroup_uncorrected (c : Core) (l : Nat) (f : Group → Group) : (c.modGroup l f).uncorrected = c.uncorrected := by
  unfold Core.modGroup; split <;> rfl

theorem uncorrectable_register {s : State} {core slot : Nat} {g : Group} (hg : s.group? core slot = some g) (hh : g.hold = .none)
    (spec : BitVec 10) :
    ∃ t h, exec (.uncorrectableError (.register core slot spec)) s = .next t ∧ t.group? core slot = some h ∧ h.hold = .trapped ∧
      h.trap.code = 0x70 ∧ h.trap.words = [1, BitVec.ofNat 64 spec.toNat] ∧ SameRegs g h ∧
      (t.core core).uncorrected = (s.core core).uncorrected + 1 := by
  have hg' := (group?_countError s core slot).trans hg
  rw [execUncorrectableError_register, hg]
  refine ⟨_, _, rfl, group?_trap hg' hh _ _ _ _, rfl, rfl, rfl, ⟨rfl, rfl, rfl, rfl, rfl⟩, ?_⟩
  show (State.core (State.trap _ _ _ _ _ _ _) core).uncorrected = _
  rw [core_trap, Core.modGroup_uncorrected, core_countError]

theorem uncorrectable_memory {s : State} {dpa : Nat} (h : dpa < 2 ^ 48) (hl : isLink dpa = false) :
    ∃ t, exec (.uncorrectableError (.memory dpa)) s = .next t ∧ dpa / 32 ∈ t.poison ∧
      (∀ g, g ≠ dpa / 32 → (g ∈ t.poison ↔ g ∈ s.poison)) ∧ (t.core (homeCore dpa)).uncorrected = (s.core (homeCore dpa)).uncorrected + 1 ∧
      ∀ a, t.stored a = s.stored a := by
  refine ⟨_, execUncorrectableError_memory s h hl, List.mem_cons_self, fun g hg => by simp [hg], ?_, fun _ => rfl⟩
  exact congrArg Core.uncorrected (core_countError s (homeCore dpa))

/-! ### In-field test (R412) -/

theorem unitEmpty_iff (s : State) (u : Nat) : s.unitEmpty u = true ↔ ∀ c ∈ unitCores u, (s.core c).teams = [] := by
  simp [State.unitEmpty, List.all_eq_true, List.isEmpty_iff]

theorem execScanTestTurn_due {s : State} (hi : s.test.interval ≠ 0) (hd : s.test.draining = none)
    (ht : s.test.since + nsTicks (1000000 * s.test.interval) ≤ s.ticks) : exec .scanTestTurn s = .next { s with test := s.test.turn s.ticks } :=
  congrArg _ (if_pos ⟨hi, hd, ht⟩)

theorem execScanDrainTimeout_due {s : State} {u : Nat} (hd : s.test.draining = some u) (hs : s.test.scanning = false)
    (he : s.unitEmpty u = false) (ht : s.test.since + nsTicks (1000000 * s.test.drain) ≤ s.ticks) :
    exec .scanDrainTimeout s = .next { s with test := s.test.turn s.ticks } := by
  rw [exec_scanDrainTimeout]
  simp only [execScanDrainTimeout, hd, hs, he, ht, Bool.not_false, decide_true, Bool.and_self, if_true]

theorem execScanUnitEmpty_empty {s : State} {u : Nat} (hd : s.test.draining = some u) (hs : s.test.scanning = false)
    (he : s.unitEmpty u = true) : exec .scanUnitEmpty s = .next { s with test := { s.test with scanning := true, since := s.ticks } } := by
  rw [exec_scanUnitEmpty]
  simp only [execScanUnitEmpty, hd, hs, he, Bool.not_false, Bool.and_self, if_true]

/-- A scan that finds nothing only ends. -/
theorem execScanComplete_clean {s : State} {u : Nat} (hd : s.test.draining = some u) (hs : s.test.scanning = true) :
    exec (.scanComplete [] []) s = .next { s with test := { s.test with draining := none, scanning := false, since := s.ticks } } := by
  rw [exec_scanComplete]
  simp only [execScanComplete, hd, hs, Bool.not_true, Bool.false_eq_true, if_false, List.filter_nil, List.foldl_nil]

/-! ### Power and temperature (R422–R425) -/

theorem coreIdle {s : State} {core : Nat} (hp : (s.core core).power = .on) (hg : (s.core core).groups = [])
    (ht : (s.core core).powerSince + nsTicks 1000 ≤ s.ticks) :
    ∃ t, exec (.coreIdleTimeout core) s = .next t ∧ t.core core = { s.core core with power := .idle, powerSince := s.ticks } ∧ OnlyCore s t core := by
  refine ⟨_, rfl, ?_, onlyCore_modCore s core _⟩
  rw [core_modCore, if_pos ⟨hp, by simp [hg], ht⟩]

theorem coreGated {s : State} {core : Nat} (hp : (s.core core).power = .idle) (hg : (s.core core).groups = [])
    (ht : (s.core core).powerSince + nsTicks 1000000 ≤ s.ticks) :
    ∃ t, exec (.coreGateTimeout core) s = .next t ∧
      t.core core = { s.core core with power := .gated, powerSince := s.ticks, l1 := [], icache := [], tlb := [] } ∧ OnlyCore s t core := by
  refine ⟨_, rfl, ?_, onlyCore_modCore s core _⟩
  rw [core_modCore, if_pos ⟨hp, by simp [hg], ht⟩, Core.gate, if_neg (by simp [hp])]

theorem dieWarm {s : State} {die : Nat} (hd : die < 4) : ∃ t, exec (.dieTemp105 die) s = .next t ∧ t.thermalCap = true ∧ die ∉ t.cool ∧
    t = { s with thermalCap := t.thermalCap, cool := t.cool } := by
  refine ⟨{ s with thermalCap := true, cool := s.cool.filter fun d => d != die }, ?_, rfl, by simp, rfl⟩
  exact congrArg Host.Outcome.next (if_pos hd)

theorem dieCooled {s : State} {die : Nat} (hd : die < 4) : ∃ t, exec (.dieCool95 die) s = .next t ∧ die ∈ t.cool ∧
    (t.thermalCap = true ↔ s.thermalCap = true ∧ ¬∀ d < 4, d ∈ t.cool) ∧ t = { s with thermalCap := t.thermalCap, cool := t.cool } := by
  refine ⟨_, if_neg (by omega), ?_, ?_, rfl⟩
  · dsimp only
    split
    · next h => simpa using h
    · exact List.mem_cons_self
  · simp only [Bool.and_eq_true, Bool.not_eq_true', ← Bool.not_eq_true, List.all_eq_true, List.mem_range, List.contains_iff_mem]

theorem Core.powerDown_power (c : Core) (now : Nat) : (c.powerDown now).power = .gated := by
  unfold Core.powerDown Core.gate
  split
  · next h => exact h
  · rfl

/-- A change of every core of a list: what the change makes true of a core is true of each of them. -/
theorem core_foldl_modCore {P : Core → Prop} {F : State → Core → Core} (hF : ∀ s k, P (F s k)) (l : List Nat) (s : State) (c : Nat)
    (h : c ∈ l ∨ P (s.core c)) : P ((l.foldl (fun s c => s.modCore c (F s)) s).core c) := by
  induction l generalizing s with
  | nil => simpa using h
  | cons d l ih =>
    refine ih _ ?_
    rcases Decidable.em (c = d) with rfl | hc
    · exact .inr (by rw [core_modCore]; exact hF _ _)
    · rw [core_modCore_ne _ _ hc]
      exact h.imp (fun h => (List.mem_cons.1 h).resolve_left hc) id

theorem ctxs_foldl_modCore (F : State → Core → Core) (l : List Nat) (s : State) : (l.foldl (fun s c => s.modCore c (F s)) s).ctxs = s.ctxs := by
  induction l generalizing s with
  | nil => rfl
  | cons d l ih => exact ih _

/-- Cores are powered down one after the other. -/
def State.powerDownAll (l : List Nat) (s : State) : State := l.foldl (fun (s : State) c => s.modCore c fun k => k.powerDown s.ticks) s

theorem powerDownAll_core {l : List Nat} {c : Nat} (hc : c ∈ l) (s : State) :
    ((s.powerDownAll l).core c).power = .gated ∧ ((s.powerDownAll l).core c).ops = [] :=
  core_foldl_modCore (P := fun k => k.power = .gated ∧ k.ops = []) (F := fun s k => k.powerDown s.ticks)
    (fun _ k => ⟨k.powerDown_power _, rfl⟩) l s c (.inl hc)

theorem powerDownAll_ctx (l : List Nat) (s : State) (c : Nat) : (s.powerDownAll l).ctx c = s.ctx c := by
  unfold State.ctx State.powerDownAll
  rw [ctxs_foldl_modCore]

theorem mem_keysOf {α : Type} {m : SMap α} {k : Nat} (h : (get? m k).isSome = true) : k ∈ keysOf m := by
  obtain ⟨x, hx⟩ := Option.isSome_iff_exists.1 h
  exact List.mem_map.2 ⟨(k, x), mem_of_get? hx, rfl⟩

/-- Every context of the table faulted, one after the other. -/
def State.faultAll (s : State) : State := (keysOf s.ctxs).foldl (fun (s : State) c => s.faultCtx c 0x21 none [] 0xFF 0xFF) s

theorem faultAll_ctx {s : State} {c : Nat} (h : (get? s.ctxs c).isSome = true) (hs : (s.ctx c).state = .running ∨ (s.ctx c).state = .suspended) :
    (s.faultAll.ctx c).state = .faulted :=
  (ctxState_faultCtxs (keysOf s.ctxs) s c).trans (if_pos ⟨mem_keysOf h, by simpa [CtxState.stoppable] using hs⟩)

/-- The CORES bits of `DEVSTAT` are clear and THERM is set, and no die counts as cool. -/
def State.markThermal (s : State) : State := { s with devstat := (s.devstat &&& ~~~ 0xF0000#64) ||| 0x2000000#64, cool := [] }

theorem markThermal_devstat (s : State) :
    s.markThermal.devstat.getLsbD 25 = true ∧ ∀ d < 4, s.markThermal.devstat.getLsbD (16 + d) = false := by
  refine ⟨by simp [State.markThermal], fun d hd => ?_⟩
  have hcases : d = 0 ∨ d = 1 ∨ d = 2 ∨ d = 3 := by omega
  rcases hcases with rfl | rfl | rfl | rfl <;> simp [State.markThermal]

theorem markThermal_core (s : State) (c : Nat) : s.markThermal.core c = s.core c := by
  unfold State.core State.markThermal
  rfl

theorem markThermal_ctx (s : State) (c : Nat) : s.markThermal.ctx c = s.ctx c := by
  unfold State.ctx State.markThermal
  rfl

theorem execThermalStop_eq (s : State) :
    exec .thermalStop s = .next (State.afterStore (s.faultAll.powerDownAll (List.range 256)).markThermal s) := by
  rw [exec_thermalStop]
  unfold execThermalStop State.powerDownAll State.faultAll State.markThermal
  dsimp only

theorem thermalStopped (s : State) : ∃ u : State, exec .thermalStop s = .next (u.afterStore s) ∧ u.devstat.getLsbD 25 = true ∧
    (∀ d < 4, u.devstat.getLsbD (16 + d) = false) ∧ u.cool = [] ∧ (∀ c < 256, (u.core c).power = .gated ∧ (u.core c).ops = []) ∧
    ∀ c, (get? s.ctxs c).isSome = true → (s.ctx c).state = .running ∨ (s.ctx c).state = .suspended → (u.ctx c).state = .faulted := by
  obtain ⟨htherm, hcores⟩ := markThermal_devstat (s.faultAll.powerDownAll (List.range 256))
  refine ⟨_, execThermalStop_eq s, htherm, hcores, ?_, fun c hc => ?_, fun c h hs => ?_⟩
  · unfold State.markThermal
    rfl
  · rw [markThermal_core]
    exact powerDownAll_core (List.mem_range.2 hc) s.faultAll
  · rw [markThermal_ctx, powerDownAll_ctx]
    exact faultAll_ctx h hs

/-! ### Cold reset, readiness and keepers (R24, R395, R420, R421) -/

theorem execColdReset_eq (failed : List Nat) (s : State) : exec (.coldReset failed) s = .next { State.reset with
    agenda := s.agenda, n := s.n, fresh := s.fresh, badImages := failed, devstat := if failed = [] then 0 else 0x1000000 } := by
  cases failed <;> rfl

theorem functionReady_badImage {s : State} {bit : Nat} (h4 : 4 ≤ bit) (h8 : bit < 8) (hb : bit - 4 ∈ s.badImages) :
    exec (.functionReady bit) s = .next s := by
  refine if_pos ?_
  simp [hb]
  omega

theorem functionReady_firmware {s : State} {bit : Nat} (h4 : 4 ≤ bit) (h8 : bit < 8) (hb : bit - 4 ∉ s.badImages)
    (h0 : s.devstat.getLsbD 0 = false) : exec (.functionReady bit) s = .next { s with devstat := s.devstat ||| BitVec.twoPow 64 bit } := by
  refine (if_neg ?_).trans (if_neg ?_)
  · simp [hb, h4, h8]
  · have h : (s.devstat ||| BitVec.twoPow 64 bit).getLsbD 0 = false := by
      rw [BitVec.getLsbD_or, h0, BitVec.getLsbD_twoPow]
      simp; omega
    simp only [h, Bool.false_and, Bool.false_eq_true, not_false_eq_true]

/-- The table entry of the host context's region 0 (R395). -/
def hostEntry : List Byte := leBytes 8 (2 ^ 63) ++ zeros 8 ++ leBytes 8 262144 ++ zeros 8

/-- The host context's region 0 as `State.makeHost` makes it (R395). -/
def State.hostRegion (s : State) : Region :=
  { ctx := 0, idx := 0, place := 0, tag := false, ed := false, dat := false, dsize := 0, full := false, base := 0, datum := 0,
    frames := 262144, sticky := false, held := false, drops := 0, pool := 0, poolFar := 0, nearPages := 262144, wasAuto := false,
    view := none, born := s.liveAt 0 }

/-- What making the host context does before the table entry is written and after: the context, its region, and what storing changes. -/
theorem storedOnly_makeHost (s : State) :
    StoredOnly { s with ctxs := put s.ctxs 0 { Ctx.blank with state := .ready }, regions := s.regions ++ [s.hostRegion] } s.makeHost := by
  unfold State.makeHost
  refine StoredOnly.trans ?_ (storedOnly_rawWrite _ _ _)
  exact storedOnly_modDie _ _ _

theorem StoredOnly.region {s t : State} (h : StoredOnly s t) {r : Region} (hr : r ∈ s.regions) : ∃ q ∈ t.regions, q.granted = r.granted := by
  have := List.mem_map_of_mem (f := Region.granted) hr
  rw [← h.regions] at this
  exact List.mem_map.1 this

theorem makeHost_effect (s : State) : s.makeHost.devstat = s.devstat ∧ (s.makeHost.ctx 0).state = .ready ∧
    ∃ r ∈ s.makeHost.regions, r.ctx = 0 ∧ r.idx = 0 ∧ r.base = 0 ∧ r.frames = 262144 ∧ r.place = 0 ∧ r.dat = false := by
  have h := storedOnly_makeHost s
  refine ⟨h.devstat, ?_, ?_⟩
  · rw [h.ctxState]
    simp [State.ctx]
  · obtain ⟨q, hq, e⟩ := h.region (List.mem_append_right _ (List.mem_singleton.2 rfl))
    exact ⟨q, hq, congrArg Region.ctx e, congrArg Region.idx e, congrArg Region.base e, congrArg Region.frames e, congrArg Region.place e,
      congrArg Region.dat e⟩

/-- With device time and the near tier of die 0, the host context is made (R395). -/
theorem functionReady_host {s : State} (h0 : s.devstat.getLsbD 0 = true) (hc : (s.ctx 0).state = .free) :
    exec (.functionReady 8) s = .next (State.afterStore (State.makeHost { s with devstat := s.devstat ||| BitVec.twoPow 64 8 }) s) := by
  rw [exec_functionReady, execFunctionReady]
  dsimp only
  rw [if_neg (by simp), if_pos]
  have hctx : ({ s with devstat := s.devstat ||| BitVec.twoPow 64 8 } : State).ctx 0 = s.ctx 0 := rfl
  simp only [hctx, hc, BitVec.getLsbD_or, h0, BitVec.getLsbD_twoPow, Bool.true_or, Bool.true_and]
  simp

theorem execKeeperFailure_new {s : State} {die idx : Nat} (hd : die < 4) (hi : idx < 4) (hk : 4 * die + idx ∉ s.deadKeepers) :
    exec (.keeperFailure die idx) s = .next { s with deadKeepers := s.deadKeepers ++ [4 * die + idx] } :=
  if_neg (by simp [hk]; omega)

theorem keeperAlive_iff (s : State) (die i : Nat) :
    s.keeperAlive die i = true ↔ s.devstat.getLsbD (4 + die) = true ∧ 4 * die + i ∉ s.deadKeepers := by
  simp [State.keeperAlive]

theorem keeperOf_own {s : State} {core : Nat} (h : s.keeperAlive (dieOf core) (core / 8 % 8 / 2) = true) :
    s.keeperOf core = some (core / 8 % 8 / 2) := by
  simp [State.keeperOf, h]

/-- A core has a keeper where one of its die works, and that one works (R24). -/
theorem keeperOf_working {s : State} {core : Nat} (h : ∃ i < 4, s.keeperAlive (dieOf core) i = true) :
    ∃ i < 4, s.keeperAlive (dieOf core) i = true ∧ s.keeperOf core = some i := by
  cases hk : s.keeperOf core with
  | some i =>
    have hi := List.mem_of_find?_eq_some hk
    refine ⟨i, ?_, List.find?_some hk, rfl⟩
    rcases List.mem_cons.1 hi with rfl | hi
    · omega
    · exact List.mem_range.1 hi
  | none =>
    obtain ⟨i, hi, ha⟩ := h
    exact absurd ha (List.find?_eq_none.1 hk i (List.mem_cons_of_mem _ (List.mem_range.2 hi)))

theorem keeperOf_none {s : State} {core : Nat} (h : ¬∃ i < 4, s.keeperAlive (dieOf core) i = true) : s.keeperOf core = none := by
  refine List.find?_eq_none.2 fun i hi ha => h ⟨i, ?_, ha⟩
  rcases List.mem_cons.1 hi with rfl | hi
  · omega
  · exact List.mem_range.1 hi

/-- Settles O52: the clause on each event by the lemma on that event. -/
theorem powerAndReliability : Obligations.PowerAndReliability := by
  unfold Obligations.PowerAndReliability
  refine ⟨fun s core => ⟨⟨_, rfl, core_modCore .., onlyCore_modCore ..⟩, ⟨_, rfl, core_modCore .., onlyCore_modCore ..⟩⟩, ?_,
    fun s dpa h hl => uncorrectable_memory h hl, fun s core slot g spec hg hh => uncorrectable_register hg hh spec, ?_,
    fun s core => ⟨coreIdle, coreGated⟩, fun s => rfl, fun s die hd => ⟨dieWarm hd, dieCooled hd⟩, thermalStopped,
    fun s failed => execColdReset_eq failed s, fun s bit => functionReady_badImage, fun s bit => functionReady_firmware, ?_,
    fun s die idx => execKeeperFailure_new, ?_⟩
  · intro s core lane hc hl map
    obtain ⟨u, hu, hmap, hserv⟩ := execLaneFailure_effect s hc hl
    refine ⟨u, hu, ?_⟩
    rw [hmap, hserv]
    refine ⟨fun ha hb h30 => ?_, fun ha hb h30 h31 => ?_, fun ha hb h30 h31 => ?_⟩
    · obtain ⟨m, hm, hlane, hbit⟩ := mapLane_first hl ha hb h30
      rw [core_failLane_some hm]
      exact ⟨hlane, hbit, rfl⟩
    · obtain ⟨m, hm, hlane, hbit, hfirst⟩ := mapLane_second hl ha hb h30 h31
      rw [core_failLane_some hm]
      exact ⟨hlane, hbit, hfirst, rfl⟩
    · exact inService_failLane_none (mapLane_third ha hb h30 h31)
  · intro s x
    refine ⟨execScanTestTurn_due, fun u hd hs => ⟨fun hne ht => ?_, fun he => execScanUnitEmpty_empty hd hs ((unitEmpty_iff s u).2 he)⟩,
      fun u => execScanComplete_clean⟩
    refine execScanDrainTimeout_due hd hs (Bool.eq_false_iff.2 fun he => ?_) ht
    obtain ⟨c, hc, hteams⟩ := hne
    exact hteams ((unitEmpty_iff s u).1 he c hc)
  · intro s h0 _ hc
    obtain ⟨hdev, hstate, r, hr, hregion⟩ := makeHost_effect { s with devstat := s.devstat ||| BitVec.twoPow 64 8 }
    exact ⟨_, r, functionReady_host h0 hc, by rw [hdev]; simp, hstate, hr, hregion⟩
  · intro s core _ works
    have alive : ∀ i, works i ↔ s.keeperAlive (dieOf core) i = true := fun i => (keeperAlive_iff s (dieOf core) i).symm
    simp only [alive]
    exact ⟨keeperOf_own, keeperOf_working, keeperOf_none⟩

end Sys2Proof.Machine

namespace Sys2Proof

open Machine

theorem SameRegs.refl (g : Group) : SameRegs g g := ⟨rfl, rfl, rfl, rfl, rfl⟩

theorem SameRegs.trans {a b c : Group} (h : SameRegs a b) (k : SameRegs b c) : SameRegs a c :=
  ⟨k.main.trans h.main, k.q.trans h.q, k.l.trans h.l, k.uniform.trans h.uniform, k.masks.trans h.masks⟩

end Sys2Proof

namespace Sys2Proof.Machine

/-! ### One group of a state -/

theorem group?_modCore (s : State) (core slot : Nat) (f : Core → Core) :
    (s.modCore core f).group? core slot = get? (f (s.core core)).groups slot := by
  unfold State.group?
  rw [core_modCore]

theorem group?_modGroup {s : State} {core slot : Nat} {g : Group} (hg : s.group? core slot = some g) (f : Group → Group) :
    (s.modGroup core slot f).group? core slot = some (f g) :=
  (group?_modCore s core slot _).trans (Core.get?_modGroup hg f)

@[simp] theorem Core.modTeam_groups (c : Core) (k : Nat) (f : Team → Team) : (c.modTeam k f).groups = c.groups := by
  unfold Core.modTeam; split <;> rfl

theorem group?_modTeam (s : State) (core k : Nat) (f : Team → Team) (slot : Nat) :
    (s.modTeam core k f).group? core slot = s.group? core slot := by
  unfold State.modTeam
  rw [group?_modCore, Core.modTeam_groups]
  rfl

/-! ### Saving (R124, R160, R161, R344) -/

/-- Saving changes of a group only the place of its record and the stores that its team's windows send. -/
def SavedOnly (g h : Group) : Prop := h = { g with stores := h.stores, savedAt := h.savedAt }

theorem SavedOnly.trans {a b c : Group} (h : SavedOnly a b) (k : SavedOnly b c) : SavedOnly a c := by
  unfold SavedOnly at *
  rw [k, h]

theorem SavedOnly.thread {g h : Group} (k : SavedOnly g h) (i : Nat) : h.thread i = g.thread i := by rw [k]; rfl

theorem SavedOnly.regs {g h : Group} (k : SavedOnly g h) : SameRegs g h := by rw [k]; exact ⟨rfl, rfl, rfl, rfl, rfl⟩

/-- From `s` to `t` a group of a core is at most saved. -/
def Saves (core slot : Nat) (s t : State) : Prop :=
  ∀ g, s.group? core slot = some g → ∃ h, t.group? core slot = some h ∧ SavedOnly g h

variable {core slot : Nat}

theorem Saves.refl (s : State) : Saves core slot s s := fun g hg => ⟨g, hg, rfl⟩

theorem Saves.trans {s t u : State} (h : Saves core slot s t) (k : Saves core slot t u) : Saves core slot s u := by
  intro g hg
  obtain ⟨g', hg', hs⟩ := h g hg
  obtain ⟨g'', hg'', hs'⟩ := k g' hg'
  exact ⟨g'', hg'', hs.trans hs'⟩

theorem Saves.foldl {β : Type} {f : State → β → State} (hf : ∀ s x, Saves core slot s (f s x)) (l : List β) (s : State) :
    Saves core slot s (l.foldl f s) := by
  induction l generalizing s with
  | nil => exact .refl s
  | cons x l ih => exact (hf s x).trans (ih _)

theorem Saves.of_group? {s t : State} (h : t.group? core slot = s.group? core slot) : Saves core slot s t := fun g hg => ⟨g, h.trans hg, rfl⟩

theorem saves_modTeam (s : State) (k : Nat) (f : Team → Team) : Saves core slot s (s.modTeam core k f) := .of_group? (group?_modTeam s core k f slot)

theorem saves_modGroup (s : State) {f : Group → Group} (hf : ∀ g, SavedOnly g (f g)) : Saves core slot s (s.modGroup core slot f) :=
  fun g hg => ⟨f g, group?_modGroup hg f, hf g⟩

theorem StoredOnly.saves {s t : State} (h : StoredOnly s t) : Saves core slot s t := .of_group? (h.group? core slot)

theorem saves_saveRecord (s : State) : Saves core slot s (s.saveRecord core slot) := by
  unfold State.saveRecord
  split
  · exact .refl s
  · dsimp only
    split
    · exact (storedOnly_rawWrite _ _ _).saves.trans (saves_modGroup _ fun _ => rfl)
    · exact .refl s

theorem saves_saveTeam (s : State) (team : Nat) : Saves core slot s (s.saveTeam core team) := by
  unfold State.saveTeam
  split
  · exact .refl s
  · dsimp only
    split
    · exact (storedOnly_rawWrite _ _ _).saves.trans (saves_modTeam _ _ _)
    · exact .refl s

theorem saves_commit (s : State) (team : Nat) : Saves core slot s (s.commit core slot team) := by
  unfold State.commit
  split
  · exact .refl s
  · exact (saves_modTeam _ _ _).trans (saves_modGroup _ fun _ => rfl)

theorem saves_putStores (s : State) (team : Nat) (l : List StoreReq) : Saves core slot s (s.putStores core slot team l) := by
  unfold State.putStores
  split
  · exact .refl s
  · split
    · dsimp only
      split
      · exact (saves_modTeam _ _ _).trans (saves_commit _ _)
      · exact saves_modTeam _ _ _
    · exact saves_modGroup _ fun _ => rfl

/-- The stores of a write-back are numbered: only the next identity changes. -/
theorem storedOnly_numbered {α : Type} (mk : Nat → α → StoreReq) (l : List α) (acc : State × List StoreReq) :
    StoredOnly acc.1 (l.foldl (fun (acc : State × List StoreReq) x => (acc.1.take.2, acc.2 ++ [mk acc.1.take.1 x])) acc).1 := by
  induction l generalizing acc with
  | nil => exact .refl _
  | cons x l ih => exact (storedOnly_take acc.1).trans (ih (acc.1.take.2, acc.2 ++ [mk acc.1.take.1 x]))

theorem saves_writeBack (s : State) (team k op : Nat) (sel : Window → List (Nat × BitVec 4)) :
    Saves core slot s (s.writeBack core slot team k op sel) := by
  unfold State.writeBack
  split
  · exact .refl s
  · next t _ =>
    split
    · exact .refl s
    · next w _ =>
      exact ((storedOnly_numbered (fun id x => wordStore t w id op x) (sel w) (s, [])).saves.trans (saves_modTeam _ _ _)).trans
        (saves_putStores _ _ _)

theorem saves_flushWindows (s : State) (team : Nat) : Saves core slot s (s.flushWindows core slot team) := by
  unfold State.flushWindows
  split
  · exact .refl s
  · exact ((storedOnly_take s).saves.trans (.foldl (fun s k => saves_writeBack s team k _ _) _ _)).trans (saves_modTeam _ _ _)

theorem saves_saveWhole (s : State) (team : Nat) : Saves core slot s (s.saveWhole core slot team) :=
  (saves_saveTeam s team).trans (saves_flushWindows _ team)

theorem saves_releaseTeam (s : State) (team : Nat) : Saves core slot s (s.releaseTeam core slot team) := by
  unfold State.releaseTeam
  split
  · exact (saves_saveWhole s team).trans (saves_modTeam _ _ _)
  · exact .refl s

/-! ### The keeper's end of a trap (R51, R160–R163, R431) -/

theorem has_liveMask (g : Group) {i : Nat} (hi : i < 64) : has g.liveMask i = (g.thread i).live := by
  simp [Group.liveMask, has_maskOf, hi]

theorem has_allLanes {i : Nat} (hi : i < 64) : has allLanes i = true := by
  simp only [has, allLanes, BitVec.getLsbD_allOnes, hi, decide_true]

theorem takeTrap_same (g : Group) : g.takeTrap = { g with threads := g.takeTrap.threads, gst := g.takeTrap.gst } := by
  unfold Group.takeTrap
  dsimp only
  split <;> rfl

theorem takeTrap_gst (g : Group) : g.takeTrap.gst = if g.gst = .exited then .exited else .preempted := by
  unfold Group.takeTrap
  dsimp only [Group.onThreads]
  split
  · next h => exact h
  · rfl

/-- Every live thread is Held, the rest of its state kept (R51). -/
theorem takeTrap_thread (g : Group) {i : Nat} (hi : i < 64) :
    g.takeTrap.thread i = { g.thread i with held := (g.thread i).live || (g.thread i).held } := by
  have h : g.takeTrap.thread i = (g.onThreads g.liveMask fun _ t => { t with held := true }).thread i := by
    unfold Group.takeTrap
    dsimp only
    split <;> rfl
  rw [h, thread_onThreads _ _ _ hi, has_liveMask g hi]
  by_cases hl : (g.thread i).live = true
  · rw [if_pos hl, hl]; rfl
  · rw [if_neg hl, Bool.eq_false_iff.2 hl]; rfl

/-- A thread in a collective is Ready at it (R160). -/
def Thread.uncollected (t : Thread) : Thread := match t.st with
  | .collWait _ => { t with st := .ready }
  | _ => t

theorem cancelColl_same (g : Group) : g.cancelColl = { g with threads := g.cancelColl.threads, arrivals := [], recent := [] } := rfl

theorem cancelColl_thread (g : Group) {i : Nat} (hi : i < 64) : g.cancelColl.thread i = (g.thread i).uncollected := by
  have h : g.cancelColl.thread i = (g.onThreads allLanes fun _ t => t.uncollected).thread i := rfl
  rw [h, thread_onThreads _ _ _ hi, if_pos (has_allLanes hi)]

/-- A saved group: its collectives cancelled, and what saving changes. -/
def SavedWaiting (g h : Group) : Prop := SavedOnly g.cancelColl h

theorem SavedWaiting.thread {g h : Group} (k : SavedWaiting g h) {i : Nat} (hi : i < 64) : h.thread i = (g.thread i).uncollected :=
  (SavedOnly.thread k i).trans (cancelColl_thread g hi)

theorem SavedWaiting.regs {g h : Group} (k : SavedWaiting g h) : SameRegs g h :=
  SameRegs.trans (b := g.cancelColl) ⟨rfl, rfl, rfl, rfl, rfl⟩ (SavedOnly.regs k)

theorem Thread.uncollected_live (t : Thread) : t.uncollected.live = t.live := by
  unfold Thread.uncollected Thread.live
  split
  · next h => rw [h]; rfl
  · rfl

/-- A group out of its slot for a save, whatever takes it out. -/
def Group.swapped (g : Group) (hold : Hold) : Group := { g with gst := if g.halt = .none then .swappedOut else g.gst, lent := true, hold := hold }

theorem group?_swapOut {s : State} {g : Group} (hg : s.group? core slot = some g) (hold : Hold) :
    ∃ h, (s.swapOut core slot hold).group? core slot = some (h.swapped hold) ∧ SavedWaiting g h := by
  obtain ⟨h, hh, hs⟩ := saves_saveRecord (core := core) (slot := slot) _ _ (group?_modGroup hg Group.cancelColl)
  exact ⟨h, group?_modGroup hh _, hs⟩

end Sys2Proof.Machine

namespace Sys2Proof.Machine

variable {s : State} {core slot : Nat} {g : Group}

/-- `h` stands as `g` when its keeper has taken it: every live thread Held with its state kept (R51). -/
def HeldAs (g h : Group) : Prop :=
  (∀ i < 64, h.thread i = { g.thread i with held := (g.thread i).live || (g.thread i).held }) ∧ SameRegs g h

/-- A group with its collectives cancelled, as a save leaves it (R160). -/
def Group.waiting (g : Group) : Group := { g with arrivals := [] }.onThreads allLanes fun _ t => t.uncollected

theorem waiting_thread (g : Group) {i : Nat} (hi : i < 64) : g.waiting.thread i = (g.thread i).uncollected := by
  unfold Group.waiting
  rw [thread_onThreads _ _ _ hi, if_pos (has_allLanes hi)]
  rfl

theorem heldAs_takeTrap (g : Group) : HeldAs g g.takeTrap :=
  ⟨fun _ hi => takeTrap_thread g hi, by rw [takeTrap_same]; exact ⟨rfl, rfl, rfl, rfl, rfl⟩⟩

/-- A group that its keeper takes and then saves. -/
theorem heldAs_saved {h : Group} (k : SavedWaiting g.takeTrap h) : HeldAs g.waiting h := by
  refine ⟨fun i hi => ?_, SameRegs.trans (b := g.takeTrap) (by rw [takeTrap_same]; exact ⟨rfl, rfl, rfl, rfl, rfl⟩) k.regs⟩
  rw [k.thread hi, takeTrap_thread g hi, waiting_thread g hi, Thread.uncollected_live]
  generalize g.thread i = t
  unfold Thread.uncollected
  cases t.st <;> rfl

/-- Where a group that is not Exited is swapped out (R148, R161). -/
theorem swapped_gst {h : Group} (k : SavedWaiting g.takeTrap h) (hold : Hold) (he : g.gst ≠ .exited) :
    (h.swapped hold).gst = if g.halt = .none then .swappedOut else .preempted := by
  have hh : h = { g.takeTrap.cancelColl with stores := h.stores, savedAt := h.savedAt } := k
  have hhalt : h.halt = g.halt := by rw [hh, cancelColl_same, takeTrap_same]
  have hgst : h.gst = .preempted := by rw [hh, cancelColl_same]; exact (takeTrap_gst g).trans (if_neg he)
  unfold Group.swapped
  dsimp only
  rw [hhalt, hgst]

theorem swapped_trap {h : Group} (k : SavedWaiting g.takeTrap h) (hold : Hold) : (h.swapped hold).trap = g.trap := by
  have hh : h = { g.takeTrap.cancelColl with stores := h.stores, savedAt := h.savedAt } := k
  unfold Group.swapped
  rw [hh, cancelColl_same, takeTrap_same]

theorem HeldAs.swapped {a h : Group} (k : HeldAs a h) (hold : Hold) : HeldAs a (h.swapped hold) :=
  ⟨k.1, k.2.trans ⟨rfl, rfl, rfl, rfl, rfl⟩⟩

theorem HeldAs.withHold {a h : Group} (k : HeldAs a h) (hold : Hold) : HeldAs a { h with hold := hold } :=
  ⟨k.1, k.2.trans ⟨rfl, rfl, rfl, rfl, rfl⟩⟩

theorem HeldAs.saved {a b c : Group} (k : HeldAs a b) (h : SavedOnly b c) : HeldAs a c :=
  ⟨fun i hi => (h.thread i).trans (k.1 i hi), k.2.trans h.regs⟩

/-! ### Which end a trap has (R431) -/

theorem trapStop_trapped (hg : s.group? core slot = some g) (hk : (s.keeperOf core).isSome = true) (hh : g.hold = .trapped) :
    s.trapStop core slot = s.endTrap core slot g := by
  obtain ⟨k, hk⟩ := Option.isSome_iff_exists.1 hk
  simp only [State.trapStop, hg, hk, hh]

theorem trapStop_suspended (hg : s.group? core slot = some g) (hk : (s.keeperOf core).isSome = true) (hh : g.hold ≠ .trapped)
    (hs : g.halt = .suspended false) : s.trapStop core slot = s.endSuspend core slot g := by
  obtain ⟨k, hk⟩ := Option.isSome_iff_exists.1 hk
  simp only [State.trapStop, hg, hk, hs]

theorem trapStop_noKeeper (hk : s.keeperOf core = none) : s.trapStop core slot = s := by
  unfold State.trapStop
  rw [hk]
  split
  · next h => cases h
  · rfl

/-- A trap that is neither an error, nor a translation fault, nor a breakpoint or watchpoint is forwarded. -/
theorem endTrap_forwarded (hc : g.trap.code ∉ [0x10, 0x51, 0x53, 0x70]) : s.endTrap core slot g =
    ((s.modGroup core slot Group.takeTrap).modGroup core slot fun h => { h with hold := .forwarded g.trap.code false }).forward core slot g := by
  simp only [List.mem_cons, List.not_mem_nil, or_false, not_or] at hc
  obtain ⟨h10, h51, h53, h70⟩ := hc
  unfold State.endTrap
  dsimp only
  split
  case h_1 h => exact absurd h h70
  case h_2 h => exact absurd h h10
  case h_3 h => exact absurd h h51
  case h_4 h => exact absurd h h53
  case h_5 => rfl

theorem endTrap_fault (hc : g.trap.code = 0x10) (he : g.gst ≠ .exited) (hq : (s.core core).quiet slot = true) : s.endTrap core slot g =
    ((s.modGroup core slot Group.takeTrap).swapOut core slot (.pageFault false)).queueEvent
      { cls := 2, code := (g.trap.words.headD 0).toNat % 256, ctx := g.ctx, core := core, slot := slot, arg0 := g.trap.addr, arg1 := 0 } := by
  simp [State.endTrap, hc, he, hq]

theorem endTrap_debug (hc : g.trap.code = 0x51 ∨ g.trap.code = 0x53) (he : g.gst ≠ .exited) (hq : (s.core core).quiet slot = true)
    (hb : s.teamBusy core g.team = false) : s.endTrap core slot g =
    (((s.modGroup core slot Group.takeTrap).swapOut core slot (.debug false)).releaseTeam core slot g.team).forward core slot g := by
  rcases hc with hc | hc <;> simp [State.endTrap, hc, he, hq, hb]

theorem execGroupTrapStop_trapped (hg : s.group? core slot = some g) (hk : (s.keeperOf core).isSome = true) (hh : g.hold = .trapped) :
    exec (.groupTrapStop core slot) s = .next (State.afterStore (s.endTrap core slot g) s) := by
  rw [exec_groupTrapStop, execGroupTrapStop, trapStop_trapped hg hk hh]

theorem group?_forward (s : State) (core slot : Nat) (g : Group) (c l : Nat) : (s.forward core slot g).group? c l = s.group? c l := rfl

theorem group?_queueEvent (s : State) (e : Event) (c l : Nat) : (s.queueEvent e).group? c l = s.group? c l := rfl

theorem onlyCore_forward {s t : State} {core : Nat} (h : OnlyCore s t core) (slot : Nat) (g : Group) :
    OnlyCore { s with events := (t.forward core slot g).events } (t.forward core slot g) core where
  device := by
    show State.queueEvent t _ = _
    rw [h.device]
    rfl
  others := h.others
  memory := h.memory

theorem forward_events {s t : State} (h : OnlyCore s t core) (g : Group) : (t.forward core slot g).events.held = s.events.held ++
    [{ cls := 1, code := g.trap.code, ctx := g.ctx, core := core, slot := slot, arg0 := g.trap.pc, arg1 := g.trap.words.headD 0 }] := by
  rw [h.device]
  rfl

theorem trapForwarded (hg : s.group? core slot = some g) (hk : (s.keeperOf core).isSome = true) (hh : g.hold = .trapped)
    (hc : g.trap.code ∉ [0x10, 0x51, 0x53, 0x70]) :
    ∃ u h : _, exec (.groupTrapStop core slot) s = .next (State.afterStore u s) ∧ u.group? core slot = some h ∧ HeldAs g h ∧
      h.gst = (if g.gst = .exited then .exited else .preempted) ∧ h.hold = .forwarded g.trap.code false ∧ h.trap = g.trap ∧
      u.events.held = s.events.held ++ [{ cls := 1, code := g.trap.code, ctx := g.ctx, core := core, slot := slot, arg0 := g.trap.pc,
                                          arg1 := g.trap.words.headD 0 }] ∧ OnlyCore { s with events := u.events } u core := by
  have only : OnlyCore s ((s.modGroup core slot Group.takeTrap).modGroup core slot fun h => { h with hold := .forwarded g.trap.code false }) core :=
    (onlyCore_modCore s core _).modCore _
  refine ⟨_, { g.takeTrap with hold := .forwarded g.trap.code false }, execGroupTrapStop_trapped hg hk hh, ?_⟩
  rw [endTrap_forwarded hc, group?_forward]
  refine ⟨group?_modGroup (group?_modGroup hg _) _, (heldAs_takeTrap g).withHold _, takeTrap_gst g, rfl, ?_, forward_events only g,
    onlyCore_forward only slot g⟩
  dsimp only
  rw [takeTrap_same]

/-- A translation fault swaps its group out once it is quiet (R161, R162). -/
theorem trapFaulted (hg : s.group? core slot = some g) (hk : (s.keeperOf core).isSome = true) (hh : g.hold = .trapped)
    (hc : g.trap.code = 0x10) (he : g.gst ≠ .exited) (hq : (s.core core).quiet slot = true) :
    ∃ u h : _, exec (.groupTrapStop core slot) s = .next (State.afterStore u s) ∧ u.group? core slot = some h ∧ HeldAs g.waiting h ∧
      h.gst = (if g.halt = .none then .swappedOut else .preempted) ∧ h.hold = .pageFault false ∧ h.trap = g.trap ∧ h.lent = true ∧
      { cls := 2, code := (g.trap.words.headD 0).toNat % 256, ctx := g.ctx, core := core, slot := slot, arg0 := g.trap.addr, arg1 := 0 } ∈
        u.events.held := by
  obtain ⟨h, hsw, hs⟩ := group?_swapOut (group?_modGroup hg Group.takeTrap) (.pageFault false)
  refine ⟨_, h.swapped (.pageFault false), execGroupTrapStop_trapped hg hk hh, ?_⟩
  rw [endTrap_fault hc he hq, group?_queueEvent]
  exact ⟨hsw, (heldAs_saved hs).swapped _, swapped_gst hs _ he, rfl, swapped_trap hs _, rfl, List.mem_append_right _ (List.mem_singleton.2 rfl)⟩

/-- A breakpoint or watchpoint swaps its group out once it is quiet and nothing is at work in its team's memory (R413). -/
theorem trapDebugged (hg : s.group? core slot = some g) (hk : (s.keeperOf core).isSome = true) (hh : g.hold = .trapped)
    (hc : g.trap.code = 0x51 ∨ g.trap.code = 0x53) (he : g.gst ≠ .exited) (hq : (s.core core).quiet slot = true)
    (hb : s.teamBusy core g.team = false) :
    ∃ u h : _, exec (.groupTrapStop core slot) s = .next (State.afterStore u s) ∧ u.group? core slot = some h ∧ HeldAs g.waiting h ∧
      h.gst = (if g.halt = .none then .swappedOut else .preempted) ∧ h.hold = .debug false ∧ h.trap = g.trap := by
  obtain ⟨h, hsw, hs⟩ := group?_swapOut (group?_modGroup hg Group.takeTrap) (.debug false)
  obtain ⟨h', hrel, hs'⟩ := saves_releaseTeam (core := core) (slot := slot) _ g.team _ hsw
  refine ⟨_, h', execGroupTrapStop_trapped hg hk hh, ?_⟩
  rw [endTrap_debug hc he hq hb, group?_forward]
  refine ⟨hrel, ((heldAs_saved hs).swapped (.debug false)).saved hs', ?_, ?_, ?_⟩
  · rw [hs']; exact swapped_gst hs (.debug false) he
  · rw [hs']; rfl
  · rw [hs']; exact swapped_trap hs (.debug false)

/-! ### A group of a suspended context (R124) -/

@[simp] theorem Core.shrinkCopies_groups (c : Core) (slot : Nat) : (c.shrinkCopies slot).groups = c.groups := by
  unfold Core.shrinkCopies
  suffices ∀ (l : List Op) (d : Core), (l.foldl (fun c o => match o.kind with
      | .copy y => if o.slot == slot && y.gather.isNone && !y.done then c.shrinkLocks o.id y else c
      | _ => c) d).groups = d.groups from this _ _
  intro l
  induction l with
  | nil => exact fun _ => rfl
  | cons o l ih =>
    intro d
    rw [List.foldl_cons, ih]
    split
    · split <;> rfl
    · rfl

/-- What a save waits for at the suspension of a context: pending writes, and with the last group of the team its engines and its memory. -/
theorem endSuspend_eq (hq : (s.core core).quiet slot = true)
    (hlast : (∀ p ∈ (s.core core).groups, p.1 ≠ slot → p.2.team = g.team → p.2.halt ≠ .suspended false) →
      (s.core core).engineBusy g.team = false ∧ s.teamBusy core g.team = false) :
    let t := ((s.modGroup core slot Group.cancelColl).saveRecord core slot).modCore core fun c =>
      (c.modGroup slot fun g => { g with halt := .suspended true }).shrinkCopies slot
    s.endSuspend core slot g = t ∨ s.endSuspend core slot g = t.saveWhole core slot g.team := by
  unfold State.endSuspend
  dsimp only
  by_cases hl : ((s.core core).groups.any fun h => h.1 != slot && h.2.team == g.team && h.2.halt == .suspended false) = true
  · simp [hq, hl]
  · have busy := hlast (by simpa using hl)
    simp [hq, hl, busy.1, busy.2]

theorem trapSuspended (hg : s.group? core slot = some g) (hk : (s.keeperOf core).isSome = true) (hh : g.hold ≠ .trapped)
    (hs : g.halt = .suspended false) (hq : (s.core core).quiet slot = true)
    (hlast : (∀ p ∈ (s.core core).groups, p.1 ≠ slot → p.2.team = g.team → p.2.halt ≠ .suspended false) →
      (s.core core).engineBusy g.team = false ∧ s.teamBusy core g.team = false) :
    ∃ u h : _, exec (.groupTrapStop core slot) s = .next (State.afterStore u s) ∧ u.group? core slot = some h ∧ h.halt = .suspended true ∧
      h.hold = g.hold ∧ SameRegs g h ∧ ∀ i < 64, SameThread g.waiting h i := by
  obtain ⟨h, hrec, hw⟩ := saves_saveRecord (core := core) (slot := slot) _ _ (group?_modGroup hg Group.cancelColl)
  have hstop : (State.modCore ((s.modGroup core slot Group.cancelColl).saveRecord core slot) core fun c =>
      (c.modGroup slot fun g => { g with halt := .suspended true }).shrinkCopies slot).group? core slot =
        some { h with halt := .suspended true } := by
    rw [group?_modCore, Core.shrinkCopies_groups, Core.get?_modGroup hrec]
  have saved : ∃ u h' : _, s.endSuspend core slot g = u ∧ u.group? core slot = some h' ∧ SavedOnly { h with halt := .suspended true } h' := by
    rcases endSuspend_eq hq hlast with e | e
    · exact ⟨_, _, e, hstop, rfl⟩
    · obtain ⟨h', hg', hs'⟩ := saves_saveWhole (core := core) (slot := slot) _ g.team _ hstop
      exact ⟨_, h', e, hg', hs'⟩
  obtain ⟨u, h', hu, hg', hs'⟩ := saved
  have hw' : h = { g.cancelColl with stores := h.stores, savedAt := h.savedAt } := hw
  refine ⟨u, h', ?_, hg', by rw [hs'], ?_, ?_, fun i hi => ?_⟩
  · rw [exec_groupTrapStop, execGroupTrapStop, trapStop_suspended hg hk hh hs, hu]
  · rw [hs', hw']; rfl
  · exact (SavedWaiting.regs hw).trans (SameRegs.trans (b := { h with halt := .suspended true }) ⟨rfl, rfl, rfl, rfl, rfl⟩ hs'.regs)
  · have e : h'.thread i = g.waiting.thread i := (hs'.thread i).trans ((SavedWaiting.thread hw hi).trans (waiting_thread g hi).symm)
    unfold SameThread
    rw [e]

end Sys2Proof.Machine

namespace Sys2Proof.Machine

variable {s : State} {core slot : Nat} {g : Group}

/-! ### The status word of a thread (R160) -/

theorem TState.code_lt (x : TState) : x.code < 8 := by cases x <;> simp [TState.code]

theorem TState.phase_lt (x : TState) : x.phase < 2 := by
  cases x with
  | barrierWait c k o p => cases p <;> simp [TState.phase]
  | _ => simp [TState.phase]

theorem status_code (t : Thread) (h : t.st.obj < 64) : t.status / 2 ^ 13 % 8 = t.st.code := by
  have hc := t.st.code_lt
  have hp := t.st.phase_lt
  unfold Thread.status
  omega

theorem status_obj (t : Thread) (h : t.st.obj < 64) : t.status / 2 ^ 7 % 64 = t.st.obj := by
  have hp := t.st.phase_lt
  unfold Thread.status
  omega

theorem status_phase (t : Thread) : t.status.testBit 6 = decide (t.st.phase = 1) := by
  have hp := t.st.phase_lt
  rw [Nat.testBit_eq_decide_div_mod_eq]
  unfold Thread.status
  congr 1
  rw [eq_iff_iff]
  omega

/-- A thread's own status word gives it its state, or, where it names no mask register, none (R164). -/
theorem fromStatus_status (t : Thread) (core team : Nat) (h : t.st.obj < 64) :
    t.fromStatus core team t.status = some t.st ∨
      t.fromStatus core team t.status = none ∧ t.st ≠ .ready ∧ t.st ≠ .exited := by
  have hcode := status_code t h
  have hobj := status_obj t h
  have hphase := status_phase t
  unfold Thread.fromStatus
  dsimp only
  rw [hcode, hobj, hphase]
  cases hst : t.st with
  | ready => simp [TState.code]
  | exited => simp [TState.code]
  | maskWait k r => by_cases hk : 12 ≤ k <;> simp [TState.code, TState.obj, hk]
  | collWait k => by_cases hk : 12 ≤ k <;> simp [TState.code, TState.obj, hk]
  | barrierWait c k o p => cases p <;> simp [TState.code, TState.obj, TState.phase]

/-! ### What a view gives its group (R160, R164) -/

theorem getD_range_map {α : Type} (f : Nat → α) (d : α) {n i : Nat} (hi : i < n) : ((List.range n).map f).getD i d = f i := by
  simp [List.getD_eq_getElem?_getD, hi]

theorem viewStatus_nil (g : Group) (i : Nat) : viewStatus g [] i = (g.thread i).status := rfl

/-- The states of threads that no view has changed. -/
theorem viewStates_nil (g : Group) (core : Nat) {i : Nat} (hi : i < 64) :
    (g.viewStates core []).getD i none = (g.thread i).fromStatus core g.team (g.thread i).status :=
  getD_range_map _ _ hi

/-- What adopting an empty view changes: the list of threads is written out, and arrivals without a thread in a collective go. -/
theorem adopt_nil_same (g : Group) (sts : List (Option TState)) :
    g.adopt [] sts = { g with threads := (g.adopt [] sts).threads, arrivals := (g.adopt [] sts).arrivals } := rfl

theorem adopt_nil_arrivals (ha : g.arrivals = []) (sts : List (Option TState)) : (g.adopt [] sts).arrivals = [] := by
  unfold Group.adopt
  dsimp only [List.foldl_nil, Group.onThreads]
  rw [ha]
  rfl

theorem adopt_nil_thread (g : Group) (core : Nat) {i : Nat} (hi : i < 64) (ho : (g.thread i).st.obj < 64) :
    (g.adopt [] (g.viewStates core [])).thread i = g.thread i := by
  have e : (g.adopt [] (g.viewStates core [])).thread i = (g.onThreads allLanes fun i t => { t with
    st := if ((g.viewStates core []).getD i none) = some .exited then t.st else ((g.viewStates core []).getD i none).getD t.st }).thread i := rfl
  rw [e, thread_onThreads _ _ _ hi, if_pos (has_allLanes hi), viewStates_nil g core hi]
  rcases fromStatus_status (g.thread i) core g.team ho with h | h
  · rw [h, Option.getD_some, ite_self]
  · rw [h.1, Option.getD_none, ite_self]

theorem exitMask_viewStates_nil (g : Group) (core : Nat) {i : Nat} (ho : ∀ i < 64, (g.thread i).st.obj < 64)
    (h : has (exitMask (g.viewStates core [])) i = true) : (g.thread i).live = false := by
  have hi := lt_of_has h
  rw [exitMask, has_maskOf, viewStates_nil g core hi] at h
  simp only [Bool.and_eq_true, beq_iff_eq] at h
  rcases fromStatus_status (g.thread i) core g.team (ho i hi) with hs | hs
  · rw [hs] at h
    simp [Thread.live, Option.some.inj h.2]
  · rw [hs.1] at h
    exact absurd h.2 (by simp)

theorem mask_ext {a b : Mask} (h : ∀ i < 64, has a i = has b i) : a = b := BitVec.eq_of_getLsbD_eq h

/-- An empty view makes no live thread exit. -/
theorem exitMask_live_nil (g : Group) (core : Nat) (ho : ∀ i < 64, (g.thread i).st.obj < 64) :
    exitMask (g.viewStates core []) &&& g.liveMask = 0 := by
  refine mask_ext fun i hi => ?_
  rw [has_and, has_liveMask g hi]
  cases h : has (exitMask (g.viewStates core [])) i with
  | false => simp [has]
  | true => rw [exitMask_viewStates_nil g core ho h]; simp [has]

/-! ### Resuming (R51, R149, R164) -/

section
variable (hh : g.hold = .none) (hl : g.halt = .none)
include hh hl

theorem resume_same : g.resume = { g with
    threads := g.resume.threads, gst := if g.gst = .exited then .exited else .pending, readySince := none, woken := allLanes,
    seenG := g.g, seenK := g.k, seenFlags := g.flags, acted := 0 } := by
  unfold Group.resume
  rw [if_pos ⟨hh, hl⟩]
  rfl

theorem resume_thread {i : Nat} (hi : i < 64) : g.resume.thread i =
    { g.thread i with held := false, blocked := false, since := g.issuesOf (sliceOf i), refetch := (g.thread i).entry != 0 } := by
  have e : g.resume.thread i = ((g.onThreads allLanes fun i t =>
      { t with held := false, blocked := false, since := g.issuesOf (sliceOf i) }).mustRefetch).thread i := by
    unfold Group.resume
    rw [if_pos ⟨hh, hl⟩]
    rfl
  rw [e, Group.mustRefetch, thread_onThreads _ _ _ hi, if_pos (has_allLanes hi), thread_onThreads _ _ _ hi, if_pos (has_allLanes hi)]

end

/-- The threads of a mask leave a group (R38, R279, R280). -/
def Group.exit (g : Group) (m : Mask) : Group :=
  let h := g.onThreads m fun _ t => { t with st := .exited, entry := 0, stall := none }
  { h with k := h.k.map fun (p : Nat × Mask) => (p.1, p.2 &&& ~~~ m), gst := if h.liveMask = 0 then .exited else h.gst }

theorem Core.exitThreads_group {c : Core} (h : get? c.groups slot = some g) (m : Mask) :
    get? (c.exitThreads slot m).groups slot = some (g.exit m) := by
  unfold Core.exitThreads
  exact (Core.get?_modGroup (g := g) (by exact h) _).trans rfl

theorem exit_same (g : Group) (m : Mask) : g.exit m = { g with threads := (g.exit m).threads, k := (g.exit m).k, gst := (g.exit m).gst } := rfl

theorem exit_thread (g : Group) (m : Mask) {i : Nat} (hi : i < 64) :
    (g.exit m).thread i = if has m i then { g.thread i with st := .exited, entry := 0, stall := none } else g.thread i :=
  thread_onThreads g m (fun _ t => { t with st := .exited, entry := 0, stall := none }) hi

theorem exit_zero_thread (g : Group) {i : Nat} (hi : i < 64) : (g.exit 0).thread i = g.thread i := by
  rw [exit_thread g 0 hi]
  simp [has]

theorem exit_zero_masks (g : Group) : (g.exit 0).k = g.k := by
  show g.k.map (fun (p : Nat × Mask) => (p.1, p.2 &&& BitVec.allOnes 64)) = g.k
  simp only [BitVec.and_allOnes]
  exact List.map_id' g.k

theorem exit_zero_gst (g : Group) {i : Nat} (hi : i < 64) (hl : (g.thread i).live = true) : (g.exit 0).gst = g.gst := by
  refine if_neg fun h => ?_
  have e := has_liveMask (g.onThreads 0 fun _ t => { t with st := .exited, entry := 0, stall := none }) hi
  rw [h, thread_onThreads _ _ _ hi] at e
  simp [has, hl] at e

/-! ### Operations that complete (R69, R153, R173) -/

/-- A completing operation changes of a group its clauses and flags, and of a thread what it waited behind. -/
structure Completed (g h : Group) : Prop where
  same : h = { g with threads := h.threads, entries := h.entries, flags := h.flags, yielded := h.yielded, woken := h.woken }
  thread : ∀ i < 64, h.thread i = { g.thread i with blocked := (h.thread i).blocked, stall := (h.thread i).stall, since := (h.thread i).since }

theorem Completed.refl (g : Group) : Completed g g := ⟨rfl, fun _ _ => rfl⟩

theorem Completed.trans {a b c : Group} (h : Completed a b) (k : Completed b c) : Completed a c :=
  ⟨by rw [k.same, h.same], fun i hi => by rw [k.thread i hi, h.thread i hi]⟩

theorem completed_unblocked (g : Group) : Completed g g.unblocked := ⟨rfl, fun i _ => by rw [unblocked_thread]⟩

theorem completed_settled (g : Group) (ids : List Nat) (f : Entry → Entry) : Completed g (g.modEntries ids f).settle := by
  have e : (g.modEntries ids f).settle = { g with
      entries := (g.modEntries ids f).settle.entries, flags := (g.modEntries ids f).settle.flags,
      yielded := (g.modEntries ids f).settle.yielded } := by
    rw [settle_same, modEntries_same]
  exact ⟨by rw [e], fun i _ => by rw [e]; rfl⟩

theorem completed_endStall (g : Group) (id : Nat) (m : Mask) : Completed g ((g.wake m).onThreads allLanes fun i t =>
    if t.stall = some id then { t with stall := none, since := (g.wake m).issuesOf (sliceOf i) } else t) := by
  refine ⟨rfl, fun i hi => ?_⟩
  rw [thread_onThreads _ _ _ hi, if_pos (has_allLanes hi)]
  split <;> rfl

/-- From core `c` to core `d` the group of a slot sees operations complete at most. -/
def CompletesIn (slot : Nat) (c d : Core) : Prop := ∀ g, get? c.groups slot = some g → ∃ h, get? d.groups slot = some h ∧ Completed g h

theorem CompletesIn.refl (c : Core) : CompletesIn slot c c := fun g hg => ⟨g, hg, .refl g⟩

theorem CompletesIn.trans {a b c : Core} (h : CompletesIn slot a b) (k : CompletesIn slot b c) : CompletesIn slot a c := by
  intro g hg
  obtain ⟨g', hg', hc⟩ := h g hg
  obtain ⟨g'', hg'', hc'⟩ := k g' hg'
  exact ⟨g'', hg'', hc.trans hc'⟩

theorem completesIn_of_groups {c d : Core} (h : d.groups = c.groups) : CompletesIn slot c d := fun g hg => ⟨g, h ▸ hg, .refl g⟩

theorem completesIn_modGroup (c : Core) (l : Nat) {f : Group → Group} (hf : ∀ g, Completed g (f g)) : CompletesIn slot c (c.modGroup l f) := by
  intro g hg
  by_cases h : slot = l
  · subst h
    exact ⟨f g, Core.get?_modGroup hg f, hf g⟩
  · exact ⟨g, (Core.get?_modGroup_ne c f h).trans hg, .refl g⟩

theorem completesIn_unblock (c : Core) : CompletesIn slot c c.unblock :=
  fun g hg => ⟨g.unblocked, by rw [Core.unblock_group, hg]; rfl, completed_unblocked g⟩

theorem completesIn_consumeOp (c : Core) (id : Nat) : CompletesIn slot c (c.consumeOp id) := by
  unfold Core.consumeOp
  split
  · exact .refl c
  · split
    · exact .refl c
    · refine CompletesIn.trans ?_ (completesIn_modGroup _ _ fun g => completed_settled g _ _)
      exact CompletesIn.trans (completesIn_of_groups rfl) (completesIn_unblock _)

theorem completesIn_finishOp (c : Core) (id : Nat) : CompletesIn slot c (c.finishOp id) := by
  refine (completesIn_consumeOp c id).trans ?_
  unfold Core.finishOp
  dsimp only
  split
  · exact .refl _
  · refine CompletesIn.trans ?_ (completesIn_modGroup _ _ fun g => completed_endStall g _ _)
    refine CompletesIn.trans ?_ (completesIn_modGroup _ _ fun g => completed_settled g _ _)
    exact CompletesIn.trans (completesIn_of_groups rfl) (completesIn_unblock _)

theorem completesIn_finishOps (l : List Op) (c : Core) : CompletesIn slot c (l.foldl (fun c o => c.finishOp o.id) c) := by
  induction l generalizing c with
  | nil => exact .refl c
  | cons o l ih => exact (completesIn_finishOp c o.id).trans (ih _)

/-! ### Going on (R42, R51, R149, R173) -/

/-- The state of a thread once its barrier's phase has been looked at (R173). -/
def State.afterBarrier (s : State) : TState → TState
  | .barrierWait c k o p => if (s.bar { core := c, team := k, obj := o }).phase = p then .barrierWait c k o p else .ready
  | x => x

/-- The threads whose awaited phase has passed. -/
def State.passedBars (s : State) (g : Group) : Mask := maskOf fun i => match (g.thread i).st with
  | .barrierWait c k o t => (s.bar { core := c, team := k, obj := o }).phase != t
  | _ => false

/-- A group whose threads past their barriers are Ready. -/
def State.pastBars (s : State) (g : Group) : Group :=
  (g.forget (s.passedBars g)).onThreads (s.passedBars g) fun i th => { th with st := .ready, since := g.issuesOf (sliceOf i) }

theorem pastBars_thread (s : State) (g : Group) {i : Nat} (hi : i < 64) : (s.pastBars g).thread i =
    { g.thread i with st := s.afterBarrier (g.thread i).st, since := ((s.pastBars g).thread i).since } := by
  unfold State.pastBars
  rw [thread_onThreads _ _ _ hi]
  have hm : has (s.passedBars g) i = match (g.thread i).st with
      | .barrierWait c k o t => (s.bar { core := c, team := k, obj := o }).phase != t
      | _ => false := by
    unfold State.passedBars
    rw [has_maskOf, decide_eq_true hi, Bool.true_and]
  have hf : (g.forget (s.passedBars g)).thread i = g.thread i := rfl
  rw [hm, hf]
  unfold State.afterBarrier
  cases hst : (g.thread i).st with
  | barrierWait c k o t => by_cases hp : (s.bar { core := c, team := k, obj := o }).phase = t <;> simp [hp, ← hst]
  | _ => simp [← hst]

theorem barRestore_group (hg : s.group? core slot = some g) :
    ∃ h, (s.barRestore core slot).group? core slot = some h ∧ Completed (s.pastBars g) h := by
  unfold State.barRestore
  simp only [hg]
  rw [group?_modCore]
  have hc := completesIn_finishOps (slot := slot)
  exact hc _ _ _ (Core.get?_modGroup hg _)

theorem onlyCore_barRestore {t : State} (h : OnlyCore s t core) (slot : Nat) : OnlyCore s (t.barRestore core slot) core := by
  unfold State.barRestore
  split
  · exact h
  · exact h.modCore _

theorem decided_of_no_arrivals (ha : g.arrivals = []) : g.decided = [] := by simp [Group.decided, Group.opens, Group.open, ha]

theorem not_deadlocked_of_ready {i : Nat} (hi : i < 64) (hr : (g.thread i).st = .ready) : g.deadlocked = false := by
  have hlive : i ∈ lanesOf g.liveMask := mem_lanesOf.2 (by rw [has_liveMask g hi, Thread.live, hr]; rfl)
  have hb : g.blocked = false := by
    unfold Group.blocked
    rw [Bool.and_eq_false_iff]
    refine .inr (List.all_eq_false.2 ⟨i, hlive, ?_⟩)
    rw [hr]
    simp
  simp [Group.deadlocked, hb]

/-- A group looked at for a deadlock or a mismatch may take a trap; not one with a Ready thread and without arrivals (R42, R46). -/
theorem Core.checkGroup_group {c : Core} (hg : get? c.groups slot = some g) :
    ∃ h, get? (c.checkGroup slot).groups slot = some h ∧ h = { g with hold := h.hold, trap := h.trap, due := h.due } ∧
      (g.arrivals = [] → (∃ i < 64, (g.thread i).st = .ready) → h = g) := by
  have raised : ∀ r : TrapRec, g.raise r = { g with hold := (g.raise r).hold, trap := (g.raise r).trap, due := (g.raise r).due } := by
    intro r
    unfold Group.raise
    split <;> rfl
  unfold Core.checkGroup
  simp only [hg]
  split
  · next i hi =>
    refine ⟨_, Core.get?_modGroup hg _, raised _, fun ha => ?_⟩
    rw [decided_of_no_arrivals ha] at hi
    cases hi
  · split
    · next hd =>
      refine ⟨_, Core.get?_modGroup hg _, raised _, fun _ ⟨i, hi, hr⟩ => ?_⟩
      rw [not_deadlocked_of_ready hi hr] at hd
      cases hd
    · exact ⟨g, hg, rfl, fun _ _ => rfl⟩

/-- `h` has gone on from `k`: its barriers and its operations have been looked at, and perhaps a trap stands. -/
structure WentOn (s : State) (k h : Group) : Prop where
  regs : SameRegs k h
  gst : h.gst = k.gst
  halt : h.halt = k.halt
  lent : h.lent = k.lent
  thread : ∀ i < 64, h.thread i = { k.thread i with
    st := s.afterBarrier (k.thread i).st, blocked := (h.thread i).blocked, stall := (h.thread i).stall, since := (h.thread i).since }
  hold : k.arrivals = [] → (∃ i < 64, (k.thread i).st = .ready) → h.hold = k.hold

theorem bar_modCore (s : State) (core : Nat) {f : Core → Core} (hf : ∀ k, (f k).teams = k.teams) (b : BarAt) :
    (s.modCore core f).bar b = s.bar b := by
  unfold State.bar State.team?
  rw [core_modCore_field Core.teams s core hf]

theorem goOn_group (hg : s.group? core slot = some g) (m : Mask) :
    ∃ h, (s.goOn core slot m).group? core slot = some h ∧ WentOn s (g.resume.exit m) h := by
  unfold State.goOn
  dsimp only
  have hteams : ∀ k : Core, (((k.modGroup slot Group.resume).exitThreads slot m).restartCopies slot).teams = k.teams := by
    intro k
    show (Core.exitThreads (k.modGroup slot Group.resume) slot m).teams = k.teams
    unfold Core.exitThreads
    rw [Core.modGroup_teams, ← Core.modGroup_teams k slot Group.resume]
  have hbar := bar_modCore s core hteams
  have hk : (s.modCore core fun c => ((c.modGroup slot Group.resume).exitThreads slot m).restartCopies slot).group? core slot =
      some (g.resume.exit m) := (group?_modCore _ _ _ _).trans (Core.exitThreads_group (Core.get?_modGroup hg _) m)
  generalize (s.modCore core fun c => ((c.modGroup slot Group.resume).exitThreads slot m).restartCopies slot) = t at hbar hk
  generalize g.resume.exit m = k at hk
  obtain ⟨h, hh, hc⟩ := barRestore_group hk
  obtain ⟨h', hh', hsame, hcalm⟩ := Core.checkGroup_group hh
  have hafter : ∀ x, t.afterBarrier x = s.afterBarrier x := by
    intro x
    unfold State.afterBarrier
    simp only [hbar]
  refine ⟨h', (group?_modCore _ _ _ _).trans hh', ?_⟩
  have hthread : ∀ i < 64, h'.thread i = { k.thread i with
      st := s.afterBarrier (k.thread i).st, blocked := (h'.thread i).blocked, stall := (h'.thread i).stall, since := (h'.thread i).since } := by
    intro i hi
    have e : h'.thread i = h.thread i := by rw [hsame]; rfl
    rw [e, hc.thread i hi, pastBars_thread t k hi, hafter]
  refine ⟨?_, ?_, ?_, ?_, hthread, fun ha hr => ?_⟩
  · rw [hsame, hc.same]; exact ⟨rfl, rfl, rfl, rfl, rfl⟩
  · rw [hsame, hc.same]; rfl
  · rw [hsame, hc.same]; rfl
  · rw [hsame, hc.same]; rfl
  · obtain ⟨i, hi, hready⟩ := hr
    rw [hcalm (by rw [hc.same]; exact ha) ⟨i, hi, by rw [hc.thread i hi, pastBars_thread t k hi, hready]; rfl⟩, hc.same]
    rfl

theorem onlyCore_goOn {t : State} (h : OnlyCore s t core) (slot : Nat) (m : Mask) : OnlyCore s (t.goOn core slot m) core := by
  unfold State.goOn
  exact (onlyCore_barRestore (h.modCore _) slot).modCore _

end Sys2Proof.Machine

namespace Sys2Proof.Machine

variable {s : State} {core slot : Nat} {g : Group}

/-! ### Words of a record (R159, R164) -/

/-- Registers of two neighbouring lanes take the halves of a word. -/
def Group.setPair (g : Group) (r : RReg) (i : Nat) (v : Word64) : Group :=
  (g.setReg r (laneBit i) fun _ => lo32 v).setReg r (laneBit (i + 1)) fun _ => hi32 v

/-- A thread takes a code pointer: another than its own takes it out of its clause. -/
def Group.setPc (g : Group) (i : Nat) (v : Word64) : Group :=
  g.onThreads (laneBit i) fun _ t => { t with pc := v, entry := if t.pc = v then t.entry else 0 }

/-- Two neighbouring threads take their path counters from a word. -/
def Group.setPaths (g : Group) (i : Nat) (v : Word64) : Group :=
  (g.onThreads (laneBit i) fun _ t => { t with path := (lo32 v).extractLsb' 16 16 }).onThreads (laneBit (i + 1))
    fun _ t => { t with path := (hi32 v).extractLsb' 16 16 }

/-- What a word of a view can do to its group, by the offsets of R159. -/
theorem viewWrite_cases {P : Group → Prop} (h : Group) (off : Nat) (v : Word64)
    (none : off < 0x100 ∨ 0x1000 ≤ off ∧ h.quota ≤ (off - 0x1000) / 256 → P h)
    (flags : off < 0x100 → ∀ x, P { h with flags := x }) (trap : off < 0x100 → ∀ x, P { h with trap := x })
    (mask : off < 0x100 → ∀ x, P { h with k := x })
    (general : 0x100 ≤ off → off < 0x300 → P { h with g := put h.g ((off - 0x100) / 8) v })
    (pc : 0x300 ≤ off → off < 0x500 → P (h.setPc ((off - 0x300) / 8) v))
    (path : 0x500 ≤ off → off < 0x600 → P (h.setPaths (2 * ((off - 0x500) / 8)) v))
    (q : 0x600 ≤ off → off < 0x1000 → ∀ n i, P (h.setPair (.q n) i v)) (l : 0x600 ≤ off → off < 0x1000 → ∀ n i, P (h.setPair (.l n) i v))
    (main : 0x1000 ≤ off → (off - 0x1000) / 256 < h.quota → P (h.setPair (.v ((off - 0x1000) / 256)) ((off - 0x1000) % 256 / 4) v)) :
    P (h.viewWrite off v) := by
  unfold Group.viewWrite
  refine iteInduction (fun _ => none (by omega)) fun _ => ?_
  refine iteInduction (fun _ => flags (by omega) _) fun _ => ?_
  refine iteInduction (fun _ => trap (by omega) _) fun _ => ?_
  refine iteInduction (fun _ => trap (by omega) _) fun _ => ?_
  refine iteInduction (fun _ => mask (by omega) _) fun _ => ?_
  refine iteInduction (fun _ => none (by omega)) fun _ => ?_
  refine iteInduction (fun _ => general (by omega) (by omega)) fun _ => ?_
  refine iteInduction (fun _ => pc (by omega) (by omega)) fun _ => ?_
  refine iteInduction (fun _ => path (by omega) (by omega)) fun _ => ?_
  refine iteInduction (fun _ => q (by omega) (by omega) _ _) fun _ => ?_
  refine iteInduction (fun _ => l (by omega) (by omega) _ _) fun _ => ?_
  exact iteInduction (fun h => main (by omega) h) fun _ => none (by omega)

/-- A view changes of a group only what R159 gives it words for. -/
def Group.sameOutside (g h : Group) : Prop := h = { g with
  flags := h.flags, trap := h.trap, k := h.k, g := h.g, threads := h.threads, v := h.v, q := h.q, l := h.l }

theorem sameOutside_viewWrite (h : Group) (off : Nat) (v : Word64) : h.sameOutside (h.viewWrite off v) := by
  refine viewWrite_cases (P := h.sameOutside) h off v ?_ ?_ ?_ ?_ ?_ ?_ ?_ ?_ ?_ ?_ <;> intros <;> rfl

/-- General register `n` stands at 0x100 + 8 × n. -/
theorem viewWrite_greg (h : Group) (off : Nat) (v : Word64) (n : Nat) :
    (h.viewWrite off v).greg n = if 0x100 ≤ off ∧ off < 0x300 ∧ n = (off - 0x100) / 8 then v else h.greg n := by
  refine viewWrite_cases (P := fun x => x.greg n = _) h off v (fun _ => ?_) (fun _ _ => ?_) (fun _ _ => ?_) (fun _ _ => ?_) (fun h1 h2 => ?_)
    (fun _ _ => ?_) (fun _ _ => ?_) (fun _ _ _ _ => ?_) (fun _ _ _ _ => ?_) (fun _ _ => ?_)
  case refine_5 =>
    show (get? (put h.g ((off - 0x100) / 8) v) n).getD 0 = _
    rw [get?_put]
    by_cases hn : n = (off - 0x100) / 8
    · rw [if_pos hn, if_pos ⟨h1, h2, hn⟩]; rfl
    · rw [if_neg hn, if_neg fun h => hn h.2.2]; rfl
  all_goals exact (if_neg (by omega)).symm

theorem has_laneBit (i : Nat) {j : Nat} (hj : j < 64) : has (laneBit i) j = decide (j = i) := by
  by_cases h : i = j
  · simp [has, laneBit, h, hj]
  · simp [has, laneBit, BitVec.getLsbD_twoPow, h, Ne.symm h]

/-- The code pointer of thread `i` stands at 0x300 + 8 × i. -/
theorem viewWrite_pc (h : Group) (off : Nat) (v : Word64) {i : Nat} (hi : i < 64) :
    ((h.viewWrite off v).thread i).pc = if 0x300 ≤ off ∧ off < 0x500 ∧ i = (off - 0x300) / 8 then v else (h.thread i).pc := by
  refine viewWrite_cases (P := fun x => (x.thread i).pc = _) h off v (fun _ => ?_) (fun _ _ => ?_) (fun _ _ => ?_) (fun _ _ => ?_) (fun _ _ => ?_)
    (fun h1 h2 => ?_) (fun _ _ => ?_) (fun _ _ _ _ => ?_) (fun _ _ _ _ => ?_) (fun _ _ => ?_)
  case refine_6 =>
    rw [Group.setPc, thread_onThreads _ _ _ hi, has_laneBit _ hi]
    by_cases hn : i = (off - 0x300) / 8
    · rw [decide_eq_true hn, if_pos (show 0x300 ≤ off ∧ off < 0x500 ∧ i = (off - 0x300) / 8 from ⟨h1, h2, hn⟩)]; rfl
    · rw [decide_eq_false hn, if_neg (show ¬(0x300 ≤ off ∧ off < 0x500 ∧ i = (off - 0x300) / 8) from fun h => hn h.2.2)]; rfl
  case refine_7 =>
    rw [if_neg (by omega), Group.setPaths, thread_onThreads _ _ _ hi, thread_onThreads _ _ _ hi]
    split <;> split <;> rfl
  all_goals exact (if_neg (by omega)).symm

/-- Main register `n` of lane `i` stands at 0x1000 + 256 × n + 4 × i, as half of a word. -/
theorem viewWrite_main (h : Group) (off : Nat) (v : Word64) (n : Nat) {i : Nat} (hi : i < 64) :
    (h.viewWrite off v).mainAt n i =
      if 0x1000 ≤ off ∧ n < h.quota ∧ n = (off - 0x1000) / 256 then
        if i = (off - 0x1000) % 256 / 4 + 1 then hi32 v else if i = (off - 0x1000) % 256 / 4 then lo32 v else h.mainAt n i
      else h.mainAt n i := by
  refine viewWrite_cases (P := fun x => x.mainAt n i = _) h off v (fun _ => ?_) (fun _ _ => ?_) (fun _ _ => ?_) (fun _ _ => ?_) (fun _ _ => ?_)
    (fun _ _ => ?_) (fun _ _ => ?_) (fun _ _ _ _ => ?_) (fun _ _ _ _ => ?_) (fun h1 h2 => ?_)
  case refine_10 =>
    rw [Group.setPair, setReg_main _ _ _ _ _ hi, setReg_main _ _ _ _ _ hi, has_laneBit _ hi, has_laneBit _ hi]
    by_cases hn : n = (off - 0x1000) / 256
    · subst hn; simp [h1, h2]
    · simp [hn, Ne.symm hn]
  all_goals exact (if_neg (by omega)).symm

end Sys2Proof.Machine

namespace Sys2Proof.Machine

variable {s : State} {core slot : Nat} {g : Group}

/-! ### A whole record read back (R159, R160) -/

theorem Group.sameOutside.trans {a b c : Group} (h : a.sameOutside b) (k : b.sameOutside c) : a.sameOutside c := by
  unfold Group.sameOutside at *
  rw [k, h]

/-- The words of a view written one after the other. -/
def Group.viewWrites (g : Group) (l : List (Nat × Word64)) : Group := l.foldl (fun (h : Group) w => h.viewWrite w.1 w.2) g

theorem sameOutside_viewWrites (g : Group) (l : List (Nat × Word64)) : g.sameOutside (g.viewWrites l) := by
  induction l generalizing g with
  | nil => rfl
  | cons w l ih => exact (sameOutside_viewWrite g w.1 w.2).trans (ih _)

/-- The words of a range of offsets, ascending. -/
def wordsUpTo (n : Nat) (w : Nat → Word64) : List (Nat × Word64) := (List.range n).map fun j => (8 * j, w (8 * j))

/-- What a group reads, where one word of the range alone writes it. -/
theorem viewWrites_read {α : Type} (read : Group → α) {w : Nat → Word64} {x : α} {k n : Nat} (hk : k < n) (g : Group)
    (hit : ∀ h : Group, h.quota = g.quota → read (h.viewWrite (8 * k) (w (8 * k))) = x)
    (miss : ∀ (h : Group) j v, j ≠ k → read (h.viewWrite (8 * j) v) = read h) : read (g.viewWrites (wordsUpTo n w)) = x := by
  induction n with
  | zero => omega
  | succ n ih =>
    have e : g.viewWrites (wordsUpTo (n + 1) w) = (g.viewWrites (wordsUpTo n w)).viewWrite (8 * n) (w (8 * n)) := by
      simp [wordsUpTo, Group.viewWrites, List.range_succ]
    rw [e]
    by_cases hn : n = k
    · subst hn
      exact hit _ (by rw [sameOutside_viewWrites])
    · rw [miss _ _ _ hn]
      exact ih (by omega)

theorem viewWrites_greg (g : Group) {w : Nat → Word64} {n m : Nat} (hn : n < 64) (hm : 0x60 ≤ m) :
    (g.viewWrites (wordsUpTo m w)).greg n = w (0x100 + 8 * n) := by
  refine viewWrites_read (fun h => h.greg n) (k := 0x20 + n) (by omega) g (fun h _ => ?_) (fun h j v hj => ?_)
  · rw [viewWrite_greg, if_pos (by omega), show 8 * (0x20 + n) = 0x100 + 8 * n by omega]
  · rw [viewWrite_greg, if_neg (by omega)]

theorem viewWrites_pc (g : Group) {w : Nat → Word64} {i m : Nat} (hi : i < 64) (hm : 0xA0 ≤ m) :
    ((g.viewWrites (wordsUpTo m w)).thread i).pc = w (0x300 + 8 * i) := by
  refine viewWrites_read (fun h => (h.thread i).pc) (k := 0x60 + i) (by omega) g (fun h _ => ?_) (fun h j v hj => ?_)
  · rw [viewWrite_pc _ _ _ hi, if_pos (by omega), show 8 * (0x60 + i) = 0x300 + 8 * i by omega]
  · rw [viewWrite_pc _ _ _ hi, if_neg (by omega)]

/-- The two halves of a word of the main registers. -/
theorem viewWrites_main (g : Group) {w : Nat → Word64} {n j m : Nat} (hn : n < g.quota) (hj : j < 32) (hm : 0x200 + 32 * g.quota ≤ m) :
    (g.viewWrites (wordsUpTo m w)).mainAt n (2 * j) = lo32 (w (0x1000 + 256 * n + 8 * j)) ∧
      (g.viewWrites (wordsUpTo m w)).mainAt n (2 * j + 1) = hi32 (w (0x1000 + 256 * n + 8 * j)) := by
  have he : 8 * (0x200 + 32 * n + j) = 0x1000 + 256 * n + 8 * j := by omega
  constructor
  · refine viewWrites_read (fun h => h.mainAt n (2 * j)) (k := 0x200 + 32 * n + j) (by omega) g (fun h hq => ?_) (fun h i v hi => ?_)
    · rw [viewWrite_main _ _ _ _ (by omega), if_pos (by omega), if_neg (by omega), if_pos (by omega), he]
    · rw [viewWrite_main _ _ _ _ (by omega)]
      split
      · rw [if_neg (by omega), if_neg (by omega)]
      · rfl
  · refine viewWrites_read (fun h => h.mainAt n (2 * j + 1)) (k := 0x200 + 32 * n + j) (by omega) g (fun h hq => ?_) (fun h i v hi => ?_)
    · rw [viewWrite_main _ _ _ _ (by omega), if_pos (by omega), if_pos (by omega), he]
    · rw [viewWrite_main _ _ _ _ (by omega)]
      split
      · rw [if_neg (by omega), if_neg (by omega)]
      · rfl

theorem recordWords_eq (s : State) (a len : Nat) :
    s.recordWords a len = wordsUpTo (len / 8) fun off => BitVec.ofNat 64 (s.coherentNat (a + off) 8) := rfl

/-! ### The resume of a held group (R164, R431) -/

theorem endHold_of_no_due (hd : g.due = []) : g.endHold = { g with hold := .none, trap := .blank } := by
  unfold Group.endHold
  rw [hd]

/-- A group past its hold, with nothing written into its view. -/
def Group.released (g : Group) (core : Nat) : Group :=
  { g.adopt [] (g.viewStates core []) with view := [], hold := .none, trap := .blank }

theorem resumeView_unwritten (hg : s.group? core slot = some g) (hv : g.view = []) (hd : g.due = [])
    (hst : ∀ i < 64, (g.thread i).st = .ready ∨ (g.thread i).st = .exited) (hk : ∀ k < 12, g.maskReg k &&& ~~~ g.liveMask = 0) :
    s.resumeView core slot = (s.modCore core fun c => c.modGroup slot fun _ => g.released core).goOn core slot 0 := by
  have hobj : ∀ i < 64, (g.thread i).st.obj < 64 := fun i hi => by rcases hst i hi with h | h <;> simp [h, TState.obj]
  have hsome : (g.viewStates core []).any (·.isNone) = false := by
    rw [List.any_eq_false]
    intro x hx
    obtain ⟨i, hi, rfl⟩ := List.mem_map.1 hx
    have hi := List.mem_range.1 hi
    rcases fromStatus_status (g.thread i) core g.team (hobj i hi) with h | h
    · rw [viewStatus_nil, h]; simp
    · rcases hst i hi with e | e
      · exact absurd e h.2.1
      · exact absurd e h.2.2
  have hmask : ((List.range 12).any fun k => (g.adopt [] (g.viewStates core [])).maskReg k &&& exitMask (g.viewStates core []) != 0) = false := by
    rw [List.any_eq_false]
    intro k hk'
    have hsub := hk k (List.mem_range.1 hk')
    have : (g.adopt [] (g.viewStates core [])).maskReg k &&& exitMask (g.viewStates core []) = 0 := by
      refine mask_ext fun i hi => ?_
      have hs := congrArg (has · i) hsub
      simp only [has_and, has_not hi, has_liveMask g hi] at hs
      rw [has_and]
      cases he : has (exitMask (g.viewStates core [])) i with
      | false => simp [has]
      | true =>
        rw [exitMask_viewStates_nil g core hobj he, Bool.not_false] at hs
        exact hs
    simpa using this
  have hmoved : ∀ p : Nat → Bool, ((List.range 64).filter fun i => ([] : List (Nat × Word64)).any (fun w => w.1 == 0x300 + 8 * i) && p i) = [] :=
    fun p => List.filter_eq_nil_iff.2 fun i _ => by simp
  unfold State.resumeView
  simp only [hg, hv, hsome, hmask, exitMask_live_nil g core hobj, hmoved, List.filter_nil, Bool.or_self, Bool.false_eq_true, if_false]
  congr 1
  exact congrArg (s.modCore core) (funext fun c => congrArg (c.modGroup slot) (funext fun _ => endHold_of_no_due hd))

theorem resume_regs (hh : g.hold = .none) (hl : g.halt = .none) : SameRegs g g.resume := by
  rw [resume_same hh hl]
  exact ⟨rfl, rfl, rfl, rfl, rfl⟩

/-- A group that resumes with no thread exiting. -/
theorem resume_exit_zero (hh : g.hold = .none) (hl : g.halt = .none) :
    SameRegs g (g.resume.exit 0) ∧ (g.resume.exit 0).arrivals = g.arrivals ∧ (g.resume.exit 0).hold = .none ∧
      ∀ i < 64, (g.resume.exit 0).thread i =
        { g.thread i with held := false, blocked := false, since := g.issuesOf (sliceOf i), refetch := (g.thread i).entry != 0 } := by
  refine ⟨?_, ?_, ?_, fun i hi => (exit_zero_thread _ hi).trans (resume_thread hh hl hi)⟩
  · exact (resume_regs hh hl).trans ⟨rfl, rfl, rfl, rfl, exit_zero_masks _⟩
  · rw [exit_same, resume_same hh hl]
  · rw [exit_same, resume_same hh hl]
    exact hh

theorem resume_exit_zero_gst (hh : g.hold = .none) (hl : g.halt = .none) {i : Nat} (hi : i < 64) (hlive : (g.thread i).live = true) :
    (g.resume.exit 0).gst = if g.gst = .exited then .exited else .pending := by
  rw [exit_zero_gst _ hi (by rw [resume_thread hh hl hi]; exact hlive), resume_same hh hl]

/-- The keeper's resume of a group whose trap the host has answered, with nothing written into its view. -/
theorem execKeeperResume_unwritten {code : Nat} (hg : s.group? core slot = some g) (hk : (s.keeperOf core).isSome = true)
    (hh : g.hold = .forwarded code true) (hl : g.halt = .none) (he : s.eventHeld core slot = false) :
    ∃ t, exec (.keeperResume core slot []) s = .next (t.resumeView core slot) ∧ t.group? core slot = some g ∧ OnlyCore s t core := by
  obtain ⟨k, hk⟩ := Option.isSome_iff_exists.1 hk
  by_cases hp : g.gst = .preempted
  · refine ⟨s.modGroup core slot fun g => { g with view := g.view ++ [] }, ?_, ?_, onlyCore_modCore s core _⟩
    · rw [exec_keeperResume]
      simp only [execKeeperResume, hg, hk, hh, hl, he, hp, if_true, Bool.false_eq_true, if_false]
    · rw [group?_modGroup hg, List.append_nil]
  · refine ⟨s, ?_, hg, .refl s core⟩
    rw [exec_keeperResume]
    simp only [execKeeperResume, hg, hk, hh, hl, he, hp, Bool.false_eq_true, if_false]

theorem afterBarrier_of_ne (s : State) {x : TState} (h : ∀ c k o p, x ≠ .barrierWait c k o p) : s.afterBarrier x = x := by
  cases x with
  | barrierWait c k o p => exact absurd rfl (h c k o p)
  | _ => rfl

theorem exists_live (h : g.liveMask ≠ 0) : ∃ i < 64, (g.thread i).live = true := by
  refine Classical.byContradiction fun hn => h (mask_ext fun i hi => ?_)
  rw [has_liveMask g hi]
  have : ¬(g.thread i).live = true := fun hl => hn ⟨i, hi, hl⟩
  simp [this, has]

/-- A group whose trap the host has answered goes on as it stood (R51, R164, R431). -/
theorem resumed {code : Nat} (hg : s.group? core slot = some g) (hk : (s.keeperOf core).isSome = true) (hh : g.hold = .forwarded code true)
    (hl : g.halt = .none) (hd : g.due = []) (hv : g.view = []) (hx : g.gst ≠ .exited) (hlive : g.liveMask ≠ 0)
    (hst : ∀ i < 64, (g.thread i).st = .ready ∨ (g.thread i).st = .exited) (hmask : ∀ k < 12, g.maskReg k &&& ~~~ g.liveMask = 0)
    (ha : g.arrivals = []) (he : s.eventHeld core slot = false) :
    ∃ t h, exec (.keeperResume core slot []) s = .next t ∧ t.group? core slot = some h ∧ h.gst = .pending ∧ h.hold = .none ∧ SameRegs g h ∧
      (∀ i < 64, (h.thread i).pc = (g.thread i).pc ∧ (h.thread i).st = (g.thread i).st ∧ (h.thread i).path = (g.thread i).path ∧
        (h.thread i).held = false ∧ (h.thread i).refetch = ((g.thread i).entry != 0)) ∧ OnlyCore s t core := by
  obtain ⟨t, ht, hgt, only⟩ := execKeeperResume_unwritten hg hk hh hl he
  have hobj : ∀ i < 64, (g.thread i).st.obj < 64 := fun i hi => by rcases hst i hi with h | h <;> simp [h, TState.obj]
  have hthread : ∀ i < 64, (g.released core).thread i = g.thread i := fun i hi => adopt_nil_thread g core hi (hobj i hi)
  have hrl : (g.released core).halt = .none := hl
  obtain ⟨hregs, harr, hhold, hres⟩ := resume_exit_zero (g := g.released core) rfl hrl
  obtain ⟨i, hi, hil⟩ := exists_live hlive
  have hready : (g.thread i).st = .ready := (hst i hi).resolve_right fun h => by simp [Thread.live, h] at hil
  obtain ⟨h, hgo, went⟩ := goOn_group (group?_modGroup hgt fun _ => g.released core) 0
  refine ⟨_, h, ht.trans (congrArg _ (resumeView_unwritten hgt hv hd hst hmask)), hgo, ?_, ?_, ?_, fun j hj => ?_, onlyCore_goOn (only.modCore _) slot 0⟩
  · rw [went.gst, resume_exit_zero_gst rfl hrl hi (by rw [hthread i hi]; exact hil)]
    exact if_neg hx
  · rw [went.hold (harr.trans (adopt_nil_arrivals ha _)) ⟨i, hi, by rw [hres i hi, hthread i hi]; exact hready⟩, hhold]
  · exact SameRegs.trans (b := g.released core) ⟨rfl, rfl, rfl, rfl, rfl⟩ (hregs.trans went.regs)
  · have hbar := afterBarrier_of_ne (t.modGroup core slot fun _ => g.released core) (x := (g.thread j).st)
      fun c k o p => by rcases hst j hj with h | h <;> simp [h]
    rw [went.thread j hj, hres j hj, hthread j hj]
    exact ⟨rfl, hbar, rfl, rfl, rfl⟩

end Sys2Proof.Machine

namespace Sys2Proof.Machine

variable {s : State} {core slot : Nat} {g : Group}

/-! ### The return of a saved group (R124, R149, R160, R161, R173, R413) -/

/-- What may have stopped a group that returns: a suspension or a precise stop that has ended, a fault cleared, a breakpoint left. -/
def State.returnDue (s : State) (core : Nat) (g : Group) : Prop :=
  (g.hold = .none ∧ g.halt = .suspended true ∧ ((s.core core).stop.any fun z => z.ctx == g.ctx) = false) ∨
    ((g.hold = .pageFault true ∨ g.hold = .debug true) ∧ g.halt = .none) ∨ (g.hold = .none ∧ g.halt = .stopped true)

theorem returnDue_not_free (h : s.returnDue core g) : g.free = false := by
  rcases h with ⟨_, hl, _⟩ | ⟨hh | hh, _⟩ | ⟨_, hl⟩
  · simp [Group.free, hl]
  · simp [Group.free, hh]
  · simp [Group.free, hh]
  · simp [Group.free, hl]

theorem returnDue_haltOver (h : s.returnDue core g) (hr : (s.ctx g.ctx).state = .running) : s.haltOver core g = some .none := by
  rcases h with ⟨_, hl, hz⟩ | ⟨_, hl⟩ | ⟨_, hl⟩
  · simp only [State.haltOver, hl, hr, hz, if_true, Bool.false_eq_true, if_false]
  · simp only [State.haltOver, hl]
  · simp only [State.haltOver, hl]

theorem returnDue_mayReturn (h : s.returnDue core g) : g.mayReturn = true := by
  rcases h with ⟨hh, hl, _⟩ | ⟨hh | hh, hl⟩ | ⟨hh, hl⟩ <;> simp [Group.mayReturn, hh, hl]

theorem restore_whole (hg : s.group? core slot = some g) (h : s.returnDue core g) (hr : (s.ctx g.ctx).state = .running)
    (he : s.eventHeld core slot = false) (hw : g.lent = true → g.quota ≤ (s.core core).freeWords) (ht : (s.core core).teamRoom g.team = true) :
    s.restore core slot = s.comeBack core slot g .none true := by
  have hroom : (!g.lent || decide (g.quota ≤ (s.core core).freeWords)) = true := by
    cases hlent : g.lent with
    | false => rfl
    | true => simpa using hw hlent
  unfold State.restore
  simp only [hg, returnDue_not_free h, he, Bool.or_self, Bool.false_eq_true, if_false, returnDue_haltOver h hr, returnDue_mayReturn h, if_true, hr,
    hroom, ht, and_self]

/-- The group as its record gives it back, and the threads that the record makes exit. -/
def State.recordTaken (s : State) (core : Nat) (g : Group) : Group × Mask := match g.savedAt with
  | some (a, len, flags) => g.takeBack core (s.recordWords a len) flags
  | none => (g, 0)

/-- A group whose record has been read takes what its view holds, and nothing stops it any longer. -/
def Group.returned (h : Group) (core : Nat) : Group :=
  let h : Group := { h.adopt h.view (h.viewStates core h.view) with view := [], lent := false, halt := .none }
  if h.hold != .none then h.endHold else h

/-- The threads that a return makes exit. -/
def State.returnExits (s : State) (core : Nat) (g : Group) : Mask :=
  let r := s.recordTaken core g
  (r.2 ||| exitMask (r.1.viewStates core r.1.view)) &&& g.liveMask

theorem comeBack_whole (s : State) (core slot : Nat) (g : Group) : s.comeBack core slot g .none true =
    ((s.teamBack core g.team).modGroup core slot fun _ => ((s.teamBack core g.team).recordTaken core g).1.returned core).goOn core slot
      ((s.teamBack core g.team).returnExits core g) := by
  unfold State.comeBack State.returnExits State.recordTaken
  cases g.savedAt <;> rfl

/-! ### The team comes back first (R165, R413) -/

theorem onlyCore_teamBack (s : State) (core team : Nat) : OnlyCore s (s.teamBack core team) core := by
  unfold State.teamBack
  split
  · exact .refl s core
  · split
    · exact onlyCore_modCore s core _
    · exact onlyCore_modCore s core _

theorem group?_teamBack (s : State) (core team slot : Nat) : (s.teamBack core team).group? core slot = s.group? core slot := by
  unfold State.teamBack
  split
  · rfl
  · split
    · exact group?_modTeam s core team _ slot
    · exact group?_modTeam s core team _ slot

theorem team?_modTeam (s : State) (core team : Nat) (f : Team → Team) (c k : Nat) :
    (s.modTeam core team f).team? c k = if c = core ∧ k = team then (s.team? c k).map f else s.team? c k := by
  unfold State.team? State.modTeam
  by_cases hc : c = core
  · subst hc
    rw [core_modCore]
    unfold Core.modTeam
    cases ht : get? (s.core c).teams team with
    | none => by_cases hk : k = team <;> simp [hk, ht]
    | some t => by_cases hk : k = team <;> simp [hk, ht, get?_put]
  · rw [core_modCore_ne _ _ hc, if_neg fun h => hc h.1]

/-- The barrier objects of a team that had no record stand. -/
theorem bar_teamBack {team : Nat} (h : ∀ tm, s.team? core team = some tm → tm.savedAt = none) (b : BarAt) :
    (s.teamBack core team).bar b = s.bar b := by
  unfold State.teamBack
  split
  · rfl
  · next t ht =>
    rw [h t ht]
    dsimp only
    unfold State.bar
    rw [team?_modTeam]
    split
    · cases s.team? b.core b.team <;> rfl
    · rfl

theorem coherentNat_onlyCore {t : State} (h : OnlyCore s t core) (dpa n : Nat) : t.coherentNat dpa n = s.coherentNat dpa n := by
  rw [h.device]
  rfl

/-! ### What a returned group is -/

theorem takeBack_same (g : Group) (core : Nat) (l : List (Nat × Word64)) (flags : Nat) :
    ∃ sts, (g.takeBack core l flags).1 = { g.adopt l sts with flags := (g.takeBack core l flags).1.flags, savedAt := none } := ⟨_, rfl⟩

/-- What a list of words makes of a group, its threads' states and its arrivals apart. -/
theorem adopt_same (g : Group) (l : List (Nat × Word64)) (sts : List (Option TState)) :
    g.adopt l sts = { g.viewWrites l with threads := (g.adopt l sts).threads, arrivals := (g.adopt l sts).arrivals } := rfl

theorem adopt_thread (g : Group) (l : List (Nat × Word64)) (sts : List (Option TState)) {i : Nat} (hi : i < 64) :
    (g.adopt l sts).thread i = { (g.viewWrites l).thread i with st := ((g.adopt l sts).thread i).st } := by
  have e : (g.adopt l sts).thread i = ((g.viewWrites l).onThreads allLanes fun i t => { t with
    st := if sts.getD i none = some .exited then t.st else (sts.getD i none).getD t.st }).thread i := rfl
  rw [e, thread_onThreads _ _ _ hi, if_pos (has_allLanes hi)]

/-- A group with an unwritten view, adopted, that is neither halted nor lent. -/
def Group.unstopped (h : Group) (core : Nat) : Group := { h.adopt [] (h.viewStates core []) with view := [], lent := false, halt := .none }

/-- Of a group whose view nobody has written and on which no trap waits, a return takes the hold. -/
theorem returned_eq {h : Group} (core : Nat) (hv : h.view = []) (hd : h.due = []) :
    ∃ x, h.returned core = { h.unstopped core with hold := .none, trap := x } := by
  have e : h.returned core = if h.hold != .none then (h.unstopped core).endHold else h.unstopped core := by
    unfold Group.returned
    rw [hv]
    rfl
  rw [e]
  split
  · exact ⟨.blank, endHold_of_no_due (g := h.unstopped core) hd⟩
  · next hn =>
    have hn : h.hold = .none := by simpa using hn
    exact ⟨h.trap, by rw [← hn]; rfl⟩

/-- A group whose view nobody has written and on which no trap waits returns with nothing that stops it, its registers as they are. -/
structure Returned (core : Nat) (h k : Group) : Prop where
  hold : k.hold = .none
  halt : k.halt = .none
  lent : k.lent = false
  gst : k.gst = h.gst
  arrivals : h.arrivals = [] → k.arrivals = []
  regs : SameRegs h k
  thread : ∀ i, k.thread i = (h.adopt [] (h.viewStates core [])).thread i

theorem returned_effect {h : Group} (core : Nat) (hv : h.view = []) (hd : h.due = []) : Returned core h (h.returned core) := by
  obtain ⟨x, e⟩ := returned_eq core hv hd
  rw [e]
  exact ⟨rfl, rfl, rfl, rfl, fun ha => adopt_nil_arrivals ha _, ⟨rfl, rfl, rfl, rfl, rfl⟩, fun _ => rfl⟩

/-! ### What a record gives (R159, R160) -/

theorem recordTaken_none (h : g.savedAt = none) : s.recordTaken core g = (g, 0) := by
  unfold State.recordTaken
  rw [h]

theorem recordTaken_some {a len flags : Nat} (h : g.savedAt = some (a, len, flags)) :
    s.recordTaken core g = g.takeBack core (s.recordWords a len) flags := by
  unfold State.recordTaken
  rw [h]

/-- A record holds neither what waits on a group nor what stops it. -/
theorem takeBack_stopped (g : Group) (core : Nat) (l : List (Nat × Word64)) (flags : Nat) :
    (g.takeBack core l flags).1.view = g.view ∧ (g.takeBack core l flags).1.due = g.due := by
  obtain ⟨sts, e⟩ := takeBack_same g core l flags
  rw [e, adopt_same, sameOutside_viewWrites g l]
  exact ⟨rfl, rfl⟩

theorem recordTaken_stopped (s : State) (core : Nat) (g : Group) :
    (s.recordTaken core g).1.view = g.view ∧ (s.recordTaken core g).1.due = g.due := by
  unfold State.recordTaken
  split
  · exact takeBack_stopped g core _ _
  · exact ⟨rfl, rfl⟩

/-- General and main registers and code pointers of one group and of another. -/
def SameWords (g h : Group) : Prop :=
  (∀ n, h.greg n = g.greg n) ∧ (∀ i < 64, (h.thread i).pc = (g.thread i).pc) ∧ ∀ n i, h.mainAt n i = g.mainAt n i

theorem SameWords.trans {a b c : Group} (h : SameWords a b) (k : SameWords b c) : SameWords a c :=
  ⟨fun n => (k.1 n).trans (h.1 n), fun i hi => (k.2.1 i hi).trans (h.2.1 i hi), fun n i => (k.2.2 n i).trans (h.2.2 n i)⟩

theorem sameWords_of_regs {g h : Group} (k : SameRegs g h) (pc : ∀ i < 64, (h.thread i).pc = (g.thread i).pc) : SameWords g h := by
  refine ⟨fun n => ?_, pc, fun n i => ?_⟩
  · unfold Group.greg
    rw [k.uniform]
  · unfold Group.mainAt
    rw [k.main]

theorem sameWords_takeBack (g : Group) (core : Nat) (l : List (Nat × Word64)) (flags : Nat) :
    SameWords (g.viewWrites l) (g.takeBack core l flags).1 := by
  obtain ⟨sts, e⟩ := takeBack_same g core l flags
  rw [e]
  refine sameWords_of_regs ⟨rfl, rfl, rfl, rfl, rfl⟩ fun i hi => ?_
  exact (congrArg Thread.pc (adopt_thread g l sts hi)).trans rfl

theorem Returned.words {h k : Group} (r : Returned core h k) : SameWords h k :=
  sameWords_of_regs r.regs fun i hi => by
    rw [r.thread i, adopt_thread h [] _ hi]
    rfl

/-- What a group that resumes keeps, whichever threads exit. -/
theorem sameWords_resume_exit (hh : g.hold = .none) (hl : g.halt = .none) (m : Mask) : SameWords g (g.resume.exit m) := by
  have hr : SameWords g g.resume := sameWords_of_regs (resume_regs hh hl) fun i hi => by rw [resume_thread hh hl hi]
  refine hr.trans ⟨fun _ => rfl, fun i hi => ?_, fun _ _ => rfl⟩
  rw [exit_thread _ _ hi]
  split <;> rfl

theorem WentOn.words {t : State} {k h : Group} (w : WentOn t k h) : SameWords k h := sameWords_of_regs w.regs fun i hi => by rw [w.thread i hi]

/-- The words of a whole record, by register. -/
theorem record_words {a len : Nat} (s : State) (g : Group) (hlen : len = 4096 + 256 * g.quota) :
    let word := fun off => BitVec.ofNat 64 (s.coherentNat (a + off) 8)
    let r := g.viewWrites (s.recordWords a len)
    (∀ n < 64, r.greg n = word (0x100 + 8 * n)) ∧ (∀ i < 64, (r.thread i).pc = word (0x300 + 8 * i)) ∧
      ∀ n < g.quota, ∀ j < 32, r.mainAt n (2 * j) = lo32 (word (0x1000 + 256 * n + 8 * j)) ∧
        r.mainAt n (2 * j + 1) = hi32 (word (0x1000 + 256 * n + 8 * j)) := by
  dsimp only
  rw [recordWords_eq]
  exact ⟨fun n hn => viewWrites_greg g hn (by omega), fun i hi => viewWrites_pc g hi (by omega),
    fun n hn j hj => viewWrites_main g hn hj (by omega)⟩

/-! ### The group that stands after a return -/

/-- The state after a group has come back, before it goes on. -/
def State.cameBack (s : State) (core slot : Nat) (g : Group) : State :=
  (s.teamBack core g.team).modGroup core slot fun _ => ((s.teamBack core g.team).recordTaken core g).1.returned core

theorem execGroupRestore_due (hg : s.group? core slot = some g) (h : s.returnDue core g) (hr : (s.ctx g.ctx).state = .running)
    (he : s.eventHeld core slot = false) (hw : g.lent = true → g.quota ≤ (s.core core).freeWords) (ht : (s.core core).teamRoom g.team = true) :
    exec (.groupRestore core slot) s =
      .next (((s.cameBack core slot g).goOn core slot ((s.teamBack core g.team).returnExits core g)).afterStore s) := by
  rw [exec_groupRestore, execGroupRestore, restore_whole hg h hr he hw ht, comeBack_whole]
  rfl

theorem cameBack_group (hg : s.group? core slot = some g) :
    (s.cameBack core slot g).group? core slot = some (((s.teamBack core g.team).recordTaken core g).1.returned core) :=
  group?_modGroup ((group?_teamBack s core g.team slot).trans hg) _

theorem onlyCore_cameBack (s : State) (core slot : Nat) (g : Group) : OnlyCore s (s.cameBack core slot g) core := by
  unfold State.cameBack State.modGroup
  exact (onlyCore_teamBack s core g.team).modCore _

theorem bar_cameBack (h : ∀ tm, s.team? core g.team = some tm → tm.savedAt = none) (b : BarAt) :
    (s.cameBack core slot g).bar b = s.bar b :=
  (bar_modCore (s.teamBack core g.team) core (fun c => Core.modGroup_teams c slot _) b).trans (bar_teamBack h b)

/-- A group that has not been saved into a record makes no thread exit. -/
theorem returnExits_unsaved (t : State) (hs : g.savedAt = none) (hv : g.view = []) (ho : ∀ i < 64, (g.thread i).st.obj < 64) :
    t.returnExits core g = 0 := by
  unfold State.returnExits
  rw [recordTaken_none hs]
  dsimp only
  rw [hv, show (0 : Mask) = 0#64 from rfl, BitVec.zero_or]
  exact exitMask_live_nil g core ho

/-- What a return gives a group whose view is unwritten and of which no thread exits. -/
theorem returned_wentOn {t : State} {h : Group} (hv : g.view = []) (hd : g.due = []) (ha : g.arrivals = [])
    (hready : ∃ i < 64, (g.thread i).st = .ready) (ho : ∀ i < 64, (g.thread i).st.obj < 64)
    (went : WentOn t ((g.returned core).resume.exit 0) h) :
    h.hold = .none ∧ h.gst = (if g.gst = .exited then .exited else .pending) ∧ SameRegs g h ∧
      ∀ i < 64, (h.thread i).pc = (g.thread i).pc ∧ (h.thread i).path = (g.thread i).path ∧
        (h.thread i).st = t.afterBarrier (g.thread i).st := by
  obtain ⟨hhold, hhalt, -, hgst, harr, hregs, hthread⟩ := returned_effect core hv hd
  have hthread : ∀ i < 64, (g.returned core).thread i = g.thread i := fun i hi => (hthread i).trans (adopt_nil_thread g core hi (ho i hi))
  obtain ⟨eregs, earr, ehold, ethread⟩ := resume_exit_zero hhold hhalt
  obtain ⟨j, hj, hjr⟩ := hready
  refine ⟨?_, ?_, hregs.trans (eregs.trans went.regs), fun i hi => ?_⟩
  · rw [went.hold (earr.trans (harr ha)) ⟨j, hj, by rw [ethread j hj, hthread j hj]; exact hjr⟩, ehold]
  · rw [went.gst, resume_exit_zero_gst hhold hhalt hj (by rw [hthread j hj]; simp [Thread.live, hjr]), hgst]
  · rw [went.thread i hi, ethread i hi, hthread i hi]
    exact ⟨rfl, rfl, rfl⟩

theorem afterBarrier_of_bar {t : State} (h : ∀ b, t.bar b = s.bar b) (x : TState) : t.afterBarrier x = s.afterBarrier x := by
  unfold State.afterBarrier
  simp only [h]

theorem exit_resume_held (hh : g.hold = .none) (hl : g.halt = .none) (m : Mask) {i : Nat} (hi : i < 64) :
    ((g.resume.exit m).thread i).held = false := by
  rw [exit_thread _ _ hi, resume_thread hh hl hi]
  split <;> rfl

/-- A saved or stopped group that may return goes on, as it stood or as its record holds it (R149, R160, R161, R173, R413). -/
theorem restored (hg : s.group? core slot = some g) (hr : (s.ctx g.ctx).state = .running) (hd : g.due = []) (hv : g.view = [])
    (ha : g.arrivals = []) (hready : ∃ i < 64, (g.thread i).st = .ready) (ho : ∀ i < 64, (g.thread i).st.obj < 64)
    (he : s.eventHeld core slot = false) (hdue : s.returnDue core g) (hw : g.lent = true → g.quota ≤ (s.core core).freeWords)
    (ht : (s.core core).teamRoom g.team = true) :
    ∃ u h : _, exec (.groupRestore core slot) s = .next (State.afterStore u s) ∧ u.group? core slot = some h ∧ h.halt = .none ∧
      h.lent = false ∧ OnlyCore s u core ∧ (∀ i < 64, (h.thread i).held = false) ∧
      (g.savedAt = none → (∀ tm, s.team? core g.team = some tm → tm.savedAt = none) →
        h.hold = .none ∧ h.gst = (if g.gst = .exited then .exited else .pending) ∧ SameRegs g h ∧
        ∀ i < 64, (h.thread i).pc = (g.thread i).pc ∧ (h.thread i).path = (g.thread i).path ∧
          (h.thread i).st = s.afterBarrier (g.thread i).st) ∧
      ∀ a len flags, g.savedAt = some (a, len, flags) → len = 4096 + 256 * g.quota → SameWords (g.viewWrites (s.recordWords a len)) h := by
  obtain ⟨h, hgo, went⟩ := goOn_group (cameBack_group hg) ((s.teamBack core g.team).returnExits core g)
  obtain ⟨rv, rd⟩ := recordTaken_stopped (s.teamBack core g.team) core g
  have back := returned_effect core (rv.trans hv) (rd.trans hd)
  have hresume := resume_same back.hold back.halt
  refine ⟨_, h, execGroupRestore_due hg hdue hr he hw ht, hgo, ?_, ?_, onlyCore_goOn (onlyCore_cameBack s core slot g) slot _,
    fun i hi => ?_, fun hs htm => ?_, fun a len flags hs hlen => ?_⟩
  · rw [went.halt, exit_same, hresume]
    exact back.halt
  · rw [went.lent, exit_same, hresume]
    exact back.lent
  · rw [went.thread i hi]
    exact exit_resume_held back.hold back.halt _ hi
  · rw [returnExits_unsaved _ hs hv ho, recordTaken_none hs] at went
    obtain ⟨hhold, hgst, hregs, hthread⟩ := returned_wentOn hv hd ha hready ho went
    refine ⟨hhold, hgst, hregs, fun i hi => ?_⟩
    obtain ⟨hpc, hpath, hst⟩ := hthread i hi
    exact ⟨hpc, hpath, hst.trans (afterBarrier_of_bar (bar_cameBack htm) _)⟩
  · have hwords : (s.teamBack core g.team).recordWords a len = s.recordWords a len := by
      simp only [recordWords_eq, coherentNat_onlyCore (onlyCore_teamBack s core g.team)]
    have htaken := recordTaken_some (s := s.teamBack core g.team) (core := core) hs
    rw [hwords] at htaken
    have htake := sameWords_takeBack g core (s.recordWords a len) flags
    rw [← htaken] at htake
    exact htake.trans (back.words.trans ((sameWords_resume_exit back.hold back.halt _).trans went.words))

end Sys2Proof.Machine

namespace Sys2Proof
open Machine

/-- Settles O46: clause by clause, the ends of a trap by the keeper's four branches, and the return by what the keeper's view or the record gives
the group before it goes on. -/
theorem trapAndReturn : Obligations.TrapAndReturn := by
  unfold Obligations.TrapAndReturn
  refine ⟨fun s core slot g hg hk hh hc => trapForwarded hg hk hh hc, fun s core slot g hg hk hh hc he hq => trapFaulted hg hk hh hc he hq,
    fun s core slot g hg hk hh hc he hq hb => trapDebugged hg hk hh hc he hq hb,
    fun s core slot g hg hk hh hs hq hlast => trapSuspended hg hk hh hs hq hlast, fun s core slot hk => ?_,
    fun s core slot g code hg hk hh hl hd hv hx hlive hst hmask ha he => resumed hg hk hh hl hd hv hx hlive hst hmask ha he,
    fun s core slot g hg hr hd hv ha hready ho he hdue hw ht => ?_⟩
  · rw [exec_groupTrapStop, execGroupTrapStop, trapStop_noKeeper hk]
  · obtain ⟨u, h, hu, hh, hhalt, hlent, only, hheld, hplain, hrecord⟩ := restored hg hr hd hv ha hready ho he hdue hw ht
    refine ⟨u, h, hu, hh, hhalt, hlent, only, hheld, fun hs htm => ?_, fun a len flags hs hlen _ => ?_⟩
    · obtain ⟨hhold, hgst, hregs, hthread⟩ := hplain hs htm
      refine ⟨hhold, hgst, hregs, fun i hi => ?_⟩
      obtain ⟨hpc, hpath, hst⟩ := hthread i hi
      exact ⟨hpc, hpath, fun c k o p e => by rw [hst, e]; rfl, fun hn => by rw [hst, afterBarrier_of_ne s hn]⟩
    · obtain ⟨hgreg, hpc, hmain⟩ := hrecord a len flags hs hlen
      obtain ⟨wgreg, wpc, wmain⟩ := record_words (a := a) s g hlen
      exact ⟨fun n hn => (hgreg n).trans (wgreg n hn), fun i hi => (hpc i hi).trans (wpc i hi),
        fun n hn j hj => ⟨(hmain n _).trans (wmain n hn j hj).1, (hmain n _).trans (wmain n hn j hj).2⟩⟩

end Sys2Proof

namespace Sys2Proof.Machine

/-! ### Floating-point instructions by their shared forms (R311–R314, R317) -/

variable {i : Instr} {f : FA} {w : FW}

/-- A two-source rounded operation in format A (R311). -/
theorem floatA_aluDone {r : FVal → FVal → FVal} (he : ∀ s, exec i s = floatA s i f r) :
    AluDone i f.guard f.d false false fun g j => BitVec.ofNat 64 (roundSat .f32 f.rnd (f.sub.val % 2 == 1)
      (r (decodeF .f32 (g.src32 j f.a).toNat) (decodeF .f32 (g.src32 j f.b).toNat))) :=
  aluDone_of he fun _ _ => rfl

/-- A two-source rounded operation in format W (R311). -/
theorem floatW_aluDone {r : FVal → FVal → FVal} (he : ∀ s, exec i s = floatW s i w r) :
    AluDone i .always w.d false false fun g j => BitVec.ofNat 64 (roundTo .f32 .rn
      (r (decodeF .f32 (g.src32 j w.a).toNat) (decodeF .f32 w.imm.toNat))) :=
  aluDone_of he fun _ _ => rfl

/-- A minimum or maximum in format A (R311). -/
theorem minMaxA_aluDone {isMax : Bool} (he : ∀ s, exec i s = minMaxA s i f isMax) :
    AluDone i f.guard f.d false false fun g j => BitVec.ofNat 64 (minMaxF .f32 isMax (f.sub.val % 2 == 1) (g.src32 j f.a).toNat
      (g.src32 j f.b).toNat) :=
  aluDone_of he fun _ _ => rfl

/-- A minimum or maximum in format W (R311). -/
theorem minMaxW_aluDone {isMax : Bool} (he : ∀ s, exec i s = minMaxW s i w isMax) :
    AluDone i .always w.d false false fun g j => BitVec.ofNat 64 (minMaxF .f32 isMax false (g.src32 j w.a).toNat w.imm.toNat) :=
  aluDone_of he fun _ _ => rfl

/-- An instruction on packed pairs (R317). -/
theorem packed_aluDone {r : Nat → Nat → Nat → Nat} (he : ∀ s, exec i s = packed s i f r) :
    AluDone i f.guard f.d false false fun g j =>
      let at_ := fun e => r (half16 (g.src32 j f.a) e) (half16 (g.src32 j f.b) e) (half16 (g.srcC32 j f.c) e)
      pair16 (at_ 0) (at_ 1) :=
  aluDone_of he fun _ _ => rfl

end Sys2Proof.Machine

namespace Sys2Proof
open Machine

/-- Settles O6: each instruction by the lemma on its form; the rest are single rows, whose operand reads are those of `Group.srcF`. -/
theorem floatArithmetic : Obligations.FloatArithmetic := by
  refine ⟨fun f => ⟨floatA_aluDone (exec_faddA f), floatA_aluDone (exec_fsub f), floatA_aluDone (exec_fmulA f),
      aluDone_of (exec_ffmaA f) fun _ _ => rfl, minMaxA_aluDone (exec_fminA f), minMaxA_aluDone (exec_fmaxA f),
      aluDone_of (exec_fsetA f) fun _ _ => rfl, aluDone_of (exec_fclass f) fun _ _ => rfl, packed_aluDone (exec_hadd2 f),
      packed_aluDone (exec_hmul2 f), packed_aluDone (exec_hfma2 f), packed_aluDone (exec_hmnmx2 f), packed_aluDone (exec_bfma2 f)⟩,
    fun f => ⟨floatW_aluDone (exec_faddW f), floatW_aluDone (exec_fmulW f), aluDone_of (exec_ffmaW f) fun _ _ => rfl,
      minMaxW_aluDone (exec_fminW f), minMaxW_aluDone (exec_fmaxW f), aluDone_of (exec_fsetW f) fun _ _ => rfl⟩⟩

end Sys2Proof

namespace Sys2Proof.Machine

/-! ### Elements of a product (R112, R113, R357) -/

theorem length_flatMap_rows {α : Type} (n : Nat) (f : Nat → Nat → α) (m : Nat) :
    ((List.range m).flatMap fun i => (List.range n).map (f i)).length = n * m := by
  induction m with
  | zero => rfl
  | succ m ih =>
    rw [List.range_succ, List.flatMap_append, List.length_append, ih, List.flatMap_singleton, List.length_map, List.length_range, Nat.mul_succ]

/-- Element (i, j) of rows laid end to end. -/
theorem getElem?_flatMap_rows {α : Type} {n : Nat} (f : Nat → Nat → α) {m i j : Nat} (hi : i < m) (hj : j < n) :
    ((List.range m).flatMap fun i => (List.range n).map (f i))[n * i + j]? = some (f i j) := by
  induction m with
  | zero => omega
  | succ m ih =>
    have hlen := length_flatMap_rows n f m
    rw [List.range_succ, List.flatMap_append, List.flatMap_singleton]
    rcases Nat.lt_or_eq_of_le (Nat.le_of_lt_succ hi) with h | rfl
    · have hlt : n * i + j < n * m := calc
        n * i + j < n * (i + 1) := by rw [Nat.mul_succ]; omega
        _ ≤ n * m := Nat.mul_le_mul_left n h
      rw [List.getElem?_append_left (by omega), ih h]
    · rw [List.getElem?_append_right (by omega), hlen, Nat.add_sub_cancel_left, List.getElem?_map, List.getElem?_range hj, Option.map_some]

/-- A word of TD is its element: live where neither an edge nor a skip turns its products into +0. -/
theorem mmaTile_getD (ty : Ty) (ts : Tile) (held : List Word32) (kv nc mr : Nat) (had : Had) (scaleA scaleB : List Word32) {i j : Nat}
    (hi : i < 64) (hj : j < 64) :
    (mmaTile ty ts held kv nc mr had scaleA scaleB).getD (64 * i + j) 0 =
      mmaElem ty (ts.at i j) ((held.drop (4 + 16 * i)).take 16) ((held.drop (1028 + 16 * j)).take 16) (scaleA.getD i 0) (scaleB.getD j 0) kv
        (decide (i < mr ∧ j < nc ∧ has (held.getD 1 0 ++ held.getD 0 0 : Word64) i = false ∧
          has (held.getD 3 0 ++ held.getD 2 0 : Word64) j = false)) had := by
  unfold mmaTile
  rw [List.getD_eq_getElem?_getD, getElem?_flatMap_rows _ hi hj, Option.getD_some]
  simp only [Bool.decide_and, Bool.decide_eq_false, Bool.and_assoc]

section
variable {ty : Ty} (acc : Word32) (ra rb : List Word32) (sa sb : Word32) (kv : Nat) (had : Had)

theorem mmaElem_int_live (h : ty = .s8 ∨ ty = .n8) :
    mmaElem ty acc ra rb sa sb kv true had = BitVec.ofInt 32 (acc.toInt + ((List.range kv).map fun k =>
      intOf ty (BitVec.ofNat 64 (elemBits ty ra k)) * intOf ty (BitVec.ofNat 64 (elemBits ty rb k))).sum) := by
  rw [List.sum_eq_foldl]
  rcases h with rfl | rfl <;> rfl

/-- An edge or a skip leaves the accumulator of an integer element. -/
theorem mmaElem_int_edge (h : ty = .s8 ∨ ty = .n8) : mmaElem ty acc ra rb sa sb kv false had = acc := by
  have e : mmaElem ty acc ra rb sa sb kv false had = BitVec.ofInt 32 (acc.toInt + 0) := by rcases h with rfl | rfl <;> rfl
  rw [e, Int.add_zero, BitVec.ofInt_toInt]

theorem mmaElem_float (h : ty = .f16 ∨ ty = .bf16 ∨ ty = .vt8 ∨ ty = .e2m1) (live : Bool) :
    mmaElem ty acc ra rb sa sb kv live had = BitVec.ofNat 32 (matrixStep acc.toNat
      ((if live then (List.range kv).map fun k => (elemF ty sa ra k).mul (elemF ty sb rb k) else [FVal.fin false 0 0]) ++
        if kv < kMax ty then [FVal.fin false 0 0] else []) (hadShift had)) := by
  have happ : ∀ l : List FVal, (if kv < kMax ty then l ++ [FVal.fin false 0 0] else l) = l ++ if kv < kMax ty then [FVal.fin false 0 0] else [] :=
    fun l => by split <;> simp
  rw [← happ]
  rcases h with rfl | rfl | rfl | rfl <;> rfl

/-- At full K no +0 joins the products of a live element. -/
theorem mmaElem_float_full (h : ty = .f16 ∨ ty = .bf16 ∨ ty = .vt8 ∨ ty = .e2m1) (hk : kv = kMax ty) :
    mmaElem ty acc ra rb sa sb kv true had = BitVec.ofNat 32 (matrixStep acc.toNat
      ((List.range kv).map fun k => (elemF ty sa ra k).mul (elemF ty sb rb k)) (hadShift had)) := by
  rw [mmaElem_float acc ra rb sa sb kv had h, if_pos rfl, if_neg (hk ▸ Nat.lt_irrefl kv), List.append_nil]

/-- At an edge or a skip every product is +0, and so is the one that stands for those beyond a partial K. -/
theorem mmaElem_float_edge (h : ty = .f16 ∨ ty = .bf16 ∨ ty = .vt8 ∨ ty = .e2m1) :
    ∃ z ∈ [[FVal.fin false 0 0], [FVal.fin false 0 0, FVal.fin false 0 0]],
      mmaElem ty acc ra rb sa sb kv false had = BitVec.ofNat 32 (matrixStep acc.toNat z (hadShift had)) := by
  refine ⟨_, ?_, mmaElem_float acc ra rb sa sb kv had h false⟩
  by_cases hk : kv < kMax ty <;> simp [hk]

end

/-- The number that 8 bits stand for, of the same bits in a wider word. -/
theorem intOf_byte {ty : Ty} (h : ty = .s8 ∨ ty = .n8) (b : Byte) :
    intOf ty (BitVec.ofNat 64 b.toNat) = if ty = .s8 then b.toInt else (b.toNat : Int) := by
  have hb : (BitVec.ofNat 64 b.toNat).toNat % 2 ^ 8 = b.toNat := by
    rw [BitVec.toNat_ofNat]
    omega
  rcases h with rfl | rfl
  · simp only [intOf, Ty.width, hb, BitVec.toInt_eq_toNat_cond]
    simp [Ty.signed]
    split <;> split <;> omega
  · simp only [intOf, Ty.width, hb]
    rfl

/-- Element k of a row of 8-bit integers is its byte k. -/
theorem elemBits_byte {ty : Ty} (h : ty = .s8 ∨ ty = .n8) (r : List Word32) (k : Nat) :
    elemBits ty r k = (((r.getD (k / 4) 0) >>> (8 * (k % 4))).setWidth 8 : Byte).toNat := by
  rcases h with rfl | rfl <;> simp [elemBits, Nat.shiftRight_eq_div_pow]

theorem matrixStep_of_fin {products : List FVal} {n : Bool} {m : Nat} {e : Int} (h : exactSum .rn products = .fin n m e) (hm : m ≠ 0)
    (acc shift : Nat) :
    matrixStep acc products shift = roundTo .f32 .rn (exactSum .rn [decodeF .f32 acc, .fin n m (e - shift)]) := by
  simp only [matrixStep, h, hm, if_false]

end Sys2Proof.Machine

namespace Sys2Proof
open Machine

/-- Settles O38: a word of the tile is its element (`mmaTile_getD`), which its type and whether it is live decide. -/
theorem matrixProduct : Obligations.MatrixProduct := by
  unfold Obligations.MatrixProduct
  intro ty ts held kv nc mr had scaleA scaleB i hi j hj skips live ra rb acc out
  have hout : out = mmaElem ty acc ra rb (scaleA.getD i 0) (scaleB.getD j 0) kv (decide live) had :=
    mmaTile_getD ty ts held kv nc mr had scaleA scaleB hi hj
  rw [hout]
  refine ⟨fun hty hl _ => ?_, fun hty hl => ?_, fun hty hl hk => ?_, fun hty hl => ?_,
    fun prods n m e shift a h hm => matrixStep_of_fin h hm a shift⟩
  · rw [decide_eq_true hl, mmaElem_int_live acc ra rb _ _ kv had hty]
    simp only [elemBits_byte hty, intOf_byte hty]
  · rw [decide_eq_false hl, mmaElem_int_edge acc ra rb _ _ kv had hty]
  · rw [decide_eq_true hl, mmaElem_float_full acc ra rb _ _ kv had hty hk]
  · rw [decide_eq_false hl]
    exact mmaElem_float_edge acc ra rb _ _ kv had hty

end Sys2Proof

namespace Sys2Proof.Machine

/-! ### An instruction that writes registers and moves on -/

/-- What a group holds once its gang, whose effect `f` has written registers of its group, has moved on. -/
theorem advance_wrote {s : State} {g k : Group} (x : Guard) (cl : Option Cls) {f : Core → Core}
    (hg : s.group? s.cur.core s.cur.slot = some g) (hw : (s.core s.cur.core).Wrote (f (s.core s.cur.core)) s.cur.slot g k) :
    ∃ h, ((gangOf s g x cl).advance (s.modCore s.cur.core f)).group? s.cur.core s.cur.slot = some h ∧ SameRegs k h ∧
      MovedOn g h s.cur.mask ∧ SameGroup g h ∧
      OnlyGroup s ((gangOf s g x cl).advance (s.modCore s.cur.core f)) s.cur.core s.cur.slot [] := by
  obtain ⟨hnow, honly⟩ := onlyGroup_advance (x := gangOf s g x cl) hg hw
  obtain ⟨b, hb⟩ : ∃ b, (f (s.core s.cur.core)).afterPort k = { k with yielded := b } := by
    unfold Core.afterPort
    split <;> exact ⟨_, rfl⟩
  have hk : k = { g with v := k.v, q := k.q, l := k.l, g := k.g } := hw.group
  have hmoved := moved_same { k with yielded := b } s.cur.mask
  refine ⟨({ k with yielded := b } : Group).moved s.cur.mask, hb ▸ hnow, ?_,
    movedOn_moved s.cur.mask (fun i _ => ?_) (fun i _ _ => ?_), ?_, honly⟩
  · rw [hmoved]
    exact ⟨rfl, rfl, rfl, rfl, rfl⟩
  · rw [hk]
    rfl
  · rw [hk]
    rfl
  · unfold SameGroup
    rw [hmoved, hk]

/-! ### Registers of lanes by name -/

theorem regAt_setReg (g : Group) (r : RReg) (m : Mask) (v : Nat → Word32) (q : RReg) {i : Nat} (hi : i < 64) :
    regAt (g.setReg r m v) q i = if r = q ∧ has m i = true then v i else regAt g q i := by
  cases q with
  | v n => exact setReg_main g r m v n hi
  | q n => exact setReg_q g r m v n hi
  | l n => exact setReg_l g r m v n hi

theorem regAt_setReg_outside (g : Group) (r : RReg) {m : Mask} (v : Nat → Word32) (q : RReg) {i : Nat} (hi : i < 64) (hm : has m i = false) :
    regAt (g.setReg r m v) q i = regAt g q i := by
  rw [regAt_setReg g r m v q hi, if_neg (by simp [hm])]

theorem regAt_setReg_ne (g : Group) {r q : RReg} (m : Mask) (v : Nat → Word32) {i : Nat} (hi : i < 64) (h : r ≠ q) :
    regAt (g.setReg r m v) q i = regAt g q i := by
  rw [regAt_setReg g r m v q hi, if_neg (by simp [h])]

theorem regAt_of_sameRegs {k h : Group} (e : SameRegs k h) (r : RReg) (i : Nat) : regAt h r i = regAt k r i := by
  cases r <;> simp only [regAt, Group.mainAt, e.main, e.q, e.l]

/-- From `g` to `h` only registers of lanes change. -/
def Group.sameButLanes (g h : Group) : Prop := h = { g with v := h.v, q := h.q, l := h.l }

theorem Group.sameButLanes.trans {a b c : Group} (h : a.sameButLanes b) (k : b.sameButLanes c) : a.sameButLanes c := by
  unfold Group.sameButLanes at *
  rw [k, h]

theorem sameButLanes_setReg (g : Group) (r : RReg) (m : Mask) (v : Nat → Word32) : g.sameButLanes (g.setReg r m v) := setReg_same g r m v

/-- A group after writes of `n` successive main registers from `d` on. -/
def Group.setBlock (g : Group) (d : Nat) (m : Mask) (v : Nat → Nat → Word32) (n : Nat) : Group :=
  (List.range n).foldl (fun g k => g.setReg (.v (d + k)) m (v k)) g

section
variable (g : Group) (d : Nat) (m : Mask) (v : Nat → Nat → Word32) (n : Nat)

theorem setBlock_succ : g.setBlock d m v (n + 1) = (g.setBlock d m v n).setReg (.v (d + n)) m (v n) := by
  unfold Group.setBlock
  rw [List.range_succ, List.foldl_append]
  rfl

theorem sameButLanes_setBlock : g.sameButLanes (g.setBlock d m v n) := by
  induction n with
  | zero => rfl
  | succ n ih =>
    rw [setBlock_succ]
    exact ih.trans (sameButLanes_setReg _ _ _ _)

theorem regAt_setBlock_rest {r : RReg} {i : Nat} (hi : i < 64) (h : has m i = false ∨ ∀ k < n, r ≠ .v (d + k)) :
    regAt (g.setBlock d m v n) r i = regAt g r i := by
  induction n with
  | zero => rfl
  | succ n ih =>
    rw [setBlock_succ]
    rcases h with h | h
    · rw [regAt_setReg_outside _ _ _ _ hi h, ih (.inl h)]
    · rw [regAt_setReg_ne _ _ _ hi (h n (by omega)).symm, ih (.inr fun k hk => h k (by omega))]

theorem regAt_setBlock {i k : Nat} (hi : i < 64) (hm : has m i = true) (hk : k < n) :
    regAt (g.setBlock d m v n) (.v (d + k)) i = v k i := by
  induction n with
  | zero => omega
  | succ n ih =>
    rw [setBlock_succ, regAt_setReg _ _ _ _ _ hi]
    by_cases e : k = n
    · rw [e, if_pos ⟨rfl, hm⟩]
    · rw [if_neg (by simp only [RReg.v.injEq]; omega), ih (by omega)]

theorem Core.wrote_setBlock {c : Core} {l : Nat} {g : Group} (h : get? c.groups l = some g) :
    c.Wrote ((List.range n).foldl (fun c k => c.writeReg l (.v (d + k)) m (v k)) c) l g (g.setBlock d m v n) := by
  induction n with
  | zero => exact .refl h
  | succ n ih =>
    rw [List.range_succ, List.foldl_append, setBlock_succ]
    exact ih.trans (Core.wrote_writeReg ih.now _ m (v n))

end

/-! ### CVTQ (R107, R319) -/

/-- The words and the scale byte of lane i. -/
def Group.cvtqAt (g : Group) (f : FCvq) (i : Nat) : List Word32 × Nat :=
  cvtqOf f ((List.range (cvtqLen f)).map fun k => decodeF .f32 (g.mainAt (mainNum f.a + k) i).toNat)

/-- The words and the scale byte of lane i where it is in M; another lane has none. -/
def Group.cvtqRes (g : Group) (f : FCvq) (m : Mask) (i : Nat) : List Word32 × Nat :=
  ((List.range 64).map fun j => if has m j then g.cvtqAt f j else ([], 0)).getD i ([], 0)

theorem cvtqRes_of_has (g : Group) (f : FCvq) {m : Mask} {i : Nat} (h : has m i = true) : g.cvtqRes f m i = g.cvtqAt f i := by
  simp [Group.cvtqRes, List.getD_eq_getElem?_getD, lt_of_has h, h]

/-- The register that takes the scale byte. -/
def cvtqScale (f : FCvq) : Option RReg :=
  match f.ty, f.c with
  | .e2m1, .main c => some (.v c.val)
  | .e2m1, .q c => some (.q c.val)
  | _, _ => none

theorem cvtqScale_eq_v (f : FCvq) (n : Nat) : cvtqScale f = some (.v n) ↔ f.ty = .e2m1 ∧ ∃ c, f.c = .main c ∧ c.val = n := by
  unfold cvtqScale
  split <;> simp_all

theorem cvtqScale_eq_q {f : FCvq} {c : Fin 8} (ht : f.ty = .e2m1) (hc : f.c = .q c) : cvtqScale f = some (.q c.val) := by
  unfold cvtqScale
  rw [ht, hc]

theorem cvtqScale_ne_l (f : FCvq) (n : Nat) : cvtqScale f ≠ some (.l n) := by
  unfold cvtqScale
  split <;> simp

/-- C of a well-formed `CVTQ.e2m1` is a main or `q` register (R319). -/
theorem scaleC_of_settingsOk {f : FCvq} (h : f.settingsOk = true) (ht : f.ty = .e2m1) : (∃ c, f.c = .main c) ∨ ∃ c, f.c = .q c := by
  unfold FCvq.settingsOk at h
  rw [ht] at h
  cases hd : f.d <;> cases ha : f.a <;> cases hc : f.c <;> simp_all

/-- A group after the write of the scale byte of each lane of M, where `r` takes one. -/
def Group.setScale (b g : Group) (f : FCvq) (m : Mask) : Group :=
  match cvtqScale f with
  | some r => b.setReg r m fun i => setByte (regAt g r i) (immSel f.b) (g.cvtqRes f m i).2
  | none => b

/-- A group after a `CVTQ` of the lanes of M: the words of the block, the scale byte, `l1` and `l0`. -/
def Group.afterCvtq (g : Group) (f : FCvq) (m : Mask) : Group :=
  let b := (g.setBlock (mainNum f.d) m (fun k i => (g.cvtqRes f m i).1.getD k 0) (g.cvtqAt f (lowLane m)).1.length).setScale g f m
  (b.setReg (.l 1) m fun i => rowAt (rowOf b.l 0) i).setReg (.l 0) m fun i => (g.cvtqRes f m i).1.getD 0 0

/-- What `CVTQ` does to its core. -/
def Core.writeCvtq (c : Core) (slot : Nat) (m : Mask) (f : FCvq) (g : Group) : Core :=
  let c := (List.range (g.cvtqAt f (lowLane m)).1.length).foldl (fun c k =>
    c.writeReg slot (.v (mainNum f.d + k)) m fun i => (g.cvtqRes f m i).1.getD k 0) c
  let c := if f.ty = .e2m1 then
      c.writeDst slot m false false f.c fun i => (setByte (g.src32 i f.c) (immSel f.b) (g.cvtqRes f m i).2).setWidth 64
    else c
  c.updateL slot m fun i => ((g.cvtqRes f m i).1.getD 0 0).setWidth 64

theorem execCvtq_eq (f : FCvq) (s : State) : execCvtq f s = issue s (.cvtq f) f.guard fun x s =>
    if x.m = 0 then s else s.modCore x.core fun c => c.writeCvtq x.slot x.m f x.grp := rfl

theorem lo32_setWidth (x : Word32) : lo32 (x.setWidth 64) = x := by simp [lo32]

theorem Core.wrote_updateL {c : Core} {l : Nat} {g : Group} (h : get? c.groups l = some g) (m : Mask) (v : Nat → Word64) :
    c.Wrote (c.updateL l m v) l g ((g.setReg (.l 1) m fun i => rowAt (rowOf g.l 0) i).setReg (.l 0) m fun i => lo32 (v i)) :=
  have a := Core.shiftL_effect h m
  a.trans (Core.wrote_writeReg a.now (.l 0) m fun i => lo32 (v i))

/-- The write of the scale byte goes to C as a register of lanes. -/
theorem Core.wrote_scale {c : Core} {l : Nat} {b : Group} (h : get? c.groups l = some b) {m : Mask} (hm : m ≠ 0) {f : FCvq}
    (hf : f.settingsOk = true) (g : Group) :
    c.Wrote (if f.ty = .e2m1 then
        c.writeDst l m false false f.c fun i => (setByte (g.src32 i f.c) (immSel f.b) (g.cvtqRes f m i).2).setWidth 64
      else c) l b (b.setScale g f m) := by
  unfold Group.setScale
  by_cases ht : f.ty = .e2m1
  · rw [if_pos ht]
    unfold Core.writeDst cvtqScale
    rw [if_neg hm, ht]
    rcases scaleC_of_settingsOk hf ht with ⟨n, hn⟩ | ⟨n, hn⟩
    · rw [hn]
      simp only [lo32_setWidth]
      exact Core.wrote_writeReg h _ m _
    · rw [hn]
      simp only [lo32_setWidth]
      exact Core.wrote_writeReg h _ m _
  · have hn : cvtqScale f = none := by
      unfold cvtqScale
      split <;> simp_all
    rw [if_neg ht, hn]
    exact .refl h

/-- What `CVTQ` writes where some lane is in M; its values come from the group as the gang sees it (R272). -/
theorem Core.wrote_writeCvtq {c : Core} {l : Nat} {g : Group} (h : get? c.groups l = some g) {m : Mask} (hm : m ≠ 0) {f : FCvq}
    (hf : f.settingsOk = true) : c.Wrote (c.writeCvtq l m f g.shown) l g (g.afterCvtq f m) := by
  have block := Core.wrote_setBlock (mainNum f.d) m (fun k i => (g.cvtqRes f m i).1.getD k 0) (g.cvtqAt f (lowLane m)).1.length h
  have scale := block.trans (Core.wrote_scale block.now hm hf g.shown)
  have low := scale.trans (Core.wrote_updateL scale.now m fun i => ((g.cvtqRes f m i).1.getD 0 0).setWidth 64)
  simp only [lo32_setWidth] at low
  exact low

theorem regAt_setScale (b g : Group) (f : FCvq) (m : Mask) (r : RReg) {i : Nat} (hi : i < 64) :
    regAt (b.setScale g f m) r i =
      if cvtqScale f = some r ∧ has m i = true then setByte (regAt g r i) (immSel f.b) (g.cvtqAt f i).2 else regAt b r i := by
  unfold Group.setScale
  cases cvtqScale f with
  | none => simp
  | some q =>
    simp only [Option.some.injEq, regAt_setReg _ _ _ _ _ hi]
    by_cases h : q = r ∧ has m i = true
    · rw [if_pos h, if_pos h, cvtqRes_of_has g f h.2, h.1]
    · rw [if_neg h, if_neg h]

theorem sameButLanes_setScale (b g : Group) (f : FCvq) (m : Mask) : b.sameButLanes (b.setScale g f m) := by
  unfold Group.setScale
  split
  · exact sameButLanes_setReg _ _ _ _
  · rfl

/-- The registers of `k` are those of `g` after a `CVTQ` of the lanes of M. -/
structure CvtqRegs (f : FCvq) (m : Mask) (g k : Group) : Prop where
  words : ∀ i < 64, has m i = true → ∀ j < (g.cvtqAt f (lowLane m)).1.length, cvtqScale f ≠ some (.v (mainNum f.d + j)) →
    regAt k (.v (mainNum f.d + j)) i = (g.cvtqAt f i).1.getD j 0
  scale : ∀ i < 64, has m i = true → ∀ r, cvtqScale f = some r → regAt k r i = setByte (regAt g r i) (immSel f.b) (g.cvtqAt f i).2
  low : ∀ i < 64, has m i = true → regAt k (.l 0) i = (g.cvtqAt f i).1.getD 0 0 ∧ regAt k (.l 1) i = regAt g (.l 0) i
  outside : ∀ i < 64, has m i = false → ∀ r, regAt k r i = regAt g r i
  beyond : ∀ i < 64, ∀ n, n < mainNum f.d ∨ mainNum f.d + (g.cvtqAt f (lowLane m)).1.length ≤ n → cvtqScale f ≠ some (.v n) →
    regAt k (.v n) i = regAt g (.v n) i
  others : g.sameButLanes k

/-- Where no lane is in M, `CVTQ` changes no register. -/
theorem cvtqRegs_zero (f : FCvq) (g : Group) : CvtqRegs f 0 g g where
  words i _ h := absurd h (by simp [has_zero])
  scale i _ h := absurd h (by simp [has_zero])
  low i _ h := absurd h (by simp [has_zero])
  outside _ _ _ _ := rfl
  beyond _ _ _ _ _ := rfl
  others := rfl

/-- A register other than `l0` and `l1` after a `CVTQ` is as the block and the scale byte leave it. -/
theorem regAt_afterCvtq (g : Group) (f : FCvq) (m : Mask) {r : RReg} {i : Nat} (hi : i < 64)
    (h : has m i = false ∨ ∀ n, r ≠ .l n) :
    regAt (g.afterCvtq f m) r i =
      regAt ((g.setBlock (mainNum f.d) m (fun k i => (g.cvtqRes f m i).1.getD k 0) (g.cvtqAt f (lowLane m)).1.length).setScale g f m) r i := by
  unfold Group.afterCvtq
  rcases h with h | h
  · rw [regAt_setReg_outside _ _ _ _ hi h, regAt_setReg_outside _ _ _ _ hi h]
  · rw [regAt_setReg_ne _ _ _ hi (h 0).symm, regAt_setReg_ne _ _ _ hi (h 1).symm]

theorem cvtqRegs_afterCvtq (g : Group) (f : FCvq) (m : Mask) : CvtqRegs f m g (g.afterCvtq f m) where
  words i hi hm j hj hs := by
    rw [regAt_afterCvtq g f m hi (.inr fun _ => by simp), regAt_setScale _ _ _ _ _ hi, if_neg fun h => hs h.1,
      regAt_setBlock _ _ _ _ _ hi hm hj, cvtqRes_of_has g f hm]
  scale i hi hm r hr := by
    have hl : ∀ n, r ≠ .l n := fun n e => cvtqScale_ne_l f n (e ▸ hr)
    rw [regAt_afterCvtq g f m hi (.inr hl), regAt_setScale _ _ _ _ _ hi, if_pos ⟨hr, hm⟩]
  low i hi hm := by
    have hl : ∀ b : Group, rowAt (rowOf b.l 0) i = regAt b (.l 0) i := fun _ => rfl
    unfold Group.afterCvtq
    refine ⟨?_, ?_⟩
    · rw [regAt_setReg _ _ _ _ _ hi, if_pos ⟨rfl, hm⟩, cvtqRes_of_has g f hm]
    · rw [regAt_setReg_ne _ _ _ hi (by simp), regAt_setReg _ _ _ _ _ hi, if_pos ⟨rfl, hm⟩, hl, regAt_setScale _ _ _ _ _ hi,
        if_neg fun h => cvtqScale_ne_l f 0 h.1, regAt_setBlock_rest _ _ _ _ _ hi (.inr fun _ _ => by simp)]
  outside i hi hm r := by
    rw [regAt_afterCvtq g f m hi (.inl hm), regAt_setScale _ _ _ _ _ hi, if_neg (by simp [hm]), regAt_setBlock_rest _ _ _ _ _ hi (.inl hm)]
  beyond i hi n hn hs := by
    rw [regAt_afterCvtq g f m hi (.inr fun _ => by simp), regAt_setScale _ _ _ _ _ hi, if_neg fun h => hs h.1,
      regAt_setBlock_rest _ _ _ _ _ hi (.inr fun k hk => by simp only [ne_eq, RReg.v.injEq]; omega)]
  others := by
    unfold Group.afterCvtq
    exact (((sameButLanes_setBlock _ _ _ _ _).trans (sameButLanes_setScale _ _ _ _)).trans (sameButLanes_setReg _ _ _ _)).trans
      (sameButLanes_setReg _ _ _ _)

/-- Everything that `CVTQ` does. -/
theorem execCvtq_effect {s : State} {f : FCvq} {g : Group} (h : Issuing s (.cvtq f) g) :
    ∃ t h k, exec (.cvtq f) s = .next t ∧ t.group? s.cur.core s.cur.slot = some h ∧ CvtqRegs f (mOf s g f.guard) g k ∧ SameRegs k h ∧
      MovedOn g h s.cur.mask ∧ SameGroup g h ∧ OnlyGroup s t s.cur.core s.cur.slot [] := by
  have hwf : f.settingsOk = true := by simpa [Instr.wf] using h.2.1
  rw [exec_cvtq, execCvtq_eq]
  by_cases hm : mOf s g f.guard = 0
  · obtain ⟨k, hk, hregs, hmoved, -, hsame, honly⟩ := advance_only h.1 f.guard (Instr.cvtq f).cls
    exact ⟨_, k, g, issueWith_next h (congrArg (·, true) (if_pos hm)), hk, hm ▸ cvtqRegs_zero f g, hregs, hmoved, hsame, honly⟩
  · obtain ⟨k, hk, hregs, hmoved, hsame, honly⟩ := advance_wrote f.guard (Instr.cvtq f).cls
      (f := fun c => c.writeCvtq s.cur.slot (mOf s g f.guard) f g.shown) h.1 (Core.wrote_writeCvtq h.1 hm hwf)
    exact ⟨_, k, _, issueWith_next h (congrArg (·, true) (if_neg hm)), hk, cvtqRegs_afterCvtq g f _, hregs, hmoved, hsame, honly⟩

end Sys2Proof.Machine

namespace Sys2Proof
open Machine

/-- Settles O7: the conversions are rows that complete at issue; `CVTQ` by its registers (`CvtqRegs`), which moving on leaves. -/
theorem conversions : Obligations.Conversions := by
  refine ⟨fun f => aluDone_of (exec_cvt f) fun _ _ => rfl,
    fun f => ⟨aluDone_of (exec_cvtd f) fun _ _ => rfl, aluDone_of (exec_frnd f) fun _ _ => rfl, aluDone_of (exec_fscale f) fun _ _ => rfl⟩,
    fun f s g hi => ?_⟩
  obtain ⟨t, h, k, ht, hh, regs, hregs, hmoved, hsame, honly⟩ := execCvtq_effect hi
  have at_ := regAt_of_sameRegs hregs
  have notC := fun n => (not_congr (cvtqScale_eq_v f n)).2
  have others : k = { g with v := k.v, q := k.q, l := k.l } := regs.others
  refine ⟨t, h, ht, hh, fun i hi hm => ⟨fun j hj hc => ?_, fun n hc => ?_, fun hty c hc => ?_, ?_, ?_⟩, fun i hi n hn => ?_,
    fun i hi hm n => ⟨?_, ?_⟩, hregs.uniform.trans (by rw [others]), hregs.masks.trans (by rw [others]), hmoved, hsame, honly⟩
  · exact (at_ (.v _) i).trans (regs.words i hi hm j hj (notC _ hc))
  · exact (at_ (.v n) i).trans (regs.scale i hi hm _ ((cvtqScale_eq_v f n).2 hc))
  · exact (at_ (.q _) i).trans (regs.scale i hi hm _ (cvtqScale_eq_q hty hc))
  · exact (at_ (.l 0) i).trans (regs.low i hi hm).1
  · exact (at_ (.l 1) i).trans (regs.low i hi hm).2
  · refine (at_ (.v n) i).trans ?_
    rcases hn with hm | ⟨hn, hc⟩
    · exact regs.outside i hi hm _
    · exact regs.beyond i hi n hn (notC n hc)
  · exact (at_ (.q n) i).trans (regs.outside i hi hm _)
  · exact (at_ (.l n) i).trans (regs.outside i hi hm _)

end Sys2Proof
